-- ==== Sys2Proof/Word.lean ====
section
/-! DEFINITION. The widths of the W80 as bit vectors (R5, R11, R29). Nothing here is a rule of the machine. -/

namespace Sys2Proof

/-- A byte of memory (R6). -/
abbrev Byte := BitVec 8
/-- A vector register, an IMM32 field (R11, R52). -/
abbrev W32 := BitVec 32
/-- A uniform register, a vector pair, a host register (R11, R14). -/
abbrev W64 := BitVec 64
/-- A program counter or a checked virtual address (R11, R21). -/
abbrev Va := BitVec 56

end Sys2Proof
end

