-- ==== Sys2Proof/Syntax.lean ====
section
/-! DEFINITION. The instructions of Gibry (opcodes 0x00 to 0xFF, Tables 3-7 to 3-13) and the other steps of the
W80: one constructor for each row of spec/opcode_table.json. A step that is no instruction of a thread (an event of
an engine, a home, the host or the hearth) has no word; its arguments say where it happens. -/

namespace Sys2Proof

/-- Accuracy class, field AC (Table 2-6); 0b11 is no instruction. -/
inductive AccClass where
  | ex | tr | lg
  deriving DecidableEq, Repr

/-- The fields every base word but NOP's holds (Table 3-2): guard predicate PG, guard negate PN, accuracy class AC
and lookahead count LA. -/
structure Hdr where
  pg : BitVec 3
  pn : Bool
  ac : AccClass
  la : BitVec 4
  deriving DecidableEq, Repr

/-- Second or third source: a vector register, or the 8-bit immediate of field C (R68). -/
inductive Src where
  | reg (r : BitVec 8)
  | imm (i : BitVec 8)
  deriving DecidableEq, Repr

/-- A 64-bit operand: a vector pair, named by its even register, or a uniform register (R14, R81). -/
inductive Opd64 where
  | pair (r : BitVec 8)
  | uni (k : BitVec 6)
  deriving DecidableEq, Repr

/-- Second source of a 64-bit instruction (R81). -/
inductive Src64 where
  | opd (o : Opd64)
  | imm (i : BitVec 8)
  deriving DecidableEq, Repr

/-- A data register of a memory instruction (Table 3-4, UD): first vector register, or a uniform register. -/
inductive DataReg where
  | vec (r : BitVec 8)
  | uni (k : BitVec 6)
  deriving DecidableEq, Repr

/-- Access size SZ (Table 3-4). -/
inductive Sz where
  | b1 | b2 | b4 | b8 | b16
  deriving DecidableEq, Repr

/-- Rounding mode (Table 2-4). -/
inductive Rm where
  | rne | rz | ru | rd
  deriving DecidableEq, Repr

/-- Floating-point format FMT (Table 3-4). -/
inductive Fmt where
  | f32 | f16 | bf16 | e4m3 | e5m2
  deriving DecidableEq, Repr

/-- MOD of a rounding floating-point instruction (Table 3-4). -/
structure FCfg where
  rm : Rm
  sat : Bool
  fmt : Fmt
  deriving DecidableEq, Repr

/-- Element types of CVT (Table 5-6). -/
inductive Ty where
  | f32 | f16 | bf16 | e4m3 | e5m2 | e8m0 | int32 | uint32 | int16 | uint16 | int8 | uint8
  deriving DecidableEq, Repr

/-- Lease class LC (Table 3-5). -/
inductive Lc where
  | dflt | long | none
  deriving DecidableEq, Repr

/-- HINT (Table 3-5). -/
inductive Hint where
  | normal | stream | keep
  deriving DecidableEq, Repr

/-- SCOPE (Table 3-5). -/
inductive Scope where
  | group | team | cluster | partition | field | system
  deriving DecidableEq, Repr

/-- MEMX: lease class, hint and scope (R53). -/
structure MemX where
  lc : Lc
  hint : Hint
  scope : Scope
  deriving DecidableEq, Repr

/-- Base, offset and extension of a memory operand (R22, R53) with its access size. -/
structure Mem where
  base : Opd64
  off : BitVec 24
  x : MemX
  sz : Sz
  deriving DecidableEq, Repr

/-- Integer conditions (Table 4-6). -/
inductive Cond where
  | eq | ne | lt | le | gt | ge | ltu | leu | gtu | geu
  deriving DecidableEq, Repr

/-- Floating-point conditions (Table 5-3). -/
inductive FCond where
  | eq | ne | lt | le | gt | ge | un | ord
  deriving DecidableEq, Repr

/-- FSGN operations (R96). -/
inductive SgnOp where
  | cp | neg | xor
  deriving DecidableEq, Repr

/-- Fill kinds of BYTEP (R75). -/
inductive FillKind where
  | z | o | sgn
  deriving DecidableEq, Repr

/-- Atomic operations (Table 12-3). -/
inductive AtomOp where
  | add | fadd | min | max | minu | maxu | and | or | xor | swap | cas | ring
  deriving DecidableEq, Repr

/-- Host atomic operations (R417). -/
inductive HostAtomOp where
  | add | swap | cas
  deriving DecidableEq, Repr

/-- Cross-lane reduction operators 0 to 10 (Table 8-5). -/
inductive RedOp where
  | add | min | max | minu | maxu | and | or | xor | fadd | fmin | fmax
  deriving DecidableEq, Repr

/-- Key types of SELMAX, SELMIN and LSCAN.rank (R135). -/
inductive KeyTy where
  | s32 | u32 | f32
  deriving DecidableEq, Repr

/-- VOTE modes with the kinds of D and A each calls for (Table 8-4). -/
inductive VoteOp where
  | some (pd pa : BitVec 3)
  | every (pd pa : BitVec 3)
  | mask (d : BitVec 8) (pa : BitVec 3)
  | alike (pd : BitVec 3) (a : BitVec 8)
  deriving DecidableEq, Repr

/-- SHFL modes (R142). -/
inductive ShflOp where
  | idx | up | down | xor
  deriving DecidableEq, Repr

/-- A fence or tag item: a handle, or a range of granules from a uniform register; g is the count less one
(R230, R232). -/
inductive Item where
  | handle (h : BitVec 4)
  | range (k : BitVec 6) (g : BitVec 15)
  deriving DecidableEq, Repr

/-- Fence directions (R230). -/
inductive FenceDir where
  | acq | rel | ar
  deriving DecidableEq, Repr

/-- A range of operand slots or accumulator tiles; n is the count less one, field C (R281). -/
inductive ClaimRange where
  | slots (a : BitVec 7) (n : BitVec 8)
  | tiles (a : BitVec 6) (n : BitVec 8)
  deriving DecidableEq, Repr

/-- Verdicts of RFE and RESOLVE (R343, R350). -/
inductive Verdict where
  | resume | kill | fatal
  deriving DecidableEq, Repr

/-- AFMT codes an ACCWR may name (R281). -/
inductive Af where
  | f32 | i32
  deriving DecidableEq, Repr

/-- How a PCI Express completion ends (R409, R410). -/
inductive HostStatus where
  | success | unsupported | abort | timeout | poisoned
  deriving DecidableEq, Repr

/-- A request for measurements: a block, and the requester's nonce (R388). -/
structure MeasReq where
  block : BitVec 8
  nonce : BitVec 256
  deriving DecidableEq, Repr

/-- A key that a host installs: a data key pair by its index, or the MAC key, and its value (R386). -/
structure KeyInstall where
  pair : Option (BitVec 4)
  val : Nat
  deriving DecidableEq, Repr

/-- A request that another module sends here (R412). -/
structure RemoteReq where
  dst : BitVec 6     -- destination module id (R411)
  src : Nat          -- requester's module id
  part : BitVec 7    -- requester's partition tag (R411)
  world : Nat        -- requester's world tag
  rworld : Nat       -- the requester's RWORLD for this module
  va : W64           -- FRAME and offset, read in the home world
  size : Nat
  op : Option AtomOp -- an atomic, or none
  write : Bool
  ferry : Bool
  b : W64
  c : W64
  data : List Byte
  deriving DecidableEq, Repr

/-- What another module answers (R412, R413): data, or a fault code with DETAIL. -/
inductive RemoteResp where
  | ok (data : List Byte)
  | fault (code : BitVec 8) (detail : W32)
  deriving DecidableEq, Repr

/-- Registers whose write has no row of its own (R7): work-queue, trap, debug, configuration, MSI-X and
physical-function registers. `dbg` is an offset of a debug window, reached by world n's function or through the aperture of
port n (Table 23-2); `other` is an access that no register takes, by its offset and size (R400). -/
inductive HostReg where
  | wqca (q : Nat)
  | handlerq (w : Nat)
  | dbgsel (w : Nat) | dbgbuf (w : Nat) | dbg (n off : Nat) (pf : Bool)
  | wroot (w : Nat) | wctx (w : Nat) | wttb (w : Nat) | wstkb (w : Nat) | wstkn (w : Nat) | wsec (w : Nat)
  | rtsel (w : Nat)
  | msix (w i : Nat)
  | cmdca (p : Nat) | portcap (p : Nat) | evbase (p : Nat) | evhead (p : Nat) | snapctl (p : Nat)
  | numvfs (p : Nat)
  | whsel (p : Nat) | whmask (p : Nat) | dsel (p : Nat) | fpsel (p : Nat) | fwbuf (p : Nat)
  | other (n off size : Nat) (pf : Bool)
  deriving DecidableEq, Repr

/-- A mesh packet as a router meets it (R371, R379). -/
structure Packet where
  dest : W32
  ptag : BitVec 7
  wtag : BitVec 11
  port : BitVec 3
  cls : BitVec 2
  deriving DecidableEq, Repr

inductive Instr where
  -- NOP (R59)
  | nop64 | nop96 | nop128
  -- integer arithmetic (Table 4-2)
  | add (h : Hdr) (d a : BitVec 8) (s : Src)
  | addi (h : Hdr) (d a : BitVec 8) (imm : W32)
  | sub (h : Hdr) (d a : BitVec 8) (s : Src)
  | mul (h : Hdr) (d a : BitVec 8) (s : Src)
  | mulh (h : Hdr) (d a : BitVec 8) (s : Src)
  | mulhu (h : Hdr) (d a : BitVec 8) (s : Src)
  | mulw (h : Hdr) (u : Bool) (d a : BitVec 8) (s : Src)
  | mad (h : Hdr) (d a b : BitVec 8) (t : Src)
  | div (h : Hdr) (d a : BitVec 8) (s : Src)
  | divu (h : Hdr) (d a : BitVec 8) (s : Src)
  | rem (h : Hdr) (d a : BitVec 8) (s : Src)
  | remu (h : Hdr) (d a : BitVec 8) (s : Src)
  | abs (h : Hdr) (sat : Bool) (d a : BitVec 8)
  | neg (h : Hdr) (sat : Bool) (d a : BitVec 8)
  | min (h : Hdr) (d a : BitVec 8) (s : Src)
  | max (h : Hdr) (d a : BitVec 8) (s : Src)
  | minu (h : Hdr) (d a : BitVec 8) (s : Src)
  | maxu (h : Hdr) (d a : BitVec 8) (s : Src)
  | addsat (h : Hdr) (u : Bool) (d a : BitVec 8) (s : Src)
  | subsat (h : Hdr) (u : Bool) (d a : BitVec 8) (s : Src)
  -- logic, shifts, bit fields (Table 4-4, R74, R75)
  | and (h : Hdr) (d a : BitVec 8) (s : Src)
  | or (h : Hdr) (d a : BitVec 8) (s : Src)
  | xor (h : Hdr) (d a : BitVec 8) (s : Src)
  | andn (h : Hdr) (d a : BitVec 8) (s : Src)
  | orn (h : Hdr) (d a : BitVec 8) (s : Src)
  | shl (h : Hdr) (d a : BitVec 8) (s : Src)
  | shr (h : Hdr) (d a : BitVec 8) (s : Src)
  | sar (h : Hdr) (d a : BitVec 8) (s : Src)
  | rotl (h : Hdr) (d a : BitVec 8) (s : Src)
  | funnel (h : Hdr) (d a b : BitVec 8) (t : Src)
  | clz (h : Hdr) (d a : BitVec 8)
  | ctz (h : Hdr) (d a : BitVec 8)
  | popc (h : Hdr) (d a : BitVec 8)
  | brev (h : Hdr) (d a : BitVec 8)
  | bfe (h : Hdr) (sg : Bool) (pos : BitVec 5) (len : BitVec 6) (d a : BitVec 8)
  | bfi (h : Hdr) (pos : BitVec 5) (len : BitVec 6) (d a b : BitVec 8)
  | bytep (h : Hdr) (fk : FillKind) (d a b : BitVec 8) (t : Src)
  | sext (h : Hdr) (d a : BitVec 8) (s : Src)
  | zext (h : Hdr) (d a : BitVec 8) (s : Src)
  -- moves, selects, compares, predicates (R76 to R80)
  | movVector (h : Hdr) (d a : BitVec 8)
  | movPairFromUniform (h : Hdr) (d : BitVec 8) (a : BitVec 6)
  | movUniformFromPair (h : Hdr) (d : BitVec 6) (a : BitVec 8)
  | movUniform (h : Hdr) (d a : BitVec 6)
  | moviVector (h : Hdr) (d : BitVec 8) (imm : W32)
  | moviUniform (h : Hdr) (d : BitVec 6) (imm : W32)
  | movqPair (h : Hdr) (d : BitVec 8) (imm : W64)
  | movqUniform (h : Hdr) (d : BitVec 6) (imm : W64)
  | sel (h : Hdr) (d a : BitVec 8) (p : BitVec 3) (t : Src)
  | cmp (h : Hdr) (c : Cond) (pd : BitVec 3) (a : BitVec 8) (s : Src)
  | cmpi (h : Hdr) (c : Cond) (pd : BitVec 3) (a : BitVec 8) (imm : W32)
  | plop (h : Hdr) (pd pa pb : BitVec 3) (tt : BitVec 4)
  | pmovToRegister (h : Hdr) (d : BitVec 8)
  | pmovFromRegister (h : Hdr) (a : BitVec 8)
  -- 64-bit and address (Table 4-7, R82)
  | add64 (h : Hdr) (d a : Opd64) (s : Src64)
  | sub64 (h : Hdr) (d a : Opd64) (s : Src64)
  | shl64 (h : Hdr) (d a : Opd64) (s : Src64)
  | shr64 (h : Hdr) (ar : Bool) (d a : Opd64) (s : Src64)
  | cmp64 (h : Hdr) (uf : Bool) (c : Cond) (pd : BitVec 3) (a : Opd64) (s : Src64)
  | lea (h : Hdr) (w : Bool) (sh : BitVec 3) (d a b : Opd64) (imm : W32)
  -- floating point (Table 5-1)
  | fadd (h : Hdr) (f : FCfg) (d a b : BitVec 8)
  | fsub (h : Hdr) (f : FCfg) (d a b : BitVec 8)
  | fmul (h : Hdr) (f : FCfg) (d a b : BitVec 8)
  | fma (h : Hdr) (f : FCfg) (d a b c : BitVec 8)
  | fnma (h : Hdr) (f : FCfg) (d a b c : BitVec 8)
  | fmin (h : Hdr) (f : Fmt) (d a b : BitVec 8)
  | fmax (h : Hdr) (f : Fmt) (d a b : BitVec 8)
  | fsgn (h : Hdr) (op : SgnOp) (f : Fmt) (d a b : BitVec 8)
  | fcmp (h : Hdr) (c : FCond) (f : Fmt) (pd : BitVec 3) (a b : BitVec 8)
  | fclass (h : Hdr) (f : Fmt) (d a : BitVec 8)
  | frnd (h : Hdr) (rm : Rm) (f : Fmt) (d a : BitVec 8)
  | frcp (h : Hdr) (rm : Rm) (d a : BitVec 8)
  | frsq (h : Hdr) (rm : Rm) (d a : BitVec 8)
  | fsqrt (h : Hdr) (rm : Rm) (d a : BitVec 8)
  | fdiv (h : Hdr) (rm : Rm) (d a b : BitVec 8)
  | fexp2 (h : Hdr) (rm : Rm) (d a : BitVec 8)
  | flog2 (h : Hdr) (rm : Rm) (d a : BitVec 8)
  | cvt (h : Hdr) (rm : Rm) (sat : Bool) (st dt : Ty) (se de : BitVec 2) (merge : Bool) (d a : BitVec 8)
  | hadd2 (h : Hdr) (f : FCfg) (d a b : BitVec 8)
  | hmul2 (h : Hdr) (f : FCfg) (d a b : BitVec 8)
  | hfma2 (h : Hdr) (f : FCfg) (d a b c : BitVec 8)
  | hmin2 (h : Hdr) (f : Fmt) (d a b : BitVec 8)
  | hmax2 (h : Hdr) (f : Fmt) (d a b : BitVec 8)
  | fdot2 (h : Hdr) (f : FCfg) (d a b c : BitVec 8)
  | dot4 (h : Hdr) (ua ub : Bool) (d a b c : BitVec 8)
  -- control (Table 4-8)
  | br (h : Hdr) (live : BitVec 8) (target : W32)
  | brx (h : Hdr) (a : BitVec 6)
  | call (h : Hdr) (target : W32)
  | callx (h : Hdr) (a : BitVec 6)
  | ret (h : Hdr)
  | exit (h : Hdr)
  -- memory (Table 12-2)
  | ld (h : Hdr) (d : DataReg) (sx : Bool) (m : Mem)
  | st (h : Hdr) (m : Mem) (b : DataReg)
  | pref (h : Hdr) (base : Opd64) (off : BitVec 24) (lc : Lc) (hint : Hint)
  | ldg (h : Hdr) (d : BitVec 8) (sx sidx : Bool) (sh : BitVec 3) (c : BitVec 8) (m : Mem)
  | stg (h : Hdr) (m : Mem) (sidx : Bool) (sh : BitVec 3) (c : BitVec 8) (b : DataReg)
  | ldsl (h : Hdr) (d : BitVec 8) (sx : Bool) (sz : Sz) (slab : BitVec 8) (a : BitVec 8) (off : BitVec 24)
  | stsl (h : Hdr) (sz : Sz) (slab : BitVec 8) (a : BitVec 8) (off : BitVec 24) (b : DataReg)
  | ldt (h : Hdr) (fl : Bool) (d : BitVec 8) (hb : BitVec 4) (a : BitVec 8) (o0 : BitVec 24) (o : BitVec 32) (x : MemX)
  | stt (h : Hdr) (fl : Bool) (hb : BitVec 4) (a c : BitVec 8) (o0 : BitVec 24) (o : BitVec 32) (x : MemX)
  | atom (h : Hdr) (op : AtomOp) (d : DataReg) (m : Mem) (b c : DataReg)
  | ldl (h : Hdr) (d : DataReg) (m : Mem)
  | stc (h : Hdr) (d : BitVec 8) (m : Mem) (b : DataReg)
  | fence (h : Hdr) (dir : FenceDir) (scope : Scope) (i0 : Item) (rest : List Item)
  | fenceAll (h : Hdr)
  | fenceEnd (t slot : Nat)
  | ftag (h : Hdr) (c : BitVec 3) (it : Item)
  | funtag (h : Hdr) (c : BitVec 3)
  | cflush (h : Hdr) (base : Opd64) (off : BitVec 24) (n : BitVec 8)
  | cinv (h : Hdr) (base : Opd64) (off : BitVec 24) (n : BitVec 8)
  | enter (h : Hdr) (n : BitVec 24)
  | leave (h : Hdr) (n : BitVec 24)
  | topen (h : Hdr) (w : Bool) (d : BitVec 4) (b : BitVec 6)
  | topenNew (h : Hdr) (w : Bool) (d : BitVec 4) (b a : BitVec 6) (off : BitVec 24)
  | tclose (h : Hdr) (free : Bool) (a : BitVec 4)
  | hbind (h : Hdr) (slab : BitVec 8) (a : BitVec 6) (loc : Bool) (fmt : BitVec 4) (span : BitVec 3) (size : BitVec 20)
  | hbindRel (h : Hdr) (slab : BitVec 8)
  | slabq (h : Hdr) (d : BitVec 8) (slab : BitVec 8)
  -- parallel (Table 8-1)
  | spawn (h : Hdr) (live : BitVec 8) (a b : BitVec 8) (target : W32)
  | meet (h : Hdr) (target : W32)
  | vote (h : Hdr) (op : VoteOp)
  | shfl (h : Hdr) (op : ShflOp) (wc : BitVec 3) (d a : BitVec 8) (s : Src)
  | lreduce (h : Hdr) (op : RedOp) (d a : BitVec 8)
  | lscan (h : Hdr) (op : RedOp) (excl : Bool) (d a : BitVec 8)
  | lscanRank (h : Hdr) (kt : KeyTy) (d a b : BitVec 8)
  | selmax (h : Hdr) (kt : KeyTy) (d a b : BitVec 8) (pc : Option (BitVec 3))
  | selmin (h : Hdr) (kt : KeyTy) (d a b : BitVec 8) (pc : Option (BitVec 3))
  | barT (h : Hdr) (n : BitVec 4)
  | barC (h : Hdr) (n : BitVec 4)
  | arrive (h : Hdr) (cl : Bool) (n : BitVec 4) (d : BitVec 8)
  | await (h : Hdr) (cl : Bool) (n : BitVec 4) (a : BitVec 8)
  | grow (h : Hdr) (n : BitVec 8)
  | growGrant (t : Nat)
  | shrink (h : Hdr) (n : BitVec 8)
  | rng (h : Hdr) (d : BitVec 8)
  | rngk (h : Hdr) (d : BitVec 8) (a : Opd64)
  | movs (h : Hdr) (d : DataReg) (sel : BitVec 4)
  -- engines (Table 15-2)
  | chainLink (h : Hdr) (ch : BitVec 4) (a : BitVec 6) (off : W32)
  | chainAdv (h : Hdr) (ch : BitVec 4)
  | pilotRequestService (t : Nat)
  | condw (h : Hdr) (add : Bool) (cw : BitVec 4) (a : Opd64)
  | sacq (h : Hdr) (sem : BitVec 6)
  | stry (h : Hdr) (pd : BitVec 3) (sem : BitVec 6)
  | sqry (h : Hdr) (d : Opd64) (sem : BitVec 6)
  | semaphoreRequestMet (t sem : Nat)
  | claim (h : Hdr) (r : ClaimRange)
  | release (h : Hdr) (r : ClaimRange)
  | claimReleaseFree (t slot : Nat)
  | ofill (h : Hdr) (span : BitVec 3) (d : BitVec 7) (b : BitVec 6) (a : BitVec 8)
  | mma (h : Hdr) (d a b c : BitVec 8) (koff : BitVec 8)
  | mmat (h : Hdr) (d a b c : BitVec 8) (koff : BitVec 8)
  | anvilAccept (t slot : Nat)
  | anvilPassComplete (t : Nat)
  | accz (h : Hdr) (a : BitVec 6) (n : BitVec 8)
  | accrd (h : Hdr) (p : BitVec 3) (half : Bool) (d : BitVec 8) (a : BitVec 6)
  | accrdSt (h : Hdr) (d : BitVec 8) (a : BitVec 6)
  | accrdWriteback (t slot op : Nat)
  | accwr (h : Hdr) (af : Af) (p : BitVec 3) (half : Bool) (d : BitVec 6) (a : BitVec 8)
  | accwrSt (h : Hdr) (d : BitVec 6) (a : BitVec 8)
  | treeadd (h : Hdr) (d a : BitVec 6) (l : BitVec 3) (c : BitVec 8)
  | accfin (h : Hdr) (a : BitVec 6)
  -- system (Table 19-1)
  | trap (h : Hdr) (code : BitVec 8)
  | rfe (h : Hdr) (v : Verdict) (a : BitVec 8)
  | region (h : Hdr)
  | yield (h : Hdr)
  | bkpt (h : Hdr)
  | mfsr (h : Hdr) (d : Opd64) (sr : BitVec 16)
  | mtsr (h : Hdr) (sr : BitVec 16) (a : Opd64)
  | faultq (h : Hdr) (d : BitVec 8) (a : BitVec 6)
  | acct (h : Hdr) (d : Opd64) (a : BitVec 6)
  | lrec (h : Hdr) (d : Opd64) (a : BitVec 6)
  -- fabric and host (Table 24-1)
  | send (h : Hdr) (sz : Sz) (r : BitVec 6) (a : BitVec 8)
  | sendTo (h : Hdr) (sz : Sz) (b : BitVec 6) (dr : BitVec 6) (a : BitVec 8)
  | recv (h : Hdr) (sz : Sz) (d : BitVec 8) (r : BitVec 6) (m : Option (BitVec 8))
  | rld (h : Hdr) (d : DataReg) (sx : Bool) (base : Opd64) (off : BitVec 24) (sz : Sz)
  | rst (h : Hdr) (base : Opd64) (off : BitVec 24) (sz : Sz) (b : DataReg)
  | ratom (h : Hdr) (op : AtomOp) (d : DataReg) (base : Opd64) (off : BitVec 24) (sz : Sz) (b c : DataReg)
  | hatom (h : Hdr) (op : HostAtomOp) (f : Bool) (d : DataReg) (base : Opd64) (off : BitVec 24) (sz : Sz) (b c : DataReg)
  | genqIdx (h : Hdr) (d a : BitVec 8)
  | genqFix (h : Hdr) (d a : BitVec 8)
  -- landing and launch steps
  | binTimerExpiry (t b : Nat)
  | groupFormation (t b : Nat)
  | landingAdmission (t : Nat)
  | launchStart (q : Nat)
  | clusterPlacement (l : Nat)
  | launchComplete (l : Nat)
  | gridStall (l : Nat)
  | ticketRelease (l : Nat)
  -- homes and the load unit
  | homeRead (a : Nat)
  | homeWrite (a : Nat)
  | homeAtomic (a : Nat)
  | longLatencyComplete (t slot op : Nat)
  | storeAck (a : Nat)
  | writeCompletionExpiry (a : Nat)
  -- pilot, ferry, slipway
  | nodeReached (t ch : Nat)
  | inputCopyStart (t ch i : Nat)
  | nodeDispatch (t ch : Nat)
  | kernelNodeFinish (t ch : Nat)
  | condNode (t ch : Nat)
  | whileNode (t ch : Nat)
  | joinNode (t ch : Nat)
  | signalNode (t ch : Nat)
  | inputCopyComplete (c : Nat)
  | outputCopyComplete (c : Nat)
  | slipwayHandoff (c : Nat)
  | exclusionLogged (e : W64)
  | slipwayComplete (c : Nat) (ok : Bool)
  -- fetch, walks, faults
  | fetchComplete (t va : Nat) (bad : Bool)
  | walkComplete (i : Nat)
  | trapRecordWrite (w : Nat)
  | launchFatalEnd (l : Nat)
  -- slices and the switch
  | sliceEnd (p : Nat) (yielded : Bool)
  | firstSwitch (p : Nat)
  | stopOrder (t : Nat)
  | tileQuiet (t : Nat)
  | swapOrder (p : Nat)
  | tileSwap (t : Nat)
  | spillResource (t row : Nat)
  -- debug
  | stepEnd (t : Nat)
  | dumpComplete (w : Nat)
  -- register writes of the host
  | invalidationComplete (w : Nat)
  -- hearth commands: i is the place of the command among those held
  | cut (i : Nat)
  | dissolve (i : Nat)
  | bindWorld (i : Nat)
  | unbindWorld (i : Nat)
  | grant (i : Nat)
  | reclaim (i : Nat)
  | quantum (i : Nat)
  | reshapeGrow (i : Nat)
  | reshapeShrink (i : Nat)
  | reshapeCompact (i : Nat)
  | reshapeMigrate (i : Nat)
  | evict (i : Nat)
  | freeze (i : Nat)
  | power (i : Nat)
  | inrushTokenGrant (f : Nat)
  | inrushTokenReturn (f : Nat)
  | fieldTransitionComplete (f : Nat)
  -- fabric
  | messageArrival (m : Nat)
  -- the remaining steps
  | cycleCharge (t : Nat)
  | quenchComplete (t : Nat)
  | tableChangeComplete (w : Nat)
  -- steps that other agents begin: the host, the hearth's inputs, other modules
  | landingOverflowMove (t n : Nat) (out : Bool)
  | submission (q off : Nat) (data : List Byte)
  | wqctlWrite (q : Nat) (v : W64)
  | leaseExpiry (t line : Nat)
  | hotExpiry (line : Nat)
  | shadowPreload (t : Nat)
  | debugStop (w : Nat) (bits : BitVec 4)
  | debugStep (w : Nat) (team : W32)
  | debugDump (w : Nat)
  | debugLcen (w : Nat) (on : Bool)
  | tqbaseWrite (w : Nat) (v : W64)
  | tqheadWrite (w : Nat) (v : W64)
  | resolveWrite (w : Nat) (v : W64)
  | routeWrite (w r : Nat) (v : W64)
  | modidWrite (v : W64)
  | peerWrite (p m : Nat) (v : W64)
  | translationInvalidation (w : Nat) (v : W64)
  | registerWrite (r : HostReg) (v : W64)
  | powerAlert (watts : W32) (temp : BitVec 8)
  | thermalTrip
  | moduleReset
  | firmwareLoad (p : Nat) (v : W64)
  | snapshot (p : Nat) (v : W64)
  | restore (p : Nat) (v : W64)
  | slipwayRetryExpiry (c : Nat)
  | treeNodeRepair (f level line : Nat) (ok : Bool)
  | packetArrival (t : Nat) (pk : Packet)
  | linkStop (t dir vc : Nat)
  | linkGo (t dir vc : Nat)
  | hostCompletion (a : Nat) (st : HostStatus)
  | atomicPointService (a : Nat) (st : HostStatus)
  | remoteRequest (r : RemoteReq)
  | remoteResponse (a : Nat) (r : RemoteResp)
  | remoteTimeout (a : Nat)
  | wharfLinkDown (l : Nat)
  | wharfLinkUp (l : Nat)
  | lockInterface (w : Nat)
  | startInterface (w : Nat)
  | stopInterface (w : Nat)
  | getTdispVersion (w : Nat)
  | getTdispCapabilities (w : Nat)
  | getDeviceInterfaceReport (w : Nat)
  | getDeviceInterfaceState (w : Nat)
  | getVersion (w : Nat)
  | getCapabilities (w : Nat)
  | negotiateAlgorithms (w : Nat)
  | getDigests (w : Nat)
  | getCertificate (w : Nat)
  | challenge (w : Nat)
  | getMeasurements (w : Nat) (q : MeasReq)
  | keyExchange (w period : Nat)
  | finish (w : Nat)
  | heartbeat (w : Nat)
  | keyUpdate (w : Nat)
  | endSession (w : Nat)
  | vendorDefinedKeyInstall (w : Nat) (key : KeyInstall)
  | ideKm (w : Nat)
  | ideIntegrityFailure (w : Nat)
  | heartbeatLost (w : Nat)
  | stackCacheWriteback (t line : Nat)
  | hostCompletionTimeout (a : Nat)
  | commandSubmission (p : Nat) (data : List Byte)
  | tileStateError (t : Nat) (kind : BitVec 8) (loc : Va) (corrected : Bool)
  | meetingArrival (t slot : Nat)
  | faultSettle (t slot : Nat)
  | snapshotComplete (ok : Bool)
  | stepIdleTimeout (t : Nat)
  deriving DecidableEq, Repr

end Sys2Proof
end

