-- ==== Sys2Proof/WellFormed.lean ====
section
/-! DEFINITION. Which terms of Instr an instruction word can hold (R50, R51, Table 3-3 and the limits each entry
gives). A step that is no instruction has no word, so nothing is asked of it here. -/

namespace Sys2Proof

/-- The lookahead count of an instruction not marked LL is zero (R54). -/
def Hdr.noLa (h : Hdr) : Bool := h.la == 0#4

/-- A register pair is named by its even register (R14). -/
def pairOk (r : BitVec 8) : Bool := r.toNat % 2 == 0

/-- A register quad is named by a multiple of four (Table 3-3). -/
def quadOk (r : BitVec 8) : Bool := r.toNat % 4 == 0

/-- A 64-bit operand of the kind UF calls for. -/
def Opd64.ok (uf : Bool) : Opd64 → Bool
  | .pair r => !uf && pairOk r
  | .uni _ => uf

/-- A second 64-bit source of the kind UF calls for; an immediate goes with either. -/
def Src64.ok (uf : Bool) : Src64 → Bool
  | .opd o => o.ok uf
  | .imm _ => true

/-- True of a uniform operand. -/
def Opd64.isUni : Opd64 → Bool
  | .pair _ => false
  | .uni _ => true

/-- True of a uniform data register. -/
def DataReg.isUni : DataReg → Bool
  | .vec _ => false
  | .uni _ => true

/-- A base register (R22). -/
def Opd64.baseOk (o : Opd64) : Bool := o.ok o.isUni

/-- The data register's kind follows from SZ (R51). -/
def DataReg.ok (sz : Sz) : DataReg → Bool
  | .vec r => match sz with
    | .b1 | .b2 | .b4 => true
    | .b8 => pairOk r
    | .b16 => quadOk r
  | .uni _ => sz != .b16

/-- SX goes with a size of 1 or 2 bytes only (R51). -/
def sxOk (sx : Bool) (sz : Sz) : Bool := !sx || sz == .b1 || sz == .b2

/-- LC and HINT zero (Table 12-2). -/
def MemX.plain (x : MemX) : Bool := x.lc == .dflt && x.hint == .normal

/-- Sizes of an atomic or a reservation (R227, R229). -/
def Sz.is48 (sz : Sz) : Bool := sz == .b4 || sz == .b8

/-- Sizes of a message (R417). -/
def Sz.isMsg (sz : Sz) : Bool := sz == .b4 || sz == .b8 || sz == .b16

/-- The compare value of an atomic: a register of the operand's kind on .cas, field zero elsewhere (R227). -/
def casOk (cas : Bool) (sz : Sz) (ud : Bool) (c : DataReg) : Bool :=
  c.isUni == ud && c.ok sz && (cas || c == (if ud then .uni 0 else .vec 0))

/-- Width in bits of a CVT type (Table 5-6). -/
def Ty.width : Ty → Nat
  | .f32 | .int32 | .uint32 => 32
  | .f16 | .bf16 | .int16 | .uint16 => 16
  | .e4m3 | .e5m2 | .e8m0 | .int8 | .uint8 => 8

/-- True of an integer type. -/
def Ty.isInt : Ty → Bool
  | .int32 | .uint32 | .int16 | .uint16 | .int8 | .uint8 => true
  | .f32 | .f16 | .bf16 | .e4m3 | .e5m2 | .e8m0 => false

/-- FMT codes 000 to 010 (Table 5-1). -/
def Fmt.scalar (f : Fmt) : Bool := f == .f32 || f == .f16 || f == .bf16

/-- FMT codes 001 and 010 (Table 5-1). -/
def Fmt.packed (f : Fmt) : Bool := f == .f16 || f == .bf16

/-- The read-only values that are 64 bits wide (Table 1-2). -/
def sel64 (sel : BitVec 4) : Bool := sel == 1#4 || sel == 7#4 || sel == 9#4 || sel == 15#4

/-- Registers MFSR may name (Table 19-5). -/
def srRead (n : BitVec 16) : Bool :=
  let v := n.toNat
  (1 ≤ v && v ≤ 4) || (0x10 ≤ v && v ≤ 0x13) || (0x80 ≤ v && v ≤ 0xBF)

/-- Registers MTSR may name (Table 19-5, R353). -/
def srWrite (n : BitVec 16) : Bool :=
  let v := n.toNat
  v == 0x11 || (0x80 ≤ v && v ≤ 0xBF)

/-- A claim range stays inside the slots or the tiles (R281). -/
def ClaimRange.ok : ClaimRange → Bool
  | .slots a n => a.toNat + n.toNat + 1 ≤ 128
  | .tiles a n => a.toNat + n.toNat + 1 ≤ 64

/-- The span of span code n, in bytes (Table 10-5). -/
def spanBytes (n : Nat) : Nat := 16 * 2 ^ n

/-- Well-formed instructions: those a word encodes (R50 to R53, Table 3-14). -/
def Instr.wf : Instr → Bool
  | .nop64 => true
  | .nop96 => true
  | .nop128 => true
  | .add h _ _ _ => h.noLa
  | .addi h _ _ _ => h.noLa
  | .sub h _ _ _ => h.noLa
  | .mul h _ _ _ => h.noLa
  | .mulh h _ _ _ => h.noLa
  | .mulhu h _ _ _ => h.noLa
  | .mulw h _ d _ _ => h.noLa && pairOk d
  | .mad h _ _ _ _ => h.noLa
  | .div h _ _ _ => h.noLa
  | .divu h _ _ _ => h.noLa
  | .rem h _ _ _ => h.noLa
  | .remu h _ _ _ => h.noLa
  | .abs h _ _ _ => h.noLa
  | .neg h _ _ _ => h.noLa
  | .min h _ _ _ => h.noLa
  | .max h _ _ _ => h.noLa
  | .minu h _ _ _ => h.noLa
  | .maxu h _ _ _ => h.noLa
  | .addsat h _ _ _ _ => h.noLa
  | .subsat h _ _ _ _ => h.noLa
  | .and h _ _ _ => h.noLa
  | .or h _ _ _ => h.noLa
  | .xor h _ _ _ => h.noLa
  | .andn h _ _ _ => h.noLa
  | .orn h _ _ _ => h.noLa
  | .shl h _ _ _ => h.noLa
  | .shr h _ _ _ => h.noLa
  | .sar h _ _ _ => h.noLa
  | .rotl h _ _ _ => h.noLa
  | .funnel h _ _ _ _ => h.noLa
  | .clz h _ _ => h.noLa
  | .ctz h _ _ => h.noLa
  | .popc h _ _ => h.noLa
  | .brev h _ _ => h.noLa
  | .bfe h _ p l _ _ => h.noLa && l.toNat ≤ 32 && p.toNat + l.toNat ≤ 32
  | .bfi h p l _ _ _ => h.noLa && l.toNat ≤ 32 && p.toNat + l.toNat ≤ 32
  | .bytep h _ _ _ _ _ => h.noLa
  | .sext h _ _ _ => h.noLa
  | .zext h _ _ _ => h.noLa
  | .movVector h _ _ => h.noLa
  | .movPairFromUniform h d _ => h.noLa && pairOk d
  | .movUniformFromPair h _ a => h.noLa && pairOk a
  | .movUniform h _ _ => h.noLa
  | .moviVector h _ _ => h.noLa
  | .moviUniform h _ _ => h.noLa
  | .movqPair h d _ => h.noLa && pairOk d
  | .movqUniform h _ _ => h.noLa
  | .sel h _ _ _ _ => h.noLa
  | .cmp h _ _ _ _ => h.noLa
  | .cmpi h _ _ _ _ => h.noLa
  | .plop h _ _ _ _ => h.noLa
  | .pmovToRegister h _ => h.noLa
  | .pmovFromRegister h _ => h.noLa
  | .add64 h d a s => h.noLa && d.ok a.isUni && a.baseOk && s.ok a.isUni
  | .sub64 h d a s => h.noLa && d.ok a.isUni && a.baseOk && s.ok a.isUni
  | .shl64 h d a s => h.noLa && d.ok a.isUni && a.baseOk && s.ok a.isUni
  | .shr64 h _ d a s => h.noLa && d.ok a.isUni && a.baseOk && s.ok a.isUni
  | .cmp64 h uf _ _ a s => h.noLa && a.ok uf && s.ok uf
  | .lea h _ sh d a b _ => h.noLa && sh.toNat ≤ 4 && d.ok a.isUni && a.baseOk && b.ok a.isUni
  | .fadd h f _ _ _ => h.noLa && f.fmt.scalar
  | .fsub h f _ _ _ => h.noLa && f.fmt.scalar
  | .fmul h f _ _ _ => h.noLa && f.fmt.scalar
  | .fma h f _ _ _ _ => h.noLa && f.fmt.scalar
  | .fnma h f _ _ _ _ => h.noLa && f.fmt.scalar
  | .fmin h f _ _ _ => h.noLa && f.scalar
  | .fmax h f _ _ _ => h.noLa && f.scalar
  | .fsgn h _ f _ _ _ => h.noLa && f.scalar
  | .fcmp h _ f _ _ _ => h.noLa && f.scalar
  | .fclass h _ _ _ => h.noLa
  | .frnd h _ f _ _ => h.noLa && f.scalar
  | .frcp h _ _ _ => h.noLa
  | .frsq h _ _ _ => h.noLa
  | .fsqrt _ _ _ _ => true
  | .fdiv _ _ _ _ _ => true
  | .fexp2 _ _ _ _ => true
  | .flog2 _ _ _ _ => true
  | .cvt h _ sat ty dt se de mg _ _ =>
    h.noLa && decide (se.toNat < 32 / ty.width) && decide (de.toNat < 32 / dt.width)
      && !(mg && dt.width == 32) && !(sat && dt.isInt)
  | .hadd2 h f _ _ _ => h.noLa && f.fmt.packed
  | .hmul2 h f _ _ _ => h.noLa && f.fmt.packed
  | .hfma2 h f _ _ _ _ => h.noLa && f.fmt.packed
  | .hmin2 h f _ _ _ => h.noLa && f.packed
  | .hmax2 h f _ _ _ => h.noLa && f.packed
  | .fdot2 h f _ _ _ _ => h.noLa && f.fmt.packed
  | .dot4 h _ _ _ _ _ _ => h.noLa
  | .br h _ _ => h.noLa
  | .brx h _ => h.noLa
  | .call h _ => h.noLa
  | .callx h _ => h.noLa
  | .ret h => h.noLa
  | .exit h => h.noLa
  | .ld _ d sx m => m.base.baseOk && d.ok m.sz && sxOk sx m.sz
  | .st h m b => h.noLa && m.base.baseOk && b.ok m.sz
  | .pref h base _ _ _ => h.noLa && base.baseOk
  | .ldg _ d sx _ sh _ m => m.base.baseOk && (DataReg.vec d).ok m.sz && sxOk sx m.sz && sh.toNat ≤ 4
  | .stg h m _ sh _ b => h.noLa && m.base.baseOk && b.ok m.sz && sh.toNat ≤ 4
  | .ldsl _ d sx sz _ _ _ => (DataReg.vec d).ok sz && sxOk sx sz
  | .stsl h sz _ _ _ b => h.noLa && b.ok sz
  | .ldt _ _ _ _ _ _ _ _ => true
  | .stt h _ _ _ _ _ _ _ => h.noLa
  | .atom _ op d m b c =>
    m.base.baseOk && m.x.plain && m.sz.is48 && !(op == .fadd && m.sz == .b8) && d.ok m.sz && b.ok m.sz
      && b.isUni == d.isUni && casOk (op == .cas) m.sz d.isUni c
  | .ldl _ d m => m.base.baseOk && m.x.plain && m.sz.is48 && d.ok m.sz
  | .stc h _ m b => h.noLa && m.base.baseOk && m.x.plain && m.sz.is48 && b.ok m.sz
  | .fence h _ _ _ rest => h.noLa && rest.length ≤ 3
  | .fenceAll h => h.noLa
  | .ftag h c _ => h.noLa && c != 0#3
  | .funtag h c => h.noLa && c != 0#3
  | .cflush h base _ _ => h.noLa && base.baseOk
  | .cinv h base _ _ => h.noLa && base.baseOk
  | .enter h n => h.noLa && n.toNat % 16 == 0 && 16 ≤ n.toNat && n.toNat ≤ 8388592
  | .leave h n => h.noLa && n.toNat % 16 == 0 && 16 ≤ n.toNat && n.toNat ≤ 8388592
  | .topen h _ _ _ => h.noLa
  | .topenNew h _ _ _ _ _ => h.noLa
  | .tclose h _ _ => h.noLa
  | .hbind h _ _ _ fmt span size =>
    h.noLa && fmt.toNat ≤ 12 && 1 ≤ size.toNat && size.toNat ≤ 524288
      && size.toNat % spanBytes span.toNat == 0
  | .hbindRel h _ => h.noLa
  | .slabq h d _ => h.noLa && quadOk d
  | .spawn h live a b _ => h.noLa && pairOk a
      && (if live == 0#8 then b == 0#8 else decide (b.toNat + live.toNat ≤ 256))
  | .meet h _ => h.noLa
  | .vote h _ => h.noLa
  | .shfl h _ wc _ _ _ => h.noLa && wc.toNat ≤ 5
  | .lreduce h _ _ _ => h.noLa
  | .lscan h _ _ _ _ => h.noLa
  | .lscanRank h _ _ _ _ => h.noLa
  | .selmax h _ _ _ _ _ => h.noLa
  | .selmin h _ _ _ _ _ => h.noLa
  | .barT h _ => h.noLa
  | .barC h _ => h.noLa
  | .arrive h _ _ _ => h.noLa
  | .await h _ _ _ => h.noLa
  | .grow h n => h.noLa && n.toNat % 8 == 0 && 8 ≤ n.toNat && n.toNat ≤ 248
  | .shrink h n => h.noLa && n.toNat % 8 == 0 && 8 ≤ n.toNat && n.toNat ≤ 248
  | .rng h _ => h.noLa
  | .rngk h _ a => h.noLa && a.baseOk
  | .movs h d sl => h.noLa && (match d with | .vec r => !sel64 sl || pairOk r | .uni _ => true)
  | .chainLink h _ _ _ => h.noLa
  | .chainAdv h _ => h.noLa
  | .condw h _ _ a => h.noLa && a.baseOk
  | .sacq _ _ => true
  | .stry h _ _ => h.noLa
  | .sqry h d _ => h.noLa && d.baseOk
  | .claim h r => h.noLa && r.ok
  | .release h r => h.noLa && r.ok
  | .ofill h _ _ _ a => h.noLa && quadOk a
  | .mma _ _ _ b _ _ => pairOk b
  | .mmat _ _ _ b _ _ => pairOk b
  | .accz h a n => h.noLa && a.toNat + n.toNat + 1 ≤ 64
  | .accrd _ p _ d _ => p.toNat ≤ 5 && quadOk d
  | .accrdSt _ d _ => quadOk d
  | .accwr h _ p _ _ a => h.noLa && p.toNat ≤ 5 && quadOk a
  | .accwrSt h _ _ => h.noLa
  | .treeadd h _ _ _ _ => h.noLa
  | .accfin h _ => h.noLa
  | .trap h code => h.noLa && 128 ≤ code.toNat
  | .rfe h _ _ => h.noLa
  | .region h => h.noLa
  | .yield h => h.noLa
  | .bkpt h => h.noLa
  | .mfsr h d sr => h.noLa && d.baseOk && srRead sr
  | .mtsr h sr a => h.noLa && a.baseOk && srWrite sr
  | .faultq h d _ => h.noLa && d.toNat % 16 == 0
  | .acct h d _ => h.noLa && d.baseOk
  | .lrec h d _ => h.noLa && d.baseOk
  | .send h sz _ a => h.noLa && sz.isMsg && (DataReg.vec a).ok sz
  | .sendTo h sz _ _ a => h.noLa && sz.isMsg && (DataReg.vec a).ok sz
  | .recv _ sz d _ _ => sz.isMsg && (DataReg.vec d).ok sz
  | .rld _ d sx base _ sz => base.baseOk && d.ok sz && sxOk sx sz
  | .rst h base _ sz b => h.noLa && base.baseOk && b.ok sz
  | .ratom _ op d base _ sz b c =>
    base.baseOk && sz.is48 && !(op == .fadd && sz == .b8) && d.ok sz && b.ok sz && b.isUni == d.isUni
      && casOk (op == .cas) sz d.isUni c
  | .hatom _ op _ d base _ sz b c =>
    base.baseOk && sz.is48 && d.ok sz && b.ok sz && b.isUni == d.isUni && casOk (op == .cas) sz d.isUni c
  | .genqIdx h _ _ => h.noLa
  | .genqFix h _ _ => h.noLa
  | .fenceEnd _ _ => true
  | .growGrant _ => true
  | .pilotRequestService _ => true
  | .semaphoreRequestMet _ _ => true
  | .claimReleaseFree _ _ => true
  | .anvilAccept _ _ => true
  | .anvilPassComplete _ => true
  | .accrdWriteback _ _ _ => true
  | .meetingArrival _ _ => true
  | .binTimerExpiry _ _ => true
  | .groupFormation _ _ => true
  | .landingOverflowMove _ _ _ => true
  | .landingAdmission _ => true
  | .submission _ _ _ => true
  | .wqctlWrite _ _ => true
  | .launchStart _ => true
  | .clusterPlacement _ => true
  | .launchComplete _ => true
  | .gridStall _ => true
  | .ticketRelease _ => true
  | .homeRead _ => true
  | .homeWrite _ => true
  | .homeAtomic _ => true
  | .longLatencyComplete _ _ _ => true
  | .storeAck _ => true
  | .writeCompletionExpiry _ => true
  | .leaseExpiry _ _ => true
  | .hotExpiry _ => true
  | .nodeReached _ _ => true
  | .inputCopyStart _ _ _ => true
  | .nodeDispatch _ _ => true
  | .kernelNodeFinish _ _ => true
  | .condNode _ _ => true
  | .whileNode _ _ => true
  | .joinNode _ _ => true
  | .signalNode _ _ => true
  | .inputCopyComplete _ => true
  | .outputCopyComplete _ => true
  | .slipwayHandoff _ => true
  | .slipwayRetryExpiry _ => true
  | .slipwayComplete _ _ => true
  | .fetchComplete _ _ _ => true
  | .walkComplete _ => true
  | .faultSettle _ _ => true
  | .trapRecordWrite _ => true
  | .launchFatalEnd _ => true
  | .sliceEnd _ _ => true
  | .firstSwitch _ => true
  | .stopOrder _ => true
  | .tileQuiet _ => true
  | .swapOrder _ => true
  | .tileSwap _ => true
  | .spillResource _ _ => true
  | .shadowPreload _ => true
  | .debugStop _ _ => true
  | .debugStep _ _ => true
  | .stepEnd _ => true
  | .stepIdleTimeout _ => true
  | .debugDump _ => true
  | .dumpComplete _ => true
  | .debugLcen _ _ => true
  | .tqbaseWrite _ _ => true
  | .tqheadWrite _ _ => true
  | .resolveWrite _ _ => true
  | .routeWrite _ _ _ => true
  | .modidWrite _ => true
  | .peerWrite _ _ _ => true
  | .translationInvalidation _ _ => true
  | .invalidationComplete _ => true
  | .registerWrite _ _ => true
  | .cut _ => true
  | .dissolve _ => true
  | .bindWorld _ => true
  | .unbindWorld _ => true
  | .grant _ => true
  | .reclaim _ => true
  | .quantum _ => true
  | .reshapeGrow _ => true
  | .reshapeShrink _ => true
  | .reshapeCompact _ => true
  | .reshapeMigrate _ => true
  | .evict _ => true
  | .freeze _ => true
  | .power _ => true
  | .inrushTokenGrant _ => true
  | .inrushTokenReturn _ => true
  | .fieldTransitionComplete _ => true
  | .powerAlert _ _ => true
  | .thermalTrip => true
  | .moduleReset => true
  | .firmwareLoad _ _ => true
  | .snapshot _ _ => true
  | .restore _ _ => true
  | .snapshotComplete _ => true
  | .exclusionLogged _ => true
  | .treeNodeRepair _ _ _ _ => true
  | .packetArrival _ _ => true
  | .linkStop _ _ _ => true
  | .linkGo _ _ _ => true
  | .messageArrival _ => true
  | .hostCompletion _ _ => true
  | .atomicPointService _ _ => true
  | .remoteRequest _ => true
  | .remoteResponse _ _ => true
  | .remoteTimeout _ => true
  | .wharfLinkDown _ => true
  | .wharfLinkUp _ => true
  | .lockInterface _ => true
  | .startInterface _ => true
  | .stopInterface _ => true
  | .getTdispVersion _ => true
  | .getTdispCapabilities _ => true
  | .getDeviceInterfaceReport _ => true
  | .getDeviceInterfaceState _ => true
  | .getVersion _ => true
  | .getCapabilities _ => true
  | .negotiateAlgorithms _ => true
  | .getDigests _ => true
  | .getCertificate _ => true
  | .challenge _ => true
  | .getMeasurements _ _ => true
  | .keyExchange _ _ => true
  | .finish _ => true
  | .heartbeat _ => true
  | .keyUpdate _ => true
  | .endSession _ => true
  | .vendorDefinedKeyInstall _ _ => true
  | .ideKm _ => true
  | .ideIntegrityFailure _ => true
  | .heartbeatLost _ => true
  | .cycleCharge _ => true
  | .stackCacheWriteback _ _ => true
  | .hostCompletionTimeout _ => true
  | .commandSubmission _ _ => true
  | .tileStateError _ _ _ _ => true
  | .quenchComplete _ => true
  | .tableChangeComplete _ => true

end Sys2Proof
end

