-- ==== Sys2Proof/Machine/Float.lean ====
section
/-! DEFINITION. Number formats, rounding, accuracy classes and summation orders (02_number_formats, R29 to R47),
on exact values. Every function recurs on a structure, so that a numeral evaluates. -/

namespace Sys2Proof.Machine

/-- An exact value: NaN, a signed infinity, a signed zero, or m * 2^e with m nonzero (R32). -/
inductive FV where
  | nan
  | inf (neg : Bool)
  | zero (neg : Bool)
  | fin (m : Int) (e : Int)
  deriving DecidableEq, Repr

/-- Fraction bits, p - 1 (Table 2-2). -/
def fracBits : Fmt → Nat
  | .f32 => 23 | .f16 => 10 | .bf16 => 7 | .e4m3 => 3 | .e5m2 => 2

/-- Exponent bits (Table 2-2). -/
def expBits : Fmt → Nat
  | .f32 => 8 | .f16 => 5 | .bf16 => 8 | .e4m3 => 4 | .e5m2 => 5

/-- Bias (Table 2-2). -/
def bias : Fmt → Int
  | .f32 => 127 | .f16 => 15 | .bf16 => 127 | .e4m3 => 7 | .e5m2 => 15

/-- Width in bits. -/
def fmtWidth (f : Fmt) : Nat := 1 + expBits f + fracBits f

/-- Precision p (Table 2-2). -/
def prec (f : Fmt) : Nat := fracBits f + 1

/-- Code of the largest finite value without its sign (Table 2-3). -/
def maxFinite : Fmt → Nat
  | .f32 => 0x7F7FFFFF | .f16 => 0x7BFF | .bf16 => 0x7F7F | .e4m3 => 0x7E | .e5m2 => 0x7B

/-- Code of +infinity; E4M3 has none, and its NaN code stands here (R39). -/
def infCode : Fmt → Nat
  | .f32 => 0x7F800000 | .f16 => 0x7C00 | .bf16 => 0x7F80 | .e4m3 => 0x7F | .e5m2 => 0x7C

/-- Canonical NaN (R33). -/
def canonNan : Fmt → Nat
  | .f32 => 0x7FC00000 | .f16 => 0x7E00 | .bf16 => 0x7FC0 | .e4m3 => 0x7F | .e5m2 => 0x7E

/-- The sign bit of a code. -/
def signOf (f : Fmt) (v : Nat) : Bool := Nat.testBit v (fmtWidth f - 1)

/-- The code without its sign. -/
def magOf (f : Fmt) (v : Nat) : Nat := v % 2 ^ (fmtWidth f - 1)

/-- A code with the sign put in. -/
def withSign (f : Fmt) (neg : Bool) (mag : Nat) : Nat := if neg then mag + 2 ^ (fmtWidth f - 1) else mag

/-- True of a NaN code (R32). -/
def isNan (f : Fmt) (v : Nat) : Bool :=
  match f with
  | .e4m3 => magOf f v == 0x7F
  | .f32 | .f16 | .bf16 | .e5m2 => decide (infCode f < magOf f v)

/-- Sign applied to an integer. -/
def signed (neg : Bool) (m : Nat) : Int := if neg then -(m : Int) else (m : Int)

/-- The value of a code (R32). -/
def fvOf (f : Fmt) (v : Nat) : FV :=
  let neg := signOf f v
  let mag := magOf f v
  let m := fracBits f
  if isNan f v then .nan
  else if f ≠ .e4m3 ∧ mag = infCode f then .inf neg
  else if mag = 0 then .zero neg
  else
    let e := mag / 2 ^ m
    let fr := mag % 2 ^ m
    if e = 0 then .fin (signed neg fr) (1 - bias f - m)
    else .fin (signed neg (2 ^ m + fr)) ((e : Int) - bias f - m)

/-- What a rounding does with the part cut off: `n` kept, `rest` against `half`, `sticky` for a remainder beyond
(R39). Directed modes are judged on the signed value. -/
def roundUpNow (rm : Rm) (neg : Bool) (n rest half : Nat) (sticky : Bool) : Bool :=
  match rm with
  | .rne => decide (half < rest) || (rest == half && (sticky || n % 2 == 1))
  | .rz => false
  | .ru => !neg && (rest != 0 || sticky)
  | .rd => neg && (rest != 0 || sticky)

/-- The integer chosen from n * 2^(-k), k positive (R39). -/
def roundCut (rm : Rm) (neg : Bool) (n k : Nat) (sticky : Bool) : Nat :=
  let q := n / 2 ^ k
  if roundUpNow rm neg q (n % 2 ^ k) (2 ^ (k - 1)) sticky then q + 1 else q

/-- round_fmt of a value of magnitude between n * 2^e and (n + 1) * 2^e, exactly n * 2^e without sticky; n is not
zero (R39). -/
def roundMag (f : Fmt) (rm : Rm) (sat neg : Bool) (n : Nat) (e : Int) (sticky : Bool) : Nat :=
  let ex := max ((Nat.log2 n : Int) + e) (1 - bias f)
  let qe := ex - fracBits f
  let r := if e < qe then roundCut rm neg n (qe - e).toNat sticky else n * 2 ^ (e - qe).toNat
  let code := (ex + bias f - 1).toNat * 2 ^ fracBits f + r
  if maxFinite f < code then
    if sat then withSign f neg (maxFinite f)
    else if rm = .rne ∨ (rm = .ru ∧ neg = false) ∨ (rm = .rd ∧ neg = true) then
      if f = .e4m3 then canonNan f else withSign f neg (infCode f)
    else withSign f neg (maxFinite f)
  else withSign f neg code

/-- round_fmt (R39). -/
def roundFV (f : Fmt) (rm : Rm) (sat : Bool) : FV → Nat
  | .nan => canonNan f
  | .inf neg =>
    if sat then withSign f neg (maxFinite f)
    else if f = .e4m3 then canonNan f else withSign f neg (infCode f)
  | .zero neg => withSign f neg 0
  | .fin m e => roundMag f rm sat (decide (m < 0)) m.natAbs e false

/-- Opposite sign. -/
def FV.neg : FV → FV
  | .nan => .nan
  | .inf s => .inf (!s)
  | .zero s => .zero (!s)
  | .fin m e => .fin (-m) e

def FV.isNan : FV → Bool
  | .nan => true
  | .inf _ => false
  | .zero _ => false
  | .fin _ _ => false

/-- The finite part of a value as m * 2^e; zero of what is not finite. -/
def FV.dyadic : FV → Int × Int
  | .nan => (0, 0)
  | .inf _ => (0, 0)
  | .zero _ => (0, 0)
  | .fin m e => (m, e)

/-- Exact sum of two dyadics. -/
def dyAdd (a b : Int × Int) : Int × Int :=
  if a.1 = 0 then b else if b.1 = 0 then a
  else
    let e := min a.2 b.2
    (a.1 * 2 ^ (a.2 - e).toNat + b.1 * 2 ^ (b.2 - e).toNat, e)

/-- The exact sum before rounding, with the specials of R45 and the zero sign of R40. -/
def sumFV (rm : Rm) (vs : List FV) : FV :=
  if vs.any FV.isNan then .nan
  else if vs.contains (.inf false) && vs.contains (.inf true) then .nan
  else if vs.contains (.inf false) then .inf false
  else if vs.contains (.inf true) then .inf true
  else
    let s := vs.foldl (fun acc v => dyAdd acc v.dyadic) (0, 0)
    if s.1 ≠ 0 then .fin s.1 s.2
    else if vs.all (· == .zero true) && !vs.isEmpty then .zero true
    else if vs.all (· == .zero false) then .zero false
    else .zero (rm == .rd)

/-- exact_sum (R45). -/
def exactSum (f : Fmt) (rm : Rm) (sat : Bool) (vs : List FV) : Nat := roundFV f rm sat (sumFV rm vs)

/-- Partial products kept by .tr: bit i of A takes the bits of B from p - 1 - i up (R43). -/
def truncSum (a b p : Nat) : Nat → Nat
  | 0 => 0
  | i + 1 => truncSum a b p i + (if Nat.testBit a i then b / 2 ^ (p - 1 - i) * 2 ^ (p - 1) else 0)

/-- The truncation constant C (Table 2-7). -/
def truncC (p : Nat) : Nat := if p < 3 then 0 else (p - 2) * 2 ^ (p - 3)

/-- class_product of two magnitudes, as m * 2^e (R43). -/
def classMag (ac : AccClass) (p : Nat) (m1 : Nat) (e1 : Int) (m2 : Nat) (e2 : Int) : Nat × Int :=
  let l1 := Nat.log2 m1
  let l2 := Nat.log2 m2
  let a := m1 * 2 ^ (p - 1 - l1)
  let b := m2 * 2 ^ (p - 1 - l2)
  let ab : Int := (l1 : Int) + e1 + l2 + e2
  match ac with
  | .ex => (m1 * m2, e1 + e2)
  | .tr => (truncSum a b p p + truncC p, ab - 2 * ((p : Int) - 1))
  | .lg =>
    let s := a + b - 2 ^ p
    if s < 2 ^ (p - 1) then (2 ^ (p - 1) + s, ab - ((p : Int) - 1))
    else (s, ab + 1 - ((p : Int) - 1))

/-- The class product, unrounded (R43). -/
def classProduct (ac : AccClass) (p : Nat) (x y : FV) : FV :=
  match x, y with
  | .nan, _ => .nan
  | _, .nan => .nan
  | .inf _, .zero _ => .nan
  | .zero _, .inf _ => .nan
  | .inf s, .inf t => .inf (s != t)
  | .inf s, .fin m _ => .inf (s != decide (m < 0))
  | .fin m _, .inf s => .inf (s != decide (m < 0))
  | .zero s, .zero t => .zero (s != t)
  | .zero s, .fin m _ => .zero (s != decide (m < 0))
  | .fin m _, .zero s => .zero (s != decide (m < 0))
  | .fin m1 e1, .fin m2 e2 =>
    let r := classMag ac p m1.natAbs e1 m2.natAbs e2
    .fin (signed (decide (m1 < 0) != decide (m2 < 0)) r.1) r.2

/-! ## Scalar operations on codes -/

/-- FADD and FSUB (R94). -/
def fAdd (g : FCfg) (a b : Nat) : Nat := exactSum g.fmt g.rm g.sat [fvOf g.fmt a, fvOf g.fmt b]
def fSub (g : FCfg) (a b : Nat) : Nat := exactSum g.fmt g.rm g.sat [fvOf g.fmt a, (fvOf g.fmt b).neg]

/-- FMUL (R94). -/
def fMul (ac : AccClass) (g : FCfg) (a b : Nat) : Nat :=
  roundFV g.fmt g.rm g.sat (classProduct ac (prec g.fmt) (fvOf g.fmt a) (fvOf g.fmt b))

/-- FMA and FNMA: one rounding of the sum with the product unrounded (R44, R94). -/
def fMa (ac : AccClass) (g : FCfg) (a b c : Nat) : Nat :=
  exactSum g.fmt g.rm g.sat [classProduct ac (prec g.fmt) (fvOf g.fmt a) (fvOf g.fmt b), fvOf g.fmt c]
def fNma (ac : AccClass) (g : FCfg) (a b c : Nat) : Nat :=
  exactSum g.fmt g.rm g.sat [(classProduct ac (prec g.fmt) (fvOf g.fmt a) (fvOf g.fmt b)).neg, fvOf g.fmt c]

/-- Order of non-NaN codes with -0 below +0 (R95). -/
def orderKey (f : Fmt) (v : Nat) : Int := if signOf f v then -1 - (magOf f v : Int) else (magOf f v : Int)

/-- Order of non-NaN codes with the zeros equal (R97). -/
def cmpKey (f : Fmt) (v : Nat) : Int := signed (signOf f v) (magOf f v)

/-- The bits of one element, upper bits cut off. -/
def elemOf (f : Fmt) (v : Nat) : Nat := v % 2 ^ fmtWidth f

def fMin (f : Fmt) (a b : Nat) : Nat :=
  if isNan f a && isNan f b then canonNan f
  else if isNan f a then elemOf f b else if isNan f b then elemOf f a
  else if orderKey f a ≤ orderKey f b then elemOf f a else elemOf f b

def fMax (f : Fmt) (a b : Nat) : Nat :=
  if isNan f a && isNan f b then canonNan f
  else if isNan f a then elemOf f b else if isNan f b then elemOf f a
  else if orderKey f b ≤ orderKey f a then elemOf f a else elemOf f b

/-- FSGN (R96). -/
def fSgn (op : SgnOp) (f : Fmt) (a b : Nat) : Nat :=
  withSign f (match op with
    | .cp => signOf f b
    | .neg => !signOf f b
    | .xor => signOf f a != signOf f b) (magOf f a)

/-- FCMP (Table 5-3). -/
def fCmp (c : FCond) (f : Fmt) (a b : Nat) : Bool :=
  let un := isNan f a || isNan f b
  let x := cmpKey f a
  let y := cmpKey f b
  match c with
  | .eq => !un && decide (x = y)
  | .ne => un || decide (x ≠ y)
  | .lt => !un && decide (x < y)
  | .le => !un && decide (x ≤ y)
  | .gt => !un && decide (x > y)
  | .ge => !un && decide (x ≥ y)
  | .un => un
  | .ord => !un

/-- FCLASS (Table 5-4). -/
def fClass (f : Fmt) (a : Nat) : Nat :=
  let neg := signOf f a
  let sub := decide (magOf f a < 2 ^ fracBits f)
  match fvOf f a with
  | .nan => 2 ^ 8
  | .inf _ => if neg then 2 ^ 0 else 2 ^ 7
  | .zero _ => if neg then 2 ^ 3 else 2 ^ 4
  | .fin _ _ => if neg then (if sub then 2 ^ 2 else 2 ^ 1) else (if sub then 2 ^ 5 else 2 ^ 6)

/-- An integer chosen from an exact value by the mode (R39, R41). -/
def roundInt (rm : Rm) (m e : Int) : Int :=
  if 0 ≤ e then m * 2 ^ e.toNat
  else signed (decide (m < 0)) (roundCut rm (decide (m < 0)) m.natAbs (-e).toNat false)

/-- FRND (R99). -/
def fRnd (rm : Rm) (f : Fmt) (a : Nat) : Nat :=
  match fvOf f a with
  | .nan => canonNan f
  | .inf s => withSign f s (infCode f)
  | .zero s => withSign f s 0
  | .fin m e =>
    let n := roundInt rm m e
    if n = 0 then withSign f (decide (m < 0)) 0 else roundFV f rm false (.fin n 0)

/-! ## Long functions (R100, R101) -/

/-- Bits of an integer square root, from bit `k` - 1 down. -/
def isqrtGo (n : Nat) : Nat → Nat → Nat
  | 0, r => r
  | k + 1, r => isqrtGo n k (if (r + 2 ^ k) * (r + 2 ^ k) ≤ n then r + 2 ^ k else r)

/-- floor of the square root. -/
def isqrt (n : Nat) : Nat := isqrtGo n (Nat.log2 n / 2 + 1) 0

/-- Round the quotient of two nonzero magnitudes (R100). -/
def roundQuot (rm : Rm) (neg : Bool) (n : Nat) (ne : Int) (d : Nat) (de : Int) : Nat :=
  let k := 80 + Nat.log2 d
  roundMag .f32 rm false neg (n * 2 ^ k / d) (ne - de - k) (n * 2 ^ k % d != 0)

/-- FDIV (R101). -/
def fDiv (rm : Rm) (a b : Nat) : Nat :=
  match fvOf .f32 a, fvOf .f32 b with
  | .nan, _ => canonNan .f32
  | _, .nan => canonNan .f32
  | .zero _, .zero _ => canonNan .f32
  | .inf _, .inf _ => canonNan .f32
  | .inf s, .zero t => withSign .f32 (s != t) (infCode .f32)
  | .inf s, .fin m _ => withSign .f32 (s != decide (m < 0)) (infCode .f32)
  | .zero s, .inf t => withSign .f32 (s != t) 0
  | .zero s, .fin m _ => withSign .f32 (s != decide (m < 0)) 0
  | .fin m _, .inf t => withSign .f32 (decide (m < 0) != t) 0
  | .fin m _, .zero t => withSign .f32 (decide (m < 0) != t) (infCode .f32)
  | .fin m1 e1, .fin m2 e2 =>
    roundQuot rm (decide (m1 < 0) != decide (m2 < 0)) m1.natAbs e1 m2.natAbs e2

/-- FRCP (R101). -/
def fRcp (rm : Rm) (a : Nat) : Nat :=
  match fvOf .f32 a with
  | .nan => canonNan .f32
  | .inf s => withSign .f32 s 0
  | .zero s => withSign .f32 s (infCode .f32)
  | .fin m e => roundQuot rm (decide (m < 0)) 1 0 m.natAbs e

/-- Mantissa and exponent with the exponent even. -/
def evenExp (m : Nat) (e : Int) : Nat × Int := if e % 2 = 0 then (m, e) else (2 * m, e - 1)

/-- FSQRT (R101). -/
def fSqrt (rm : Rm) (a : Nat) : Nat :=
  match fvOf .f32 a with
  | .nan => canonNan .f32
  | .inf s => if s then canonNan .f32 else infCode .f32
  | .zero s => withSign .f32 s 0
  | .fin m e =>
    if m < 0 then canonNan .f32
    else
      let v := evenExp m.natAbs e
      let n := v.1 * 2 ^ 160
      let r := isqrt n
      roundMag .f32 rm false false r (v.2 / 2 - 80) (r * r != n)

/-- FRSQ (R101). -/
def fRsq (rm : Rm) (a : Nat) : Nat :=
  match fvOf .f32 a with
  | .nan => canonNan .f32
  | .inf s => if s then canonNan .f32 else 0
  | .zero s => withSign .f32 s (infCode .f32)
  | .fin m e =>
    if m < 0 then canonNan .f32
    else
      let v := evenExp m.natAbs e
      let r := isqrt (2 ^ 240 / v.1)
      roundMag .f32 rm false false r (-(v.2 / 2) - 120) (r * r * v.1 != 2 ^ 240)

/-- Fixed-point digits of the two transcendental functions: enough that no FP32 argument leaves the rounding open
(log entry 13, UNVERIFIED). -/
def fixBits : Nat := 320

/-- ln 2 in fixed point: the sum of 1 / (k 2^k). -/
def ln2Go : Nat → Nat
  | 0 => 0
  | k + 1 => ln2Go k + 2 ^ fixBits / ((k + 1) * 2 ^ (k + 1))

/-- exp of a fixed-point y in [0, 1), by its series, innermost term first. -/
def expGo (y : Nat) : Nat → Nat → Nat
  | 0, acc => acc
  | k + 1, acc => expGo y k (2 ^ fixBits + y * acc / ((k + 1) * 2 ^ fixBits))

/-- FEXP2 (R100, R101). -/
def fExp2 (rm : Rm) (a : Nat) : Nat :=
  match fvOf .f32 a with
  | .nan => canonNan .f32
  | .inf s => if s then 0 else infCode .f32
  | .zero _ => 0x3F800000
  | .fin m e =>
    let whole := if 0 ≤ e then m * 2 ^ e.toNat else m / 2 ^ (-e).toNat
    let w := max (-1000) (min 1000 whole)
    let fr := if 0 ≤ e then 0 else (m % 2 ^ (-e).toNat).toNat
    if fr = 0 then roundMag .f32 rm false false 1 w false
    else
      let y := fr * ln2Go fixBits / 2 ^ (-e).toNat
      roundMag .f32 rm false false (expGo y 80 (2 ^ fixBits)) (w - fixBits) true

/-- atanh of z = num / 2^fixBits by its series: the sum of z^(2k+1) / (2k+1). -/
def atanhGo (z2 : Nat) : Nat → Nat → Nat → Nat
  | 0, _, _ => 0
  | n + 1, k, pw => pw / (2 * k + 1) + atanhGo z2 n (k + 1) (pw * z2 / 2 ^ fixBits)

/-- log2 of x / 2^l for x in (2^l, 2^(l+1)), in fixed point. -/
def log2Frac (x l : Nat) : Nat :=
  let z := (x - 2 ^ l) * 2 ^ fixBits / (x + 2 ^ l)
  2 * atanhGo (z * z / 2 ^ fixBits) 110 0 z * 2 ^ fixBits / ln2Go fixBits

/-- FLOG2 (R100, R101). -/
def fLog2 (rm : Rm) (a : Nat) : Nat :=
  match fvOf .f32 a with
  | .nan => canonNan .f32
  | .inf s => if s then canonNan .f32 else infCode .f32
  | .zero _ => withSign .f32 true (infCode .f32)
  | .fin m e =>
    if m < 0 then canonNan .f32
    else
      let x := m.natAbs
      let l := Nat.log2 x
      let whole : Int := l + e
      if x = 2 ^ l then
        (if whole = 0 then 0 else roundFV .f32 rm false (.fin whole 0))
      else
        let t : Int := whole * 2 ^ fixBits + log2Frac x l
        roundMag .f32 rm false (decide (t < 0)) (if t < 0 then t.natAbs - 1 else t.natAbs) (-(fixBits : Int)) true

/-! ## Conversion (R102 to R104) -/

/-- Two's complement value of the low w bits. -/
def sextNat (w v : Nat) : Int :=
  let u := v % 2 ^ w
  if 2 ^ (w - 1) ≤ u then (u : Int) - 2 ^ w else (u : Int)

/-- An integer as an exact value. -/
def fvInt (i : Int) : FV := if i = 0 then .zero false else .fin i 0

/-- The floating format of a CVT type, if it is one. -/
def tyFmt : Ty → Option Fmt
  | .f32 => some .f32 | .f16 => some .f16 | .bf16 => some .bf16 | .e4m3 => some .e4m3 | .e5m2 => some .e5m2
  | .e8m0 => none | .int32 => none | .uint32 => none | .int16 => none | .uint16 => none | .int8 => none
  | .uint8 => none

/-- True of a signed integer type. -/
def tySigned : Ty → Bool
  | .int32 | .int16 | .int8 => true
  | .uint32 | .uint16 | .uint8 | .f32 | .f16 | .bf16 | .e4m3 | .e5m2 | .e8m0 => false

/-- Exact value of an element (R29, R32, R35). -/
def tyVal (t : Ty) (v : Nat) : FV :=
  match tyFmt t with
  | some f => fvOf f v
  | none =>
    if t = .e8m0 then (if v = 0xFF then .nan else .fin 1 ((v : Int) - 127))
    else if tySigned t then fvInt (sextNat t.width v) else fvInt v

/-- to_e8m0 (R104). -/
def toE8m0 (rm : Rm) (sat : Bool) : FV → Nat
  | .nan => 0xFF
  | .inf _ => if sat then 0xFE else 0xFF
  | .zero _ => 0
  | .fin m e =>
    let u := m.natAbs
    let l := Nat.log2 u
    let f : Int := l + e
    let n : Int :=
      if u = 2 ^ l then f
      else match rm with
        | .ru => f + 1
        | .rz => f
        | .rd => f
        | .rne => if 2 * u < 3 * 2 ^ l then f else if 3 * 2 ^ l < 2 * u then f + 1
                  else if (f + 127) % 2 = 0 then f else f + 1
    let c := n + 127
    if 254 < c then (if sat then 0xFE else 0xFF) else if c < 0 then 0 else c.toNat

/-- Bounds of an integer type (Table 2-1). -/
def tyMin (t : Ty) : Int := if tySigned t then -(2 ^ (t.width - 1)) else 0
def tyMax (t : Ty) : Int := if tySigned t then 2 ^ (t.width - 1) - 1 else 2 ^ t.width - 1

/-- Saturate an integer to a type (R30). -/
def tySat (t : Ty) (i : Int) : Int := max (tyMin t) (min (tyMax t) i)

/-- Conversion to an integer type, as its two's complement bits (R41). -/
def toInt (t : Ty) (rm : Rm) (v : FV) : Int :=
  match v with
  | .nan => 0
  | .inf s => if s then tyMin t else tyMax t
  | .zero _ => 0
  | .fin m e => tySat t (roundInt rm m e)

/-- The converted element and, for a signed integer, the bits above it when held alone (R36, R103). -/
def cvtBits (rm : Rm) (sat : Bool) (dt : Ty) (v : FV) : Nat :=
  match tyFmt dt with
  | some f => roundFV f rm sat v
  | none => if dt = .e8m0 then toE8m0 rm sat v else ((toInt dt rm v) % 2 ^ 32).toNat

/-- CVT (R103): the new value of x[D] from its old one. -/
def cvtReg (rm : Rm) (sat : Bool) (st dt : Ty) (se de : Nat) (merge : Bool) (old a : Nat) : Nat :=
  let ws := st.width
  let r := cvtBits rm sat dt (tyVal st (a / 2 ^ (ws * se) % 2 ^ ws))
  let w := dt.width
  let cut := r % 2 ^ w
  if merge then old - (old / 2 ^ (w * de) % 2 ^ w) * 2 ^ (w * de) + cut * 2 ^ (w * de)
  else if de = 0 then r % 2 ^ 32
  else cut * 2 ^ (w * de)

/-! ## Packed elements and dots (R105 to R107) -/

/-- Element i of width w (R36). -/
def elemAt (w i v : Nat) : Nat := v / 2 ^ (w * i) % 2 ^ w

/-- Apply an element operation to both halves of registers (R92). -/
def both (op : Nat → Nat → Nat → Nat) (a b c : Nat) : Nat :=
  op (elemAt 16 0 a) (elemAt 16 0 b) (elemAt 16 0 c) + 2 ^ 16 * op (elemAt 16 1 a) (elemAt 16 1 b) (elemAt 16 1 c)

/-- FDOT2 (R106). -/
def fDot2 (ac : AccClass) (g : FCfg) (a b c : Nat) : Nat :=
  let p (i : Nat) := classProduct ac (prec g.fmt) (fvOf g.fmt (elemAt 16 i a)) (fvOf g.fmt (elemAt 16 i b))
  exactSum .f32 g.rm g.sat [p 0, p 1, fvOf .f32 c]

/-- One byte of DOT4 (R107). -/
def dotByte (u : Bool) (v i : Nat) : Int := if u then (elemAt 8 i v : Int) else sextNat 8 (elemAt 8 i v)

/-- DOT4 (R107). -/
def dot4 (ua ub : Bool) (a b c : Nat) : Nat :=
  let p (i : Nat) : Int := dotByte ua a i * dotByte ub b i
  (((c : Int) + p 0 + p 1 + p 2 + p 3) % 2 ^ 32).toNat

/-! ## Sums in order -/

/-- One node of a float tree: FP32 or the named format, RNE (R46). -/
def addRne (f : Fmt) (a b : Nat) : Nat := exactSum f .rne false [fvOf f a, fvOf f b]

/-- One level of tree_sum (R46). -/
def treeLevel (f : Fmt) : List Nat → List Nat
  | [] => []
  | [x] => [x]
  | x :: y :: rest => addRne f x y :: treeLevel f rest

/-- tree_sum, with the number of levels as fuel (R46). -/
def treeSum (f : Fmt) : Nat → List Nat → Nat
  | 0, vs => vs.headD 0
  | k + 1, vs => if vs.length ≤ 1 then vs.headD 0 else treeSum f k (treeLevel f vs)

end Sys2Proof.Machine
end

