-- ==== Sys2Proof/Config.lean ====
section
/-! DEFINITION. What the manual leaves open, as constants with no body: nothing can evaluate them (log entry 12). -/

namespace Sys2Proof.Config

/-- A byte the manual does not fix: the n-th free value, byte i of it. -/
opaque freeByte : Nat → Nat → Byte

/-- A choice the manual leaves open: the n-th free value, choice i of it. -/
opaque freeBool : Nat → Nat → Bool

/-- A word the manual does not fix: the n-th free value, word i of it. -/
opaque freeWord : Nat → Nat → W64

/-- The check of a firmware image (R443): the security version of an image whose signature holds, none for any
other. Signatures are not computed (log entry 5). -/
opaque imageSvn : List Byte → Option (BitVec 8)

end Sys2Proof.Config
end

