-- ==== Sys2Proof/Machine/Maps.lean ====
section
/-! DEFINITION. Finite maps as lists of a key and a value, and memories as lists of cells in one canonical form
(addresses rising, no byte equal to what an unlisted address reads as). -/

namespace Sys2Proof.Machine

/-- A finite map. -/
abbrev AMap (β : Type) := List (Nat × β)

/-- The value at a key, if there is one. -/
def look {β : Type} : AMap β → Nat → Option β
  | [], _ => none
  | (j, v) :: t, k => if j = k then some v else look t k

/-- Put a value at a key, in rising order of keys. -/
def put {β : Type} : AMap β → Nat → β → AMap β
  | [], k, v => [(k, v)]
  | (j, w) :: t, k, v => if k < j then (k, v) :: (j, w) :: t else if j = k then (k, v) :: t else (j, w) :: put t k v

/-- Remove a key. -/
def del {β : Type} : AMap β → Nat → AMap β
  | [], _ => []
  | (j, w) :: t, k => if j = k then del t k else (j, w) :: del t k

/-- The value at a key, or the default. -/
def mget {β : Type} (d : β) (m : AMap β) (k : Nat) : β := (look m k).getD d

/-- Put a value; the default is not listed, so that equal contents are equal data. -/
def mset {β : Type} [DecidableEq β] (d : β) (m : AMap β) (k : Nat) (v : β) : AMap β :=
  if v = d then del m k else put m k v

/-- Map every value. -/
def mapV {β γ : Type} (f : Nat → β → γ) : AMap β → AMap γ
  | [] => []
  | (k, v) :: t => (k, f k v) :: mapV f t

/-- A memory of bytes; what it does not list reads zero (log entry 2). -/
abbrev Memory := List Host.Cell

/-- What an unlisted address reads as (R440, R176; for host memory log entry 2, DESIGN CHOICE). -/
def Memory.unlisted : Byte := 0

/-- Read one byte. -/
def Memory.read (m : Memory) (a : Nat) : Byte := mget Memory.unlisted m a

/-- Write one byte; the canonical form is kept. -/
def Memory.write (m : Memory) (a : Nat) (v : Byte) : Memory := mset Memory.unlisted m a v

/-- The canonical form: keys above a bound, rising, and no listed byte reads as an unlisted one. -/
def Memory.wfFrom : Nat → Memory → Bool
  | _, [] => true
  | lo, (k, v) :: t => decide (lo ≤ k) && v != Memory.unlisted && Memory.wfFrom (k + 1) t

/-- The canonical form. -/
def Memory.wf (m : Memory) : Bool := Memory.wfFrom 0 m

/-- Read n bytes from an address up. -/
def Memory.readN (m : Memory) (a : Nat) : Nat → List Byte
  | 0 => []
  | n + 1 => Memory.read m a :: Memory.readN m (a + 1) n

/-- Write bytes from an address up. -/
def Memory.writeL (m : Memory) (a : Nat) : List Byte → Memory
  | [] => m
  | b :: bs => Memory.writeL (Memory.write m a b) (a + 1) bs

end Sys2Proof.Machine
end

