-- ==== Sys2Proof/Machine/State.lean ====
section
/-! DEFINITION. The state of the W80 as plain data: threads, groups, teams and launches; tiles with their worlds'
resources; field memory and its homes; worlds, queues, partitions, ports and the hearth. Each field names the rule
of the manual that gives it. Reset values: R444 and log entry 1. -/

namespace Sys2Proof.Machine

/-! ## Faults and waits -/

/-- Fault codes (Table 17-2). -/
inductive Code where
  | illegalEncoding | fetchBoundary | regAllot | lookaheadViolation | accuracyClass | formatDivergence
  | layoutMismatch | treeDepth | slotState | stackLimit | growDeadlock | translation | protection | alignment
  | integrity | uncorrectableData | tensorBounds | readonlyTensor | detScope | copyFailed | nameStale
  | remoteTimeout | hostAtomicUnsupported | remoteUnreachable | gridStall | trapQueueOverflow | heartbeatLost
  | machineCheck
  | trap (c : BitVec 8)
  deriving DecidableEq, Repr

/-- A fault of one lane before it is reported (R316 to R318). -/
structure LaneFault where
  lane : Nat
  code : Code
  addr : Nat := 0
  detail : Nat := 0
  deriving DecidableEq, Repr

/-- Causes a group carries while it is not ready (Table 9-7). -/
inductive Cause where
  | issue | dualConflict | window | bank | fetch | slab | sema | fence | barrier | meeting | engine | grow | switch
  | trap | empty | stopped
  deriving DecidableEq, Repr

/-- What a group waits for (R168). `pend` is an instruction not yet able to issue; the others remember what it did
when it first issued. -/
inductive Wait where
  | none
  | pend (c : Cause)
  | fetch (va : Nat)
  | walk
  | arrived (cl : Bool) (n : Nat) (phase : Nat)
  | fence (sel : List Nat) (sc : Scope)
  | result (op : Nat)
  | grow (lanes : List Nat)
  | request (c : Cause) (done : Bool)
  | table (done : Bool)
  | failed (code : Code) (addr detail : Nat)
  | ended (toks : List (Nat × Nat))
  deriving DecidableEq, Repr

/-- Why a lane of a group holds no thread (R112, R341). -/
inductive Absence where
  | unfilled | exited | parked | diverged | arrived
  deriving DecidableEq, Repr

/-! ## Threads and groups -/

/-- One thread (R11, R20, R304, R206). -/
structure Thread where
  idx : W64
  x : AMap W32 := []
  p : BitVec 8 := 0x80
  meet : W64 := 0
  h : AMap (BitVec 16) := []
  draws : W64 := 0
  entry : W64 := 0
  regpc : Va := 0
  regcnt : W32 := 0
  resv : Option Nat := none
  arrived : BitVec 16 := 0
  node : Option Nat := none
  spawned : Bool := false
  deriving DecidableEq, Repr

/-- What an instruction window watches (R55). -/
structure WinObj where
  vec : List (Nat × Nat) := []
  uni : List Nat := []
  acc : List Nat := []
  sem : List Nat := []
  deriving DecidableEq, Repr

/-- A lookahead window (R55): the operation, the lanes of the threads that executed it, counted instructions still
inside, and the object. -/
structure Window where
  op : Nat
  lanes : List Nat
  left : Nat
  obj : WinObj
  deriving DecidableEq, Repr

/-- Where the result of a pending operation goes when it completes. -/
inductive Dest where
  | none
  | data (d : DataReg) (sx : Bool) (sz : Sz)
  | tens (d : BitVec 8) (sx : List Nat)
  | quad (d : BitVec 8) (vals : AMap (List W32))
  | vals (d : BitVec 8) (vals : AMap W32)
  | recv (d : BitVec 8) (sz : Sz) (m : Option (BitVec 8))
  | msg (d : BitVec 8) (vals : AMap (List W32)) (mask : Option (BitVec 8 × W32))
  deriving DecidableEq, Repr

/-- A pending operation of a group: a long-latency instruction that has issued (R55). -/
structure Pend where
  id : Nat
  pc : Va
  len : Nat
  ll : Bool
  late : Bool
  nonIdem : Bool
  dest : Dest
  lanes : List Nat
  sem : Option Nat := none
  ready : Bool := true
  since : Nat := 0
  deriving DecidableEq, Repr

/-- An unsettled late fault of a lane (R308, R311). -/
structure LateFault where
  op : Nat
  pc : Va
  fault : LaneFault
  deriving DecidableEq, Repr

/-- A range of line numbers or granules, both ends included. -/
structure Span where
  lo : Nat
  hi : Nat
  deriving DecidableEq, Repr

/-- A group in its slot (R11, R110). `urec` is the uniform record it was formed from (R115); `bank` the cycles for which
its instruction still collects bank reads, once it has begun to (R166); `seams` how many of its fences waited for the seam
ordering points (R378); `record` the fault record that is not written yet and for which it waits (R319); `why` what keeps
it from issuing while its issue set is stopped (R339). -/
structure Group where
  uid : Nat
  team : Nat
  pc : Va
  allot : Nat
  urec : Option Nat := none
  lanes : AMap Thread
  gone : AMap Absence := []
  k : AMap W64 := []
  limit : W64 := 0
  span : W64 := 0
  age : Nat := 0
  wait : Wait := .none
  bank : Option Nat := none
  ops : List Pend := []
  wins : List Window := []
  late : List LateFault := []
  tags : AMap (List Span) := []
  walked : AMap (Nat × Nat) := []
  seams : Nat := 0
  record : Option Nat := none
  why : Option Cause := none
  deriving DecidableEq, Repr

/-! ## Memory accesses under way -/

/-- What an access does where it performs. -/
inductive AKind where
  | load
  | store
  | atom (op : AtomOp) (b c : W64)
  | ldl
  | stc
  | hatom (op : HostAtomOp) (f : Bool) (b c : W64)
  deriving DecidableEq, Repr

/-- Where an access stands. `walk` waits for a translation; `cached` is a stack store whose bytes the stack cache holds;
`scr` is on its way to a tile's scratchpad; `done` has performed and counts the wait W, once its acknowledgement is
there. -/
inductive Phase where
  | walk
  | cached
  | scr (tile : Nat)
  | home (field : Nat)
  | host (port : Nat)
  | remote (module : Nat)
  | done (acked : Bool) (w : Nat)
  deriving DecidableEq, Repr

/-- What an access returned: bytes, a status, or a fault. -/
inductive Result where
  | data (bs : List Byte)
  | status (ok : Bool)
  | fault (c : Code) (detail : Nat)
  deriving DecidableEq, Repr

/-- An access of a lane, from issue to completion (R199, R214). `reach` says which homes the instruction reaches: 0 any,
1 field memory, 2 another module, 3 the host; `lim` that a stack access lies outside its slot; `held` the bytes that the
thread's own staged stores and its stack cache already hold; `homek` and `homeid` the home once it is known (0 field, 1
host, 2 module, 3 the scratch of a tile, 4 not known); `pref` marks a PREF; `fromHome` a load that
waits for its own bytes in the stack cache to go home (R198); `vec` is the vector that the store of a
SIGNAL raises once it is visible (R244); `start` is the lease clock when the request left; `fell` is what the fallback
at a port's atomic point has read (R410); `regpc` and `regcnt` are those of the thread when it issued (R317). Counter 8
is none. -/
structure Access where
  id : Nat
  world : Nat
  tile : Nat
  slot : Nat
  group : Nat
  team : Nat := 0
  launch : Nat
  op : Nat
  lane : Nat
  thread : W64
  pc : Va
  kind : AKind
  ctr : Nat
  ea : Nat := 0
  va : Nat
  size : Nat
  data : List Byte := []
  tid : Nat := 0
  ver : Nat := 0
  lc : Lc := .dflt
  lclass : Nat := 0
  ro : Bool := false
  fresh : Bool := false
  stack : Bool := false
  lim : Bool := false
  reach : Nat := 0
  held : AMap Byte := []
  homek : Nat := 4
  homeid : Nat := 0
  pref : Bool := false
  start : Nat := 0
  keep : Bool := true
  fromHome : Bool := false
  pa : Nat := 0
  key : Nat := 0
  nc : Bool := false
  roPage : Bool := false
  phase : Phase := .walk
  res : Option Result := none
  vec : Option Nat := none
  hint : Hint := .normal
  fell : Option (List Byte) := none
  regpc : Va := 0
  regcnt : W32 := 0
  link : Option Nat := none
  deriving DecidableEq, Repr

/-- A walk of a page that a walker of a field performs (R325). -/
structure Walk where
  id : Nat
  field : Nat
  world : Nat
  tile : Nat
  page : Nat
  deriving DecidableEq, Repr

/-! ## Teams, clusters and launches -/

/-- A team barrier (R126, R148). -/
structure Barrier where
  arrived : Nat := 0
  count : W32 := 0
  cl : Bool := false
  deriving DecidableEq, Repr

/-- A store kept back until the ticket unit releases it (R127); `vec` is the vector that a SIGNAL raises once its store is
visible (R244), `src` the access of the thread that made it (R317), `id` the number of the store (R385). -/
structure Staged where
  va : Nat
  data : List Byte
  tid : Nat
  ver : Nat
  homek : Nat
  homeid : Nat
  pa : Nat
  key : Nat
  ro : Bool := false
  vec : Option Nat := none
  src : Option Access := none
  id : Nat := 0
  deriving DecidableEq, Repr

/-- A resident team (R110, R172, R176). -/
structure Team where
  launch : Nat
  world : Nat
  index : Nat
  tile : Nat
  cluster : Nat
  pos : Nat
  live : Nat
  barriers : AMap Barrier := []
  scratch : Nat := 0
  scratchLen : Nat := 0
  limit : Nat := 0
  nslot : Nat := 32
  depth : Nat := 0
  staged : List Staged := []
  ended : Bool := false
  deriving DecidableEq, Repr

/-- A placed cluster (R148). `phases` counts, per team position and barrier, the phases completed with a cluster
arrival; `counts` are the cluster completion counts, which a read gives modulo 2^32. -/
structure Cluster where
  launch : Nat
  world : Nat
  index : Nat
  w : Nat
  h : Nat
  teams : AMap Nat := []
  phases : AMap Nat := []
  counts : AMap Nat := []
  deriving DecidableEq, Repr

/-- A launch record (Table 9-2). -/
structure LRec where
  entry : W64 := 0
  arg : W64 := 0
  lid : W64 := 0
  seed : W64 := 0
  teams : Nat := 0
  h : Nat := 0
  w : Nat := 0
  threads : Nat := 0
  coop : Bool := false
  fuse : Bool := false
  det : Bool := false
  regs : Nat := 0
  scratch : Nat := 0
  stack : Nat := 0
  stall : Nat := 0
  bint : Nat := 0
  irq : Bool := false
  resv : Bool := false
  deriving DecidableEq, Repr

/-- A launch being dispatched or run (R156, R159, R163, R315, R344). `next` is the lowest cluster not placed, `ahead` the
higher ones that are (R161). -/
structure Launch where
  wq : Nat
  seq : W32
  world : Nat
  part : Nat
  lr : LRec
  next : Nat := 0
  ahead : List Nat := []
  placed : List Nat := []
  endedTeams : Nat := 0
  released : Nat := 0
  staged : AMap (List Staged) := []
  handler : Bool := false
  ending : Bool := false
  status : Nat := 0
  stall : Nat := 0
  deriving DecidableEq, Repr

/-- A work queue (R154, R155). -/
structure WQ where
  world : Nat := 0
  en : Bool := false
  irq : Bool := false
  vec : BitVec 16 := 0
  ca : W64 := 0
  badwr : BitVec 16 := 0
  cwfail : Bool := false
  nextseq : W32 := 0
  held : List (W32 × LRec) := []
  running : Bool := false
  deriving DecidableEq, Repr

/-! ## The landing -/

/-- A thread waiting in the landing with the registers it carries (R114, R122, R309) and the lookahead windows it is in
(R55). -/
structure Waiting where
  th : Thread
  pc : Va
  allot : Nat
  l : Nat
  team : Nat
  urec : Nat
  born : Nat
  out : Bool := false
  wins : List Window := []
  deriving DecidableEq, Repr

/-- A bin: threads with one entry address and one uniform record (R115, R116). A closed one holds a group's worth of the
threads of a completed meeting record, of which `low` is the lowest index (R122). -/
structure Bin where
  pc : Va
  urec : Nat
  team : Nat
  timer : Nat
  timed : Bool := false
  closed : Bool := false
  low : Nat := 0
  ths : List Waiting
  deriving DecidableEq, Repr

/-- A request for register rows, in the order of R124: a group's GROW, or a bin that can launch; `cyc` is the cycle of
the tile in which it was made. -/
inductive RowReq where
  | grow (slot n cyc : Nat)
  | form (bin cyc : Nat)
  deriving DecidableEq, Repr

/-- A wait for landing room (R119): the group's slot, the bytes it needs, and the cycle in which the wait began. -/
structure Admit where
  slot : Nat
  need : Nat
  cyc : Nat
  deriving DecidableEq, Repr

/-- A uniform record, one copy for each different contents of a team (R115). -/
structure URec where
  team : Nat
  k : AMap W64
  deriving DecidableEq, Repr

/-- A meeting record (R122). -/
structure Meeting where
  m : Va
  n : Nat
  parent : W64
  team : Nat
  arrivedN : Nat := 0
  ths : List Waiting := []
  deriving DecidableEq, Repr

/-- Threads parked under one token (R309). -/
structure Parked where
  token : Nat
  team : Nat
  ths : List Waiting
  deriving DecidableEq, Repr

/-! ## Slabs, semaphores, the anvil, the pilot -/

inductive SlabState where
  | empty | filling | ready | draining
  deriving DecidableEq, Repr

/-- A slab-table entry (Table 10-5); `going` says that its release to EMPTY is due and waits for the passes that read it
(R255, R262). -/
structure Slab where
  st : SlabState := .empty
  deliv : W32 := 0
  owner : BitVec 8 := 0
  fmt : BitVec 4 := 0
  span : BitVec 3 := 0
  fill : Bool := false
  size : BitVec 20 := 0
  offset : BitVec 20 := 0
  loc : Bool := false
  going : Bool := false
  deriving DecidableEq, Repr

/-- Who asks a semaphore (R253); `now` says that the request was made in the cycle that runs. -/
inductive SemReq where
  | sacq (slot op group : Nat) (now : Bool)
  | join (ch n : Nat) (now : Bool)
  deriving DecidableEq, Repr

/-- A semaphore (Table 13-4) with its queue. -/
structure Sem where
  count : W32 := 0
  err : Bool := false
  queue : List SemReq := []
  deriving DecidableEq, Repr

/-- An accumulator tile: planes of words by 16 * m + n, and the status word (R259, Table 14-2). -/
structure AccTile where
  planes : AMap (AMap W32) := []
  bad : Bool := false
  fin : Bool := false
  afmt : BitVec 2 := 0
  pres : BitVec 6 := 0
  deriving DecidableEq, Repr

/-- The operand set of an active quarter, read when the instruction issues (R291). -/
structure Quarter where
  q : Nat
  tile : Nat
  a : Nat
  b : Nat
  scale : Nat
  aspan : Nat
  bspan : Nat
  k : Nat
  deriving DecidableEq, Repr

/-- What an anvil operation does when it takes effect (R270): the quarters left of an MMA or MMAT with the operand
slots as they stood when it was accepted, and the operations on accumulator tiles. -/
inductive AnvilWork where
  | mma (tern : Bool) (ac : AccClass) (word : W32) (qs : List Quarter) (slots : Memory)
  | zero (tiles : List Nat)
  | read (tile p : Nat) (half : Bool)
  | write (tile af p : Nat) (half : Bool) (vals : AMap (List W32))
  | bad (tile : Nat) (v : Bool)
  | tree (d a l c : Nat)
  | fin (a : Nat)
  deriving DecidableEq, Repr

/-- A request the anvil could not accept when it was made (R270). -/
structure AnvilReq where
  slot : Nat
  group : Nat
  occ : Nat
  deriving DecidableEq, Repr

/-- An operation the anvil has accepted and not finished (R270); `fin` is the cycle of the tile in which the array
has finished it (Table 14-6). -/
structure AnvilOp where
  id : Nat
  slot : Nat
  group : Nat
  op : Nat
  fin : Nat := 0
  slots : List Nat
  tiles : List Nat
  work : AnvilWork
  deriving DecidableEq, Repr

/-- A tensor-table entry (Table 10-7). -/
structure Tensor where
  base : Nat := 0
  ver : W32 := 0
  fmt : Nat := 0
  ndim : Nat := 0
  sparse : Bool := false
  lclass : Nat := 0
  ro : Bool := false
  valid : Bool := false
  fillv : W32 := 0
  shape : List Nat := []
  stride : List Int := []
  deriving DecidableEq, Repr

/-- A task node as the pilot read it (Table 13-1). -/
structure NodeRec where
  next : Nat := 0
  count : Nat := 0
  regs : Nat := 0
  nin : Nat := 0
  nout : Nat := 0
  semen : Bool := false
  irq : Bool := false
  sem : Nat := 0
  cmp : Nat := 0
  cw : Nat := 0
  kind : Nat := 0
  a : W64 := 0
  b : W64 := 0
  ibase : W64 := 0
  desc : W64 := 0
  bad : Bool := false
  deriving DecidableEq, Repr

/-- A copy descriptor (Table 13-3). -/
structure CopyDesc where
  tensor : Nat := 0
  slab : Nat := 0
  sem : Nat := 0
  scope : Nat := 0
  acq : Bool := false
  rel : Bool := false
  srck : Bool := false
  span : Nat := 0
  loc : Bool := false
  soff : Nat := 0
  org : List Int := []
  ext : List Nat := []
  m : Nat := 0
  sfmt : Nat := 0
  xoff : Nat := 0
  resvBad : Bool := false
  deriving DecidableEq, Repr

/-- A node between reached and retired (R239). `copies` says which declared copies have begun. -/
structure NodeSt where
  addr : Nat
  nd : NodeRec
  descs : List CopyDesc
  begun : List Nat := []
  dispatched : Bool := false
  spawned : Nat := 0
  uid : Nat := 0
  live : Nat := 0
  finishing : Bool := false
  joinMade : Bool := false
  stores : List Nat := []
  deriving DecidableEq, Repr

/-- A chain (R235, R242, R244). `walk` is the node the walk comes to next, 0 while it is not known; `last` the last
node of the chain itself that was reached; `ret` the open CONDs and WHILEs with their nodes, innermost first; `links` the
NEXT values that CHAIN.LINK gave nodes not yet reached (R282); `record` is the halt's fault record, while it is not written
(R319). -/
structure Chain where
  owner : Option Nat := none
  head : Nat := 0
  ltail : Nat := 0
  atail : Nat := 0
  nodes : List NodeSt := []
  walk : Nat := 0
  last : Nat := 0
  links : AMap Nat := []
  ret : List (Nat × NodeRec) := []
  seq : W64 := 0
  halted : Bool := false
  record : Option Nat := none
  deriving DecidableEq, Repr

/-- A request to the pilot not yet served (R278): a CHAIN.LINK with its node's store, or a CHAIN.ADV, and the cycle in which
it was made. -/
structure PilotReq where
  slot : Nat
  group : Nat
  lane : Nat
  ch : Nat
  node : Option Nat
  at' : Nat := 0
  deriving DecidableEq, Repr

/-- A leaf kept in the translation cache (R325), or found by a walk (Table 17-5). -/
structure Leaf where
  level : Nat
  frame : Nat
  homek : Nat
  homeid : Nat
  nc : Bool
  fp : Bool
  x : Bool
  ro : Bool
  key : Nat
  deriving DecidableEq, Repr

/-- A copy under way (R248, R254): its node, its descriptor, the tensor as it stood when it started, and whether the
slipway has it. `discard` marks the input of a node that a halt discarded (R255); `leaves` and `bads` are the pages it
has translated and the walks that failed, by page (R325); `moved` says that an output's writes have performed and their
waits run (R207); `retried` are the addresses of the pieces at another module that the slipway has asked for again (R254). -/
structure Copy where
  id : Nat
  world : Nat
  tile : Nat
  team : Nat
  ch : Nat
  node : Nat
  out : Bool
  desc : CopyDesc
  tn : Tensor
  size : Nat
  slip : Bool := false
  discard : Bool := false
  leaves : AMap Leaf := []
  bads : AMap (Nat × Nat) := []
  moved : Bool := false
  retried : List Nat := []
  deriving DecidableEq, Repr

/-- A static route (Table 21-5). -/
structure Route where
  v : Bool := false
  dest : W32 := 0
  droute : BitVec 6 := 0
  deriving DecidableEq, Repr

/-- A message of SEND (R419). -/
structure Msg where
  mask : W32
  sz : Sz
  data : AMap (List Byte)
  deriving DecidableEq, Repr

/-- A RECV not yet served (R422). -/
structure RecvReq where
  slot : Nat
  group : Nat
  op : Nat
  deriving DecidableEq, Repr

/-- Debug state of a world on a tile (R337 to R340); `next` are the issue sets that BKPTs of this cycle stop from the
next one on (R352), `lift` those that a write in this cycle lets run from the next one on (R338), `brk` those that a BKPT has
stopped in the step under way. -/
structure Dbg where
  stop : BitVec 4 := 0
  lcen : Bool := false
  stepping : Option W32 := none
  held : Option W32 := none
  base : Nat := 0
  stepend : Nat := 0
  idle : Nat := 0
  dumpBusy : Bool := false
  dumpErr : Bool := false
  team : W32 := 0
  next : BitVec 4 := 0
  lift : BitVec 4 := 0
  brk : BitVec 4 := 0
  deriving DecidableEq, Repr

/-- Counters of R169 and R341: keys are the selectors of R354 and R355. -/
abbrev Counters := AMap W64

/-- An error-log entry (Table 19-12). -/
structure ErrLog where
  n : W64 := 0
  ring : AMap W64 := []
  deriving DecidableEq, Repr

/-- Everything a world has on a tile; a switch moves only the latch (R332 to R336, log entry 6). `lwant` is the room
that a held writer wants in the 64 KiB of the landing (R118); `flush` are lines of the stack cache that are to go home
(R175); `saved` and `savedLcr` are counters not yet added to the live ones (R170); `ctx` says that the tile's block of
the context area holds a save of this state (R336); `mtsr` are the writes of MTSR that take effect from the next cycle
on (R353). -/
structure WT where
  groups : AMap Group := []
  used : Nat := 0
  growq : List RowReq := []
  bins : AMap Bin := []
  urecs : AMap URec := []
  meets : AMap Meeting := []
  parked : AMap Parked := []
  admits : List Admit := []
  lwant : Nat := 0
  scratch : Memory := []
  slabs : AMap Slab := []
  omem : Memory := []
  spans : AMap Nat := []
  accs : AMap AccTile := []
  claims : AMap Nat := []
  anvil : List AnvilOp := []
  anvilq : List AnvilReq := []
  rels : List (Nat × List Nat) := []
  sems : AMap Sem := []
  cws : AMap W64 := []
  chains : AMap Chain := []
  pilotq : List PilotReq := []
  stackc : Memory := []
  stackd : AMap (Nat × W64) := []
  flush : List Nat := []
  routes : AMap Route := []
  bufs : AMap (List Msg) := []
  recvs : AMap (List RecvReq) := []
  acct : Counters := []
  saved : Counters := []
  savedLcr : Counters := []
  pcbase : AMap Va := []
  pclimit : AMap Va := []
  lcr : Counters := []
  errs : ErrLog := {}
  dbg : Dbg := {}
  restored : Nat := 10
  ctx : Bool := false
  mtsr : List (Nat × W64) := []
  deriving DecidableEq, Repr

/-! ## Tiles -/

/-- A line in an L1 or a slice (R182, R195): the bytes, the tag it was read under, when the lease began and how long
it lasts. -/
structure L1Line where
  data : List Byte
  world : Nat
  tid : Nat
  ver : Nat
  start : Nat
  len : Nat
  hint : Hint := .normal
  seq : Nat := 0
  deriving DecidableEq, Repr

/-- A fetched block, or the fault its fetch met (R58, R320). `own` are its bytes as teams with staged stores there see it
(R19, R127). -/
structure FetchBlock where
  data : List Byte
  fault : Option (Code × Nat) := none
  own : AMap (List Byte) := []
  deriving DecidableEq, Repr

inductive SwPhase where
  | running | draining | quiet | swapping
  deriving DecidableEq, Repr

/-- A group that issued in the current cycle: its slot, the PC charged, the register banks it read and whether it
used the anvil port (R164, R166, R167). -/
structure IssuedRec where
  slot : Nat
  pc : Va
  banks : List Nat
  anvil : Bool
  deriving DecidableEq, Repr

/-- A tile's own state (R192, R329 to R332, R365, R393). `shadow` is the world preloaded; `out` the outgoing world whose
rows are being saved and `spill` how many rows are done; `halt` is the count at which a freeze stopped the lease clock
(R342); `quench` says that a quench has not ended. `issued` are the
groups that issued in this cycle, `left` those that left their slots in it without issuing (R167), `past` those of them
whose effect went before a pick that is still to take effect,
`later` the picks whose effect comes after a later pick's, in order of group slot, and `lost` the picks that lost a dual
conflict (R164). `asks` are the pages, by world and page, that the fetch unit and the pilot wait for (R325); `served`
says that the pilot has served a request in this cycle (R278). -/
structure Tile where
  latch : Option Nat := none
  shadow : Option Nat := none
  out : Option Nat := none
  spill : Nat := 7
  quench : Bool := false
  phase : SwPhase := .running
  halt : Option Nat := none
  cycle : Nat := 0
  l1 : AMap L1Line := []
  tlb : AMap Leaf := []
  asks : List Nat := []
  fetch : AMap FetchBlock := []
  idle : W64 := 0
  idleSlots : W64 := 0
  issued : List IssuedRec := []
  left : List (Nat × Group) := []
  past : List IssuedRec := []
  later : List Nat := []
  lost : List Nat := []
  tried : List Nat := []
  served : Bool := false
  deriving DecidableEq, Repr

/-! ## Field memory -/

/-- A line that has been written: the tag it was written under, or none when it is poisoned (R187, R188, R398,
log entry 5). A line not listed is blank (R384). `key` and `mac` number the installs of the data key pair and of the MAC
key that it was written under. -/
structure LineTag where
  world : Nat
  key : Nat
  mac : Nat
  tid : Nat
  ver : Nat
  deriving DecidableEq, Repr

/-- The power state of a field (R438 to R440). -/
structure Field where
  pst : Nat := 3
  target : Nat := 3
  moving : Bool := false
  token : Bool := false
  deriving DecidableEq, Repr

/-! ## Worlds -/

/-- A fault record (Table 17-3). -/
structure FRec where
  code : Code
  pc : Va := 0
  addr : Nat := 0
  lanes : W32 := 0
  tile : W32 := 0
  thread : W64 := 0
  token : Nat := 0
  seq : W32 := 0
  detail : W32 := 0
  kind : Nat := 0
  resv : Bool := false
  chain : Nat := 0
  group : Nat := 0
  wq : Nat := 0
  regpc : Va := 0
  regcnt : W32 := 0
  deriving DecidableEq, Repr

/-- A record waiting to be written to the trap queue (R319), with the group that waits for it. -/
structure PendRec where
  id : Nat
  fr : FRec
  launch : Nat := 0
  deriving DecidableEq, Repr

/-- An open token: where its threads are parked and whose they are (R313). -/
structure Token where
  tile : Nat
  launch : Nat
  deriving DecidableEq, Repr

/-- TDISP states (Table 22-3). -/
inductive Tdisp where
  | unlocked | locked | run | error
  deriving DecidableEq, Repr

/-- The secured session of a world (R383, R387, R395), as far as it acts on the machine. -/
structure Session where
  opened : Bool := false
  secured : Bool := false
  period : Nat := 0
  ide : Bool := false
  out : List W64 := []
  deriving DecidableEq, Repr

/-- A world: one virtual function (R382 and the rules named field by field in INVENTORY.md). `tensors` are the entries of
tensor tables in the world's device memory, by address / 128 (R185); `gens` and `macGen` are the values of its data key
pairs and of its MAC key (R187, R188, R386); `stopping` is a stop under way with its record, if it has one (R394, R396);
`resWait` are verdicts that a quiesce keeps back (R392). -/
structure World where
  part : Option Nat := none
  st : Tdisp := .unlocked
  root : W64 := 0
  ctx : W64 := 0
  ttb : W64 := 0
  stkb : W64 := 0
  stkn : W64 := 0
  sec : W64 := 0
  inv : Bool := false
  invWait : List Nat := []
  tensors : AMap Tensor := []
  changes : List (Nat × Nat) := []
  tqbase : W64 := 0
  tqhead : BitVec 11 := 0
  tqtail : BitVec 11 := 0
  handlerq : W64 := 0
  nextTok : Nat := 1
  tokens : AMap Token := []
  recs : List PendRec := []
  keys : List Nat := []
  mac : Bool := false
  gens : AMap Nat := []
  macGen : Nat := 0
  sess : Session := {}
  oobrec : Option FRec := none
  oobseq : W32 := 0
  dbgsel : W64 := 0
  dbgbuf : W64 := 0
  rtsel : W64 := 0
  rtrej : W32 := 0
  msix : AMap W64 := []
  msixPend : List Nat := []
  peers : AMap W64 := []
  switches : Nat := 0
  stopped : Bool := false
  quench : Bool := false
  stopping : Option (Option FRec) := none
  tdispWait : List Nat := []
  resWait : List (Nat × Verdict) := []
  deriving DecidableEq, Repr

/-! ## Partitions, ports and the hearth -/

/-- A switch or quiesce under way on a partition (R331, R390). -/
structure Switch where
  dst : Option Nat
  swapping : Bool := false
  deriving DecidableEq, Repr

/-- A partition (R327, R328, R367, R380, R390). `quiesce`: 0 none, 1 a RESHAPE's, 2 a renewal's, 3 a snapshot's;
`before` is the world latched before it. -/
structure Part where
  used : Bool := false
  tiles : List Nat := []
  floor : BitVec 12 := 0
  worlds : List Nat := []
  quantum : AMap W64 := []
  cur : Option Nat := none
  latched : Option Nat := none
  left : Nat := 0
  sw : Option Switch := none
  yielded : Bool := false
  skip : List Nat := []
  quiesce : Nat := 0
  before : Option Nat := none
  deriving DecidableEq, Repr

/-- A command the hearth holds (Table 23-3). -/
structure HCmd where
  port : Nat
  seq : W32
  code : Nat
  part : Nat
  world : Nat
  arg : Nat
  buf : Nat
  nitem : Nat
  bad : Bool
  started : Bool := false
  fields : List Nat := []
  deriving DecidableEq, Repr

/-- A host port (R399, R403, R442). -/
structure Port where
  cmdca : W64 := 0
  atomok : Bool := false
  evbase : W64 := 0
  evhead : BitVec 9 := 0
  evtail : BitVec 9 := 0
  lost : BitVec 16 := 0
  snapctl : W64 := 0
  dsel : BitVec 11 := 0
  fpsel : BitVec 7 := 0
  fwbuf : W64 := 0
  fwctl : W64 := 0
  numvfs : Nat := 128
  deriving DecidableEq, Repr

/-- A message between its injection and its arrival (R419, R420). `route` is the source's static route, if it was
named by one; `group` and `epoch` say whose it is and after how many fences of its group that wait for the seam ordering
points it was sent (R378). -/
structure Flight where
  id : Nat
  world : Nat
  src : Nat
  dest : Nat
  route : Option Nat
  droute : Nat
  msg : Msg
  group : Nat := 0
  epoch : Nat := 0
  deriving DecidableEq, Repr

/-- A debug dump whose stores are under way (R339). -/
structure Dump where
  world : Nat
  tile : Nat
  buf : Nat
  data : List Byte
  deriving DecidableEq, Repr

/-- The images of one snapshot in host memory (R414, R415; as records, log entry 6): `places` are the port and the address
of every field's image, `domain` the number of the domain key that its trailers are wrapped under. -/
structure Image where
  places : List (Nat × Nat)
  domain : Nat
  fmem : Memory
  lines : AMap (Option LineTag)
  frames : AMap Nat
  parts : AMap Part
  worlds : AMap World
  wts : AMap WT
  wqs : AMap WQ
  launches : AMap Launch
  clusters : AMap Cluster
  teams : AMap Team
  acc : List Access
  deriving DecidableEq, Repr

/-- The hearth's own registers that a reset clears (R404, R414, R440 to R443). `pend` are the exclusions logged and not
yet applied (R366), `snapAt` the places of a snapshot or restore under way, `images` the snapshot images that host memory
holds, `domain` the number of the system's domain key (R415). -/
structure Hearth where
  off : Bool := false
  nextseq : W32 := 0
  cmds : List HCmd := []
  modid : Option (BitVec 6) := none
  whsel : BitVec 6 := 0
  whmask : AMap W64 := []
  linkUp : List Nat := []
  snapstat : BitVec 8 := 0
  snapRestore : Bool := false
  snapAt : List (Nat × Nat) := []
  images : List Image := []
  domain : Nat := 0
  telem : W64 := 0
  wakes : List Nat := []
  fwst : BitVec 3 := 0
  svn : BitVec 8 := 0
  fabricLog : List W64 := []
  repairLog : List W64 := []
  needService : Bool := false
  pend : List W64 := []
  frozen : List Nat := []
  msixOut : List (Nat × Nat) := []
  wharfOut : List (Nat × RemoteResp) := []
  deriving DecidableEq, Repr

/-- An access to a function's BAR0, of a world's virtual function or of a port's physical function, by its offset and its
size in bytes (R399, R400). -/
inductive BarAddr where
  | vf (world off size : Nat)
  | pf (port off size : Nat)
  deriving DecidableEq, Repr

/-- One turn of the agenda: an event; what comes by the default order (log entry 3); a memory error that a line of field
or host memory begins or ceases to have (R324, R409); a node of a field's hash tree, by its level and the first line
beneath it, that no longer matches its children, or takes an uncorrectable error (R189, R397); a write of host memory by
the host; a read of a register by the host (R400); a copy that a tile's L1 gives up (R195); images of a snapshot that the
host lays in its memory; a domain key that the hearths of the system agree on (R415). -/
inductive Turn where
  | ev (i : Instr)
  | go
  | mem (line : Nat) (bad : Bool)
  | node (field level line : Nat) (stale : Bool)
  | host (port addr : Nat) (bs : List Byte)
  | read (a : BarAddr)
  | evict (tile line : Nat)
  | image (im : Image)
  | domain (key : Nat)
  deriving DecidableEq, Repr

/-- Everything but the nonvolatile stores; `ecc` are the lines with a memory error, host lines beyond 2^60, and `stale`
the nodes of hash trees that do not match (field, level, first line), `failed` those with an uncorrectable error; `gen`,
the wafer generation, is kept over a reset too (R367), `readout` is what the host's last read returned (R400), and
`excl` are the exclusions applied to the capability records (R365, R366), and
`clock` is the count of every lease clock that runs (R192, R438, log entry 4). Keys: a tile by bits [19:7] of its name
(R362), a world's part of a tile by world * 8192 + tile, a field byte by field * 2^36 + offset, a host byte by port *
2^56 + address, a line by its first byte's key / 64, a frame by field * 2^20 + frame. -/
structure M where
  cur : Option (Nat × Nat) := none
  agenda : List Turn := []
  uid : Nat := 1
  free : Nat := 0
  gen : BitVec 12 := 0
  excl : List W64 := []
  clock : Nat := 0
  tiles : AMap Tile := []
  wts : AMap WT := []
  teams : AMap Team := []
  clusters : AMap Cluster := []
  launches : AMap Launch := []
  wqs : AMap WQ := []
  acc : List Access := []
  walks : List Walk := []
  copies : List Copy := []
  flights : List Flight := []
  dumps : List Dump := []
  fmem : Memory := []
  lines : AMap (Option LineTag) := []
  ecc : List Nat := []
  stale : List (Nat × Nat × Nat) := []
  failed : List (Nat × Nat × Nat) := []
  expiry : AMap Nat := []
  hot : AMap Nat := []
  frames : AMap Nat := []
  fields : AMap Field := []
  hmem : Memory := []
  worlds : AMap World := []
  parts : AMap Part := []
  ports : AMap Port := []
  stops : AMap Bool := []
  readout : W64 := 0
  hearth : Hearth := {}
  deriving DecidableEq, Repr

/-- What outlives a reset beside the wafer generation (R363, R366, R443): the fuse map, the retirement log, the
fused minimum version, and the version of the stored image when it is good. -/
structure Nv where
  fuse : List W64 := []
  log : List W64 := []
  minSvn : BitVec 8 := 0
  image : Option (BitVec 8) := some 0
  deriving DecidableEq, Repr

/-- Where a step stops with a fault. -/
inductive Fault where
  /-- exec of an instruction of a thread in a state in which no group is current: there is no thread to run it. No
  step raises it, so it is safe. -/
  | noIssuer
  deriving DecidableEq, Repr

/-- What has no meaning. -/
inductive Refusal where
  /-- An arm of exec that has no meaning yet, by its mnemonic; safe, the machine stops. -/
  | notModelled (mnemonic : String)
  deriving DecidableEq, Repr

/-- The whole machine: what a reset clears, and what it keeps. -/
structure State where
  m : M
  nv : Nv
  deriving DecidableEq, Repr

/-- The machine right after a first reset (R444): every field off, no partition, no world bound, nothing held; the
nonvolatile store as a fault-free module leaves the factory (log entry 1). -/
def State.reset : State := { m := {}, nv := {} }

end Sys2Proof.Machine
end

