-- ==== Sys2Proof/Machine/Operands.lean ====
section
/-! DEFINITION. Reading and writing registers: vector registers, pairs and quads, uniform registers, predicates
(R11 to R15, R68, R81, R86). Every read and write of a register passes here. -/

namespace Sys2Proof

/-- Bytes of an access size. -/
def Sz.bytes : Sz → Nat
  | .b1 => 1 | .b2 => 2 | .b4 => 4 | .b8 => 8 | .b16 => 16

/-- Registers a size takes in a vector operand (R51). -/
def Sz.regs : Sz → Nat
  | .b1 => 1 | .b2 => 1 | .b4 => 1 | .b8 => 2 | .b16 => 4

/-- Vector registers a data register names, as a first register and a count. -/
def DataReg.vecs (sz : Sz) : DataReg → List (Nat × Nat)
  | .vec r => [(r.toNat, sz.regs)]
  | .uni _ => []

/-- Uniform registers a data register names. -/
def DataReg.unis : DataReg → List Nat
  | .vec _ => []
  | .uni k => [k.toNat]

def Opd64.vecs : Opd64 → List (Nat × Nat)
  | .pair r => [(r.toNat, 2)]
  | .uni _ => []

def Opd64.unis : Opd64 → List Nat
  | .pair _ => []
  | .uni k => [k.toNat]

def Src.vecs : Src → List (Nat × Nat)
  | .reg r => [(r.toNat, 1)]
  | .imm _ => []

def Src64.vecs : Src64 → List (Nat × Nat)
  | .opd o => Opd64.vecs o
  | .imm _ => []

def Src64.unis : Src64 → List Nat
  | .opd o => Opd64.unis o
  | .imm _ => []

end Sys2Proof

namespace Sys2Proof.Machine

/-- Vector register r of a thread; one never written reads zero (R11). -/
def Thread.xr (th : Thread) (r : Nat) : W32 := mget 0 th.x r

/-- Write vector register r. -/
def Thread.setX (th : Thread) (r : Nat) (v : W32) : Thread := { th with x := mset 0 th.x r v }

/-- A pair: even register low (R14). -/
def Thread.xpair (th : Thread) (r : Nat) : W64 := th.xr (r + 1) ++ th.xr r

/-- Write both halves of a pair (R15). -/
def Thread.setPair (th : Thread) (r : Nat) (v : W64) : Thread :=
  (th.setX r (v.extractLsb' 0 32)).setX (r + 1) (v.extractLsb' 32 32)

/-- Write consecutive registers. -/
def Thread.setXs (th : Thread) (r : Nat) : List W32 → Thread
  | [] => th
  | v :: vs => (th.setX r v).setXs (r + 1) vs

/-- A predicate; p7 reads true (R11). -/
def Thread.pr (th : Thread) (i : BitVec 3) : Bool := i == 7#3 || th.p.getLsbD i.toNat

/-- Write a predicate; a write to p7 is discarded (R15). -/
def Thread.setP (th : Thread) (i : BitVec 3) (v : Bool) : Thread :=
  if i = 7#3 then th
  else
    let bit : BitVec 8 := 1#8 <<< i.toNat
    { th with p := if v then th.p ||| bit else th.p &&& ~~~bit }

/-- A tensor handle; one never written holds 0 (R11). -/
def Thread.hr (th : Thread) (i : Nat) : BitVec 16 := mget 0 th.h i

/-- Write a tensor handle. -/
def Thread.setH (th : Thread) (i : Nat) (v : BitVec 16) : Thread := { th with h := mset 0 th.h i v }

/-- Uniform register i of a group (R11). -/
def Group.kr (g : Group) (i : Nat) : W64 := mget 0 g.k i

/-- Write uniform register i. -/
def Group.setK (g : Group) (i : Nat) (v : W64) : Group := { g with k := mset 0 g.k i v }

/-- The executing lanes' thread of lowest number (R70). -/
def lowest (ex : List (Nat × Thread)) : Option (Nat × Thread) := ex.head?

/-- The second source of the two-source pattern, or the third of the three-source one (R68). -/
def srcV (th : Thread) : Src → W32
  | .reg r => th.xr r.toNat
  | .imm i => i.signExtend 32

/-- A 64-bit operand (R81). -/
def opdV (g : Group) (th : Thread) : Opd64 → W64
  | .pair r => th.xpair r.toNat
  | .uni k => g.kr k.toNat

/-- The second source of a 64-bit instruction (R81). -/
def src64V (g : Group) (th : Thread) : Src64 → W64
  | .opd o => opdV g th o
  | .imm i => i.signExtend 64

/-- Value of bytes, lowest first (R6). -/
def bytesNat : List Byte → Nat
  | [] => 0
  | b :: bs => b.toNat + 256 * bytesNat bs

/-- The n bytes of a value, lowest first (R6). -/
def natBytes : Nat → Nat → List Byte
  | 0, _ => []
  | n + 1, v => BitVec.ofNat 8 v :: natBytes n (v / 256)

/-- The low bytes of a data register: what a store of this size stores (R86). -/
def dataBytes (g : Group) (th : Thread) (d : DataReg) (sz : Sz) : List Byte :=
  match d with
  | .uni k => natBytes sz.bytes (g.kr k.toNat).toNat
  | .vec r =>
    match sz with
    | .b1 | .b2 | .b4 => natBytes sz.bytes (th.xr r.toNat).toNat
    | .b8 => natBytes 8 (th.xpair r.toNat).toNat
    | .b16 => natBytes 4 (th.xr r.toNat).toNat ++ natBytes 4 (th.xr (r.toNat + 1)).toNat
        ++ natBytes 4 (th.xr (r.toNat + 2)).toNat ++ natBytes 4 (th.xr (r.toNat + 3)).toNat

/-- A loaded value of 1 or 2 bytes extended to 64 bits; longer ones zero-extended (R86). -/
def extend (sx : Bool) (bs : List Byte) : W64 :=
  let v := bytesNat bs
  if sx then
    if bs.length = 1 then (BitVec.ofNat 8 v).signExtend 64
    else if bs.length = 2 then (BitVec.ofNat 16 v).signExtend 64
    else BitVec.ofNat 64 v
  else BitVec.ofNat 64 v

/-- Place loaded bytes in a vector register, a pair or a quad (R86). -/
def placeVec (th : Thread) (r : Nat) (sx : Bool) (sz : Sz) (bs : List Byte) : Thread :=
  match sz with
  | .b1 | .b2 | .b4 => th.setX r ((extend sx bs).setWidth 32)
  | .b8 => th.setPair r (BitVec.ofNat 64 (bytesNat bs))
  | .b16 =>
    let v := bytesNat bs
    th.setXs r [BitVec.ofNat 32 v, BitVec.ofNat 32 (v / 2 ^ 32), BitVec.ofNat 32 (v / 2 ^ 64),
      BitVec.ofNat 32 (v / 2 ^ 96)]

/-- Value of a data register, as an atomic reads it. -/
def dataV (g : Group) (th : Thread) (d : DataReg) (sz : Sz) : W64 :=
  BitVec.ofNat 64 (bytesNat (dataBytes g th d sz))

end Sys2Proof.Machine
end

