-- ==== Sys2Proof/Machine/Flags.lean ====
section
/-! DEFINITION. The conditions that comparisons write to predicates (Table 4-6, R79, R80). The device has no other
flags (R30, R34). -/

namespace Sys2Proof.Machine

/-- Conditions of Table 4-6, on operands of any width. -/
def condV {n : Nat} (c : Cond) (a b : BitVec n) : Bool :=
  match c with
  | .eq => a == b
  | .ne => a != b
  | .lt => decide (a.toInt < b.toInt)
  | .le => decide (a.toInt ≤ b.toInt)
  | .gt => decide (b.toInt < a.toInt)
  | .ge => decide (b.toInt ≤ a.toInt)
  | .ltu => decide (a.toNat < b.toNat)
  | .leu => decide (a.toNat ≤ b.toNat)
  | .gtu => decide (b.toNat < a.toNat)
  | .geu => decide (b.toNat ≤ a.toNat)

/-- PLOP's truth table: bit 2 * pA + pB (R79). -/
def plopV (tt : BitVec 4) (pa pb : Bool) : Bool :=
  tt.getLsbD ((if pa then 2 else 0) + (if pb then 1 else 0))

/-- The predicate set as PMOV reads it: p0 in bit 0, bit 7 always 1 (R80). -/
def predsV (th : Thread) : BitVec 8 := th.p ||| 0x80#8

end Sys2Proof.Machine
end

