-- ==== Sys2Proof/Machine/Ops.lean ====
section
/-! DEFINITION. The named operations over the state: tiles and their names, resources, the landing, barriers,
threads that end, fault records, taking a fault and returning from one, and the issue of one instruction. -/

namespace Sys2Proof.Machine

/-! ## Places -/

/-- Key of a world's part of a tile. -/
def wtKey (w t : Nat) : Nat := w * 8192 + t

def M.tile (m : M) (t : Nat) : Tile := mget {} m.tiles t
def M.setTile (m : M) (t : Nat) (v : Tile) : M := { m with tiles := put m.tiles t v }
def M.wt (m : M) (w t : Nat) : WT := mget {} m.wts (wtKey w t)
def M.setWT (m : M) (w t : Nat) (v : WT) : M := { m with wts := put m.wts (wtKey w t) v }
def M.world (m : M) (w : Nat) : World := mget {} m.worlds w
def M.setWorld (m : M) (w : Nat) (v : World) : M := { m with worlds := put m.worlds w v }
def M.part (m : M) (p : Nat) : Part := mget {} m.parts p
def M.setPart (m : M) (p : Nat) (v : Part) : M := { m with parts := put m.parts p v }
def M.port (m : M) (p : Nat) : Port := mget {} m.ports p
def M.setPort (m : M) (p : Nat) (v : Port) : M := { m with ports := put m.ports p v }
def M.field (m : M) (f : Nat) : Field := mget {} m.fields f
def M.setField (m : M) (f : Nat) (v : Field) : M := { m with fields := put m.fields f v }
def M.wq (m : M) (q : Nat) : WQ := mget { world := q / 4 } m.wqs q
def M.setWQ (m : M) (q : Nat) (v : WQ) : M := { m with wqs := put m.wqs q v }
def M.setTeam (m : M) (i : Nat) (v : Team) : M := { m with teams := put m.teams i v }
def M.setLaunch (m : M) (i : Nat) (v : Launch) : M := { m with launches := put m.launches i v }
def M.setGroup (m : M) (w t slot : Nat) (g : Group) : M :=
  let wt := m.wt w t
  m.setWT w t { wt with groups := put wt.groups slot g }

/-- Change one team, if it is there. -/
def M.updTeam (m : M) (i : Nat) (f : Team → Team) : M :=
  match look m.teams i with
  | some v => m.setTeam i (f v)
  | none => m

/-- Change one launch, if it is there. -/
def M.updLaunch (m : M) (i : Nat) (f : Launch → Launch) : M :=
  match look m.launches i with
  | some v => m.setLaunch i (f v)
  | none => m

/-- Change one group, if it is there. -/
def M.updGroup (m : M) (w t slot : Nat) (f : Group → Group) : M :=
  match look (m.wt w t).groups slot with
  | some g => m.setGroup w t slot (f g)
  | none => m

/-- Column and row of a tile key (R361). -/
def tileX (t : Nat) : Nat := t / 64
def tileY (t : Nat) : Nat := t % 64

/-- A tile key of the mesh (R360). -/
def tileOk (t : Nat) : Bool := tileX t < 80

/-- Field of a tile (R360). -/
def fieldOf (t : Nat) : Nat := 10 * (tileY t / 8) + tileX t / 8

/-- Tile name with the generation that stands (R361). -/
def M.name (m : M) (t : Nat) : W32 := m.gen ++ BitVec.ofNat 13 t ++ 0#7

/-- Tile key in a name. -/
def keyOfName (n : W32) : Nat := (n.extractLsb' 7 13).toNat

/-- Partition that holds a tile (R380). -/
def M.partOf (m : M) (t : Nat) : Option Nat :=
  (m.parts.find? fun (_, p) => p.used && p.tiles.contains t).map (·.1)

/-- The world whose state a row of Table 18-2 holds on a tile: the outgoing one until the row is saved, then the latched
one once it is restored (R332). -/
def M.rowWorld (m : M) (t row : Nat) : Option Nat :=
  let tl := m.tile t
  match tl.out with
  | some a => if tl.spill < row then some a else tl.latch
  | none => tl.latch.filter fun w => decide (row ≤ (m.wt w t).restored)

/-- The world of a pending operation: latched, or outgoing with its registers not yet saved (R331). -/
def M.opWorld (m : M) (t slot op : Nat) : Option Nat :=
  let has (w : Nat) : Bool := ((look (m.wt w t).groups slot).map fun g => g.ops.any (·.id == op)).getD false
  match (m.tile t).latch.filter has with
  | some w => some w
  | none => if (m.tile t).spill < 6 then (m.tile t).out.filter has else none

/-! ## Exclusions and capability (R363 to R365) -/

def exKind (e : W64) : Nat := (e.extractLsb' 60 4).toNat
def exIndex (e : W64) : Nat := (e.extractLsb' 32 20).toNat
def exTile (e : W64) : Nat := (e.extractLsb' 7 13).toNat

/-- Resources of a kind (Table 21-3). -/
def exLimit (k : Nat) : Nat :=
  if k = 0 then 1 else if k = 1 then 1024 else if k = 2 then 128 else if k = 3 then 16 else if k = 4 then 192
  else if k = 5 then 4 else 0

/-- An entry that names a resource of Table 21-3; any other retires its tile. -/
def exGood (e : W64) : Bool :=
  decide (exIndex e < exLimit (exKind e)) && e.extractLsb' 52 8 == 0#8 && e.extractLsb' 20 12 == 0#12
    && e.extractLsb' 0 7 == 0#7

/-- Indices of a kind excluded on a tile. -/
def M.excluded (m : M) (t k : Nat) : List Nat :=
  (m.excl.filter fun e => exTile e == t && exGood e && exKind e == k).map exIndex |>.eraseDups

/-- A retired tile (R364). -/
def M.retired (m : M) (t : Nat) : Bool :=
  m.excl.any fun e => exTile e == t && (!exGood e || exKind e == 0)

/-- Usable group slots of an issue set (R364). -/
def M.usable (m : M) (t s : Nat) : List Nat :=
  ((List.range 48).map (· + 48 * s)).filter fun i => !(m.excluded t 4).contains i

/-- Register rows of a tile's pool (R124, R365). -/
def M.rows (m : M) (t : Nat) : Nat := 8192 - 8 * (m.excluded t 1).length

/-- Scratchpad bytes of a tile (R365). -/
def M.scrBytes (m : M) (t : Nat) : Nat := 524288 - 4096 * (m.excluded t 2).length

/-- L1 in KiB of a tile (R365). -/
def M.l1Kib (m : M) (t : Nat) : Nat := 256 - 16 * (m.excluded t 3).length

/-- Capability record (Table 21-4). -/
def M.capRec (m : M) (t : Nat) : W64 :=
  let gs (s : Nat) : BitVec 6 := BitVec.ofNat 6 (m.usable t s).length
  0#8 ++ gs 3 ++ gs 2 ++ gs 1 ++ gs 0 ++ BitVec.ofNat 11 (m.rows t / 8) ++ BitVec.ofNat 10 (m.scrBytes t / 1024)
    ++ BitVec.ofNat 9 (m.l1Kib t) ++ 0#2

/-- Rows no group of the world holds on the tile (R124). -/
def M.freeRows (m : M) (w t : Nat) : Nat := m.rows t - (m.wt w t).used

/-- Free usable slots of an issue set, lowest first. -/
def M.freeSlots (m : M) (w t s : Nat) : List Nat :=
  (m.usable t s).filter fun i => (look (m.wt w t).groups i).isNone

/-- Issue set with the most free slots, the lower on a tie, and its lowest free slot (R117). -/
def M.pickSlot (m : M) (w t : Nat) : Option Nat :=
  let best := [0, 1, 2, 3].foldl
    (fun (b : List Nat) s => if b.length < (m.freeSlots w t s).length then m.freeSlots w t s else b) []
  best.head?

/-! ## Fresh numbers and messages to the host -/

/-- A number never used before (log entry 3). -/
def M.fresh (m : M) : Nat × M := (m.uid, { m with uid := m.uid + 1 })

/-- Number of the next free value (log entry 12). -/
def M.freeVal (m : M) : Nat × M := (m.free, { m with free := m.free + 1 })

/-- A doubleword of the MSI-X table: an entry not written is masked (log entry 23). -/
def World.msixAt (wd : World) (i : Nat) : W64 := mget (if i % 2 = 1 then 0x100000000 else 0) wd.msix i

/-- Raise a vector of a world's function; 64 and above raise nothing (R400). A masked vector becomes pending; an entry
not written is masked (log entry 23). -/
def M.raise (m : M) (w v : Nat) : M :=
  if 64 ≤ v then m
  else
    let wd := m.world w
    if (wd.msixAt (2 * v + 1)).getLsbD 32 then
      m.setWorld w { wd with msixPend := if wd.msixPend.contains v then wd.msixPend else v :: wd.msixPend }
    else { m with hearth := { m.hearth with msixOut := m.hearth.msixOut ++ [(w, v)] } }

/-! ## The launch and team of a group -/

/-- Launch record of a team. -/
def M.launchOf (m : M) (team : Nat) : Option (Nat × Launch) :=
  match look m.teams team with
  | some tm => (look m.launches tm.launch).map fun l => (tm.launch, l)
  | none => none

/-- A launch is in deterministic mode (R127). -/
def M.det (m : M) (team : Nat) : Bool :=
  match m.launchOf team with
  | some (_, l) => l.lr.det
  | none => false

/-- Bin timer of a team's launch (R116). -/
def M.bint (m : M) (team : Nat) : Nat :=
  match m.launchOf team with
  | some (_, l) => if l.lr.bint = 0 then 256 else l.lr.bint
  | none => 256

/-! ## The landing (R114 to R119) -/

/-- Bytes of an entry (R114). -/
def entryBytes (l : Nat) : Nat := (48 + 4 * l + 15) / 16 * 16

/-- Bytes of a list of entries. -/
def entriesBytes (ws : List Waiting) : Nat := (ws.map fun e => entryBytes e.l).sum

/-- Bytes the landing and its overflow hold (R119). -/
def WT.landUsed (wt : WT) : Nat :=
  (wt.bins.map fun (_, b) => entriesBytes b.ths).sum + (wt.parked.map fun (_, p) => entriesBytes p.ths).sum
    + (wt.meets.map fun (_, r) => 16 + entriesBytes r.ths).sum + 512 * wt.urecs.length

/-- Room of the landing with its overflow region (R119). -/
def landRoom : Nat := 316 * 1024

/-- Entries that refer to uniform records. -/
def WT.entries (wt : WT) : List Waiting :=
  (wt.bins.map fun (_, b) => b.ths).flatten ++ (wt.parked.map fun (_, p) => p.ths).flatten
    ++ (wt.meets.map fun (_, r) => r.ths).flatten

/-- Room of the landing itself, its overflow region apart (R118). -/
def landSize : Nat := 64 * 1024

/-- Bytes in the landing itself (R118): its entries, the uniform records they refer to, and the meeting records (log entry
75). -/
def WT.landIn (wt : WT) : Nat :=
  let es := wt.entries.filter fun e => !e.out
  entriesBytes es + 16 * wt.meets.length + 512 * (wt.urecs.filter fun (i, _) => es.any (·.urec == i)).length

/-- The landing itself takes so many bytes more (R118). -/
def WT.landTakes (wt : WT) (need : Nat) : Bool := decide (wt.landIn + need ≤ landSize)

/-- A writer that the full landing holds back wants so much room in it (R118). -/
def WT.wants (wt : WT) (need : Nat) : WT := { wt with lwant := max wt.lwant need }

/-- Entries of the first kind fit (R119), and the landing itself takes them (R118). -/
def WT.fits (wt : WT) (need : Nat) : Bool := decide (wt.landUsed + need ≤ landRoom) && wt.landTakes need

/-- Entries that create threads are admitted (R119), and the landing itself takes them (R118). -/
def WT.creates (wt : WT) (need : Nat) : Bool :=
  decide (wt.landUsed + need + 64 * 1024 ≤ landRoom) && wt.admits.isEmpty && wt.landTakes need

/-- The lowest number that is no key. -/
def freeKeyFrom {β : Type} (m : AMap β) : Nat → Nat → Nat
  | 0, k => k
  | n + 1, k => if (look m k).isNone then k else freeKeyFrom m n (k + 1)

def freeKey {β : Type} (m : AMap β) : Nat := freeKeyFrom m m.length 0

/-- The uniform record equal to k for the team, shared or new (R115). -/
def WT.urecFor (wt : WT) (team : Nat) (k : AMap W64) : Nat × WT :=
  match wt.urecs.find? fun (_, u) => u.team == team && u.k == k with
  | some (i, _) => (i, wt)
  | none =>
    let i := freeKey wt.urecs
    (i, { wt with urecs := put wt.urecs i { team := team, k := k } })

/-- Bytes that entries of a team with a uniform record k take: the record itself only where it is written (R114, R115). -/
def WT.needOf (wt : WT) (team : Nat) (k : AMap W64) (entries : Nat) : Nat :=
  entries + if wt.urecs.any fun (_, u) => u.team == team && u.k == k then 0 else 512

/-- Free the uniform records to which no entry and no group refers any longer (R115). -/
def WT.gcUrecs (wt : WT) : WT :=
  let used (i : Nat) : Bool := wt.entries.any (·.urec == i) || wt.groups.any fun (_, g) => g.urec == some i
  { wt with urecs := wt.urecs.filter fun (i, _) => used i }

/-- A bin holds a group's worth of threads (R116). -/
def Bin.full (b : Bin) : Bool := decide (32 ≤ b.ths.length)

/-- The cycle in which a request was made. -/
def RowReq.cyc : RowReq → Nat
  | .grow _ _ c => c
  | .form _ c => c

/-- The request is a bin's. -/
def RowReq.ofBin (bi : Nat) : RowReq → Bool
  | .grow _ _ _ => false
  | .form b _ => b == bi

/-- The request is a group's GROW. -/
def RowReq.ofSlot (slot : Nat) : RowReq → Bool
  | .grow s _ _ => s == slot
  | .form _ _ => false

/-- Entry address and lowest thread index of a bin; the bins of one meeting record all have that of its lowest thread, so
that its sequences stay one after another (R122). -/
def WT.binRank (wt : WT) (bi : Nat) : Nat × Nat :=
  match look wt.bins bi with
  | some b => (b.pc.toNat, if b.closed then b.low else (b.ths.map (·.th.idx.toNat)).foldl min (2 ^ 64))
  | none => (0, 0)

/-- Of two requests of one cycle the first: GROW by group slot, then bins by entry address, then by lowest index (R117,
R124). -/
def WT.reqFirst (wt : WT) : RowReq → RowReq → Bool
  | .grow a _ _, .grow b _ _ => decide (a < b)
  | .grow _ _ _, .form _ _ => true
  | .form _ _, .grow _ _ _ => false
  | .form a _, .form b _ =>
    let x := wt.binRank a
    let y := wt.binRank b
    decide (x.1 < y.1) || (x.1 == y.1 && decide (x.2 < y.2))

/-- A request joins the queue: after all of earlier cycles, in its place among those of its own (R124). -/
def WT.insReq (wt : WT) (r : RowReq) : List RowReq → List RowReq
  | [] => [r]
  | x :: xs => if x.cyc = r.cyc && wt.reqFirst r x then r :: x :: xs else x :: WT.insReq wt r xs

/-- A bin that has become able to launch asks for its rows, once (R116, R117, R124). `now` is the tile's cycle; a thread
that enters in the cycle of the request may change the bin's place among the requests of that cycle. -/
def WT.askForm (wt : WT) (now bi : Nat) : WT :=
  match look wt.bins bi with
  | some b =>
    if (b.full || b.timed) && !wt.growq.any (fun r => r.ofBin bi && r.cyc != now) then
      { wt with growq := wt.insReq (.form bi now) (wt.growq.filter fun r => !r.ofBin bi) }
    else wt
  | none => wt

/-- Enter threads into the bin of an address and a uniform record (R115, R116). -/
def WT.enterBin (wt : WT) (now : Nat) (pc : Va) (urec team timer : Nat) (ws : List Waiting) : WT :=
  if ws.isEmpty then wt
  else
    match wt.bins.find? fun (_, b) => b.pc == pc && b.urec == urec && !b.closed with
    | some (i, b) => WT.askForm { wt with bins := put wt.bins i { b with ths := b.ths ++ ws } } now i
    | none =>
      let b : Bin := { pc := pc, urec := urec, team := team, timer := timer, ths := ws }
      WT.askForm { wt with bins := put wt.bins (freeKey wt.bins) b } now (freeKey wt.bins)

/-- Insert by thread index; threads of equal index in the order of their arrival (log entry 69). -/
def insIdx (e : Waiting) : List Waiting → List Waiting
  | [] => [e]
  | x :: xs => if e.th.idx.toNat < x.th.idx.toNat then e :: x :: xs else x :: insIdx e xs

/-- Ascending thread index (R116, R122). -/
def byIdx (ws : List Waiting) : List Waiting := ws.foldl (fun acc e => insIdx e acc) []

/-- Number the elements of a list from 0. -/
def numbered {α : Type} : Nat → List α → List (Nat × α)
  | _, [] => []
  | i, x :: xs => (i, x) :: numbered (i + 1) xs

/-- The new group's lanes 0 upward, the lanes beyond never filled (R112, R116). -/
def fillLanes (ths : List Thread) : AMap Thread × AMap Absence :=
  (numbered 0 ths, ((List.range 32).filter fun i => ths.length ≤ i).map fun i => (i, .unfilled))

/-- Put a group into a free slot, with its rows (R117, R124). -/
def M.place (m : M) (w t slot : Nat) (g : Group) : M :=
  let wt := m.wt w t
  m.setWT w t { wt with groups := put wt.groups slot g, used := wt.used + g.allot }

/-- A group of the latched world that leaves its slot without having issued in this cycle is still charged for it
(R167). -/
def M.noteLeft (m : M) (w t slot : Nat) (g : Group) : M :=
  let tl := m.tile t
  if tl.latch != some w || (tl.past ++ tl.issued).any (·.slot == slot) then m else m.setTile t { tl with left := tl.left ++ [(slot, g)] }

/-- Free a group's slot; its rows return to the pool (R124, R138). -/
def M.freeGroup (m : M) (w t slot : Nat) : M :=
  let wt := m.wt w t
  match look wt.groups slot with
  | some g => (m.noteLeft w t slot g).setWT w t
      (WT.gcUrecs { wt with groups := del wt.groups slot, used := wt.used - g.allot,
                            growq := wt.growq.filter (fun r => !r.ofSlot slot),
                            anvilq := wt.anvilq.filter (·.group != g.uid),
                            admits := wt.admits.filter (·.slot != slot) })
  | none => m

/-- Threads of a bin that would form a group now: the 32 lowest indices, or all of them when the timer has expired
(R116). -/
def Bin.chosen (b : Bin) : List Waiting :=
  let ws := byIdx b.ths
  if 32 ≤ ws.length then ws.take 32 else if b.timed then ws else []

/-- Register rows of the group a bin would form now: the largest allotment of its threads (R116). -/
def Bin.rows (b : Bin) : Nat := (b.chosen.map (·.allot)).foldl max 8

/-- The bin whose request is the first and for which a group slot and the rows are free (R117, R124). -/
def M.formable (m : M) (w t : Nat) : Option (Nat × Bin) :=
  match (m.wt w t).growq with
  | .form bi _ :: _ =>
    (look (m.wt w t).bins bi).bind fun b =>
      if b.chosen.isEmpty || m.freeRows w t < b.rows || (m.pickSlot w t).isNone then none else some (bi, b)
  | _ => none

/-- Form a group from a bin whose request is the first when a slot and the rows are free, once none of its threads is
in the overflow region (R116 to R118, R124). -/
def M.form (m : M) (w t bi : Nat) : Option M :=
  match m.formable w t with
  | none => none
  | some (bj, b) =>
    let wt := m.wt w t
    let ws := b.chosen
    if bj ≠ bi || ws.any (·.out) then none
    else
      match m.pickSlot w t, look wt.urecs b.urec, look m.teams b.team with
      | some slot, some u, some tm =>
        let rest := ws.foldl List.erase b.ths
        let lanes := fillLanes (ws.map (·.th))
        let f := m.fresh
        let g : Group :=
          { uid := f.1, team := b.team, pc := b.pc, allot := b.rows, urec := some b.urec, lanes := lanes.1, gone := lanes.2,
            wins := (numbered 0 ws).flatMap fun (i, e) => e.wins.map fun x => { x with lanes := [i] },
            k := u.k, limit := BitVec.ofNat 64 tm.limit, span := BitVec.ofNat 64 (tm.nslot * 2 ^ 32 + tm.depth) }
        let left : Bin := { b with ths := rest, timed := false, timer := m.bint b.team }
        let wt1 : WT := WT.askForm { wt with growq := wt.growq.tail
                                             bins := if rest.isEmpty then del wt.bins bi else put wt.bins bi left } (m.tile t).cycle bi
        some ((f.2.setWT w t wt1).place w t slot g)
      | _, _, _ => none

/-- An access that loads (R202). -/
def AKind.isLoad : AKind → Bool
  | .load => true
  | .ldl => true
  | _ => false

/-- Threads of pilot nodes leave a group: each node waits for the stores and atomics the group has issued, and those that
the stack cache holds go home (R175, R241). -/
def M.noteStores (m : M) (w t slot : Nat) (lanes : List Nat) : M :=
  let wt := m.wt w t
  match look wt.groups slot with
  | none => m
  | some g =>
    let us := g.lanes.filterMap fun (l, th) => if lanes.contains l then th.node else none
    if us.isEmpty then m
    else
      let mine := m.acc.filter fun a => a.group == g.uid && !a.kind.isLoad
      let ids := mine.map (·.id)
      let back := (mine.filter (·.phase == .cached)).map (·.va / 64)
      let more (nd : NodeSt) : NodeSt := if us.contains nd.uid then { nd with stores := nd.stores ++ ids } else nd
      let grow (c : Chain) : Chain := { c with nodes := c.nodes.map more }
      m.setWT w t { wt with chains := mapV (fun _ c => grow c) wt.chains, flush := (wt.flush ++ back).eraseDups }

/-! ## Barriers (R126, R148) -/

/-- Map every thread of a team on its tile: in groups, bins, meetings and parked. -/
def WT.mapTeam (wt : WT) (team : Nat) (f : Thread → Thread) : WT :=
  let fw (e : Waiting) : Waiting := if e.team = team then { e with th := f e.th } else e
  { wt with
    groups := mapV (fun _ g => if g.team = team then { g with lanes := mapV (fun _ th => f th) g.lanes } else g) wt.groups
    bins := mapV (fun _ b => { b with ths := b.ths.map fw }) wt.bins
    meets := mapV (fun _ r => { r with ths := r.ths.map fw }) wt.meets
    parked := mapV (fun _ p => { p with ths := p.ths.map fw }) wt.parked }

/-- The cluster count of barrier n: the phases that every team position has completed (R148). -/
def Cluster.settle (c : Cluster) (n : Nat) : Cluster :=
  let each := (List.range (c.w * c.h)).map fun i => mget 0 c.phases (16 * i + n)
  { c with counts := mset 0 c.counts n (each.foldl min (each.headD 0)) }

/-- Complete barrier n of a team when its count is reached (R126, R148). -/
def M.barCheck (m : M) (team n : Nat) : M :=
  match look m.teams team with
  | none => m
  | some tm =>
    let b := mget {} tm.barriers n
    if b.arrived = 0 || b.arrived ≠ tm.live then m
    else
      let tm1 := { tm with barriers := put tm.barriers n { arrived := 0, count := b.count + 1, cl := false } }
      let wt := (m.wt tm.world tm.tile).mapTeam team fun th => { th with arrived := th.arrived &&& ~~~(1#16 <<< n) }
      let m1 := (m.setTeam team tm1).setWT tm.world tm.tile wt
      if b.cl then
        match look m1.clusters tm.cluster with
        | some c =>
          let key := 16 * tm.pos + n
          let c1 := { c with phases := mset 0 c.phases key (mget 0 c.phases key + 1) }
          { m1 with clusters := put m1.clusters tm.cluster (c1.settle n) }
        | none => m1
      else m1

/-! ## Meeting records (R122, R123) -/

/-- Record number in a meeting register. -/
def meetNo (v : W64) : Nat := (v.extractLsb' 56 8).toNat

/-- Meeting address in a meeting register. -/
def meetVa (v : W64) : Va := v.extractLsb' 0 56

/-- Cut a list into pieces of 32. -/
def pieces {α : Type} : Nat → List α → List (List α)
  | 0, _ => []
  | n + 1, xs => if xs.isEmpty then [] else xs.take 32 :: pieces n (xs.drop 32)

/-- Regrouped threads resume at M with the parent value and enter a region (R122, R304). -/
def regrouped (r : Meeting) (e : Waiting) : Waiting :=
  { e with pc := r.m, th := { e.th with meet := r.parent, regpc := r.m, regcnt := e.th.regcnt + 1 } }

/-- Closed bins for the arrived threads of a completed record: ascending index, 32 a group, one sequence for each
uniform record in order of its lowest thread (R122). -/
def WT.regroup (wt : WT) (now : Nat) (r : Meeting) : WT :=
  let ws := byIdx (r.ths.map (regrouped r))
  let us := (ws.map (·.urec)).eraseDups
  us.foldl (fun wt u =>
    (pieces ws.length (ws.filter fun e => e.urec = u)).foldl (fun wt p =>
      let b : Bin := { pc := r.m, urec := u, team := r.team, timer := 0, timed := true, closed := true,
                       low := ((ws.head?).map (·.th.idx.toNat)).getD 0, ths := p }
      WT.askForm { wt with bins := put wt.bins (freeKey wt.bins) b } now (freeKey wt.bins)) wt) wt

/-- Complete a record whose members have all arrived or exited; it is then freed (R122, R138). -/
def WT.meetCheck (wt : WT) (now no : Nat) : WT :=
  match look wt.meets no with
  | none => wt
  | some r =>
    if r.arrivedN = r.n then WT.regroup { wt with meets := del wt.meets no } now r else wt

/-- A thread leaves the outstanding count of its record and of every ancestor (R122, R138). -/
def WT.meetLeave (wt : WT) (now : Nat) : Nat → W64 → WT
  | 0, _ => wt
  | fuel + 1, v =>
    if v = 0 then wt
    else
      match look wt.meets (meetNo v) with
      | none => wt
      | some r =>
        let wt1 := ({ wt with meets := put wt.meets (meetNo v) { r with n := r.n - 1 } }).meetCheck now (meetNo v)
        wt1.meetLeave now fuel r.parent

/-! ## Ends of threads and teams (R138, R236) -/

/-- A team owns a chain that is not empty (R236). -/
def WT.owns (wt : WT) (team : Nat) : Bool := wt.chains.any fun (_, c) => c.owner == some team

/-- Key of an accumulator tile among the claims; slots come below. -/
def tileKey (a : Nat) : Nat := 128 + a

/-- Keys that an accepted operation names: the slots it reads and the tiles it reads or writes (R257). -/
def AnvilOp.keys (op : AnvilOp) : List Nat := op.slots ++ op.tiles.map tileKey

/-- An accepted operation names a resource. -/
def WT.busyKey (wt : WT) (key : Nat) : Bool := wt.anvil.any fun op => op.keys.contains key

/-- Slots and tiles a team holds become free, but for those an accepted operation still names (R257). -/
def WT.unclaim (wt : WT) (team : Nat) : WT :=
  { wt with claims := wt.claims.filter fun (k, h) => h != team || wt.busyKey k }

/-- A team whose live count is zero and which owns no chain ends (R138, R236). Its claims and staged stores go on to their
next holders; its stack block is free once the stack cache has written it back, and its scratch once the cluster's teams
have all ended (R172, R176, R127). -/
def M.teamCheck (m : M) (team : Nat) : M :=
  match look m.teams team with
  | none => m
  | some tm =>
    let wt := m.wt tm.world tm.tile
    if tm.live ≠ 0 || wt.owns team || tm.ended then m
    else
      let m1 := (m.setTeam team { tm with ended := true, staged := [] }).setWT tm.world tm.tile (wt.unclaim team)
      m1.updLaunch tm.launch fun l =>
        { l with endedTeams := l.endedTeams + 1, staged := put l.staged tm.index tm.staged }

/-- A thread ends: live count, barriers it has arrived at, its meeting records, its node (R138, R241). A team phase that
it has made a cluster phase stays one (log entry 71). -/
def M.endThread (m : M) (w t team : Nat) (th : Thread) : M :=
  match look m.teams team with
  | none => m
  | some tm =>
    let hit (n : Nat) : Bool := th.arrived.getLsbD n
    let bars := (List.range 16).foldl (fun (bs : AMap Barrier) n =>
      if hit n then
        let b := mget {} bs n
        put bs n { b with arrived := b.arrived - 1 }
      else bs) tm.barriers
    let m1 := m.setTeam team { tm with live := tm.live - 1, barriers := bars }
    let m2 := (List.range 16).foldl (fun m n => m.barCheck team n) m1
    let wt := (m2.wt w t).meetLeave (m.tile t).cycle 256 th.meet
    let wt1 := match th.node with
      | none => wt
      | some u => { wt with chains := mapV (fun _ c => { c with nodes := c.nodes.map fun nd =>
          if nd.uid = u then { nd with live := nd.live - 1 } else nd }) wt.chains }
    (m2.setWT w t wt1).teamCheck team

/-! ## Faults (R315 to R319) -/

inductive FClass where
  | fatal | replayable | world
  deriving DecidableEq, Repr

/-- Numbers of Table 17-2. -/
def Code.num : Code → BitVec 8
  | .illegalEncoding => 0x01 | .fetchBoundary => 0x02 | .regAllot => 0x03 | .lookaheadViolation => 0x04
  | .accuracyClass => 0x05 | .formatDivergence => 0x06 | .layoutMismatch => 0x07 | .treeDepth => 0x08
  | .slotState => 0x09 | .stackLimit => 0x0A | .growDeadlock => 0x0B | .translation => 0x10 | .protection => 0x11
  | .alignment => 0x12 | .integrity => 0x13 | .uncorrectableData => 0x14 | .tensorBounds => 0x15
  | .readonlyTensor => 0x16 | .detScope => 0x18 | .copyFailed => 0x1A | .nameStale => 0x20 | .remoteTimeout => 0x22
  | .hostAtomicUnsupported => 0x23 | .remoteUnreachable => 0x24 | .gridStall => 0x30 | .trapQueueOverflow => 0x31
  | .heartbeatLost => 0x32 | .machineCheck => 0x3F
  | .trap c => c

/-- Classes of Table 17-2. -/
def Code.cls : Code → FClass
  | .translation | .protection | .nameStale | .remoteUnreachable | .hostAtomicUnsupported | .uncorrectableData
  | .copyFailed | .growDeadlock | .trap _ => .replayable
  | .trapQueueOverflow | .heartbeatLost | .machineCheck => .world
  | .illegalEncoding | .fetchBoundary | .regAllot | .lookaheadViolation | .accuracyClass | .formatDivergence
  | .layoutMismatch | .treeDepth | .slotState | .stackLimit | .alignment | .integrity | .tensorBounds
  | .readonlyTensor | .detScope | .remoteTimeout | .gridStall => .fatal

/-- Names in spec order of Table 17-2, lower first (R316). -/
def Code.order : Code → Nat
  | .illegalEncoding => 1 | .fetchBoundary => 2 | .regAllot => 3 | .accuracyClass => 4 | .lookaheadViolation => 5
  | .detScope => 6 | .slotState => 7 | .tensorBounds => 8 | .treeDepth => 9 | .formatDivergence => 9
  | .layoutMismatch => 9 | .alignment => 10 | .translation => 11 | .protection => 12 | .readonlyTensor => 13
  | .stackLimit => 14 | .nameStale => 15 | .remoteUnreachable => 16 | .hostAtomicUnsupported => 17 | .integrity => 18
  | .uncorrectableData => 19 | .remoteTimeout => 20 | .copyFailed => 21 | .growDeadlock => 22 | .gridStall => 23
  | .trapQueueOverflow => 24 | .heartbeatLost => 25 | .machineCheck => 26 | .trap _ => 27

/-- A mask of lanes. -/
def laneMask (ls : List Nat) : W32 := ls.foldl (fun acc l => acc ||| (1#32 <<< l)) 0

/-- Hand a record to the world's trap queue; it is written in turn (R318, R319). -/
def M.queueRec (m : M) (w : Nat) (fr : FRec) (launch : Nat) : Nat × M :=
  let f := m.fresh
  let wd := f.2.world w
  (f.1, f.2.setWorld w { wd with recs := wd.recs ++ [{ id := f.1, fr := fr, launch := launch }] })

/-- Take the next park token of a world; zero is skipped (R313). -/
def M.newToken (m : M) (w t launch : Nat) : Nat × M :=
  let wd := m.world w
  let n := wd.nextTok
  let nxt := if n + 1 = 2 ^ 32 then 1 else n + 1
  (n, m.setWorld w { wd with nextTok := nxt, tokens := put wd.tokens n { tile := t, launch := launch } })

/-- Park lanes of a group under a token: the landing holds their threads, their reservations are lost, their lanes
become absent; a group with no lane left frees its slot (R309). -/
def M.park (m : M) (w t slot token : Nat) (lanes : List Nat) : M :=
  let m := m.noteStores w t slot lanes
  let wt := m.wt w t
  match look wt.groups slot with
  | none => m
  | some g =>
    let ths := g.lanes.filter fun (l, _) => lanes.contains l
    let u := wt.urecFor g.team g.k
    let ws : List Waiting := ths.map fun (_, th) =>
      { th := { th with resv := none }, pc := th.regpc, allot := g.allot, l := g.allot, team := g.team, urec := u.1, born := m.uid }
    let old : Parked := mget { token := token, team := g.team, ths := [] } u.2.parked token
    let wt1 := { u.2 with parked := put u.2.parked token { old with ths := old.ths ++ ws } }
    let left := g.lanes.filter fun (l, _) => !lanes.contains l
    let gone := ths.foldl (fun acc (l, _) => put acc l .parked) g.gone
    let g1 := { g with lanes := left, gone := gone, late := g.late.filter fun f => !lanes.contains f.fault.lane }
    let m1 := m.setWT w t { wt1 with groups := put wt1.groups slot g1 }
    if left.isEmpty then m1.freeGroup w t slot else m1

/-- One fault report: the lanes of one instruction with one code and one 64 KiB page (R318). -/
structure Report where
  pc : Va
  code : Code
  page : Nat
  faults : List LaneFault
  deriving DecidableEq, Repr

/-- Group lane faults into reports, in ascending order of their lowest lane (R318). -/
def addReport (pc : Va) (f : LaneFault) : List Report → List Report
  | [] => [{ pc := pc, code := f.code, page := f.addr / 65536, faults := [f] }]
  | r :: rs =>
    if r.pc = pc && r.code = f.code && r.page = f.addr / 65536 then { r with faults := r.faults ++ [f] } :: rs
    else r :: addReport pc f rs

def reports (fs : List (Va × LaneFault)) : List Report := fs.foldl (fun acc (pc, f) => addReport pc f acc) []

/-- The record of a report (Table 17-3). -/
def M.recOf (m : M) (t slot : Nat) (g : Group) (r : Report) (token kind : Nat) : FRec :=
  let low := r.faults.head?
  let split := r.code == .formatDivergence
  let lanes : W32 := if split then BitVec.ofNat 32 ((low.map (·.addr)).getD 0) else laneMask (r.faults.map (·.lane))
  let th : Option Thread := ((List.range 32).find? fun l => lanes.getLsbD l).bind (look g.lanes)
  let la := m.launchOf g.team
  { code := r.code, pc := r.pc, addr := if split then 0 else (low.map (·.addr)).getD 0, lanes := lanes,
    tile := m.name t, thread := (th.map (·.idx)).getD 0, token := token,
    seq := (la.map (·.2.seq)).getD 0, detail := BitVec.ofNat 32 ((low.map (·.detail)).getD 0), kind := kind,
    group := slot, wq := (la.map (·.2.wq)).getD 0, regpc := (th.map (·.regpc)).getD 0,
    regcnt := (th.map (·.regcnt)).getD 0 }

/-- The fault that begins the end of a launch (R315): its record is queued and the launch marked. Later faults of the
launch are discarded. -/
def M.fatal (m : M) (w launch : Nat) (fr : FRec) : M :=
  match look m.launches launch with
  | some l =>
    if l.ending then m
    else ((m.queueRec w fr launch).2).setLaunch launch { l with ending := true, status := 5 }
  | none => m

/-- The group's instruction has issued and keeps what it did: a later wait does not take its place. -/
def Wait.begun : Wait → Bool
  | .arrived _ _ _ => true
  | .fence _ _ => true
  | .result _ => true
  | .grow _ => true
  | .request _ _ => true
  | .table _ => true
  | .failed _ _ _ => true
  | .none => false
  | .pend _ => false
  | .fetch _ => false
  | .walk => false
  | .ended _ => true

/-- Make a group wait until a record is written (R319); an instruction that has begun stays begun (R309). -/
def M.waitRec (m : M) (w t slot r : Nat) : M :=
  m.updGroup w t slot fun g => { g with record := some r, wait := if g.wait.begun then g.wait else .none }

/-- TAKING A FAULT, the one operation for every instruction: the reports in order of their lowest lanes; a replayable
one parks its lanes under a token of its own, a fatal one ends the launch, after which nothing more of it is
reported (R309, R315 to R318). -/
def M.takeFaults (m : M) (w t slot : Nat) (fs : List (Va × LaneFault)) : M :=
  (reports fs).foldl (fun m r =>
    match look (m.wt w t).groups slot with
    | none => m
    | some g =>
      match m.launchOf g.team with
      | none => m
      | some (li, l) =>
        if l.ending then m
        else
          match r.code.cls with
          | .replayable =>
            let tok := m.newToken w t li
            let fr := tok.2.recOf t slot g r tok.1 0
            let q := tok.2.queueRec w fr li
            (q.2.park w t slot tok.1 (r.faults.map (·.lane))).waitRec w t slot q.1
          | .fatal => m.fatal w li (m.recOf t slot g r 0 1)
          | .world => m.fatal w li (m.recOf t slot g r 0 1)) m

/-- RETURNING FROM A FAULT: a verdict on a token (R313, R347). A token that is not open is left unchanged. RESUME replays
the region from REGPC with the registers and memory as they then stand; nothing is checked (R307). -/
def M.resolve (m : M) (w token : Nat) (v : Verdict) : M :=
  let wd := m.world w
  match look wd.tokens token with
  | none => m
  | some tk =>
    let wt := m.wt w tk.tile
    match v with
    | .resume =>
      let ws := (look wt.parked token).map (·.ths) |>.getD []
      let wt1 := { wt with parked := del wt.parked token }
      let wt2 := ws.foldl (fun (wt : WT) e =>
        wt.enterBin (m.tile tk.tile).cycle e.th.regpc e.urec e.team (m.bint e.team) [{ e with pc := e.th.regpc }]) wt1
      (m.setWorld w { wd with tokens := del wd.tokens token }).setWT w tk.tile wt2
    | .kill =>
      let ws := (look wt.parked token).map (·.ths) |>.getD []
      let m1 := (m.setWorld w { wd with tokens := del wd.tokens token }).setWT w tk.tile
        (WT.gcUrecs { wt with parked := del wt.parked token })
      ws.foldl (fun m e => m.endThread w tk.tile e.team e.th) m1
    | .fatal =>
      let m1 := m.setWorld w { wd with tokens := del wd.tokens token }
      m1.updLaunch tk.launch fun l => { l with ending := true, status := 5 }

/-! ## The issue of one instruction -/

/-- Whether an instruction multiplies, and by which classes (R42, Table 3-7 to 3-13). -/
inductive AcMark where
  | none | exOnly | all
  deriving DecidableEq, Repr

/-- What the issue of an instruction needs to know of it beforehand: length, accuracy mark, registers, tiles and
semaphores it names, the vector registers it reads, whether it waits by R57, whether then for the operations of the whole
group (R121, R138), whether it is non-idempotent (Table 17-1), whether it acts once for the group, whether a window
counts it (R55), whether it uses the anvil port (R164), whether the allotment it asks for is not one (R151), and the
rows of Table 18-2 it touches; `also` are registers that it reads in some lanes only (R217). -/
structure Form where
  len : Nat
  mark : AcMark := .none
  vec : List (Nat × Nat) := []
  src : List (Nat × Nat) := []
  uni : List Nat := []
  acc : List Nat := []
  sem : List Nat := []
  waits : Bool := false
  waitsAll : Bool := false
  nonIdem : Bool := false
  region : Bool := false
  once : Bool := false
  counted : Bool := true
  anvil : Bool := false
  badAllot : Bool := false
  touch : List Nat := []
  also : List (Nat × Nat) := []
  deriving DecidableEq, Repr

/-- Where an instruction issues, and its executing lanes (R132). -/
structure Ctx where
  t : Nat
  w : Nat
  slot : Nat
  g : Group
  ex : List (Nat × Thread)
  deriving DecidableEq, Repr

/-- How an instruction's own effect ends: it completes, transfers control, waits with its effect so far, faults in
some lanes with the effect of the others done, or completes and faults after that (TRAP, R345). -/
inductive Res where
  | done (m : M)
  | jump (m : M) (target : Va)
  | hold (m : M) (wt : Wait)
  | trap (m : M) (fs : List LaneFault)
  | after (m : M) (fs : List LaneFault)

/-- The current group with its place. -/
def M.curG (m : M) : Option (Nat × Nat × Nat × Group) :=
  match m.cur with
  | none => none
  | some (t, slot) =>
    match (m.tile t).latch with
    | none => none
    | some w => (look (m.wt w t).groups slot).map fun g => (t, w, slot, g)

/-- The guard of a thread (R16). -/
def guardOk (h : Hdr) (th : Thread) : Bool := th.pr h.pg != h.pn

/-- Two register ranges meet. -/
def rangesMeet (a b : Nat × Nat) : Bool := decide (a.1 < b.1 + b.2) && decide (b.1 < a.1 + a.2)

/-- The instruction names some part of a window object (R56). -/
def Form.names (f : Form) (o : WinObj) : Bool :=
  (f.src ++ f.vec).any (fun a => o.vec.any (rangesMeet a)) || f.uni.any o.uni.contains || f.acc.any o.acc.contains
    || f.sem.any o.sem.contains

/-- The lanes of a list for whose threads the instruction stands in a window and names part of its object (R56). -/
def Group.violators (g : Group) (f : Form) (ls : List (Nat × Thread)) : List (Nat × Thread) :=
  ls.filter fun (l, _) => g.wins.any fun w => w.left != 0 && w.lanes.contains l && f.names w.obj

/-- A pending operation is still there. -/
def Group.pending (g : Group) (op : Nat) : Bool := g.ops.any (·.id == op)

/-- The long-latency operations pending (R57). -/
def Group.anyLL (g : Group) : Bool := g.ops.any (·.ll)

/-- The operation was issued by one of these lanes' threads. -/
def Pend.ofAny (p : Pend) (ls : List (Nat × Thread)) : Bool := ls.any fun (l, _) => p.lanes.contains l

/-- The pending long-latency operations for which an instruction of R57 waits: those of its threads, or of the whole
group (R121, R138). -/
def Group.awaits (g : Group) (f : Form) (ls : List (Nat × Thread)) : List Pend :=
  if !f.waits then [] else g.ops.filter fun p => p.ll && (f.waitsAll || p.ofAny ls)

/-- The late-faulting operations of these lanes' threads that are pending (R306). -/
def Group.lateOf (g : Group) (ls : List (Nat × Thread)) : List Pend := g.ops.filter fun p => p.late && p.ofAny ls

/-- The pending operations whose windows are used up: they block the next counted instruction (R55). -/
def Group.blocking (g : Group) : List Pend := g.ops.filter fun p => g.wins.any fun w => w.left == 0 && w.op == p.id

/-- WINDOW, or SEMA where only SACQ is waited for (R286). -/
def waitCause (ps : List Pend) : Cause := if ps.all (·.sem.isSome) then .sema else .window

/-- Wait for pending operations, if there are any: the cause. -/
def waitFor? (ps : List Pend) : Option Cause := if ps.isEmpty then none else some (waitCause ps)

/-- One counted instruction has issued (R55). -/
def Group.countWin (g : Group) : Group :=
  { g with wins := (g.wins.map fun w => { w with left := w.left - 1 }).filter fun w =>
      w.left != 0 || g.pending w.op }

/-- Late faults that settle now: their window is used up, or the instruction settles by its kind (R308). -/
def Group.settleDue (g : Group) (byKind : Bool) : Bool :=
  g.late.any fun f => byKind || !(g.wins.any fun w => w.op == f.op && w.left != 0)

/-- The earliest in program order of a list of late faults (R311). -/
def earliest : List LateFault → Option LateFault
  | [] => none
  | f :: fs => match earliest fs with
    | none => some f
    | some e => if e.op < f.op then some e else some f

/-- The earliest unsettled fault of a lane (R311). -/
def Group.lateAt (g : Group) (l : Nat) : Option LateFault := earliest (g.late.filter fun f => f.fault.lane == l)

/-- Each lane's earliest unsettled fault, in lane order (R309, R311). -/
def Group.settled (g : Group) : List (Va × LaneFault) :=
  ((List.range 32).filterMap g.lateAt).map fun f => (f.pc, f.fault)

/-- The faults that an instruction at an address reports, in lane order: a lane that already holds an unsettled fault
reports that one, and its later fault is discarded (R310, R311, R318). -/
def Group.reported (g : Group) (pc : Va) (fs : List LaneFault) : List (Va × LaneFault) :=
  ((List.range 32).filterMap fun l => fs.find? fun f => f.lane == l).map fun f =>
    match g.lateAt f.lane with
    | some e => (e.pc, e.fault)
    | none => (pc, f)

/-- Room for entries that leave a group, in the order in which the waits for it began (R119), once the landing is
restored (R333). -/
def M.hasRoom (m : M) (w t slot need : Nat) : Bool :=
  let wt := m.wt w t
  decide (5 ≤ wt.restored) && wt.fits need && (wt.admits.isEmpty || (wt.admits.head?.map (·.slot)) == some slot)

/-- The room is taken. -/
def M.roomTaken (m : M) (w t slot : Nat) : M :=
  let wt := m.wt w t
  m.setWT w t { wt with admits := wt.admits.filter (·.slot != slot), lwant := 0 }

/-- A group no longer waits for room. -/
def M.noRoom (m : M) (w t slot : Nat) : M :=
  let wt := m.wt w t
  if wt.admits.any (·.slot == slot) then m.setWT w t { wt with admits := wt.admits.filter (·.slot != slot) } else m

/-- A wait for room joins the others: after those of earlier cycles, by group slot among those of its own (R119). -/
def insAdmit (a : Admit) : List Admit → List Admit
  | [] => [a]
  | x :: xs => if x.cyc = a.cyc && a.slot < x.slot then a :: x :: xs else x :: insAdmit a xs

/-- A group waits; what an instruction that has issued did is kept. -/
def Group.waitFor (g : Group) (x : Wait) : Group :=
  if g.wait.begun then { g with bank := none } else { g with wait := x, bank := none }

/-- An instruction that has issued and has had no effect yet is given up: it issues again from the start. -/
def M.quit (m : M) (w t slot : Nat) (g : Group) : M :=
  let clear (m : M) : M := m.updGroup w t slot fun g => { g with wait := .none }
  match g.wait with
  | .result op => clear { m with acc := m.acc.filter fun a => !(a.group == g.uid && a.op == op) }
  | .fence _ _ => clear m
  | .request _ _ =>
    let wt := m.wt w t
    clear (m.setWT w t { wt with anvilq := wt.anvilq.filter (·.group != g.uid) })
  | _ => m

/-- Wait for room, charged MEETING, or for the landing's restore, charged SWITCH (R118, R119, R333). -/
def M.waitRoom (m : M) (w t slot need : Nat) : M :=
  let wt := m.wt w t
  if wt.restored < 5 then m.updGroup w t slot (·.waitFor (.pend .switch))
  else
  let a : Admit := { slot := slot, need := need, cyc := (m.tile t).cycle }
  let m1 := m.setWT w t (WT.wants { wt with admits := if wt.admits.any (·.slot == slot) then wt.admits else insAdmit a wt.admits } need)
  m1.updGroup w t slot (·.waitFor (.pend .meeting))

/-- Bytes the entries of n lanes of a group take, all their registers up to its allotment, with its uniform record where
none is held yet (R114, R115). -/
def WT.roomFor (wt : WT) (g : Group) (n : Nat) : Nat := wt.needOf g.team g.k (n * entryBytes g.allot)

/-- What lanes wait for before they leave a group for the landing: its restore, charged SWITCH, every pending
long-latency instruction of the group, or room (R119, R309, R333). None when they may leave. -/
def M.leaveWait (m : M) (w t slot : Nat) (g : Group) (n : Nat) : Option M :=
  let need := (m.wt w t).roomFor g n
  if (m.wt w t).restored < 5 then some (m.updGroup w t slot (·.waitFor (.pend .switch)))
  else if g.anyLL then some (m.updGroup w t slot (·.waitFor (.pend (waitCause (g.ops.filter (·.ll))))))
  else if !m.hasRoom w t slot need then some (m.waitRoom w t slot need)
  else none

/-- Settle every unsettled fault of a group (R308, R309); it waits for pending operations and for room first. -/
def M.settle (m : M) (w t slot : Nat) (g : Group) : M :=
  let fs := g.settled
  match m.leaveWait w t slot g fs.length with
  | some m1 => m1
  | none => ((m.roomTaken w t slot).updGroup w t slot fun g => { g with late := [] }).takeFaults w t slot fs

/-- Issue set of a slot (R364). -/
def issueSet (slot : Nat) : Nat := slot / 48

/-- Phases that a team's barriers have completed. -/
def Team.phases (tm : Team) : Nat := (tm.barriers.map fun (_, b) => b.count.toNat).sum

/-- Issue sets that do not issue in this cycle: the stopped ones, and those that run again from the next (R338). -/
def Dbg.still (d : Dbg) : BitVec 4 := d.stop ||| d.lift

/-- The issue set is stopped for the group; in a step only the stepped team's groups issue, and none of an issue set that a
BKPT has stopped (R338, R340, R352). -/
def M.isStopped (m : M) (w t slot : Nat) (g : Group) : Bool :=
  let d := (m.wt w t).dbg
  match d.stepping with
  | some ti => match look m.teams g.team with
    | some tm => BitVec.ofNat 32 tm.index != ti || d.brk.getLsbD (issueSet slot)
    | none => true
  | none => d.still.getLsbD (issueSet slot)

/-- The group may issue at all: its launch is not ending, its world stands, its tile is not in a switch, its set not
stopped (R315, R331, R338, R394). -/
def M.mayIssue (m : M) (t w slot : Nat) (g : Group) : Bool :=
  (m.tile t).phase == .running && !m.isStopped w t slot g && !(m.world w).stopped
    && (match m.launchOf g.team with | some (_, l) => !l.ending | none => false)

/-- Lanes at their meeting address with no unsettled fault (R122, R308). -/
def Group.arriving (g : Group) : List (Nat × Thread) :=
  g.lanes.filter fun (l, th) => th.meet != 0 && meetVa th.meet == g.pc && !(g.late.any (·.fault.lane == l))

/-- Lanes at their meeting address that have an unsettled fault settle first (R308). -/
def Group.faultAtMeet (g : Group) : Bool :=
  g.lanes.any fun (l, th) => th.meet != 0 && meetVa th.meet == g.pc && g.late.any (·.fault.lane == l)

/-- All members of a record are the active lanes of this group and reach M together: they stay in place (R123). -/
def Group.inPlace (g : Group) (wt : WT) : Option (Nat × Meeting) :=
  match g.arriving with
  | [] => none
  | (_, th) :: _ =>
    match look wt.meets (meetNo th.meet) with
    | none => none
    | some r =>
      if g.arriving.all (fun x => x.2.meet == th.meet) && g.arriving.length == g.lanes.length && r.arrivedN == 0
        && r.n == g.lanes.length then some (meetNo th.meet, r) else none

/-- The windows that a lane's thread takes with it when it leaves the group: those with instructions left (R55). -/
def Group.windowsOf (g : Group) (l : Nat) : List Window := g.wins.filter fun x => x.left != 0 && x.lanes.contains l

/-- Threads of a group written to the landing as arrived under their records (R122, R139). -/
def WT.arriveAs (wt : WT) (g : Group) (pc : Va) (urec born : Nat) (ths : List (Nat × Thread)) : WT :=
  ths.foldl (fun (wt : WT) (l, th) =>
    match look wt.meets (meetNo th.meet) with
    | none => wt
    | some r =>
      let e : Waiting := { th := { th with resv := none }, pc := pc, allot := g.allot, l := g.allot, team := g.team,
                           urec := urec, born := born, wins := g.windowsOf l }
      { wt with meets := put wt.meets (meetNo th.meet) { r with arrivedN := r.arrivedN + 1, ths := r.ths ++ [e] } }) wt

/-- Complete the records of threads that have just arrived. -/
def M.meetChecks (m : M) (w t : Nat) (ths : List Thread) : M :=
  ((ths.map fun th => meetNo th.meet).eraseDups).foldl (fun m no => m.setWT w t ((m.wt w t).meetCheck (m.tile t).cycle no)) m

/-- Lanes leave a group; a group with none left frees its slot (R120, R122). -/
def M.vacate (m : M) (w t slot : Nat) (ls : List Nat) (why : Absence) : M :=
  let m := m.noteStores w t slot ls
  match look (m.wt w t).groups slot with
  | none => m
  | some g =>
    let left := g.lanes.filter fun (l, _) => !ls.contains l
    let g1 := { g with lanes := left, gone := ls.foldl (fun acc l => put acc l why) g.gone }
    let m1 := m.setGroup w t slot g1
    if left.isEmpty then m1.freeGroup w t slot else m1

/-- The group's turn in this cycle is not over: the instruction at the meeting address is still to be looked at (R123). -/
def M.again (m : M) (t slot : Nat) : M :=
  let tl := m.tile t
  m.setTile t { tl with tried := tl.tried.filter (· != slot) }

/-- A MEETING ARRIVAL (R122, R123): every active lane at its meeting address arrives under its record, once the group's
pending long-latency instructions have completed (log entry 68). The lanes that stay go on in the same cycle. -/
def M.arrive (m : M) (w t slot : Nat) (g : Group) : M :=
  let wt := m.wt w t
  match g.inPlace wt with
  | some (no, r) =>
    if wt.restored < 5 then m.updGroup w t slot (·.waitFor (.pend .switch))
    else if g.anyLL then m.updGroup w t slot (·.waitFor (.pend (waitCause (g.ops.filter (·.ll)))))
    else
      let lanes := mapV (fun _ th => { th with meet := r.parent, regpc := r.m, regcnt := th.regcnt + 1 }) g.lanes
      ((m.roomTaken w t slot).setWT w t
        { (m.roomTaken w t slot).wt w t with meets := del wt.meets no, groups := put wt.groups slot { g with lanes := lanes } }).again t slot
  | none =>
    match m.leaveWait w t slot g g.arriving.length with
    | some m1 => m1
    | none =>
      let m0 := m.roomTaken w t slot
      let u := (m0.wt w t).urecFor g.team g.k
      let ths := g.arriving.map (·.2)
      let m1 := m0.setWT w t (u.2.arriveAs g g.pc u.1 m.uid g.arriving)
      ((m1.vacate w t slot (g.arriving.map (·.1)) .arrived).meetChecks w t ths).again t slot

/-- An effect on the executing lanes' threads, lane by lane (R132). -/
def M.onLanes (m : M) (c : Ctx) (f : Nat → Thread → Thread) : M :=
  m.updGroup c.w c.t c.slot fun g =>
    { g with lanes := mapV (fun l th => if c.ex.any (·.1 == l) then f l th else th) g.lanes }

/-- A region entry of lanes (R304). -/
def enterRegion (pc : Va) (th : Thread) : Thread := { th with regpc := pc, regcnt := th.regcnt + 1 }

/-- Vector registers an instruction reads, each once (R166). -/
def Form.reads (f : Form) : List Nat := ((f.src ++ f.also).flatMap fun (r, n) => (List.range n).map (· + r)).eraseDups

/-- Bank of a register of a group (R166). -/
def bankOf (slot r : Nat) : Nat := (r + slot) % 8

/-- Banks an instruction reads, one entry for each read (R166). -/
def Form.banks (f : Form) (slot : Nat) : List Nat := f.reads.map (bankOf slot)

/-- Reads from the busiest bank (R166). -/
def Form.busiest (f : Form) (slot : Nat) : Nat :=
  ((List.range 8).map fun b => (f.banks slot).count b).foldl max 0

/-- The pick before this one in the cycle of the issue set leaves no bank read or no anvil port for it (R164): they read a
common bank, or both take the port (log entry 72). -/
def Form.conflicts (f : Form) (slot : Nat) (r : IssuedRec) : Bool :=
  (f.anvil && r.anvil) || (f.banks slot).any r.banks.contains

/-- Class of a lane for the lane-cycle record (R341): the lowest executing lane of a NOP counts ACTIVE (log entry 90). -/
def laneClass (g : Group) (ex : List Nat) (once : Bool) (l : Nat) : Nat :=
  match look g.lanes l with
  | none => match look g.gone l with
    | some .diverged => 1
    | some .arrived => 1
    | some .unfilled => 3
    | some .exited => 3
    | some .parked => 3
    | none => 3
  | some _ => if !ex.contains l then 2 else if once && ex.head? != some l then 4 else 0

/-- Add to a counter, modulo 2^64. -/
def bump (cs : Counters) (k n : Nat) : Counters := mset 0 cs k (mget 0 cs k + BitVec.ofNat 64 n)

/-- Counters with others added. -/
def addCounters (a b : Counters) : Counters := b.foldl (fun acc (k, v) => mset 0 acc k (mget 0 acc k + v)) a

/-- At the latch the live counters start at zero; the saved ones are added when row 7 is restored (R170). -/
def WT.leaveLive (wt : WT) : WT :=
  { wt with acct := [], lcr := [], saved := addCounters wt.acct wt.saved, savedLcr := addCounters wt.lcr wt.savedLcr }

def WT.addSaved (wt : WT) : WT :=
  { wt with acct := addCounters wt.acct wt.saved, lcr := addCounters wt.lcr wt.savedLcr, saved := [], savedLcr := [] }

/-- PC ranges that hold an address (R169). -/
def WT.rangesOf (wt : WT) (pc : Va) : List Nat :=
  (List.range 32).filter fun r =>
    (mget 0 wt.pcbase r).toNat ≤ pc.toNat && pc.toNat < (mget 0 wt.pclimit r).toNat

/-- Count an issued instruction in the lane-cycle record (R341). -/
def WT.countLanes (wt : WT) (g : Group) (pc : Va) (ex : List Nat) (once : Bool) : WT :=
  if !wt.dbg.lcen then wt
  else
    { wt with lcr := (List.range 32).foldl (fun cs l =>
        let k := laneClass g ex once l
        (wt.rangesOf pc).foldl (fun cs r => bump cs (0x100 + 8 * r + k) 1) (bump cs k 1)) wt.lcr }

/-- What every issued instruction does beside its own effect: age, accounts, the grid's stall interval (R163, R164,
R341). -/
def M.issued (m : M) (t w slot : Nat) (g : Group) (ex : List Nat) (f : Form) : M :=
  let wt := (m.wt w t).countLanes g g.pc ex f.once
  let r : IssuedRec := { slot := slot, pc := g.pc, banks := if ex.isEmpty then [] else f.banks slot, anvil := f.anvil && !ex.isEmpty }
  let wt1 := if wt.dbg.stepping.isSome then { wt with dbg := { wt.dbg with idle := 0 } } else wt
  let tl := m.tile t
  let m1 := (m.setWT w t wt1).setTile t { tl with issued := tl.issued ++ [r] }
  match look m1.teams g.team with
  | some tm => m1.updLaunch tm.launch fun l => { l with stall := 0 }
  | none => m1

/-- The PC after an instruction that does not transfer control (R17). -/
def nextPc (pc : Va) (len : Nat) : Va := pc + BitVec.ofNat 56 len

/-- A sequential advance leaves the address space (R18). -/
def pastEnd (pc : Va) (len : Nat) : Bool := decide (2 ^ 56 ≤ pc.toNat + len)

/-- End of an instruction that completed at the given next address; `all` are the lanes whose guard was true. -/
def M.finish (m : M) (c : Ctx) (f : Form) (npc : Va) (all : List (Nat × Thread) := c.ex) : M :=
  let m1 := m.updGroup c.w c.t c.slot fun g =>
    { g with pc := npc, age := 0, wait := .none, bank := none, walked := [],
             lanes := if f.region then mapV (fun l th => if c.ex.any (·.1 == l) then enterRegion npc th else th) g.lanes
                      else g.lanes }
  (m1.noRoom c.w c.t c.slot).issued c.t c.w c.slot c.g (all.map (·.1)) f

/-- A fault of the whole instruction in the given lanes (R211, R316). -/
def whole (ls : List (Nat × Thread)) (code : Code) (addr detail : Nat) : List LaneFault :=
  ls.map fun (l, _) => { lane := l, code := code, addr := addr, detail := detail }

/-- Wait with a cause and no effect. -/
def M.holdC (m : M) (c : Ctx) (cause : Cause) : M :=
  m.updGroup c.w c.t c.slot (·.waitFor (.pend cause))

/-- What the faults of an instruction wait for before they are taken: a replayable one parks its lane, which waits for
the pending long-latency instructions and for room in the landing (R119, R309, R310). A fatal one waits for nothing. -/
def M.parkWait (m : M) (c : Ctx) (fs : List LaneFault) : Option M :=
  let rs := c.g.reported c.g.pc fs
  if rs.any fun x => x.2.code.cls == .replayable then m.leaveWait c.w c.t c.slot c.g rs.length else none

/-- Take faults of the instruction at the PC. `m1` is the state with the effect in the lanes that took none. -/
def M.trapOr (m : M) (c : Ctx) (fs : List LaneFault) (m1 : M) : M :=
  match m.parkWait c fs with
  | some m2 => m2
  | none => (m1.roomTaken c.w c.t c.slot).takeFaults c.w c.t c.slot (c.g.reported c.g.pc fs)

/-- Faults of the whole instruction, which changes no state. -/
def M.reject (m : M) (c : Ctx) (ls : List (Nat × Thread)) (code : Code) (addr detail : Nat) : M :=
  m.trapOr c (whole ls code addr detail) m

/-- The end of an instruction: `m` is the state before it. -/
def endRes (c : Ctx) (f : Form) (m : M) : Res → M
  | .done m2 =>
    if pastEnd c.g.pc f.len then m.reject c c.ex .translation 0 0x201
    else m2.finish c f (nextPc c.g.pc f.len)
  | .jump m2 target => m2.finish c f target
  | .hold m2 wt => m2.updGroup c.w c.t c.slot fun g => { g with wait := wt, bank := none, wins := c.g.wins }
  | .trap m2 fs =>
    let ok := c.ex.filter fun (l, _) => !(fs.any (·.lane == l))
    m.trapOr c fs (if ok.isEmpty then m.quit c.w c.t c.slot c.g else m2.finish { c with ex := ok } f (nextPc c.g.pc f.len) c.ex)
  | .after m2 fs =>
    if pastEnd c.g.pc f.len then m.reject c c.ex .translation 0 0x201
    else m.trapOr c fs (m2.finish c f (nextPc c.g.pc f.len))

/-- What comes before a group's next instruction, whatever it is: late faults of lanes at their meeting address
settle, then the lanes at their meeting address arrive (R122, R308). None when nothing is in the way. -/
def M.atMeeting (m : M) (c : Ctx) : Option M :=
  if c.g.faultAtMeet then some (m.settle c.w c.t c.slot c.g)
  else if c.g.arriving.isEmpty then none
  else some (m.arrive c.w c.t c.slot c.g)

/-- What an instruction's own effect waits for, without having had any part of it (R168). -/
def Res.waits (m : M) (c : Ctx) (f : Form) : Res → Bool
  | .done _ => pastEnd c.g.pc f.len && (m.parkWait c (whole c.ex .translation 0 0x201)).isSome
  | .jump _ _ => false
  | .hold _ wt => !wt.begun
  | .trap _ fs => (m.parkWait c fs).isSome
  | .after _ fs => (m.parkWait c fs).isSome

/-- The instruction's own effect began and goes on: it does not issue in this cycle. -/
def Res.holds : Res → Bool
  | .done _ => false
  | .jump _ _ => false
  | .hold _ _ => true
  | .trap _ _ => false
  | .after _ _ => false

/-- The register banks delay the instruction once its other conditions are met: the reads of its busiest bank beyond the
first are collected one a cycle (R166). What is collected stays while its other conditions stay met. -/
def Ctx.bankDelay (c : Ctx) (f : Form) : Option Nat :=
  match c.g.bank with
  | some 0 => none
  | some n => some n
  | none => if 1 < f.busiest c.slot then some (f.busiest c.slot - 1) else none

/-- The pick before it in this cycle conflicts with it (R164). -/
def M.dual (m : M) (c : Ctx) (f : Form) : Bool :=
  (m.tile c.t).issued.any fun r => issueSet r.slot == issueSet c.slot && f.conflicts c.slot r

/-- The pick loses the dual conflict: it stays ready (R164). -/
def M.loses (m : M) (c : Ctx) : M :=
  let tl := m.tile c.t
  m.setTile c.t { tl with lost := c.slot :: tl.lost }

/-- How an instruction that may issue does so: it waits for what its own effect needs, then for the register banks, then
it may lose a dual conflict; else it has its effect (R164, R166, R168). -/
def M.effect (m : M) (c : Ctx) (f : Form) (r : Res) : M :=
  if r.waits m c f || r.holds then endRes c f m r
  else
    match c.bankDelay f with
    | some n => m.updGroup c.w c.t c.slot fun g => { g with bank := some n, wait := if g.wait.begun then g.wait else .none }
    | none => if m.dual c f then m.loses c else endRes c f m r

/-- What comes before a group's next instruction can be looked at (R55, R122, R308, R333): late faults settle, lanes
arrive, a resource of its world is restored, a used-up window's operation completes. None when nothing is in the way. -/
def M.before (m : M) (c : Ctx) (f : Form) : Option M :=
  if f.counted && !c.g.wait.begun && c.g.settleDue (f.waits || f.nonIdem || f.region) then
    some (m.settle c.w c.t c.slot c.g)
  else
    match m.atMeeting c with
    | some m1 => some m1
    | none =>
      if f.touch.any (fun r => (m.wt c.w c.t).restored < r) then some (m.holdC c .switch)
      else if f.counted then (waitFor? c.g.blocking).map (m.holdC c)
      else none

/-- Pending operations an instruction waits for: by R57, and a non-idempotent one for the late-faulting ones of its
threads (R306). -/
def Ctx.llWait (c : Ctx) (f : Form) : Option Cause :=
  waitFor? (c.g.awaits f c.ex ++ if f.nonIdem then c.g.lateOf c.ex else [])

/-- Checks common to every instruction, in the order of Table 17-2, then its own effect (R16, R42, R55 to R57, R306,
R308, R333). One that no lane executes reads no bank (log entry 72), and a GROW or SHRINK that no lane executes takes no
REG_ALLOT for the allotment it would give (log entry 15). -/
def M.issueIn (m : M) (h : Hdr) (f : Form) (c : Ctx) (body : Ctx → M → Res) : M :=
  if !m.mayIssue c.t c.w c.slot c.g then m
  else
    match m.before c f with
    | some m1 => m1
    | none =>
      if f.vec.any (fun (r, n) => c.g.allot < r + n) then
        m.reject c (if c.ex.isEmpty then c.g.lanes else c.ex) .regAllot 0 0
      else if c.ex.isEmpty then
        if pastEnd c.g.pc f.len then m.reject c c.g.lanes .translation 0 0x201
        else (m.updGroup c.w c.t c.slot Group.countWin).finish c { f with region := false } (nextPc c.g.pc f.len)
      else if f.badAllot && !c.g.wait.begun then m.reject c c.ex .regAllot 0 0
      else if h.ac ≠ .ex && (f.mark = .none || f.mark = .exOnly) then m.reject c c.ex .accuracyClass 0 0
      else if !(c.g.violators f c.ex).isEmpty then
        match waitFor? (c.g.ops.filter (·.ll)) with
        | some cause => m.holdC c cause
        | none => m.reject c (c.g.violators f c.ex) .lookaheadViolation 0 0
      else
        match c.llWait f with
        | some cause => m.holdC c cause
        | none => m.effect c f (body c (if f.counted then m.updGroup c.w c.t c.slot Group.countWin else m))

/-- Issue an instruction of the current group (R132). -/
def issue (h : Hdr) (f : Form) (s : State) (body : Ctx → M → Res) : Host.Outcome State Fault Refusal :=
  match s.m.curG with
  | none => .fault .noIssuer
  | some (t, w, slot, g) =>
    .next { s with m := s.m.issueIn h f { t := t, w := w, slot := slot, g := g, ex := g.lanes.filter fun (_, th) => guardOk h th } body }

/-- An event of the machine that is no instruction: one whose condition does not hold changes nothing (log
entry 8). -/
def event (s : State) (f : M → Option M) : Host.Outcome State Fault Refusal :=
  .next { s with m := (f s.m).getD s.m }

end Sys2Proof.Machine
end

