-- ==== Sys2Proof/Machine/Alu.lean ====
section
/-! DEFINITION. The shared shapes of instructions that only write registers (R68 to R70, R81, R91), and the values
they compute (R71 to R75, R82). -/

namespace Sys2Proof.Machine

/-! ## Shapes -/

/-- The form of an instruction that reads `srcs` and writes n vector registers from d. -/
def regForm (len : Nat) (d : BitVec 8) (n : Nat) (srcs : List (Nat × Nat)) (mark : AcMark := .none) : Form :=
  { len := len, mark := mark, vec := (d.toNat, n) :: srcs, src := srcs }

/-- The form of an instruction that writes no vector register. -/
def srcForm (len : Nat) (srcs : List (Nat × Nat)) (unis : List Nat := []) : Form :=
  { len := len, vec := srcs, src := srcs, uni := unis }

/-- One vector register as an operand. -/
def one (r : BitVec 8) : List (Nat × Nat) := [(r.toNat, 1)]

/-- Write a vector register in every executing lane (R69, R70). -/
def setReg (h : Hdr) (f : Form) (d : BitVec 8) (s : State) (v : Thread → W32) : Host.Outcome State Fault Refusal :=
  issue h f s fun c m => .done (m.onLanes c fun _ th => th.setX d.toNat (v th))

/-- The two-source pattern (R68). -/
def twoSource (h : Hdr) (d a : BitVec 8) (b : Src) (s : State) (op : W32 → W32 → W32) (mark : AcMark := .none) :
    Host.Outcome State Fault Refusal :=
  setReg h (regForm 8 d 1 (one a ++ b.vecs) mark) d s fun th => op (th.xr a.toNat) (srcV th b)

/-- The three-source pattern (R68). -/
def threeSource (h : Hdr) (d a b : BitVec 8) (t : Src) (s : State) (op : W32 → W32 → W32 → W32) (mark : AcMark := .none) :
    Host.Outcome State Fault Refusal :=
  setReg h (regForm 8 d 1 (one a ++ one b ++ t.vecs) mark) d s fun th => op (th.xr a.toNat) (th.xr b.toNat) (srcV th t)

/-- The unary pattern (R68). -/
def unary (h : Hdr) (d a : BitVec 8) (s : State) (op : W32 → W32) : Host.Outcome State Fault Refusal :=
  setReg h (regForm 8 d 1 (one a)) d s fun th => op (th.xr a.toNat)

/-- Write a predicate in every executing lane (R15, R78). -/
def setPred (h : Hdr) (f : Form) (pd : BitVec 3) (s : State) (v : Group → Thread → Bool) :
    Host.Outcome State Fault Refusal :=
  issue h f s fun c m => .done (m.onLanes c fun _ th => th.setP pd (v c.g th))

/-- Write a uniform register with the value of the lowest executing lane (R70). -/
def M.setUni (m : M) (c : Ctx) (k : Nat) (v : Thread → W64) : M :=
  match lowest c.ex with
  | some (_, th) => m.updGroup c.w c.t c.slot fun g => g.setK k (v th)
  | none => m

/-- Write a 64-bit operand: the pair in every executing lane, or the uniform register (R70, R81). -/
def M.setOpd (m : M) (c : Ctx) (d : Opd64) (v : Thread → W64) : M :=
  match d with
  | .pair r => m.onLanes c fun _ th => th.setPair r.toNat (v th)
  | .uni k => m.setUni c k.toNat v

/-- The form of a 64-bit instruction (R81). -/
def wideForm (len : Nat) (d : Opd64) (vs : List (Nat × Nat)) (us : List Nat) : Form :=
  { len := len, vec := d.vecs ++ vs, src := vs, uni := d.unis ++ us }

/-- A two-source instruction on 64-bit operands (R81). -/
def wide (h : Hdr) (d a : Opd64) (b : Src64) (s : State) (op : W64 → W64 → W64) : Host.Outcome State Fault Refusal :=
  issue h (wideForm 8 d (a.vecs ++ b.vecs) (a.unis ++ b.unis)) s fun c m =>
    .done (m.setOpd c d fun th => op (opdV c.g th a) (src64V c.g th b))

/-! ## Integer values -/

def divS (n d : W32) : W32 :=
  if d = 0 then 0xFFFFFFFF else if n = 0x80000000 ∧ d = 0xFFFFFFFF then 0x80000000 else BitVec.ofInt 32 (n.toInt.tdiv d.toInt)

def remS (n d : W32) : W32 :=
  if d = 0 then n else if n = 0x80000000 ∧ d = 0xFFFFFFFF then 0 else BitVec.ofInt 32 (n.toInt.tmod d.toInt)

def divU (n d : W32) : W32 := if d = 0 then 0xFFFFFFFF else BitVec.ofNat 32 (n.toNat / d.toNat)

def remU (n d : W32) : W32 := if d = 0 then n else BitVec.ofNat 32 (n.toNat % d.toNat)

/-- Saturate to INT32 (R30). -/
def satS (i : Int) : W32 := BitVec.ofInt 32 (max (-(2 ^ 31)) (min (2 ^ 31 - 1) i))

/-- Saturate to UINT32 (R30). -/
def satU (i : Int) : W32 := BitVec.ofInt 32 (max 0 (min (2 ^ 32 - 1) i))

def absV (sat : Bool) (a : W32) : W32 := if sat then satS a.toInt.natAbs else BitVec.ofInt 32 a.toInt.natAbs

def negV (sat : Bool) (a : W32) : W32 := if sat then satS (-a.toInt) else BitVec.ofInt 32 (-a.toInt)

def mulhV (a b : W32) : W32 := BitVec.ofInt 32 (a.toInt * b.toInt / 2 ^ 32)

def mulhuV (a b : W32) : W32 := BitVec.ofNat 32 (a.toNat * b.toNat / 2 ^ 32)

def mulwV (u : Bool) (a b : W32) : W64 :=
  if u then BitVec.ofNat 64 (a.toNat * b.toNat) else BitVec.ofInt 64 (a.toInt * b.toInt)

def addsatV (u : Bool) (a b : W32) : W32 := if u then satU (a.toNat + b.toNat) else satS (a.toInt + b.toInt)

def subsatV (u : Bool) (a b : W32) : W32 := if u then satU ((a.toNat : Int) - b.toNat) else satS (a.toInt - b.toInt)

/-! ## Logic and bit fields -/

def shlV (a n : W32) : W32 := if 32 ≤ n.toNat then 0 else a <<< n.toNat

def shrV (a n : W32) : W32 := if 32 ≤ n.toNat then 0 else a >>> n.toNat

def sarV (a n : W32) : W32 := if 32 ≤ n.toNat then (if a.toInt < 0 then 0xFFFFFFFF else 0) else a.sshiftRight n.toNat

def rotlV (a n : W32) : W32 := BitVec.ofNat 32 (a.toNat * 2 ^ (n.toNat % 32)) ||| BitVec.ofNat 32 (a.toNat / 2 ^ (32 - n.toNat % 32))

def funnelV (a b n : W32) : W32 := BitVec.ofNat 32 ((b.toNat * 2 ^ 32 + a.toNat) / 2 ^ (n.toNat % 64))

/-- Zero bits above the highest one bit of the low n bits. -/
def leadZ (a : W32) : Nat → Nat
  | 0 => 0
  | n + 1 => if a.getLsbD n then 0 else 1 + leadZ a n

def clzV (a : W32) : W32 := BitVec.ofNat 32 (leadZ a 32)

def brevV (a : W32) : W32 :=
  BitVec.ofNat 32 ((List.range 32).foldl (fun acc i => if a.getLsbD i then acc + 2 ^ (31 - i) else acc) 0)

def ctzV (a : W32) : W32 := clzV (brevV a)

def popcV (a : W32) : W32 := BitVec.ofNat 32 ((List.range 32).countP fun i => a.getLsbD i)

def bfeV (sg : Bool) (p w : Nat) (a : W32) : W32 :=
  let field := a.toNat / 2 ^ p % 2 ^ w
  if sg && 0 < w then BitVec.ofInt 32 (sextNat w field) else BitVec.ofNat 32 field

def bfiV (p w : Nat) (a b : W32) : W32 :=
  let mask : W32 := BitVec.ofNat 32 ((2 ^ w - 1) * 2 ^ p)
  (b &&& ~~~mask) ||| ((a <<< p) &&& mask)

/-- One byte of BYTEP's result. -/
def bytepByte (fk : FillKind) (v c : Nat) : Nat :=
  let byte := v / 2 ^ (8 * (c % 8)) % 256
  if c < 8 then byte
  else
    match fk with
    | .z => 0
    | .o => 255
    | .sgn => if 128 ≤ byte then 255 else 0

def bytepV (fk : FillKind) (a b t : W32) : W32 :=
  let v := b.toNat * 2 ^ 32 + a.toNat
  BitVec.ofNat 32 ((List.range 4).foldl (fun acc j => acc + bytepByte fk v (t.toNat / 16 ^ j % 16) * 256 ^ j) 0)

def sextV (a n : W32) : W32 :=
  let w := n.toNat
  if w = 0 ∨ 32 ≤ w then a else BitVec.ofInt 32 (sextNat w (a.toNat % 2 ^ w))

def zextV (a n : W32) : W32 :=
  let w := n.toNat
  if w = 0 ∨ 32 ≤ w then a else BitVec.ofNat 32 (a.toNat % 2 ^ w)

/-! ## 64-bit values -/

def shl64V (a n : W64) : W64 := if 64 ≤ n.toNat then 0 else a <<< n.toNat

def shr64V (ar : Bool) (a n : W64) : W64 :=
  if ar then (if 64 ≤ n.toNat then (if a.toInt < 0 then 0xFFFFFFFFFFFFFFFF else 0) else a.sshiftRight n.toNat)
  else if 64 ≤ n.toNat then 0 else a >>> n.toNat

/-- LEA (R82). -/
def leaV (w : Bool) (sh : BitVec 3) (a b : W64) (imm : W32) : W64 :=
  let idx := if w then (b.extractLsb' 0 32).signExtend 64 else b
  a + (idx <<< sh.toNat) + imm.signExtend 64

end Sys2Proof.Machine
end

