-- ==== Sys2Proof/Machine/FloatInstr.lean ====
section
/-! DEFINITION. The floating-point instructions, opcodes 0x40 to 0x58 (R91 to R107). -/

namespace Sys2Proof.Machine

/-- Value of a register as a code. -/
def Thread.xn (th : Thread) (r : BitVec 8) : Nat := (th.xr r.toNat).toNat

/-- An instruction of two vector sources whose result is a code (R92). -/
def fTwo (h : Hdr) (d a b : BitVec 8) (s : State) (op : Nat → Nat → Nat) (mark : AcMark := .none) :
    Host.Outcome State Fault Refusal :=
  setReg h (regForm 8 d 1 (one a ++ one b) mark) d s fun th => BitVec.ofNat 32 (op (th.xn a) (th.xn b))

/-- An instruction of three vector sources (R92). -/
def fThree (h : Hdr) (d a b e : BitVec 8) (s : State) (op : Nat → Nat → Nat → Nat) (mark : AcMark) :
    Host.Outcome State Fault Refusal :=
  setReg h (regForm 8 d 1 (one a ++ one b ++ one e) mark) d s fun th => BitVec.ofNat 32 (op (th.xn a) (th.xn b) (th.xn e))

/-- An instruction of one vector source (R92). -/
def fOne (h : Hdr) (d a : BitVec 8) (s : State) (op : Nat → Nat) : Host.Outcome State Fault Refusal :=
  setReg h (regForm 8 d 1 (one a)) d s fun th => BitVec.ofNat 32 (op (th.xn a))

/-- A long-latency instruction begins: a pending operation with its window (R54, R55). -/
def M.beginLL (m : M) (c : Ctx) (h : Hdr) (p : Pend) (obj : WinObj) : M :=
  m.updGroup c.w c.t c.slot fun g =>
    { g with ops := g.ops ++ [p], wins := g.wins ++ [{ op := p.id, lanes := p.lanes, left := h.la.toNat, obj := obj }] }

/-- FSQRT, FDIV, FEXP2 and FLOG2: the result is kept until LONG_LATENCY_COMPLETE writes it (R55, R93). -/
def longOp (h : Hdr) (d : BitVec 8) (srcs : List (Nat × Nat)) (s : State) (v : Thread → W32) :
    Host.Outcome State Fault Refusal :=
  issue h (regForm 8 d 1 srcs) s fun c m =>
    let f := m.fresh
    let p : Pend :=
      { id := f.1, pc := c.g.pc, len := 8, ll := true, late := false, nonIdem := false,
        dest := .vals d (c.ex.map fun (l, th) => (l, v th)), lanes := c.ex.map (·.1) }
    .done (f.2.beginLL c h p { vec := one d })

def execFadd (h : Hdr) (f : FCfg) (d a b : BitVec 8) (s : State) : Host.Outcome State Fault Refusal := fTwo h d a b s (fAdd f)
def execFsub (h : Hdr) (f : FCfg) (d a b : BitVec 8) (s : State) : Host.Outcome State Fault Refusal := fTwo h d a b s (fSub f)
def execFmul (h : Hdr) (f : FCfg) (d a b : BitVec 8) (s : State) : Host.Outcome State Fault Refusal :=
  fTwo h d a b s (fMul h.ac f) .all
def execFma (h : Hdr) (f : FCfg) (d a b c : BitVec 8) (s : State) : Host.Outcome State Fault Refusal :=
  fThree h d a b c s (fMa h.ac f) .all
def execFnma (h : Hdr) (f : FCfg) (d a b c : BitVec 8) (s : State) : Host.Outcome State Fault Refusal :=
  fThree h d a b c s (fNma h.ac f) .all
def execFmin (h : Hdr) (f : Fmt) (d a b : BitVec 8) (s : State) : Host.Outcome State Fault Refusal := fTwo h d a b s (fMin f)
def execFmax (h : Hdr) (f : Fmt) (d a b : BitVec 8) (s : State) : Host.Outcome State Fault Refusal := fTwo h d a b s (fMax f)
def execFsgn (h : Hdr) (op : SgnOp) (f : Fmt) (d a b : BitVec 8) (s : State) : Host.Outcome State Fault Refusal :=
  fTwo h d a b s (fSgn op f)
def execFcmp (h : Hdr) (c : FCond) (f : Fmt) (pd : BitVec 3) (a b : BitVec 8) (s : State) : Host.Outcome State Fault Refusal :=
  setPred h (srcForm 8 (one a ++ one b)) pd s fun _ th => fCmp c f (th.xn a) (th.xn b)
def execFclass (h : Hdr) (f : Fmt) (d a : BitVec 8) (s : State) : Host.Outcome State Fault Refusal := fOne h d a s (fClass f)
def execFrnd (h : Hdr) (rm : Rm) (f : Fmt) (d a : BitVec 8) (s : State) : Host.Outcome State Fault Refusal :=
  fOne h d a s (fRnd rm f)
def execFrcp (h : Hdr) (rm : Rm) (d a : BitVec 8) (s : State) : Host.Outcome State Fault Refusal := fOne h d a s (fRcp rm)
def execFrsq (h : Hdr) (rm : Rm) (d a : BitVec 8) (s : State) : Host.Outcome State Fault Refusal := fOne h d a s (fRsq rm)
def execFsqrt (h : Hdr) (rm : Rm) (d a : BitVec 8) (s : State) : Host.Outcome State Fault Refusal :=
  longOp h d (one a) s fun th => BitVec.ofNat 32 (fSqrt rm (th.xn a))
def execFdiv (h : Hdr) (rm : Rm) (d a b : BitVec 8) (s : State) : Host.Outcome State Fault Refusal :=
  longOp h d (one a ++ one b) s fun th => BitVec.ofNat 32 (fDiv rm (th.xn a) (th.xn b))
def execFexp2 (h : Hdr) (rm : Rm) (d a : BitVec 8) (s : State) : Host.Outcome State Fault Refusal :=
  longOp h d (one a) s fun th => BitVec.ofNat 32 (fExp2 rm (th.xn a))
def execFlog2 (h : Hdr) (rm : Rm) (d a : BitVec 8) (s : State) : Host.Outcome State Fault Refusal :=
  longOp h d (one a) s fun th => BitVec.ofNat 32 (fLog2 rm (th.xn a))
/-- CVT; with MERGE the destination is a source too (R103). -/
def execCvt (h : Hdr) (rm : Rm) (sat : Bool) (st dt : Ty) (se de : BitVec 2) (merge : Bool) (d a : BitVec 8) (s : State) :
    Host.Outcome State Fault Refusal :=
  setReg h (regForm 8 d 1 (one a ++ if merge then one d else [])) d s fun th =>
    BitVec.ofNat 32 (cvtReg rm sat st dt se.toNat de.toNat merge (th.xn d) (th.xn a))
def execHadd2 (h : Hdr) (f : FCfg) (d a b : BitVec 8) (s : State) : Host.Outcome State Fault Refusal :=
  fTwo h d a b s fun x y => both (fun x y _ => fAdd f x y) x y 0
def execHmul2 (h : Hdr) (f : FCfg) (d a b : BitVec 8) (s : State) : Host.Outcome State Fault Refusal :=
  fTwo h d a b s (fun x y => both (fun x y _ => fMul h.ac f x y) x y 0) .all
def execHfma2 (h : Hdr) (f : FCfg) (d a b c : BitVec 8) (s : State) : Host.Outcome State Fault Refusal :=
  fThree h d a b c s (both (fMa h.ac f)) .all
def execHmin2 (h : Hdr) (f : Fmt) (d a b : BitVec 8) (s : State) : Host.Outcome State Fault Refusal :=
  fTwo h d a b s fun x y => both (fun x y _ => fMin f x y) x y 0
def execHmax2 (h : Hdr) (f : Fmt) (d a b : BitVec 8) (s : State) : Host.Outcome State Fault Refusal :=
  fTwo h d a b s fun x y => both (fun x y _ => fMax f x y) x y 0
def execFdot2 (h : Hdr) (f : FCfg) (d a b c : BitVec 8) (s : State) : Host.Outcome State Fault Refusal :=
  fThree h d a b c s (fDot2 h.ac f) .all
def execDot4 (h : Hdr) (ua ub : Bool) (d a b c : BitVec 8) (s : State) : Host.Outcome State Fault Refusal :=
  fThree h d a b c s (dot4 ua ub) .exOnly

end Sys2Proof.Machine
end

