-- ==== Sys2Proof/Machine/Memory.lean ====
section
/-! DEFINITION. Memory below the instructions: tensors and tags, translation, lines and their tags, leases, scratch
and the stack cache (R172 to R198, R219, R322 to R326, R384, R406, R446). -/

namespace Sys2Proof.Machine

/-! ## Tensors and tags (R185, R186, R219) -/

/-- Element size of a format (Table 5-6; packed ternary one byte, R219). -/
def fmtBytes (f : Nat) : Nat :=
  if f = 0 || f = 6 || f = 7 then 4 else if f = 1 || f = 2 || f = 8 || f = 9 then 2 else 1

/-- Extents that count for the envelope (R219). -/
def Tensor.extents (e : Tensor) : List Nat :=
  match e.shape with
  | [] => []
  | x :: xs => (if e.sparse then (x + 127) / 128 else if e.fmt = 12 then (x + 3) / 4 else x) :: xs

/-- Bytes of the unit at a position (R219). -/
def Tensor.unit (e : Tensor) : Nat := if e.sparse then 16 + 128 * fmtBytes e.fmt else fmtBytes e.fmt

def Tensor.lo (e : Tensor) : Int :=
  ((e.extents.zip e.stride).map fun (x, st) => min 0 (st * ((x : Int) - 1))).foldl (· + ·) (e.base : Int)

def Tensor.hi (e : Tensor) : Int :=
  ((e.extents.zip e.stride).map fun (x, st) => max 0 (st * ((x : Int) - 1))).foldl (· + ·) (e.base : Int) + e.unit - 1

/-- The envelope as line numbers (R219). -/
def Tensor.env (e : Tensor) : Span := { lo := (e.lo / 64).toNat, hi := (e.hi / 64).toNat }

def Span.has (s : Span) (n : Nat) : Bool := decide (s.lo ≤ n) && decide (n ≤ s.hi)

def Span.meets (a b : Span) : Bool := decide (a.lo ≤ b.hi) && decide (b.lo ≤ a.hi)

/-- Base of the tensor table (Table 22-2). -/
def World.ttbBase (wd : World) : Nat := (wd.ttb.extractLsb' 23 33).toNat * 2 ^ 23

/-- Where entry i of the world's table lies, by address / 128 (R185). -/
def World.entryAt (wd : World) (i : Nat) : Nat := wd.ttbBase / 128 + i

/-- The entries of the world's table, by index; one that is not listed has VALID = 0. -/
def World.entries (wd : World) : AMap Tensor :=
  wd.tensors.filterMap fun (k, e) => if wd.entryAt 0 ≤ k && k < wd.entryAt 65536 then some (k - wd.entryAt 0, e) else none

/-- An entry of the world's table. -/
def World.entry (wd : World) (i : Nat) : Option Tensor := if i < 65536 then look wd.tensors (wd.entryAt i) else none

/-- The record of an entry of the world's table is written. -/
def World.putEntry (wd : World) (i : Nat) (e : Tensor) : World := { wd with tensors := put wd.tensors (wd.entryAt i) e }

/-- Entries in frames that have become blank read VALID = 0 (R384). -/
def World.blankEntries (wd : World) (dead : Nat → Bool) : World :=
  { wd with tensors := wd.tensors.filter fun (k, _) => !dead (k / 512) }

/-- A valid entry of the world's table. -/
def World.tensor (wd : World) (i : Nat) : Option Tensor := (wd.entry i).filter (·.valid)

/-- A tensor tag, with what the tag's tensor says of stores and leases. -/
structure Tag where
  tid : Nat := 0
  ver : Nat := 0
  ro : Bool := false
  lclass : Nat := 0
  deriving DecidableEq, Repr

def tagOf (i : Nat) (e : Tensor) : Tag := { tid := i, ver := e.ver.toNat, ro := e.ro, lclass := e.lclass }

/-- Tag of a plain access of a thread: its lowest handle whose tensor holds the line (R186). -/
def World.threadTag (wd : World) (th : Thread) (line : Nat) : Tag :=
  (((List.range 16).findSome? fun i =>
    let n := (th.hr i).toNat
    if n = 0 then none
    else (wd.tensor n).bind fun e => if e.env.has line then some (tagOf n e) else none)).getD {}

/-- The table tag of a line (R186). -/
def World.tableTag (wd : World) (line : Nat) : Tag :=
  ((wd.entries.findSome? fun (i, e) => if e.valid && e.env.has line then some (tagOf i e) else none)).getD {}

/-! ## Device addresses and frames (R384, R446) -/

/-- Key of a byte of field memory. -/
def fieldKey (f off : Nat) : Nat := f * 2 ^ 36 + off

/-- Key of a byte of host memory. -/
def hostKey (p pa : Nat) : Nat := p * 2 ^ 56 + pa % 2 ^ 56

/-- Bytes written to a port's host memory, whose addresses have 56 bits (log entry 2). -/
def M.hostWrite (m : M) (p pa : Nat) (bs : List Byte) : M :=
  let n := 2 ^ 56 - pa % 2 ^ 56
  { m with hmem := Memory.writeL (Memory.writeL m.hmem (hostKey p pa) (bs.take n)) (hostKey p 0) (bs.drop n) }

/-- A device address names field memory: bits [43:36] the field, below them the offset. -/
def devOk (a size : Nat) : Bool := decide (a < 2 ^ 44) && decide (a / 2 ^ 36 < 80) && decide (a % 2 ^ 36 + size ≤ 2 ^ 36)

/-- The world owns the frame of a field byte (R384). -/
def M.owns (m : M) (w key : Nat) : Bool := look m.frames (key / 65536) == some w

/-- The world owns every frame of a device region. -/
def M.ownsRange (m : M) (w a size : Nat) : Bool :=
  (List.range ((size + 65535) / 65536)).all fun i => m.owns w (a + 65536 * i)

/-- Base of the context area and its bytes (Table 22-2, R335). -/
def World.ctxBase (wd : World) : Nat := (wd.ctx.extractLsb' 16 40).toNat * 65536
def World.ctxBlocks (wd : World) : Nat := (wd.ctx.extractLsb' 0 13).toNat
def blockBytes : Nat := 0x280000

/-- A frame of a device region of the world (R384). -/
def World.deviceFrame (wd : World) (key : Nat) : Bool :=
  let f := key / 65536
  let inside (b n : Nat) : Bool := decide (b / 65536 ≤ f) && decide (f < (b + n + 65535) / 65536)
  inside wd.ctxBase (wd.ctxBlocks * blockBytes) || inside wd.ttbBase (2 ^ 23)

/-! ## Lines (R187, R188, R384, R397, R398) -/

/-- What a line is to an access under a world, a tag and a data key. -/
inductive LineView where
  | blank
  | plain
  | garbled
  | older
  | bad
  deriving DecidableEq, Repr

/-- Lines beneath a node of a level (R189, R397). -/
def nodeLines (level : Nat) : Nat := 8 ^ (level + 1)

/-- Lines of a field. -/
def fieldLines : Nat := 2 ^ 30

/-- A line lies beneath a node of its field's hash tree (R189). -/
def beneath (line : Nat) (n : Nat × Nat × Nat) : Bool :=
  line / fieldLines == n.1 && line % fieldLines / nodeLines n.2.1 == n.2.2 / nodeLines n.2.1

/-- The path of a line in its field's hash tree does not check (R189). -/
def M.stalePath (m : M) (line : Nat) : Bool := m.stale.any (beneath line)

/-- Accesses to a line wait at its home while a node above it is repaired (R397) and while its field is in F2 or F3 (R438). -/
def M.repairing (m : M) (line : Nat) : Bool := m.failed.any (beneath line) || decide (2 ≤ (m.field (line / 2 ^ 30)).pst)

/-- The tag that a write under a world's keys gives a line (R187, R188). -/
def M.lineTag (m : M) (w key tid ver : Nat) : LineTag :=
  { world := w, key := mget 0 (m.world w).gens key, mac := (m.world w).macGen, tid := tid, ver := ver }

/-- The line's tag verifies under the access's, or only under the version before it, and its path in the hash tree checks
(R188, R189). A line written under another data key decrypts to bytes the manual does not fix (log entry 12). -/
def M.view (m : M) (line w key tid ver : Nat) : LineView :=
  if m.stalePath line then .bad
  else
    match look m.lines line with
    | none => .blank
    | some none => .bad
    | some (some t) =>
      let a := m.lineTag w key tid ver
      if t.world = w && t.mac = a.mac && t.tid = tid then
        if t.ver = ver then (if t.key = a.key then .plain else .garbled)
        else if (t.ver + 1) % 2 ^ 32 = ver then .older
        else .bad
      else .bad

/-- The n bytes of a free value (log entry 12). -/
def freeBytes (v n : Nat) : List Byte := (List.range n).map (Config.freeByte v)

/-- What a read of a line under a tag, or a partial write to it, fails with: INTEGRITY for its tag or its path,
UNCORRECTABLE_DATA for a memory error (R188, R189, R310, R316). -/
def M.lineFault (m : M) (line w key tid ver : Nat) : Option Code :=
  match m.view line w key tid ver with
  | .bad => some .integrity
  | .older => if m.ecc.contains line then some .uncorrectableData else none
  | .blank => if m.ecc.contains line then some .uncorrectableData else none
  | .plain => if m.ecc.contains line then some .uncorrectableData else none
  | .garbled => if m.ecc.contains line then some .uncorrectableData else none

/-- What a failed read reports. -/
def M.readFault (m : M) (line w key tid ver : Nat) : Code := (m.lineFault line w key tid ver).getD .integrity

/-- Read field bytes within one line; none where it fails, by `readFault`. -/
def M.fieldRead (m : M) (k n w key tid ver : Nat) : Option (List Byte) × M :=
  if (m.lineFault (k / 64) w key tid ver).isSome then (none, m)
  else
    match m.view (k / 64) w key tid ver with
    | .blank => (some (Memory.readN m.fmem k n), m)
    | .plain => (some (Memory.readN m.fmem k n), m)
    | .garbled =>
      let f := m.freeVal
      (some (freeBytes f.1 n), f.2)
    | .older => (none, m)
    | .bad => (none, m)

/-- Threads lose their reservations on a line (R206). -/
def M.loseResv (m : M) (line : Nat) : M :=
  { m with wts := mapV (fun _ wt => { wt with groups := mapV (fun _ g =>
      { g with lanes := mapV (fun _ th => if th.resv = some line then { th with resv := none } else th) g.lanes }) wt.groups }) m.wts }

/-- Write field bytes within one line (R188), whole or merged into what the line holds; none where the old line fails, by
`readFault`, and nothing is written. A write of the whole line ends a memory error of it. -/
def M.fieldWrite (m : M) (k : Nat) (bs : List Byte) (w key tid ver : Nat) : Option M :=
  let line := k / 64
  let go (m : M) : M := { m with fmem := Memory.writeL m.fmem k bs, lines := put m.lines line (some (m.lineTag w key tid ver)) }
  if bs.length = 64 then (if m.stalePath line then none else some (go { m with ecc := m.ecc.filter (· != line) }))
  else if (m.lineFault line w key tid ver).isSome then none
  else
    match m.view line w key tid ver with
    | .blank => some (go m)
    | .plain => some (go m)
    | .garbled =>
      let f := m.freeVal
      some (go { f.2 with fmem := Memory.writeL f.2.fmem (line * 64) (freeBytes f.1 64) })
    | .older => some (go { m with fmem := Memory.writeL m.fmem (line * 64) (List.replicate 64 0) })
    | .bad => none

/-- The 128 bytes of a tensor-table entry (Table 10-7). -/
def Tensor.bytes (e : Tensor) : List Byte :=
  let bit (b : Bool) (n : Nat) : Nat := if b then n else 0
  let five (f : Nat → Nat) : List Byte := (List.range 5).flatMap fun d => natBytes 8 (f d)
  natBytes 8 (e.base % 2 ^ 56)
    ++ natBytes 8 (e.ver.toNat * 2 ^ 32 + e.fmt * 4096 + e.ndim * 512 + bit e.sparse 256 + e.lclass * 64 + bit e.ro 32 + bit e.valid 16)
    ++ natBytes 8 e.fillv.toNat ++ natBytes 8 0 ++ five (fun d => e.shape[d]?.getD 0)
    ++ five (fun d => (BitVec.ofInt 64 (e.stride[d]?.getD 0)).toNat) ++ natBytes 16 0

/-- An entry of the world's table is written: its record, and its bytes in device memory, untagged (R185, log entry 7). -/
def M.putEntry (m : M) (w i : Nat) (e : Tensor) : M :=
  let a := (m.world w).ttbBase + 128 * i
  let line (m : M) (k : Nat) (bs : List Byte) : M := (m.fieldWrite k bs w 0 0 0).getD m
  line (line (m.setWorld w ((m.world w).putEntry i e)) a (e.bytes.take 64)) (a + 64) (e.bytes.drop 64)

/-! ## Leases (R193, R194, R196) -/

/-- Waits: the write-completion wait (R196). -/
def leaseWait (rem : Nat) : Nat := if rem = 0 then 0 else rem + (rem + 9999) / 10000 + 1

/-- The lease clock of a tile: a freeze has stopped it, or it runs (R192, R342). -/
def M.tileClock (m : M) (t : Nat) : Nat := (m.tile t).halt.getD m.clock

/-- A line is hot (R194). -/
def M.isHot (m : M) (_f line : Nat) : Bool := decide (m.clock < mget 0 m.hot line)

/-- The lease the home grants (Table 11-2). Of a line that falls under the read-only row and under an LCLASS row, the
read-only row is taken (log entry 81). -/
def M.grant (m : M) (f line : Nat) (lc : Lc) (lclass : Nat) (ro fresh : Bool) : Nat :=
  if fresh || lc = .none then 0
  else if ro then 4096
  else if lclass = 1 then 256
  else if lclass = 2 then 0
  else if m.isHot f line then 0
  else if lc = .long then 256 else 32

/-- The home records the latest expiry of its leases on a line (R193). -/
def M.recordLease (m : M) (_f line g : Nat) : M :=
  if g = 0 then m
  else
    let e := m.clock + g
    { m with expiry := put m.expiry line (max e (mget 0 m.expiry line)) }

/-- Remaining lease of a line at its home. -/
def M.rem (m : M) (_f line : Nat) : Nat := mget 0 m.expiry line - m.clock

/-- A store or atomic performs on a line: it becomes hot while a lease is out, and reservations on it are lost
(R194, R206). The answer is the wait (R196). -/
def M.performed (m : M) (f line : Nat) : Nat × M :=
  let r := m.rem f line
  let m1 := if r = 0 then m else { m with hot := put m.hot line (m.clock + 1024) }
  (leaseWait r, m1.loseResv line)

/-- The wait of an access runs: its group is on its tile, not saved with its world's context (R204). -/
def M.counting (m : M) (a : Access) : Bool :=
  let tl := m.tile a.tile
  a.group == 0 || tl.latch == some a.world || (tl.out == some a.world && decide (tl.spill < 6))

/-- An access that a stopped world had already sent: it completes with no one to answer (R394). -/
def Access.orphan (a : Access) : Bool := a.slot == 256

/-- A store whose wait has run out: it is complete (R196). -/
def Access.complete (a : Access) : Bool := (a.kind == .store || a.orphan) && a.phase == .done true 0

/-- A store is visible: a released SIGNAL's raises its vector (R244). -/
def M.visible (m : M) (a : Access) : M := a.vec.elim m fun v => m.raise a.world v

/-- All lease clocks that run advance together by a number of units (log entry 4): waits run down with them, and stores that are
complete leave their counters (R196, R199). -/
def M.passUnits (m : M) (n : Nat) : M :=
  let run (a : Access) : Access :=
    match a.phase with
    | .done true w => if m.counting a then { a with phase := .done true (w - n) } else a
    | _ => a
  let acc := m.acc.map run
  (acc.filter (·.complete)).foldl M.visible
    { m with
      clock := m.clock + n
      acc := acc.filter fun a => !a.complete }

/-! ## L1 (R182, R183, R195) -/

/-- Line number of a host byte, beyond the field lines. -/
def hostLine (p pa : Nat) : Nat := 2 ^ 60 + hostKey p pa / 64

/-- The tile whose L1 holds a line for a team: its own, or the slice of a fused cluster (R183). -/
def M.sliceTile (m : M) (t team va : Nat) : Nat :=
  match look m.teams team, m.launchOf team with
  | some tm, some (_, l) =>
    if l.lr.fuse && 1 < l.lr.w * l.lr.h then
      match look m.clusters tm.cluster with
      | some c =>
        let a := va / 64
        let f := ((a % 65536) ^^^ (a / 65536 % 65536)) ^^^ ((a / 2 ^ 32 % 65536) ^^^ (a / 2 ^ 48 % 4))
        match (look c.teams (f % (l.lr.w * l.lr.h))).bind (look m.teams) with
        | some tm2 => tm2.tile
        | none => t
      | none => t
    else t
  | _, _ => t

/-- A copy in the L1 whose lease still runs, under the access's tag. -/
def M.l1Hit (m : M) (t line w tid ver : Nat) : Option (List Byte) :=
  match look (m.tile t).l1 line with
  | some l =>
    if m.tileClock t < l.start + l.len && l.world = w && l.tid = tid && l.ver = ver then some l.data else none
  | none => none

/-- The place of a copy in line for eviction, the least first: streaming copies first, the last filled one before them,
copies to be kept last; among others the oldest first (R195, log entry 64). -/
def L1Line.place (l : L1Line) : Int := match l.hint with
  | .stream => -(l.seq : Int)
  | .normal => l.seq
  | .keep => l.seq + 2 ^ 64

/-- The copies left when the first in line is evicted. -/
def evicted (ls : AMap L1Line) : AMap L1Line :=
  match ls.foldl (fun (best : Option (Nat × L1Line)) x => match best with
    | none => some x
    | some b => if x.2.place < b.2.place then some x else some b) none with
  | none => ls
  | some b => del ls b.1

/-- A copy is kept; a full L1 evicts one for it (R195, R365). -/
def M.l1Put (m : M) (t line : Nat) (l : L1Line) : M :=
  let tl := m.tile t
  let rest := del tl.l1 line
  let room := 16 * m.l1Kib t
  let n := (rest.map fun x => x.2.seq).foldl max 0 + 1
  if room = 0 then m
  else m.setTile t { tl with l1 := put (if room ≤ rest.length then evicted rest else rest) line { l with seq := n } }

def M.l1Drop (m : M) (t line : Nat) : M :=
  let tl := m.tile t
  if (look tl.l1 line).isSome then m.setTile t { tl with l1 := del tl.l1 line } else m

/-! ## Translation (R322 to R326) -/

/-- Kinds of access, with their bit of DETAIL (R324). -/
inductive TKind where
  | read | write | fetch | ferry
  deriving DecidableEq, Repr

def TKind.bits : TKind → Nat
  | .read => 0 | .write => 0x100 | .fetch => 0x200 | .ferry => 0x400

/-- DETAIL: reason, level and kind (R324). -/
def detailOf (reason level : Nat) (k : TKind) : Nat := reason + 32 * level + k.bits

/-- One table entry as the walker reads it (R323). -/
inductive PEntry where
  | invalid
  | malformed
  | table (a : Nat)
  | leaf (l : Leaf)
  deriving DecidableEq, Repr

/-- Bits an address has below a level's leaf or table. -/
def levelShift (level : Nat) : Nat := if level = 0 then 43 else if level = 1 then 30 else if level = 2 then 21 else 16

/-- Entries of a level's table. -/
def levelEntries (level : Nat) : Nat := if level ≤ 1 then 8192 else if level = 2 then 512 else 32

def parseLeaf (level : Nat) (e : W64) : PEntry :=
  let homeid := (e.extractLsb' 8 8).toNat
  let homek := (e.extractLsb' 6 2).toNat
  let frame := (e.extractLsb' 16 40).toNat * 65536
  if e.extractLsb' 56 4 ≠ 0#4 || level = 0 || homek = 3 || (homek = 0 && 80 ≤ homeid) || (homek = 1 && 16 ≤ homeid)
      || (homek = 2 && 64 ≤ homeid) || frame % 2 ^ levelShift level ≠ 0 || (homek = 0 && 2 ^ 36 ≤ frame) then .malformed
  else
    .leaf { level := level, frame := frame, homek := homek, homeid := homeid, nc := e.getLsbD 5, fp := e.getLsbD 4,
            x := e.getLsbD 3, ro := e.getLsbD 2, key := (e.extractLsb' 60 4).toNat }

def parseTable (level : Nat) (e : W64) : PEntry :=
  let a := (e.extractLsb' 8 48).toNat * 256
  let size := 8 * levelEntries (level + 1)
  if e.extractLsb' 56 8 ≠ 0#8 || e.extractLsb' 2 6 ≠ 0#6 || level = 3 || a % size ≠ 0 || !devOk a size then .malformed
  else .table a

def parseEntry (level : Nat) (e : W64) : PEntry :=
  match (e.extractLsb' 0 2).toNat with
  | 0 => .invalid
  | 1 => parseTable level e
  | 2 => parseLeaf level e
  | _ => .malformed

/-- A leaf, or a fault code with DETAIL. -/
inductive TRes where
  | leaf (l : Leaf)
  | fault (c : Code) (detail : Nat)
  deriving DecidableEq, Repr

/-- The walk from a table (R324); the fuel is the number of levels left. The DETAIL of a failed table read has reason 0 and
the access's kind bits (log entry 88). -/
def M.walkFrom (m : M) (w va : Nat) (k : TKind) : Nat → Nat → Nat → TRes
  | 0, _, level => .fault .translation (detailOf 4 level k)
  | fuel + 1, a, level =>
    let ea := a + 8 * (va / 2 ^ levelShift level % levelEntries level)
    if !m.owns w ea then .fault .protection (detailOf 5 level k)
    else
      match (m.fieldRead ea 8 w 0 0 0).1 with
      | none => .fault (m.readFault (ea / 64) w 0 0 0) k.bits
      | some bs =>
        match parseEntry level (BitVec.ofNat 64 (bytesNat bs)) with
        | .invalid => .fault .translation (detailOf 3 level k)
        | .malformed => .fault .translation (detailOf 4 level k)
        | .table a2 => m.walkFrom w va k fuel a2 (level + 1)
        | .leaf l => .leaf l

/-- The root table of a world (Table 22-2). -/
def World.rootTable (wd : World) : Nat := (wd.root.extractLsb' 16 40).toNat * 65536

/-- The walk of an address from the world's root (R322, R324). -/
def M.walk (m : M) (w va : Nat) (k : TKind) : TRes :=
  m.walkFrom w va k 4 (m.world w).rootTable 0

/-- A table entry on the way of a walk lies under a node that is being repaired (R397). -/
def M.walkWaits (m : M) (w va : Nat) : Nat → Nat → Nat → Bool
  | 0, _, _ => false
  | fuel + 1, a, level =>
    let ea := a + 8 * (va / 2 ^ levelShift level % levelEntries level)
    m.owns w ea && (m.repairing (ea / 64) || match (m.fieldRead ea 8 w 0 0 0).1 with
      | none => false
      | some bs => match parseEntry level (BitVec.ofNat 64 (bytesNat bs)) with
        | .table a2 => m.walkWaits w va fuel a2 (level + 1)
        | _ => false)

/-- Address at the leaf's home. -/
def Leaf.pa (l : Leaf) (va : Nat) : Nat := l.frame + va % 2 ^ levelShift l.level

/-- Checks of an access against its leaf (R324, R384, R386, R406). -/
def M.leafCheck (m : M) (w va : Nat) (k : TKind) (l : Leaf) : Option (Code × Nat) :=
  let key := fieldKey l.homeid (l.pa va)
  let bad (r : Nat) : Option (Code × Nat) := some (.protection, detailOf r l.level k)
  if l.homek = 0 && (!m.owns w key || (m.world w).deviceFrame key) then bad 5
  else if k = .write && l.ro then bad 6
  else if k = .fetch && !l.x then bad 7
  else if k = .ferry && !l.fp then bad 8
  else if l.homek = 0 && !(m.world w).keys.contains l.key then bad 11
  else if l.homek = 1 && l.homeid ≠ w / 128 then bad 12
  else none

/-- Key of a leaf in a tile's translation cache (R325). -/
def tlbKey (w level va : Nat) : Nat := (w * 4 + level) * 2 ^ 40 + va / 2 ^ levelShift level

/-- The leaf the tile's cache holds for an address. -/
def M.tlbHit (m : M) (t w va : Nat) : Option Leaf :=
  let c := (m.tile t).tlb
  match look c (tlbKey w 3 va) with
  | some l => some l
  | none =>
    match look c (tlbKey w 2 va) with
    | some l => some l
    | none => look c (tlbKey w 1 va)

/-- Codes a walk can answer, by number. -/
def walkCode (n : Nat) : Code :=
  if n = 0x10 then .translation else if n = 0x11 then .protection else if n = 0x13 then .integrity else .uncorrectableData

/-- Keep a leaf in the tile's cache, which holds 1,024 (R325). -/
def M.tlbPut (m : M) (t w va : Nat) (l : Leaf) : M :=
  let tl := m.tile t
  let old := if 1024 ≤ tl.tlb.length then tl.tlb.drop 1 else tl.tlb
  m.setTile t { tl with tlb := put old (tlbKey w l.level va) l }

/-- Where an access goes: scratch of a tile's world, a page with its leaf, a page that must be walked, or a fault. -/
inductive Place where
  | scratch (t : Nat) (off : Nat)
  | page (l : Leaf)
  | miss
  | bad (c : Code) (detail : Nat)
  deriving DecidableEq, Repr

/-- A local window (R177): size bytes at o of a team's scratch. -/
def M.windowAt (m : M) (team o size : Nat) (k : TKind) : Place :=
  match look m.teams team with
  | some tm => if tm.scratchLen < o + size then .bad .protection (detailOf 9 0 k) else .scratch tm.tile (tm.scratch + o)
  | none => .bad .protection (detailOf 9 0 k)

/-- The local windows (Table 10-4). -/
def M.window (m : M) (team va size : Nat) (k : TKind) : Place :=
  let o := va - 0xFF000000000000
  if k = .fetch then .bad .protection (detailOf 7 0 k)
  else if o < 524288 then m.windowAt team o size k
  else
    let o2 := o - 2 ^ 32
    let i := o2 / 0x80000
    if o < 2 ^ 32 || 12 ≤ i then .bad .translation (detailOf 2 0 k)
    else
      match (look m.teams team).bind fun tm => look m.clusters tm.cluster with
      | some c =>
        if c.w * c.h ≤ i then .bad .translation (detailOf 2 0 k)
        else
          match look c.teams i with
          | some team2 => m.windowAt team2 (o2 % 0x80000) size k
          | none => .bad .protection (detailOf 9 0 k)
      | none => .bad .translation (detailOf 2 0 k)

/-- Translate for the team of a group on a tile, by the cache; `walked` holds faults of walks it has made (R324,
R325). -/
def M.place' (m : M) (t w team : Nat) (walked : AMap (Nat × Nat)) (va size : Nat) (k : TKind) : Place :=
  if 2 ^ 56 ≤ va then .bad .translation (detailOf 1 0 k)
  else if va / 2 ^ 48 = 0xFF then m.window team va size k
  else
    match look walked (va / 65536) with
    | some (c, d) => .bad (walkCode c) (d % 256 + k.bits)
    | none =>
      match m.tlbHit t w va with
      | none => .miss
      | some l =>
        match m.leafCheck w va k l with
        | some (c, d) => .bad c d
        | none => .page l

/-- The page of a world as the fetch unit and the pilot of a tile wait for it. -/
def pageKey (w va : Nat) : Nat := w * 2 ^ 40 + va / 65536

/-- Key of a fetch block: the world and the 32-byte block of an address (R58). -/
def blockKey (w va : Nat) : Nat := w * 2 ^ 51 + va / 32

/-- Start a walk for a page, or join the one under way for the world in the field (R325). -/
def M.startWalk (m : M) (t w va : Nat) : M :=
  let f := fieldOf t
  if m.walks.any fun k => k.field == f && k.world == w && k.page == va / 65536 then m
  else
    let n := m.fresh
    { n.2 with walks := n.2.walks ++ [{ id := n.1, field := f, world := w, tile := t, page := va / 65536 }] }

/-! ## Scratch and the stack cache (R173, R175, R176) -/

/-- Ask for a walk of a page for a unit of a tile, once: none when it is asked for already (R325). -/
def M.ask (m : M) (t w va : Nat) : Option M :=
  let tl := m.tile t
  if tl.asks.contains (pageKey w va) then none
  else some ((m.setTile t { tl with asks := pageKey w va :: tl.asks }).startWalk t w va)

/-- Line number of scratch, for reservations (R206). -/
def scratchLine (w t off : Nat) : Nat := 2 ^ 80 + wtKey w t * 2 ^ 20 + off / 64

def M.scratchRead (m : M) (w t off n : Nat) : List Byte := Memory.readN (m.wt w t).scratch off n

def M.scratchWrite (m : M) (w t off : Nat) (bs : List Byte) : M :=
  let wt := m.wt w t
  (m.setWT w t { wt with scratch := Memory.writeL wt.scratch off bs }).loseResv (scratchLine w t off)

/-- Put stack bytes in the tile's stack cache (R175). -/
def M.stackWrite (m : M) (w t va : Nat) (bs : List Byte) (team : Nat) (idx : W64) : M :=
  let wt := m.wt w t
  m.setWT w t { wt with
    stackc := Memory.writeL wt.stackc va bs
    stackd := (List.range bs.length).foldl (fun d i => put d (va + i) (team, idx)) wt.stackd }

/-- A stack store whose bytes the cache still holds, in part at least. -/
def WT.keeps (wt : WT) (a : Access) : Bool :=
  (List.range a.size).any fun i => look wt.stackd (a.va + i) == some (a.team, a.thread)

/-- A plain store takes the place of older stack-cache bytes of the same thread; a stack store of which none is left is
complete with it. -/
def M.stackForget (m : M) (w t va n team : Nat) (idx : W64) : M :=
  let wt := m.wt w t
  if wt.stackd.isEmpty then m
  else
    let wt1 := { wt with stackd := wt.stackd.filter fun (a, o) => !(va ≤ a && a < va + n && o == (team, idx)) }
    let gone (a : Access) : Bool := a.phase == .cached && a.world == w && a.tile == t && !wt1.keeps a
    { m.setWT w t wt1 with acc := m.acc.filter fun a => !gone a }

/-- Dirty lines of the stack cache. -/
def WT.dirtyLines (wt : WT) : List Nat := (wt.stackd.map fun (a, _) => a / 64).eraseDups

/-- Dirty lines that spans cover are to go home (R175). -/
def M.flush (m : M) (w t : Nat) (spans : List Span) : M :=
  let wt := m.wt w t
  let ls := wt.dirtyLines.filter fun l => spans.any (·.has l) && !wt.flush.contains l
  if ls.isEmpty then m else m.setWT w t { wt with flush := wt.flush ++ ls }

/-- The byte that the last staged store to an address holds (R127). -/
def stagedByte (st : List Staged) (a : Nat) : Option Byte :=
  st.foldl (fun o s => if s.va ≤ a && a < s.va + s.data.length then s.data[a - s.va]? else o) none

/-- The byte of the stack cache that an access sees: any, for a stack access; else one the thread itself stored (R28,
R175). -/
def WT.stackByte (wt : WT) (stack : Bool) (team : Nat) (idx : W64) (a : Nat) : Option Byte :=
  match look wt.stackd a with
  | some o => if stack || o == (team, idx) then some (Memory.read wt.stackc a) else none
  | none => none

/-- Bytes that a thread of a team sees before those of the home: its stack cache and its team's staged stores. -/
def M.overlay (m : M) (w t team : Nat) (idx : W64) (stack : Bool) (va n : Nat) : AMap Byte :=
  let st := ((look m.teams team).map (·.staged)).getD []
  let wt := m.wt w t
  if st.isEmpty && wt.stackd.isEmpty then []
  else
    (List.range n).filterMap fun i =>
      (match wt.stackByte stack team idx (va + i) with
       | some b => some b
       | none => stagedByte st (va + i)).map fun b => (i, b)

/-- Bytes of the home under those the thread already sees. -/
def overBytes (held : AMap Byte) (bs : List Byte) : List Byte := bs.zipIdx.map fun (b, i) => mget b held i

/-- Bytes of a block as the teams of a world on a tile see them that have staged stores there (R19, R127). -/
def M.ownViews (m : M) (t w a : Nat) (bs : List Byte) : AMap (List Byte) :=
  m.teams.filterMap fun (i, tm) =>
    if tm.world == w && tm.tile == t then
      let held := (List.range bs.length).filterMap fun j => (stagedByte tm.staged (a + j)).map fun b => (j, b)
      if held.isEmpty then none else some (i, overBytes held bs)
    else none

/-- What a team fetches in a block. -/
def FetchBlock.bytes (b : FetchBlock) (team : Nat) : List Byte := (look b.own team).getD b.data

end Sys2Proof.Machine
end

