-- ==== Sys2Proof/Machine/Access.lean ====
section
/-! DEFINITION. The accesses of a group: addresses, checks in the order of Table 12-1, counters, and where each goes
(R22, R173, R186, R195 to R200, R210 to R218, R310). -/

namespace Sys2Proof.Machine

/-- One lane's access before its checks: the effective address as computed, the address reached, whether it is a
stack access, and whether that lies outside its slot. -/
structure Want where
  lane : Nat
  th : Thread
  ea : Nat
  va : Nat
  stack : Bool := false
  lim : Bool := false
  data : List Byte := []
  tag : Option Tag := none
  early : Option Code := none
  detail : Nat := 0

/-- Effective address (R22). -/
def effAddr (g : Group) (th : Thread) (base : Opd64) (off : BitVec 24) : W64 := opdV g th base + off.signExtend 64

/-- A base that makes a stack access (R173). -/
def isStack (base : Opd64) : Bool :=
  match base with
  | .uni k => k == 63#6
  | .pair _ => false

/-- A lane's access at an effective address; a stack access reaches the thread's own slot (R173). -/
def wantAt (g : Group) (l : Nat) (th : Thread) (stack : Bool) (ea : Nat) (size : Nat) : Want :=
  let lim := g.limit.toNat
  let d := (g.span.extractLsb' 0 32).toNat
  let n := (g.span.extractLsb' 32 16).toNat
  if stack then
    { lane := l, th := th, ea := ea, va := ea + th.idx.toNat % n * d, stack := true,
      lim := decide (ea < lim) || decide (lim + d < ea + size) }
  else { lane := l, th := th, ea := ea, va := ea }

def wantOf (g : Group) (l : Nat) (th : Thread) (m : Mem) : Want :=
  wantAt g l th (isStack m.base) (effAddr g th m.base m.off).toNat m.sz.bytes

/-- Where an access of a group goes. -/
def M.placeOf (m : M) (c : Ctx) (va size : Nat) (k : TKind) : Place :=
  m.place' c.t c.w c.g.team c.g.walked va size k

/-- The instruction reaches homes of this kind (R228, R229, R424, R425). -/
def reaches (reach homek : Nat) : Bool :=
  reach = 0 || (reach = 1 && homek = 0) || (reach = 2 && homek = 2) || (reach = 3 && homek = 1)

/-- Checks after translation: the home kind, read-only tensors, the stack limit (Table 12-1). -/
def lateChecks (reach : Nat) (k : TKind) (ro lim : Bool) (l : Leaf) : Option (Code × Nat) :=
  if !reaches reach l.homek then some (.protection, detailOf 15 l.level k)
  else if k = .write && ro && l.homek ≠ 2 then some (.readonlyTensor, 0)
  else if lim then some (.stackLimit, 0)
  else none

/-- The counter an access of a line goes to (R200). -/
def Group.counterOf (g : Group) (line : Nat) : Nat :=
  (((List.range 8).find? fun i => i != 0 && (mget [] g.tags i).any fun s => s.has line)).getD 0

/-- Kind of translation an access needs. -/
def AKind.tkind : AKind → TKind
  | .load => .read
  | .ldl => .read
  | .store => .write
  | .atom _ _ _ => .write
  | .stc => .write
  | .hatom _ _ _ _ => .write

/-- What an instruction's accesses have in common. -/
structure Shape where
  kind : Want → AKind
  size : Nat
  lc : Lc := .dflt
  hint : Hint := .normal
  fresh : Bool := false
  reach : Nat := 0
  op : Nat

/-- The access of a lane as it issues. -/
def M.newAccess (m : M) (c : Ctx) (sh : Shape) (x : Want) (id : Nat) : Access :=
  let tag := x.tag.getD ((m.world c.w).threadTag x.th (x.va / 64))
  { id := id, world := c.w, tile := c.t, slot := c.slot, group := c.g.uid, team := c.g.team,
    launch := ((look m.teams c.g.team).map (·.launch)).getD 0, op := sh.op, lane := x.lane, thread := x.th.idx,
    pc := c.g.pc, kind := sh.kind x, ctr := c.g.counterOf (x.va / 64), ea := x.ea, va := x.va, size := sh.size, data := x.data,
    tid := tag.tid, ver := tag.ver, lc := sh.lc, hint := sh.hint, lclass := tag.lclass, ro := tag.ro, fresh := sh.fresh, stack := x.stack,
    lim := x.lim, reach := sh.reach, regpc := x.th.regpc, regcnt := x.th.regcnt,
    held := if (sh.kind x).isLoad then m.overlay c.w c.t c.g.team x.th.idx x.stack x.va sh.size else [] }

/-- An access by its number. -/
def M.access (m : M) (id : Nat) : Option Access := m.acc.find? (·.id == id)

/-- Remove one access. -/
def M.dropAcc (m : M) (id : Nat) : M := { m with acc := m.acc.filter (·.id != id) }

/-- Change one access; one without an owner goes once it has completed. -/
def M.setAcc (m : M) (a : Access) : M :=
  if a.orphan && a.phase == .done true 0 then m.dropAcc a.id
  else { m with acc := m.acc.map fun b => if b.id = a.id then a else b }

/-- The access has performed, or failed. -/
def Access.settled (a : Access) : Bool :=
  match a.phase with
  | .done _ _ => true
  | _ => false

/-- The accesses of an operation, in lane order. -/
def M.accOf (m : M) (g : Group) (op : Nat) : List Access := m.acc.filter fun a => a.group == g.uid && a.op == op

/-- Fault of an access, with its own address (R310). -/
def Access.fault? (a : Access) : Option LaneFault :=
  match a.res with
  | some (.fault c d) => some { lane := a.lane, code := c, addr := a.ea, detail := d }
  | _ => none

/-! ## Order at one location (R198, R206, R210, R229) -/

/-- The access is of a thread, not of the ferry, the pilot or the ticket unit. -/
def Access.byThread (a : Access) : Bool := decide (a.slot < 192) || a.orphan

/-- Where an access performs: the kind of home, the home, the address there. While it waits for its translation, what the
tables say now; kind 4 where they name no home. -/
def M.homeOf (m : M) (a : Access) : Nat × Nat × Nat :=
  if a.homek ≠ 4 then (a.homek, a.homeid, a.pa)
  else
    let r := match m.tlbHit a.tile a.world a.va with
      | some l => TRes.leaf l
      | none => m.walk a.world a.va a.kind.tkind
    match r with
    | .leaf l => (l.homek, l.homeid, l.pa a.va)
    | .fault _ _ => (4, 0, a.va)

/-- Two accesses of a world reach some byte in common. -/
def M.sameBytes (m : M) (a b : Access) : Bool :=
  let x := m.homeOf a
  let y := m.homeOf b
  x.1 == y.1 && x.2.1 == y.2.1 && decide (x.2.2 < y.2.2 + b.size) && decide (y.2.2 < x.2.2 + a.size)

/-- Two accesses of one instruction. -/
def Access.sameOp (a b : Access) : Bool := a.group != 0 && a.group == b.group && a.op == b.op

/-- Accesses of one tile to another module: at one location they perform in issue order, whoever makes them (R413). -/
def Access.tileOrder (b a : Access) : Bool := b.homek == 2 && a.homek == 2 && b.tile == a.tile

/-- An earlier access holds a later one back where they meet: it is of the same thread or instruction, or of the same tile
to another module, and has not performed. What the stack cache holds is in the way of an access that acts at the home. -/
def Access.ahead (b a : Access) : Bool :=
  decide (b.id < a.id) && b.world == a.world
    && ((b.byThread && a.byThread && ((b.team == a.team && b.thread == a.thread) || b.sameOp a)) || b.tileOrder a)
    && match b.phase with
       | .done _ _ => false
       | .cached => !((a.kind == .load && !a.fromHome) || a.kind == .store)
       | _ => true

/-- An access is an HATOM's. -/
def AKind.isHatom : AKind → Bool
  | .hatom _ _ _ _ => true
  | _ => false

/-- The lanes of an STC, and those of an HATOM, perform in lane_order wherever they reach (R229, R425). -/
def AKind.inOrder : AKind → Bool
  | .stc => true
  | .hatom _ _ _ _ => true
  | _ => false

/-- Some access besides those of a list holds this one back. -/
def M.blocked (m : M) (ids : List Nat) (a : Access) : Bool :=
  m.acc.any fun b => !ids.contains b.id && b.ahead a && ((a.kind.inOrder && b.sameOp a) || m.sameBytes a b)

/-- Another lane of a load or an atomic reaches a location of this lane and is not on its way there yet: the lanes of one
instruction perform together at one location (R198, R210). -/
def M.parted (m : M) (ids : List Nat) (a : Access) : Bool :=
  a.kind != .store && a.kind != .stc && m.acc.any fun b => !ids.contains b.id && b.sameOp a && b.phase == .walk && m.sameBytes a b

/-- Earlier accesses to the same bytes have not performed: they perform first. -/
def M.ownEarlier (m : M) (a : Access) : Bool := m.blocked [] a

/-- The accesses that perform together with one: the loads of its instruction to the line, the atomics of its instruction
to the location. -/
def M.mates (m : M) (a : Access) : List Access :=
  m.acc.filter fun b => b.id == a.id || (b.sameOp a && b.phase == a.phase && b.kind.isLoad == a.kind.isLoad
    && (if a.kind.isLoad then b.pa / 64 == a.pa / 64 else b.pa == a.pa))

/-- Accesses that perform together are held back by another, or wait for one of their own. -/
def M.heldBack (m : M) (xs : List Access) : Bool :=
  xs.any fun a => m.blocked (xs.map (·.id)) a || m.parted (xs.map (·.id)) a

/-! ## The way to a home -/

/-- The line of an access at its home. -/
def Access.line (a : Access) : Nat := if a.homek = 1 then hostLine a.homeid a.pa else fieldKey a.homeid a.pa / 64

/-- The tile whose L1 or slice answers and keeps for an access. -/
def M.sliceOf (m : M) (a : Access) : Nat := m.sliceTile a.tile a.team a.va

/-- The line of a place: a kind of home, the home and the address there. -/
def lineAt (h : Nat × Nat × Nat) : Nat := if h.1 = 1 then hostLine h.2.1 h.2.2 else fieldKey h.2.1 h.2.2 / 64

/-- A store or an atomic drops the issuing tile's copy of its line as it issues, whether its page is known or still walked
(R195). -/
def M.dropOwn (m : M) (a : Access) : M :=
  let h := m.homeOf a
  if a.kind.isLoad || a.settled || (h.1 != 0 && h.1 != 1) then m else m.l1Drop (m.sliceOf a) (lineAt h)

/-- A line that a load has read may be kept: no earlier cache maintenance forbids it, it is no line of the stack cache,
and no store or atomic that dropped it has yet to perform (R182, R195, R198, R233). -/
def M.mayKeep (m : M) (a : Access) : Bool :=
  a.keep && !a.stack && !(m.acc.any fun b =>
    let h := m.homeOf b
    !b.kind.isLoad && !b.settled && (h.1 == 0 || h.1 == 1) && lineAt h == a.line && m.sliceOf b == m.sliceOf a)

/-- The wharf link a partition's requests to a module take (R411). -/
def M.linkTo (m : M) (part module : Nat) : Option Nat :=
  let mask := mget 0 m.hearth.whmask module
  let ls := (List.range 48).filter fun i => mask.getLsbD i && m.hearth.linkUp.contains i
  if ls.isEmpty then none else ls[part % ls.length]?

/-- The partition of a world. -/
def M.partNum (m : M) (w : Nat) : Nat := (m.world w).part.getD 0

/-- A module can be reached: this module has its id, the world's PEER entry is valid and a link is up (R411, R412). -/
def M.canReach (m : M) (w module : Nat) : Bool :=
  m.hearth.modid.isSome && (mget 0 (m.world w).peers module).getLsbD 63
    && (m.linkTo (m.partNum w) module).isSome

/-- A translated access is on its way to its home (R195, R214). -/
def M.sendTo (m : M) (a : Access) (l : Leaf) : Access :=
  let a1 := { a with pa := l.pa a.va, key := l.key, nc := l.nc, roPage := l.ro, homek := l.homek, homeid := l.homeid,
                      start := m.tileClock (if l.homek = 2 then a.tile else m.sliceOf a) }
  if l.homek = 0 then { a1 with phase := .home l.homeid }
  else if l.homek = 1 then { a1 with phase := .host l.homeid }
  else if m.canReach a.world l.homeid then { a1 with phase := .remote l.homeid, link := m.linkTo (m.partNum a.world) l.homeid }
  else { a1 with phase := .done true 0, res := some (.fault .remoteUnreachable 0) }

/-- An access that ends in a fault. -/
def Access.failed (a : Access) (c : Code) (detail : Nat) : Access :=
  { a with phase := .done true 0, res := some (.fault c detail) }

/-- The access once its page's leaf is known. -/
def M.withLeaf (m : M) (a : Access) (l : Leaf) : Access :=
  match lateChecks a.reach a.kind.tkind a.ro a.lim l with
  | some (c, d) => a.failed c d
  | none => m.sendTo a l

/-- New value of an atomic (Table 12-3), with n the width in bytes. -/
def atomNew (op : AtomOp) (n : Nat) (v b c : W64) : W64 :=
  let w := 8 * n
  let cut (x : Nat) : W64 := BitVec.ofNat 64 (x % 2 ^ w)
  let sv := sextNat w (v.toNat % 2 ^ w)
  let sb := sextNat w (b.toNat % 2 ^ w)
  match op with
  | .add => cut (v.toNat + b.toNat)
  | .fadd => BitVec.ofNat 64 (addRne .f32 (v.toNat % 2 ^ 32) (b.toNat % 2 ^ 32))
  | .min => if sv ≤ sb then v else b
  | .max => if sb ≤ sv then v else b
  | .minu => if v.toNat % 2 ^ w ≤ b.toNat % 2 ^ w then v else b
  | .maxu => if b.toNat % 2 ^ w ≤ v.toNat % 2 ^ w then v else b
  | .and => v &&& b
  | .or => v ||| b
  | .xor => v ^^^ b
  | .swap => b
  | .cas => if v.toNat % 2 ^ w = c.toNat % 2 ^ w then b else v
  | .ring => if b.toNat % 2 ^ w = 0 then cut (v.toNat + 1) else cut ((v.toNat + 1) % (b.toNat % 2 ^ w))

/-- An atomic that writes nothing: a compare that fails (Table 12-3). -/
def atomSkips (op : AtomOp) (n : Nat) (v c : W64) : Bool :=
  op == .cas && v.toNat % 2 ^ (8 * n) != c.toNat % 2 ^ (8 * n)

/-- Change a thread of a group that is still the one an access belongs to. -/
def M.updThread (m : M) (a : Access) (f : Thread → Thread) : M :=
  m.updGroup a.world a.tile a.slot fun g =>
    if g.uid = a.group then { g with lanes := mapV (fun l th => if l = a.lane then f th else th) g.lanes } else g

/-- The thread of an access still reserves a line. -/
def M.reserves (m : M) (a : Access) (line : Nat) : Bool :=
  match look (m.wt a.world a.tile).groups a.slot with
  | some g => g.uid == a.group && ((look g.lanes a.lane).bind (·.resv)) == some line
  | none => false

/-- An access on its way to a scratchpad (R176, R177). -/
def Access.toScratch (a : Access) (t off : Nat) : Access := { a with phase := .scr t, homek := 3, homeid := t, pa := off }

/-- A fault of an access into a local window: the instruction reaches no scratch, the tag's tensor is read-only, or the
stack access lies outside its slot (Table 12-1, R186). -/
def scratchFault (reach : Nat) (k : TKind) (ro lim : Bool) : Option (Code × Nat) :=
  if reach = 2 || reach = 3 then some (.protection, detailOf 15 0 k)
  else if k = .write && ro then some (.readonlyTensor, 0)
  else if lim then some (.stackLimit, 0)
  else none

/-- A new access joins those under way. -/
def M.addAcc (m : M) (a : Access) : M := { m.dropOwn a with acc := m.acc ++ [a] }

/-- One lane's access of a late-faulting instruction: its faults are kept with it until it completes (R306, R308). -/
def M.lateLane (m : M) (c : Ctx) (sh : Shape) (x : Want) : M :=
  let n := m.fresh
  let m1 := n.2
  let a := m1.newAccess c sh x n.1
  let k := a.kind.tkind
  match x.early with
  | some code => m1.addAcc (a.failed code x.detail)
  | none =>
    if x.va % sh.size ≠ 0 then m1.addAcc (a.failed .alignment 0)
    else
      match m1.placeOf c x.va sh.size k with
      | .bad code d => m1.addAcc (a.failed code d)
      | .scratch t off =>
        match scratchFault sh.reach k a.ro x.lim with
        | some (code, d) => m1.addAcc (a.failed code d)
        | none => m1.addAcc (a.toScratch t off)
      | .miss => (m1.startWalk c.t c.w x.va).addAcc a
      | .page l => m1.addAcc (m1.withLeaf a l)

/-! ## Loads answered at the tile (R195, R198) -/

/-- The byte that the thread's last outstanding store gives a load at an offset (R198). -/
def M.ownByte (m : M) (a : Access) (i : Nat) : Option Byte :=
  m.acc.foldl (fun o b =>
    if b.kind == .store && b.ahead a && b.thread == a.thread && b.team == a.team && b.phase != .cached && b.homek == a.homek
        && b.homeid == a.homeid && b.pa ≤ a.pa + i && a.pa + i < b.pa + b.size then b.data[a.pa + i - b.pa]? else o) none

/-- Every byte of a load is one that the thread's stack cache, its team's staged stores or its own outstanding stores
give, and no other lane of the instruction reads it. -/
def M.forward (m : M) (a : Access) : Option (List Byte) :=
  let bs := (List.range a.size).filterMap fun i => (look a.held i).or (m.ownByte a i)
  if bs.length = a.size && !(m.acc.any fun b => b.id != a.id && b.sameOp a && m.sameBytes a b) then some bs else none

/-- What an L1 or a slice answers a load with: a copy whose lease runs, where no access holds the loads of the line
back. -/
def M.l1Answer (m : M) (a : Access) : Option (List Byte) :=
  if a.nc || a.stack || (a.homek != 0 && a.homek != 1) || m.heldBack (m.mates a) then none
  else (m.l1Hit (m.sliceOf a) a.line a.world a.tid a.ver).map fun bs => overBytes a.held ((bs.drop (a.pa % 64)).take a.size)

/-- A load under way is answered at its tile, where it can be. -/
def M.serveAt (m : M) (id : Nat) : M :=
  match m.access id with
  | none => m
  | some a =>
    if a.kind != .load || a.fresh || a.settled || a.homek = 4 then m
    else
      match (m.forward a).or (m.l1Answer a) with
      | some bs => if a.pref then m.dropAcc id else m.setAcc { a with phase := .done true 0, res := some (.data bs) }
      | none => m

/-- The accesses of an instruction are answered at the tile, where they can be. -/
def M.answerOp (m : M) (group op : Nat) : M :=
  ((m.acc.filter fun a => a.group == group && a.op == op).map (·.id)).foldl M.serveAt m

/-- Two lanes of a load read a byte in common of which they see different stack-cache bytes first. -/
def Access.seesApart (a b : Access) : Bool :=
  b.id != a.id && (List.range a.size).any fun i =>
    decide (b.va ≤ a.va + i) && decide (a.va + i < b.va + b.size) && look a.held i != look b.held (a.va + i - b.va)

/-- Lanes of one load that read the same bytes read the same value: where the stack cache would give one of them another,
its lines go home first, and these lanes read there (R175, R198). -/
def M.evenLanes (m : M) (c : Ctx) (op : Nat) : M :=
  let xs := m.accOf c.g op
  let split (a : Access) : Bool := a.group == c.g.uid && a.op == op && !a.settled && xs.any a.seesApart
  if !xs.any split then m
  else
    let st := ((look m.teams c.g.team).map (·.staged)).getD []
    let even (a : Access) : Access :=
      if split a then { a with fromHome := true, held := (List.range a.size).filterMap fun i => (stagedByte st (a.va + i)).map fun b => (i, b) }
      else a
    M.flush { m with acc := m.acc.map even } c.w c.t ((xs.filter split).flatMap fun a => [{ lo := a.va / 64, hi := (a.va + a.size - 1) / 64 }])

/-- A late-faulting instruction issues (R55, R214, R306): one access for each lane, and a pending operation. -/
def M.issueLate (m : M) (c : Ctx) (h : Hdr) (len : Nat) (nonIdem : Bool) (dest : Dest) (obj : WinObj) (sh : Nat → Shape)
    (xs : List Want) : M :=
  let n := m.fresh
  let p : Pend := { id := n.1, pc := c.g.pc, len := len, ll := true, late := true, nonIdem := nonIdem, dest := dest,
                    lanes := c.ex.map (·.1) }
  ((xs.foldl (fun m x => m.lateLane c (sh n.1) x) (n.2.beginLL c h p obj)).evenLanes c n.1).answerOp c.g.uid n.1

/-- What a lane of an instruction that is not late-faulting meets before it takes effect (R310). -/
inductive Chk where
  | go (p : Place)
  | miss
  | bad (f : LaneFault)
  deriving DecidableEq, Repr

/-- Checks of one lane in the order of Table 12-1. -/
def M.check (m : M) (c : Ctx) (k : TKind) (size reach : Nat) (x : Want) : Chk :=
  let bad (code : Code) (d : Nat) : Chk := .bad { lane := x.lane, code := code, addr := x.ea, detail := d }
  let tag := x.tag.getD ((m.world c.w).threadTag x.th (x.va / 64))
  match x.early with
  | some code => bad code x.detail
  | none =>
    if x.va % size ≠ 0 then bad .alignment 0
    else
      match m.placeOf c x.va size k with
      | .bad code d => bad code d
      | .miss => .miss
      | .scratch t off =>
        match scratchFault reach k tag.ro x.lim with
        | some (code, d) => bad code d
        | none => .go (.scratch t off)
      | .page l =>
        match lateChecks reach k tag.ro x.lim l with
        | some (code, d) => bad code d
        | none => if l.homek = 2 && !m.canReach c.w l.homeid then bad .remoteUnreachable 0 else .go (.page l)

/-- The lanes' checks: the walks still to make, the faults, and the lanes that go on. -/
structure Checked where
  miss : List Nat := []
  bad : List LaneFault := []
  go : List (Want × Place) := []

def M.checkAll (m : M) (c : Ctx) (k : TKind) (size reach : Nat) (xs : List Want) : Checked :=
  xs.foldl (fun (r : Checked) x =>
    match m.check c k size reach x with
    | .miss => { r with miss := r.miss ++ [x.va] }
    | .bad f => { r with bad := r.bad ++ [f] }
    | .go p => { r with go := r.go ++ [(x, p)] }) {}

/-- Start the walks an instruction needs; it waits for them, charged WINDOW (R310). -/
def M.startWalks (m : M) (c : Ctx) (vas : List Nat) : M := vas.foldl (fun m va => m.startWalk c.t c.w va) m

/-- A lane's store takes effect: it is on its way to scratch or to its home, in the stack cache, or staged in
deterministic mode (R127, R175, R214). -/
def M.storeLane (m : M) (c : Ctx) (sh : Shape) (x : Want) (p : Place) : M :=
  let n := m.fresh
  let a := n.2.newAccess c sh x n.1
  match p with
  | .scratch t off => n.2.addAcc (a.toScratch t off)
  | .page l =>
    let b := n.2.sendTo a l
    if m.det c.g.team then
      let st : Staged := { va := x.va, data := x.data, tid := a.tid, ver := a.ver, homek := l.homek,
                           homeid := l.homeid, pa := l.pa x.va, key := l.key, ro := a.ro, src := some b, id := n.1 }
      (n.2.dropOwn b).updTeam c.g.team fun tm => { tm with staged := tm.staged ++ [st] }
    else if x.stack && l.homek = 0 then (n.2.stackWrite c.w c.t x.va x.data c.g.team x.th.idx).addAcc { b with phase := .cached }
    else (n.2.stackForget c.w c.t x.va x.data.length c.g.team x.th.idx).addAcc b
  | .miss => m
  | .bad _ _ => m

/-- A store instruction: every lane's checks first, then the stores of the lanes that passed (R211, R310). -/
def stores (c : Ctx) (m : M) (size reach : Nat) (lc : Lc) (xs : List Want) : Res :=
  let r := m.checkAll c .write size reach xs
  if !r.miss.isEmpty then .hold (m.startWalks c r.miss) .walk
  else
    let n := m.fresh
    let sh : Shape := { kind := fun _ => .store, size := size, lc := lc, reach := reach, op := n.1 }
    let m1 := r.go.foldl (fun m (x, p) => m.storeLane c sh x p) n.2
    if r.bad.isEmpty then .done m1 else .trap m1 r.bad

/-- Rows of Table 18-2 that accesses touch: the scratch of local windows, the stack cache (R333). -/
def rowsOf (xs : List Want) : List Nat :=
  (if xs.any fun x => x.va / 2 ^ 48 == 0xFF then [4] else []) ++ if xs.any (·.stack) then [5] else []

/-- Issue an instruction that makes accesses: what its executing lanes would reach is known beforehand, so that it waits
for the rows of Table 18-2 that they touch before anything else (R168, R333). -/
def issueMem (h : Hdr) (f : Form) (s : State) (xs : Ctx → M → List Want) (body : Ctx → M → List Want → Res) :
    Host.Outcome State Fault Refusal :=
  let rows := match s.m.curG with
    | some (t, w, slot, g) => rowsOf (xs { t := t, w := w, slot := slot, g := g, ex := g.lanes.filter fun (_, th) => guardOk h th } s.m)
    | none => []
  issue h { f with touch := f.touch ++ rows } s fun c m => body c m (xs c m)

end Sys2Proof.Machine
end

