-- ==== Sys2Proof/Machine/System.lean ====
section
/-! DEFINITION. The system instructions, opcodes 0xF0 to 0xF8 but FAULTQ (R343 to R355). -/

namespace Sys2Proof.Machine

/-- A handler group may act as system software (R344). -/
def M.handler (m : M) (c : Ctx) : Bool :=
  match m.launchOf c.g.team with
  | some (_, l) => l.handler
  | none => false

/-- PROTECTION of a privileged operation outside a handler group: reason 10 (R344). -/
def unprivileged (c : Ctx) : List LaneFault := whole c.ex .protection 0 10

/-- TRAP (R345): it completes, then every executing lane takes its code. -/
def execTrap (h : Hdr) (code : BitVec 8) (s : State) : Host.Outcome State Fault Refusal :=
  issue h { len := 8, waits := true, nonIdem := true, region := true } s fun c m =>
    .after m (whole c.ex (.trap code) 0 0)

/-- RFE (R347): the token of each executing lane is resolved, in lane order; handler groups only (R344). -/
def execRfe (h : Hdr) (v : Verdict) (a : BitVec 8) (s : State) : Host.Outcome State Fault Refusal :=
  issue h { srcForm 8 (one a) with waits := true } s fun c m =>
    let parked (m : M) (x : Nat × Nat) : Bool := (look (m.wt c.w x.1).parked x.2).isSome
    match c.g.wait with
    | .ended toks => if toks.any (parked m) then .hold m (.ended toks) else .done m
    | _ =>
      if !m.handler c then .trap m (unprivileged c)
      else
        let toks := c.ex.filterMap fun (_, th) =>
          (look (m.world c.w).tokens (th.xr a.toNat).toNat).map fun tk => (tk.tile, (th.xr a.toNat).toNat)
        let m1 := c.ex.foldl (fun m (_, th) => m.resolve c.w (th.xr a.toNat).toNat v) m
        if toks.any (parked m1) then .hold m1 (.ended toks) else .done m1

/-- REGION (R304, R346): a region entry at its own address, once no late-faulting instruction is pending (R306). -/
def execRegion (h : Hdr) (s : State) : Host.Outcome State Fault Refusal :=
  issue h { len := 8, nonIdem := true } s fun c m => .done (m.onLanes c fun _ th => enterRegion c.g.pc th)

/-- YIELD (R351): a request to the slice controller from the latched world; the first in a slice ends it, and one that
comes when the slice has ended already is discarded. -/
def execYield (h : Hdr) (s : State) : Host.Outcome State Fault Refusal :=
  issue h { len := 8, waits := true, nonIdem := true, region := true } s fun c m =>
    match m.partOf c.t with
    | some p =>
      let pt := m.part p
      .done (if pt.latched == some c.w && pt.sw.isNone then m.setPart p { pt with yielded := true } else m)
    | none => .done m

/-- BKPT (R352): the group's own issue set stops, from the next cycle on. -/
def execBkpt (h : Hdr) (s : State) : Host.Outcome State Fault Refusal :=
  issue h { len := 8, waits := true } s fun c m =>
    let wt := m.wt c.w c.t
    .done (m.setWT c.w c.t { wt with dbg := { wt.dbg with next := wt.dbg.next ||| (1#4 <<< issueSet c.slot) } })

/-- A system register (Table 19-5). -/
def M.sysReg (m : M) (c : Ctx) (n : Nat) (th : Thread) : W64 :=
  let wd := m.world c.w
  let wt := m.wt c.w c.t
  if n = 1 then c.g.limit
  else if n = 2 then c.g.span
  else if n = 3 then th.regpc.setWidth 64
  else if n = 4 then th.regcnt.setWidth 64
  else if n = 0x10 then wd.tqbase
  else if n = 0x11 then wd.tqhead.setWidth 64
  else if n = 0x12 then wd.tqtail.setWidth 64
  else if n = 0x13 then wd.handlerq
  else if n % 2 = 0 then (mget 0 wt.pcbase ((n - 0x80) / 2)).setWidth 64
  else (mget 0 wt.pclimit ((n - 0x80) / 2)).setWidth 64

def execMfsr (h : Hdr) (d : Opd64) (sr : BitVec 16) (s : State) : Host.Outcome State Fault Refusal :=
  issue h (wideForm 12 d [] []) s fun c m => .done (m.setOpd c d fun th => m.sysReg c sr.toNat th)

/-- HEAD moves only over records that are there (R349). -/
def World.moveHead (wd : World) (v : W64) : World :=
  let p := v.extractLsb' 0 11
  let by' := (p - wd.tqhead).toNat
  if 0 < by' && by' ≤ (wd.tqtail - wd.tqhead).toNat then { wd with tqhead := p } else wd

/-- MTSR (R349, R353): the value of the lowest executing lane; TQHEAD by handler groups only (R344). The write takes
effect from the next cycle on. -/
def execMtsr (h : Hdr) (sr : BitVec 16) (a : Opd64) (s : State) : Host.Outcome State Fault Refusal :=
  issue h { srcForm 12 a.vecs a.unis with nonIdem := true, region := true, once := true } s fun c m =>
    let v := (lowest c.ex).elim 0 fun (_, th) => opdV c.g th a
    let wt := m.wt c.w c.t
    if sr = 0x11 && !m.handler c then .trap m (unprivileged c)
    else .done (m.setWT c.w c.t { wt with mtsr := wt.mtsr ++ [(sr.toNat, v)] })

/-- The write of one MTSR: TQHEAD (R349), or the base or limit of a PC range (Table 19-11). -/
def M.writeSr (m : M) (w t : Nat) (x : Nat × W64) : M :=
  let wt := m.wt w t
  if x.1 = 0x11 then m.setWorld w ((m.world w).moveHead x.2)
  else if x.1 % 2 = 0 then m.setWT w t { wt with pcbase := mset 0 wt.pcbase ((x.1 - 0x80) / 2) (x.2.extractLsb' 0 56) }
  else m.setWT w t { wt with pclimit := mset 0 wt.pclimit ((x.1 - 0x80) / 2) (x.2.extractLsb' 0 56) }

/-- What MTSRs, BKPTs and cleared STOP bits of a cycle wrote stands from the next cycle on (R338, R352, R353). -/
def M.settleSr (m : M) (w t : Nat) : M :=
  let wt := m.wt w t
  wt.mtsr.foldl (fun m x => m.writeSr w t x)
    (m.setWT w t { wt with mtsr := [], dbg := { wt.dbg with stop := wt.dbg.stop ||| wt.dbg.next, next := 0, lift := 0
                                                            brk := if wt.dbg.stepping.isSome then wt.dbg.brk ||| wt.dbg.next else 0 } })

/-- A counter of the account set (R354). -/
def WT.acctV (wt : WT) (sel : W64) : W64 :=
  let n := (sel.extractLsb' 0 12).toNat
  if n = 0 || (0x100 ≤ n && n < 0x140) || (0x200 ≤ n && n < 0x400) then mget 0 wt.acct n else 0

def execAcct (h : Hdr) (d : Opd64) (a : BitVec 6) (s : State) : Host.Outcome State Fault Refusal :=
  issue h { wideForm 8 d [] [a.toNat] with touch := [7] } s fun c m =>
    let v := (m.wt c.w c.t).acctV (c.g.kr a.toNat)
    .done (m.setOpd c d fun _ => v)

/-- A counter of the lane-cycle record, or of the error log (R355). -/
def WT.lrecV (wt : WT) (sel : W64) : W64 :=
  let n := (sel.extractLsb' 0 12).toNat
  if n < 5 || (0x100 ≤ n && n < 0x200 && n % 8 < 5) then mget 0 wt.lcr n
  else if n = 0x400 then wt.errs.n
  else if 0x410 ≤ n && n < 0x420 then mget 0 wt.errs.ring (n - 0x410)
  else 0

def execLrec (h : Hdr) (d : Opd64) (a : BitVec 6) (s : State) : Host.Outcome State Fault Refusal :=
  issue h { wideForm 8 d [] [a.toNat] with touch := [7] } s fun c m =>
    let v := (m.wt c.w c.t).lrecV (c.g.kr a.toNat)
    .done (m.setOpd c d fun _ => v)

end Sys2Proof.Machine
end

