-- ==== Sys2Proof/Machine/MemInstr.lean ====
section
/-! DEFINITION. The memory, fence, cache, stack-frame, tensor-table and slab instructions, opcodes 0x90 to 0xA7
(R85 to R90, R210 to R234), and FAULTQ (R348). -/

namespace Sys2Proof.Machine

/-! ## Shapes shared by these instructions -/

/-- Registers of a memory instruction: a base, data registers and others it reads, and the vector registers it writes. -/
def memForm (len : Nat) (base : Opd64) (srcs : List (Nat × Nat)) (dst : List (Nat × Nat)) (us : List Nat) : Form :=
  { len := len, vec := dst ++ base.vecs ++ srcs, src := base.vecs ++ srcs, uni := base.unis ++ us }

/-- A fresh read (R193). -/
def freshScope (sc : Scope) : Bool := sc == .partition || sc == .field || sc == .system

/-- A scope wider than TEAM (R127). -/
def wideScope (sc : Scope) : Bool := !(sc == .group || sc == .team)

/-- The lanes whose access a load performs: the lowest alone for a uniform destination (R210). -/
def loadLanes (c : Ctx) (d : DataReg) : List (Nat × Thread) :=
  match d with
  | .vec _ => c.ex
  | .uni _ => c.ex.take 1

/-- What a data register says of a result. -/
def destOf (d : DataReg) (sx : Bool) (sz : Sz) : Dest := .data d sx sz

/-- The window object of a destination (R55). -/
def objOf (d : DataReg) (sz : Sz) : WinObj := { vec := d.vecs sz, uni := d.unis }

/-- Stack bytes of the lines that lanes reach are to go home first: an atomic and a reservation act there (R205, R206). -/
def M.flushFor (m : M) (c : Ctx) (xs : List Want) : M :=
  m.flush c.w c.t (xs.map fun x => { lo := x.va / 64, hi := x.va / 64 })

/-! ## Loads and stores -/

/-- LD (R86, R214). -/
def execLd (h : Hdr) (d : DataReg) (sx : Bool) (mm : Mem) (s : State) : Host.Outcome State Fault Refusal :=
  issueMem h (memForm 12 mm.base [] (d.vecs mm.sz) d.unis) s (fun c _ => (loadLanes c d).map fun (l, th) => wantOf c.g l th mm) fun c m xs =>
    let sh (op : Nat) : Shape := { kind := fun _ => .load, size := mm.sz.bytes, lc := mm.x.lc, hint := mm.x.hint, fresh := freshScope mm.x.scope, op := op }
    .done (m.issueLate c h 12 false (destOf d sx mm.sz) (objOf d mm.sz) sh xs)

/-- ST (R86, R214). -/
def execSt (h : Hdr) (mm : Mem) (b : DataReg) (s : State) : Host.Outcome State Fault Refusal :=
  issueMem h (memForm 12 mm.base (b.vecs mm.sz) [] b.unis) s
    (fun c _ => c.ex.map fun (l, th) => { wantOf c.g l th mm with data := dataBytes c.g th b mm.sz })
    fun c m xs => stores c m mm.sz.bytes 0 mm.x.lc xs

/-- One lane of a PREF: a request for a lease that answers no lane, where it may do anything at all (R90, R215). -/
def M.prefLane (m : M) (c : Ctx) (lc : Lc) (hint : Hint) (x : Want) : M :=
  let n := m.fresh
  let sh : Shape := { kind := fun _ => .load, size := 1, lc := lc, hint := hint, op := n.1 }
  let a : Access := { n.2.newAccess c sh x n.1 with pref := true, ctr := 8 }
  if x.stack || lc = .none then m
  else
    match m.placeOf c x.va 1 .read with
    | .page l => if l.homek = 2 || l.nc then m else (n.2.addAcc (n.2.sendTo a l)).serveAt n.1
    | .miss => (n.2.startWalk c.t c.w x.va).addAcc a
    | .scratch _ _ => m
    | .bad _ _ => m

/-- PREF (R90, R215). -/
def execPref (h : Hdr) (base : Opd64) (off : BitVec 24) (lc : Lc) (hint : Hint) (s : State) :
    Host.Outcome State Fault Refusal :=
  issue h (memForm 12 base [] [] []) s fun c m =>
    .done (c.ex.foldl (fun m (l, th) => m.prefLane c lc hint (wantAt c.g l th (isStack base) (effAddr c.g th base off).toNat 1)) m)

/-- Effective address of a gather or scatter (R216). -/
def gatherAddr (g : Group) (th : Thread) (base : Opd64) (off : BitVec 24) (sidx : Bool) (sh : BitVec 3) (c : BitVec 8) : Nat :=
  let i : W64 := if sidx then (th.xr c.toNat).signExtend 64 else (th.xr c.toNat).setWidth 64
  (opdV g th base + (i <<< sh.toNat) + off.signExtend 64).toNat

def gatherWant (c : Ctx) (mm : Mem) (sidx : Bool) (sh : BitVec 3) (ci : BitVec 8) (l : Nat) (th : Thread) : Want :=
  wantAt c.g l th (isStack mm.base) (gatherAddr c.g th mm.base mm.off sidx sh ci) mm.sz.bytes

/-- LDG (R216). -/
def execLdg (h : Hdr) (d : BitVec 8) (sx sidx : Bool) (sh : BitVec 3) (ci : BitVec 8) (mm : Mem) (s : State) :
    Host.Outcome State Fault Refusal :=
  issueMem h (memForm 12 mm.base (one ci) (DataReg.vecs mm.sz (.vec d)) []) s
    (fun c _ => c.ex.map fun (l, th) => gatherWant c mm sidx sh ci l th) fun c m xs =>
    let sp (op : Nat) : Shape := { kind := fun _ => .load, size := mm.sz.bytes, lc := mm.x.lc, hint := mm.x.hint, fresh := freshScope mm.x.scope, op := op }
    .done (m.issueLate c h 12 false (destOf (.vec d) sx mm.sz) (objOf (.vec d) mm.sz) sp xs)

/-- STG (R216). -/
def execStg (h : Hdr) (mm : Mem) (sidx : Bool) (sh : BitVec 3) (ci : BitVec 8) (b : DataReg) (s : State) :
    Host.Outcome State Fault Refusal :=
  issueMem h (memForm 12 mm.base (one ci ++ b.vecs mm.sz) [] b.unis) s
    (fun c _ => c.ex.map fun (l, th) => { gatherWant c mm sidx sh ci l th with data := dataBytes c.g th b mm.sz })
    fun c m xs => stores c m mm.sz.bytes 0 mm.x.lc xs

/-! ## Slabs (R178 to R180, R223 to R226) -/

/-- A slab-table entry. -/
def WT.slab (wt : WT) (n : Nat) : Slab := mget {} wt.slabs n

def WT.setSlab (wt : WT) (n : Nat) (e : Slab) : WT := { wt with slabs := mset {} wt.slabs n e }

/-- Bytes of a span (R223). -/
def spanBytes (n : Nat) : Nat := 16 * 2 ^ n

/-- Place of a logical byte of a region with a span, from an offset (R223). -/
def swizzle (offset span o : Nat) : Nat :=
  let S := spanBytes span
  let r := o / S
  offset + r * S + 16 * ((o % S / 16) ^^^ (r % (S / 16))) + o % 16

/-- slab_place of R223. -/
def Slab.place (e : Slab) (o : Nat) : Nat := swizzle e.offset.toNat e.span.toNat o

/-- Bytes of a footprint (R223). -/
def footprint (span size : Nat) : Nat := spanBytes span * ((size + spanBytes span - 1) / spanBytes span)

/-- Operand slots of 2 KiB that a range of operand memory overlaps (R260). -/
def slotsOf (base n : Nat) : List Nat := (List.range 128).filter fun i => base < 2048 * (i + 1) && 2048 * i < base + n

/-- Operand slots of a slab in operand memory. -/
def Slab.slots (e : Slab) : List Nat :=
  if e.loc then slotsOf e.offset.toNat (footprint e.span.toNat e.size.toNat) else []

/-- An accepted pass reads a slot of the slab (R262). -/
def WT.passReads (wt : WT) (e : Slab) : Bool :=
  wt.anvil.any fun op => match op.work with
    | .mma _ _ _ _ _ => op.slots.any e.slots.contains
    | _ => false

/-- One lane of LDSL or STSL: the scratch byte it reaches, or its fault (R224). -/
def slabLane (k : TKind) (e : Slab) (size : Nat) (l : Nat) (th : Thread) (a : BitVec 8) (off : BitVec 24) : LaneFault ⊕ Nat :=
  let o : Int := (th.xr a.toNat).toNat + off.toInt
  let addr := (BitVec.ofInt 56 o).toNat
  if o % size ≠ 0 then .inl { lane := l, code := .alignment, addr := addr }
  else if e.loc then .inl { lane := l, code := .protection, addr := addr, detail := detailOf 18 0 k }
  else if o < 0 || (e.size.toNat : Int) < o + size then .inl { lane := l, code := .protection, addr := addr, detail := detailOf 9 0 k }
  else .inr (e.place o.toNat)

/-- An access of the thread itself has yet to perform at slab bytes that LDSL or STSL reaches in scratch: it performs
first (R28, R198), and the wait is charged WINDOW (log entry 91). -/
def M.windowAhead (m : M) (c : Ctx) (load : Bool) (size : Nat) (th : Thread) (x : LaneFault ⊕ Nat) : Bool :=
  match x with
  | .inl _ => false
  | .inr at' => m.acc.any fun b =>
      b.world == c.w && b.team == c.g.team && b.thread == th.idx && b.phase == .scr c.t && !(load && b.kind.isLoad)
        && decide (b.pa < at' + size) && decide (at' < b.pa + b.size)

/-- LDSL (R224): the bytes are read as it issues and written when it completes. -/
def execLdsl (h : Hdr) (d : BitVec 8) (sx : Bool) (sz : Sz) (slab : BitVec 8) (a : BitVec 8) (off : BitVec 24) (s : State) :
    Host.Outcome State Fault Refusal :=
  issue h { regForm 12 d sz.regs (one a) with touch := [1, 4] } s fun c m =>
    let wt := m.wt c.w c.t
    let e := wt.slab slab.toNat
    let r := c.ex.map fun (l, th) => (l, th, slabLane .read e sz.bytes l th a off)
    if e.st ≠ .ready then .hold m (.pend .slab)
    else if r.any fun (_, th, x) => m.windowAhead c true sz.bytes th x then .hold m (.pend .window)
    else
      let n := m.fresh
      let ok : AMap (List W32) := r.filterMap fun (l, _, x) => match x with
        | .inl _ => none
        | .inr at' =>
          let th := placeVec { idx := 0 } 0 sx sz (Memory.readN wt.scratch at' sz.bytes)
          some (l, (List.range sz.regs).map fun i => th.xr i)
      let bad := r.filterMap fun (_, _, x) => x.getLeft?
      let p : Pend := { id := n.1, pc := c.g.pc, len := 12, ll := true, late := false, nonIdem := false, dest := .quad d ok,
                        lanes := ok.map (·.1) }
      let m1 := if ok.isEmpty then n.2 else n.2.beginLL c h p { vec := [(d.toNat, sz.regs)] }
      if bad.isEmpty then .done m1 else .trap m1 bad

/-- STSL (R224). -/
def execStsl (h : Hdr) (sz : Sz) (slab : BitVec 8) (a : BitVec 8) (off : BitVec 24) (b : DataReg) (s : State) :
    Host.Outcome State Fault Refusal :=
  issue h { srcForm 12 (one a ++ b.vecs sz) b.unis with touch := [1, 4] } s fun c m =>
    let e := (m.wt c.w c.t).slab slab.toNat
    let r := c.ex.map fun (l, th) => (th, slabLane .write e sz.bytes l th a off)
    if e.st ≠ .ready then .hold m (.pend .slab)
    else if r.any fun (th, x) => m.windowAhead c false sz.bytes th x then .hold m (.pend .window)
    else
      let m1 := r.foldl (fun m (th, x) => match x with
        | .inl _ => m
        | .inr at' => m.scratchWrite c.w c.t at' (dataBytes c.g th b sz)) m
      let bad := r.filterMap fun (_, x) => x.getLeft?
      if bad.isEmpty then .done m1 else .trap m1 bad

/-- HBIND (R225). The DETAIL of its reason 9 has no kind bit (log entry 89). -/
def execHbind (h : Hdr) (slab : BitVec 8) (a : BitVec 6) (loc : Bool) (fmt : BitVec 4) (span : BitVec 3) (size : BitVec 20)
    (s : State) : Host.Outcome State Fault Refusal :=
  issue h { srcForm 12 [] [a.toNat] with nonIdem := true, region := true, once := true, touch := [1] } s fun c m =>
    let wt := m.wt c.w c.t
    let base := ((c.g.kr a.toNat).extractLsb' 0 20).toNat
    let fp := footprint span.toNat size.toNat
    let tm := (look m.teams c.g.team)
    let start := (tm.map (·.scratch)).getD 0
    let room := (tm.map (·.scratchLen)).getD 0
    let inside := if loc then decide (base + fp ≤ 2048 * 128) && (slotsOf base fp).all fun i => look wt.claims i == some c.g.team
                  else decide (base + fp ≤ room)
    if (wt.slab slab.toNat).st ≠ .empty then .trap m (whole c.ex .slotState 0 0)
    else if base % 16 ≠ 0 || !inside then .trap m (whole c.ex .protection 0 9)
    else
      let e : Slab := { st := .ready, owner := 0xFF, loc := loc, fmt := fmt, span := span, size := size,
                        offset := BitVec.ofNat 20 (if loc then base else start + base) }
      let spans := e.slots.foldl (fun sp i => mset 0 sp i span.toNat) wt.spans
      .done (m.setWT c.w c.t { wt.setSlab slab.toNat e with spans := spans })

/-- HBIND.rel (R225, R262). -/
def execHbindRel (h : Hdr) (slab : BitVec 8) (s : State) : Host.Outcome State Fault Refusal :=
  issue h { srcForm 12 [] with nonIdem := true, region := true, once := true, touch := [1] } s fun c m =>
    let wt := m.wt c.w c.t
    let e := wt.slab slab.toNat
    if e.st = .filling || e.st = .draining then .hold m (.pend .slab)
    else if e.st ≠ .ready || e.owner ≠ 0xFF then .trap m (whole c.ex .slotState 0 0)
    else if wt.passReads e then .hold m (.pend .slab)
    else .done (m.setWT c.w c.t (wt.setSlab slab.toNat { e with st := .empty }))

/-- Codes of STATE (Table 10-5). -/
def SlabState.code : SlabState → BitVec 2
  | .empty => 0 | .filling => 1 | .ready => 2 | .draining => 3

/-- A slab-table entry as four words, lowest first (Table 10-5). -/
def Slab.words (e : Slab) : List W32 :=
  let v : BitVec 128 := e.deliv ++ e.owner ++ 0#8 ++ e.fmt ++ e.span ++ BitVec.ofBool e.fill ++ e.st.code ++ 0#6 ++ e.size
    ++ e.offset ++ BitVec.ofBool e.loc ++ 0#23
  [v.extractLsb' 0 32, v.extractLsb' 32 32, v.extractLsb' 64 32, v.extractLsb' 96 32]

/-- SLABQ (R226). -/
def execSlabq (h : Hdr) (d : BitVec 8) (slab : BitVec 8) (s : State) : Host.Outcome State Fault Refusal :=
  issue h { regForm 8 d 4 [] with touch := [1] } s fun c m =>
    .done (m.onLanes c fun _ th => th.setXs d.toNat ((m.wt c.w c.t).slab slab.toNat).words)

/-! ## Tensor accesses (R217, R218) -/

/-- Where LDT or STT goes in one lane: a fault, outside the tensor, or an address with its tensor. -/
inductive TPlace where
  | bad (c : Code) (detail : Nat)
  | outside (e : Tensor)
  | at (a : Nat) (i : Nat) (e : Tensor)

/-- The offset of a dimension (R217). -/
def offOf (o0 : BitVec 24) (o : BitVec 32) (d : Nat) : Int := if d = 0 then o0.toInt else (o.extractLsb' (8 * (d - 1)) 8).toInt

/-- The element a lane names (R217). -/
def tensorLane (k : TKind) (wd : World) (g : Group) (th : Thread) (hb : BitVec 4) (a : BitVec 8) (o0 : BitVec 24) (o : BitVec 32) : TPlace :=
  let i := (th.hr hb.toNat).toNat
  match (if i = 0 then none else wd.tensor i) with
  | none => .bad .protection (detailOf 16 0 k)
  | some e =>
    let ds := List.range e.ndim
    if e.fmt = 12 || e.sparse then .bad .protection (detailOf 16 0 k)
    else if ds.any fun d => 255 < a.toNat + d || g.allot ≤ a.toNat + d then .bad .regAllot 0
    else
      let ix (d : Nat) : Int := (th.xr (a.toNat + d)).toInt + offOf o0 o d
      if ds.all fun d => 0 ≤ ix d && ix d < ((e.shape.getD d 0 : Nat) : Int) then
        .at (BitVec.ofInt 64 ((e.base : Int) + (ds.map fun d => ix d * e.stride.getD d 0).foldl (· + ·) 0)).toNat i e
      else .outside e

/-- Signed integer formats (Table 5-6): INT32, INT16, INT8. -/
def fmtSigned (f : Nat) : Bool := f = 6 || f = 8 || f = 10

/-- A lane of LDT whose element is outside under .fill: the fill value, with no access (R218). -/
def M.fillLane (m : M) (c : Ctx) (op : Nat) (l : Nat) (th : Thread) (e : Tensor) : M :=
  let n := m.fresh
  let a : Access :=
    { id := n.1, world := c.w, tile := c.t, slot := c.slot, group := c.g.uid, launch := 0, op := op, lane := l,
      thread := th.idx, pc := c.g.pc, kind := .load, ctr := 8, va := 0, size := fmtBytes e.fmt, homek := 3,
      phase := .done true 0, res := some (.data (natBytes (fmtBytes e.fmt) e.fillv.toNat)) }
  { n.2 with acc := n.2.acc ++ [a] }

/-- A lane of LDT. -/
def M.ldtLane (m : M) (c : Ctx) (fl : Bool) (x : MemX) (op l : Nat) (th : Thread) (p : TPlace) : M :=
  let sh (n : Nat) : Shape := { kind := fun _ => .load, size := n, lc := x.lc, hint := x.hint, fresh := freshScope x.scope, op := op }
  let w : Want := { lane := l, th := th, ea := 0, va := 0 }
  match p with
  | .bad code d => m.lateLane c (sh 1) { w with early := some code, detail := d }
  | .outside e => if fl then m.fillLane c op l th e else m.lateLane c (sh 1) { w with early := some .tensorBounds }
  | .at a i e => m.lateLane c (sh (fmtBytes e.fmt)) { w with ea := a, va := a, tag := some (tagOf i e) }

/-- Lanes whose coordinates, one register for each dimension of the tensor, are part of a window's object (R56, R217). -/
def Ctx.coordViolators (c : Ctx) (wd : World) (hb : BitVec 4) (a : BitVec 8) : List (Nat × Thread) :=
  c.ex.filter fun (l, th) =>
    let i := (th.hr hb.toNat).toNat
    (if i = 0 then none else wd.tensor i).any fun e => !(c.g.violators (srcForm 16 [(a.toNat, e.ndim)]) [(l, th)]).isEmpty

/-- The check of R56 for coordinates, before the instruction's own effect. -/
def M.coordsFree (m : M) (c : Ctx) (hb : BitVec 4) (a : BitVec 8) (k : Res) : Res :=
  let bad := c.coordViolators (m.world c.w) hb a
  if bad.isEmpty then k
  else
    match waitFor? (c.g.ops.filter (·.ll)) with
    | some cause => .hold m (.pend cause)
    | none => .trap m (whole bad .lookaheadViolation 0 0)

/-- The coordinate registers that LDT or STT reads, as many as the tensor of some executing lane has dimensions (R166,
R217). -/
def State.coords (s : State) (h : Hdr) (hb : BitVec 4) (a : BitVec 8) : List (Nat × Nat) :=
  match s.m.curG with
  | some (_, w, _, g) =>
    let dims := g.lanes.filterMap fun (_, th) =>
      if guardOk h th then ((s.m.world w).tensor (th.hr hb.toNat).toNat).map (·.ndim) else none
    [(a.toNat, dims.foldl max 1)]
  | none => []

/-- Where the executing lanes of LDT or STT go. -/
def M.tensorLanes (m : M) (c : Ctx) (k : TKind) (hb : BitVec 4) (a : BitVec 8) (o0 : BitVec 24) (o : BitVec 32) :
    List (Nat × Thread × TPlace) :=
  c.ex.map fun (l, th) => (l, th, tensorLane k (m.world c.w) c.g th hb a o0 o)

/-- The address a lane of LDT reaches. -/
def ldtWant (p : Nat × Thread × TPlace) : Option Want :=
  match p with
  | (l, th, .at a i e) => some { lane := l, th := th, ea := a, va := a, tag := some (tagOf i e) }
  | _ => none

/-- LDT (R217, R218). -/
def execLdt (h : Hdr) (fl : Bool) (d : BitVec 8) (hb : BitVec 4) (a : BitVec 8) (o0 : BitVec 24) (o : BitVec 32) (x : MemX)
    (s : State) : Host.Outcome State Fault Refusal :=
  issueMem h { regForm 16 d 1 (one a) with also := s.coords h hb a } s
    (fun c m => (m.tensorLanes c .read hb a o0 o).filterMap ldtWant) fun c m _ => m.coordsFree c hb a <|
    let ps := m.tensorLanes c .read hb a o0 o
    let n := m.fresh
    let sx := ps.filterMap fun (l, _, p) => match p with
      | .at _ _ e => if fmtSigned e.fmt then some l else none
      | .outside e => if fmtSigned e.fmt then some l else none
      | .bad _ _ => none
    let p : Pend := { id := n.1, pc := c.g.pc, len := 16, ll := true, late := true, nonIdem := false,
                      dest := .tens d sx, lanes := c.ex.map (·.1) }
    .done (ps.foldl (fun m (l, th, p) => m.ldtLane c fl x n.1 l th p) (n.2.beginLL c h p { vec := one d }))

/-- A lane of STT as a store: its size with it, none where .fill keeps it from storing. -/
def sttWant (fl : Bool) (dc : BitVec 8) (l : Nat) (th : Thread) (p : TPlace) : Option (Nat × Want) :=
  let w : Want := { lane := l, th := th, ea := 0, va := 0 }
  match p with
  | .bad code d => some (1, { w with early := some code, detail := d })
  | .outside _ => if fl then none else some (1, { w with early := some .tensorBounds })
  | .at a i e => some (fmtBytes e.fmt,
      { w with ea := a, va := a, tag := some (tagOf i e), data := natBytes (fmtBytes e.fmt) (th.xr dc.toNat).toNat })

/-- STT (R217, R218). The lanes' tensors may differ in element size. -/
def execStt (h : Hdr) (fl : Bool) (hb : BitVec 4) (a dc : BitVec 8) (o0 : BitVec 24) (o : BitVec 32) (x : MemX) (s : State) :
    Host.Outcome State Fault Refusal :=
  let ws (c : Ctx) (m : M) : List (Nat × Want) := (m.tensorLanes c .write hb a o0 o).filterMap fun (l, th, p) => sttWant fl dc l th p
  issueMem h { srcForm 16 (one a ++ one dc) with also := s.coords h hb a } s (fun c m => (ws c m).map (·.2))
    fun c m _ => m.coordsFree c hb a <|
    let r := (ws c m).map fun (n, w) => (n, m.checkAll c .write n 0 [w])
    let miss := r.flatMap fun (_, k) => k.miss
    let bad := r.flatMap fun (_, k) => k.bad
    if !miss.isEmpty then .hold (m.startWalks c miss) .walk
    else
      let f := m.fresh
      let m1 := r.foldl (fun m (n, k) => k.go.foldl (fun m (w, p) =>
        m.storeLane c { kind := fun _ => .store, size := n, lc := x.lc, op := f.1 } w p) m) f.2
      if bad.isEmpty then .done m1 else .trap m1 bad

/-! ## Atomics and reservations (R227 to R229) -/

/-- A lane of an atomic. -/
def atomShape (op : AtomOp) (g : Group) (sz : Sz) (b cc : DataReg) (lc : Lc) (reach : Nat) (pid : Nat) : Shape :=
  { kind := fun x => .atom op (dataV g x.th b sz) (dataV g x.th cc sz), size := sz.bytes, lc := lc, reach := reach, op := pid }

/-- ATOM (R227, R228). C is read by .cas alone. -/
def execAtom (h : Hdr) (op : AtomOp) (d : DataReg) (mm : Mem) (b cc : DataReg) (s : State) : Host.Outcome State Fault Refusal :=
  let cv := if op = .cas then cc.vecs mm.sz else []
  let cu := if op = .cas then cc.unis else []
  issueMem h { memForm 12 mm.base (b.vecs mm.sz ++ cv) (d.vecs mm.sz) (d.unis ++ b.unis ++ cu) with nonIdem := true } s
    (fun c _ => c.ex.map fun (l, th) => wantOf c.g l th mm) fun c m xs =>
    if m.det c.g.team && wideScope mm.x.scope then .trap m (whole c.ex .detScope 0 0)
    else .done ((m.flushFor c xs).issueLate c h 12 true (destOf d false mm.sz) (objOf d mm.sz)
      (atomShape op c.g mm.sz b cc mm.x.lc 1) xs)

/-- The address lies in the team's own scratch, by either window (R127, R177). -/
def M.ownScratch (m : M) (c : Ctx) (va : Nat) : Bool :=
  match m.window c.g.team va 1 .read with
  | .scratch t _ => va / 2 ^ 48 == 0xFF && t == c.t &&
      ((look m.teams c.g.team).map fun tm => va / 2 ^ 32 % 2 ^ 16 == 0 || (va - 0xFF000100000000) / 0x80000 == tm.pos).getD false
  | _ => false

/-- LDL and STC outside the team's scratch in deterministic mode (R127, R229). -/
def M.detLane (m : M) (c : Ctx) (x : Want) : Want :=
  if m.det c.g.team && !m.ownScratch c x.va then { x with early := some .detScope } else x

/-- LDL (R206, R229): the threads that execute it lose the reservations they had. -/
def execLdl (h : Hdr) (d : DataReg) (mm : Mem) (s : State) : Host.Outcome State Fault Refusal :=
  issueMem h (memForm 12 mm.base [] (d.vecs mm.sz) d.unis) s
    (fun c m => (loadLanes c d).map fun (l, th) => m.detLane c (wantOf c.g l th mm)) fun c m xs =>
    let sh (op : Nat) : Shape := { kind := fun _ => .ldl, size := mm.sz.bytes, lc := mm.x.lc, fresh := true, reach := 1, op := op }
    let m1 := (m.flushFor c xs).onLanes c fun _ th => { th with resv := none }
    .done (m1.issueLate c h 12 false (destOf d false mm.sz) (objOf d mm.sz) sh xs)

/-- STC once every lane's store has performed or failed: the status is written, and a store that performed stays
counted until its wait has run out (R206, R229). -/
def stcEnd (c : Ctx) (m : M) (d : BitVec 8) (op : Nat) : Res :=
  let as := m.accOf c.g op
  if as.any fun a => !a.settled then .hold m (.result op)
  else
    let ok (l : Nat) : Option Bool := (as.find? (·.lane == l)).bind fun a => match a.res with
      | some (.status b) => some b
      | _ => none
    let bad := as.filterMap Access.fault?
    let kept (a : Access) : Option Access :=
      if a.group == c.g.uid && a.op == op then
        (if a.res == some (.status true) && a.homek != 3 && a.phase != .done true 0 then some { a with kind := .store, res := none } else none)
      else some a
    let m1 := { m with acc := m.acc.filterMap kept }
    let m2 := m1.onLanes c fun l th => match ok l with
      | some b => th.setX d.toNat (if b then 0 else 1)
      | none => th
    if bad.isEmpty then .done m2 else .trap m2 bad

/-- STC (R206, R229). -/
def execStc (h : Hdr) (d : BitVec 8) (mm : Mem) (b : DataReg) (s : State) : Host.Outcome State Fault Refusal :=
  issueMem h { memForm 12 mm.base (b.vecs mm.sz) (one d) b.unis with nonIdem := true, region := true } s
    (fun c m => if c.g.wait.begun then [] else
      c.ex.map fun (l, th) => { m.detLane c (wantOf c.g l th mm) with data := dataBytes c.g th b mm.sz }) fun c m xs =>
    match c.g.wait with
    | .result op => stcEnd c m d op
    | _ =>
      let n := (m.flushFor c xs).fresh
      let sh : Shape := { kind := fun _ => .stc, size := mm.sz.bytes, lc := mm.x.lc, reach := 1, op := n.1 }
      stcEnd c (xs.foldl (fun m x => m.lateLane c sh x) n.2) d n.1

/-! ## Fences and counters (R199 to R203, R230 to R232) -/

/-- Lines of g + 1 granules from that of an address (R230). -/
def granules (v : W64) (g : Nat) : Span :=
  let first := (v.extractLsb' 12 44).toNat
  { lo := 64 * first, hi := 64 * (min (first + g + 1) (2 ^ 44)) - 1 }

/-- What an item names, as lines: in each executing lane the tensor of its handle, or the range (R230). -/
def M.itemSpans (m : M) (c : Ctx) (it : Item) : List Span :=
  match it with
  | .handle h => c.ex.filterMap fun (_, th) =>
      let n := (th.hr h.toNat).toNat
      if n = 0 then none else ((m.world c.w).tensor n).map (·.env)
  | .range k g => [granules (c.g.kr k.toNat) g.toNat]

/-- HULL of a counter (R199). -/
def M.hull (m : M) (g : Group) (ctr : Nat) : Option Span :=
  (m.acc.filter fun a => a.group == g.uid && a.ctr == ctr).foldl (fun (o : Option Span) a =>
    let lo := a.va / 64
    let hi := (a.va + a.size - 1) / 64
    match o with
    | none => some { lo := lo, hi := hi }
    | some s => some { lo := min s.lo lo, hi := max s.hi hi }) none

/-- Counters a fence selects (R202). -/
def M.selected (m : M) (g : Group) (items : List Span) : List Nat :=
  (List.range 8).filter fun i =>
    if i = 0 then (m.hull g 0).any fun s => items.any s.meets
    else (mget [] g.tags i).any fun s => items.any s.meets

/-- An access is of a kind that a scope includes (Table 11-3); one whose home is not known yet is. -/
def scopeTakes (sc : Scope) (t : Nat) (a : Access) : Bool :=
  if a.homek = 0 then sc != .field || a.homeid == fieldOf t
  else if a.homek = 3 then a.homeid == t || (sc != .group && sc != .team && sc != .field)
  else if a.homek = 4 then true
  else sc == .system

/-- An access is one that a direction waits for (R202). -/
def dirTakes (d : FenceDir) (a : Access) : Bool :=
  match d with
  | .acq => (match a.kind with | .store => false | .stc => false | _ => true)
  | .rel => true
  | .ar => true

/-- RECVs of the group whose value is not written count as loads (R199, R422). -/
def Group.recvs (g : Group) : List Nat :=
  (g.ops.filter fun p => match p.dest with | .recv _ _ _ => true | .msg _ _ _ => true | _ => false).map (·.id)

/-- What a fence waits for: accesses and RECVs, by number (R202). -/
def M.fenceWaits (m : M) (c : Ctx) (sel : List Nat) (dir : FenceDir) (sc : Scope) : List Nat :=
  ((m.acc.filter fun a => a.group == c.g.uid && sel.contains a.ctr && scopeTakes sc c.t a && dirTakes dir a).map (·.id)) ++
    c.g.recvs

/-- Nothing a fence waits for is left; an access whose home the scope turns out not to include no longer counts. -/
def M.fenceOver (m : M) (t : Nat) (g : Group) (ids : List Nat) (sc : Scope) : Bool :=
  !(m.acc.any fun a => a.group == g.uid && ids.contains a.id && scopeTakes sc t a) && !(g.ops.any fun p => ids.contains p.id)

/-- Stack-cache lines that go home for a fence: those its items cover, and those of the stores it waits for (R175). -/
def M.fenceFlush (m : M) (c : Ctx) (items : List Span) (ids : List Nat) : M :=
  m.flush c.w c.t (items ++ (m.acc.filter fun a => ids.contains a.id && a.phase == .cached).map fun a =>
    { lo := a.va / 64, hi := a.va / 64 })

/-- A fence of scope PARTITION or SYSTEM has waited for the seam ordering points (R201, R378). -/
def M.pastSeams (m : M) (c : Ctx) (sc : Scope) : M :=
  if sc == .partition || sc == .system then m.updGroup c.w c.t c.slot fun g => { g with seams := g.seams + 1 } else m

/-- A fence begins: it ends at once when there is nothing to wait for. -/
def fenceFor (c : Ctx) (m : M) (items : List Span) (ids : List Nat) (sc : Scope) (go : M → Res) : Res :=
  match c.g.wait with
  | .fence ids sc => .hold m (.fence ids sc)
  | .request .fence true => go (m.pastSeams c sc)
  | _ =>
    let m1 := m.fenceFlush c items ids
    if ids.isEmpty then go (m1.pastSeams c sc) else .hold m1 (.fence ids sc)

/-- FENCE (R202, R230): the stack cache writes back what the items cover (R175). -/
def execFence (h : Hdr) (dir : FenceDir) (sc : Scope) (i0 : Item) (rest : List Item) (s : State) :
    Host.Outcome State Fault Refusal :=
  let us := (i0 :: rest).flatMap fun it => match it with
    | .handle _ => []
    | .range k _ => [k.toNat]
  issue h (srcForm 16 [] us) s fun c m =>
    let items := (i0 :: rest).flatMap fun it => m.itemSpans c it
    fenceFor c m items (m.fenceWaits c (m.selected c.g items) dir sc) sc fun m => .done m

/-- FENCE.ALL (R203). -/
def execFenceAll (h : Hdr) (s : State) : Host.Outcome State Fault Refusal :=
  issue h (srcForm 8 []) s fun c m =>
    fenceFor c m [{ lo := 0, hi := 2 ^ 58 }] (m.fenceWaits c (List.range 8) .ar .system) .system fun m => .done m

/-- FENCE_END (R202): nothing the fence waits for is left. -/
def M.fenceEndOn (m : M) (t slot : Nat) : Option M :=
  match (m.tile t).latch with
  | none => none
  | some w =>
    match look (m.wt w t).groups slot with
    | none => none
    | some g =>
      match g.wait with
      | .fence ids sc => if m.fenceOver t g ids sc then some (m.updGroup w t slot fun g => { g with wait := .request .fence true }) else none
      | _ => none

def execFenceEnd (t slot : Nat) (s : State) : Host.Outcome State Fault Refusal := event s fun m => m.fenceEndOn t slot

/-- A counter's COUNT and WAIT are both zero (R199). -/
def M.counterIdle (m : M) (g : Group) (ctr : Nat) : Bool := !(m.acc.any fun a => a.group == g.uid && a.ctr == ctr)

/-- FTAG (R199, R232). -/
def execFtag (h : Hdr) (cn : BitVec 3) (it : Item) (s : State) : Host.Outcome State Fault Refusal :=
  let us := match it with
    | .handle _ => []
    | .range k _ => [k.toNat]
  issue h { srcForm 12 [] us with once := true } s fun c m =>
    if !m.counterIdle c.g cn.toNat then .hold m (.pend .fence)
    else
      let spans := m.itemSpans { c with ex := c.ex.take 1 } it
      .done (m.updGroup c.w c.t c.slot fun g => { g with tags := mset [] g.tags cn.toNat spans })

/-- FUNTAG (R199, R232). -/
def execFuntag (h : Hdr) (cn : BitVec 3) (s : State) : Host.Outcome State Fault Refusal :=
  issue h { srcForm 8 [] with once := true } s fun c m =>
    if !m.counterIdle c.g cn.toNat then .hold m (.pend .fence)
    else .done (m.updGroup c.w c.t c.slot fun g => { g with tags := del g.tags cn.toNat })

/-! ## Cache maintenance (R233) -/

/-- Line numbers of a range in each executing lane. -/
def linesOf (c : Ctx) (base : Opd64) (off : BitVec 24) (n : Nat) : List Nat :=
  (c.ex.flatMap fun (_, th) =>
    let ea := (effAddr c.g th base off).toNat
    if 2 ^ 56 ≤ ea then [] else (List.range (n + 1)).map (· + ea / 64)).filter fun l => l < 2 ^ 50

/-- The home line that an L1 would hold a line under: none where it is untranslated, unowned, scratch, remote or
non-cacheable (R233). -/
def M.homeLine (m : M) (c : Ctx) (line : Nat) : Option Nat :=
  if line / 2 ^ 42 = 0xFF then none
  else
    let l := match m.tlbHit c.t c.w (line * 64) with
      | some l => some l
      | none => match m.walk c.w (line * 64) .read with
        | .leaf l => some l
        | .fault _ _ => none
    l.bind fun l =>
      if l.nc || (m.leafCheck c.w (line * 64) .read l).isSome then none
      else if l.homek = 0 then some (fieldKey l.homeid (l.pa (line * 64)) / 64)
      else if l.homek = 1 then some (hostLine l.homeid (l.pa (line * 64)))
      else none

/-- Drop the lines from the tile's L1 or its cluster's slices; earlier loads that the L1 or slice would keep them for
keep no copy (R233). -/
def M.flushLines (m : M) (c : Ctx) (ls : List Nat) : M :=
  ls.foldl (fun m l =>
    let st := m.sliceTile c.t c.g.team (l * 64)
    let hl := m.homeLine c l
    let hit (a : Access) : Bool :=
      a.kind.isLoad && !a.settled && m.sliceOf a == st && ((a.world == c.w && a.va / 64 == l) || (a.homek != 4 && hl == some a.line))
    let m1 := hl.elim m (m.l1Drop st)
    { m1 with acc := m1.acc.map fun a => if hit a then { a with keep := false } else a }) m

/-- CFLUSH (R233). -/
def execCflush (h : Hdr) (base : Opd64) (off : BitVec 24) (n : BitVec 8) (s : State) : Host.Outcome State Fault Refusal :=
  issue h (memForm 12 base [] [] []) s fun c m => .done (m.flushLines c (linesOf c base off n.toNat))

/-- CINV (R233): also the group's earlier stores to the range perform, those in the stack cache among them, and the tile's
fetch blocks of it go (R19). -/
def execCinv (h : Hdr) (base : Opd64) (off : BitVec 24) (n : BitVec 8) (s : State) : Host.Outcome State Fault Refusal :=
  issue h (memForm 12 base [] [] []) s fun c m =>
    let ls := linesOf c base off n.toNat
    let m1 := (m.flushLines c ls).flush c.w c.t (ls.map fun l => { lo := l, hi := l })
    let late := m1.acc.any fun a => a.group == c.g.uid && !a.kind.isLoad && !a.settled && ls.contains (a.va / 64)
    if late then .hold m1 (.pend .fence)
    else
      let tl := m1.tile c.t
      let gone (k : Nat) : Bool := k / 2 ^ 51 == c.w && ls.contains (k % 2 ^ 51 / 2)
      .done (m1.setTile c.t { tl with fetch := tl.fetch.filter fun (k, _) => !gone k })

/-! ## Stack frames (R234) -/

/-- The fault that a whole instruction reports when lanes meet several: the first of Table 12-1. -/
def firstFault (fs : List LaneFault) : Option LaneFault :=
  fs.foldl (fun best f => match best with
    | none => some f
    | some b => if f.code.order < b.code.order then some f else some b) none

/-- A fault of the whole instruction in every executing lane. -/
def wholeOf (c : Ctx) (f : LaneFault) : List LaneFault := whole c.ex f.code f.addr f.detail

/-- ENTER n (R234). -/
def execEnter (h : Hdr) (n : BitVec 24) (s : State) : Host.Outcome State Fault Refusal :=
  issue h { srcForm 12 [] [62, 63] with once := true, touch := [5] } s fun c m =>
    let k63 := c.g.kr 63
    let t := k63 - n.setWidth 64
    let ea := (t + n.setWidth 64 - 8).toNat
    if k63 &&& 15#64 ≠ 0 then .trap m (whole c.ex .alignment (k63.extractLsb' 0 56).toNat 0)
    else if t.toNat < c.g.limit.toNat then .trap m (whole c.ex .stackLimit ea 0)
    else
      let xs := c.ex.map fun (l, th) => { wantAt c.g l th true ea 8 with data := natBytes 8 (c.g.kr 62).toNat }
      let r := m.checkAll c .write 8 0 xs
      if !r.miss.isEmpty then .hold (m.startWalks c r.miss) .walk
      else
        match firstFault r.bad with
        | some f => .trap m (wholeOf c f)
        | none =>
          let f := m.fresh
          let sh : Shape := { kind := fun _ => .store, size := 8, op := f.1 }
          .done ((r.go.foldl (fun m (x, p) => m.storeLane c sh x p) f.2).updGroup c.w c.t c.slot fun g => g.setK 63 t)

/-- LEAVE once its load has a result. -/
def leaveEnd (c : Ctx) (m : M) (n : BitVec 24) (op : Nat) : Res :=
  match m.accOf c.g op with
  | a :: _ =>
    if !a.settled then .hold m (.result op)
    else
      let m1 := { m with acc := m.acc.filter fun b => b.id != a.id }
      match a.res with
      | some (.data bs) =>
        .done (m1.updGroup c.w c.t c.slot fun g =>
          (g.setK 62 (BitVec.ofNat 64 (bytesNat bs))).setK 63 (g.kr 63 + n.setWidth 64))
      | some (.fault code d) => .trap m1 (whole c.ex code a.ea d)
      | some (.status _) => .done m1
      | none => .done m1
  | [] => .done m

/-- LEAVE n (R234). -/
def execLeave (h : Hdr) (n : BitVec 24) (s : State) : Host.Outcome State Fault Refusal :=
  issue h { srcForm 12 [] [62, 63] with once := true, touch := [5] } s fun c m =>
    let k63 := c.g.kr 63
    match c.g.wait with
    | .result op => leaveEnd c m n op
    | _ =>
      if k63 &&& 15#64 ≠ 0 then .trap m (whole c.ex .alignment (k63.extractLsb' 0 56).toNat 0)
      else
        let f := m.fresh
        let sh : Shape := { kind := fun _ => .load, size := 8, op := f.1 }
        let xs := (c.ex.take 1).map fun (l, th) => wantAt c.g l th true (k63 + n.setWidth 64 - 8).toNat 8
        leaveEnd c ((xs.foldl (fun m x => m.lateLane c sh x) f.2).answerOp c.g.uid f.1) n f.1

/-! ## The tensor table (R219 to R222) -/

/-- A descriptor of 128 bytes (Table 10-7), and whether its reserved fields are zero. -/
def parseTensor (bs : List Byte) : Tensor × Bool :=
  let q (o : Nat) : W64 := BitVec.ofNat 64 (bytesNat ((bs.drop o).take 8))
  let w0 := q 0
  let w1 := q 8
  let e : Tensor :=
    { base := (w0.extractLsb' 0 56).toNat, ver := w1.extractLsb' 32 32, fmt := (w1.extractLsb' 12 4).toNat,
      ndim := (w1.extractLsb' 9 3).toNat, sparse := w1.getLsbD 8, lclass := (w1.extractLsb' 6 2).toNat, ro := w1.getLsbD 5,
      valid := w1.getLsbD 4, fillv := (q 0x10).extractLsb' 0 32,
      shape := (List.range (w1.extractLsb' 9 3).toNat).map fun d => ((q (0x20 + 8 * d)).extractLsb' 0 32).toNat,
      stride := (List.range (w1.extractLsb' 9 3).toNat).map fun d => (q (0x48 + 8 * d)).toInt }
  let dims := (List.range 5).all fun d =>
    (q (0x20 + 8 * d)).extractLsb' 32 32 == 0#32 &&
      (d < e.ndim || (q (0x20 + 8 * d) == 0#64 && q (0x48 + 8 * d) == 0#64))
  (e, w0.extractLsb' 56 8 == 0#8 && w1.extractLsb' 16 16 == 0#16 && w1.extractLsb' 0 4 == 0#4
    && (q 0x10).extractLsb' 32 32 == 0#32 && q 0x18 == 0#64 && q 0x70 == 0#64 && q 0x78 == 0#64 && dims)

/-- The conditions a descriptor must meet (R220). -/
def World.accepts (wd : World) (e : Tensor) (reserved : Bool) : Bool :=
  reserved && e.valid && decide (1 ≤ e.ndim) && decide (e.ndim ≤ 5) && decide (e.fmt ≤ 12) && decide (e.lclass ≤ 2)
    && e.shape.all (fun x => decide (1 ≤ x)) && e.base % fmtBytes e.fmt == 0 && decide (0 ≤ e.lo) && decide (e.hi < 2 ^ 56)
    && !(wd.entries.any fun (_, o) => o.valid && o.env.meets e.env)

/-- A table change begins: the group waits until every tile uses the changed entry (R221). -/
def changeTable (c : Ctx) (m : M) : Res :=
  let wd := m.world c.w
  .hold (m.setWorld c.w { wd with changes := wd.changes ++ [(c.t, c.slot)] }) (.table false)

/-- Every executing lane's handle receives an index. -/
def M.bindHandle (m : M) (c : Ctx) (d : BitVec 4) (i : Nat) : M := m.onLanes c fun _ th => th.setH d.toNat (BitVec.ofNat 16 i)

/-- VERSION rises by 1 (R220). -/
def M.bumpVersion (m : M) (w i : Nat) : M :=
  let wd := m.world w
  match wd.entry i with
  | some e => m.putEntry w i { e with ver := e.ver + 1 }
  | none => m

/-- What TOPEN.w and TCLOSE.free wait for: FENCE AR PARTITION naming tensors (R220, R222). -/
def tensorFence (c : Ctx) (m : M) (is : List Nat) (go : M → Res) : Res :=
  let items := is.filterMap fun i => ((m.world c.w).tensor i).map (·.env)
  fenceFor c m items (m.fenceWaits c (m.selected c.g items) .ar .partition) .partition go

/-- The version bump of .w after its wait, then the table change (R220, R221). -/
def topenBump (c : Ctx) (m : M) (i : Nat) : Res := tensorFence c m [i] fun m => changeTable c (m.bumpVersion c.w i)

/-- The index that TOPEN names (R220). -/
def topenIndex (c : Ctx) (b : BitVec 6) : Option Nat :=
  let v := c.g.kr b.toNat
  if v.extractLsb' 16 48 ≠ 0#48 || v = 0 then none else some v.toNat

/-- TOPEN (R220, R221). -/
def execTopen (h : Hdr) (w : Bool) (d : BitVec 4) (b : BitVec 6) (s : State) : Host.Outcome State Fault Refusal :=
  issue h { srcForm 12 [] [b.toNat] with nonIdem := true, region := true, once := true } s fun c m =>
    match topenIndex c b with
    | none => .trap m (whole c.ex .tensorBounds 0 0)
    | some i =>
      match c.g.wait with
      | .table true => .done (m.bindHandle c d i)
      | .table false => .hold m (.table false)
      | _ =>
        if ((m.world c.w).tensor i).isNone then .trap m (whole c.ex .tensorBounds 0 0)
        else if w then topenBump c m i
        else .done (m.bindHandle c d i)

/-- TOPEN.new once its descriptor has been read (R220). -/
def topenNewEnd (c : Ctx) (m : M) (w : Bool) (i op : Nat) : Res :=
  let as := m.accOf c.g op
  if as.any fun a => !a.settled then .hold m (.result op)
  else
    let m1 := { m with acc := m.acc.filter fun a => !(a.group == c.g.uid && a.op == op) }
    match firstFault (as.filterMap Access.fault?) with
    | some f => .trap m1 (wholeOf c f)
    | none =>
      let bs := as.flatMap fun a => match a.res with
        | some (.data bs) => bs
        | _ => []
      let wd := m1.world c.w
      let e := parseTensor bs
      if (wd.tensor i).isSome || !wd.accepts e.1 e.2 then .trap m1 (whole c.ex .tensorBounds 0 0)
      else
        let m2 := m1.putEntry c.w i e.1
        if w then topenBump { c with g := { c.g with wait := .none } } m2 i else changeTable c m2

/-- TOPEN.new (R220, R221). -/
def execTopenNew (h : Hdr) (w : Bool) (d : BitVec 4) (b a : BitVec 6) (off : BitVec 24) (s : State) :
    Host.Outcome State Fault Refusal :=
  let descriptor (c : Ctx) : List Want :=
    let ea := (c.g.kr a.toNat + off.signExtend 64).toNat
    (c.ex.take 1).flatMap fun (l, th) => [({ lane := l, th := th, ea := ea, va := ea } : Want), { lane := l, th := th, ea := ea, va := ea + 64 }]
  issueMem h { srcForm 12 [] [b.toNat, a.toNat] with nonIdem := true, region := true, once := true } s
    (fun c _ => if c.g.wait.begun then [] else descriptor c) fun c m xs =>
    match topenIndex c b with
    | none => .trap m (whole c.ex .tensorBounds 0 0)
    | some i =>
      match c.g.wait with
      | .table true => .done (m.bindHandle c d i)
      | .table false => .hold m (.table false)
      | .result op => topenNewEnd c m w i op
      | .fence ids sc => .hold m (.fence ids sc)
      | .request .fence true => topenBump c m i
      | _ =>
        let ea := (c.g.kr a.toNat + off.signExtend 64).toNat
        if ((m.world c.w).tensor i).isSome then .trap m (whole c.ex .tensorBounds 0 0)
        else if ea % 128 ≠ 0 then .trap m (whole c.ex .alignment (ea % 2 ^ 56) 0)
        else
          let f := m.fresh
          let sh : Shape := { kind := fun _ => .load, size := 64, fresh := true, op := f.1 }
          topenNewEnd c (xs.foldl (fun m x => m.lateLane c sh x) f.2) w i f.1

/-- Valid entries that a handle names in the executing lanes, ascending (R222). -/
def M.closing (m : M) (c : Ctx) (a : BitVec 4) : List Nat :=
  let is := (c.ex.map fun (_, th) => (th.hr a.toNat).toNat).eraseDups
  (m.world c.w).entries.filterMap fun (i, e) => if e.valid && i != 0 && is.contains i then some i else none

/-- TCLOSE (R222). -/
def execTclose (h : Hdr) (free : Bool) (a : BitVec 4) (s : State) : Host.Outcome State Fault Refusal :=
  issue h { srcForm 8 [] with nonIdem := true, region := true, once := free } s fun c m =>
    let shut (m : M) : M := m.bindHandle c a 0
    if !free then .done (shut m)
    else
      match c.g.wait with
      | .table true => .done (shut m)
      | .table false => .hold m (.table false)
      | _ =>
        let is := m.closing c a
        if is.isEmpty then .done (shut m)
        else tensorFence c m is fun m =>
          let shutEntry (m : M) (i : Nat) : M := ((m.world c.w).entry i).elim m fun e => m.putEntry c.w i { e with valid := false }
          changeTable c (is.foldl shutEntry m)

/-- TABLE_CHANGE_COMPLETE (R221): every tile of the partition uses the changed entry. -/
def M.tableChanged (m : M) (w : Nat) : Option M :=
  let wd := m.world w
  match wd.changes with
  | [] => none
  | (t, slot) :: rest =>
    some ((m.setWorld w { wd with changes := rest }).updGroup w t slot fun g =>
      { g with wait := match g.wait with
                       | .table _ => .table true
                       | x => x })

def execTableChangeComplete (w : Nat) (s : State) : Host.Outcome State Fault Refusal := event s fun m => m.tableChanged w

/-! ## FAULTQ (R348) -/

/-- Key of a record slot of the trap queue. -/
def World.slotKey (wd : World) (i : Nat) : Nat := (wd.tqbase.extractLsb' 16 40).toNat * 65536 + 64 * (i % 1024)

/-- FAULTQ (R344, R348): the record, or zeros where there is none. -/
def execFaultq (h : Hdr) (d : BitVec 8) (a : BitVec 6) (s : State) : Host.Outcome State Fault Refusal :=
  issue h { regForm 8 d 16 [] with uni := [a.toNat], once := true } s fun c m =>
    let wd := m.world c.w
    let i : BitVec 11 := (c.g.kr a.toNat).extractLsb' 0 11
    if !m.handler c then .trap m (unprivileged c)
    else
      let r := if (i - wd.tqhead).toNat < (wd.tqtail - wd.tqhead).toNat then m.fieldRead (wd.slotKey i.toNat) 64 c.w 0 0 0
               else (some (List.replicate 64 0), m)
      match r.1 with
      | none => .trap m (whole c.ex (m.readFault (wd.slotKey i.toNat / 64) c.w 0 0 0) 0 0)
      | some bs =>
        let ws : List W32 := (List.range 16).map fun j => BitVec.ofNat 32 (bytesNat ((bs.drop (4 * j)).take 4))
        .done (r.2.onLanes c fun _ th => th.setXs d.toNat ws)

end Sys2Proof.Machine
end

