-- ==== Sys2Proof/Machine/Anvil.lean ====
section
/-! DEFINITION. The anvil: claims, operand layouts, format words, quarters, the step tree, acceptance and the
instructions that drive it, opcodes 0xD6 to 0xDF (R257 to R276, R289 to R297). -/

namespace Sys2Proof.Machine

/-! ## Claims (R257, R258, R289) -/

/-- The resources of a range, as keys (R281). -/
def rangeKeys (r : ClaimRange) : List Nat :=
  match r with
  | .slots a n => (List.range (n.toNat + 1)).map (· + a.toNat)
  | .tiles a n => (List.range (n.toNat + 1)).map fun i => tileKey (a.toNat + i)

/-- The team holds a resource (R258). -/
def WT.holds (wt : WT) (team key : Nat) : Bool := look wt.claims key == some team

/-- A slot as it is when it is claimed: zero bytes, span code 0; a tile cleared (R257, R259). -/
def WT.cleared (wt : WT) (key : Nat) : WT :=
  if key < 128 then
    { wt with omem := wt.omem.filter fun (a, _) => a / 2048 != key, spans := del wt.spans key }
  else { wt with accs := del wt.accs (key - 128) }

/-- Keys become free. -/
def WT.freeKeys (wt : WT) (ks : List Nat) : WT := { wt with claims := wt.claims.filter fun (k, _) => !ks.contains k }

/-- The form of an engine instruction that acts once for the group. -/
def engineForm (len : Nat) (us : List Nat) (row : Nat) : Form :=
  { len := len, uni := us, once := true, touch := [row] }

/-- Accumulator tiles a range names (R56). -/
def rangeTiles (r : ClaimRange) : List Nat :=
  match r with
  | .slots _ _ => []
  | .tiles a n => (List.range (n.toNat + 1)).map (· + a.toNat)

/-- CLAIM (R257, R289): all of the range or nothing. -/
def execClaim (h : Hdr) (r : ClaimRange) (s : State) : Host.Outcome State Fault Refusal :=
  issue h { engineForm 8 [] 1 with nonIdem := true, region := true, acc := rangeTiles r } s fun c m =>
    let wt := m.wt c.w c.t
    let ks := rangeKeys r
    if ks.any fun k => (look wt.claims k).isSome then .trap m (whole c.ex .slotState 0 0)
    else .done (m.setWT c.w c.t (ks.foldl (fun (wt : WT) k => { wt.cleared k with claims := put wt.claims k c.g.team }) wt))

/-- A slot that a slab in operand memory which is not EMPTY overlaps (R257). -/
def WT.slabOn (wt : WT) (k : Nat) : Bool := wt.slabs.any fun (_, e) => e.st != .empty && e.slots.contains k

/-- RELEASE (R257, R289): checked first; freed whole when no accepted operation names a resource of the range. -/
def execRelease (h : Hdr) (r : ClaimRange) (s : State) : Host.Outcome State Fault Refusal :=
  issue h { engineForm 8 [] 1 with nonIdem := true, region := true, acc := rangeTiles r } s fun c m =>
    let wt := m.wt c.w c.t
    let ks := rangeKeys r
    match c.g.wait with
    | .request .engine true => .done m
    | .request .engine false => .hold m (.request .engine false)
    | _ =>
      if ks.any fun k => !wt.holds c.g.team k || (k < 128 && wt.slabOn k) then .trap m (whole c.ex .slotState 0 0)
      else if ks.any wt.busyKey then
        .hold (m.setWT c.w c.t { wt with rels := wt.rels ++ [(c.slot, ks)] }) (.request .engine false)
      else .done (m.setWT c.w c.t (wt.freeKeys ks))

/-- CLAIM_RELEASE_FREE (R257): what the group's team still holds of the range that it releases becomes free. -/
def M.releaseFree (m : M) (t slot : Nat) : Option M :=
  match (m.tile t).latch with
  | none => none
  | some w =>
    let wt := m.wt w t
    match wt.rels.find? (·.1 == slot) with
    | none => none
    | some (_, ks) =>
      if ks.any wt.busyKey then none
      else
        let mine (k : Nat) : Bool := (look wt.groups slot).any fun g => wt.holds g.team k
        some ((m.setWT w t { wt.freeKeys (ks.filter mine) with rels := wt.rels.filter (·.1 != slot) }).updGroup w t slot
          fun g => { g with wait := .request .engine true })

def execClaimReleaseFree (t slot : Nat) (s : State) : Host.Outcome State Fault Refusal := event s fun m => m.releaseFree t slot

/-! ## Operand layout (R260, R261) -/

/-- Bytes an operand slot range holds, read through its layout (R260). -/
def operandByte (mem : Memory) (slot span o : Nat) : Nat := (Memory.read mem (swizzle (2048 * slot) span o)).toNat

/-- An element of w bytes at logical element index i. -/
def operandElem (mem : Memory) (slot span w i : Nat) : Nat :=
  if w = 1 then operandByte mem slot span i
  else operandByte mem slot span (2 * i) + 256 * operandByte mem slot span (2 * i + 1)

/-! ## The format word (R263 to R265) -/

def fwA (f : W32) : Nat := (f.extractLsb' 0 4).toNat
def fwB (f : W32) : Nat := (f.extractLsb' 4 4).toNat
def fwC (f : W32) : Nat := (f.extractLsb' 8 4).toNat
def fwScm (f : W32) : Nat := (f.extractLsb' 12 2).toNat

/-- The row of Table 14-5 fits the instruction. -/
def fwGood (tern : Bool) (f : W32) : Bool :=
  let a := fwA f
  let b := fwB f
  let fp8 (x : Nat) : Bool := x == 3 || x == 4
  let i8 (x : Nat) : Bool := x == 10 || x == 11
  f.extractLsb' 14 18 == 0#18 &&
    (if tern then a == 10 && b == 12 && fwC f == 6 && fwScm f == 0
     else (fp8 a && fp8 b && fwC f == 0 && decide (fwScm f ≤ 2)) || (a == 1 && b == 1 && fwC f == 0 && fwScm f == 0)
       || (a == 2 && b == 2 && fwC f == 0 && fwScm f == 0) || (i8 a && i8 b && fwC f == 6 && fwScm f == 0))

/-- The row admits .ex only (Table 14-5). -/
def fwExOnly (f : W32) : Bool := fwC f == 6

/-- The format is of 16 bits. -/
def fwWide (f : W32) : Bool := fwA f == 1 || fwA f == 2

/-- AFMT code of the accumulate format (R271). -/
def fwAfmt (f : W32) : BitVec 2 := if fwC f = 0 then 1 else 2

/-- Type of a format code as a floating format. -/
def fmtOfCode (n : Nat) : Fmt := if n = 1 then .f16 else if n = 2 then .bf16 else if n = 3 then .e4m3 else .e5m2

/-- p for R43 (Table 14-5). -/
def fwPrec (f : W32) : Nat :=
  if fwA f = 1 then 11 else if fwA f = 2 then 8 else if fwA f = 4 && fwB f = 4 then 3 else 4

/-! ## Step sums (R267, R268) -/

/-- A value times an E8M0 scale (R35). -/
def scaleFV (v : FV) (e : Nat) : FV :=
  if e = 0xFF then .nan
  else match v with
    | .fin m x => .fin m (x + e - 127)
    | .nan => .nan
    | .inf n => .inf n
    | .zero n => .zero n

/-- Product k of element (m, n), with its scales (R267). -/
def mmaProduct (ac : AccClass) (f : W32) (q : Quarter) (mem : Memory) (mi n k : Nat) : FV :=
  let w := if fwWide f then 2 else 1
  let p := classProduct ac (fwPrec f) (fvOf (fmtOfCode (fwA f)) (operandElem mem q.a q.aspan w (128 * mi + k)))
    (fvOf (fmtOfCode (fwB f)) (operandElem mem q.b q.bspan w (128 * n + k)))
  let sc (o : Nat) : Nat := operandByte mem q.scale 0 o
  if fwScm f = 1 then scaleFV (scaleFV p (sc (4 * mi + k / 32))) (sc (64 + 4 * n + k / 32))
  else if fwScm f = 2 then scaleFV (scaleFV p (sc 0)) (sc 64)
  else p

/-- An integer operand element, INT8 or UINT8 (R267). -/
def int8Elem (code v : Nat) : Int := if code = 10 then sextNat 8 v else (v : Int)

/-- The ternary code of weight i (Table 14-3, R36). -/
def ternCode (mem : Memory) (slot span i : Nat) : Nat := operandByte mem slot span (i / 4) / 2 ^ (2 * (i % 4)) % 4

/-- The step sum of element (m, n) (R267, R268). -/
def stepSum (tern : Bool) (ac : AccClass) (f : W32) (q : Quarter) (mem : Memory) (mi n : Nat) : W32 :=
  let ks := List.range 128
  if tern then
    BitVec.ofInt 32 ((ks.map fun k =>
      let a := sextNat 8 (operandByte mem q.a q.aspan (128 * mi + k))
      let b := ternCode mem q.b q.bspan (128 * n + k)
      if b = 1 then a else if b = 3 then -a else 0).foldl (· + ·) 0)
  else if fwC f = 6 then
    BitVec.ofInt 32 ((ks.map fun k =>
      int8Elem (fwA f) (operandByte mem q.a q.aspan (128 * mi + k)) * int8Elem (fwB f) (operandByte mem q.b q.bspan (128 * n + k))).foldl
        (· + ·) 0)
  else if fwWide f then
    BitVec.ofNat 32 (treeSum .f32 7 (ks.map fun k => roundFV .f32 .rne false (mmaProduct ac f q mem mi n k)))
  else BitVec.ofNat 32 (exactSum .f32 .rne false (ks.map fun k => mmaProduct ac f q mem mi n k))

/-- A plane of 16 by 16 elements. -/
def planeOf (v : Nat → Nat → W32) : AMap W32 :=
  (List.range 256).foldl (fun p i => mset 0 p i (v (i / 16) (i % 16))) []

/-- Some ternary code of a quarter is 0b10 (R268). -/
def badCodes (q : Quarter) (mem : Memory) : Bool := (List.range 2048).any fun i => ternCode mem q.b q.bspan i == 2

/-! ## The step tree (R271 to R273) -/

/-- An accumulator tile. -/
def WT.accTile (wt : WT) (a : Nat) : AccTile := mget {} wt.accs a

def AccTile.plane (t : AccTile) (i : Nat) : AMap W32 := mget [] t.planes i

/-- add_plane (R271). -/
def addPlane (afmt : BitVec 2) (x y : AMap W32) : AMap W32 :=
  planeOf fun r c =>
    let i := 16 * r + c
    if afmt = 2 then mget 0 x i + mget 0 y i else BitVec.ofNat 32 (addRne .f32 (mget 0 x i).toNat (mget 0 y i).toNat)

/-- Merge upward from a level while the index has its bit set, and place the plane (R271, R272). -/
def treePut (t : AccTile) (afmt : BitVec 2) (idx : Nat) : Nat → Nat → AMap W32 → AccTile
  | 0, level, v => { t with planes := put t.planes level v, pres := t.pres ||| (1#6 <<< level) }
  | fuel + 1, level, v =>
    if idx % 2 = 1 then
      treePut { t with pres := t.pres &&& ~~~(1#6 <<< level) } afmt (idx / 2) fuel (level + 1)
        (if t.pres.getLsbD level then addPlane afmt (t.plane level) v else v)
    else { t with planes := put t.planes level v, pres := t.pres ||| (1#6 <<< level) }

/-- step_combine (R271). -/
def stepCombine (t : AccTile) (afmt : BitVec 2) (k : Nat) (v : AMap W32) : AccTile :=
  treePut { t with afmt := afmt } afmt k 5 0 v

/-- tree_insert (R272). -/
def treeInsert (t : AccTile) (afmt : BitVec 2) (l c : Nat) (v : AMap W32) : AccTile :=
  treePut { t with afmt := afmt } afmt c (5 - l) l v

/-- acc_fin (R273). -/
def accFin (t : AccTile) : AccTile :=
  if t.fin then t
  else
    let v := (List.range 6).foldl (fun (v : Option (AMap W32)) i =>
      if t.pres.getLsbD i then
        match v with
        | none => some (t.plane i)
        | some x => some (addPlane t.afmt (t.plane i) x)
      else v) none
    { t with planes := put t.planes 0 (v.getD []), pres := 0, fin := true }

/-- A combine is forbidden by FIN or AFMT (R271). -/
def AccTile.forbids (t : AccTile) (afmt : BitVec 2) : Bool := t.fin || (t.pres != 0 && t.afmt != afmt)

/-- The status word (Table 14-2). -/
def AccTile.status (t : AccTile) : W64 :=
  0#48 ++ BitVec.ofBool t.bad ++ BitVec.ofBool t.fin ++ t.afmt ++ 0#6 ++ t.pres

/-! ## What accepted operations do (R270) -/

def WT.setAcc (wt : WT) (a : Nat) (t : AccTile) : WT := { wt with accs := mset {} wt.accs a t }

/-- One quarter takes effect on its tile (R267, R268, R271). -/
def WT.quarterDone (wt : WT) (tern : Bool) (ac : AccClass) (f : W32) (q : Quarter) (mem : Memory) : WT :=
  let t := wt.accTile q.tile
  let t1 := stepCombine t (fwAfmt f) q.k (planeOf fun mi n => stepSum tern ac f q mem mi n)
  wt.setAcc q.tile (if tern && badCodes q mem then { t1 with bad := true } else t1)

/-- Elements of half H of a plane that a lane holds: element (m, n0 + i) (R294). -/
def laneElems (half : Bool) (l : Nat) : List Nat :=
  let mi := (if half then 8 else 0) + l / 4
  (List.range 4).map fun i => 16 * mi + 4 * (l % 4) + i

/-- What ACCRD reads in a lane (R294). -/
def AccTile.laneRead (t : AccTile) (p : Nat) (half : Bool) (l : Nat) : List W32 :=
  if p = 6 then [t.status.extractLsb' 0 32, t.status.extractLsb' 32 32, 0, 0]
  else (laneElems half l).map fun i => mget 0 (t.plane p) i

/-- What ACCWR writes (R295). -/
def AccTile.laneWrite (t : AccTile) (af p : Nat) (half : Bool) (vals : AMap (List W32)) : AccTile :=
  let plane := vals.foldl (fun pl (l, ws) => (ws.zip (laneElems half l)).foldl (fun pl (v, i) => mset 0 pl i v) pl) (t.plane p)
  { t with planes := put t.planes p plane, afmt := BitVec.ofNat 2 af, pres := t.pres ||| (1#6 <<< p), fin := false }

/-- An operation other than MMA and MMAT takes effect on the tiles; all quarters of an MMA do here at once, for the
checks of later operations. -/
def AnvilWork.apply (k : AnvilWork) (wt : WT) : WT :=
  match k with
  | .mma tern ac f qs mem => qs.foldl (fun wt q => wt.quarterDone tern ac f q mem) wt
  | .zero ts => ts.foldl (fun wt a => wt.setAcc a {}) wt
  | .read _ _ _ => wt
  | .write a af p half vals => wt.setAcc a ((wt.accTile a).laneWrite af p half vals)
  | .bad a v => wt.setAcc a { wt.accTile a with bad := v }
  | .tree d a l c =>
    let src := wt.accTile a
    wt.setAcc d (treeInsert (wt.accTile d) src.afmt l c (src.plane 0))
  | .fin a => wt.setAcc a (accFin (wt.accTile a))

/-- The tiles as the operations accepted so far will leave them: what the checks at issue see (log entry 21). -/
def WT.ahead (wt : WT) : WT := wt.anvil.foldl (fun wt op => op.work.apply wt) wt

/-- Release what an ended team still holds once nothing accepted names it (R257). -/
def M.freeEnded (m : M) (w t : Nat) : M :=
  let wt := m.wt w t
  let live (tm : Nat) : Bool := ((look m.teams tm).map fun x => !x.ended).getD false
  m.setWT w t { wt with claims := wt.claims.filter fun (k, tm) => wt.busyKey k || live tm }

/-- Slabs whose release from READY to EMPTY is due go, but for those that an accepted pass reads: these wait (R262). -/
def WT.freeOrphans (wt : WT) : WT :=
  { wt with slabs := mapV (fun _ e =>
      if e.going && e.st == .ready && !wt.passReads e then { e with st := .empty, going := false } else e) wt.slabs }

/-- The READY slabs of a chain that no node still to finish names are released: a halt has left them behind (R255). -/
def WT.orphan (wt : WT) (ch : Nat) : WT :=
  let named (i : Nat) : Bool := (mget {} wt.chains ch).nodes.any fun n => !n.finishing && n.descs.any (·.slab == i)
  WT.freeOrphans { wt with slabs := mapV (fun i e =>
      if e.st == .ready && e.owner == BitVec.ofNat 8 ch && !named i then { e with going := true } else e) wt.slabs }

/-- An operation has finished: its group's pending instruction can complete, an ACCRD's with what it read. -/
def M.anvilFinish (m : M) (w t : Nat) (op : AnvilOp) : M :=
  let wt := m.wt w t
  let m1 := m.setWT w t (WT.freeOrphans { wt with anvil := wt.anvil.filter (·.id != op.id) })
  let done (p : Pend) : Pend :=
    match op.work with
    | .read a pl half =>
      let dest : Dest := match p.dest with
        | .quad d _ => .quad d (p.lanes.map fun l => (l, (wt.accTile a).laneRead pl half l))
        | x => x
      { p with ready := true, dest := dest }
    | _ => { p with ready := true }
  let m2 := m1.updGroup w t op.slot fun g =>
    if g.uid = op.group then { g with ops := g.ops.map fun p => if p.id = op.op then done p else p } else g
  m2.freeEnded w t

/-- Operations at the head that are no MMA take effect at once (R270). -/
def M.anvilDrain (m : M) (w t : Nat) : Nat → M
  | 0 => m
  | fuel + 1 =>
    let wt := m.wt w t
    match wt.anvil with
    | [] => m
    | op :: _ =>
      match op.work with
      | .mma _ _ _ _ _ => m
      | k => M.anvilDrain ((m.setWT w t (k.apply wt)).anvilFinish w t op) w t fuel

/-- ANVIL_PASS_COMPLETE (R269, R271): the next quarter of the oldest accepted MMA takes effect, once the array has been
occupied for the cycles of Table 14-6. -/
def M.passDone (m : M) (t : Nat) : Option M :=
  match (m.tile t).latch with
  | none => none
  | some w =>
    let wt := m.wt w t
    match wt.anvil with
    | [] => none
    | op :: rest =>
      match op.work with
      | .mma tern ac f (q :: qs) mem =>
        if (m.tile t).cycle < op.fin then none else
        let wt1 := wt.quarterDone tern ac f q mem
        let m1 := m.setWT w t { wt1 with anvil := { op with work := .mma tern ac f qs mem } :: rest }
        some ((if qs.isEmpty then m1.anvilFinish w t op else m1).anvilDrain w t (rest.length + 1))
      | .mma _ _ _ [] _ => some (m.anvilFinish w t op)
      | _ => some (m.anvilDrain w t (rest.length + 1))

def execAnvilPassComplete (t : Nat) (s : State) : Host.Outcome State Fault Refusal := event s fun m => m.passDone t

/-! ## Acceptance (R270, R278) -/

/-- The cycle in which the array has finished all it has accepted (Table 14-6). -/
def WT.arrayEnd (wt : WT) (now : Nat) : Nat := wt.anvil.foldl (fun a op => max a op.fin) now

/-- The anvil takes an operation now: at most 64 cycles accepted, one operation a cycle. -/
def M.anvilTakes (m : M) (w t occ : Nat) : Bool :=
  decide ((m.wt w t).arrayEnd (m.tile t).cycle + occ ≤ (m.tile t).cycle + 64) && !(((m.tile t).issued ++ (m.tile t).past).any (·.anvil))

/-- The group's request, if it has one, leaves the anvil's queue. -/
def M.unask (m : M) (c : Ctx) : M :=
  let wt := m.wt c.w c.t
  m.setWT c.w c.t { wt with anvilq := wt.anvilq.filter (·.group != c.g.uid) }

/-- The anvil takes the group's operation now: its request is the first, or none waits (R270). -/
def M.engineNow (m : M) (c : Ctx) (occ : Nat) : Bool :=
  m.anvilTakes c.w c.t occ && match c.g.wait with
    | .request .engine d => d
    | _ => (m.wt c.w c.t).anvilq.isEmpty

/-- Wait for the anvil, charged ENGINE, in order of arrival (R270). -/
def engineWait (c : Ctx) (m : M) (occ : Nat) : Res :=
  match c.g.wait with
  | .request .engine d => .hold m (.request .engine d)
  | _ =>
    let wt := m.wt c.w c.t
    .hold (m.setWT c.w c.t { wt with anvilq := wt.anvilq ++ [{ slot := c.slot, group := c.g.uid, occ := occ }] })
      (.request .engine false)

/-- The anvil accepts an operation (R270). -/
def acceptOp (c : Ctx) (m : M) (occ : Nat) (op : AnvilOp) (eff : M → M) : Res :=
  let m0 := m.unask c
  let wt := m0.wt c.w c.t
  .done ((eff (m0.setWT c.w c.t { wt with anvil := wt.anvil ++ [{ op with fin := wt.arrayEnd (m0.tile c.t).cycle + occ }] })).anvilDrain c.w c.t
    (wt.anvil.length + 1))

/-- ANVIL_ACCEPT (R270): the oldest request is admitted when the occupancy allows; its group issues next. -/
def M.anvilAdmit (m : M) (t slot : Nat) : Option M :=
  match (m.tile t).latch with
  | none => none
  | some w =>
    match (m.wt w t).anvilq with
    | [] => none
    | r :: _ =>
      match look (m.wt w t).groups slot with
      | none => none
      | some g =>
        if r.slot = slot && r.group = g.uid && g.wait == .request .engine false && m.anvilTakes w t r.occ then
          some (m.updGroup w t slot fun g => { g with wait := .request .engine true })
        else none

def execAnvilAccept (t slot : Nat) (s : State) : Host.Outcome State Fault Refusal := event s fun m => m.anvilAdmit t slot

/-- An operation of the current group. -/
def mkOp (c : Ctx) (id op : Nat) (slots tiles : List Nat) (k : AnvilWork) : AnvilOp :=
  { id := id, slot := c.slot, group := c.g.uid, op := op, slots := slots, tiles := tiles, work := k }

/-- An operation that is not long-latency: accepted and done for its group. -/
def acceptPlain (c : Ctx) (m : M) (tiles : List Nat) (k : AnvilWork) : Res :=
  let f := m.fresh
  acceptOp c f.2 0 (mkOp c f.1 0 [] tiles k) fun m => m

/-- The form of an instruction on accumulator tiles. -/
def anvilForm (len : Nat) (vec src : List (Nat × Nat)) (us acc : List Nat) (row : Nat) : Form :=
  { len := len, vec := vec, src := src, uni := us, acc := acc, anvil := true, touch := [row] }

/-! ## OFILL (R290) -/

/-- The slots OFILL writes, or none when it may not (R290). -/
def ofillSlots (wt : WT) (team d hi : Nat) : Option (List Nat) :=
  if !wt.holds team d then none
  else if hi ≤ 2048 then some [d]
  else if hi ≤ 4096 && d % 2 = 0 && wt.holds team (d + 1) then some [d, d + 1]
  else none

/-- Slabs in operand memory that overlap slots are all READY, or EMPTY (R180, R262). -/
def WT.slabsReady (wt : WT) (slots : List Nat) : Bool :=
  wt.slabs.all fun (_, e) => e.st == .empty || e.st == .ready || !(e.slots.any slots.contains)

/-- OFILL. -/
def execOfill (h : Hdr) (span : BitVec 3) (d : BitVec 7) (b : BitVec 6) (a : BitVec 8) (s : State) :
    Host.Outcome State Fault Refusal :=
  issue h (anvilForm 8 [(a.toNat, 4)] [(a.toNat, 4)] [b.toNat] [] 3) s fun c m =>
    let wt := m.wt c.w c.t
    let c0 := ((c.g.kr b.toNat).extractLsb' 0 8).toNat
    let hi := 16 * (c0 + (c.ex.map (·.1)).foldl max 0) + 16
    match ofillSlots wt c.g.team d.toNat hi with
    | none => .trap m (whole c.ex .slotState 0 0)
    | some sl =>
      if !wt.slabsReady sl then .hold (m.unask c) (.pend .slab)
      else if wt.anvil.any fun op => op.slots.any sl.contains then .hold (m.unask c) (.pend .engine)
      else if !m.engineNow c 0 then engineWait c m 0
      else
        let fill (m : M) : M :=
          let wt := m.wt c.w c.t
          let om := c.ex.foldl (fun om (l, th) =>
            Memory.writeL om (swizzle (2048 * d.toNat) span.toNat (16 * (c0 + l))) (dataBytes c.g th (.vec a) .b16)) wt.omem
          m.setWT c.w c.t { wt with omem := om, spans := sl.foldl (fun sp i => mset 0 sp i span.toNat) wt.spans }
        let f := m.fresh
        acceptOp c f.2 0 (mkOp c f.1 0 [] [] (.zero [])) fill

/-! ## MMA and MMAT (R262, R266, R276, R291, R292) -/

/-- The operand set of a quarter, from its lowest executing lane (Table 15-4). -/
def quarterOf (q : Nat) (th : Thread) (d a b : BitVec 8) (koff : BitVec 8) : Quarter :=
  let x := th.xr a.toNat
  { q := q, tile := (x.extractLsb' 24 6).toNat, scale := (x.extractLsb' 16 7).toNat, b := (x.extractLsb' 8 7).toNat,
    a := (x.extractLsb' 0 7).toNat, aspan := ((th.xr b.toNat).extractLsb' 0 3).toNat,
    bspan := ((th.xr (b.toNat + 1)).extractLsb' 0 3).toNat, k := (th.xr d.toNat).toNat + koff.toNat }

/-- Active quarters with the thread that supplies each (R266). -/
def activeQuarters (ex : List (Nat × Thread)) : List (Nat × Thread) :=
  (List.range 4).filterMap fun q => (ex.find? fun (l, _) => l / 8 == q).map fun (_, th) => (q, th)

/-- Slots an operand of a format takes (R258). -/
def operandSlots (wide : Bool) (n : Nat) : List Nat := if wide then [n, n + 1] else [n]

/-- Slots that a quarter reads: A, B, and the scale slot (R258, R266). The ternary B is one slot. -/
def Quarter.slots (q : Quarter) (f : W32) : List Nat :=
  operandSlots (fwWide f) q.a ++ operandSlots (fwWide f) q.b ++ if fwScm f = 0 then [] else [q.scale]

/-- Check 8 of R276. -/
def WT.badSlots (wt ahead : WT) (team : Nat) (f : W32) (q : Quarter) : Bool :=
  (q.slots f).any (fun i => !wt.holds team i) || !wt.holds team (tileKey q.tile)
    || (fwWide f && (q.a % 2 = 1 || q.b % 2 = 1)) || (ahead.accTile q.tile).forbids (fwAfmt f)

/-- Check 10 of R276 (R261). -/
def WT.badLayout (wt : WT) (f : W32) (q : Quarter) : Bool :=
  let sp (i : Nat) : Nat := mget 0 wt.spans i
  (operandSlots (fwWide f) q.a).any (fun i => sp i != q.aspan) || (operandSlots (fwWide f) q.b).any (fun i => sp i != q.bspan)
    || (fwScm f != 0 && sp q.scale != 0)

/-- Checks 5 to 10 of R276, in order: a fault with its quarter. -/
def mmaCheck (tern : Bool) (ac : AccClass) (wt ahead : WT) (c : Ctx) (f : W32) (cr bl : BitVec 8) (qs : List Quarter) :
    Option (List LaneFault) :=
  let dissent := c.ex.filter fun (_, th) => th.xr cr.toNat != f
  let layoutBad := (activeQuarters c.ex).find? fun (_, th) =>
    (th.xr bl.toNat).extractLsb' 3 29 != 0#29 || (th.xr (bl.toNat + 1)).extractLsb' 3 29 != 0#29
  let firstQ := ((activeQuarters c.ex).head?.map (·.1)).getD 0
  match dissent with
  | (l, _) :: _ => some (whole c.ex .formatDivergence (laneMask (dissent.map (·.1))).toNat (l / 8))
  | [] =>
    if !fwGood tern f then some (whole c.ex .illegalEncoding 0 firstQ)
    else
      match layoutBad with
      | some (q, _) => some (whole c.ex .illegalEncoding 0 q)
      | none =>
        if fwExOnly f && ac != .ex then some (whole c.ex .accuracyClass 0 firstQ)
        else
          match qs.find? (wt.badSlots ahead c.g.team f) with
          | some q => some (whole c.ex .slotState 0 q.q)
          | none =>
            match qs.find? fun q => decide (32 ≤ q.k) with
            | some q => some (whole c.ex .treeDepth 0 q.q)
            | none => (qs.find? (wt.badLayout f)).map fun q => whole c.ex .layoutMismatch 0 q.q

/-- How many quarters each pass takes: those that name one B slot (R269). -/
def passesOf (qs : List Quarter) : List Nat :=
  ((List.range 128).map fun b => (qs.filter fun q => q.b == b).length).filter (· != 0)

/-- Array occupancy (Table 14-6). -/
def occupancy (tern : Bool) (f : W32) (qs : List Quarter) : Nat :=
  let load := if tern then 1 else if fwWide f then 8 else 4
  ((passesOf qs).map fun n => if n = 1 then 2 * load else n * load).sum

/-- Bytes of operand memory that slots hold. -/
def slotBytes (om : Memory) (slots : List Nat) : Memory := om.filter fun (a, _) => slots.contains (a / 2048)

/-- MMA and MMAT: the slabs it names are READY and the anvil takes it; then its checks are made, as it issues (R276,
R292). -/
def mmaOp (tern : Bool) (h : Hdr) (d a b cr : BitVec 8) (koff : BitVec 8) (s : State) : Host.Outcome State Fault Refusal :=
  let regs : List (Nat × Nat) := one d ++ one a ++ [(b.toNat, 2)] ++ one cr
  let tiles : List Nat := match s.m.curG with
    | some (_, _, _, g) => (activeQuarters (g.lanes.filter fun (_, th) => guardOk h th)).map fun (q, th) => (quarterOf q th d a b koff).tile
    | none => []
  let mark : AcMark := if tern then .exOnly else .all
  issue h { anvilForm 16 regs regs [] tiles 3 with mark := mark, nonIdem := true, touch := [3] } s fun c m =>
    let wt := m.wt c.w c.t
    let f := ((c.ex.head?).map fun (_, th) => th.xr cr.toNat).getD 0
    let qs := (activeQuarters c.ex).map fun (q, th) => quarterOf q th d a b koff
    let slots := qs.flatMap fun q => q.slots f
    let n := m.fresh
    let n2 := n.2.fresh
    let p : Pend := { id := n.1, pc := c.g.pc, len := 16, ll := true, late := false, nonIdem := true, dest := .none,
                      lanes := c.ex.map (·.1), ready := false }
    let occ := occupancy tern f qs
    let op := mkOp c n2.1 n.1 slots (qs.map (·.tile)) (.mma tern h.ac f qs (slotBytes wt.omem slots))
    if !wt.slabsReady slots then .hold (m.unask c) (.pend .slab)
    else if !m.engineNow c occ then engineWait c m occ
    else
      match mmaCheck tern h.ac wt wt.ahead c f cr b qs with
      | some fs => .trap m fs
      | none => acceptOp c n2.2 occ op fun m => m.beginLL c h p { acc := qs.map (·.tile) }

def execMma (h : Hdr) (d a b c : BitVec 8) (koff : BitVec 8) (s : State) : Host.Outcome State Fault Refusal :=
  mmaOp false h d a b c koff s
def execMmat (h : Hdr) (d a b c : BitVec 8) (koff : BitVec 8) (s : State) : Host.Outcome State Fault Refusal :=
  mmaOp true h d a b c koff s

/-! ## Accumulator tiles (R293 to R297) -/

/-- The team holds every tile. -/
def WT.holdsTiles (wt : WT) (team : Nat) (ts : List Nat) : Bool := ts.all fun a => wt.holds team (tileKey a)

/-- An operation on tiles that the team must hold: it waits for the anvil, is refused, or accepted. -/
def tileOp (c : Ctx) (m : M) (ts : List Nat) (more : WT → Option Code) (k : AnvilWork) : Res :=
  let wt := m.wt c.w c.t
  if !m.engineNow c 0 then engineWait c m 0
  else if !wt.holdsTiles c.g.team ts then .trap m (whole c.ex .slotState 0 0)
  else
    match more wt.ahead with
    | some code => .trap m (whole c.ex code 0 0)
    | none => acceptPlain c m ts k

/-- ACCZ (R293). -/
def execAccz (h : Hdr) (a : BitVec 6) (n : BitVec 8) (s : State) : Host.Outcome State Fault Refusal :=
  let ts := (List.range (n.toNat + 1)).map (· + a.toNat)
  issue h { anvilForm 8 [] [] [] ts 3 with once := true } s fun c m => tileOp c m ts (fun _ => none) (.zero ts)

/-- ACCRD and ACCRD.st: the tile is read in acceptance order; the registers are written by ACCRD_WRITEBACK (R294). -/
def accRead (h : Hdr) (p : Nat) (half : Bool) (d : BitVec 8) (a : BitVec 6) (s : State) : Host.Outcome State Fault Refusal :=
  issue h { anvilForm 8 [(d.toNat, 4)] [] [] [a.toNat] 3 with waits := false } s fun c m =>
    let n := m.fresh
    let n2 := n.2.fresh
    let pe : Pend := { id := n.1, pc := c.g.pc, len := 8, ll := true, late := false, nonIdem := false, dest := .quad d [],
                       lanes := c.ex.map (·.1), ready := false, since := (m.tile c.t).cycle + 6 }
    if !m.engineNow c 0 then engineWait c m 0
    else if !(m.wt c.w c.t).holdsTiles c.g.team [a.toNat] then .trap m (whole c.ex .slotState 0 0)
    else acceptOp c n2.2 0 (mkOp c n2.1 n.1 [] [a.toNat] (.read a.toNat p half))
      fun m => m.beginLL c h pe { vec := [(d.toNat, 4)] }

def execAccrd (h : Hdr) (p : BitVec 3) (half : Bool) (d : BitVec 8) (a : BitVec 6) (s : State) :
    Host.Outcome State Fault Refusal := accRead h p.toNat half d a s
def execAccrdSt (h : Hdr) (d : BitVec 8) (a : BitVec 6) (s : State) : Host.Outcome State Fault Refusal :=
  accRead h 6 false d a s

/-- ACCWR (R295). -/
def execAccwr (h : Hdr) (af : Af) (p : BitVec 3) (half : Bool) (d : BitVec 6) (a : BitVec 8) (s : State) :
    Host.Outcome State Fault Refusal :=
  let code : BitVec 2 := match af with
    | .f32 => 1
    | .i32 => 2
  issue h (anvilForm 8 [(a.toNat, 4)] [(a.toNat, 4)] [] [d.toNat] 3) s fun c m =>
    let vals : AMap (List W32) := c.ex.map fun (l, th) => (l, (List.range 4).map fun i => th.xr (a.toNat + i))
    let clash (wt : WT) : Option Code :=
      let t := wt.accTile d.toNat
      if t.pres != 0 && t.afmt != code then some .slotState else none
    tileOp c m [d.toNat] clash (.write d.toNat code.toNat p.toNat half vals)

/-- ACCWR.st (R295). -/
def execAccwrSt (h : Hdr) (d : BitVec 6) (a : BitVec 8) (s : State) : Host.Outcome State Fault Refusal :=
  issue h { anvilForm 8 (one a) (one a) [] [d.toNat] 3 with once := true } s fun c m =>
    tileOp c m [d.toNat] (fun _ => none) (.bad d.toNat (((c.ex.head?).map fun (_, th) => (th.xr a.toNat).getLsbD 15).getD false))

/-- TREEADD (R272, R296): SLOT_STATE before TREE_DEPTH (Table 15-1). -/
def execTreeadd (h : Hdr) (d a : BitVec 6) (l : BitVec 3) (cn : BitVec 8) (s : State) : Host.Outcome State Fault Refusal :=
  issue h { anvilForm 8 [] [] [] [d.toNat, a.toNat] 3 with nonIdem := true, region := true, once := true } s fun c m =>
    let bad (wt : WT) : Option Code :=
      let src := wt.accTile a.toNat
      if !src.fin || src.afmt = 0 || (wt.accTile d.toNat).forbids src.afmt then some .slotState
      else if 6 ≤ l.toNat || 32 ≤ cn.toNat || 32 < (cn.toNat + 1) * 2 ^ l.toNat then some .treeDepth
      else none
    tileOp c m [d.toNat, a.toNat] bad (.tree d.toNat a.toNat l.toNat cn.toNat)

/-- ACCFIN (R297). -/
def execAccfin (h : Hdr) (a : BitVec 6) (s : State) : Host.Outcome State Fault Refusal :=
  issue h { anvilForm 8 [] [] [] [a.toNat] 3 with once := true } s fun c m =>
    tileOp c m [a.toNat] (fun _ => none) (.fin a.toNat)

end Sys2Proof.Machine
end

