-- ==== Sys2Proof/Machine/Agenda.lean ====
section
/-! DEFINITION. The default order of the machine's agents when the agenda says nothing (log entry 3). -/

namespace Sys2Proof.Machine

/-- Tiles with a world latched. -/
def M.active (m : M) : List Nat := (m.tiles.filter fun (_, tl) => tl.latch.isSome).map (·.1)

/-- The active tile with the fewest cycles, the lower key on a tie. -/
def M.behind (m : M) : Option Nat :=
  (m.active.foldl (fun (best : Option Nat) t =>
    match best with
    | none => some t
    | some b => if (m.tile t).cycle < (m.tile b).cycle then some t else some b) none)

/-- The groups of an issue set in the order Q: oldest first, the lower slot on a tie (R164). -/
def insAge (e : Nat × Group) : List (Nat × Group) → List (Nat × Group)
  | [] => [e]
  | x :: xs => if x.2.age < e.2.age then e :: x :: xs else x :: insAge e xs

def WT.q (wt : WT) (s : Nat) : List (Nat × Group) :=
  (wt.groups.filter fun (slot, _) => issueSet slot == s).foldl (fun acc e => insAge e acc) []

/-- The groups of an issue set that have issued in this cycle. -/
def Tile.done (tl : Tile) (s : Nat) : List IssuedRec := (tl.past ++ tl.issued).filter fun r => issueSet r.slot == s

/-- Both issue slots of a set are used in this cycle: two groups issued, or the second pick lost a conflict (R164). -/
def Tile.setUsed (tl : Tile) (s : Nat) : Bool := decide (2 ≤ (tl.done s).length) || tl.lost.any fun slot => issueSet slot == s

/-- The groups of an issue set still to be evaluated in this cycle, in the order Q (R164): once both slots are used, for the
bank reads they collect (R166). -/
def M.todo (m : M) (w t s : Nat) : List Nat :=
  let tl := m.tile t
  (((m.wt w t).q s).map (·.1)).filter fun slot => !tl.tried.contains slot

/-- The next group a tile evaluates in this cycle (R164); once an issue set has made its picks, those whose effect was
kept back take it in order of group slot. From 192 on stand the slots of STRYs, which are served after the requests of
the cycle (R287). -/
def M.pickOn (m : M) (t : Nat) : Option Nat :=
  match (m.tile t).latch with
  | none => none
  | some w =>
    let later := (m.tile t).later
    ([0, 1, 2, 3].findSome? fun s => (m.todo w t s).head? <|> later.find? fun slot => issueSet slot == s)
      <|> later.find? fun slot => decide (192 ≤ slot)

/-- The next group that is evaluated. -/
def M.pick (m : M) : Option (Nat × Nat) :=
  m.behind.bind fun t => (m.pickOn t).map fun slot => (t, slot)

end Sys2Proof.Machine
end

