-- ==== Sys2Proof/Machine/Control.lean ====
section
/-! DEFINITION. Control transfers and EXIT, opcodes 0x70 to 0x75 (R18, R26, R27, R83, R84, R120, R121, R138, R139). -/

namespace Sys2Proof.Machine

/-- DETAIL of a TRANSLATION by an address beyond the space, for a fetch (R324). -/
def detailFetch : Nat := 0x201

/-- Faults of a transfer to a target in the given lanes (R18). -/
def badTarget (ls : List (Nat × Thread)) (target : W64) : List LaneFault :=
  let a := (target.extractLsb' 0 56).toNat
  if target.extractLsb' 0 2 ≠ 0#2 then whole ls .alignment a 0
  else if target.extractLsb' 56 8 ≠ 0#8 then whole ls .translation a detailFetch
  else []

/-- Transfer control to a target, after an effect; a bad target faults instead (R18, R83). -/
def transfer (c : Ctx) (m : M) (target : W64) (eff : M → M) : Res :=
  match badTarget c.ex target with
  | [] => .jump (eff m) (target.extractLsb' 0 56)
  | fs => .trap m fs

/-- A target relative to the PC (R52). -/
def relTarget (pc : Va) (imm : W32) : W64 := pc.setWidth 64 + imm.signExtend 64

/-- The vote of a BR is divergent: more than one active lane, some taken and some not, to different addresses
(R120). -/
def divergent (g : Group) (ex : List (Nat × Thread)) (target : W64) : Bool :=
  !ex.isEmpty && decide (ex.length < g.lanes.length) && target != relTarget g.pc 12

/-- A thread keeps its first registers only (R114, R120). -/
def Thread.keepX (th : Thread) (n : Nat) : Thread := { th with x := th.x.filter fun (r, _) => r < n }

/-- The thread's next address is its meeting address (R139). -/
def Thread.atMeet (th : Thread) (addr : Va) : Bool := th.meet != 0 && meetVa th.meet == addr

/-- Bytes of the entries of ejected lanes: an arriving thread keeps the whole allotment, the others its first L' registers
(R114, R139). -/
def ejectBytes (allot live : Nat) (addr : Va) (ls : List (Nat × Thread)) : Nat :=
  (ls.map fun (_, th) => entryBytes (if th.atMeet addr then allot else min live allot)).sum

/-- Lanes of the minority of a divergent BR leave for the bin of their address, or arrive there when it is their
meeting address (R120, R139). -/
def M.eject (m : M) (c : Ctx) (live : Nat) (addr : Va) (ls : List (Nat × Thread)) : M :=
  let u := (m.wt c.w c.t).urecFor c.g.team c.g.k
  let g := ((look (m.wt c.w c.t).groups c.slot).getD c.g)
  let arr := ls.filter fun x => x.2.atMeet addr
  let n := min live c.g.allot
  let ws : List Waiting := (ls.filter fun x => !x.2.atMeet addr).map fun (l, th) =>
    { th := { th.keepX n with resv := none }, pc := addr, allot := c.g.allot, l := n, team := c.g.team, urec := u.1, born := m.uid,
      wins := g.windowsOf l }
  let wt1 := (u.2.arriveAs g addr u.1 m.uid arr).enterBin (m.tile c.t).cycle addr u.1 c.g.team (m.bint c.g.team) ws
  ((m.setWT c.w c.t wt1).vacate c.w c.t c.slot (ls.map (·.1)) .diverged).meetChecks c.w c.t (arr.map (·.2))

/-- The ejected threads are a later part of the group's context: the group goes on at its own address. -/
def divergeTo (c : Ctx) (live : Nat) (m : M) (target fall : Va) : Res :=
  let rest := c.g.lanes.filter fun (l, _) => !(c.ex.any (·.1 == l))
  let stayTaken := rest.length < c.ex.length || (rest.length == c.ex.length && target.toNat < fall.toNat)
  let out := if stayTaken then rest else c.ex
  let away := if stayTaken then fall else target
  let need := (m.wt c.w c.t).needOf c.g.team c.g.k (ejectBytes c.g.allot live away out)
  if !m.hasRoom c.w c.t c.slot need then .hold (m.waitRoom c.w c.t c.slot need) (.pend .meeting)
  else
    let m1 := (m.roomTaken c.w c.t c.slot).eject c live away out
    .jump m1 (if stayTaken then target else fall)

/-- BR: a guarded branch by the vote of the active lanes (R83, R120, R121). -/
def execBr (h : Hdr) (live : BitVec 8) (imm : W32) (s : State) : Host.Outcome State Fault Refusal :=
  let div := match s.m.curG with
    | some (_, _, _, g) => divergent g (g.lanes.filter fun (_, th) => guardOk h th) (relTarget g.pc imm)
    | none => false
  issue h { len := 12, waits := div, waitsAll := div, touch := if div then [5] else [] } s fun c m =>
    let target := relTarget c.g.pc imm
    match badTarget c.ex target with
    | [] =>
      if divergent c.g c.ex target then divergeTo c live.toNat m (target.extractLsb' 0 56) (nextPc c.g.pc 12)
      else .jump m (target.extractLsb' 0 56)
    | fs => .trap m fs

/-- BRX (R83): the target is the same in every lane; the group goes there. -/
def execBrx (h : Hdr) (a : BitVec 6) (s : State) : Host.Outcome State Fault Refusal :=
  issue h (srcForm 8 [] [a.toNat]) s fun c m => transfer c m (c.g.kr a.toNat) fun m => m

/-- CALL and CALLX need an aligned stack pointer (R27). The record of that fault has the low 56 bits of k63 as its ADDR,
and it comes before the faults of a bad target (log entry 14). -/
def callTo (c : Ctx) (m : M) (len : Nat) (target : W64) : Res :=
  if c.g.kr 63 &&& 15#64 ≠ 0 then .trap m (whole c.ex .alignment ((c.g.kr 63).extractLsb' 0 56).toNat 0)
  else transfer c m target fun m => m.updGroup c.w c.t c.slot fun g => g.setK 62 ((nextPc c.g.pc len).setWidth 64)

/- CALL, CALLX and RET name k62 and k63, which no field of theirs holds, for the windows of R56 (log entry 10). -/

def execCall (h : Hdr) (imm : W32) (s : State) : Host.Outcome State Fault Refusal :=
  issue h (srcForm 12 [] [62, 63]) s fun c m => callTo c m 12 (relTarget c.g.pc imm)
def execCallx (h : Hdr) (a : BitVec 6) (s : State) : Host.Outcome State Fault Refusal :=
  issue h (srcForm 8 [] [a.toNat, 62, 63]) s fun c m => callTo c m 8 (c.g.kr a.toNat)
def execRet (h : Hdr) (s : State) : Host.Outcome State Fault Refusal :=
  issue h (srcForm 8 [] [62]) s fun c m => transfer c m (c.g.kr 62) fun m => m

/-- Threads of lanes end in lane order; the others go on (R84, R138). -/
def M.exitLanes (m : M) (c : Ctx) (ls : List (Nat × Thread)) : M :=
  ls.foldl (fun m (_, th) => m.endThread c.w c.t c.g.team th) (m.vacate c.w c.t c.slot (ls.map (·.1)) .exited)

def execExit (h : Hdr) (s : State) : Host.Outcome State Fault Refusal :=
  issue h { len := 8, waits := true, waitsAll := true, touch := [5] } s fun c m =>
    let m1 := m.exitLanes c c.ex
    if c.ex.length = c.g.lanes.length then .jump m1 c.g.pc else .done m1

end Sys2Proof.Machine
end

