-- ==== Sys2Proof/Machine/Parallel.lean ====
section
/-! DEFINITION. The parallel instructions, opcodes 0xB0 to 0xC0 (R126, R129 to R153). -/

namespace Sys2Proof.Machine

/-! ## Cross-lane values -/

/-- combine of Table 8-5. -/
def combine (op : RedOp) (a b : W32) : W32 :=
  match op with
  | .add => a + b
  | .min => if a.toInt ≤ b.toInt then a else b
  | .max => if b.toInt ≤ a.toInt then a else b
  | .minu => if a.toNat ≤ b.toNat then a else b
  | .maxu => if b.toNat ≤ a.toNat then a else b
  | .and => a &&& b
  | .or => a ||| b
  | .xor => a ^^^ b
  | .fadd => BitVec.ofNat 32 (addRne .f32 a.toNat b.toNat)
  | .fmin => BitVec.ofNat 32 (fMin .f32 a.toNat b.toNat)
  | .fmax => BitVec.ofNat 32 (fMax .f32 a.toNat b.toNat)

/-- Identities of Table 8-5. -/
def identity : RedOp → W32
  | .add => 0 | .min => 0x7FFFFFFF | .max => 0x80000000 | .minu => 0xFFFFFFFF | .maxu => 0 | .and => 0xFFFFFFFF
  | .or => 0 | .xor => 0 | .fadd => 0 | .fmin => 0x7F800000 | .fmax => 0xFF800000

/-- One level of lane_tree (R143). -/
def laneLevel (op : RedOp) : List (Option W32) → List (Option W32)
  | none :: y :: rest => y :: laneLevel op rest
  | some a :: none :: rest => some a :: laneLevel op rest
  | some a :: some b :: rest => some (combine op a b) :: laneLevel op rest
  | [x] => [x]
  | [] => []

/-- lane_tree over the 32 lane positions (R143). -/
def laneTree (op : RedOp) (v : Nat → Option W32) : Option W32 :=
  ((List.range 5).foldl (fun vs _ => laneLevel op vs) ((List.range 32).map v)).headD none

/-- The value of a register in an executing lane. -/
def exValue (ex : List (Nat × Thread)) (r : BitVec 8) (l : Nat) : Option W32 := (look ex l).map (·.xr r.toNat)

/-- LREDUCE and LSCAN (R144, R145). -/
def scanV (op : RedOp) (ex : List (Nat × Thread)) (r : BitVec 8) (below : Nat → Bool) : W32 :=
  (laneTree op fun l => if below l then exValue ex r l else none).getD (identity op)

/-- The order of keys: FP32 with -0 below +0, a NaN above every other and all NaNs equal (R146). -/
def keyOf (kt : KeyTy) (v : W32) : Int :=
  match kt with
  | .s32 => v.toInt
  | .u32 => v.toNat
  | .f32 => if isNan .f32 v.toNat then 2 ^ 40 else orderKey .f32 v.toNat

/-- Rotate left (R129). -/
def rotl32 (a : W32) (n : Nat) : W32 := a.rotateLeft n

/-- The bellows function (R129). -/
def bellows (c : W64) (k0 k1 : W32) : W32 :=
  let r (p : W32 × W32) : W32 × W32 :=
    let x := p.1 * 0x9E3779B1
    let y := (p.2 ^^^ rotl32 x 7) * 0x85EBCA77
    (x ^^^ rotl32 y 13, y)
  let p := r (r (r (r (c.extractLsb' 0 32 ^^^ k0, c.extractLsb' 32 32 ^^^ k1))))
  p.1 ^^^ p.2

/-- Element index i comes before j where their keys are equal: by tie hash, then by index (R131). -/
def tieFirst (seed : W64) (i j : W64) : Bool :=
  let h (x : W64) := (bellows x (seed.extractLsb' 0 32) (seed.extractLsb' 32 32)).toNat
  h i < h j || (h i == h j && i.toNat < j.toNat)

/-- precedes of R146. -/
def precedes (seed : W64) (a b : Int × W64) : Bool :=
  a.1 < b.1 || (a.1 == b.1 && a.2 != b.2 && tieFirst seed a.2 b.2)

/-- Key and element index of a thread. -/
def keyIdx (kt : KeyTy) (a b : BitVec 8) (th : Thread) : Int × W64 := (keyOf kt (th.xr a.toNat), (th.xr b.toNat).setWidth 64)

/-- The tie seed of the launch (R131, R158). -/
def M.seed (m : M) (team : Nat) : W64 :=
  match m.launchOf team with
  | some (_, l) => l.lr.seed
  | none => 0

/-- The winner of SELMAX (`up`) or SELMIN: the first in the order of the keys, NaN last, ties by R131 (R147). -/
def winner (up : Bool) (kt : KeyTy) (seed : W64) (cs : List (Int × W64)) : Option (Int × W64) :=
  let key (x : Int × W64) : Int := if kt = .f32 ∧ x.1 = 2 ^ 40 then 2 ^ 40 else if up then -x.1 else x.1
  cs.foldl (fun best x =>
    match best with
    | none => some x
    | some b => if precedes seed (key x, x.2) (key b, b.2) then some x else some b) none

/-- SELMAX and SELMIN (R147). -/
def select (up : Bool) (h : Hdr) (kt : KeyTy) (d a b : BitVec 8) (pc : Option (BitVec 3)) (s : State) :
    Host.Outcome State Fault Refusal :=
  issue h (regForm 8 d 1 (one a ++ one b)) s fun c m =>
    match winner up kt (m.seed c.g.team) (c.ex.map fun (_, th) => keyIdx kt a b th) with
    | none => .done m
    | some w =>
      .done (m.onLanes c fun _ th =>
        let th1 := th.setX d.toNat (w.2.extractLsb' 0 32)
        match pc with
        | some p => th1.setP p (keyIdx kt a b th == w)
        | none => th1)

/-- Draw counter and key of a thread (R130). -/
def drawKey (lid : W64) (team : W32) : W32 × W32 :=
  (lid.extractLsb' 0 32, lid.extractLsb' 32 32 ^^^ (team.extractLsb' 24 8).setWidth 32)

def drawCounter (team : W32) (idx draws : W64) (l : Nat) : W64 :=
  team.extractLsb' 0 24 ++ BitVec.ofNat 13 (if l = 0 then idx.toNat else idx.toNat % l) ++ draws.extractLsb' 0 27

/-! ## SPAWN and MEET -/

/-- Registers a spawned thread carries (Table 8-3). -/
def carried (th : Thread) (b live : Nat) : AMap W32 :=
  (List.range live).foldl (fun x i => mset 0 x i (th.xr (b + i))) []

/-- SPAWN (R136, R137): one thread for each executing lane, in lane order; it waits for room first (R118, R119). The
threads are not those of a node (R241). -/
def execSpawn (h : Hdr) (live a b : BitVec 8) (imm : W32) (s : State) : Host.Outcome State Fault Refusal :=
  let srcs := [(a.toNat, 2)] ++ if live = 0 then [] else [(b.toNat, live.toNat)]
  issue h { srcForm 12 srcs with nonIdem := true, region := true, touch := [5] } s fun c m =>
    let target := relTarget c.g.pc imm
    match badTarget c.ex target with
    | [] =>
      let wt := m.wt c.w c.t
      let need := wt.needOf c.g.team c.g.k (c.ex.length * entryBytes live.toNat)
      if !wt.creates need then .hold (m.setWT c.w c.t (wt.wants need)) (.pend .meeting)
      else
        let pc := target.extractLsb' 0 56
        let u := WT.urecFor { wt with lwant := 0 } c.g.team c.g.k
        let ws : List Waiting := c.ex.map fun (_, th) =>
          { th := { idx := th.xpair a.toNat, x := carried th b.toNat live.toNat, p := th.p, entry := target, regpc := pc,
                    spawned := true },
            pc := pc, allot := c.g.allot, l := live.toNat, team := c.g.team, urec := u.1, born := m.uid }
        let m1 := m.setWT c.w c.t (u.2.enterBin (m.tile c.t).cycle pc u.1 c.g.team (m.bint c.g.team) ws)
        .done (m1.updTeam c.g.team fun tm => { tm with live := tm.live + c.ex.length })
    | fs => .trap m fs

/-- The lowest free record numbers (R140). -/
def WT.freeMeets (wt : WT) : List Nat := (List.range 256).filter fun i => (look wt.meets i).isNone

/-- MEET (R122, R140): one record for each distinct old value, in order of the lowest lane holding it. The 16 bytes of a
record wait for no room (log entry 75). -/
def execMeet (h : Hdr) (imm : W32) (s : State) : Host.Outcome State Fault Refusal :=
  issue h { len := 12, nonIdem := true, region := true, once := true, touch := [5] } s fun c m =>
    let target := relTarget c.g.pc imm
    match badTarget c.ex target with
    | [] =>
      if target = 0 then .done (m.onLanes c fun _ th => { th with meet := 0 })
      else
        let wt := m.wt c.w c.t
        let olds := (c.ex.map fun (_, th) => th.meet).eraseDups
        let free := wt.freeMeets
        if free.length < olds.length then .hold m (.pend .meeting)
        else
          let M := target.extractLsb' 0 56
          let wt1 := (olds.zip free).foldl (fun (wt : WT) (old, no) =>
            let r : Meeting := { m := M, n := (c.ex.filter fun (_, th) => th.meet == old).length, parent := old, team := c.g.team }
            { wt with meets := put wt.meets no r }) wt
          let noOf (v : W64) : Nat := (((olds.zip free).find? fun (o, _) => o == v).map (·.2)).getD 0
          .done ((m.setWT c.w c.t wt1).onLanes c fun _ th => { th with meet := BitVec.ofNat 8 (noOf th.meet) ++ M })
    | fs => .trap m fs

/-! ## Cross-lane instructions -/

/-- VOTE (Table 8-4). -/
def execVote (h : Hdr) (op : VoteOp) (s : State) : Host.Outcome State Fault Refusal :=
  match op with
  | .some pd pa =>
    issue h (srcForm 8 []) s fun c m => .done (m.onLanes c fun _ th => th.setP pd (c.ex.any fun (_, t) => t.pr pa))
  | .every pd pa =>
    issue h (srcForm 8 []) s fun c m => .done (m.onLanes c fun _ th => th.setP pd (c.ex.all fun (_, t) => t.pr pa))
  | .mask d pa =>
    issue h (regForm 8 d 1 []) s fun c m =>
      .done (m.onLanes c fun _ th => th.setX d.toNat (laneMask ((c.ex.filter fun (_, t) => t.pr pa).map (·.1))))
  | .alike pd a =>
    issue h (srcForm 8 (one a)) s fun c m =>
      let v := (lowest c.ex).map fun (_, t) => t.xr a.toNat
      .done (m.onLanes c fun _ th => th.setP pd (c.ex.all fun (_, t) => some (t.xr a.toNat) == v))

/-- The lane SHFL reads from (R142). -/
def shflFrom (op : ShflOp) (w l amt : Nat) : Option Nat :=
  let seg := l - l % w
  match op with
  | .idx => some (seg + amt % w)
  | .up => if amt ≤ l % w then some (l - amt) else none
  | .down => if l % w + amt < w then some (l + amt) else none
  | .xor => some (seg + ((l % w) ^^^ (amt % w)))

def execShfl (h : Hdr) (op : ShflOp) (wc : BitVec 3) (d a : BitVec 8) (b : Src) (s : State) :
    Host.Outcome State Fault Refusal :=
  issue h (regForm 8 d 1 (one a ++ b.vecs)) s fun c m =>
    .done (m.onLanes c fun l th =>
      let v := (shflFrom op (2 ^ wc.toNat) l (srcV th b).toNat).bind (exValue c.ex a)
      th.setX d.toNat (v.getD (th.xr a.toNat)))

def execLreduce (h : Hdr) (op : RedOp) (d a : BitVec 8) (s : State) : Host.Outcome State Fault Refusal :=
  issue h (regForm 8 d 1 (one a)) s fun c m =>
    .done (m.onLanes c fun _ th => th.setX d.toNat (scanV op c.ex a fun _ => true))

def execLscan (h : Hdr) (op : RedOp) (excl : Bool) (d a : BitVec 8) (s : State) : Host.Outcome State Fault Refusal :=
  issue h (regForm 8 d 1 (one a)) s fun c m =>
    .done (m.onLanes c fun l th => th.setX d.toNat (scanV op c.ex a fun j => if excl then j < l else j ≤ l))

def execLscanRank (h : Hdr) (kt : KeyTy) (d a b : BitVec 8) (s : State) : Host.Outcome State Fault Refusal :=
  issue h (regForm 8 d 1 (one a ++ one b)) s fun c m =>
    .done (m.onLanes c fun _ th =>
      th.setX d.toNat (BitVec.ofNat 32
        (c.ex.countP fun (_, t) => precedes (m.seed c.g.team) (keyIdx kt a b t) (keyIdx kt a b th))))

def execSelmax (h : Hdr) (kt : KeyTy) (d a b : BitVec 8) (pc : Option (BitVec 3)) (s : State) :
    Host.Outcome State Fault Refusal := select true h kt d a b pc s
def execSelmin (h : Hdr) (kt : KeyTy) (d a b : BitVec 8) (pc : Option (BitVec 3)) (s : State) :
    Host.Outcome State Fault Refusal := select false h kt d a b pc s

/-! ## Barriers (R148 to R150) -/

/-- Cluster phases of barrier n that have completed (R148). -/
def M.clusterCount (m : M) (team n : Nat) : Nat :=
  ((look m.teams team).bind fun tm => look m.clusters tm.cluster).elim 0 fun c => mget 0 c.counts n

/-- Completion count of a team barrier or of the cluster barrier. -/
def M.barCount (m : M) (cl : Bool) (team n : Nat) : W32 :=
  match look m.teams team with
  | none => 0
  | some tm =>
    if cl then BitVec.ofNat 32 (m.clusterCount team n) else (mget {} tm.barriers n).count

/-- The phase an arrival at a barrier waits for: the team's count, or the number of the team's phase with a cluster
arrival (R148, R149). -/
def M.barPhase (m : M) (cl : Bool) (team n : Nat) : Nat :=
  match look m.teams team with
  | none => 0
  | some tm =>
    if cl then (look m.clusters tm.cluster).elim 0 fun c => mget 0 c.phases (16 * tm.pos + n) + 1
    else (mget {} tm.barriers n).count.toNat + 1

/-- The awaited phase has completed (R149). -/
def M.barDone (m : M) (cl : Bool) (team n phase : Nat) : Bool :=
  if cl then decide (phase ≤ m.clusterCount team n) else decide ((m.barCount false team n - BitVec.ofNat 32 phase).toNat < 2 ^ 31)

/-- The executing lanes arrive at team barrier n (R126, R148). -/
def M.arriveBar (m : M) (c : Ctx) (cl : Bool) (n : Nat) : M :=
  let m1 := m.onLanes c fun _ th => { th with arrived := th.arrived ||| (1#16 <<< n) }
  let m2 := m1.updTeam c.g.team fun tm =>
    let b := mget {} tm.barriers n
    { tm with barriers := put tm.barriers n { b with arrived := b.arrived + c.ex.length, cl := b.cl || cl } }
  m2.barCheck c.g.team n

/-- A thread that has arrived in the open phase arrives again only in the next (R150). The whole group waits for it, and
no lane of it arrives meanwhile (log entry 67). -/
def Ctx.again (c : Ctx) (n : Nat) : Bool := c.ex.any fun (_, th) => th.arrived.getLsbD n

/-- BAR.T and BAR.C (Table 8-6). -/
def barrier (h : Hdr) (cl : Bool) (n : BitVec 4) (s : State) : Host.Outcome State Fault Refusal :=
  issue h { len := 8, waits := true, nonIdem := true, region := true, once := true, touch := [1] } s fun c m =>
    let k := n.toNat
    match c.g.wait with
    | .arrived _ _ phase => if m.barDone cl c.g.team k phase then .done m else .hold m c.g.wait
    | _ =>
      if c.again k then .hold m (.pend .barrier)
      else
        let m1 := m.arriveBar c cl k
        let phase := m.barPhase cl c.g.team k
        if m1.barDone cl c.g.team k phase then .done m1 else .hold m1 (.arrived cl k phase)

def execBarT (h : Hdr) (n : BitVec 4) (s : State) : Host.Outcome State Fault Refusal := barrier h false n s
def execBarC (h : Hdr) (n : BitVec 4) (s : State) : Host.Outcome State Fault Refusal := barrier h true n s

/-- ARRIVE: the count at arrival goes to x[D] (Table 8-6). -/
def execArrive (h : Hdr) (cl : Bool) (n : BitVec 4) (d : BitVec 8) (s : State) : Host.Outcome State Fault Refusal :=
  issue h { regForm 8 d 1 [] with waits := true, nonIdem := true, region := true, once := true, touch := [1] } s fun c m =>
    if c.again n.toNat then .hold m (.pend .barrier)
    else
      let v := m.barCount cl c.g.team n.toNat
      .done ((m.onLanes c fun _ th => th.setX d.toNat v).arriveBar c cl n.toNat)

/-- AWAIT (Table 8-6). -/
def execAwait (h : Hdr) (cl : Bool) (n : BitVec 4) (a : BitVec 8) (s : State) : Host.Outcome State Fault Refusal :=
  issue h { srcForm 8 (one a) with waits := true, once := true, touch := [1] } s fun c m =>
    let ok (th : Thread) : Bool :=
      let x := (m.barCount cl c.g.team n.toNat - th.xr a.toNat).toNat
      1 ≤ x && x < 2 ^ 31
    if c.ex.all fun (_, th) => ok th then .done m else .hold m (.pend .barrier)

/-! ## Register allotment (R124, R151) -/

/-- Grow a group by n registers that read zero (R124, R151). -/
def M.growNow (m : M) (w t slot n : Nat) : M :=
  let wt := m.wt w t
  (m.setWT w t { wt with used := wt.used + n }).updGroup w t slot fun g => { g with allot := g.allot + n }

/-- The group waits in GROW. -/
def Group.growing (g : Group) : Bool :=
  match g.wait with
  | .grow _ => true
  | _ => false

/-- The first request for rows can be met now (R124). -/
def M.headMet (m : M) (w t : Nat) : Bool :=
  match (m.wt w t).growq with
  | .grow _ n _ :: _ => decide (n ≤ m.freeRows w t)
  | .form _ _ :: _ => (m.formable w t).isSome
  | [] => false

/-- The slot of the oldest GROW, when every resident group of the world on the tile waits in GROW and the first request
cannot be met (R124, R151). -/
def M.growStuck (m : M) (w t : Nat) : Option Nat :=
  let wt := m.wt w t
  if wt.groups.isEmpty || wt.groups.any (fun (_, g) => !g.growing) || m.headMet w t then none
  else wt.growq.findSome? fun r => match r with
    | .grow slot _ _ => some slot
    | .form _ _ => none

/-- GROW_DEADLOCK of the oldest waiter, whose request is withdrawn (R151): its GROW then faults as a whole. -/
def M.growDeadlock (m : M) (w t : Nat) : M :=
  match m.growStuck w t with
  | none => m
  | some slot =>
    let wt := m.wt w t
    (m.setWT w t { wt with growq := wt.growq.filter fun r => !r.ofSlot slot }).updGroup w t slot fun g =>
      { g with wait := .failed .growDeadlock 0 0 }

/-- What GROW and SHRINK have in common: once for the group, after all its long-latency instructions, whichever lanes issued
them (R57, R151): none of them writes a register that the allotment no longer has. A resulting allotment outside 8 to 256
is REG_ALLOT; where no lane executes, none results (log entry 15). -/
def allotForm (bad : Bool) : Form :=
  { len := 8, waits := true, waitsAll := true, nonIdem := true, region := true, once := true, touch := [1], badAllot := bad }

/-- A test of the current group. -/
def M.curTest (m : M) (f : Group → Bool) : Bool :=
  match m.curG with
  | some (_, _, _, g) => f g
  | none => false

/-- GROW (R151): granted at once, or queued in the order of R124; a request is made once. -/
def execGrow (h : Hdr) (n : BitVec 8) (s : State) : Host.Outcome State Fault Refusal :=
  issue h (allotForm (s.m.curTest fun g => decide (256 < g.allot + n.toNat))) s fun c m =>
    match c.g.wait with
    | .grow ls => .hold m (.grow ls)
    | .request .grow true => .done m
    | .failed code _ _ => .trap m (whole c.ex code 0 0)
    | _ =>
      let wt := m.wt c.w c.t
      let r : RowReq := .grow c.slot n.toNat (m.tile c.t).cycle
      let q := wt.insReq r wt.growq
      if q.head? = some r && n.toNat ≤ m.freeRows c.w c.t then .done (m.growNow c.w c.t c.slot n.toNat)
      else
        let m1 := (m.setWT c.w c.t { wt with growq := q }).updGroup c.w c.t c.slot
          fun g => { g with wait := .grow (c.ex.map (·.1)) }
        let m2 := m1.growDeadlock c.w c.t
        .hold m2 (((look (m2.wt c.w c.t).groups c.slot).map (·.wait)).getD .none)

/-- GROW_GRANT (R124, R151): the first request is granted when its rows are free; when every resident group waits in GROW
and it cannot be met, the oldest waiter faults. -/
def M.growGranted (m : M) (t : Nat) : Option M :=
  match (m.tile t).latch.filter (fun w => 1 ≤ (m.wt w t).restored) with
  | none => none
  | some w =>
    let wt := m.wt w t
    if (m.growStuck w t).isSome then some (m.growDeadlock w t)
    else
      match wt.growq with
      | .grow slot n _ :: rest =>
        if n ≤ m.freeRows w t then
          some (((m.setWT w t { wt with growq := rest }).growNow w t slot n).updGroup w t slot
            fun g => { g with wait := .request .grow true })
        else none
      | _ => none

def execGrowGrant (t : Nat) (s : State) : Host.Outcome State Fault Refusal := event s fun m => m.growGranted t

/-- SHRINK (R151). -/
def execShrink (h : Hdr) (n : BitVec 8) (s : State) : Host.Outcome State Fault Refusal :=
  issue h (allotForm (s.m.curTest fun g => decide (g.allot < n.toNat + 8))) s fun c m =>
    let a := c.g.allot - n.toNat
    let wt := m.wt c.w c.t
    let m1 := m.setWT c.w c.t { wt with used := wt.used - n.toNat }
    .done (m1.updGroup c.w c.t c.slot fun g =>
      { g with allot := a, lanes := mapV (fun _ th => th.keepX a) g.lanes })

/-! ## Random numbers and read-only values (R130, R152, R153) -/

/-- Team index, threads a team and launch id of a group. -/
def M.teamInfo (m : M) (team : Nat) : W32 × Nat × W64 :=
  match look m.teams team, m.launchOf team with
  | some tm, some (_, l) => (BitVec.ofNat 32 tm.index, l.lr.threads, l.lr.lid)
  | _, _ => (0, 1, 0)

/-- The draw of a thread (R130). -/
def drawV (info : W32 × Nat × W64) (th : Thread) : W32 :=
  let k := drawKey info.2.2 info.1
  bellows (drawCounter info.1 th.idx th.draws (if th.spawned then 0 else info.2.1)) k.1 k.2

def execRng (h : Hdr) (d : BitVec 8) (s : State) : Host.Outcome State Fault Refusal :=
  issue h { regForm 8 d 1 [] .exOnly with nonIdem := true, region := true } s fun c m =>
    let info := m.teamInfo c.g.team
    .done (m.onLanes c fun _ th => { th.setX d.toNat (drawV info th) with draws := th.draws + 1 })

def execRngk (h : Hdr) (d : BitVec 8) (a : Opd64) (s : State) : Host.Outcome State Fault Refusal :=
  issue h { regForm 8 d 1 a.vecs .exOnly with uni := a.unis } s fun c m =>
    let info := m.teamInfo c.g.team
    let k := drawKey info.2.2 info.1
    .done (m.onLanes c fun _ th => th.setX d.toNat (bellows (opdV c.g th a) k.1 k.2))

/-- The read-only values (Table 1-2, R111). -/
def M.readOnly (m : M) (c : Ctx) (sel : Nat) (l : Nat) (th : Thread) : W64 :=
  let tm := (look m.teams c.g.team).getD { launch := 0, world := 0, index := 0, tile := 0, cluster := 0, pos := 0, live := 0 }
  let lr := ((m.launchOf c.g.team).map (·.2.lr)).getD {}
  match sel with
  | 0 => BitVec.ofNat 64 l
  | 1 => th.idx
  | 2 => BitVec.ofNat 64 c.slot
  | 3 => BitVec.ofNat 64 tm.index
  | 4 => BitVec.ofNat 64 (tm.index / (lr.w * lr.h))
  | 5 => BitVec.ofNat 64 lr.teams
  | 6 => (m.name c.t).setWidth 64
  | 7 => lr.lid
  | 8 => BitVec.ofNat 64 c.w
  | 9 => th.draws
  | 10 => BitVec.ofNat 64 c.g.allot
  | 11 => BitVec.ofNat 64 (issueSet c.slot)
  | 12 => BitVec.ofNat 64 ((m.world c.w).part.getD 0)
  | 13 => BitVec.ofNat 64 (fieldOf c.t)
  | 14 => (laneMask (c.g.lanes.map (·.1))).setWidth 64
  | _ => th.entry

def execMovs (h : Hdr) (d : DataReg) (sel : BitVec 4) (s : State) : Host.Outcome State Fault Refusal :=
  let vecs := match d with
    | .vec r => [(r.toNat, if sel64 sel then 2 else 1)]
    | .uni _ => []
  issue h { len := 8, vec := vecs, uni := d.unis } s fun c m =>
    let v := fun l th => m.readOnly c sel.toNat l th
    match d with
    | .vec r => .done (m.onLanes c fun l th =>
        if sel64 sel then th.setPair r.toNat (v l th) else th.setX r.toNat ((v l th).setWidth 32))
    | .uni k =>
      match lowest c.ex with
      | some (l, th) => .done (m.updGroup c.w c.t c.slot fun g => g.setK k.toNat (v l th))
      | none => .done m

end Sys2Proof.Machine
end

