-- ==== Sys2Proof/Machine/Fabric.lean ====
section
/-! DEFINITION. Fabric and host instructions, opcodes 0xF9 to 0xFF (R417 to R426), and the messages they carry. -/

namespace Sys2Proof.Machine

/-! ## Names (R367, R368) -/

/-- A name is current for a partition (R368). -/
def M.current (m : M) (p : Part) (n : W32) : Bool :=
  let d := m.gen - n.extractLsb' 20 12
  let f := m.gen - p.floor
  n.extractLsb' 0 7 == 0#7 && p.tiles.contains (keyOfName n) && !m.retired (keyOfName n) && decide (d.toNat ≤ f.toNat)

/-- The partition of a world. -/
def M.worldPart (m : M) (w : Nat) : Part := ((m.world w).part.map m.part).getD {}

/-- A current name with GEN equal to the floor (R426). -/
def Part.nameOf (p : Part) (t : Nat) : W32 := p.floor ++ BitVec.ofNat 13 t ++ 0#7

/-- GENQ.idx (R426): tiles in ascending name order (R388). -/
def genIdx (p : Part) (v : W32) : W32 := (p.tiles[(v.extractLsb' 0 13).toNat]?).elim 0 p.nameOf

/-- GENQ.fix (R426). -/
def M.genFix (m : M) (p : Part) (v : W32) : W32 :=
  let t := (v.extractLsb' 7 13).toNat
  if p.tiles.contains t && !m.retired t then p.nameOf t else 0

def execGenqIdx (h : Hdr) (d a : BitVec 8) (s : State) : Host.Outcome State Fault Refusal :=
  issue h (regForm 8 d 1 (one a)) s fun c m => .done (m.onLanes c fun _ th => th.setX d.toNat (genIdx (m.worldPart c.w) (th.xr a.toNat)))
def execGenqFix (h : Hdr) (d a : BitVec 8) (s : State) : Host.Outcome State Fault Refusal :=
  issue h (regForm 8 d 1 (one a)) s fun c m =>
    .done (m.onLanes c fun _ th => th.setX d.toNat (m.genFix (m.worldPart c.w) (th.xr a.toNat)))

/-! ## Routes (R374, R375) -/

/-- A tile's neighbour: 0 x - 1, 1 x + 1, 2 y - 1, 3 y + 1 (Table 21-3). -/
def neighbour (t dir : Nat) : Option Nat :=
  if dir = 0 then (if tileX t = 0 then none else some (t - 64))
  else if dir = 1 then (if tileX t = 79 then none else some (t + 64))
  else if dir = 2 then (if tileY t = 0 then none else some (t - 1))
  else (if tileY t = 63 then none else some (t + 1))

/-- The direction back. -/
def back (dir : Nat) : Nat := if dir % 2 = 0 then dir + 1 else dir - 1

/-- The neighbour over a link that no entry excludes at either end (R363). -/
def M.over' (m : M) (t dir : Nat) : Option Nat :=
  (neighbour t dir).filter fun u => !(m.excluded t 5).contains dir && !(m.excluded u 5).contains (back dir)

/-- Places a path comes to next: tile and run, the runs being x, y, x and y moves, so that it turns from y to x at most
once (R375). -/
def M.pathNext (m : M) (ts : List Nat) (p : Nat × Nat) : List (Nat × Nat) :=
  [0, 1, 2, 3].filterMap fun dir =>
    let x := decide (dir < 2)
    let run := if x == (p.2 % 2 == 0) then p.2 else p.2 + 1
    if 3 < run then none else ((m.over' p.1 dir).filter ts.contains).map fun u => (u, run)

/-- Hops of a shortest admissible path from the places reached to a tile. -/
def M.hops (m : M) (ts : List Nat) (goal : Nat) : Nat → List (Nat × Nat) → List (Nat × Nat) → Option Nat
  | 0, _, _ => none
  | fuel + 1, new, seen =>
    if new.any fun p => p.1 == goal then some 0
    else
      let next := ((new.flatMap (m.pathNext ts)).filter fun p => !seen.contains p).eraseDups
      if next.isEmpty then none else (m.hops ts goal fuel next (seen ++ next)).map (· + 1)

/-- The next hop of a route: in the order x - 1, x + 1, y - 1, y + 1, the first that begins a shortest admissible path
(R375). -/
def M.nextHop (m : M) (ts : List Nat) (goal : Nat) (p : Nat × Nat) : Option (Nat × Nat) :=
  let far (p : Nat × Nat) : Option Nat := m.hops ts goal (4 * ts.length + 1) [p] [p]
  (m.pathNext ts p).find? fun q => (far q).map (· + 1) == far p

/-- The tiles of a route of a partition, each with its run of moves, which every packet between two tiles follows (R375). -/
def M.route (m : M) (ts : List Nat) (goal : Nat) : Nat → Nat × Nat → List (Nat × Nat)
  | 0, _ => []
  | fuel + 1, p =>
    p :: if p.1 = goal then [] else match m.nextHop ts goal p with
      | some q => m.route ts goal fuel q
      | none => []

/-- The route of a partition between two tiles. -/
def M.path (m : M) (p : Part) (src dest : Nat) : List (Nat × Nat) := m.route p.tiles dest (p.tiles.length + 1) (src, 0)

/-- The route of a partition between two tiles lies within one field (R377). -/
def M.oneField (m : M) (p : Part) (src dest : Nat) : Bool :=
  fieldOf src == fieldOf dest && (m.path p src dest).all fun t => fieldOf t.1 == fieldOf src

/-- The entry tile of a home field (R374), a destination the hearth holds for the partition (R370): its lowest-named tile
there. -/
def Part.entryTile (p : Part) (h : Nat) : Option Nat :=
  (p.tiles.filter fun t => fieldOf t == h).foldl (fun o t => some ((o.getD t).min t)) none

/-! ## Virtual channels (R372, R373, R378) -/

/-- Classes of packets (R372). -/
inductive PClass where
  | request | response | message
  deriving DecidableEq, Repr

def PClass.num : PClass → Nat
  | .request => 0 | .response => 1 | .message => 2

/-- The virtual channel of a hop, in log entry 82's numbers: within a field VC0, and VC1 from the first turn from y to x
on; over a seam the class's own channel, and for a static route the one its number fixes (R372, R377, R378). -/
def vcOf (cls : PClass) (route : Option Nat) (u v : Nat × Nat) : Nat :=
  if fieldOf u.1 = fieldOf v.1 then 2 * cls.num + (if 2 ≤ v.2 then 1 else 0)
  else route.elim (6 + cls.num) (64 + ·)

/-- A virtual channel of a tile's input link. -/
def linkKey (t dir vc : Nat) : Nat := (t * 4 + dir) * 128 + vc

/-- The side of a tile on which its neighbour lies. -/
def sideOf (t u : Nat) : Nat := ((List.range 4).find? fun d => neighbour t d == some u).getD 0

/-- The receiver has stopped the channel of a hop (R373). -/
def M.stopped (m : M) (cls : PClass) (route : Option Nat) (u v : Nat × Nat) : Bool :=
  look m.stops (linkKey v.1 (sideOf v.1 u.1) (vcOf cls route u v)) == some true

/-- Some hop between two tiles of a partition is stopped for a packet: it waits (R373). -/
def M.heldOnWay (m : M) (p : Part) (cls : PClass) (route : Option Nat) (src dest : Nat) : Bool :=
  !m.stops.isEmpty && let ps := m.path p src dest
    (ps.zip (ps.drop 1)).any fun (u, v) => m.stopped cls route u v

/-- The first hop is stopped for a packet: the router takes it no longer from its tile (R373, R420; log entry 82). -/
def M.heldAtSource (m : M) (p : Part) (cls : PClass) (route : Option Nat) (src dest : Nat) : Bool :=
  !m.stops.isEmpty && let ps := m.path p src dest
    ((ps.zip (ps.drop 1)).take 1).any fun (u, v) => m.stopped cls route u v

/-- The tile to which an access's request goes on the mesh: the entry tile of its home field, or the tile whose scratchpad
it reaches (R370, R374). -/
def M.meshEnd (m : M) (a : Access) : Option Nat :=
  if a.homek = 0 then (m.worldPart a.world).entryTile a.homeid
  else if a.homek = 3 then some a.homeid
  else none

/-- The request of an access waits on its way (R373). -/
def M.requestHeld (m : M) (a : Access) : Bool :=
  (m.meshEnd a).any fun t => m.heldOnWay (m.worldPart a.world) .request none a.tile t

/-- The response to an access, which returns by the reverse of the route, waits on its way (R373, R374). -/
def M.responseHeld (m : M) (a : Access) : Bool :=
  !m.stops.isEmpty && (m.meshEnd a).any fun t =>
    let ps := m.path (m.worldPart a.world) a.tile t
    (ps.zip (ps.drop 1)).any fun (u, v) => m.stopped .response none v u

/-! ## Messages (R419 to R422) -/

/-- The message that the executing lanes form (R419). -/
def msgOf (c : Ctx) (a : BitVec 8) (sz : Sz) : Msg :=
  { mask := laneMask (c.ex.map (·.1)), sz := sz, data := c.ex.map fun (l, th) => (l, dataBytes c.g th (.vec a) sz) }

/-- Send a message to a name (R370, R371, R420); it waits, charged ENGINE, while the tile's router does not take it. -/
def sendMsg (c : Ctx) (m : M) (dest : W32) (route : Option Nat) (droute : Nat) (msg : Msg) : Res :=
  if !m.current (m.worldPart c.w) dest then .trap m (whole c.ex .nameStale dest.toNat 0)
  else
    let n := m.fresh
    let f : Flight := { id := n.1, world := c.w, src := c.t, dest := keyOfName dest, route := route, droute := droute, msg := msg,
                        group := c.g.uid, epoch := c.g.seams }
    if m.heldAtSource (m.worldPart c.w) .message route c.t f.dest then .hold m (.pend .engine)
    else .done { n.2 with flights := n.2.flights ++ [f] }

/-- The form of SEND and SEND.to. -/
def sendForm (a : BitVec 8) (sz : Sz) (us : List Nat) : Form :=
  { srcForm 12 (DataReg.vecs sz (.vec a)) us with nonIdem := true, region := true, once := true }

/-- SEND (R418, R419): the destination of static route r. -/
def execSend (h : Hdr) (sz : Sz) (r : BitVec 6) (a : BitVec 8) (s : State) : Host.Outcome State Fault Refusal :=
  issue h (sendForm a sz []) s fun c m =>
    let e := mget {} (m.wt c.w c.t).routes r.toNat
    if m.det c.g.team then .trap m (whole c.ex .detScope 0 0)
    else if !e.v then .trap m (whole c.ex .protection 0 14)
    else sendMsg c m e.dest (some r.toNat) e.droute.toNat (msgOf c a sz)

/-- SEND.to (R418, R419). -/
def execSendTo (h : Hdr) (sz : Sz) (b : BitVec 6) (dr : BitVec 6) (a : BitVec 8) (s : State) : Host.Outcome State Fault Refusal :=
  issue h (sendForm a sz [b.toNat]) s fun c m =>
    if m.det c.g.team then .trap m (whole c.ex .detScope 0 0)
    else sendMsg c m ((c.g.kr b.toNat).extractLsb' 0 32) none dr.toNat (msgOf c a sz)

/-- Words of a slot of a message as a RECV of a size takes them (R422). -/
def slotWords (msg : Msg) (sz : Sz) (l : Nat) : List W32 :=
  let bs := (if msg.mask.getLsbD l then mget [] msg.data l else []).take sz.bytes
  let v := bytesNat bs
  (List.range sz.regs).map fun i => BitVec.ofNat 32 (v / 2 ^ (32 * i))

/-- A RECV takes a message (R422). -/
def Pend.served (p : Pend) (msg : Msg) : Pend :=
  match p.dest with
  | .recv d sz mr =>
    { p with ready := true, dest := .msg d (p.lanes.map fun l => (l, slotWords msg sz l)) (mr.map fun r => (r, msg.mask)) }
  | _ => p

/-- Serve the oldest requests of a buffer while it holds messages (R422). -/
def M.serveBuf (m : M) (w t r : Nat) : Nat → M
  | 0 => m
  | fuel + 1 =>
    let wt := m.wt w t
    match mget [] wt.bufs r, mget [] wt.recvs r with
    | msg :: msgs, q :: qs =>
      let m1 := m.setWT w t { wt with bufs := mset [] wt.bufs r msgs, recvs := mset [] wt.recvs r qs }
      let m2 := m1.updGroup w t q.slot fun g =>
        if g.uid = q.group then { g with ops := g.ops.map fun p => if p.id = q.op then p.served msg else p } else g
      M.serveBuf m2 w t r fuel
    | _, _ => m

/-- RECV (R418, R422). -/
def execRecv (h : Hdr) (sz : Sz) (d : BitVec 8) (r : BitVec 6) (mk : Option (BitVec 8)) (s : State) :
    Host.Outcome State Fault Refusal :=
  let dst := (d.toNat, sz.regs) :: (mk.map fun b => (b.toNat, 1)).toList
  issue h { len := 12, vec := dst, nonIdem := true, once := true } s fun c m =>
    if m.det c.g.team then .trap m (whole c.ex .detScope 0 0)
    else
      let n := m.fresh
      let p : Pend := { id := n.1, pc := c.g.pc, len := 12, ll := true, late := true, nonIdem := true, dest := .recv d sz mk,
                        lanes := c.ex.map (·.1), ready := false }
      let m1 := n.2.beginLL c h p { vec := dst }
      let wt := m1.wt c.w c.t
      let q : RecvReq := { slot := c.slot, group := c.g.uid, op := n.1 }
      .done ((m1.setWT c.w c.t { wt with recvs := put wt.recvs r.toNat (mget [] wt.recvs r.toNat ++ [q]) }).serveBuf c.w c.t r.toNat 2)

/-- Two messages whose order the mesh keeps: of one static route, between the same tiles on a path within one field
(R377), or between the same tiles with a fence of their group between them that waits for the seam ordering points
(R378). -/
def M.ordered (m : M) (a b : Flight) : Bool :=
  a.world == b.world && a.src == b.src &&
    ((a.route.isSome && a.route == b.route)
      || (a.dest == b.dest && (m.oneField (m.worldPart a.world) a.src a.dest || (a.group == b.group && decide (a.epoch < b.epoch)))))

/-- MESSAGE_ARRIVAL (R420, R421): a message enters its buffer, when the destination holds its world, the buffer is not
full, no channel on its way is stopped and no message ordered before it is under way. -/
def M.messageArrives (m : M) (id : Nat) : Option M :=
  match m.flights.find? (·.id == id) with
  | none => none
  | some f =>
    let wt := m.wt f.world f.dest
    let buf := mget [] wt.bufs f.droute
    if 2 ≤ buf.length || (m.tile f.dest).latch != some f.world
        || m.heldOnWay (m.worldPart f.world) .message f.route f.src f.dest
        || m.flights.any fun g => g.id < f.id && m.ordered g f then none
    else
      let m1 := { m with flights := m.flights.filter (·.id != id) }
      some ((m1.setWT f.world f.dest { wt with bufs := put wt.bufs f.droute (buf ++ [f.msg]) }).serveBuf f.world f.dest f.droute 3)

def execMessageArrival (id : Nat) (s : State) : Host.Outcome State Fault Refusal := event s fun m => m.messageArrives id

/-! ## Remote and host accesses (R424, R425) -/

/-- RLD (R424). -/
def execRld (h : Hdr) (d : DataReg) (sx : Bool) (base : Opd64) (off : BitVec 24) (sz : Sz) (s : State) :
    Host.Outcome State Fault Refusal :=
  issueMem h { memForm 12 base [] (d.vecs sz) d.unis with nonIdem := true } s
    (fun c _ => (loadLanes c d).map fun (l, th) => wantAt c.g l th (isStack base) (effAddr c.g th base off).toNat sz.bytes) fun c m xs =>
    let sh (op : Nat) : Shape := { kind := fun _ => .load, size := sz.bytes, reach := 2, op := op }
    .done (m.issueLate c h 12 true (destOf d sx sz) (objOf d sz) sh xs)

/-- RST (R424). -/
def execRst (h : Hdr) (base : Opd64) (off : BitVec 24) (sz : Sz) (b : DataReg) (s : State) : Host.Outcome State Fault Refusal :=
  issueMem h { memForm 12 base (b.vecs sz) [] b.unis with nonIdem := true, region := true } s
    (fun c _ => c.ex.map fun (l, th) =>
      { wantAt c.g l th (isStack base) (effAddr c.g th base off).toNat sz.bytes with data := dataBytes c.g th b sz })
    fun c m xs => stores c m sz.bytes 2 .dflt xs

/-- RATOM (R424). C is read by .cas alone. -/
def execRatom (h : Hdr) (op : AtomOp) (d : DataReg) (base : Opd64) (off : BitVec 24) (sz : Sz) (b cc : DataReg) (s : State) :
    Host.Outcome State Fault Refusal :=
  let cv := if op = .cas then cc.vecs sz else []
  let cu := if op = .cas then cc.unis else []
  issueMem h { memForm 12 base (b.vecs sz ++ cv) (d.vecs sz) (d.unis ++ b.unis ++ cu) with nonIdem := true } s
    (fun c _ => c.ex.map fun (l, th) => wantAt c.g l th (isStack base) (effAddr c.g th base off).toNat sz.bytes) fun c m xs =>
    if m.det c.g.team then .trap m (whole c.ex .detScope 0 0)
    else .done (m.issueLate c h 12 true (destOf d false sz) (objOf d sz) (atomShape op c.g sz b cc .dflt 2) xs)

/-- HATOM (R425). C is read by .cas alone. -/
def execHatom (h : Hdr) (op : HostAtomOp) (f : Bool) (d : DataReg) (base : Opd64) (off : BitVec 24) (sz : Sz)
    (b cc : DataReg) (s : State) : Host.Outcome State Fault Refusal :=
  let cv := if op = .cas then cc.vecs sz else []
  let cu := if op = .cas then cc.unis else []
  issueMem h { memForm 12 base (b.vecs sz ++ cv) (d.vecs sz) (d.unis ++ b.unis ++ cu) with nonIdem := true } s
    (fun c _ => c.ex.map fun (l, th) => wantAt c.g l th (isStack base) (effAddr c.g th base off).toNat sz.bytes) fun c m xs =>
    if m.det c.g.team then .trap m (whole c.ex .detScope 0 0)
    else
      let sh (pid : Nat) : Shape :=
        { kind := fun x => .hatom op f (dataV c.g x.th b sz) (dataV c.g x.th cc sz), size := sz.bytes, reach := 3, op := pid }
      .done (m.issueLate c h 12 true (destOf d false sz) (objOf d sz) sh xs)

end Sys2Proof.Machine
end

