-- ==== Sys2Proof/Machine/Pilot.lean ====
section
/-! DEFINITION. The pilot and the ferry: chains, nodes, copies, semaphores, the slipway, and the instructions that feed
them, opcodes 0xD0 to 0xD5 (R235 to R256, R282 to R288). -/

namespace Sys2Proof.Machine

/-! ## Semaphores (R253, R286, R287) -/

def WT.sem (wt : WT) (i : Nat) : Sem := mget {} wt.sems i
def WT.setSem (wt : WT) (i : Nat) (v : Sem) : WT := { wt with sems := mset {} wt.sems i v }

/-- An increment, saturating (R253). -/
def Sem.inc (s : Sem) : Sem := if s.count = 0xFFFFFFFF then s else { s with count := s.count + 1 }

/-- Of two requests of one cycle the first: chains by number, then groups by slot (R253). -/
def SemReq.before : SemReq → SemReq → Bool
  | .join a _ _, .join b _ _ => decide (a < b)
  | .join _ _ _, .sacq _ _ _ _ => true
  | .sacq _ _ _ _, .join _ _ _ => false
  | .sacq a _ _ _, .sacq b _ _ _ => decide (a < b)

/-- The request was made in the cycle that runs. -/
def SemReq.fresh : SemReq → Bool
  | .join _ _ n => n
  | .sacq _ _ _ n => n

/-- A request joins the queue: after all of earlier cycles, in its place among those of this one (R253). -/
def insSem (r : SemReq) : List SemReq → List SemReq
  | [] => [r]
  | x :: xs => if x.fresh && r.before x then r :: x :: xs else x :: insSem r xs

/-- A decrement request is made on a semaphore (R253). -/
def WT.askSem (wt : WT) (i : Nat) (r : SemReq) : WT := wt.setSem i { wt.sem i with queue := insSem r (wt.sem i).queue }

/-- A copy completes or a node retires on a semaphore (R253). -/
def M.semInc (m : M) (w t i : Nat) : M :=
  let wt := m.wt w t
  m.setWT w t (wt.setSem i (wt.sem i).inc)

/-- A copy that signals a semaphore fails (R253). -/
def M.semErr (m : M) (w t i : Nat) : M :=
  let wt := m.wt w t
  m.setWT w t (wt.setSem i { wt.sem i with err := true })

/-! ## Chains (R235, R242, R255) -/

def WT.chain (wt : WT) (ch : Nat) : Chain := mget {} wt.chains ch
def WT.setChain (wt : WT) (ch : Nat) (c : Chain) : WT := { wt with chains := mset {} wt.chains ch c }

/-- A node as the pilot holds it when it is reached. -/
def mkNode (addr uid : Nat) (nd : NodeRec) (ds : List CopyDesc) : NodeSt := { addr := addr, nd := nd, descs := ds, uid := uid }

/-- After a node has retired: the end of a sub-chain returns to the node that entered it, a WHILE to compare again
(R242). The answer says whether the chain is empty (R235). -/
def Chain.walkOn (c : Chain) : Nat → Chain × Bool
  | 0 => (c, false)
  | fuel + 1 =>
    if !c.nodes.isEmpty || c.walk != 0 then (c, false)
    else
      match c.ret with
      | [] => (c, true)
      | (a, nd) :: rest =>
        if nd.kind = 3 then ({ c with ret := rest, nodes := [mkNode a 0 nd []] }, false)
        else Chain.walkOn { c with ret := rest, walk := nd.next } fuel

/-- A chain becomes empty and loses its owner; its sequence counter stays (R235, R244). -/
def M.emptyChain (m : M) (w t ch : Nat) : M :=
  let wt := m.wt w t
  let c := wt.chain ch
  let m1 := m.setWT w t (wt.setChain ch { seq := c.seq })
  match c.owner with
  | some team => m1.teamCheck team
  | none => m1

/-- The walk goes on from where a chain stands; HEAD is the first node not yet retired (R235). A chain that holds a record
waits until it is written (R319). -/
def M.chainGo (m : M) (w t ch : Nat) (c : Chain) : M :=
  let r := c.walkOn 6
  let m1 := m.setWT w t ((m.wt w t).setChain ch { r.1 with head := ((r.1.nodes.head?).map (·.addr)).getD r.1.walk })
  if r.2 && c.record.isNone then m1.emptyChain w t ch else m1

/-- A node retires (R239, R241). -/
def M.retire (m : M) (w t ch uid : Nat) : M :=
  let c := (m.wt w t).chain ch
  m.chainGo w t ch { c with nodes := c.nodes.filter fun n => n.uid != uid }

/-- The record of a chain halt (R255, Table 17-3), with its number. -/
def M.chainRec (m : M) (w t ch : Nat) (team : Nat) (code : Code) (node detail : Nat) : Nat × M :=
  let l := m.launchOf team
  m.queueRec w { code := code, pc := BitVec.ofNat 56 node, tile := m.name t, seq := (l.map (·.2.seq)).getD 0,
                  detail := BitVec.ofNat 32 detail, kind := 2, chain := ch, wq := (l.map (·.2.wq)).getD 0 }
    ((l.map (·.1)).getD 0)

/-- The record of a chain is written: the chain goes on (R319). -/
def M.wakeChains (m : M) (w rec : Nat) : M :=
  m.wts.foldl (fun m (i, wt) =>
    if i / 8192 ≠ w then m
    else wt.chains.foldl (fun m (ch, c) => if c.record = some rec then m.chainGo w (i % 8192) ch { c with record := none } else m) m) m

/-- CHAIN_HALT (R255): a record unless the launch ends, nodes not dispatched discarded, their slabs released, and at the
end of the launch the joins withdrawn that have acted. A chain that is halted already is empty once nothing dispatched is
left of it (R235). -/
def M.haltChain (m : M) (w t ch : Nat) (code : Code) (node detail : Nat) (record : Bool) : M :=
  let wt := m.wt w t
  let c := wt.chain ch
  match c.owner with
  | none => m
  | some team =>
    if c.halted then m.chainGo w t ch c
    else
      let stays (n : NodeSt) : Bool := n.dispatched && (record || n.nd.kind != 4)
      let stay := c.nodes.filter stays
      let gone := (c.nodes.filter fun n => !stays n).map (·.uid)
      let notJoin (r : SemReq) : Bool := match r with
        | .join k _ _ => record || k != ch
        | .sacq _ _ _ _ => true
      let wt1 := { wt with sems := mapV (fun _ (s : Sem) => { s with queue := s.queue.filter notJoin }) wt.sems }
      let c1 := { c with halted := true, nodes := stay, walk := 0, ret := [] }
      let drop (k : Copy) : Copy :=
        if k.world = w && k.tile = t && k.ch = ch && gone.contains k.node then { k with discard := true } else k
      let m1 := { m.setWT w t ((wt1.setChain ch c1).orphan ch) with copies := m.copies.map drop }
      let r := m1.chainRec w t ch team code node detail
      if record then r.2.chainGo w t ch { c1 with record := some r.1 } else m1.chainGo w t ch c1

/-- A chain halts for a node that has acted and ends with the halt: a JOIN or a SIGNAL (R244, R253). -/
def M.haltNode (m : M) (w t ch uid : Nat) (code : Code) (detail : Nat) : M :=
  let wt := m.wt w t
  let c := wt.chain ch
  let addr := ((c.nodes.find? (·.uid == uid)).map (·.addr)).getD 0
  (m.setWT w t (wt.setChain ch { c with nodes := c.nodes.filter (·.uid != uid) })).haltChain w t ch code addr detail true

/-! ## The pilot's reads and stores (R237, R244) -/

/-- What a read by the pilot gives: bytes, a fault, or nothing until a page has been walked or a node of a hash tree
repaired. -/
inductive PilotRead where
  | got (bs : List Byte)
  | bad (c : Code) (detail : Nat)
  | miss (va : Nat)
  | later

/-- A read of 64 bytes by the pilot: fresh, under the table tag (R186, R193, R237). Another module's memory it does not
reach (log entry 22). `walked` are the walks of this moment that failed. -/
def M.pilotRead (m : M) (w t team : Nat) (walked : AMap (Nat × Nat)) (va : Nat) : PilotRead × M :=
  match m.place' t w team walked va 64 .read with
  | .scratch t2 off => (.got (m.scratchRead w t2 off 64), m)
  | .miss => (.miss va, m)
  | .bad c d => (.bad c d, m)
  | .page l =>
    let st := m.sliceTile t team va
    if l.homek = 1 then
      let line := hostLine l.homeid (l.pa va)
      if m.ecc.contains line then (.bad .uncorrectableData 0, m)
      else (.got (Memory.readN m.hmem (hostKey l.homeid (l.pa va)) 64), m.l1Drop st line)
    else if l.homek = 2 then (.bad .protection (detailOf 15 l.level .read), m)
    else
      let tag := (m.world w).tableTag (va / 64)
      let key := fieldKey l.homeid (l.pa va)
      if m.repairing (key / 64) then (.later, m)
      else
        let r := m.fieldRead key 64 w l.key tag.tid tag.ver
        match r.1 with
        | some bs => (.got bs, r.2.l1Drop st (key / 64))
        | none => (.bad (m.readFault (key / 64) w l.key tag.tid tag.ver) 0, r.2)

/-! ## Nodes and descriptors (R237, R238, R245 to R247) -/

/-- Doubleword j of a record. -/
def dword (bs : List Byte) (j : Nat) : W64 := BitVec.ofNat 64 (bytesNat ((bs.drop (8 * j)).take 8))

/-- A task node (Table 13-1); `bad` when it breaks a limit of the table. -/
def parseNode (bs : List Byte) : NodeRec :=
  let w0 := dword bs 0
  let w1 := dword bs 1
  let a := dword bs 2
  let b := dword bs 3
  let ib := dword bs 4
  let dc := dword bs 5
  let f (lo n : Nat) : Nat := w1.toNat / 2 ^ lo % 2 ^ n
  let kind := f 0 4
  let cw := f 4 4
  let cmp := f 8 2
  let sem := f 10 6
  let irq := f 16 1
  let semen := f 17 1
  let nout := f 18 2
  let nin := f 20 3
  let regs := f 23 9
  let count := f 32 32
  let common := w0.extractLsb' 56 8 == 0#8 && w0.extractLsb' 0 6 == 0#6 && dword bs 6 == 0#64 && dword bs 7 == 0#64
  let noKernel := count == 0 && regs == 0 && nin == 0 && nout == 0 && semen == 0 && ib == 0#64 && dc == 0#64
  let ok :=
    if kind = 1 then
      decide (1 ≤ count) && regs % 8 == 0 && decide (8 ≤ regs) && decide (regs ≤ 256) && decide (nin ≤ 4) && decide (nout ≤ 2)
        && irq == 0 && cmp == 0 && cw == 0 && a.extractLsb' 56 8 == 0#8 && a.extractLsb' 0 2 == 0#2 && dc.extractLsb' 0 6 == 0#6
        && (nin + nout != 0 || dc == 0#64)
    else if kind = 2 || kind = 3 then
      noKernel && irq == 0 && sem == 0 && b.extractLsb' 0 6 == 0#6 && (kind == 2 || b != 0#64)
    else if kind = 4 then
      noKernel && irq == 0 && cmp == 0 && cw == 0 && a.extractLsb' 32 32 == 0#32 && a != 0#64 && b == 0#64
    else if kind = 5 then
      noKernel && cmp == 0 && cw == 0 && sem == 0 && a.extractLsb' 56 8 == 0#8 && a.extractLsb' 0 3 == 0#3
        && b.extractLsb' 16 48 == 0#48
    else false
  { next := (w0.extractLsb' 0 56).toNat, count := count, regs := regs, nin := nin, nout := nout, semen := semen == 1,
    irq := irq == 1, sem := sem, cmp := cmp, cw := cw, kind := kind, a := a, b := b, ibase := ib, desc := dc,
    bad := !(common && ok) }

/-- A copy descriptor (Table 13-3). -/
def parseDesc (bs : List Byte) : CopyDesc :=
  let w0 := dword bs 0
  let f (lo n : Nat) : Nat := w0.toNat / 2 ^ lo % 2 ^ n
  let org (j : Nat) : Int := ((dword bs (1 + j / 2)).extractLsb' (32 * (j % 2)) 32).toInt
  let ext (j : Nat) : Nat := ((dword bs (4 + j / 4)).extractLsb' (16 * (j % 4)) 16).toNat
  let w6 := dword bs 6
  { tensor := f 48 16, slab := f 40 8, sem := f 32 6, scope := f 28 3, acq := f 27 1 == 1, rel := f 26 1 == 1,
    srck := f 25 1 == 1, span := f 22 3, loc := f 21 1 == 1, soff := f 0 20,
    org := (List.range 5).map org, ext := (List.range 5).map ext,
    m := (w6.extractLsb' 60 4).toNat, sfmt := (w6.extractLsb' 56 4).toNat, xoff := (w6.extractLsb' 0 20).toNat,
    resvBad := !(f 38 2 == 0 && f 31 1 == 0 && f 20 1 == 0 && (dword bs 3).extractLsb' 32 32 == 0#32
      && (dword bs 5).extractLsb' 16 48 == 0#48 && w6.extractLsb' 20 36 == 0#36 && dword bs 7 == 0#64) }

/-- Size of a copy in slab bytes (R246). -/
def CopyDesc.size (d : CopyDesc) (e : Tensor) : Nat :=
  let n := d.ext.foldl (· * ·) 1
  if d.srck then n else if e.fmt = 12 then n / 4 else fmtBytes e.fmt * n

/-- The team at a position of a team's cluster. -/
def M.teamAt (m : M) (team i : Nat) : Option Team :=
  ((look m.teams team).bind fun tm => look m.clusters tm.cluster).bind fun c =>
    if i < c.w * c.h then (look c.teams i).bind (look m.teams) else none

/-- A descriptor is well formed (R247). -/
def M.descOk (m : M) (w t team : Nat) (d : CopyDesc) (out : Bool) : Bool :=
  let wt := m.wt w t
  let e := ((m.world w).tensor d.tensor).getD {}
  let tm := look m.teams team
  let size := d.size e
  let fp := footprint d.span size
  let far := if d.srck then d.tensor == 0 && !d.loc && decide (d.sfmt ≤ 12) && !out
        && ((m.teamAt team d.m).map fun x => decide (d.xoff + size ≤ x.scratchLen)).getD false
      else
        d.m == 0 && d.sfmt == 0 && d.xoff == 0 && d.tensor != 0 && ((m.world w).tensor d.tensor).isSome
          && ((List.range 5).all fun i => decide (i < e.ndim) || (d.org.getD i 0 == 0 && d.ext.getD i 0 == 1))
          && (e.fmt != 12 || (d.org.getD 0 0 % 4 == 0 && d.ext.getD 0 0 % 4 == 0))
          && (!e.sparse || (d.org.getD 0 0 % 128 == 0 && d.ext.getD 0 0 % 128 == 0)) && !(out && e.ro)
  let near := if d.loc then decide (d.soff + fp ≤ 2048 * 128) && (slotsOf d.soff fp).all (wt.holds team)
              else decide (d.soff + fp ≤ (tm.map (·.scratchLen)).getD 0)
  !d.resvBad && decide (d.scope ≤ 5) && d.soff % 16 == 0 && d.ext.all (fun x => decide (1 ≤ x)) && decide (1 ≤ size)
    && decide (size ≤ 524288) && far && near

/-- What the pilot has read of a node. -/
inductive NodeRead where
  | node (nd : NodeRec) (ds : List CopyDesc)
  | bad (c : Code) (detail : Nat)
  | miss (va : Nat)
  | later

/-- Read the descriptors of a node, one after another. -/
def M.readDescs (m : M) (w t team : Nat) (walked : AMap (Nat × Nat)) (nd : NodeRec) : Nat → Nat → List CopyDesc → NodeRead × M
  | 0, _, ds => (.node nd ds, m)
  | n + 1, a, ds =>
    let r := m.pilotRead w t team walked a
    match r.1 with
    | .got bs => r.2.readDescs w t team walked nd n (a + 64) (ds ++ [parseDesc bs])
    | .bad c d => (.bad c d, r.2)
    | .miss va => (.miss va, r.2)
    | .later => (.later, r.2)

/-- Read a node and its descriptors, and check them (R237, R238, R247). -/
def M.readNode (m : M) (w t team : Nat) (walked : AMap (Nat × Nat)) (a : Nat) : NodeRead × M :=
  let r := m.pilotRead w t team walked a
  match r.1 with
  | .got bs =>
    let nd := parseNode bs
    if nd.bad then (.bad .illegalEncoding 0, r.2)
    else
      let ds := r.2.readDescs w t team walked nd (if nd.kind = 1 then nd.nin + nd.nout else 0) nd.desc.toNat []
      match ds.1 with
      | .node nd descs =>
        if (numbered 0 descs).any fun (i, d) => !ds.2.descOk w t team d (decide (nd.nin ≤ i)) then (.bad .illegalEncoding 0, ds.2)
        else ds
      | _ => ds
  | .bad c d => (.bad c d, r.2)
  | .miss va => (.miss va, r.2)
  | .later => (.later, r.2)

/-- The walk may come to the next node: it is known, it lies within the chain's sub-chain or before ATAIL, and the node
before it has been dispatched (R235, R239). -/
def Chain.mayReach (c : Chain) : Bool :=
  !c.halted && c.owner.isSome && c.walk != 0 && decide (c.nodes.length < 2) && c.nodes.all (·.dispatched)
    && (!c.ret.isEmpty || (c.atail != 0 && c.last != c.atail))

/-- The NEXT of a node just read: a CHAIN.LINK's store to it that has not performed yet is served already, and the pilot
follows it (R282); else what was read. -/
def M.nextOf (m : M) (w : Nat) (c : Chain) (n : NodeSt) : Nat :=
  let open' := m.acc.any fun a => a.world == w && a.va == n.addr && a.kind == .store && a.slot < 192 && !a.settled
  if c.ret.isEmpty && open' then (look c.links n.addr).getD n.nd.next else n.nd.next

/-- Where the walk goes after a node, and what is known of it then: a COND or WHILE decides when it acts. -/
def Chain.reach (c : Chain) (n : NodeSt) (next : Nat) : Chain :=
  let top := c.ret.isEmpty
  let n1 := { n with nd := { n.nd with next := next } }
  { c with nodes := c.nodes ++ [n1], walk := if n.nd.kind = 2 || n.nd.kind = 3 then 0 else next,
           last := if top then n.addr else c.last, links := if top then del c.links n.addr else c.links,
           head := if c.nodes.isEmpty then n.addr else c.head }

/-- The pilot works on a tile whose world is latched and not in a switch (R256). -/
def M.pilotWorld (m : M) (t : Nat) : Option Nat :=
  if (m.tile t).phase == .running && (m.tile t).out.isNone || 1 ≤ (m.tile t).spill && (m.tile t).phase == .running then
    (m.rowWorld t 1).filter fun w => !(m.world w).stopped
  else none

/-- The pilot comes to a chain's next node, with the faults of walks made at this moment. -/
def M.reachNode (m : M) (t ch : Nat) (walked : AMap (Nat × Nat)) : Option M :=
  match m.pilotWorld t with
  | none => none
  | some w =>
    let c := (m.wt w t).chain ch
    match c.owner with
    | none => none
    | some team =>
      if !c.mayReach then none
      else
        let r := m.readNode w t team walked c.walk
        match r.1 with
        | .bad code d => some (r.2.haltChain w t ch code c.walk d true)
        | .miss va => m.ask t w va
        | .later => none
        | .node nd descs =>
          let f := r.2.fresh
          let n := mkNode c.walk f.1 nd descs
          some (f.2.setWT w t ((f.2.wt w t).setChain ch (c.reach n (f.2.nextOf w c n))))

/-- NODE_REACHED (R237 to R239). -/
def M.nodeReached (m : M) (t ch : Nat) : Option M := m.reachNode t ch []

def execNodeReached (t ch : Nat) (s : State) : Host.Outcome State Fault Refusal := event s fun m => m.nodeReached t ch

/-! ## Moving a box (R248 to R251) -/

/-- Coordinates of a box in slab order, dimension 0 fastest. -/
def boxCoords : List Nat → List (List Nat)
  | [] => [[]]
  | e :: es => (boxCoords es).flatMap fun js => (List.range e).map (· :: js)

/-- Slab bytes of a unit: an element, a byte of four weights, or a block of 128 elements (R250). -/
def Tensor.unitBytes (e : Tensor) : Nat := if e.sparse then 128 * fmtBytes e.fmt else fmtBytes e.fmt

/-- How many elements of dimension 0 a unit takes. -/
def Tensor.perUnit (e : Tensor) : Nat := if e.sparse then 128 else if e.fmt = 12 then 4 else 1

/-- The units of a box in slab order, with the address of each that is in bounds (R249, R250). -/
def boxUnits (d : CopyDesc) (e : Tensor) : List (Option Nat) :=
  let per := e.perUnit
  let ext := (d.ext.getD 0 1 / per) :: d.ext.drop 1
  let org := (d.org.getD 0 0 / per) :: d.org.drop 1
  (boxCoords ext).map fun js =>
    let ids : List Int := (org.zip js).map fun (p : Int × Nat) => p.1 + (p.2 : Int)
    if ((ids.zip e.extents).all fun (i, x) => 0 ≤ i && i < (x : Int)) then
      some ((e.base : Int) + ((ids.zip e.stride).map fun (i, s) => i * s).foldl (· + ·) 0).toNat
    else none

/-- The unit that fills an element out of bounds (R249, R250). -/
def Tensor.fillUnit (e : Tensor) : List Byte :=
  let w := fmtBytes e.fmt
  ((List.range (e.unitBytes / w)).map fun _ => natBytes w e.fillv.toNat).flatten

/-- A fault of the ferry at a page (R251, R324). -/
def M.ferryCheck (m : M) (w va : Nat) (out : Bool) (l : Leaf) : Option (Code × Nat) :=
  match m.leafCheck w va .ferry l with
  | some f => some f
  | none => if out && l.ro then some (.protection, detailOf 6 l.level .ferry) else none

/-- Bytes that a copy moves in memory for a unit at an address. -/
def Tensor.memBytes (e : Tensor) : Nat := if e.sparse then 16 + 128 * fmtBytes e.fmt else fmtBytes e.fmt

/-- The units of a copy whose far side is a tensor. -/
def Copy.units (k : Copy) : List (Option Nat) := if k.desc.srck then [] else boxUnits k.desc k.tn

/-- A range of bytes cut at a page boundary (R251). -/
def pagePieces (a n : Nat) : List (Nat × Nat) :=
  let room := 65536 - a % 65536
  if n ≤ room then [(a, n)] else [(a, room), (a + room, n - room)]

/-- The footprint of a copy, cut at page boundaries, in footprint order (R251). -/
def Copy.entries (k : Copy) : List (Nat × Nat) :=
  k.units.flatMap fun u => match u with
    | some a => pagePieces a k.tn.memBytes
    | none => []

/-- Pages of a copy that tables translate. -/
def Copy.pages (k : Copy) : List Nat :=
  (((k.entries.map (·.1)).filter fun a => a < 2 ^ 56 && a / 2 ^ 48 != 0xFF).map (· / 65536)).eraseDups

/-- Where the ferry, or the slipway, reaches bytes from an address on: a local window, which takes them all or faults, a page
under the leaf the copy has for it, or a fault. The slipway tries a failed translation again (R254). -/
def M.ferryPlace (m : M) (k : Copy) (va : Nat) (n : Nat := 1) : Place :=
  let leaf (l : Leaf) : Place := match m.ferryCheck k.world va k.out l with
    | some (c, d) => .bad c d
    | none => .page l
  if 2 ^ 56 ≤ va then .bad .translation (detailOf 1 0 .ferry)
  else if va / 2 ^ 48 = 0xFF then m.window k.team va n .ferry
  else
    match look k.leaves (va / 65536), look k.bads (va / 65536) with
    | some l, _ => leaf l
    | none, none => .miss
    | none, some (c, d) =>
      if k.slip then
        match m.walk k.world va .ferry with
        | .leaf l => leaf l
        | .fault c d => .bad c d
      else .bad (walkCode c) (d % 256 + TKind.ferry.bits)

/-- The copy has an answer for every page it needs (R325). -/
def Copy.translated (k : Copy) : Bool := k.pages.all fun p => (look k.leaves p).isSome || (look k.bads p).isSome

/-- The pages of a copy's footprint are looked up in the tile's cache, and walks start for the others (R325). -/
def M.askPages (m : M) (k : Copy) : Copy × M :=
  k.pages.foldl (fun (r : Copy × M) p =>
    match r.2.tlbHit k.tile k.world (p * 65536) with
    | some l => ({ r.1 with leaves := put r.1.leaves p l }, r.2)
    | none => (r.1, r.2.startWalk k.tile k.world (p * 65536))) (k, m)

/-- The first page of a footprint that fails its check, in footprint order (R251). A page without a translation is no
such failure: it is the slipway's (R254). -/
def M.boxCheck (m : M) (k : Copy) : Option Nat :=
  k.entries.findSome? fun (va, n) => match m.ferryPlace k va n with
    | .bad .protection r => some r
    | _ => none

/-- A byte of a copy that a response from another module has brought. -/
def M.remoteByte (m : M) (k : Copy) (va : Nat) : Option Byte :=
  (m.acc.find? fun x => x.op == k.id && x.group == 0 && x.kind == .load && x.va ≤ va && va < x.va + x.size).bind fun x => match x.res with
    | some (.data bs) => bs[va - x.va]?
    | _ => none

/-- One byte that an input copy reads, if it can be read now: without the staged stores of its own team (log entry 70). -/
def M.ferryByte (m : M) (k : Copy) (va : Nat) : Option Byte :=
  match m.ferryPlace k va with
  | .bad _ _ => none
  | .miss => none
  | .scratch t off => (m.scratchRead k.world t off 1).head?
  | .page l =>
    if l.homek = 1 then
      if m.ecc.contains (hostLine l.homeid (l.pa va)) then none else some (Memory.read m.hmem (hostKey l.homeid (l.pa va)))
    else if l.homek = 2 then m.remoteByte k va
    else
      let key := fieldKey l.homeid (l.pa va)
      if (m.lineFault (key / 64) k.world l.key k.desc.tensor k.tn.ver.toNat).isSome then none
      else
        match m.view (key / 64) k.world l.key k.desc.tensor k.tn.ver.toNat with
        | .blank => some (Memory.read m.fmem key)
        | .plain => some (Memory.read m.fmem key)
        | .garbled => some (Config.freeByte m.free va)
        | .older => none
        | .bad => none

/-- Bytes of memory for a unit. -/
def M.ferryBytes (m : M) (k : Copy) (a n : Nat) : Option (List Byte) := (List.range n).mapM fun i => m.ferryByte k (a + i)

/-- Some line of a copy lies under a node of a hash tree that is being repaired: the copy waits (R397). -/
def M.copyWaits (m : M) (k : Copy) : Bool :=
  (!m.failed.isEmpty || m.fields.any fun (_, f) => 2 ≤ f.pst) && k.units.any fun u => u.any fun a =>
    (List.range ((a + k.tn.memBytes - 1) / 64 - a / 64 + 1)).any fun i => match m.ferryPlace k (max a ((a / 64 + i) * 64)) with
      | .page l => l.homek == 0 && m.repairing (fieldKey l.homeid (l.pa (max a ((a / 64 + i) * 64))) / 64)
      | _ => false

/-- Ones of a mask of 128 below a place. -/
def maskRank (mask n : Nat) : Nat := ((List.range n).filter fun i => Nat.testBit mask i).length

/-- Ones of a mask of 128. -/
def maskOnes (mask : Nat) : Nat := maskRank mask 128

/-- The elements of a unit in bounds, each if it can be read now: of a sparse block the mask first, then the values its
ones stand for, which follow it closely (R250). -/
def M.unitRead (m : M) (k : Copy) (a : Nat) : List (Option (List Byte)) :=
  let w := fmtBytes k.tn.fmt
  if k.tn.sparse then
    match (m.ferryBytes k a 16).map bytesNat with
    | some mask => (List.range 128).map fun j =>
        if Nat.testBit mask j then m.ferryBytes k (a + 16 + w * maskRank mask j) w else some (List.replicate w 0)
    | none => List.replicate 128 none
  else [m.ferryBytes k a w]

/-- Slab bytes of a unit of a copy, and of an element. -/
def Copy.unit (k : Copy) : Nat := if k.desc.srck then 1 else k.tn.unitBytes
def Copy.elem (k : Copy) : Nat := if k.desc.srck then 1 else fmtBytes k.tn.fmt

/-- The units of an input copy with what the ferry writes for each element: whether the unit is in bounds, and none for an
element that cannot be read now. -/
def M.copyIn (m : M) (k : Copy) : List (Bool × List (Option (List Byte))) :=
  if k.desc.srck then
    match m.teamAt k.team k.desc.m with
    | some x => (m.scratchRead k.world x.tile (x.scratch + k.desc.xoff) k.size).map fun b => (true, [some [b]])
    | none => []
  else k.units.map fun u => match u with
    | some a => (true, m.unitRead k a)
    | none => (false, (List.range (k.unit / k.elem)).map fun j => some ((k.tn.fillUnit.drop (k.elem * j)).take k.elem))

/-- Every element of an input copy can be read now. -/
def M.readable (m : M) (k : Copy) : Bool := (m.copyIn k).all fun (_, es) => es.all (·.isSome)

/-- What an input copy delivers, element by element: its place in the slab, whether it is in bounds, and its bytes where
they can be read (R249, R250, R254). -/
def M.elements (m : M) (k : Copy) : List (Nat × Bool × List Byte) :=
  (numbered 0 (m.copyIn k)).flatMap fun (i, inb, es) =>
    (numbered 0 es).filterMap fun (j, b) => b.map fun bs => (k.unit * i + k.elem * j, inb, bs)

/-- Write bytes of a slab at a logical offset (R223). -/
def M.slabWrite (m : M) (w t : Nat) (e : Slab) (o : Nat) (bs : List Byte) : M :=
  let wt := m.wt w t
  let cells := (numbered 0 bs).map fun (i, b) => (e.place (o + i), b)
  if e.loc then m.setWT w t { wt with omem := cells.foldl (fun om (a, b) => Memory.write om a b) wt.omem }
  else
    let m1 := m.setWT w t { wt with scratch := cells.foldl (fun sc (a, b) => Memory.write sc a b) wt.scratch }
    ((cells.map fun (a, _) => a / 64).eraseDups).foldl (fun m l => m.loseResv (scratchLine w t (64 * l))) m1

/-- Read bytes of a slab. -/
def WT.slabRead (wt : WT) (e : Slab) (o n : Nat) : List Byte :=
  (List.range n).map fun i => Memory.read (if e.loc then wt.omem else wt.scratch) (e.place (o + i))

/-- The elements that are delivered reach the slab; DELIV and FILL follow (R249, R254). -/
def M.deliver (m : M) (k : Copy) (us : List (Nat × Bool × List Byte)) : M :=
  let e := (m.wt k.world k.tile).slab k.desc.slab
  let m1 := us.foldl (fun m (o, _, bs) => m.slabWrite k.world k.tile e o bs) m
  let n := (us.filter fun (_, inb, _) => inb).length
  let wt := m1.wt k.world k.tile
  m1.setWT k.world k.tile (wt.setSlab k.desc.slab
    { e with deliv := BitVec.ofNat 32 (k.elem * n), fill := us.any fun (_, inb, _) => !inb })

/-- A copy is over: it goes, with what it had under way. -/
def M.dropCopy (m : M) (k : Copy) : M :=
  { m with copies := m.copies.filter (·.id != k.id), acc := m.acc.filter fun a => !(a.group == 0 && a.op == k.id && a.slot == 192 + k.ch && a.ctr == 8) }

/-- The slab of an input copy leaves FILLING: READY with the spans of its slots recorded, and EMPTY in the same cycle
when its node was discarded, unless an accepted pass reads it (R252, R255, R261, R262). -/
def M.inputEnds (m : M) (k : Copy) : M :=
  let wt := m.wt k.world k.tile
  let e := wt.slab k.desc.slab
  let spans := e.slots.foldl (fun sp i => mset 0 sp i e.span.toNat) wt.spans
  (m.setWT k.world k.tile (WT.freeOrphans { wt.setSlab k.desc.slab { e with st := .ready, going := k.discard } with spans := spans })).dropCopy k

/-- Lines of memory from which a unit in bounds is read: those of a sparse block as far as its mask has ones (R250). -/
def M.unitLines (m : M) (k : Copy) (a : Nat) : List Nat :=
  let n := if k.tn.sparse then ((m.ferryBytes k a 16).map fun mb => 16 + fmtBytes k.tn.fmt * maskOnes (bytesNat mb)).getD 16 else k.tn.memBytes
  (List.range ((a + n - 1) / 64 - a / 64 + 1)).map (· + a / 64)

/-- Lease units that a copy takes on the lines it reads, but for those of non-cacheable pages (R248, R251). -/
def M.copyLeases (m : M) (k : Copy) : M :=
  if k.desc.acq then m
  else
    ((k.units.flatMap fun u => u.elim [] (m.unitLines k)).eraseDups).foldl (fun m line =>
      match m.ferryPlace k (line * 64) with
      | .page l =>
        if l.homek = 0 then
          let fl := fieldKey l.homeid (l.pa (line * 64)) / 64
          if l.nc then m else m.recordLease l.homeid fl (m.grant l.homeid fl .dflt k.tn.lclass (k.tn.ro || l.ro) false)
        else m
      | _ => m) m

/-- A copy under way. -/
def M.copy (m : M) (id : Nat) : Option Copy := m.copies.find? (·.id == id)

/-- An input copy completes with every unit (R252). -/
def M.inputDone (m : M) (k : Copy) : Option M :=
  if !k.translated || m.copyWaits k || !m.readable k then none
  else
    let m1 := (m.freeVal).2.copyLeases k
    some (((m1.deliver k (m.elements k)).inputEnds k).semInc k.world k.tile k.desc.sem)

/-- INPUT_COPY_COMPLETE. -/
def M.inputOver (m : M) (c : Nat) : Option M := (m.copy c).bind fun k => if k.out || k.slip then none else m.inputDone k

def execInputCopyComplete (c : Nat) (s : State) : Host.Outcome State Fault Refusal := event s fun m => m.inputOver c

/-- Compress a block for a sparse tensor (R250). -/
def compressBlock (w : Nat) (bs : List Byte) : List Byte :=
  let es := (List.range 128).map fun i => (bs.drop (w * i)).take w
  let mask := (numbered 0 es).foldl (fun n (i, e) => if e.any (· != 0) then n + 2 ^ i else n) 0
  let vs := (es.filter fun e => e.any (· != 0)).flatten
  natBytes 16 mask ++ vs ++ List.replicate (128 * w - vs.length) 0

/-- The writes of an output copy: each in-bounds unit's address and bytes (R248 to R250). -/
def M.copyOut (m : M) (k : Copy) : List (Nat × List Byte) :=
  let wt := m.wt k.world k.tile
  let e := wt.slab k.desc.slab
  (numbered 0 k.units).filterMap fun (i, u) => u.map fun a =>
    let bs := wt.slabRead e (k.unit * i) k.unit
    (a, if k.tn.sparse then compressBlock (fmtBytes k.tn.fmt) bs else bs)

/-- An access of the ferry or of the pilot, for a chain (R251, R244): in no counter, its bytes at another home's
address. -/
def M.pieceAcc (m : M) (w t ch team op va size : Nat) (data : List Byte) (kind : AKind) (homek homeid pa : Nat) (ph : Phase) : Access :=
  { id := m.uid, world := w, tile := t, slot := 192 + ch, group := 0, team := team,
    launch := ((look m.teams team).map (·.launch)).getD 0, op := op, lane := 0, thread := 0, pc := 0, kind := kind, ctr := 8,
    ea := va, va := va, size := size, data := data, pa := pa, homek := homek, homeid := homeid, start := m.tileClock t, phase := ph }

/-- A piece of a copy has been asked for at another module. -/
def M.asked (m : M) (k : Copy) (va : Nat) : Bool := m.acc.any fun x => x.group == 0 && x.op == k.id && x.va ≤ va && va < x.va + x.size

/-- Requests to other modules for bytes of a copy homed there, cut at page boundaries, once each (R251, R412). -/
def M.askPieces (m : M) (k : Copy) (us : List (Nat × List Byte)) : M :=
  us.foldl (fun m (a, bs) => (pagePieces a bs.length).foldl (fun m (va, n) =>
    match m.ferryPlace k va with
    | .page l =>
      if l.homek != 2 || n = 0 || m.asked k va then m
      else
        let x := m.pieceAcc k.world k.tile k.ch k.team k.id va n (if k.out then (bs.drop (va - a)).take n else [])
          (if k.out then .store else .load) 2 l.homeid (l.pa va) (.remote l.homeid)
        let y : Access := if m.canReach k.world l.homeid then { x with link := m.linkTo (m.partNum k.world) l.homeid } else x.failed .remoteUnreachable 0
        { m.fresh.2 with acc := m.acc ++ [y] }
    | _ => m) m) m

/-- The values of the sparse blocks whose masks are there, which are read only as far as the masks have ones (R250). -/
def M.valuePieces (m : M) (k : Copy) : M :=
  if k.out || !k.tn.sparse then m
  else m.askPieces k (k.units.filterMap fun u => u.bind fun a => (m.ferryBytes k a 16).map fun mb =>
    (a + 16, List.replicate (fmtBytes k.tn.fmt * maskOnes (bytesNat mb)) 0))

/-- Requests to other modules for the pieces of a copy homed there: of a sparse input block its mask first (R250, R251). -/
def M.remotePieces (m : M) (k : Copy) : M :=
  let n := if k.tn.sparse then 16 else k.tn.memBytes
  (m.askPieces k (if k.out then m.copyOut k else k.units.filterMap fun u => u.map fun a => (a, List.replicate n 0))).valuePieces k

/-- The next node of a chain whose input i can begin (R239, R248): without ACQ when it is reached, with ACQ when it is the
first of the nodes not retired. -/
def Chain.canBegin (c : Chain) (wt : WT) (i : Nat) : Option NodeSt :=
  (numbered 0 c.nodes).findSome? fun (j, n) =>
    match n.descs[i]? with
    | some d =>
      if n.nd.kind = 1 && i < n.nd.nin && !n.begun.contains i && !n.dispatched && (!d.acq || j = 0) && (wt.slab d.slab).st == .empty
      then some n else none
    | none => none

/-- Change a node of a chain. -/
def Chain.updNode (c : Chain) (uid : Nat) (f : NodeSt → NodeSt) : Chain :=
  { c with nodes := c.nodes.map fun n => if n.uid = uid then f n else n }

/-- A node whose output copies have all completed signals and retires; a halted chain's does not signal (R241). -/
def M.nodeEnds (m : M) (w t ch : Nat) (uid : Nat) : M :=
  let c := (m.wt w t).chain ch
  match c.nodes.find? (·.uid == uid) with
  | none => m
  | some n =>
    if !n.finishing || m.copies.any (fun k => k.node == uid) then m
    else
      let m1 := if n.nd.semen && !c.halted then m.semInc w t n.nd.sem else m
      m1.retire w t ch uid

/-- A copy fails the check of its pages: it ends with ERR set and nothing moved, and halts its chain with PROTECTION (R251). A
discarded copy has no chain to halt any more. -/
def M.barred (m : M) (k : Copy) (reason : Nat) : M :=
  let addr := ((((m.wt k.world k.tile).chain k.ch).nodes.find? (·.uid == k.node)).map (·.addr)).getD 0
  let wt := m.wt k.world k.tile
  let e := wt.slab k.desc.slab
  let m1 := if k.out then (m.setWT k.world k.tile (wt.setSlab k.desc.slab { e with st := .empty })).dropCopy k else m.inputEnds k
  let m2 := m1.semErr k.world k.tile k.desc.sem
  (if k.discard then m2 else m2.haltChain k.world k.tile k.ch .protection addr reason true).nodeEnds k.world k.tile k.ch k.node

/-- A request for a piece of a copy goes out again (R254). -/
def M.askAgain (m : M) (a : Access) : M :=
  { m.setAcc { a with phase := .remote a.homeid, res := none, start := m.tileClock a.tile } with
    copies := m.copies.map fun k => if k.id = a.op then { k with retried := a.va :: k.retried } else k }

/-- The slipway asks for a piece again: after a failed translation, and twice after a memory error (R254). -/
def Copy.retries (k : Copy) (va : Nat) (code : Code) : Bool :=
  code == .translation || ((code == .integrity || code == .uncorrectableData) && decide (k.retried.count va < 2))

/-- A piece of a copy fails at another module: a page that its owner forbids ends the copy as the check of a page here does
(R251); else the slipway asks again while it may, and the piece stays failed (R254). -/
def M.pieceFails (m : M) (a : Access) (code : Code) (detail : Nat) : M :=
  match m.copies.find? (·.id == a.op) with
  | none => m.dropAcc a.id
  | some k =>
    if code = .protection then m.barred k detail
    else if k.slip && k.retries a.va code then m.askAgain a
    else m.setAcc (a.failed code detail)

/-- Once every page of a copy has its translation, the pages are checked: a copy of which one fails moves nothing, sets
ERR and halts its chain; else the pieces at other modules leave, but for the staged writes of a deterministic team
(R127, R251, R252). -/
def M.copyChecked (m : M) (id : Nat) : M :=
  match m.copy id with
  | none => m
  | some k =>
    if !k.translated then m
    else
      match m.boxCheck k with
      | none => if k.out && m.det k.team then m else m.remotePieces k
      | some r => m.barred k r

/-- A walk's result reaches a copy that needs the page (R325). -/
def M.copyWalked (m : M) (id page : Nat) (r : TRes) : M :=
  let got (k : Copy) : Copy :=
    if k.id ≠ id then k
    else match r with
      | .leaf l => { k with leaves := put k.leaves page l }
      | .fault c d => { k with bads := put k.bads page (c.num.toNat, d) }
  ({ m with copies := m.copies.map got } : M).copyChecked id

/-- INPUT_COPY_START (R248, R251). -/
def M.inputStart (m : M) (t ch i : Nat) : Option M :=
  match m.pilotWorld t with
  | none => none
  | some w =>
    let wt := m.wt w t
    let c := wt.chain ch
    if c.halted then none
    else
      match c.canBegin wt i, c.owner with
      | some n, some team =>
        match n.descs[i]? with
        | none => none
        | some d =>
          let tn := ((m.world w).tensor d.tensor).getD {}
          let start := ((look m.teams team).map (·.scratch)).getD 0
          let e : Slab :=
            { st := .filling, owner := BitVec.ofNat 8 ch, loc := d.loc, span := BitVec.ofNat 3 d.span,
              fmt := BitVec.ofNat 4 (if d.srck then d.sfmt else tn.fmt), size := BitVec.ofNat 20 (d.size tn),
              offset := BitVec.ofNat 20 (if d.loc then d.soff else start + d.soff) }
          let c1 := c.updNode n.uid fun n => { n with begun := i :: n.begun }
          let m1 := m.setWT w t ((wt.setSlab d.slab e).setChain ch c1)
          let f := m1.fresh
          let k : Copy := { id := f.1, world := w, tile := t, team := team, ch := ch, node := n.uid, out := false, desc := d,
                            tn := tn, size := d.size tn }
          let r := f.2.askPages k
          some ({ r.2 with copies := r.2.copies ++ [r.1] }.copyChecked k.id)
      | _, _ => none

def execInputCopyStart (t ch i : Nat) (s : State) : Host.Outcome State Fault Refusal := event s fun m => m.inputStart t ch i

/-! ## Dispatch of a KERNEL node (R240) -/

/-- The uniform record of a node's threads (Table 13-2). -/
def NodeSt.uniforms (n : NodeSt) (tm : Team) : AMap W64 :=
  mset 0 (mset 0 (mset 0 [] 0 n.nd.b) 1 (BitVec.ofNat 64 n.addr)) 63 (BitVec.ofNat 64 (tm.limit + tm.depth))

/-- Bytes that the next thread of a node takes in the landing (R114, R115, R119). -/
def WT.nodeNeed (wt : WT) (team : Nat) (tm : Team) (n : NodeSt) : Nat := wt.needOf team (n.uniforms tm) (entryBytes 4)

/-- Spawn thread j of a node. -/
def M.spawnNode (m : M) (w t ch : Nat) (team : Nat) (tm : Team) (n : NodeSt) (j : Nat) : M :=
  let k := n.uniforms tm
  let wt := m.wt w t
  let u := wt.urecFor team k
  let pc := n.nd.a.extractLsb' 0 56
  let th : Thread :=
    { (({ idx := n.nd.ibase + BitVec.ofNat 64 j, entry := n.nd.a, regpc := pc, node := some n.uid, spawned := true } : Thread).setPair 0 n.nd.b).setXs 2
        [BitVec.ofNat 32 j, BitVec.ofNat 32 ch] with meet := 0 }
  let e : Waiting := { th := th, pc := pc, allot := n.nd.regs, l := 4, team := team, urec := u.1, born := m.uid }
  m.setWT w t (u.2.enterBin (m.tile t).cycle pc u.1 team (m.bint team) [e])

/-- Spawn the threads of a node, in ascending j, while the landing admits them (R119, R240). -/
def M.spawnOn (m : M) (w t ch : Nat) : Nat → M
  | 0 => m
  | fuel + 1 =>
    let wt := m.wt w t
    let c := wt.chain ch
    match c.owner, c.nodes.find? fun n => n.dispatched && n.nd.kind == 1 && decide (n.spawned < n.nd.count) with
    | some team, some n =>
      match look m.teams team with
      | none => m
      | some tm =>
        if wt.restored < 5 then m
        else if !wt.creates (wt.nodeNeed team tm n) then m.setWT w t (wt.wants (wt.nodeNeed team tm n))
        else
          let m1 := m.spawnNode w t ch team tm n n.spawned
          let m2 := m1.setWT w t ((m1.wt w t).setChain ch ((m1.wt w t).chain ch |>.updNode n.uid fun n =>
            { n with spawned := n.spawned + 1 }))
          M.spawnOn m2 w t ch fuel
    | _, _ => m

/-- Entries the landing could take at all: a bound on the threads of one step. -/
def spawnFuel : Nat := 5056

/-- NODE_DISPATCH (R239, R240): the node before has retired, every input has been copied and every slab is READY. -/
def M.nodeDispatch (m : M) (t ch : Nat) : Option M :=
  match m.pilotWorld t with
  | none => none
  | some w =>
    let wt := m.wt w t
    let c := wt.chain ch
    match c.nodes, c.owner with
    | n :: _, some team =>
      if c.halted || n.nd.kind != 1 || n.dispatched || n.begun.length < n.nd.nin
          || m.copies.any (fun k => k.node == n.uid) || n.descs.any (fun d => (wt.slab d.slab).st != .ready) then none
      else
        let c1 := c.updNode n.uid fun n => { n with dispatched := true, live := n.nd.count }
        let m1 := (m.setWT w t (wt.setChain ch c1)).updTeam team fun tm => { tm with live := tm.live + n.nd.count }
        some (m1.spawnOn w t ch (min n.nd.count spawnFuel))
    | _, _ => none

def execNodeDispatch (t ch : Nat) (s : State) : Host.Outcome State Fault Refusal := event s fun m => m.nodeDispatch t ch

/-- LANDING_ADMISSION (R119, R240): the pilot resumes the spawning of a node it had paused, the first whose next thread
fits. -/
def M.admission (m : M) (t : Nat) : Option M :=
  match (m.tile t).latch with
  | none => none
  | some w =>
    let wt := m.wt w t
    let paused := wt.chains.filterMap fun (ch, c) =>
      (c.nodes.find? fun n => n.dispatched && n.nd.kind == 1 && decide (n.spawned < n.nd.count)).bind fun n =>
        c.owner.bind fun team => (look m.teams team).map fun tm => (ch, wt.nodeNeed team tm n)
    ((paused.find? fun (_, need) => wt.creates need).filter fun _ => 5 ≤ wt.restored).map fun (ch, _) => m.spawnOn w t ch spawnFuel

def execLandingAdmission (t : Nat) (s : State) : Host.Outcome State Fault Refusal := event s fun m => m.admission t

/-! ## The end of a KERNEL node (R241) -/

/-- The output copies of a node start, in order; in a halted chain none does, and a slab of the chain is released
(R241). -/
def M.outputStart (m : M) (w t ch : Nat) (n : NodeSt) (team : Nat) (d : CopyDesc) : M :=
  let wt := m.wt w t
  let e := wt.slab d.slab
  if (wt.chain ch).halted then
    (if e.owner = BitVec.ofNat 8 ch && e.st == .ready then m.setWT w t (wt.setSlab d.slab { e with st := .empty }) else m)
  else
    let tn := ((m.world w).tensor d.tensor).getD {}
    let f := (m.setWT w t (wt.setSlab d.slab { e with st := .draining })).fresh
    let k : Copy := { id := f.1, world := w, tile := t, team := team, ch := ch, node := n.uid, out := true, desc := d, tn := tn,
                      size := d.size tn }
    let r := f.2.askPages k
    { r.2 with copies := r.2.copies ++ [r.1] }.copyChecked k.id

/-- KERNEL_NODE_FINISH (R241, R262). An output's slab goes to DRAINING from READY alone (R179), so that one which the program
has released or bound anew holds the node back (log entry 85). -/
def M.nodeFinish (m : M) (t ch : Nat) : Option M :=
  match m.pilotWorld t with
  | none => none
  | some w =>
    let wt := m.wt w t
    let c := wt.chain ch
    match c.nodes, c.owner with
    | n :: _, some team =>
      let outs := n.descs.drop n.nd.nin
      let ins := (n.descs.take n.nd.nin).filter fun d => !(outs.any fun o => o.slab == d.slab)
      if n.nd.kind != 1 || !n.dispatched || n.finishing || n.spawned < n.nd.count || n.live != 0
          || m.acc.any (fun a => n.stores.contains a.id) || n.descs.any (fun d => wt.passReads (wt.slab d.slab))
          || (!c.halted && outs.any fun d => (wt.slab d.slab).st != .ready) then none
      else
        let free (wt : WT) (d : CopyDesc) : WT :=
          let e := wt.slab d.slab
          if e.st == .ready then wt.setSlab d.slab { e with st := .empty } else wt
        let wt1 := (ins.foldl free wt).setChain ch (c.updNode n.uid fun n => { n with finishing := true })
        let m1 := outs.foldl (fun m d => m.outputStart w t ch n team d) (m.setWT w t wt1)
        some (m1.nodeEnds w t ch n.uid)
    | _, _ => none

def execKernelNodeFinish (t ch : Nat) (s : State) : Host.Outcome State Fault Refusal := event s fun m => m.nodeFinish t ch

/-- Bytes of writes by address, lines whole where they are covered whole. -/
def byLine (ws : List (Nat × List Byte)) : AMap (AMap Byte) :=
  ws.foldl (fun acc (a, bs) => (numbered a bs).foldl (fun acc (va, b) =>
    put acc (va / 64) (put (mget [] acc (va / 64)) (va % 64) b)) acc) []

/-- Runs of neighbouring bytes. -/
def runs (bs : AMap Byte) : List (Nat × List Byte) :=
  bs.foldr (fun (i, b) acc => match acc with
    | (j, r) :: rest => if j = i + 1 then (i, b :: r) :: rest else (i, [b]) :: acc
    | [] => [(i, [b])]) []

/-- Write one line's bytes for a copy, where they are not another module's: to scratch, staged in deterministic mode, or
home, and the tile's own copy of the line goes; the wait, or none when they cannot be written now (R127, R177, R188, R195,
R252). -/
def M.lineWrite (m : M) (k : Copy) (line : Nat) (bs : AMap Byte) : Option (Nat × M) :=
  let first := line * 64 + ((bs.head?).map (·.1)).getD 0
  match m.ferryPlace k first with
  | .bad _ _ => none
  | .miss => none
  | .scratch _ _ => (bs.foldlM (fun (m : M) (i, b) => match m.ferryPlace k (line * 64 + i) with
      | .scratch t off => some (m.scratchWrite k.world t off [b])
      | _ => none) m).map fun m1 => (0, m1)
  | .page l =>
    let pa := l.pa (line * 64)
    if m.det k.team then
      some (0, m.fresh.2.updTeam k.team fun tm => { tm with staged := tm.staged ++ (runs bs).map fun (i, r) =>
        { va := line * 64 + i, data := r, tid := k.desc.tensor, ver := k.tn.ver.toNat, homek := l.homek, homeid := l.homeid,
          pa := pa + i, key := l.key, id := m.uid } })
    else if l.homek = 2 then some (0, m)
    else if l.homek = 1 then
      let hm := (runs bs).foldl (fun h (i, r) => Memory.writeL h (hostKey l.homeid pa + i) r) m.hmem
      some (0, { m.l1Drop (m.sliceTile k.tile k.team (line * 64)) (hostLine l.homeid pa) with hmem := hm })
    else
      let key := fieldKey l.homeid pa
      ((runs bs).foldlM (fun (m : M) (i, r) => m.fieldWrite (key + i) r k.world l.key k.desc.tensor k.tn.ver.toNat) m).map fun (m1 : M) =>
        (m1.l1Drop (m.sliceTile k.tile k.team (line * 64)) (key / 64)).performed l.homeid (key / 64)

/-- All lines of a copy: the longest wait, or none when one cannot be written now. -/
def M.linesWrite (m : M) (k : Copy) (ls : AMap (AMap Byte)) : Option (Nat × M) :=
  ls.foldlM (fun (p : Nat × M) (line, bs) => (p.2.lineWrite k line bs).map fun r => (max p.1 r.1, r.2)) (0, m)

/-- The slab of an output copy leaves DRAINING (R252). -/
def M.outputEnds (m : M) (k : Copy) : M :=
  let wt := m.wt k.world k.tile
  let e := wt.slab k.desc.slab
  (m.setWT k.world k.tile (wt.setSlab k.desc.slab { e with st := .empty })).dropCopy k

/-- Accesses of a copy are still under way: pieces at other modules, or waits of its writes. -/
def M.piecesOpen (m : M) (k : Copy) : Bool := m.acc.any fun a => a.group == 0 && a.op == k.id && a.ctr == 8 && a.kind == .store

/-- A wait that runs for a chain: that of its copy's writes, or of its SIGNAL's (R196, R207, R244). -/
def M.chainWait (m : M) (w t ch team op wait : Nat) : M :=
  if wait = 0 then m
  else
    let x := m.pieceAcc w t ch team op 0 0 [] .store 0 0 0 (.done true wait)
    { m.fresh.2 with acc := m.acc ++ [x] }

/-- An output copy has moved everything: its slab and its semaphore change, and its node may end (R252). -/
def M.outputOut (m : M) (k : Copy) : M :=
  ((m.outputEnds k).semInc k.world k.tile k.desc.sem).nodeEnds k.world k.tile k.ch k.node

/-- The writes of an output copy perform; with REL it completes once their waits have run out, else at once, and what the
chain does later waits for them (R207, R244, R252). -/
def M.outputDone (m : M) (k : Copy) : Option M :=
  if !k.translated || m.copyWaits k || m.piecesOpen k then none
  else if k.moved then some (m.outputOut k)
  else
    (m.linesWrite k (byLine (m.copyOut k))).map fun (wait, m1) =>
      if k.desc.rel && wait != 0 then
        let js := m1.copies.map fun j => if j.id = k.id then { j with moved := true } else j
        ({ m1 with copies := js } : M).chainWait k.world k.tile k.ch k.team k.id wait
      else (m1.outputOut k).chainWait k.world k.tile k.ch k.team 0 wait

/-- OUTPUT_COPY_COMPLETE. -/
def M.outputOver (m : M) (c : Nat) : Option M := (m.copy c).bind fun k => if k.out && !k.slip then m.outputDone k else none

def execOutputCopyComplete (c : Nat) (s : State) : Host.Outcome State Fault Refusal := event s fun m => m.outputOver c

/-! ## The slipway (R254) -/

/-- Pieces of a copy are on their way to other modules and back. -/
def M.piecesFly (m : M) (k : Copy) : Bool := m.acc.any fun a => a.group == 0 && a.op == k.id && !a.settled

/-- A piece of a copy has failed, with what code. -/
def Copy.failedPiece (k : Copy) (a : Access) : Option Code :=
  if a.group != 0 || a.op != k.id || a.ctr != 8 then none else (a.fault?).map (·.code)

/-- A translation or a line stops the copy now. -/
def M.copyStuck (m : M) (k : Copy) : Bool :=
  if !k.translated || k.moved || m.copyWaits k || m.piecesFly k then false
  else if k.out then (m.linesWrite k (byLine (m.copyOut k))).isNone || m.acc.any fun a => (k.failedPiece a).isSome
  else !m.readable k

/-- What the slipway asks other modules for, besides what the ferry did: failed pieces again, and values whose mask it has
(R250, R254). -/
def M.slipPieces (m : M) (k : Copy) : M :=
  let again := m.acc.filter fun a => (k.failedPiece a).any (k.retries a.va)
  (again.foldl M.askAgain m).valuePieces k

/-- SLIPWAY_HANDOFF. -/
def M.handOff (m : M) (c : Nat) : Option M :=
  (m.copy c).bind fun k =>
    if k.slip || !m.copyStuck k then none
    else some (({ m with copies := m.copies.map fun j => if j.id = c then { j with slip := true } else j } : M).slipPieces k)

def execSlipwayHandoff (c : Nat) (s : State) : Host.Outcome State Fault Refusal := event s fun m => m.handOff c

/-- A copy fails in the slipway: which elements of an input arrived, and which lines of an output, is left open (R254),
a free choice for each that could (log entry 12); ERR is set and the chain halts, if the copy still has one. -/
def M.copyFails (m : M) (k : Copy) : M :=
  let f := m.freeVal
  let addr := (((f.2.wt k.world k.tile).chain k.ch).nodes.find? (·.uid == k.node)).map (·.addr) |>.getD 0
  let m1 :=
    if k.out then
      let ls := byLine (f.2.copyOut k)
      let some' := ls.foldl (fun (m : M) (line, bs) =>
        if Config.freeBool f.1 line then ((m.lineWrite k line bs).map (·.2)).getD m else m) f.2
      some'.outputEnds k
    else
      (f.2.deliver k ((f.2.elements k).filter fun (o, _, _) => Config.freeBool f.1 o)).inputEnds k
  let m2 := m1.semErr k.world k.tile k.desc.sem
  (if k.discard then m2 else m2.haltChain k.world k.tile k.ch .copyFailed addr 0 true).nodeEnds k.world k.tile k.ch k.node

/-- SLIPWAY_COMPLETE: every remaining byte moves, or a line still fails. -/
def M.slipOver (m : M) (c : Nat) (ok : Bool) : Option M :=
  (m.copy c).bind fun k =>
    if !k.slip then none
    else if ok then (if k.out then m.outputDone k else m.inputDone k)
    else if m.copyStuck k then some (m.copyFails k) else none

/-- SLIPWAY_RETRY_EXPIRY: 2^20 lease units have passed, with a translation that still fails or is asked for again. -/
def M.slipExpires (m : M) (c : Nat) : Option M :=
  (m.copy c).bind fun k =>
    if k.slip && (m.copyStuck k || (m.piecesFly k && !k.retried.isEmpty)) then some ((m.passUnits (2 ^ 20)).copyFails k) else none

/-! ## Conditions, joins and signals (R242 to R244) -/

/-- The comparison of a COND or WHILE (Table 13-1). -/
def nodeCond (wt : WT) (nd : NodeRec) : Bool :=
  let v := mget 0 wt.cws nd.cw
  if nd.cmp = 0 then v == nd.a else if nd.cmp = 1 then v != nd.a else if nd.cmp = 2 then v.toNat < nd.a.toNat else nd.a.toNat ≤ v.toNat

/-- A COND or WHILE acts (R242). -/
def M.condActs (m : M) (t ch kind : Nat) : Option M :=
  match m.pilotWorld t with
  | none => none
  | some w =>
    let wt := m.wt w t
    let c := wt.chain ch
    match c.nodes with
    | n :: rest =>
      if n.nd.kind != kind || c.halted then none
      else if nodeCond wt n.nd && n.nd.b != 0 then
        if 4 ≤ c.ret.length then some (m.haltChain w t ch .illegalEncoding n.addr 0 true)
        else some (m.chainGo w t ch { c with nodes := rest, ret := (n.addr, n.nd) :: c.ret, walk := n.nd.b.toNat })
      else some (m.chainGo w t ch { c with nodes := rest, walk := n.nd.next })
    | [] => none

def execCondNode (t ch : Nat) (s : State) : Host.Outcome State Fault Refusal := event s fun m => m.condActs t ch 2
def execWhileNode (t ch : Nat) (s : State) : Host.Outcome State Fault Refusal := event s fun m => m.condActs t ch 3

/-- JOIN_NODE (R243): one decrement request of NJOIN. -/
def M.joinActs (m : M) (t ch : Nat) : Option M :=
  match m.pilotWorld t with
  | none => none
  | some w =>
    let wt := m.wt w t
    let c := wt.chain ch
    match c.nodes with
    | n :: _ =>
      if n.nd.kind != 4 || n.joinMade || c.halted then none
      else
        let wt1 := wt.askSem n.nd.sem (.join ch n.nd.a.toNat true)
        some (m.setWT w t (wt1.setChain ch (c.updNode n.uid fun n => { n with joinMade := true, dispatched := true })))
    | [] => none

def execJoinNode (t ch : Nat) (s : State) : Host.Outcome State Fault Refusal := event s fun m => m.joinActs t ch

/-- How the store of a SIGNAL goes: done, or staged with its vector; under way; a fault; or not yet. -/
inductive SigStore where
  | done (wait : Nat)
  | staged
  | sent
  | bad (c : Code) (detail : Nat)
  | miss (va : Nat)
  | later

/-- The store of a SIGNAL: at a home it performs and its wait runs, at another module a request leaves; of a
deterministic team it is staged, with the vector that is raised when it is visible (R127, R244). The tile's own copy of the
line goes (R195). -/
def M.signalStore (m : M) (w t team ch va : Nat) (v : W64) (vec : Option Nat) (walked : AMap (Nat × Nat)) : SigStore × M :=
  let bs := natBytes 8 v.toNat
  match m.place' t w team walked va 8 .write with
  | .scratch t2 off => match scratchFault 0 .write ((m.world w).tableTag (va / 64)).ro false with
    | some (c, d) => (.bad c d, m)
    | none => (.done 0, m.scratchWrite w t2 off bs)
  | .miss => (.miss va, m)
  | .bad c d => (.bad c d, m)
  | .page l =>
    let tag := (m.world w).tableTag (va / 64)
    let key := fieldKey l.homeid (l.pa va)
    if tag.ro && l.homek != 2 then (.bad .readonlyTensor 0, m)
    else if l.homek = 2 && !m.canReach w l.homeid then (.bad .remoteUnreachable 0, m)
    else if m.det team then
      let st : Staged := { va := va, data := bs, tid := tag.tid, ver := tag.ver, homek := l.homek, homeid := l.homeid,
                           pa := l.pa va, key := l.key, vec := vec, id := m.uid }
      (.staged, m.fresh.2.updTeam team fun tm => { tm with staged := tm.staged ++ [st] })
    else if l.homek = 1 then
      (.done 0, { m.l1Drop (m.sliceTile t team va) (hostLine l.homeid (l.pa va)) with hmem := Memory.writeL m.hmem (hostKey l.homeid (l.pa va)) bs })
    else if l.homek = 2 then
      (.sent, { m.fresh.2 with acc := m.acc ++ [m.pieceAcc w t ch team 0 va 8 bs .store 2 l.homeid (l.pa va) (.remote l.homeid)] })
    else if m.repairing (key / 64) then (.later, m)
    else
      match m.fieldWrite key bs w l.key tag.tid tag.ver with
      | none => (.bad (m.readFault (key / 64) w l.key tag.tid tag.ver) 0, m)
      | some m1 =>
        let q := (m1.l1Drop (m.sliceTile t team va) (key / 64)).performed l.homeid (key / 64)
        (.done q.1, q.2)

/-- Accesses of a chain that have not completed: pieces and waits of its copies, its SIGNAL's store (R244). -/
def M.chainOpen (m : M) (w t ch : Nat) : Bool :=
  m.acc.any fun a => a.group == 0 && a.slot == 192 + ch && a.world == w && a.tile == t && a.kind == .store

/-- A SIGNAL acts once nothing of the chain's earlier nodes is under way (R244). With `walked`, the faults of walks made
at this moment. -/
def M.signalGo (m : M) (t ch : Nat) (walked : AMap (Nat × Nat)) : Option M :=
  match m.pilotWorld t with
  | none => none
  | some w =>
    let wt := m.wt w t
    let c := wt.chain ch
    match c.nodes, c.owner with
    | n :: _, some team =>
      if n.nd.kind != 5 || m.chainOpen w t ch then none
      else
        let vec := if n.nd.irq then some n.nd.b.toNat else none
        let ends (m : M) : M := (vec.elim m fun v => m.raise w v).retire w t ch n.uid
        if n.joinMade then some (ends m)
        else if c.halted then none
        else
          let v := c.seq + 1
          let c1 := { c.updNode n.uid fun n => { n with joinMade := true, dispatched := true } with seq := v }
          let r := (m.setWT w t (wt.setChain ch c1)).signalStore w t team ch n.nd.a.toNat v vec walked
          match r.1 with
          | .done 0 => some (ends r.2)
          | .done wait => some (r.2.chainWait w t ch team 0 wait)
          | .staged => some (r.2.retire w t ch n.uid)
          | .sent => some r.2
          | .bad code d => some (r.2.haltNode w t ch n.uid code d)
          | .miss va => m.ask t w va
          | .later => none
    | _, _ => none

/-- SIGNAL_NODE (R244). -/
def M.signalActs (m : M) (t ch : Nat) : Option M := m.signalGo t ch []

def execSignalNode (t ch : Nat) (s : State) : Host.Outcome State Fault Refusal := event s fun m => m.signalActs t ch

/-- Tiles whose L1s hold lines for a team: its own, or those of its fused cluster (R183). -/
def M.slices (m : M) (t team : Nat) : List Nat :=
  match look m.teams team, m.launchOf team with
  | some tm, some (_, l) =>
    if l.lr.fuse && 1 < l.lr.w * l.lr.h then
      ((look m.clusters tm.cluster).map fun c => c.teams.filterMap fun (_, i) => (look m.teams i).map (·.tile)).getD [t]
    else [t]
  | _, _ => [t]

/-- An acquire: later accesses of the group find no copy from before it (R207, R286, R287). -/
def M.acquire (m : M) (t team : Nat) : M :=
  (m.slices t team).foldl (fun m x => m.setTile x { m.tile x with l1 := [] }) m

/-- The first request on a semaphore is met, or takes COPY_FAILED while ERR is 1 (R253). None when it must wait. -/
def M.semFirst (m : M) (w t i : Nat) : Option M :=
  let wt := m.wt w t
  let s := wt.sem i
  match s.queue with
  | [] => none
  | .sacq slot op gid _ :: rest =>
    if s.err then
      let fail (g : Group) : Group :=
        if g.uid != gid then g
        else
          let fs : List LateFault := (g.ops.filter (·.id == op)).flatMap fun p =>
            p.lanes.map fun l => { op := op, pc := p.pc, fault := { lane := l, code := .copyFailed } }
          { g with ops := g.ops.map (fun p => if p.id = op then { p with ready := true, lanes := [] } else p), late := g.late ++ fs }
      some ((m.setWT w t (wt.setSem i { s with err := false, queue := rest })).updGroup w t slot fail)
    else if s.count = 0 then none
    else
      let ok (g : Group) : Group :=
        if g.uid != gid then g else { g with ops := g.ops.map fun p => if p.id = op then { p with ready := true } else p }
      let team := ((look wt.groups slot).map (·.team)).getD 0
      some (((m.setWT w t (wt.setSem i { s with count := s.count - 1, queue := rest })).updGroup w t slot ok).acquire t team)
  | .join ch n _ :: rest =>
    let uid := (((wt.chain ch).nodes.head?).map (·.uid)).getD 0
    if s.err then some ((m.setWT w t (wt.setSem i { s with err := false, queue := rest })).haltNode w t ch uid .copyFailed 0)
    else if s.count.toNat < n then none
    else some ((m.setWT w t (wt.setSem i { s with count := s.count - BitVec.ofNat 32 n, queue := rest })).retire w t ch uid)

/-- Requests on a semaphore are met in order as long as the first can be (R253). -/
def M.semServe (m : M) (w t i : Nat) : Nat → M
  | 0 => m
  | fuel + 1 => match m.semFirst w t i with
    | some m1 => M.semServe m1 w t i fuel
    | none => m

/-- SEMAPHORE_REQUEST_MET (R253): the first request, once the cycle in which it was made is over. -/
def M.semMet (m : M) (t i : Nat) : Option M :=
  (m.rowWorld t 1).bind fun w =>
    if (((m.wt w t).sem i).queue.head?).any (·.fresh) then none else m.semFirst w t i

def execSemaphoreRequestMet (t sem : Nat) (s : State) : Host.Outcome State Fault Refusal := event s fun m => m.semMet t sem

/-! ## The instructions (R282 to R287) -/

/-- A byte of the team window of Table 10-4 that the team's scratch has (R284). -/
def M.inTeamWindow (m : M) (team va : Nat) : Bool :=
  decide (0xFF000000000000 ≤ va) && decide (va < 0xFF000000000000 + 524288) &&
    match m.window team va 1 .read with
    | .scratch _ _ => true
    | _ => false

/-- A request joins those of the pilot: after all of earlier cycles, by group slot among those of its own (R278). -/
def insPilot (r : PilotReq) : List PilotReq → List PilotReq
  | [] => [r]
  | x :: xs => if x.at' = r.at' && r.slot < x.slot then r :: x :: xs else x :: insPilot r xs

/-- The group asks the pilot, and waits charged ENGINE (R278). -/
def M.askPilot (m : M) (c : Ctx) (lane ch : Nat) (node : Option Nat) : Res :=
  let wt := m.wt c.w c.t
  let r : PilotReq := { slot := c.slot, group := c.g.uid, lane := lane, ch := ch, node := node, at' := (m.tile c.t).cycle }
  .hold (m.setWT c.w c.t { wt with pilotq := insPilot r wt.pilotq }) (.request .engine false)

/-- CHAIN.LINK (R282, R284): DET_SCOPE, the node's alignment and its translation are decided at issue; the rest, in the
order of Table 15-1, when the pilot serves the request. -/
def execChainLink (h : Hdr) (ch : BitVec 4) (a : BitVec 6) (off : W32) (s : State) : Host.Outcome State Fault Refusal :=
  issue h { engineForm 12 [a.toNat] 1 with nonIdem := true, region := true } s fun c m =>
    match c.g.wait with
    | .request .engine false => .hold m (.request .engine false)
    | .request .engine true => .done m
    | .failed code addr d => .trap m (whole c.ex code addr d)
    | _ =>
      let node := (c.g.kr a.toNat + off.signExtend 64).toNat
      match lowest c.ex with
      | none => .done m
      | some (l, _) =>
        if m.det c.g.team && !m.inTeamWindow c.g.team node then .trap m (whole c.ex .detScope (node % 2 ^ 56) 0)
        else if node % 64 ≠ 0 then .trap m (whole c.ex .alignment (node % 2 ^ 56) 0)
        else
          match m.placeOf c node 8 .write with
          | .miss => .hold (m.startWalks c [node]) .walk
          | .bad .translation d => .trap m (whole c.ex .translation node d)
          | _ => m.askPilot c l ch.toNat (some node)

/-- CHAIN.ADV (R283): first every earlier store and atomic of the group completes, those whose bytes the stack cache holds
among them. -/
def execChainAdv (h : Hdr) (ch : BitVec 4) (s : State) : Host.Outcome State Fault Refusal :=
  issue h { engineForm 8 [] 1 with nonIdem := true, region := true } s fun c m =>
    match c.g.wait with
    | .request .engine false => .hold m (.request .engine false)
    | .request .engine true => .done m
    | .failed code addr d => .trap m (whole c.ex code addr d)
    | _ =>
      let open' := (m.acc.filter fun x => x.group == c.g.uid && !x.kind.isLoad).map (·.id)
      if open'.isEmpty then m.askPilot c 0 ch.toNat none else .hold (m.fenceFlush c [] open') (.pend .fence)

/-- The old tail's NEXT follows the new node in what the pilot holds of it, and the new node's NEXT is 0: the walk of a
chain that stands after the old tail goes on to the new node, unless the chain is halted (R255, R282). -/
def Chain.relink (c : Chain) (prev node : Nat) : Chain :=
  let fix (nd : NodeRec) : NodeRec := { nd with next := node }
  let held := (c.nodes.filter fun n => n.nd.kind == 2 || n.nd.kind == 3).any (·.addr == prev)
  let reached := c.last == prev
  let links := put c.links node 0
  { c with
    nodes := c.nodes.map fun n => if n.addr = prev then { n with nd := fix n.nd } else n
    ret := c.ret.map fun (a, nd) => if a = prev then (a, fix nd) else (a, nd)
    walk := if reached && c.ret.isEmpty && !held && !c.halted then node else c.walk
    links := if reached then links else put links prev node }

/-- A store of CHAIN.LINK as the pilot finds it: the fault it takes, or the place it goes to; none until its page is
walked. -/
def M.linkPlace (m : M) (c : Ctx) (th : Thread) (walked : AMap (Nat × Nat)) (addr : Nat) : Option ((Code × Nat) ⊕ Place) :=
  let ro := ((m.world c.w).threadTag th (addr / 64)).ro
  match m.place' c.t c.w c.g.team walked addr 8 .write with
  | .miss => none
  | .bad code d => some (.inl (code, d))
  | .scratch t off => some (match scratchFault 0 .write ro false with
    | some f => .inl f
    | none => .inr (.scratch t off))
  | .page l => some (match lateChecks 0 .write ro false l with
    | some f => .inl f
    | none => if l.homek = 2 && !m.canReach c.w l.homeid then .inl (.remoteUnreachable, 0) else .inr (.page l))

/-- One of CHAIN.LINK's two stores by the executing group (R282). -/
def M.linkStore (m : M) (c : Ctx) (th : Thread) (l addr v : Nat) (p : Place) : M :=
  let f := m.fresh
  f.2.storeLane c { kind := fun _ => .store, size := 8, op := f.1 } { lane := l, th := th, ea := addr, va := addr, data := natBytes 8 v } p

/-- How a pilot request ends: it is served, it faults, or a page must be walked first. -/
inductive Served where
  | ok (m : M)
  | bad (c : Code) (addr detail : Nat)
  | miss (va : Nat)

/-- A CHAIN.LINK is served: of the faults that apply the first of Table 15-1, or both stores and the chain's new tail
(R280, R282). The DETAIL of reason 17 has no kind bit (log entry 89). -/
def M.serveLink (m : M) (c : Ctx) (r : PilotReq) (node : Nat) (walked : AMap (Nat × Nat)) : Served :=
  let k := (m.wt c.w c.t).chain r.ch
  let th := (look c.g.lanes r.lane).getD { idx := 0 }
  let other := k.owner.isSome && k.owner != some c.g.team
  let prev := if k.owner.isNone || other then 0 else k.ltail
  match m.linkPlace c th walked node, (if prev = 0 then some (.inr .miss) else m.linkPlace c th walked prev) with
  | none, _ => .miss node
  | _, none => .miss prev
  | some pn, some pp =>
    let fault (x : (Code × Nat) ⊕ Place) (a : Nat) : List LaneFault := match x with
      | .inl (code, d) => [{ lane := 0, code := code, addr := a, detail := d }]
      | .inr _ => []
    match firstFault (fault pn node ++ (if other then [{ lane := 0, code := .protection, addr := node, detail := 17 }] else []) ++ fault pp prev), pn, pp with
    | some f, _, _ => .bad f.code f.addr f.detail
    | none, .inr place, .inr place2 =>
      let m1 := m.linkStore c th r.lane node 0 place
      let m2 := if prev = 0 then m1 else m1.linkStore c th r.lane prev node place2
      let wt := m2.wt c.w c.t
      let k1 := if k.owner.isNone then { k with owner := some c.g.team, head := node, walk := node, atail := 0, last := 0, links := [] }
                else k.relink prev node
      .ok (m2.setWT c.w c.t (wt.setChain r.ch { k1 with ltail := node }))
    | none, _, _ => .ok m

/-- A CHAIN.ADV is served (R283). -/
def M.serveAdv (m : M) (c : Ctx) (r : PilotReq) : Served :=
  let wt := m.wt c.w c.t
  let k := wt.chain r.ch
  match k.owner with
  | none => .ok m
  | some team =>
    if team ≠ c.g.team then .bad .protection 0 17
    else .ok (m.setWT c.w c.t (wt.setChain r.ch { k with atail := k.ltail }))

/-- The pilot serves the oldest request, at most one in a cycle and once the cycle of the request is over; one whose page must
be walked waits (R278, R282, R325). A group that is gone has no request any more. -/
def M.pilotGo (m : M) (t : Nat) (walked : AMap (Nat × Nat)) : Option M :=
  match m.rowWorld t 1 with
  | none => none
  | some w =>
    let wt := m.wt w t
    match wt.pilotq with
    | [] => none
    | r :: rest =>
      let tl := m.tile t
      let m1 := (m.setWT w t { wt with pilotq := rest }).setTile t { tl with served := true }
      match (look wt.groups r.slot).filter (·.uid == r.group) with
      | none => some (m.setWT w t { wt with pilotq := rest })
      | some g =>
        if tl.served || tl.cycle ≤ r.at' then none
        else
          let c : Ctx := { t := t, w := w, slot := r.slot, g := g, ex := g.lanes }
          match (match r.node with
            | some node => m1.serveLink c r node walked
            | none => m1.serveAdv c r) with
          | .bad code addr d => some (m1.updGroup w t r.slot fun g => { g with wait := .failed code addr d })
          | .ok m2 => some (m2.updGroup w t r.slot fun g => { g with wait := .request .engine true })
          | .miss va => m.ask t w va

/-- PILOT_REQUEST_SERVICE (R278). -/
def M.pilotServe (m : M) (t : Nat) : Option M := m.pilotGo t []

def execPilotRequestService (t : Nat) (s : State) : Host.Outcome State Fault Refusal := event s fun m => m.pilotServe t

/-- CONDW (R285). -/
def execCondw (h : Hdr) (add : Bool) (cw : BitVec 4) (a : Opd64) (s : State) : Host.Outcome State Fault Refusal :=
  issue h { engineForm 8 a.unis 1 with nonIdem := true, region := true, vec := a.vecs, src := a.vecs } s fun c m =>
    let v := (lowest c.ex).elim 0 fun (_, th) => opdV c.g th a
    let wt := m.wt c.w c.t
    .done (m.setWT c.w c.t { wt with cws := mset 0 wt.cws cw.toNat (if add then mget 0 wt.cws cw.toNat + v else v) })

/-- SACQ (R286): one decrement request; it completes when the request is met. -/
def execSacq (h : Hdr) (sem : BitVec 6) (s : State) : Host.Outcome State Fault Refusal :=
  issue h { engineForm 8 [] 1 with nonIdem := true, sem := [sem.toNat] } s fun c m =>
    let f := m.fresh
    let p : Pend := { id := f.1, pc := c.g.pc, len := 8, ll := true, late := true, nonIdem := true, dest := .none,
                      lanes := c.ex.map (·.1), sem := some sem.toNat, ready := false }
    let m1 := f.2.beginLL c h p { sem := [sem.toNat] }
    .done (m1.setWT c.w c.t ((m1.wt c.w c.t).askSem sem.toNat (.sacq c.slot f.1 c.g.uid true)))

/-- STRY (R287): it is served after the requests of its cycle, which are met first where they can be; an acquire when it
succeeds. -/
def execStry (h : Hdr) (pd : BitVec 3) (sem : BitVec 6) (s : State) : Host.Outcome State Fault Refusal :=
  issue h { engineForm 8 [] 1 with nonIdem := true, region := true, sem := [sem.toNat] } s fun c m =>
    let m0 := m.semServe c.w c.t sem.toNat ((m.wt c.w c.t).sem sem.toNat).queue.length
    let wt := m0.wt c.w c.t
    let q := wt.sem sem.toNat
    let ok := q.queue.isEmpty && q.count != 0 && !q.err
    let m1 := if ok then (m0.setWT c.w c.t (wt.setSem sem.toNat { q with count := q.count - 1 })).acquire c.t c.g.team else m0
    .done (m1.onLanes c fun _ th => th.setP pd ok)

/-- A semaphore's state (Table 13-4). -/
def Sem.word (s : Sem) : W64 := 0#31 ++ BitVec.ofBool s.err ++ s.count

/-- SQRY (R287). -/
def execSqry (h : Hdr) (d : Opd64) (sem : BitVec 6) (s : State) : Host.Outcome State Fault Refusal :=
  issue h { engineForm 8 d.unis 1 with vec := d.vecs, sem := [sem.toNat] } s fun c m =>
    .done (m.setOpd c d fun _ => ((m.wt c.w c.t).sem sem.toNat).word)

end Sys2Proof.Machine
end

