-- ==== Sys2Proof/Machine/Homes.lean ====
section
/-! DEFINITION. Where accesses perform and how they complete: homes, host ports, other modules, walkers, the load unit
(R89, R184 to R198, R205, R206, R308, R322 to R326, R406 to R413). -/

namespace Sys2Proof.Machine

/-- The code of a number of Table 17-2. -/
def codeOf (n : BitVec 8) : Code :=
  match n.toNat with
  | 0x01 => .illegalEncoding | 0x02 => .fetchBoundary | 0x03 => .regAllot | 0x04 => .lookaheadViolation
  | 0x05 => .accuracyClass | 0x06 => .formatDivergence | 0x07 => .layoutMismatch | 0x08 => .treeDepth
  | 0x09 => .slotState | 0x0A => .stackLimit | 0x0B => .growDeadlock | 0x10 => .translation | 0x11 => .protection
  | 0x12 => .alignment | 0x13 => .integrity | 0x14 => .uncorrectableData | 0x15 => .tensorBounds
  | 0x16 => .readonlyTensor | 0x18 => .detScope | 0x1A => .copyFailed | 0x20 => .nameStale | 0x22 => .remoteTimeout
  | 0x23 => .hostAtomicUnsupported | 0x24 => .remoteUnreachable | 0x30 => .gridStall | 0x31 => .trapQueueOverflow
  | 0x32 => .heartbeatLost | 0x3F => .machineCheck
  | _ => .trap n

/-- A number that Table 17-2 lists. -/
def listed (n : BitVec 8) : Bool :=
  match codeOf n with
  | .trap _ => decide (0x80 ≤ n.toNat)
  | _ => true

/-- The field of an access that waits at its home. -/
def Access.atHome (a : Access) : Option Nat :=
  match a.phase with
  | .home f => some f
  | _ => none

/-- The port of an access that waits at the host. -/
def Access.atHost (a : Access) : Option Nat :=
  match a.phase with
  | .host p => some p
  | _ => none

def Access.atRemote (a : Access) : Bool :=
  match a.phase with
  | .remote _ => true
  | _ => false

/-- A store that meets a fault after it issued: a fatal record, nothing parked (R310, R315). A thread that has left its
group gives the region it was in when the store issued (R317). -/
def M.lateFatal (m : M) (a : Access) (code : Code) (detail : Nat) : M :=
  let th := (look (m.wt a.world a.tile).groups a.slot).bind fun g =>
    if g.uid = a.group then (look g.lanes a.lane).filter (·.idx == a.thread) else none
  let l := look m.launches a.launch
  (m.dropAcc a.id).fatal a.world a.launch
    { code := code, pc := a.pc, addr := a.ea, lanes := 1#32 <<< a.lane, tile := m.name a.tile, thread := a.thread,
      seq := (l.map (·.seq)).getD 0, detail := BitVec.ofNat 32 detail, kind := 1, group := if a.slot < 192 then a.slot else 0,
      wq := (l.map (·.wq)).getD 0, regpc := (th.map (·.regpc)).getD a.regpc, regcnt := (th.map (·.regcnt)).getD a.regcnt }

/-- An access of the pilot, the ferry or the ticket unit (slot 255) to another module fails: a SIGNAL's store halts its
chain (R255), a piece of a copy is the copy's matter (R251, R254), and a released store is reported as a late store
(R310). -/
def M.failPiece (m : M) (a : Access) (code : Code) (detail : Nat) : M :=
  if a.slot = 255 then m.lateFatal a code detail
  else if a.op ≠ 0 then m.pieceFails a code detail
  else
    let ch := a.slot - 192
    let uid := ((((m.wt a.world a.tile).chain ch).nodes.head?).map (·.uid)).getD 0
    (m.dropAcc a.id).haltNode a.world a.tile ch uid code detail

/-- An access ends in a fault: kept for its lane, or a fatal record for a store; a PREF only ends (R215, R306, R310). An
STC that meets INTEGRITY or UNCORRECTABLE_DATA at its home counts as a store of R310 (log entry 83). -/
def M.failAcc (m : M) (a : Access) (code : Code) (detail : Nat) : M :=
  if a.pref || a.orphan then m.dropAcc a.id
  else if a.group = 0 then m.failPiece a code detail
  else
    match a.kind with
    | .store => m.lateFatal a code detail
    | .stc => if code = .integrity || code = .uncorrectableData then m.lateFatal a code detail else m.setAcc (a.failed code detail)
    | _ => m.setAcc (a.failed code detail)

/-! ## Reads at a home or a scratchpad (R188, R193, R195, R206) -/

/-- A load has its bytes: over them lie those its thread sees first. A PREF answers no one. -/
def M.gotBytes (m : M) (a : Access) (bs : List Byte) : M :=
  if a.pref then m.dropAcc a.id else m.setAcc { a with phase := .done true 0, res := some (.data (overBytes a.held bs)) }

/-- An LDL sets the reservation of its thread (R206). -/
def M.reserve (m : M) (a : Access) (line : Nat) : M :=
  if a.kind = .ldl then m.updThread a fun th => { th with resv := some line } else m

/-- One load performs at its home: the line is read under the access's tag, a lease granted and the copy kept where it may
be. -/
def M.readOne (m : M) (f : Nat) (a : Access) : M :=
  let k := fieldKey f a.pa
  let line := k / 64
  let st := m.sliceOf a
  let r := m.fieldRead (line * 64) 64 a.world a.key a.tid a.ver
  match r.1 with
  | none => r.2.failAcc a (m.readFault line a.world a.key a.tid a.ver) 0
  | some bs =>
    let g := if a.nc || a.stack then 0 else r.2.grant f line a.lc a.lclass (a.ro || a.roPage) a.fresh
    let m1 := (r.2.l1Drop st line).recordLease f line g
    let m2 := if g = 0 || !m.mayKeep a then m1
              else m1.l1Put st line { data := bs, world := a.world, tid := a.tid, ver := a.ver, start := a.start, len := g, hint := a.hint }
    (m2.reserve a line).gotBytes a ((bs.drop (k % 64)).take a.size)

/-- One load performs at the scratchpad of a tile (R176, R205). -/
def M.readScratch (m : M) (t : Nat) (a : Access) : M :=
  (m.reserve a (scratchLine a.world t a.pa)).gotBytes a (m.scratchRead a.world t a.pa a.size)

/-- Accesses of a world perform at a tile's scratchpad while it holds the world's scratch (R332, R333). -/
def M.scratchOpen (m : M) (t w : Nat) : Bool := m.rowWorld t 4 == some w

/-- A home serves an access: its request has reached the field, the field is powered, and no tree node above the line is
under repair (R373, R397, R438). -/
def M.homeOpen (m : M) (a : Access) : Bool := !m.repairing a.line && !m.requestHeld a

/-- A scratchpad serves an access that has reached it (R333, R373). -/
def M.padOpen (m : M) (t : Nat) (a : Access) : Bool := m.scratchOpen t a.world && !m.requestHeld a

/-- HOME_READ (R193): the loads of one instruction to one line share one request (R216). -/
def M.homeRead (m : M) (id : Nat) : Option M :=
  match m.access id with
  | none => none
  | some a =>
    let mine := m.mates a
    if !a.kind.isLoad then none
    else
      match a.phase with
      | .home f => if m.homeOpen a && !m.heldBack mine then some (mine.foldl (fun m b => m.readOne f b) m) else none
      | .scr t => if m.padOpen t a && !m.heldBack mine then some (mine.foldl (fun m b => m.readScratch t b) m) else none
      | _ => none

def execHomeRead (id : Nat) (s : State) : Host.Outcome State Fault Refusal := event s fun m => m.homeRead id

/-! ## Stores and atomics at a home or a scratchpad (R188, R194, R196, R198, R205, R206) -/

/-- The bytes of a store reach field memory: the wait, or the fault it meets. -/
def M.storeAt (m : M) (f : Nat) (a : Access) : Code ⊕ (Nat × M) :=
  let k := fieldKey f a.pa
  match m.fieldWrite k a.data a.world a.key a.tid a.ver with
  | some m1 => .inr (m1.performed f (k / 64))
  | none => .inl (m.readFault (k / 64) a.world a.key a.tid a.ver)

/-- An STC performs: while its thread's reservation on the line holds, the store is done; either outcome clears the
reservation, a fault leaves it (R206, R229). -/
def M.stcAt (m : M) (a : Access) (line : Nat) (put : M → Code ⊕ (Nat × M)) : M :=
  let clear (m : M) : M := m.updThread a fun th => { th with resv := none }
  if !m.reserves a line then (clear m).setAcc { a with phase := .done true 0, res := some (.status false) }
  else
    match put m with
    | .inl code => m.failAcc a code 0
    | .inr (w, m1) => (clear m1).setAcc { a with phase := .done false w, res := some (.status true) }

/-- HOME_WRITE: a store or an STC performs. Each lane's store is one of its own, so that lanes that cover a line together
write it part by part (log entry 84). -/
def M.homeWrite (m : M) (id : Nat) : Option M :=
  match m.access id with
  | none => none
  | some a =>
    match a.phase, a.kind with
    | .home f, .store =>
      if !m.homeOpen a || m.ownEarlier a then none
      else
        match m.storeAt f a with
        | .inl code => some (m.failAcc a code 0)
        | .inr (w, m1) => some (m1.setAcc { a with phase := .done false w })
    | .home f, .stc => if m.homeOpen a && !m.ownEarlier a then some (m.stcAt a a.line fun m => m.storeAt f a) else none
    | .scr t, .store =>
      if m.padOpen t a && !m.ownEarlier a then some ((m.scratchWrite a.world t a.pa a.data).dropAcc id) else none
    | .scr t, .stc =>
      if m.padOpen t a && !m.ownEarlier a then
        some (m.stcAt { a with phase := .done true 0 } (scratchLine a.world t a.pa) fun m => .inr (0, m.scratchWrite a.world t a.pa a.data))
      else none
    | _, _ => none

def execHomeWrite (id : Nat) (s : State) : Host.Outcome State Fault Refusal := event s fun m => m.homeWrite id

/-- The old bytes that an atomic of part of a line meets: those of a line of zeros under the version before (R188). -/
def M.atomRead (m : M) (k n w key tid ver : Nat) : Option (List Byte) × M :=
  if m.view (k / 64) w key tid ver = .older then (some (List.replicate n 0), m) else m.fieldRead k n w key tid ver

/-- One lane's atomic performs (R205, R227). -/
def M.atomOne (m : M) (f : Nat) (a : Access) : M :=
  let k := fieldKey f a.pa
  match a.kind, m.lineFault (k / 64) a.world a.key a.tid a.ver with
  | .atom _ _ _, some code => m.failAcc a code 0
  | .atom op b c, none =>
    let r := m.atomRead k a.size a.world a.key a.tid a.ver
    let old := r.1.getD []
    let v := BitVec.ofNat 64 (bytesNat old)
    let m1 := if atomSkips op a.size v c then r.2
              else (r.2.fieldWrite k (natBytes a.size (atomNew op a.size v b c).toNat) a.world a.key a.tid a.ver).getD r.2
    let p := m1.performed f (k / 64)
    p.2.setAcc { a with phase := .done false p.1, res := some (.data old) }
  | _, _ => m

/-- One lane's atomic performs at the scratchpad of a tile, with no wait (R205). -/
def M.atomScratch (m : M) (t : Nat) (a : Access) : M :=
  match a.kind with
  | .atom op b c =>
    let old := m.scratchRead a.world t a.pa a.size
    let v := BitVec.ofNat 64 (bytesNat old)
    let m1 := if atomSkips op a.size v c then m.loseResv (scratchLine a.world t a.pa)
              else m.scratchWrite a.world t a.pa (natBytes a.size (atomNew op a.size v b c).toNat)
    m1.setAcc { a with phase := .done true 0, res := some (.data old) }
  | _ => m

/-- An access is an ATOM's. -/
def AKind.isAtom : AKind → Bool
  | .atom _ _ _ => true
  | _ => false

/-- HOME_ATOMIC (R205, R210): the atomics of one instruction to one location, in lane order, with no other between. -/
def M.homeAtomic (m : M) (id : Nat) : Option M :=
  match m.access id with
  | none => none
  | some a =>
    let mine := m.mates a
    if !a.kind.isAtom then none
    else
      match a.phase with
      | .home f => if m.homeOpen a && !m.heldBack mine then some (mine.foldl (fun m b => m.atomOne f b) m) else none
      | .scr t => if m.padOpen t a && !m.heldBack mine then some (mine.foldl (fun m b => m.atomScratch t b) m) else none
      | _ => none

def execHomeAtomic (id : Nat) (s : State) : Host.Outcome State Fault Refusal := event s fun m => m.homeAtomic id

/-! ## Acknowledgement and completion (R196, R199, R408) -/

/-- Another instruction has performed one of its HATOMs at a location and has one still to perform: no other agent's store
or atomic to the location performs between them (R210). -/
def M.between (m : M) (p pa n : Nat) (mine : Access → Bool) : Bool :=
  m.acc.any fun x => x.kind.isHatom && x.atHost == some p && !mine x && decide (x.pa < pa + n) && decide (pa < x.pa + x.size)
    && m.acc.any fun y => y.sameOp x && y.homek == x.homek && y.homeid == x.homeid && y.pa == x.pa && y.fault?.isNone && y.settled

/-- STORE_ACK: the acknowledgement reaches the tile and the wait begins to run; a host store's posted write leaves. -/
def M.storeAck (m : M) (id : Nat) : Option M :=
  match m.access id with
  | none => none
  | some a =>
    match a.phase with
    | .done false w =>
      if m.responseHeld a then none
      else some (if w = 0 && a.kind == .store then m.dropAcc id else m.setAcc { a with phase := .done true w })
    | .host p =>
      if a.kind != .store || m.ownEarlier a || m.between p a.pa a.size (·.sameOp a) then none
      else some ({ m with hmem := Memory.writeL m.hmem (hostKey p a.pa) a.data }.dropAcc id)
    | _ => none

def execStoreAck (id : Nat) (s : State) : Host.Outcome State Fault Refusal := event s fun m => m.storeAck id

/-- WRITE_COMPLETION_EXPIRY: the clocks pass the rest of a wait; completed stores leave their counters (R196, R199). -/
def M.waitExpires (m : M) (id : Nat) : Option M :=
  match m.access id with
  | none => none
  | some a =>
    match a.phase with
    | .done true w => if w = 0 && !a.complete || !m.counting a then none else some (m.passUnits w)
    | _ => none

def execWriteCompletionExpiry (id : Nat) (s : State) : Host.Outcome State Fault Refusal := event s fun m => m.waitExpires id

/-! ## LONG_LATENCY_COMPLETE (R28, R55, R199, R306, R308) -/

/-- What an access returned, in a lane. -/
def resOf (as : List Access) (l : Nat) : Option (List Byte) :=
  (as.find? fun a => a.lane == l).bind fun a => match a.res with
    | some (.data bs) => some bs
    | _ => none

/-- Write one lane's registers. -/
def Dest.lane (d : Dest) (as : List Access) (l : Nat) (th : Thread) : Thread :=
  match d with
  | .none => th
  | .data (.vec r) sx sz => (resOf as l).elim th fun bs => placeVec th r.toNat sx sz bs
  | .data (.uni _) _ _ => th
  | .tens r sx => (resOf as l).elim th fun bs => th.setX r.toNat ((extend (sx.contains l) bs).setWidth 32)
  | .quad r vs => (look vs l).elim th fun ws => th.setXs r.toNat ws
  | .vals r vs => (look vs l).elim th fun v => th.setX r.toNat v
  | .recv _ _ _ => th
  | .msg r vs mask =>
    match look vs l with
    | some ws =>
      let th1 := th.setXs r.toNat ws
      mask.elim th1 fun (b, v) => th1.setX b.toNat v
    | .none => th

/-- Write the uniform register of a destination: the value of the lowest lane (R70, R210). -/
def Dest.group (d : Dest) (as : List Access) (lanes : List Nat) (g : Group) : Group :=
  match d with
  | .data (.uni k) sx _ => ((lanes.head?).bind (resOf as)).elim g fun bs => g.setK k.toNat (extend sx bs)
  | _ => g

/-- The late faults of an operation: each lane's own, and that of the one access of a load with a uniform destination in
every lane (R210, R308, R434). -/
def Pend.faults (p : Pend) (as : List Access) : List LaneFault :=
  let bad := as.filterMap Access.fault?
  match p.dest, as, bad with
  | .data (.uni _) _ _, [a], [f] => if a.kind.isLoad then p.lanes.map fun l => { f with lane := l } else bad
  | _, _, _ => bad

/-- The group once an operation has completed: results written, late faults kept, the region entry of a
non-idempotent one made in the lanes that took none (R304). -/
def Group.completed (g : Group) (p : Pend) (as : List Access) : Group :=
  let bad := p.faults as
  let okLane (l : Nat) : Bool := p.lanes.contains l && !(bad.any (·.lane == l))
  let g1 := p.dest.group as p.lanes g
  let lanes := mapV (fun l th =>
    if okLane l then
      let th1 := p.dest.lane as l th
      if p.nonIdem then enterRegion (nextPc p.pc p.len) th1 else th1
    else th) g1.lanes
  { g1 with lanes := lanes, ops := g1.ops.filter (·.id != p.id),
            late := g1.late ++ bad.map fun f => { op := p.id, pc := p.pc, fault := f } }

/-- The operation can complete: it is ready and all its accesses have their results, on the tile, and waits behind them. -/
def M.opReady (m : M) (g : Group) (p : Pend) : Bool :=
  p.ll && p.ready && p.since = 0 && (m.accOf g p.id).all fun a => a.phase == .done true 0 && !m.responseHeld a

/-- LONG_LATENCY_COMPLETE. -/
def M.opCompletes (m : M) (t slot op : Nat) : Option M :=
  match m.opWorld t slot op with
  | none => none
  | some w =>
    match look (m.wt w t).groups slot with
    | none => none
    | some g =>
      match g.ops.find? (·.id == op) with
      | none => none
      | some p =>
        if !m.opReady g p then none
        else
          let as := m.accOf g op
          some ({ m with acc := m.acc.filter fun a => !(a.group == g.uid && a.op == op) }.setGroup w t slot (g.completed p as))

def execLongLatencyComplete (t slot op : Nat) (s : State) : Host.Outcome State Fault Refusal :=
  event s fun m => m.opCompletes t slot op

/-- ACCRD_WRITEBACK (R270, R294): the registers of an ACCRD that the anvil has read, 6 cycles after it issued. -/
def M.accrdDone (m : M) (t slot op : Nat) : Option M :=
  match m.opWorld t slot op with
  | none => none
  | some w =>
    (look (m.wt w t).groups slot).bind fun g => (g.ops.find? (·.id == op)).bind fun p =>
      if p.since = 0 || !p.ready || (m.tile t).cycle < p.since then none
      else some (m.setGroup w t slot (g.completed p []))

def execAccrdWriteback (t slot op : Nat) (s : State) : Host.Outcome State Fault Refusal :=
  event s fun m => m.accrdDone t slot op

/-! ## Leases run out (R194, R195) -/

/-- LEASE_EXPIRY: the clocks pass the rest of a copy's lease, and the L1 treats the line as absent. -/
def M.leaseExpires (m : M) (t line : Nat) : Option M :=
  (look (m.tile t).l1 line).map fun l => (m.passUnits (l.start + l.len - m.tileClock t)).l1Drop t line

def execLeaseExpiry (t line : Nat) (s : State) : Host.Outcome State Fault Refusal := event s fun m => m.leaseExpires t line

/-- HOT_EXPIRY: the clocks pass the rest of a line's hot state (R194). -/
def M.hotExpires (m : M) (line : Nat) : Option M :=
  (look m.hot line).map fun e =>
    let m1 := m.passUnits (e - m.clock)
    { m1 with hot := del m1.hot line }

def execHotExpiry (line : Nat) (s : State) : Host.Outcome State Fault Refusal := event s fun m => m.hotExpires line

/-! ## Walks (R322 to R326) -/

/-- An access joined to a walk. -/
def Walk.joins (k : Walk) (a : Access) : Bool :=
  a.phase == .walk && fieldOf a.tile == k.field && a.world == k.world && a.va / 65536 == k.page

/-- A group that waits for a walk of its instruction. -/
def Walk.waits (k : Walk) (m : M) (t : Nat) (g : Group) : Bool :=
  g.wait == .walk && fieldOf t == k.field && (m.tile t).latch == some k.world

/-- Tiles that asked for a walk. -/
def M.askers (m : M) (k : Walk) : List Nat :=
  (k.tile :: ((m.acc.filter k.joins).map (·.tile) ++
    (m.wts.filter fun (i, wt) => i / 8192 == k.world && wt.groups.any fun (_, g) => k.waits m (i % 8192) g).map (·.1 % 8192))).eraseDups

/-- A leaf reaches an access that waited for it (R324). -/
def M.gotLeaf (m : M) (l : Leaf) (a : Access) : M :=
  match m.leafCheck a.world a.va a.kind.tkind l with
  | some (c, d) => m.failAcc a c d
  | none =>
    let b := m.withLeaf a l
    match b.res with
    | some (.fault c d) => m.failAcc a c d
    | _ => if a.pref && (l.homek == 2 || l.nc) then m.dropAcc a.id else (m.dropOwn b).setAcc b

/-- A walk that failed, as units that look a page up find it. -/
def walkedOf (page : Nat) : TRes → AMap (Nat × Nat)
  | .leaf _ => []
  | .fault c d => [(page, (c.num.toNat, d))]

/-- The fetch unit of a tile waits for a page: the fault is recorded against each block of it that a group waits for
(R320). -/
def M.fetchFails (m : M) (t w page : Nat) (c : Code) (d : Nat) : M :=
  let waits (g : Group) : Bool := g.pc.toNat / 65536 == page && (g.wait.begun || g.wait == .fetch g.pc.toNat)
  let keys := (m.wt w t).groups.filterMap fun (_, g) => if waits g then some (blockKey w g.pc.toNat) else none
  let b : FetchBlock := { data := [], fault := some (c, d % 256 + TKind.fetch.bits) }
  let tl := m.tile t
  m.setTile t { tl with fetch := keys.foldl (fun f k => if (look f k).isSome then f else put f k b) tl.fetch }

/-- The pilot of a tile goes on where a failed walk ends its waiting: a chain's next node, a SIGNAL's store, the request
it serves (R238, R244, R282). What it could do without the walk it does of itself. -/
def M.pilotFails (m : M) (t w : Nat) (walked : AMap (Nat × Nat)) : M :=
  let try' (m : M) (f : AMap (Nat × Nat) → Option M) : M := if (f []).isSome then m else (f walked).getD m
  let m1 := (m.wt w t).chains.foldl (fun m (ch, _) =>
    let m2 := try' m fun x => m.reachNode t ch x
    try' m2 fun x => m2.signalGo t ch x) m
  try' m1 fun x => m1.pilotGo t x

/-- A walk's result for the fetch unit and the pilot of a tile that asked for the page (R325): the leaf goes to the
cache. -/
def M.servedOn (m : M) (k : Walk) (r : TRes) (t : Nat) : M :=
  let m1 := match r with
    | .leaf l => m.tlbPut t k.world (k.page * 65536) l
    | .fault c d =>
      let m2 := m.fetchFails t k.world k.page c d
      if (m.tile t).latch == some k.world then m2.pilotFails t k.world (walkedOf k.page r) else m2
  let tl := m1.tile t
  m1.setTile t { tl with asks := tl.asks.filter (· != k.world * 2 ^ 40 + k.page) }

/-- A walk's result for the copies of the field's tiles that need the page (R325). -/
def M.servedCopies (m : M) (k : Walk) (r : TRes) : M :=
  let mine := m.copies.filter fun c => fieldOf c.tile == k.field && c.world == k.world && c.pages.contains k.page
    && (look c.leaves k.page).isNone && (look c.bads k.page).isNone
  mine.foldl (fun m c =>
    (match r with
     | .leaf l => m.tlbPut c.tile k.world (k.page * 65536) l
     | .fault _ _ => m).copyWalked c.id k.page r) m

/-- A walk's result for the units of the field's tiles that asked for the page (R325). -/
def M.served (m : M) (k : Walk) (r : TRes) : M :=
  let mine := (m.tiles.filter fun (t, tl) => fieldOf t == k.field && tl.asks.contains (k.world * 2 ^ 40 + k.page)).map (·.1)
  (mine.foldl (fun m t => m.servedOn k r t) m).servedCopies k r

/-- WALK_COMPLETE: one result for every request joined (R325). 32 walkers a field serve in order of arrival. A read of a
table entry at a line whose tree node is under repair waits (R397). -/
def M.walkDone (m : M) (id : Nat) : Option M :=
  match m.walks.find? (·.id == id) with
  | none => none
  | some k =>
    if 32 ≤ (m.walks.filter fun j => j.field == k.field && j.id < k.id).length
        || m.walkWaits k.world (k.page * 65536) 4 (m.world k.world).rootTable 0 then none
    else
      let va := k.page * 65536
      let m0 := { m with walks := m.walks.filter (·.id != id) }
      let mine := m.acc.filter k.joins
      match m.walk k.world va .read with
      | .leaf l =>
        let m1 := ((m.askers k).foldl (fun m t => m.tlbPut t k.world va l) m0).served k (.leaf l)
        some ((mine.map (·.id)).foldl M.serveAt (mine.foldl (fun m a => m.gotLeaf l a) m1))
      | .fault c d =>
        let m1 := mine.foldl (fun m a => m.failAcc a c (d % 256 + a.kind.tkind.bits)) (m0.served k (.fault c d))
        let note (i : Nat) (wt : WT) : WT :=
          if i / 8192 = k.world then
            { wt with groups := mapV (fun _ g =>
                if k.waits m (i % 8192) g then { g with walked := put g.walked k.page (c.num.toNat, d) } else g) wt.groups }
          else wt
        some { m1 with wts := mapV note m1.wts }

def execWalkComplete (i : Nat) (s : State) : Host.Outcome State Fault Refusal := event s fun m => m.walkDone i

/-! ## Host memory (R406 to R410) -/

/-- Read host memory. -/
def M.hostRead (m : M) (p pa n : Nat) : List Byte := Memory.readN m.hmem (hostKey p pa) n

/-- A load of host memory returns (R407): a copy is kept of lines of read-only pages and tensors. -/
def M.hostLoad (m : M) (p : Nat) (a : Access) : M :=
  let bs := m.hostRead p (a.pa / 64 * 64) 64
  let st := m.sliceOf a
  let g := if (a.ro || a.roPage) && !a.fresh && !a.nc && a.lc != .none then 4096 else 0
  let m1 := m.l1Drop st a.line
  let m2 := if g = 0 || !m.mayKeep a then m1
            else m1.l1Put st a.line { data := bs, world := a.world, tid := a.tid, ver := a.ver, start := a.start, len := g, hint := a.hint }
  m2.gotBytes a ((bs.drop (a.pa % 64)).take a.size)

/-- HOST_COMPLETION of the loads of one instruction from one line, which share a request (R216, R409). A line with a
memory error is not read (R409). -/
def M.hostDone (m : M) (id : Nat) (st : HostStatus) : Option M :=
  match m.access id with
  | none => none
  | some a =>
    let mine := m.mates a
    match a.atHost with
    | none => none
    | some p =>
      if !a.kind.isLoad || m.heldBack mine then none
      else if st = .success && !m.ecc.contains a.line then some (mine.foldl (fun m b => m.hostLoad p b) m)
      else some (mine.foldl (fun m b => m.failAcc b .uncorrectableData 0) m)

def execHostCompletion (a : Nat) (st : HostStatus) (s : State) : Host.Outcome State Fault Refusal := event s fun m => m.hostDone a st

/-- The atomic operation of R410 as one of Table 12-3. -/
def hostOp : HostAtomOp → AtomOp
  | .add => .add | .swap => .swap | .cas => .cas

/-- An atomic performs in host memory, on what it finds there or on what its fallback has read (R410). -/
def M.hostAtom (m : M) (p : Nat) (a : Access) (op : AtomOp) (b c : W64) : M :=
  let old := a.fell.getD (m.hostRead p a.pa a.size)
  let v := BitVec.ofNat 64 (bytesNat old)
  let m1 := if atomSkips op a.size v c then m
            else { m with hmem := Memory.writeL m.hmem (hostKey p a.pa) (natBytes a.size (atomNew op a.size v b c).toNat) }
  m1.setAcc { a with phase := .done true 0, res := some (.data old) }

/-- A fallback is under way for another HATOM to the line: it holds every HATOM to it back (R410). -/
def M.fallsBack (m : M) (p : Nat) (a : Access) : Bool :=
  m.acc.any fun x => x.fell.isSome && x.atHost == some p && x.line == a.line && x.id != a.id

/-- ATOMIC_POINT_SERVICE (R410): one HATOM passes the point, the lanes of an instruction in lane_order (R425). With
ATOMOK = 1 an AtomicOp is sent, and its answer is `st`; otherwise, or when it is not supported or aborted (where R409 and R410
both speak of an abort R410 is followed: log entry 57), the fallback of .f reads, which `st` answers when it is the only
request, and the service after that computes and writes. -/
def M.atomicPoint (m : M) (id : Nat) (st : HostStatus) : Option M :=
  match m.access id with
  | none => none
  | some a =>
    match a.atHost, a.kind with
    | some p, .hatom op f b c =>
      if m.heldBack [a] || m.fallsBack p a || m.between p a.pa a.size (·.sameOp a) then none
      else if a.fell.isSome then some (m.hostAtom p a (hostOp op) b c)
      else
        let native := (m.port p).atomok
        let refused := st = .unsupported || st = .abort
        if !f && (!native || refused) then some (m.failAcc a .hostAtomicUnsupported 0)
        else if (st = .success || (native && refused)) && !m.ecc.contains a.line then
          some (if native && !refused then m.hostAtom p a (hostOp op) b c
                else m.setAcc { a with fell := some (m.hostRead p a.pa a.size) })
        else some (m.failAcc a .uncorrectableData 0)
    | _, _ => none

def execAtomicPointService (a : Nat) (st : HostStatus) (s : State) : Host.Outcome State Fault Refusal :=
  event s fun m => m.atomicPoint a st

/-- HOST_COMPLETION_TIMEOUT (R409). -/
def M.hostTimeout (m : M) (id : Nat) : Option M :=
  match m.access id with
  | none => none
  | some a => if a.atHost.isNone || a.kind == .store || a.fell.isSome then none else some (m.failAcc a .uncorrectableData 0)

def execHostCompletionTimeout (a : Nat) (s : State) : Host.Outcome State Fault Refusal := event s fun m => m.hostTimeout a

/-! ## Accesses at other modules (R412, R413, R424) -/

/-- Lease units of the requesting tile that a request to another module may still take (R413). -/
def M.remoteLeft (m : M) (a : Access) : Nat := a.start + 2 ^ 22 - m.tileClock a.tile

/-- The accesses that one response answers: the lanes of a load that read the same bytes (R198). -/
def M.answered (m : M) (a : Access) : List Access :=
  if a.kind.isLoad then (m.mates a).filter (·.pa == a.pa) else [a]

/-- REMOTE_RESPONSE, in time, with a code of Table 17-2 where it is a fault (R316). A store's fault is a fatal record
(R424). -/
def M.remoteDone (m : M) (id : Nat) (r : RemoteResp) : Option M :=
  match m.access id with
  | none => none
  | some a =>
    let mine := m.answered a
    if !a.atRemote || m.remoteLeft a = 0 || m.heldBack mine then none
    else
      match r with
      | .fault code d => if listed code then some (mine.foldl (fun m b => m.failAcc b (codeOf code) d.toNat) m) else none
      | .ok bs =>
        if a.kind == .store then some ((m.dropAcc id).visible a)
        else if bs.length ≠ a.size then none
        else
          let m1 := mine.foldl (fun m b => m.setAcc { b with phase := .done true 0, res := some (.data (overBytes b.held bs)) }) m
          some (((m.copies.find? fun k => a.group == 0 && k.id == a.op).map m1.valuePieces).getD m1)

def execRemoteResponse (a : Nat) (r : RemoteResp) (s : State) : Host.Outcome State Fault Refusal := event s fun m => m.remoteDone a r

/-- REMOTE_TIMEOUT (R413): the rest of 2^22 lease units passes without a response; fatal. -/
def M.remoteLate (m : M) (id : Nat) : Option M :=
  match m.access id with
  | none => none
  | some a => if a.atRemote then some ((m.passUnits (m.remoteLeft a)).failAcc a .remoteTimeout 0) else none

def execRemoteTimeout (a : Nat) (s : State) : Host.Outcome State Fault Refusal := event s fun m => m.remoteLate a

/-! ## The stack cache (R175, R200) -/

/-- The bytes of a stack store that the cache still holds go home, under the store's tag, each a store of part of its line
(log entry 84); the store has then performed. -/
def M.backOne (m : M) (own : AMap (Nat × W64)) (a : Access) : M :=
  let is := (List.range a.size).filter fun i => look own (a.va + i) == some (a.team, a.thread)
  let k := fieldKey a.homeid a.pa
  let write (m : M) (i : Nat) : Option M :=
    m.fieldWrite (k + i) ((a.data.drop i).take 1) a.world a.key a.tid a.ver
  match is.foldl (fun o i => o.bind fun m => write m i) (some m) with
  | none => m.lateFatal a (m.readFault (k / 64) a.world a.key a.tid a.ver) 0
  | some m1 =>
    let p := m1.performed a.homeid (k / 64)
    p.2.setAcc { a with phase := .done false p.1 }

/-- STACK_CACHE_WRITEBACK: a dirty line of the tile's world goes home, its stores in their order, once nothing that their
threads did before is in the way (R28, R198). -/
def M.stackBack (m : M) (t line : Nat) : Option M :=
  (m.rowWorld t 5).bind fun w =>
    let wt := m.wt w t
    let mine := m.acc.filter fun a => a.phase == .cached && a.world == w && a.tile == t && a.va / 64 == line
    if !wt.dirtyLines.contains line || m.heldBack mine || mine.any (fun a => !m.homeOpen a) then none
    else
      let keep (x : Nat) : Bool := x / 64 != line
      let m1 := m.setWT w t { wt with stackd := wt.stackd.filter fun (x, _) => keep x
                                      stackc := wt.stackc.filter fun (x, _) => keep x
                                      flush := wt.flush.filter (· != line) }
      some (mine.foldl (fun m a => m.backOne wt.stackd a) m1)

def execStackCacheWriteback (t line : Nat) (s : State) : Host.Outcome State Fault Refusal := event s fun m => m.stackBack t line

end Sys2Proof.Machine
end

