-- ==== Sys2Proof/Machine/Launch.lean ====
section
/-! DEFINITION. The landing's own steps, work queues, placement and the end of a launch (R112 to R119, R127, R154 to R163,
R172, R176, R315, R344). -/

namespace Sys2Proof.Machine

/-! ## The landing (R116 to R118) -/

/-- BIN_TIMER_EXPIRY (R116). -/
def M.binExpires (m : M) (t b : Nat) : Option M :=
  (m.tile t).latch.bind fun w =>
    let wt := m.wt w t
    (look wt.bins b).bind fun bn =>
      if bn.timed || bn.closed || bn.timer != 0 || bn.ths.isEmpty then none
      else some (m.setWT w t (WT.askForm { wt with bins := put wt.bins b { bn with timed := true } } (m.tile t).cycle b))

def execBinTimerExpiry (t b : Nat) (s : State) : Host.Outcome State Fault Refusal := event s fun m => m.binExpires t b

/-- GROUP_FORMATION (R117, R124), once the landing and the GROW queue are restored (R333). -/
def M.formGroup (m : M) (t b : Nat) : Option M :=
  ((m.tile t).latch.filter fun w => 5 ≤ (m.wt w t).restored).bind fun w => m.form w t b

def execGroupFormation (t b : Nat) (s : State) : Host.Outcome State Fault Refusal := event s fun m => m.formGroup t b

/-- Change every entry of the landing. -/
def WT.mapEntries (wt : WT) (f : Waiting → Waiting) : WT :=
  { wt with
    bins := mapV (fun _ b => { b with ths := b.ths.map f }) wt.bins
    parked := mapV (fun _ p => { p with ths := p.ths.map f }) wt.parked
    meets := mapV (fun _ r => { r with ths := r.ths.map f }) wt.meets }

/-- An entry has waited longer than another. -/
def Waiting.older (a b : Waiting) : Bool := decide (a.born < b.born) || (a.born == b.born && decide (a.th.idx.toNat < b.th.idx.toNat))

/-- Entries of a list move: the n that have waited longest. -/
def WT.moveOldest (wt : WT) (n : Nat) (out : Bool) (pool : List Waiting) : WT :=
  wt.mapEntries fun e =>
    if pool.contains e && decide ((pool.filter fun x => x.older e).length < n) then { e with out := out } else e

/-- Threads of the bin that can form a group now, if one can: they are brought back, and none of them moves out (R118). -/
def M.forming (m : M) (w t : Nat) : List Waiting := (m.formable w t).elim [] fun x => x.2.chosen

/-- LANDING_OVERFLOW_MOVE (R118): when the landing is full, for a writer that it holds back or for threads about to form a
group, the n entries that have waited longest move out; such threads come back once it takes them all. No value
changes. -/
def M.overflowMove (m : M) (t n : Nat) (out : Bool) : Option M :=
  (m.rowWorld t 5).bind fun w =>
    let wt := m.wt w t
    let kept := m.forming w t
    let back := kept.filter (·.out)
    let takes := decide ((wt.moveOldest back.length false back).landIn ≤ landSize)
    let pool := wt.entries.filter fun e => !e.out && !kept.contains e
    if out then
      if pool.isEmpty || (wt.landTakes wt.lwant && (back.isEmpty || takes)) then none
      else some (m.setWT w t (wt.moveOldest n true pool))
    else if back.isEmpty || !takes then none
    else some (m.setWT w t (wt.moveOldest n false back))

def execLandingOverflowMove (t n : Nat) (out : Bool) (s : State) : Host.Outcome State Fault Refusal :=
  event s fun m => m.overflowMove t n out

/-! ## Work queues (R154 to R158) -/

/-- A launch record (Table 9-2); `resv` when a reserved field or a reserved part of ENTRY is not zero. -/
def parseLaunch (bs : List Byte) : LRec :=
  let f (j lo n : Nat) : Nat := (dword bs j).toNat / 2 ^ lo % 2 ^ n
  { entry := dword bs 0, arg := dword bs 1, lid := dword bs 2, seed := dword bs 3, teams := f 4 0 32, h := f 4 52 4, w := f 4 48 4,
    threads := f 4 32 13, coop := f 5 18 1 == 1, fuse := f 5 17 1 == 1, det := f 5 16 1 == 1, regs := f 5 0 9, scratch := f 5 32 32,
    stack := f 6 0 32, stall := f 6 48 16, bint := f 6 32 16, irq := f 7 0 1 == 1,
    resv := !(f 4 56 8 == 0 && f 4 45 3 == 0 && f 5 19 13 == 0 && f 5 9 7 == 0 && f 7 1 63 == 0 && f 0 56 8 == 0 && f 0 0 2 == 0) }

/-- Status 1 of Table 9-6. -/
def LRec.badFields (r : LRec) : Bool :=
  r.resv || r.h == 0 || r.w == 0 || decide (12 < r.w * r.h) || r.teams == 0 || r.teams % (r.w * r.h) != 0 || r.threads == 0
    || decide (6144 < r.threads) || r.regs == 0 || r.regs % 8 != 0 || decide (256 < r.regs) || decide (524288 < r.scratch)
    || r.stack % 16 != 0

/-- Groups of a team (R112). -/
def LRec.groups (r : LRec) : Nat := (r.threads + 31) / 32

/-- Bytes of a stack slot, D (R172). -/
def LRec.depth (r : LRec) : Nat := 16 * (r.stack / 512)

/-- A store that the device makes for a world at SYSTEM scope, under the table tag (R159, R186, R339): none where it
faults or its page is homed at another module. -/
def M.deviceStore (m : M) (w va : Nat) (bs : List Byte) : Option M :=
  if 2 ^ 56 ≤ va || va / 2 ^ 48 = 0xFF then none
  else
    match m.walk w va .write with
    | .fault _ _ => none
    | .leaf l =>
      let tag := (m.world w).tableTag (va / 64)
      if (m.leafCheck w va .write l).isSome || tag.ro || l.homek = 2 then none
      else if l.homek = 1 then some { m with hmem := Memory.writeL m.hmem (hostKey l.homeid (l.pa va)) bs }
      else
        let key := fieldKey l.homeid (l.pa va)
        (m.fieldWrite key bs w l.key tag.tid tag.ver).map fun m1 =>
          let q := m1.performed l.homeid (key / 64)
          if q.1 = 0 then q.2 else q.2.passUnits q.1

/-- A store of the device waits at its home (R397, R438). -/
def M.deviceWaits (m : M) (w va : Nat) : Bool :=
  match m.walk w va .write with
  | .leaf l => l.homek == 0 && m.repairing (fieldKey l.homeid (l.pa va) / 64)
  | .fault _ _ => false

/-- The completion word of a queue waits at its home (R397). -/
def M.wordWaits (m : M) (q : Nat) : Bool := m.deviceWaits (m.wq q).world (m.wq q).ca.toNat

/-- COMPLETION_WORD (R159): the word, or CWFAIL, then the vector. -/
def M.completion (m : M) (q : Nat) (seq : W32) (status : Nat) (irq : Bool) : M :=
  let wq := m.wq q
  let word : W64 := 0#24 ++ BitVec.ofNat 8 status ++ seq
  let m1 := match m.deviceStore wq.world wq.ca.toNat (natBytes 8 word.toNat) with
    | some m1 => m1
    | none => m.setWQ q { wq with cwfail := true }
  if irq && wq.irq then m1.raise wq.world wq.vec.toNat else m1

/-- Records held, the running one included (Table 9-5). -/
def WQ.pend (q : WQ) : Nat := q.held.length + if q.running then 1 else 0

/-- The hearth runs its image: commands are performed (R443, log entry 50). -/
def M.booted (m : M) : Bool := !m.hearth.off && m.hearth.fwst == 0

/-- Registers answer: they are silent while the hearth waits for an image or loads one (R442). -/
def M.responds (m : M) : Bool := !m.hearth.off && m.hearth.fwst != 1 && m.hearth.fwst != 2

/-- A world's function answers: the port has it and registers answer (R399, R442). -/
def M.hears (m : M) (w : Nat) : Bool := decide (w < 2048) && m.responds && decide (w % 128 < (m.port (w / 128)).numvfs)

/-- SUBMISSION (R154, R155, R158, R381). -/
def M.submit (m : M) (q off : Nat) (data : List Byte) : Option M :=
  let wq := m.wq q
  if !m.hears (q / 4) || 64 ≤ off then none
  else if off ≠ 0 || data.length ≠ 64 || !wq.en || (m.world wq.world).st ≠ .run then
    some (m.setWQ q { wq with badwr := wq.badwr + 1 })
  else if 5 ≤ wq.pend && m.wordWaits q then none
  else
    let r := parseLaunch data
    let m1 := m.setWQ q { wq with nextseq := wq.nextseq + 1 }
    if 5 ≤ wq.pend then some (m1.completion q wq.nextseq 4 r.irq)
    else some (m.setWQ q { wq with nextseq := wq.nextseq + 1, held := wq.held ++ [(wq.nextseq, r)] })

def execSubmission (q off : Nat) (data : List Byte) (s : State) : Host.Outcome State Fault Refusal := event s fun m => m.submit q off data

/-- WQCTL_WRITE (Table 9-3, R155). -/
def M.wqctl (m : M) (q : Nat) (v : W64) : Option M :=
  let wq := m.wq q
  if !m.hears (q / 4) then none
  else
    let en := v.getLsbD 0
    let w1 := { wq with en := en, irq := v.getLsbD 1, vec := v.extractLsb' 16 16 }
    some (m.setWQ q (if en && !wq.en then { w1 with nextseq := 1, cwfail := false } else w1))

def execWqctlWrite (q : Nat) (v : W64) (s : State) : Host.Outcome State Fault Refusal := event s fun m => m.wqctl q v

/-! ## Placement (R110, R160, R161, R172, R176) -/

/-- Tiles of the rectangle at a corner, by position (R111). -/
def rectangle (corner w h : Nat) : List Nat :=
  (List.range (w * h)).map fun p => (tileX corner + p % w) * 64 + (tileY corner + p / w)

/-- The rectangle lies in a set of tiles. -/
def inTiles (tiles : List Nat) (corner w h : Nat) : Bool :=
  decide (tileY corner + h ≤ 64) && decide (tileX corner + w ≤ 80) && (rectangle corner w h).all tiles.contains

/-- Corners in ascending name order. -/
def insNat (x : Nat) : List Nat → List Nat
  | [] => [x]
  | y :: ys => if x ≤ y then x :: y :: ys else y :: insNat x ys

def sortNat (xs : List Nat) : List Nat := xs.foldl (fun acc x => insNat x acc) []

/-- Group slots, register rows and scratch bytes in use on a tile. -/
structure Load where
  slots : Nat := 0
  rows : Nat := 0
  scratch : Nat := 0

/-- A tile's capability record admits one more team beside a load (R160, R365). -/
def M.admits (m : M) (r : LRec) (t : Nat) (l : Load) : Bool :=
  let slots := ([0, 1, 2, 3].map fun s => (m.usable t s).length).sum
  decide (l.slots + r.groups ≤ slots) && decide (l.rows + r.groups * r.regs ≤ m.rows t) && decide (l.scratch + r.scratch ≤ m.scrBytes t)

def Load.add (l : Load) (r : LRec) : Load :=
  { slots := l.slots + r.groups, rows := l.rows + r.groups * r.regs, scratch := l.scratch + r.scratch }

/-- Status 2 of Table 9-6: no rectangle whose every tile admits one team. -/
def M.noRectangle (m : M) (p : Part) (r : LRec) : Bool :=
  !(p.tiles.any fun c => inTiles p.tiles c r.w r.h && (rectangle c r.w r.h).all fun t => m.admits r t {})

/-- The arrangement of R161 for a cooperative launch: every cluster finds a rectangle. -/
def M.arranged (m : M) (p : Part) (r : LRec) : Nat → AMap Load → Bool
  | 0, _ => true
  | n + 1, ls =>
    let load (t : Nat) : Load := mget {} ls t
    match (sortNat p.tiles).find? fun c => inTiles p.tiles c r.w r.h && (rectangle c r.w r.h).all fun t => m.admits r t (load t) with
    | none => false
    | some c => m.arranged p r n ((rectangle c r.w r.h).foldl (fun ls t => put ls t ((load t).add r)) ls)

/-- The lowest start of a free piece of a length: 0 or the end of a used piece, rounded up, that meets none. -/
def lowestFit (base size align len : Nat) (used : List (Nat × Nat)) : Option Nat :=
  let up (x : Nat) : Nat := (x + align - 1) / align * align
  let starts := sortNat (up base :: (used.map fun (a, n) => up (a + n)))
  starts.find? fun a => decide (base ≤ a) && decide (a + len ≤ base + size) && used.all fun (b, n) => decide (a + len ≤ b) || decide (b + n ≤ a)

/-- A cluster still has a team (R176). -/
def M.clusterLives (m : M) (c : Nat) : Bool := m.teams.any fun (_, tm) => tm.cluster == c && !tm.ended

/-- An access is on its way to a team's scratch. -/
def Team.awaitsScratch (tm : Team) (a : Access) : Bool :=
  a.phase == .scr tm.tile && a.world == tm.world && decide (tm.scratch ≤ a.pa) && decide (a.pa < tm.scratch + tm.scratchLen)

/-- Teams whose scratch is held on a tile of a world (R176): an access still on its way to it holds it too. -/
def M.scratchHeld (m : M) (w t : Nat) : AMap Team :=
  m.teams.filter fun (_, tm) => tm.world == w && tm.tile == t && tm.scratchLen != 0
    && (m.clusterLives tm.cluster || m.acc.any tm.awaitsScratch)

/-- Scratch pieces in use on a tile of a world. -/
def M.scratchUsed (m : M) (w t : Nat) : List (Nat × Nat) := (m.scratchHeld w t).map fun (_, tm) => (tm.scratch, tm.scratchLen)

/-- Scratch bytes in use on a tile of a world (R160). -/
def M.scratchSum (m : M) (w t : Nat) : Nat := ((m.scratchUsed w t).map (·.2)).sum

/-- Where a free piece of the tile's scratchpad lies, if one is long enough: at a line, else at 16 bytes, else anywhere
(log entry 77). -/
def M.scratchFit (m : M) (w t len : Nat) : Option Nat :=
  [64, 16, 1].findSome? fun align => lowestFit 0 (m.scrBytes t) align len (m.scratchUsed w t)

/-- New starts of pieces laid side by side. -/
def sideBySide (align : Nat) : Nat → List (Nat × Nat) → List (Nat × Nat × Nat)
  | _, [] => []
  | at', (b, n) :: ps => (b, n, at') :: sideBySide align (at' + (n + align - 1) / align * align) ps

/-- The address of a scratch byte after the pieces have moved. -/
def shiftBy (ps : List (Nat × Nat × Nat)) (a : Nat) : Nat :=
  (ps.find? fun x => x.1 ≤ a && a < x.1 + x.2.1).elim a fun x => a - x.1 + x.2.2

/-- The pieces of scratch of a tile's world move side by side, so that `len` bytes more fit behind them, with their bytes,
slabs and reservations; what they leave is zero. No thread observes it but by a slab's OFFSET (log entry 77). -/
def M.scratchPack (m : M) (w t len : Nat) : M :=
  let used := (sortNat ((m.scratchUsed w t).map (·.1))).filterMap fun a => (m.scratchUsed w t).find? (·.1 == a)
  let ends (align : Nat) : Nat := (used.map fun p => (p.2 + align - 1) / align * align).sum
  let align := ([64, 16].find? fun a => decide (ends a + len ≤ m.scrBytes t)).getD 1
  let sh := shiftBy (sideBySide align 0 used)
  let held (a : Nat) : Bool := used.any fun p => decide (p.1 ≤ a) && decide (a < p.1 + p.2)
  let wt := m.wt w t
  let line (k : Nat) : Nat :=
    let k0 := scratchLine w t 0
    if k0 ≤ k && k < k0 + 8192 then k0 + sh ((k - k0) * 64) / 64 else k
  let thr (th : Thread) : Thread := { th with resv := th.resv.map line }
  let wt1 : WT :=
    { wt with
      scratch := (wt.scratch.filter fun (a, _) => held a).foldl (fun acc (a, v) => put acc (sh a) v) []
      slabs := mapV (fun _ e => if e.loc then e else { e with offset := BitVec.ofNat 20 (sh e.offset.toNat) }) wt.slabs
      groups := mapV (fun _ g => { g with lanes := mapV (fun _ th => thr th) g.lanes }) wt.groups }
  let move (a : Access) : Access := if a.phase == .scr t && a.world == w then { a with pa := sh a.pa } else a
  { m.setWT w t wt1 with
    acc := m.acc.map move
    teams := mapV (fun _ tm => if tm.world = w ∧ tm.tile = t then { tm with scratch := sh tm.scratch } else tm) m.teams }

/-- The stack cache of a team's tile still holds bytes of it (R175). -/
def M.stackDirty (m : M) (i : Nat) (tm : Team) : Bool := (m.wt tm.world tm.tile).stackd.any fun (_, o) => o.1 == i

/-- Staged stores of a team have not been released (R127). -/
def M.unreleased (m : M) (tm : Team) : Bool :=
  ((look m.launches tm.launch).map fun l => l.lr.det && !l.ending && decide (l.released ≤ tm.index)).getD false

/-- Stack blocks of a world that are reserved (R172): a team's until it has ended and its stack stores have performed. -/
def M.stackUsed (m : M) (w : Nat) : List (Nat × Nat) :=
  (m.teams.filter fun (i, tm) => tm.world == w && tm.depth != 0 && (!tm.ended || m.stackDirty i tm || m.unreleased tm)).map fun (_, tm) =>
    (tm.limit, tm.nslot * tm.depth)

/-- Base and size of the stack pool (Table 22-2). -/
def World.stackPool (wd : World) : Nat × Nat := ((wd.stkb.extractLsb' 16 40).toNat * 65536, (wd.stkn.extractLsb' 0 32).toNat * 65536)

/-- Rows that waiting requests still await (R160). -/
def WT.awaited (wt : WT) : Nat :=
  (wt.growq.map fun r => match r with
    | .grow _ n _ => n
    | .form b _ => (look wt.bins b).elim 0 Bin.rows).sum

/-- Free group slots of a tile of a world. -/
def M.slotsFree (m : M) (w t : Nat) : Nat := ([0, 1, 2, 3].map fun s => (m.freeSlots w t s).length).sum

/-- A team fits a tile now, its stack block apart (R160). Only tiles latched to the world take part. -/
def M.teamFits (m : M) (w t : Nat) (r : LRec) : Bool :=
  (m.tile t).latch == some w && decide (r.groups ≤ m.slotsFree w t)
    && decide (r.groups * r.regs + (m.wt w t).awaited ≤ m.freeRows w t)
    && decide (m.scratchSum w t + r.scratch ≤ m.scrBytes t)

/-- One group of a placed team (R112, R113, R117). -/
def M.placeGroup (m : M) (w t team : Nat) (r : LRec) (index limit depth g : Nat) : Option M :=
  (m.pickSlot w t).map fun slot =>
    let n := min 32 (r.threads - 32 * g)
    let th (i : Nat) : Thread :=
      { idx := BitVec.ofNat 64 (index * r.threads + 32 * g + i), entry := r.entry, regpc := r.entry.extractLsb' 0 56 }
    let lanes := fillLanes ((List.range n).map th)
    let f := m.fresh
    let grp : Group :=
      { uid := f.1, team := team, pc := r.entry.extractLsb' 0 56, allot := r.regs, lanes := lanes.1, gone := lanes.2,
        k := mset 0 (mset 0 [] 0 r.arg) 63 (BitVec.ofNat 64 (limit + depth)), limit := BitVec.ofNat 64 limit,
        span := BitVec.ofNat 64 (32 * r.groups * 2 ^ 32 + depth) }
    f.2.place w t slot grp

/-- Place a team on a tile: its stack block, its scratch, which reads zero, and its groups (R161, R172, R176). -/
def M.placeTeam (m : M) (w t launch cluster pos index : Nat) (r : LRec) : Option (Nat × M) :=
  let m := if (m.scratchFit w t r.scratch).isSome then m else m.scratchPack w t r.scratch
  let pool := (m.world w).stackPool
  let stack := if r.depth = 0 then some pool.1 else lowestFit pool.1 pool.2 64 (32 * r.groups * r.depth) (m.stackUsed w)
  match stack, m.scratchFit w t r.scratch with
  | some limit, some sc =>
    let f := m.fresh
    let tm : Team :=
      { launch := launch, world := w, index := index, tile := t, cluster := cluster, pos := pos, live := r.threads,
        scratch := sc, scratchLen := r.scratch, limit := limit, nslot := 32 * r.groups, depth := r.depth }
    let wt := f.2.wt w t
    let clean := wt.scratch.filter fun (a, _) => decide (a < sc) || decide (sc + r.scratch ≤ a)
    let m1 := (f.2.setTeam f.1 tm).setWT w t { wt with scratch := clean }
    ((List.range r.groups).foldlM (fun (m : M) g => m.placeGroup w t f.1 r index limit r.depth g) m1).map fun m2 => (f.1, m2)
  | _, _ => none

/-- Clusters of a grid. -/
def LRec.clusters (r : LRec) : Nat := r.teams / (r.w * r.h)

/-- Cluster i has been placed: the lowest not placed moves on. -/
def Launch.deal (l : Launch) (i : Nat) : Launch :=
  (List.range (l.ahead.length + 1)).foldl (fun (l : Launch) _ =>
    if l.ahead.contains l.next then { l with next := l.next + 1, ahead := l.ahead.erase l.next } else l) { l with ahead := i :: l.ahead }

/-- Clusters under placement: the lowest not placed, and in ordinary mode up to 80 (R161). -/
def Launch.dealt (l : Launch) : List Nat :=
  (((List.range (80 + l.ahead.length)).map (· + l.next)).filter fun i => decide (i < l.lr.clusters) && !l.ahead.contains i).take
    (if l.lr.det || l.lr.coop then 1 else 80)

/-- Place cluster i of a launch on the fitting rectangle of the lowest name (R161). -/
def M.placeCluster (m : M) (li i : Nat) : Option M :=
  match look m.launches li with
  | none => none
  | some la =>
    let r := la.lr
    let p := m.part la.part
    match (sortNat p.tiles).find? fun c => inTiles p.tiles c r.w r.h && (rectangle c r.w r.h).all fun t => m.teamFits la.world t r with
    | none => none
    | some c =>
      let f := m.fresh
      let one (acc : List Nat × M) (x : Nat × Nat) : Option (List Nat × M) :=
        (acc.2.placeTeam la.world x.2 li f.1 x.1 (i * (r.w * r.h) + x.1) r).map fun q => (acc.1 ++ [q.1], q.2)
      ((numbered 0 (rectangle c r.w r.h)).foldlM one ([], f.2)).map fun (ids, m1) =>
        let cl : Cluster := { launch := li, world := la.world, index := i, w := r.w, h := r.h, teams := numbered 0 ids }
        ({ m1 with clusters := put m1.clusters f.1 cl }).updLaunch li fun l => { l.deal i with placed := l.placed ++ ids }

/-- Place a cluster of those under placement; which of them is open in ordinary mode (R161, log entry 76). -/
def M.placeNext (m : M) (li : Nat) : Option M :=
  (look m.launches li).bind fun la =>
    match la.dealt with
    | [] => none
    | [i] => m.placeCluster li i
    | is =>
      let f := m.freeVal
      (is[(Config.freeWord f.1 0).toNat % is.length]?).bind (f.2.placeCluster li)

/-- Place clusters until the grid is whole. -/
def M.placeAll (m : M) (li : Nat) : Nat → Option M
  | 0 => some m
  | n + 1 => (m.placeNext li).bind fun m1 => m1.placeAll li n

/-- A cooperative launch of the world waits to be placed whole (R161). -/
def Launch.coopWaits (l : Launch) : Bool := l.lr.coop && l.next == 0 && !l.ending

/-- CLUSTER_PLACEMENT. Of several cooperative launches that wait, the one dispatched first goes first. -/
def M.dispatch (m : M) (li : Nat) : Option M :=
  match look m.launches li with
  | none => none
  | some la =>
    if la.ending || (m.part la.part).quiesce != 0 || (m.world la.world).stopped then none
    else
      match m.launches.find? fun (_, l) => l.world == la.world && l.part == la.part && l.coopWaits with
      | some (i, _) => if i = li then m.placeAll li la.lr.clusters else none
      | none => m.placeNext li

def execClusterPlacement (l : Nat) (s : State) : Host.Outcome State Fault Refusal := event s fun m => m.dispatch l

/-- HANDLERQ names the queue (Table 19-10, R344, R399). -/
def World.handles (wd : World) (q : Nat) : Bool := wd.handlerq.getLsbD 15 && (wd.handlerq.extractLsb' 0 13).toNat == q

/-- LAUNCH_START (R156, R158, R161, R344). -/
def M.startLaunch (m : M) (q : Nat) : Option M :=
  let wq := m.wq q
  match wq.held, (m.world wq.world).part with
  | (seq, r) :: rest, some p =>
    let pt := m.part p
    if wq.running || (m.world wq.world).st ≠ .run || (m.world wq.world).stopped || m.wordWaits q || pt.quiesce != 0 || m.hearth.snapstat == 1 then none
    else
      let m1 := m.setWQ q { wq with held := rest }
      if r.badFields then some (m1.completion q seq 1 r.irq)
      else if m.noRectangle pt r then some (m1.completion q seq 2 r.irq)
      else if r.coop && !m.arranged pt r r.clusters [] then some (m1.completion q seq 3 r.irq)
      else
        let f := (m.setWQ q { wq with held := rest, running := true }).fresh
        some (f.2.setLaunch f.1 { wq := q, seq := seq, world := wq.world, part := p, lr := r, handler := (m.world wq.world).handles q })
  | _, _ => none

def execLaunchStart (q : Nat) (s : State) : Host.Outcome State Fault Refusal := event s fun m => m.startLaunch q

/-! ## The end of a launch (R127, R159, R163, R315) -/

/-- Teams of a launch that stand. -/
def M.teamsOf (m : M) (li : Nat) : AMap Team := m.teams.filter fun (_, tm) => tm.launch == li

/-- A staged store performs at its home, in order (R127). One that fails there is a late store fault, of the thread that
made it (R310, R317); the vector of a SIGNAL is raised when its store is visible (R244). -/
def M.releaseStore (li team t : Nat) (m : M) (st : Staged) : M :=
  match look m.launches li with
  | none => m
  | some la =>
    let f := m.fresh
    let by' : Access := st.src.getD
      { id := f.1, world := la.world, tile := t, slot := 255, group := 0, launch := li, op := 0, lane := 0, thread := 0, pc := 0,
        kind := .store, ctr := 8, va := st.va, size := st.data.length }
    let a : Access :=
      { by' with
        id := f.1, world := la.world, tile := t, slot := 255, group := 0, team := team, launch := li, op := 0,
        kind := .store, ctr := 8, ea := st.src.elim st.va (·.ea), va := st.va, size := st.data.length, data := st.data, tid := st.tid, ver := st.ver,
        key := st.key, pa := st.pa, homek := st.homek, homeid := st.homeid, phase := .remote st.homeid,
        start := m.tileClock t, vec := st.vec }
    if la.ending then m
    else if st.homek = 1 then ({ m with hmem := Memory.writeL m.hmem (hostKey st.homeid st.pa) st.data } : M).visible a
    else if st.homek = 2 then
      (if m.canReach la.world st.homeid then
        { f.2 with acc := f.2.acc ++ [{ a with link := m.linkTo (m.partNum la.world) st.homeid }] }
       else f.2.lateFatal a .remoteUnreachable 0)
    else
      match f.2.storeAt st.homeid a with
      | .inl code => f.2.lateFatal a code 0
      | .inr (w, m1) => if w = 0 then m1.visible a else { m1 with acc := m1.acc ++ [{ a with phase := .done true w }] }

/-- TICKET_RELEASE (R127): the stores of the lowest team not yet released, once it has ended and their homes take them
(R397). -/
def M.ticket (m : M) (li : Nat) : Option M :=
  match look m.launches li with
  | none => none
  | some la =>
    if !la.lr.det || la.ending || (m.world la.world).stopped || (m.part la.part).quiesce != 0 then none
    else
      match look la.staged la.released, (m.teamsOf li).find? fun (_, tm) => tm.index == la.released with
      | some ss, some (i, tm) =>
        if ss.any fun st => st.homek == 0 && m.repairing (fieldKey st.homeid st.pa / 64) then none else
        let m1 := m.updLaunch li fun l => { l with staged := del l.staged l.released, released := l.released + 1 }
        some (ss.foldl (M.releaseStore li i tm.tile) m1)
      | _, _ => none

def execTicketRelease (l : Nat) (s : State) : Host.Outcome State Fault Refusal := event s fun m => m.ticket l

/-- Everything of the launch has ended (R159); an ending launch's teams have all ended (R315). -/
def M.allDone (m : M) (li : Nat) (la : Launch) : Bool :=
  (if la.ending then (m.teamsOf li).all fun (_, tm) => tm.ended
   else la.endedTeams == la.lr.teams && (!la.lr.det || la.released == la.lr.teams))
    && !(m.acc.any fun a => a.launch == li) && (m.teamsOf li).all fun (i, tm) => !m.stackDirty i tm

/-- LAUNCH_COMPLETE. -/
def M.completeLaunch (m : M) (li : Nat) : Option M :=
  match look m.launches li with
  | none => none
  | some la =>
    if !m.allDone li la || (m.world la.world).stopped || m.wordWaits la.wq then none
    else
      let m1 : M :=
        { m with launches := del m.launches li
                 teams := m.teams.filter fun (_, tm) => tm.launch != li
                 clusters := m.clusters.filter fun (_, c) => c.launch != li }
      let m2 := m1.setWQ la.wq { m1.wq la.wq with running := false }
      some (m2.completion la.wq la.seq la.status la.lr.irq)

def execLaunchComplete (l : Nat) (s : State) : Host.Outcome State Fault Refusal := event s fun m => m.completeLaunch l

/-- The cause a group carries while it is not ready (Table 9-8). -/
def Group.cause (g : Group) : Option Cause :=
  if g.record.isSome then some .trap else
  if g.bank.any (· != 0) then some .bank else
  match g.wait with
  | .none => none
  | .pend c => some c
  | .fetch _ => some .fetch
  | .walk => some .window
  | .arrived _ _ _ => some .barrier
  | .fence _ _ => some .fence
  | .result _ => some .window
  | .grow _ => some .grow
  | .request c _ => some c
  | .table _ => some .fence
  | .failed _ _ _ => none
  | .ended _ => some .trap

/-- The conditions of GRID_STALL hold now (R163, R314). -/
def M.stalled (m : M) (li : Nat) (la : Launch) : Bool :=
  let mine := m.teamsOf li
  let still (g : Group) : Bool := match g.cause with
    | some .barrier => true
    | some .sema => true
    | some .fence => true
    | some .meeting => true
    | some .slab => true
    | _ => false
  let quiet (i : Nat) (tm : Team) : Bool :=
    let wt := m.wt tm.world tm.tile
    (wt.groups.all fun (_, g) => g.team != i || still g) && wt.bins.all fun (_, b) => b.team != i || b.timed || b.ths.isEmpty
  !la.ending && !la.dealt.isEmpty && mine.any (fun (_, tm) => !tm.ended)
    && mine.all (fun (i, tm) => tm.ended || quiet i tm) && !((m.world la.world).tokens.any fun (_, tk) => tk.launch == li)

/-- Cycles of a launch's stall interval (Table 9-2). -/
def LRec.stallCycles (r : LRec) : Nat := 1024 * if r.stall = 0 then 1024 else r.stall

/-- GRID_STALL (R163, R315, R317). -/
def M.gridStalls (m : M) (li : Nat) : Option M :=
  (look m.launches li).bind fun la =>
    if la.stall < la.lr.stallCycles || !m.stalled li la then none
    else some (m.fatal la.world li
      { code := .gridStall, pc := la.lr.entry.extractLsb' 0 56, seq := la.seq, kind := 3, wq := la.wq })

def execGridStall (l : Nat) (s : State) : Host.Outcome State Fault Refusal := event s fun m => m.gridStalls l

/-- A group's requests are withdrawn: semaphores, receive buffers, the anvil and the pilot. -/
def WT.withdraw (wt : WT) (slot uid : Nat) : WT :=
  let mine (r : SemReq) : Bool := match r with
    | .sacq _ _ g _ => g == uid
    | .join _ _ _ => false
  { wt with
    sems := mapV (fun _ s => { s with queue := s.queue.filter fun r => !mine r }) wt.sems
    recvs := mapV (fun _ rs => rs.filter fun r => r.group != uid) wt.recvs
    anvilq := wt.anvilq.filter fun r => r.group != uid
    rels := wt.rels.filter fun r => r.1 != slot
    pilotq := wt.pilotq.filter fun r => r.group != uid }

/-- The accesses of a group that is discarded: those pending complete, with no thread to receive what they return
(R315). -/
def M.orphanGroup (m : M) (uid : Nat) : M :=
  let cut (a : Access) : Option Access :=
    if a.group != uid then some a
    else if a.phase == .done true 0 then none
    else some { a with slot := 256, group := 0 }
  { m with acc := m.acc.filterMap cut }

/-- Discard a team's groups and its threads in the landing (R315, R394). -/
def M.discardTeam (m : M) (i : Nat) (tm : Team) : M :=
  let w := tm.world
  let t := tm.tile
  let slots := ((m.wt w t).groups.filter fun (_, g) => g.team == i).map fun (s, g) => (s, g.uid)
  let m1 := slots.foldl (fun m (s, u) => ((m.setWT w t ((m.wt w t).withdraw s u)).orphanGroup u).freeGroup w t s) m
  let wt := m1.wt w t
  let bins := wt.bins.filter fun (_, b) => b.team != i
  let gone (r : RowReq) : Bool := match r with
    | .grow _ _ _ => false
    | .form b _ => (look bins b).isNone
  m1.setWT w t (WT.gcUrecs { wt with bins := bins, parked := wt.parked.filter (fun (_, p) => p.team != i)
                                     meets := wt.meets.filter (fun (_, r) => r.team != i)
                                     growq := wt.growq.filter fun r => !gone r })

/-- The nodes of a halted chain whose threads are gone. -/
def Chain.noThreads (c : Chain) : Chain :=
  { c with nodes := c.nodes.map fun n => { n with spawned := n.nd.count, live := 0 } }

/-- A team of an ending launch ends: threads, staged stores, chains (R255, R315). -/
def M.endTeam (m : M) (i : Nat) (tm : Team) : M :=
  let m1 := (m.discardTeam i tm).updTeam i fun x => { x with live := 0, staged := [], barriers := [] }
  let chs := ((m1.wt tm.world tm.tile).chains.filter fun (_, c) => c.owner == some i).map (·.1)
  let m2 := chs.foldl (fun m ch =>
    let h := m.haltChain tm.world tm.tile ch .illegalEncoding 0 0 false
    let wt := h.wt tm.world tm.tile
    h.setWT tm.world tm.tile (wt.setChain ch ((wt.chain ch).noThreads))) m1
  m2.teamCheck i

/-- Nothing of a team of an ending launch is left to end but its halted chains. -/
def M.teamOver (m : M) (i : Nat) (tm : Team) : Bool :=
  tm.live == 0 && tm.staged.isEmpty && (m.wt tm.world tm.tile).chains.all fun (_, c) => c.owner != some i || c.halted

/-- LAUNCH_FATAL_END (R315). -/
def M.fatalEnd (m : M) (li : Nat) : Option M :=
  (look m.launches li).bind fun la =>
    if !la.ending || ((m.teamsOf li).all (fun (i, tm) => m.teamOver i tm) && la.staged.isEmpty) then none
    else
      let wd := m.world la.world
      let m1 := m.setWorld la.world { wd with tokens := wd.tokens.filter fun (_, tk) => tk.launch != li }
      let m2 := (m1.teamsOf li).foldl (fun m (i, tm) => m.endTeam i tm) m1
      some (m2.updLaunch li fun l => { l with staged := [] })

def execLaunchFatalEnd (l : Nat) (s : State) : Host.Outcome State Fault Refusal := event s fun m => m.fatalEnd l

end Sys2Proof.Machine
end

