-- ==== Sys2Proof/Machine/Stop.lean ====
section
/-! DEFINITION. Events and out-of-band records, the quench, stopping a world, fault records, fetch and settling (R308 to
R320, R393 to R401, R405). -/

namespace Sys2Proof.Machine

/-! ## Events (R405) -/

/-- Post an event to one port's ring (R403). -/
def M.postTo (m : M) (p : Nat) (ws : List W64) : M :=
  let pt := m.port p
  if !pt.evbase.getLsbD 0 then m
  else if (pt.evtail - pt.evhead).toNat = 256 then m.setPort p { pt with lost := pt.lost + 1 }
  else
    let at' := (pt.evbase.extractLsb' 14 42).toNat * 16384 + 64 * (pt.evtail.toNat % 256)
    let bs := (ws.flatMap fun w => natBytes 8 w.toNat) ++ List.replicate (64 - 8 * ws.length) 0
    { m with hmem := Memory.writeL m.hmem (hostKey p at') bs }.setPort p { pt with evtail := pt.evtail + 1 }

/-- Post an event to every ring. -/
def M.post (m : M) (ws : List W64) : M := (m.ports.map (·.1)).foldl (fun m p => m.postTo p ws) m

/-- Word 0 of an event of a kind. -/
def evWord (kind : Nat) (rest : Nat) : W64 := BitVec.ofNat 64 (kind * 2 ^ 56 + rest)

/-! ## Out-of-band records (R401) -/

/-- An out-of-band record for a world. -/
def M.outOfBand (m : M) (w : Nat) (fr : FRec) : M :=
  let wd := m.world w
  let m1 := m.setWorld w { wd with oobrec := some fr, oobseq := wd.oobseq + 1 }
  (m1.raise w 0).post [evWord 3 (fr.code.num.toNat * 65536 + w), fr.detail.setWidth 64]

/-! ## The quench (R393) -/

/-- Drop what a tile's caches hold of a world. -/
def Tile.forget (tl : Tile) (w : Nat) : Tile :=
  { tl with l1 := tl.l1.filter fun (_, l) => l.world != w
            tlb := tl.tlb.filter fun (k, _) => k / 2 ^ 42 != w
            fetch := tl.fetch.filter fun (k, _) => k / 2 ^ 51 != w
            asks := tl.asks.filter fun k => k / 2 ^ 40 != w
            shadow := tl.shadow.filter (· != w)
            out := tl.out.filter (· != w) }

/-- The accesses of a world whose threads are gone: those sent complete, no other is sent (R394). What the stack cache
holds has not been sent, and scratch goes with the world. -/
def M.orphanAcc (m : M) (w : Nat) : M :=
  let sent (a : Access) : Bool := !a.kind.isLoad && match a.phase with
    | .walk => false
    | .cached => false
    | .scr _ => false
    | .done true 0 => false
    | _ => true
  let cut (a : Access) : Option Access :=
    if a.world != w then some a else if sent a then some { a with slot := 256, group := 0, launch := 0 } else none
  { m with acc := m.acc.filterMap cut }

/-- Quench a world: its state on every tile, its launches and tokens (R393, R394). It ends when what the world had sent has
performed (`quenchEnds`). -/
def M.quenchWorld (m : M) (w : Nat) : M :=
  let m1 := m.orphanAcc w
  let wd := m1.world w
  let m2 : M :=
    { m1 with
      tiles := mapV (fun _ tl => tl.forget w) m1.tiles
      wts := m1.wts.filter fun (k, _) => k / 8192 != w
      teams := m1.teams.filter fun (_, tm) => tm.world != w
      clusters := m1.clusters.filter fun (_, c) => c.world != w
      launches := m1.launches.filter fun (_, l) => l.world != w
      wqs := mapV (fun _ q => if q.world = w then { q with running := false } else q) m1.wqs
      walks := m1.walks.filter fun k => k.world != w
      copies := m1.copies.filter fun k => k.world != w
      flights := m1.flights.filter fun f => f.world != w
      dumps := m1.dumps.filter fun d => d.world != w }
  m2.setWorld w { wd with tokens := [], recs := [], changes := [], resWait := [], quench := true }

/-- Quench a tile for every world; no world is latched on it until the quench ends (R393). -/
def M.quenchTile (m : M) (t : Nat) : M :=
  let tl := m.tile t
  let m1 := { m with wts := m.wts.filter fun (k, _) => k % 8192 != t }
  m1.setTile t { halt := tl.halt, cycle := tl.cycle, quench := true }

/-! ## Stopping a world (R394 to R396) -/

/-- Step 1: issue stops and nothing more is sent; with its threads the world's state goes (log entry 87). In a switch into
the world its tiles have no world (R396). -/
def M.haltWorld (m : M) (w : Nat) : M :=
  let m1 := m.quenchWorld w
  let wd := m1.world w
  let m2 := m1.setWorld w { wd with stopped := true }
  match wd.part with
  | none => m2
  | some p =>
    let pt := m2.part p
    let m3 := m2.setPart p { pt with skip := if pt.skip.contains w then pt.skip else w :: pt.skip }
    if (pt.sw.bind (·.dst)) = some w then
      { m3 with tiles := mapV (fun t tl => if pt.tiles.contains t ∧ tl.latch = some w then { tl with latch := none } else tl) m3.tiles }
    else m3

/-- Keys are withdrawn: zeroed in every field controller (R386). -/
def World.bare (wd : World) : World := { wd with keys := [], mac := false, gens := [], macGen := 0 }
def M.withdraw (m : M) (w : Nat) : M := m.setWorld w (m.world w).bare

/-- Queues of a world are disabled and lose their held records (R394). -/
def M.closeQueues (m : M) (w : Nat) : M :=
  { m with wqs := mapV (fun _ q => if q.world = w then { q with en := false, held := [] } else q) m.wqs }

/-- A world stop begins, with its record or, by STOP_INTERFACE_REQUEST, without one: only a world in RUN is stopped, and
once (Table 22-3, R394, R396). -/
def M.stopBegin (m : M) (w : Nat) (fr : Option FRec) : M :=
  if (m.world w).st ≠ .run || (m.world w).stopping.isSome then m
  else
    let m1 := m.haltWorld w
    m1.setWorld w { m1.world w with stopping := some fr }

/-- A world stop with its record. -/
def M.stopWith (m : M) (w : Nat) (fr : FRec) : M := m.stopBegin w (some fr)

/-- Steps 2 to 5 of a stop, once what the world had sent has performed: keys are withdrawn, the quench has ended, the
function goes to ERROR and its one record is delivered; without a record it goes to CONFIG_UNLOCKED (R383, R394). -/
def M.stopEnds (m : M) (w : Nat) (fr : Option FRec) : M :=
  let m1 := (m.withdraw w).closeQueues w
  let become (st : Tdisp) : M := m1.setWorld w { m1.world w with st := st, stopping := none }
  match fr with
  | some fr => (become .error).outOfBand w fr
  | none =>
    let m2 := become .unlocked
    let wd := m2.world w
    m2.setWorld w { wd with sess := { wd.sess with out := [3] } }

/-- A world stop by a cause and its DETAIL. -/
def M.stopWorld (m : M) (w : Nat) (code : Code) (detail : Nat) : M :=
  m.stopWith w { code := code, detail := BitVec.ofNat 32 detail, kind := 4 }

/-! ## Fault records (R317 to R319) -/

/-- The eight doublewords of a record (Table 17-3). -/
def FRec.words (r : FRec) : List W64 :=
  [ r.code.num ++ r.pc,
    0#8 ++ BitVec.ofNat 56 r.addr,
    r.lanes ++ r.tile,
    r.thread,
    BitVec.ofNat 32 r.token ++ r.seq,
    r.detail ++ BitVec.ofNat 3 r.kind ++ BitVec.ofBool r.resv ++ BitVec.ofNat 4 r.chain ++ BitVec.ofNat 8 r.group ++ 0#3
      ++ BitVec.ofNat 13 r.wq,
    0#8 ++ r.regpc,
    r.regcnt ++ 0#32 ]

def FRec.bytes (r : FRec) : List Byte := r.words.flatMap fun w => natBytes 8 w.toNat

/-- Occupancy of the trap queue (R319). -/
def World.occ (wd : World) : Nat := (wd.tqtail - wd.tqhead).toNat

/-- A fatal record. -/
def FRec.isFatal (r : FRec) : Bool := r.kind == 1 || r.kind == 3

/-- The record is dealt with now: written, or, a fatal one, the cause of a stop (R319, R350). -/
def World.takes (wd : World) (r : PendRec) : Bool := r.fr.isFatal || (wd.tqbase.getLsbD 0 && decide (wd.occ < 1023))

/-- Wake the group that waits for a record; in this cycle it still carries TRAP (R168). -/
def M.wakeRec (m : M) (w id : Nat) : M :=
  let wake (g : Group) : Group :=
    if g.record = some id then { g with record := none, wait := if g.wait.begun then g.wait else .pend .trap } else g
  { m with wts := mapV (fun k wt => if k / 8192 = w then { wt with groups := mapV (fun _ g => wake g) wt.groups } else wt) m.wts }

/-- TRAP_RECORD_WRITE (R319): the first record that can be dealt with. It stays while its line cannot be written (R397). -/
def M.writeRec (m : M) (w : Nat) : Option M :=
  let wd := m.world w
  (wd.recs.find? wd.takes).bind fun r =>
    let key := wd.slotKey wd.tqtail.toNat
    if wd.st ≠ .run || wd.stopping.isSome || m.repairing (key / 64) then none
    else if r.fr.isFatal && (!wd.tqbase.getLsbD 0 || decide (1024 ≤ wd.occ)) then
      some (m.stopWith w { r.fr with kind := 4, code := .trapQueueOverflow })
    else
      let fr := { r.fr with resv := r.fr.isFatal && wd.occ == 1023 }
      (m.fieldWrite key fr.bytes w 0 0 0).map fun m1 =>
        let q := m1.performed (key / 2 ^ 36) (key / 64)
        let m2 := if q.1 = 0 then q.2 else q.2.passUnits q.1
        ((m2.setWorld w { wd with tqtail := wd.tqtail + 1, recs := wd.recs.filter (·.id != r.id) }).wakeRec w r.id).wakeChains w r.id

def execTrapRecordWrite (w : Nat) (s : State) : Host.Outcome State Fault Refusal := event s fun m => m.writeRec w

/-! ## Fetch (R19, R58, R320) -/

/-- An entry of a world's error log on a tile (Table 19-12). -/
def WT.logError (wt : WT) (kind : BitVec 8) (loc : Va) : WT :=
  { wt with errs := { n := wt.errs.n + 1, ring := put wt.errs.ring (wt.errs.n.toNat % 16) (kind ++ loc) } }

/-- What the read of a fetch block meets: the block, or its fault; a page to walk; or something it waits for. -/
inductive FetchRead where
  | got (b : FetchBlock)
  | miss
  | later

/-- A fetch block that faults. -/
def faultBlock (c : Code) (detail : Nat) : FetchRead := .got { data := [], fault := some (c, detail) }

/-- Stores and atomics to a block that have not performed: until they have, part of them could be seen (R19). -/
def M.storesOpen (m : M) (l : Leaf) (a : Nat) : List Access :=
  m.acc.filter fun x => !x.kind.isLoad && !x.settled && !x.pref &&
    (let h := m.homeOf x
     h.1 == l.homek && h.2.1 == l.homeid && decide (h.2.2 < l.pa a + 32) && decide (l.pa a < h.2.2 + x.size))

/-- The block that a fetch reads, untagged (R186). A page at another module has no fetch (R412: log entry 22); a block
of a line with a memory error, or under a tree node in repair, is as any read (R310, R397). A team sees what it has
staged (R127). -/
def M.fetchBlock (m : M) (t w a : Nat) : FetchRead × M :=
  let got (bs : List Byte) : FetchRead := .got { data := bs, own := m.ownViews t w a bs }
  match m.place' t w 0 [] a 32 .fetch with
  | .bad c d => (faultBlock c d, m)
  | .scratch _ _ => (faultBlock .protection (detailOf 7 0 .fetch), m)
  | .miss => (.miss, m)
  | .page l =>
    if l.homek = 2 then (faultBlock .protection (detailOf 15 l.level .fetch), m)
    else if !(m.storesOpen l a).isEmpty then
      (.later, m.flush w t [{ lo := a / 64, hi := a / 64 }])
    else if l.homek = 1 then
      (if m.ecc.contains (hostLine l.homeid (l.pa a)) then faultBlock .uncorrectableData 0
       else got (Memory.readN m.hmem (hostKey l.homeid (l.pa a)) 32), m)
    else
      let key := fieldKey l.homeid (l.pa a)
      if m.repairing (key / 64) then (.later, m)
      else
        let q := m.fieldRead key 32 w l.key 0 0
        match q.1 with
        | some bs => (got bs, q.2)
        | none => (faultBlock (m.readFault (key / 64) w l.key 0 0) 0, q.2)

/-- FETCH_COMPLETE: a block arrives, or its page is asked for (R325); `bad` when the instruction cache failed it twice
(R320). -/
def M.fetchDone (m : M) (t va : Nat) (bad : Bool) : Option M :=
  (m.tile t).latch.bind fun w =>
    if 2 ^ 56 ≤ va then none
    else
      let a := va / 32 * 32
      let keep (m : M) (b : FetchBlock) : M :=
        let tl := m.tile t
        m.setTile t { tl with fetch := put tl.fetch (blockKey w va) b }
      let r := m.fetchBlock t w a
      match r.1 with
      | .miss => m.ask t w a
      | .later => if (r.2.wt w t).flush == (m.wt w t).flush then none else some r.2
      | .got b =>
        if bad then
          some (keep (r.2.setWT w t ((r.2.wt w t).logError 2 (BitVec.ofNat 56 a))) { data := [], fault := some (.uncorrectableData, 0) })
        else some (keep r.2 b)

def execFetchComplete (t va : Nat) (bad : Bool) (s : State) : Host.Outcome State Fault Refusal := event s fun m => m.fetchDone t va bad

/-! ## Settling and arriving (R122, R308, R309) -/

/-- Operations of a group that a switch does not wait for: SACQ and RECV stay pending (R288, R422). -/
def Pend.waitsOn (p : Pend) : Bool :=
  p.sem.isSome || match p.dest with
    | .recv _ _ _ => true
    | _ => false

/-- A pre-empted group's counters have drained: no access of it is still to be acknowledged (R204, log entry 74). -/
def M.drained (m : M) (g : Group) : Bool :=
  !(g.ops.any fun p => p.ll && !p.waitsOn) && !(m.acc.any fun a => a.group == g.uid && match a.phase with
    | .done true _ => false
    | _ => true)

/-- FAULT_SETTLE (R308): at a settle point, or for a pre-empted group once its counters have drained and every pending
long-latency instruction of it has completed (R309). While a SACQ or RECV of it is pending it does not settle (log entry
86). -/
def M.settles (m : M) (t slot : Nat) : Option M :=
  let tl := m.tile t
  match tl.out.bind fun a => (look (m.wt a t).groups slot).map fun g => (a, g) with
  | some (a, g) =>
    let need := (m.wt a t).roomFor g g.settled.length
    if 5 ≤ tl.spill || g.late.isEmpty || !m.drained g || g.anyLL then none
    else if !m.hasRoom a t slot need then
      (if need ≤ (m.wt a t).lwant then none else some (m.setWT a t ((m.wt a t).wants need)))
    else some ((((m.quit a t slot g).roomTaken a t slot).updGroup a t slot fun g => { g with late := [] }).takeFaults a t slot g.settled)
  | none =>
    tl.latch.bind fun w => (look (m.wt w t).groups slot).bind fun g =>
      if g.late.isEmpty || g.wait.begun || !m.mayIssue t w slot g || !(g.faultAtMeet || g.settleDue false) then none
      else some (m.settle w t slot g)

def execFaultSettle (t slot : Nat) (s : State) : Host.Outcome State Fault Refusal := event s fun m => m.settles t slot

/-- The group in the slot has issued in this cycle: it issues no other instruction in it (R164). -/
def M.hasIssued (m : M) (t slot : Nat) : Bool := ((m.tile t).past ++ (m.tile t).issued).any (·.slot == slot)

/-- MEETING_ARRIVAL (R122), before the group's instruction of the cycle. -/
def M.arrives (m : M) (t slot : Nat) : Option M :=
  (m.tile t).latch.bind fun w => (look (m.wt w t).groups slot).bind fun g =>
    if !m.mayIssue t w slot g || g.faultAtMeet || g.arriving.isEmpty || m.hasIssued t slot then none else some (m.arrive w t slot g)

def execMeetingArrival (t slot : Nat) (s : State) : Host.Outcome State Fault Refusal := event s fun m => m.arrives t slot

end Sys2Proof.Machine
end

