-- ==== Sys2Proof/Machine/Context.lean ====
section
/-! DEFINITION. A world's context area: what the spill engine writes of a tile's state, and when it cannot be read back
(R332, R335, R336, R358). -/

namespace Sys2Proof.Machine

/-- A world's context block for a tile, by its place in the shape report (R335). -/
def M.ctxBlock (m : M) (w t : Nat) : Option Nat :=
  let wd := m.world w
  let i := ((wd.part.map fun p => (sortNat (m.part p).tiles).idxOf t).getD 0)
  if i < wd.ctxBlocks then some (wd.ctxBase + i * blockBytes) else none

/-- Where a row's state lies in a tile block: offsets and sizes (Table 18-3). -/
def ctxParts (row : Nat) : List (Nat × Nat) :=
  if row = 1 then [(0x23C000, 0x1000), (0x23D000, 0x1000), (0x23E000, 0x1000)]
  else if row = 2 then [(0x1C0000, 0x60000)]
  else if row = 3 then [(0x180000, 0x40000)]
  else if row = 4 then [(0x100000, 0x80000)]
  else if row = 5 then [(0x220000, 0x10000), (0x241000, 0x3F000)]
  else if row = 6 then [(0, 0x100000), (0x230000, 0xC000)]
  else [(0x23F000, 0x2000)]

/-- A line of a row of a world's context block for a tile. -/
def M.inRow (m : M) (w t row line : Nat) : Bool :=
  match m.ctxBlock w t with
  | some base => (ctxParts row).any fun x => decide (base + x.1 ≤ line * 64) && decide (line * 64 < base + x.1 + x.2)
  | none => false

/-- Bytes of an accumulator tile by offset (R259). -/
def AccTile.cells (a : AccTile) : List (Nat × Byte) :=
  a.planes.flatMap fun (p, ws) => ws.flatMap fun (i, v) => numbered (1024 * p + 4 * i) (natBytes 4 v.toNat)

/-- The register rows that the groups of a tile hold, side by side in the bank image: where each group's begin, and how many
bytes they are (R15, R358). -/
def WT.bankImage (wt : WT) : List (Nat × Nat) :=
  (wt.groups.foldl (fun (r : List (Nat × Nat) × Nat) (_, g) => (r.1 ++ [(r.2, 128 * g.allot)], r.2 + 128 * g.allot)) ([], 0)).1

/-- Bytes of the landing's entries in the landing itself, and in its overflow region (R118). -/
def WT.landingParts (wt : WT) : Nat × Nat := (min wt.landIn 0x10000, min (wt.landUsed - wt.landIn) 0x3F000)

/-- What a row writes into a tile block, by offset: scratch, operand and accumulator memory and the slab table as they
stand; of what only the spill engine reads back (the register rows and the record of each group, the landing's entries, the
rest of rows 1 and 7), bytes the manual does not fix, as many as the part holds (R335, R358, log entry 6). -/
def WT.ctxCells (wt : WT) (free row : Nat) : List (Nat × Byte) :=
  let own (off n : Nat) : List (Nat × Byte) := numbered off (freeBytes (free + off) n)
  if row = 1 then
    (wt.slabs.flatMap fun (i, e) => numbered (0x23C000 + 16 * i) (e.words.flatMap fun x => natBytes 4 x.toNat))
      ++ own 0x23D000 0x1000 ++ own 0x23E000 0x1000
  else if row = 2 then wt.accs.flatMap fun (i, a) => a.cells.map fun (o, b) => (0x1C0000 + 6144 * i + o, b)
  else if row = 3 then wt.omem.map fun (a, b) => (0x180000 + a, b)
  else if row = 4 then wt.scratch.map fun (a, b) => (0x100000 + a, b)
  else if row = 5 then own 0x220000 wt.landingParts.1 ++ own 0x241000 wt.landingParts.2
  else if row = 6 then
    (wt.bankImage.flatMap fun (off, n) => own off n) ++ wt.groups.flatMap fun (slot, _) => own (0x230000 + 256 * slot) 256
  else own 0x23F000 0x2000

/-- Write a row of a world's tile block, encrypted and tagged with tensor id 0 and its switch count (R336). A line of
zeros that was blank stays so (log entry 6). -/
def M.ctxWrite (m : M) (w t row : Nat) : M :=
  match m.ctxBlock w t with
  | none => m
  | some base =>
    let f := m.freeVal
    let cells : List (Nat × Byte) := ((m.wt w t).ctxCells f.1 row).map fun (o, b) => (base + o, b)
    let inside (line : Nat) : Bool := m.inRow w t row line
    let old : List Nat := (m.lines.map (·.1)).filter inside
    let new : List Nat := cells.map fun x : Nat × Byte => x.1 / 64
    let lines := (old ++ new).eraseDups
    let tag := m.lineTag w 0 0 (m.world w).switches
    { f.2 with
      fmem := cells.foldl (fun mem (k, b) => Memory.write mem k b) (m.fmem.filter fun (k, _) => !inside (k / 64))
      lines := lines.foldl (fun ls l => put ls l (some tag)) m.lines }

/-- What a row has saved cannot be loaded: a line of it fails its tag, is of another save, or has an error (R336). -/
def M.ctxBad (m : M) (b t row : Nat) : Bool :=
  (m.wt b t).ctx && m.lines.any fun (l, _) => m.inRow b t row l && (m.ecc.contains l ||
    match m.view l b 0 0 (m.world b).switches with
    | .older => true
    | .bad => true
    | .plain => false
    | .blank => false
    | .garbled => false)

/-- The state of a world on a tile cannot be loaded: some row of it cannot. -/
def M.ctxFails (m : M) (b t : Nat) : Bool := [1, 2, 3, 4, 5, 6, 7].any (m.ctxBad b t)

/-- A restore that fails its tag: the world is stopped and no tile has it (R336, R396). -/
def M.restoreFails (m : M) (b t : Nat) : M :=
  let m1 := m.stopWorld b .machineCheck 3
  match m1.partOf t with
  | none => m1
  | some pi =>
    let p := m1.part pi
    let m2 := p.tiles.foldl (fun (m : M) x => if (m.tile x).latch = some b then m.setTile x { m.tile x with latch := none } else m) m1
    m2.setPart pi { p with latched := p.latched.filter (· != b) }

/-- A row cannot be written yet: a line of it lies under a tree node in repair (R397). -/
def M.ctxWaits (m : M) (w t row : Nat) : Bool :=
  match m.ctxBlock w t with
  | some base => !m.failed.isEmpty && (ctxParts row).any fun x =>
      (List.range (x.2 / 64)).any fun i => m.repairing ((base + x.1) / 64 + i)
  | none => false

/-- A copy that the slipway ends after row 1 of its world was saved changes the slab table in the context area too (R332). -/
def M.slabsSaved (m : M) (w t : Nat) : M :=
  let tl := m.tile t
  if (tl.out == some w && 1 ≤ tl.spill) || (tl.out != some w && tl.latch != some w && (m.wt w t).ctx) then m.ctxWrite w t 1 else m

/-- What ends a copy of the slipway, with the saved slab table. -/
def M.slipEnds (m : M) (c : Nat) (r : Option M) : Option M :=
  r.map fun m1 => (m.copy c).elim m1 fun k => if (m1.copy c).isSome then m1 else m1.slabsSaved k.world k.tile

def execSlipwayComplete (c : Nat) (ok : Bool) (s : State) : Host.Outcome State Fault Refusal :=
  event s fun m => m.slipEnds c (m.slipOver c ok)

def execSlipwayRetryExpiry (c : Nat) (s : State) : Host.Outcome State Fault Refusal := event s fun m => m.slipEnds c (m.slipExpires c)

end Sys2Proof.Machine
end

