-- ==== Sys2Proof/Machine/Trust.lean ====
section
/-! DEFINITION. TDISP, SPDM and IDE messages of a world's function (R383, R386 to R388, R395). The messages' own formats
are those standards' (log entry 24): an answer is a number and the words the manual gives. -/

namespace Sys2Proof.Machine

/-- The last answer to a world's messages. -/
def M.answer (m : M) (w : Nat) (kind : Nat) (ws : List W64) : M :=
  let wd := m.world w
  m.setWorld w { wd with sess := { wd.sess with out := BitVec.ofNat 64 kind :: ws } }

/-- A TDISP error. -/
def M.tdispError (m : M) (w : Nat) : M := m.answer w 0xFF []

def Tdisp.num : Tdisp → Nat
  | .unlocked => 0 | .locked => 1 | .run => 2 | .error => 3

/-! ## TDISP (R383, R387, R392) -/

/-- LOCK (R383). -/
def M.lock (m : M) (w : Nat) : M :=
  let wd := m.world w
  if wd.st = .unlocked && wd.part.isSome && wd.sess.ide && wd.sess.secured then (m.setWorld w { wd with st := .locked }).answer w 1 []
  else m.tdispError w

/-- The five requirements of START (R383, R446). -/
def M.mayStart (m : M) (w : Nat) : Bool :=
  let wd := m.world w
  let n := ((wd.part.map m.part).map fun p => p.tiles.length).getD 0
  let root := (wd.root.extractLsb' 16 40).toNat * 65536
  let ctx := wd.ctxBlocks * blockBytes
  wd.keys.contains 0 && wd.mac && devOk root 65536 && devOk wd.ctxBase ctx && devOk wd.ttbBase (2 ^ 23)
    && m.ownsRange w root 65536 && m.ownsRange w wd.ctxBase ctx && m.ownsRange w wd.ttbBase (2 ^ 23)
    && decide (n ≤ wd.ctxBlocks) && decide (1 ≤ (wd.stkn.extractLsb' 0 32).toNat) && decide (1 ≤ wd.sess.period)
    && decide (wd.sess.period ≤ 255)

/-- START (R383). The slice controller takes the world's entry again. -/
def M.start (m : M) (w : Nat) : M :=
  let wd := m.world w
  if wd.st = .locked && m.mayStart w then
    let m1 := m.setWorld w { wd with st := .run, stopped := false }
    let m2 := match wd.part with
      | some p => m1.setPart p { m1.part p with skip := (m1.part p).skip.filter (· != w) }
      | none => m1
    m2.answer w 2 []
  else m.tdispError w

/-- STOP (Table 22-3, R394): in RUN a stop without a record, answered when it has ended. -/
def M.stopIf (m : M) (w : Nat) : M :=
  let wd := m.world w
  let leave (m : M) : M := (m.setWorld w { m.world w with st := .unlocked }).answer w 3 []
  match wd.st with
  | .unlocked => m.tdispError w
  | .locked => leave (m.withdraw w)
  | .run => m.stopBegin w none
  | .error => leave m

/-- A TDISP request, by number: 1 LOCK, 2 START, 3 STOP. -/
def M.tdisp (m : M) (w kind : Nat) : M := if kind = 1 then m.lock w else if kind = 2 then m.start w else m.stopIf w

/-- A request to a world whose partition is in a quiesce waits until it ends (R392); a STOP in ERROR waits for the
world's quench and whatever comes during a stop for its end (Table 22-3), and what comes after it waits too. -/
def M.tdispReq (m : M) (w kind : Nat) : Option M :=
  if !m.hears w then none
  else
    let wd := m.world w
    let busy := match wd.part with
      | some p => (m.part p).quiesce != 0
      | none => false
    some (if busy || !wd.tdispWait.isEmpty || wd.stopping.isSome || (kind == 3 && wd.st == .error && wd.quench) then
      m.setWorld w { wd with tdispWait := wd.tdispWait ++ [kind] }
      else m.tdisp w kind)

def execLockInterface (w : Nat) (s : State) : Host.Outcome State Fault Refusal := event s fun m => m.tdispReq w 1
def execStartInterface (w : Nat) (s : State) : Host.Outcome State Fault Refusal := event s fun m => m.tdispReq w 2
def execStopInterface (w : Nat) (s : State) : Host.Outcome State Fault Refusal := event s fun m => m.tdispReq w 3

/-- A query that changes nothing but is answered. -/
def M.query (m : M) (w kind : Nat) (ws : List W64) : Option M := if m.hears w then some (m.answer w kind ws) else none

/-- GET_TDISP_VERSION: 1.0 (R387). -/
def execGetTdispVersion (w : Nat) (s : State) : Host.Outcome State Fault Refusal := event s fun m => m.query w 4 [0x10]
def execGetTdispCapabilities (w : Nat) (s : State) : Host.Outcome State Fault Refusal := event s fun m => m.query w 5 []
def execGetDeviceInterfaceReport (w : Nat) (s : State) : Host.Outcome State Fault Refusal := event s fun m => m.query w 6 []
def execGetDeviceInterfaceState (w : Nat) (s : State) : Host.Outcome State Fault Refusal :=
  event s fun m => m.query w 7 [BitVec.ofNat 64 (m.world w).st.num]

/-! ## SPDM (R387, R388, R395) -/

/-- GET_VERSION: 1.4 (R387). -/
def execGetVersion (w : Nat) (s : State) : Host.Outcome State Fault Refusal := event s fun m => m.query w 8 [0x14]
def execGetCapabilities (w : Nat) (s : State) : Host.Outcome State Fault Refusal := event s fun m => m.query w 9 []
/-- NEGOTIATE_ALGORITHMS: ML-DSA-87, SHA3-512 and ML-KEM-1024 (R387), by their numbers (log entry 24). -/
def execNegotiateAlgorithms (w : Nat) (s : State) : Host.Outcome State Fault Refusal := event s fun m => m.query w 10 [87, 512, 1024]
def execGetDigests (w : Nat) (s : State) : Host.Outcome State Fault Refusal := event s fun m => m.query w 11 []
def execGetCertificate (w : Nat) (s : State) : Host.Outcome State Fault Refusal := event s fun m => m.query w 12 []
def execChallenge (w : Nat) (s : State) : Host.Outcome State Fault Refusal := event s fun m => m.query w 13 []

/-- The shape report of a world in a partition (Table 22-4). -/
def M.shapeReport (m : M) (w : Nat) : List W64 :=
  match (m.world w).part with
  | none => []
  | some pi =>
    let p := m.part pi
    let head : List W64 :=
      [ BitVec.ofNat 32 p.tiles.length ++ 1#32,
        0#4 ++ p.floor ++ 0#4 ++ m.gen ++ 0#9 ++ BitVec.ofNat 7 pi ++ 0#5 ++ BitVec.ofNat 11 w,
        (m.world w).sec, 0, 0, 0, 0, 0 ]
    head ++ (sortNat p.tiles).flatMap fun t => [0#32 ++ m.name t, m.capRec t]

/-- GET_MEASUREMENTS: block 0xF0 is the shape report, with the requester's nonce and a signature, a free value for each
answer (R388, log entry 24). -/
def execGetMeasurements (w : Nat) (q : MeasReq) (s : State) : Host.Outcome State Fault Refusal :=
  event s fun m =>
    let f := m.freeVal
    if q.block = 0xF0 then
      f.2.query w 14 (m.shapeReport w ++ (List.range 4).map (fun j => q.nonce.extractLsb' (64 * j) 64) ++ [Config.freeWord f.1 0])
    else m.query w 14 []

/-- KEY_EXCHANGE opens a session, one for a world, and states the heartbeat period; while one is open it is answered with an
error (R387). -/
def execKeyExchange (w period : Nat) (s : State) : Host.Outcome State Fault Refusal :=
  event s fun m => if !m.hears w then none
    else
      let wd := m.world w
      if wd.sess.opened then some (m.tdispError w)
      else some ((m.setWorld w { wd with sess := { wd.sess with opened := true, secured := false, period := period } }).answer w 15 [])

/-- FINISH: the session is secured. -/
def execFinish (w : Nat) (s : State) : Host.Outcome State Fault Refusal :=
  event s fun m => if !m.hears w || !(m.world w).sess.opened then none
    else
      let wd := m.world w
      some ((m.setWorld w { wd with sess := { wd.sess with secured := true } }).answer w 16 [])

/-- A message of a secured session. -/
def M.secured (m : M) (w kind : Nat) : Option M := if m.hears w && (m.world w).sess.secured then some (m.answer w kind []) else none

def execHeartbeat (w : Nat) (s : State) : Host.Outcome State Fault Refusal := event s fun m => m.secured w 17
def execKeyUpdate (w : Nat) (s : State) : Host.Outcome State Fault Refusal := event s fun m => m.secured w 18

/-- END_SESSION (R383, R395). -/
def M.endSession (m : M) (w : Nat) : Option M :=
  let wd := m.world w
  if !m.hears w || !wd.sess.opened then none
  else
    let m1 := m.setWorld w { wd with sess := { wd.sess with opened := false, secured := false } }
    some (match wd.st with
      | .run => m1.stopWorld w .heartbeatLost 0
      | .locked => (m1.withdraw w).setWorld w { (m1.withdraw w).world w with st := .unlocked }
      | .unlocked => m1
      | .error => m1)

def execEndSession (w : Nat) (s : State) : Host.Outcome State Fault Refusal := event s fun m => m.endSession w

/-- HEARTBEAT_LOST (R395). -/
def execHeartbeatLost (w : Nat) (s : State) : Host.Outcome State Fault Refusal :=
  event s fun m => if (m.world w).st = .run then some (m.stopWorld w .heartbeatLost 0) else none

/-- VENDOR_DEFINED key installation (R386): data key pair i, or the MAC key, with its value; in CONFIG_LOCKED only. By the
value the lines written under other keys are told apart (R187, R188). -/
def execVendorDefinedKeyInstall (w : Nat) (key : KeyInstall) (s : State) : Host.Outcome State Fault Refusal :=
  event s fun m =>
    let wd := m.world w
    if !m.hears w || !wd.sess.secured || wd.st ≠ .locked then none
    else
      some (m.setWorld w (match key.pair with
        | some i =>
          { wd with
            keys := if wd.keys.contains i.toNat then wd.keys else i.toNat :: wd.keys, gens := put wd.gens i.toNat key.val }
        | none => { wd with mac := true, macGen := key.val }))

/-- IDE_KM: the world's stream comes into the secure state (R383, R387). -/
def execIdeKm (w : Nat) (s : State) : Host.Outcome State Fault Refusal :=
  event s fun m =>
    let wd := m.world w
    if !m.hears w || !wd.sess.secured then none else some (m.setWorld w { wd with sess := { wd.sess with ide := true } })

/-- IDE_INTEGRITY_FAILURE (R387, R394): DETAIL 4. -/
def execIdeIntegrityFailure (w : Nat) (s : State) : Host.Outcome State Fault Refusal :=
  event s fun m => if (m.world w).sess.ide && (m.world w).st = .run then some (m.stopWorld w .machineCheck 4) else none

end Sys2Proof.Machine
end

