-- ==== Sys2Proof/Machine/Quiesce.lean ====
section
/-! DEFINITION. The quiesce of a partition, renewals, and exclusions with the wafer generation (R366 to R370, R389 to
R392). -/

namespace Sys2Proof.Machine

/-! ## The quantum table (R327, R328) -/

def qWorld (e : W64) : Nat := (e.extractLsb' 0 11).toNat
def qEn (e : W64) : Bool := e.getLsbD 15
def qSkipIdle (e : W64) : Bool := e.getLsbD 14
def qSlice (e : W64) : Nat := (e.extractLsb' 32 20).toNat

/-- Cycles of an entry's slice. -/
def Part.cycles (p : Part) (i : Nat) : Nat := 1024 * qSlice (mget 0 p.quantum i)

/-- Cycles of the further slice of a latched world (R328). -/
def Part.further (p : Part) (w : Nat) : Nat :=
  match (List.range 16).find? fun i => qEn (mget 0 p.quantum i) && qWorld (mget 0 p.quantum i) == w with
  | some i => p.cycles i
  | none => 16 * 1024

/-- The slice of a world latched again (R328, R390): its current entry's, or a further slice. -/
def Part.restart (p : Part) (w : Nat) : Nat :=
  match p.cur with
  | some i => if qWorld (mget 0 p.quantum i) = w then p.cycles i else p.further w
  | none => p.further w

/-! ## Into the quiesce and out of it (R390 to R392) -/

/-- Steps 1 and 2 begin: the queues pause and the partition switches to no world. A switch under way ends first. -/
def M.pushQuiesce (m : M) (pi kind : Nat) : M :=
  let p := m.part pi
  if p.quiesce != 0 then m
  else
    let q := { p with quiesce := kind, before := p.latched, yielded := false }
    m.setPart pi (if p.sw.isSome || p.latched.isNone then q else { q with sw := some { dst := none } })

/-- A tile without a world and with every row saved. -/
def Tile.bare (tl : Tile) : Bool := tl.latch.isNone && tl.out.isNone && decide (7 ≤ tl.spill) && tl.phase == .running

/-- An access has performed, or failed, and is acknowledged. -/
def Access.resting (a : Access) : Bool := match a.phase with
  | .done true _ => true
  | _ => false

/-- Steps 1 to 4 are done: nothing latched, every row saved, no copy, message or access under way (R391). -/
def M.atRest (m : M) (pi : Nat) : Bool :=
  let p := m.part pi
  p.quiesce != 0 && p.sw.isNone && p.latched.isNone && (p.tiles.all fun t => (m.tile t).bare)
    && (m.copies.all fun k => !p.worlds.contains k.world) && (m.flights.all fun f => !p.worlds.contains f.world)
    && m.acc.all fun a => !p.worlds.contains a.world || a.resting

/-- A FILLING copy of the ferry is abandoned; the pilot begins it again (R391). -/
def M.abandon (m : M) (k : Copy) : M :=
  let wt := m.wt k.world k.tile
  let c := wt.chain k.ch
  let again (n : NodeSt) : NodeSt := if n.uid = k.node then { n with begun := n.begun.filter fun i => n.descs[i]? != some k.desc } else n
  let wt1 := wt.setSlab k.desc.slab { wt.slab k.desc.slab with st := .empty, deliv := 0, fill := false }
  let wt2 := if c.owner.isSome then wt1.setChain k.ch { c with nodes := c.nodes.map again } else wt1
  let m1 := m.setWT k.world k.tile wt2
  { m1 with copies := m1.copies.filter (·.id != k.id), acc := m1.acc.filter fun a => !(a.group == 0 && a.op == k.id) }

/-- Every FILLING copy that the ferry has for a world on a tile is abandoned. -/
def M.abandonAll (m : M) (w t : Nat) : M :=
  (m.copies.filter fun k => k.world == w && k.tile == t && !k.out && !k.slip).foldl M.abandon m

/-- The routes of a partition's worlds get names with its floor; a route to a tile that left exists no longer
(R370, R390). -/
def M.rename (m : M) (pi : Nat) (mv : Nat → Option Nat) : M :=
  let p := m.part pi
  let fix (r : Route) : Route :=
    if !r.v then r
    else match mv (keyOfName r.dest) with
      | some t => { r with dest := p.floor ++ BitVec.ofNat 13 t ++ 0#7 }
      | none => { r with v := false }
  { m with wts := mapV (fun k wt => if p.worlds.contains (k / 8192) then { wt with routes := mapV (fun _ r => fix r) wt.routes } else wt) m.wts }

/-- TDISP requests that waited for the quiesce (R392). -/
def M.hearWaiting (m : M) (w : Nat) : M :=
  let wd := m.world w
  wd.tdispWait.foldl (fun m k => m.tdisp w k) (m.setWorld w { wd with tdispWait := [] })

/-- Verdicts that the quiesce kept back take effect (R392). -/
def M.resolveWaiting (m : M) (w : Nat) : M :=
  let wd := m.world w
  wd.resWait.foldl (fun m x => m.resolve w x.1 x.2) (m.setWorld w { wd with resWait := [] })

/-- They are heard, but in a quiesce and before the world's quench has ended (R392, Table 22-3). -/
def M.hearIf (m : M) (w : Nat) : M :=
  let wd := m.world w
  if wd.quench || (wd.part.map fun p => (m.part p).quiesce != 0).getD false then m else m.hearWaiting w

/-- The quench of a world ends, and with it a stop under way. A request that waited for it is heard (Table 22-3). -/
def M.worldQuenched (m : M) (w : Nat) : M :=
  let m0 : M := { m with acc := m.acc.filter (·.world != w) }
  let m1 := m0.setWorld w { m0.world w with quench := false }
  (((m1.world w).stopping.map (m1.stopEnds w)).getD m1).hearIf w

/-- QUENCH_COMPLETE: of a tile, or of a world, numbered from 8192, whose sent accesses have performed (R394). -/
def M.quenchEnds (m : M) (t : Nat) : Option M :=
  if 8192 ≤ t then
    if (m.world (t - 8192)).quench && m.acc.all (fun a => a.world != t - 8192 || a.settled) then some (m.worldQuenched (t - 8192)) else none
  else
    let tl := m.tile t
    if tl.quench then some (m.setTile t { tl with quench := false }) else none

def execQuenchComplete (t : Nat) (s : State) : Host.Outcome State Fault Refusal := event s fun m => m.quenchEnds t

/-- Steps 8 and 9: every tile latches the world latched before, unless it has been stopped (R396) or cannot be loaded
(R336). -/
def M.resume (m : M) (pi : Nat) : M :=
  let p := m.part pi
  let m := match p.before.bind fun w => (p.tiles.find? (m.ctxFails w)).map fun t => (w, t) with
    | some (w, t) => m.restoreFails w t
    | none => m
  let w := p.before.filter fun w => !(m.world w).stopped && p.worlds.contains w
  let latch (m : M) (t : Nat) : M :=
    let m1 := m.setTile t { m.tile t with latch := w, phase := .running, spill := 7 }
    match w with
    | some b => m1.setWT b t { (m1.wt b t).addSaved with restored := 10 }
    | none => m1
  let m1 := p.tiles.foldl latch m
  let m2 := m1.setPart pi { p with latched := w, left := (w.map p.restart).getD 0, quiesce := 0, before := none, sw := none }
  p.worlds.foldl (fun m w => (m.resolveWaiting w).hearIf w) m2

/-! ## Renewals (R369) -/

/-- Partitions that n advances would bring to 2,048, but for one. -/
def M.farOff (m : M) (n : Nat) (but : Option Nat) : List Nat :=
  (m.parts.filter fun (i, p) => p.used && some i != but && decide (2048 ≤ (m.gen - p.floor).toNat + n)).map (·.1)

/-- A renewal: the floor is the generation as it stands. A partition at rest for another reason stays there. -/
def M.renew (m : M) (pi : Nat) : M :=
  if !m.atRest pi then m.pushQuiesce pi 2
  else
    let p := m.part pi
    let m1 := (m.setPart pi { p with floor := m.gen }).rename pi some
    if p.quiesce = 2 then m1.resume pi else m1

/-- The renewals that must come before n advances: none are left, or the state after the next part of them; nothing
when they wait. -/
def M.prepare (m : M) (n : Nat) (but : Option Nat) : Option (Bool × M) :=
  let rs := m.farOff n but
  if rs.isEmpty then some (true, m)
  else if rs.any fun i => m.atRest i || (m.part i).quiesce == 0 then some (false, rs.foldl M.renew m)
  else none

/-! ## Exclusions (R366, R367) -/

/-- An exclusion is applied: capability records change and the generation advances; event 4 (R405). -/
def M.exclude (m : M) (e : W64) : M :=
  let m1 := { m with excl := m.excl ++ [e], gen := m.gen + 1, hearth := { m.hearth with pend := m.hearth.pend.filter (· != e) } }
  m1.post [evWord 4 0, e, m1.gen.setWidth 64]

/-- An exclusion that has been logged is applied once its tile is in no partition and the renewals are over. -/
def M.exclusionDue (m : M) (e : W64) : Option M :=
  if !m.hearth.pend.contains e || (m.partOf (exTile e)).isSome then none
  else (m.prepare 1 none).map fun (ready, m1) => if ready then m1.exclude e else m1

/-- EXCLUSION_LOGGED (R363, R366): it enters the retirement log; a full log is reported and nothing is recorded. For an
entry in the log already, what is left to do. -/
def State.logExclusion (s : State) (e : W64) : State :=
  let h := s.m.hearth
  if !s.m.booted then s
  else if s.nv.log.contains e || s.nv.fuse.contains e then { s with m := (s.m.exclusionDue e).getD s.m }
  else if 16384 ≤ s.nv.log.length then { s with m := { s.m with hearth := { h with needService := true } } }
  else
    let m1 : M := { s.m with hearth := { h with pend := h.pend ++ [e] } }
    { m := (m1.exclusionDue e).getD m1, nv := { s.nv with log := s.nv.log ++ [e] } }

def execExclusionLogged (e : W64) (s : State) : Host.Outcome State Fault Refusal := .next (s.logExclusion e)

end Sys2Proof.Machine
end

