-- ==== Sys2Proof/Machine/Slice.lean ====
section
/-! DEFINITION. Cycle charges, slices, the switch and debug (R164 to R171, R327 to R341). -/

namespace Sys2Proof.Machine

/-! ## Cycle charges (R164, R166 to R171) -/

/-- Codes of Table 9-7. -/
def Cause.num : Cause → Nat
  | .issue => 0 | .dualConflict => 1 | .window => 2 | .bank => 3 | .fetch => 4 | .slab => 5 | .sema => 6 | .fence => 7
  | .barrier => 8 | .meeting => 9 | .engine => 10 | .grow => 11 | .switch => 12 | .trap => 13 | .empty => 14 | .stopped => 15

/-- Charge one slot of an issue set (R167, R169). -/
def WT.charge (wt : WT) (s : Nat) (c : Cause) (pc : Va) : WT :=
  { wt with acct := (wt.rangesOf pc).foldl (fun a r => bump a (0x200 + 16 * r + c.num) 1) (bump wt.acct (0x100 + 16 * s + c.num) 1) }

/-- PC of a group of a list, or 0. -/
def pcAt (q : List (Nat × Group)) (i : Nat) : Va := ((q[i]?).map fun x => x.2.pc).getD 0

/-- The groups of Q that have not issued in this cycle; one formed after the picks is not of it (R164, R167). -/
def Tile.unissued (tl : Tile) (s : Nat) (q : List (Nat × Group)) : List (Nat × Group) :=
  q.filter fun x => !((tl.done s).any fun r => r.slot == x.1) && (x.2.wait != .none || tl.tried.contains x.1)

/-- The two charges of an issue set that issues (R167). -/
def slotCharges (tl : Tile) (s : Nat) (q : List (Nat × Group)) : List (Cause × Va) :=
  let idle := tl.unissued s q
  let lost := idle.find? fun x => tl.lost.contains x.1
  let of (x : Option (Nat × Group)) : Cause × Va := match x with
    | some (_, g) => ((g.cause).getD .trap, g.pc)
    | none => (.empty, 0)
  match tl.done s with
  | a :: b :: _ => [(.issue, a.pc), (.issue, b.pc)]
  | [a] => match lost with
    | some (_, g) => [(.issue, a.pc), (.dualConflict, g.pc)]
    | none => [(.issue, a.pc), of idle[0]?]
  | [] => [of idle[0]?, of idle[1]?]

/-- What a group that left its slot in the cycle is charged: it delivered a fault record, it arrived, or its launch ended
(R167, log entry 80). -/
def Group.leftCause (g : Group) : Cause :=
  if g.gone.any (·.2 == .parked) then .trap else if g.gone.any (·.2 == .arrived) then .meeting else (g.cause).getD .trap

/-- Q as the cycle began: a group that left its slot without having issued stands in it (R164, R167). -/
def Tile.withLeft (tl : Tile) (s : Nat) (q : List (Nat × Group)) : List (Nat × Group) :=
  (tl.left.filter fun x => issueSet x.1 == s).foldl (fun acc x => insAge (x.1, { x.2 with wait := .pend x.2.leftCause, bank := none }) acc)
    (q.filter fun x => !(tl.left.any fun y => y.1 == x.1))

/-- The charges of an issue set in this cycle, by the tile's phase and its debug state: a slot that issued is charged
ISSUE whatever began in the cycle; a stopped set of a draining tile SWITCH (R167, R338, R340, log entry 73). -/
def M.setCharges (_m : M) (tl : Tile) (wt : WT) (s : Nat) : List (Cause × Va) :=
  let q := tl.withLeft s (wt.q s)
  let ran : List (Cause × Va) := (tl.done s).map fun (r : IssuedRec) => (.issue, r.pc)
  let rest (cs : List (Cause × Va)) : List (Cause × Va) := (ran ++ cs.drop ran.length).take 2
  if tl.phase != .running then rest [(.switch, pcAt q 0), (.switch, pcAt q 1)]
  else if wt.dbg.stepping.isSome || wt.dbg.still.getLsbD s then rest [(.stopped, pcAt q 0), (.stopped, pcAt q 0)]
  else slotCharges tl s q

/-- One cycle passes for a group: its age, and the bank reads it collects (R164, R166); why it would not issue is kept while
its issue set is stopped (R339). -/
def Group.tick (g : Group) (ages : Bool) : Group :=
  { g with age := if ages then g.age + 1 else g.age, bank := g.bank.map (· - 1), why := if ages then none else g.why }

/-- The requests of the cycle that ends are older from now on (R253). -/
def Sem.aged (s : Sem) : Sem :=
  { s with queue := s.queue.map fun r => match r with
      | .sacq slot op g _ => .sacq slot op g false
      | .join ch n _ => .join ch n false }

def WT.semsAged (wt : WT) : WT := { wt with sems := mapV (fun _ s => s.aged) wt.sems }

/-- A step ends with a reason; the issue sets stop (R340). -/
def Dbg.ends (d : Dbg) (why : Nat) : Dbg := { d with stepping := none, stepend := why, stop := 0xF, brk := 0, idle := 0 }

/-- Tiles on which a world steps a team (R340). -/
def M.stepTiles (m : M) (w : Nat) (team : W32) : List Nat :=
  (m.wts.filter fun (k, wt) => k / 8192 == w && wt.dbg.stepping == some team).map (·.1 % 8192)

/-- The team of an index that a world steps on a tile. -/
def M.stepTeam (m : M) (w t : Nat) (team : W32) : Option Team :=
  (m.teams.find? fun (_, tm) => tm.world == w && tm.tile == t && BitVec.ofNat 32 tm.index == team && !tm.ended).map (·.2)

/-- The event that ends a step: 1 a phase of the team's barriers is complete, 3 the team has ended, 2 no group of it has
issued for 65,536 cycles (R340). -/
def M.stepEvent (m : M) (w : Nat) (team : W32) : Option Nat :=
  let ts := m.stepTiles w team
  if ts.isEmpty then none
  else if ts.any fun t => (m.stepTeam w t team).any fun tm => tm.phases != (m.wt w t).dbg.base then some 1
  else if ts.any fun t => (m.stepTeam w t team).isNone then some 3
  else if ts.all fun t => decide (65536 ≤ (m.wt w t).dbg.idle) then some 2
  else none

/-- A step ends on every tile that makes it (R340). -/
def M.stepOver (m : M) (w : Nat) (team : W32) (why : Nat) : M :=
  (m.stepTiles w team).foldl (fun m t => m.setWT w t { m.wt w t with dbg := (m.wt w t).dbg.ends why }) m

/-- With the end of a cycle a step ends whose event has come (R340). -/
def M.stepCheck (m : M) (w : Nat) : M :=
  ((m.wts.filterMap fun (k, wt) => if k / 8192 = w then wt.dbg.stepping else none).eraseDups).foldl
    (fun m team => (m.stepEvent w team).elim m (m.stepOver w team)) m

/-- A cycle passes for a latched world on a tile: ages, bin timers, requests, what the cycle wrote (R116, R164, R253,
R353). -/
def M.wtTick (m : M) (w t : Nat) : M :=
  let wt := (m.wt w t).semsAged
  let go (slot : Nat) (g : Group) : Group := g.tick (!m.isStopped w t slot g)
  let idle := if wt.dbg.stepping.isNone then wt.dbg.idle else if (m.tile t).issued.isEmpty && (m.tile t).past.isEmpty then wt.dbg.idle + 1 else 0
  (m.setWT w t { wt with groups := mapV go wt.groups
                         bins := mapV (fun _ b => { b with timer := b.timer - 1 }) wt.bins
                         dbg := { wt.dbg with idle := idle } }).settleSr w t |>.stepCheck w

/-- The slice controller's tile of a partition (R328). -/
def Part.ctl (p : Part) : Nat := p.tiles.foldl min 8192

/-- The slice runs on the controller's tile: no switch is under way, or the tile has swapped already (R328, R331). -/
def Part.sliceRuns (p : Part) (w : Nat) : Bool := match p.sw with
  | none => p.latched == some w
  | some s => s.swapping && s.dst == some w

/-- A cycle of the slice controller: the slice runs, stall intervals count (R163, R328). -/
def M.ctlTick (m : M) (t w : Nat) : M :=
  match m.partOf t with
  | none => m
  | some pi =>
    let p := m.part pi
    if p.ctl ≠ t || !p.sliceRuns w then m
    else
      let count (i : Nat) (l : Launch) : Launch :=
        if l.world = w && l.part = pi then { l with stall := if m.stalled i l then l.stall + 1 else 0 } else l
      (if p.sw.isSome then m else { m with launches := mapV count m.launches }).setPart pi { p with left := p.left - 1 }

/-- CYCLE_CHARGE: a cycle of a tile ends (R164 to R170). A frozen tile has no cycles (R342), nor one whose field is not in
F0 (Table 27-1); none ends while a pick is still to be made (R164). -/
def M.cycleEnds (m : M) (t : Nat) : Option M :=
  let tl := m.tile t
  let frozen := match m.partOf t with
    | some p => m.hearth.frozen.contains p
    | none => false
  if !tileOk t || 8192 ≤ t || frozen || tl.phase == .swapping || (m.field (fieldOf t)).pst != 0 || (m.pickOn t).isSome then none
  else
    let next : Tile := { tl with cycle := tl.cycle + 1, issued := [], left := [], past := [], later := [], lost := [], tried := [], served := false }
    match tl.latch with
    | none => some (m.setTile t { next with idle := next.idle + 1, idleSlots := next.idleSlots + 8 })
    | some w =>
      let wt := m.wt w t
      let wt1 := [0, 1, 2, 3].foldl (fun (x : WT) s => (m.setCharges tl wt s).foldl (fun x (c, pc) => x.charge s c pc) x) wt
      let m1 := (m.setWT w t { wt1 with acct := bump wt1.acct 0 1 }).wtTick w t
      some ((m1.setTile t next).ctlTick t w)

def execCycleCharge (t : Nat) (s : State) : Host.Outcome State Fault Refusal := event s fun m => m.cycleEnds t

/-! ## Slices (R328) -/

/-- The world has a launch held in a queue (Table 18-1). -/
def M.hasLaunch (m : M) (w : Nat) : Bool := [0, 1, 2, 3].any fun j => (m.wq (4 * w + j)).pend != 0

/-- An entry takes part and is not skipped; a stopped world's is (R328, R394). -/
def M.eligible (m : M) (p : Part) (i : Nat) : Bool :=
  let e := mget 0 p.quantum i
  qEn e && p.worlds.contains (qWorld e) && !p.skip.contains (qWorld e) && (!qSkipIdle e || m.hasLaunch (qWorld e))

/-- The next entry after the current one, wrapping. -/
def M.nextEntry (m : M) (p : Part) : Option Nat :=
  let c := p.cur.getD 15
  ((List.range 16).map fun j => (c + 1 + j) % 16).find? (m.eligible p)

/-- SLICE_END (R328, R351). A YIELD whose next entry names the latched world is discarded, and the slice runs on. -/
def M.sliceEnds (m : M) (pi : Nat) (yielded : Bool) : Option M :=
  let p := m.part pi
  match p.latched with
  | none => none
  | some w =>
    if p.sw.isSome || p.quiesce != 0 || !(if yielded then p.yielded else p.left == 0) then none
    else
      match m.nextEntry p with
      | none => some (m.setPart pi { p with left := p.further w, yielded := false })
      | some i =>
        let v := qWorld (mget 0 p.quantum i)
        let q := { p with cur := some i, left := p.cycles i, yielded := false }
        some (m.setPart pi (if v ≠ w then { q with sw := some { dst := some v } } else if yielded then { p with yielded := false } else q))

def execSliceEnd (p : Nat) (y : Bool) (s : State) : Host.Outcome State Fault Refusal := event s fun m => m.sliceEnds p y

/-- FIRST_SWITCH (R328): the lowest entry that qualifies; no tile and no world still in a quench (R393). -/
def M.firstSwitch (m : M) (pi : Nat) : Option M :=
  let p := m.part pi
  if !p.used || p.latched.isSome || p.sw.isSome || p.quiesce != 0 || m.hearth.frozen.contains pi
      || p.tiles.any (fun t => (m.tile t).quench) then none
  else
    ((List.range 16).find? (m.eligible p)).bind fun i =>
      let v := qWorld (mget 0 p.quantum i)
      if (m.world v).quench then none
      else some (m.setPart pi { p with cur := some i, left := p.cycles i, yielded := false, sw := some { dst := some v } })

def execFirstSwitch (p : Nat) (s : State) : Host.Outcome State Fault Refusal := event s fun m => m.firstSwitch p

/-! ## The switch (R330 to R333) -/

/-- The switch under way on a tile's partition. -/
def M.switchOf (m : M) (t : Nat) : Option (Nat × Switch) :=
  (m.partOf t).bind fun p => (m.part p).sw.map fun s => (p, s)

/-- STOP_ORDER (R331). -/
def M.stopOrder (m : M) (t : Nat) : Option M :=
  (m.switchOf t).bind fun (_, s) =>
    if s.swapping || (m.tile t).phase != .running then none else some (m.setTile t { m.tile t with phase := .draining })

def execStopOrder (t : Nat) (s : State) : Host.Outcome State Fault Refusal := event s fun m => m.stopOrder t

/-- A cluster-window access that a tile has sent to another has not performed. -/
def M.windowOpen (m : M) (t : Nat) : Bool :=
  m.acc.any fun a => a.tile == t && match a.phase with
    | .scr x => x != t
    | _ => false

/-- TILE_QUIET (R331): the anvil has drained, nothing the tile sent is unacknowledged, the preload is complete. -/
def M.tileQuiet (m : M) (t : Nat) : Option M :=
  (m.switchOf t).bind fun (_, s) =>
    let tl := m.tile t
    let idle := match tl.latch with
      | some w => (m.wt w t).anvil.isEmpty
      | none => true
    if tl.phase != .draining || !idle || m.flights.any (fun f => f.src == t) || m.windowOpen t || tl.out.isSome || tl.spill < 7
        || (s.dst.isSome && tl.shadow != s.dst) then none
    else some (m.setTile t { tl with phase := .quiet })

def execTileQuiet (t : Nat) (s : State) : Host.Outcome State Fault Refusal := event s fun m => m.tileQuiet t

/-- A save of a world's context begins: its switch count rises (R336). -/
def M.countSwitch (m : M) (w : Option Nat) : M := w.elim m fun a => m.setWorld a { m.world a with switches := (m.world a).switches + 1 }

/-- SWAP_ORDER (R331): every tile of the partition is quiet. -/
def M.swapOrder (m : M) (pi : Nat) : Option M :=
  let p := m.part pi
  p.sw.bind fun s =>
    if s.swapping || !(p.tiles.all fun t => (m.tile t).phase == .quiet) then none
    else
      let m1 := p.tiles.foldl (fun m t => m.setTile t { m.tile t with phase := .swapping }) (m.countSwitch p.latched)
      some (m1.setPart pi { p with sw := some { s with swapping := true } })

def execSwapOrder (p : Nat) (s : State) : Host.Outcome State Fault Refusal := event s fun m => m.swapOrder p

/-- Every reservation of a world's threads on a tile is lost (R206). -/
def WT.loseAll (wt : WT) : WT :=
  { wt with groups := mapV (fun _ g => { g with lanes := mapV (fun _ th => { th with resv := none }) g.lanes }) wt.groups }

/-- A step begins on a tile: the team's phases are counted from here. -/
def M.beginStep (m : M) (w t : Nat) (team : W32) : M :=
  let wt := m.wt w t
  let b := ((m.stepTeam w t team).map Team.phases).getD 0
  m.setWT w t { wt with dbg := { wt.dbg with stepping := some team, held := none, idle := 0, base := b, brk := 0 } }

/-- The 40 cycles of the swap: they are the incoming world's and count in its slice, or no world's (R167, R170, R328,
R359). -/
def M.swapCycles (m : M) (t : Nat) (dst : Option Nat) : M :=
  match dst with
  | none =>
    let tl := m.tile t
    m.setTile t { tl with cycle := tl.cycle + 40, idle := tl.idle + 40, idleSlots := tl.idleSlots + 320 }
  | some b =>
    (List.range 40).foldl (fun m _ =>
      let wt := m.wt b t
      let wt1 := [0, 1, 2, 3].foldl (fun (x : WT) s => (x.charge s .switch 0).charge s .switch 0) wt
      let m1 := (m.setWT b t { wt1 with acct := bump wt1.acct 0 1 }).wtTick b t
      (m1.setTile t { m1.tile t with cycle := (m1.tile t).cycle + 1 }).ctlTick t b) m

/-- TILE_SWAP (R331, R396). The switch is over when the last tile has swapped; a quiesce that waited for it goes on. -/
def M.tileSwap (m : M) (t : Nat) : Option M :=
  (m.switchOf t).bind fun (pi, s) =>
    let tl := m.tile t
    if tl.phase != .swapping then none
    else
      let p := m.part pi
      let dst := s.dst.filter fun w => !(m.world w).stopped && p.worlds.contains w
      let leave (m : M) : M := match tl.latch with
        | none => m
        | some a =>
          let m := m.settleSr a t
          let wt := (m.wt a t).loseAll.semsAged
          m.setWT a t (if wt.dbg.stepping.isSome then { wt with dbg := wt.dbg.ends 2 } else wt)
      let come (m : M) : M := match dst with
        | none => m
        | some b => m.setWT b t { (m.wt b t).loseAll.leaveLive with restored := 0 }
      let m1 := come (leave m)
      let m2 := m1.setTile t { tl with latch := dst, shadow := none, out := tl.latch, l1 := [], phase := .running,
                                          issued := [], left := [], past := [], later := [], lost := [], tried := [],
                                       served := false
                                       spill := if tl.latch.isSome || dst.isSome then 0 else 7 }
      let m3 := m2.swapCycles t dst
      let m4 := match dst with
        | some b => match (m3.wt b t).dbg.held with
          | some team => m3.beginStep b t team
          | none => m3
        | none => m3
      let on := p.quiesce != 0 && dst.isSome
      let q : Part := { p with latched := dst, sw := if on then some { dst := none } else none, yielded := false, before := if on then dst else p.before }
      some (if p.tiles.any fun x => (m4.tile x).phase == .swapping then m4 else m4.setPart pi q)

def execTileSwap (t : Nat) (s : State) : Host.Outcome State Fault Refusal := event s fun m => m.tileSwap t

/-- The condition under which a row of the outgoing world is saved (Table 18-2). -/
def M.maySave (m : M) (a t row : Nat) : Bool :=
  let wt := m.wt a t
  let still := wt.groups.all fun (_, g) => m.drained g
  let quiesce := ((m.partOf t).map fun p => (m.part p).quiesce != 0).getD false
  if row = 1 then (m.copies.all fun k => k.world != a || k.tile != t || k.slip || (quiesce && !k.out)) && wt.pilotq.isEmpty
  else if row = 4 then !(m.acc.any fun x => x.phase == .scr t && x.world == a)
  else if row = 5 then still && (wt.groups.all fun (_, g) => g.late.isEmpty) && wt.stackd.isEmpty
  else if row = 6 then still
  else true

/-- A row of the outgoing world is saved. Before row 1, a quiesce abandons the copies the ferry fills (R391). -/
def M.saveRow (m : M) (a t row : Nat) : M :=
  let m1 := if row = 1 && ((m.partOf t).map fun p => (m.part p).quiesce != 0).getD false then m.abandonAll a t else m
  let m2 := m1.ctxWrite a t row
  if row = 7 then m2.setWT a t { m2.wt a t with ctx := true } else m2

/-- SPILL_RESOURCE (R332, R336): the next row. -/
def M.spillRow (m : M) (t row : Nat) : Option M :=
  let tl := m.tile t
  if row ≠ tl.spill + 1 || 7 < row || !((tl.out.map fun a => m.maySave a t row && !m.ctxWaits a t row).getD true) then none
  else
    let m1 := m.setTile t { tl with spill := row, out := if row = 7 then none else tl.out }
    let m2 := match tl.out with
      | some a => m1.saveRow a t row
      | none => m1
    match tl.latch with
    | none => some m2
    | some b =>
      if row ≠ 6 && m2.ctxBad b t row then some (m2.restoreFails b t) else
      let wb := m2.wt b t
      let m3 := m2.setWT b t (if row = 7 then { wb.addSaved with restored := 10 } else { wb with restored := row })
      some (if row = 1 then m3.growDeadlock b t else m3)

def execSpillResource (t row : Nat) (s : State) : Host.Outcome State Fault Refusal := event s fun m => m.spillRow t row

/-- The world that is preloaded next: the switch's, or the next of the table (R330). -/
def M.preloadOf (m : M) (t : Nat) : Option Nat :=
  (m.partOf t).bind fun pi =>
    let p := m.part pi
    match p.sw with
    | some s => s.dst
    | none => ((m.nextEntry p).map fun i => qWorld (mget 0 p.quantum i)).filter fun w => some w != p.latched

/-- SHADOW_PRELOAD (R330, R332): once the bank is free; a bank image that fails its tag is not loaded (R336). -/
def M.preload (m : M) (t : Nat) : Option M :=
  let tl := m.tile t
  match m.preloadOf t with
  | none => none
  | some w => if tl.shadow = some w || (tl.out.isSome && tl.spill < 6) || tl.phase == .swapping then none
              else if m.ctxBad w t 6 then some (m.restoreFails w t)
              else some (m.setTile t { tl with shadow := some w })

def execShadowPreload (t : Nat) (s : State) : Host.Outcome State Fault Refusal := event s fun m => m.preload t

/-! ## Debug (R337 to R341) -/

/-- The tile at a position of a world's shape report (R388). -/
def M.tileAt (m : M) (w i : Nat) : Option Nat := ((m.world w).part.bind fun p => (sortNat (m.part p).tiles)[i]?)

/-- The tile that a world's debug window acts on (Table 18-5). -/
def M.dbgTile (m : M) (w : Nat) : Option Nat := m.tileAt w ((m.world w).dbgsel.extractLsb' 0 13).toNat

/-- Change the debug state that a window acts on. -/
def M.updDbg (m : M) (w : Nat) (f : Dbg → Dbg) : Option M :=
  (m.dbgTile w).map fun t =>
    let wt := m.wt w t
    m.setWT w t { wt with dbg := f wt.dbg }

/-- STOP bits are written: a set stops now, and one that is let go runs from the next cycle of its latched world on
(R338). -/
def Dbg.setStop (d : Dbg) (latched : Bool) (bits : BitVec 4) : Dbg :=
  { d with stop := bits, lift := if latched then d.lift ||| (d.stop &&& ~~~bits) else d.lift }

/-- A write of STOP bits and what else it changes, on the tile that a window acts on. -/
def M.stopSets (m : M) (w : Nat) (bits : BitVec 4) (f : Dbg → Dbg) : Option M :=
  (m.dbgTile w).bind fun t => m.updDbg w fun d => f (d.setStop ((m.tile t).latch == some w) bits)

/-- DEBUG_STOP (R338): the STOP bits of DBGCTL. -/
def execDebugStop (w : Nat) (bits : BitVec 4) (s : State) : Host.Outcome State Fault Refusal :=
  event s fun m => m.stopSets w bits id

/-- DEBUG_LCEN (R341). -/
def execDebugLcen (w : Nat) (on : Bool) (s : State) : Host.Outcome State Fault Refusal :=
  event s fun m => m.updDbg w fun d => { d with lcen := on }

/-- DEBUG_STEP (R340). -/
def M.debugStep (m : M) (w : Nat) (team : W32) : Option M :=
  let ts := ((m.teams.filter fun (_, tm) => tm.world == w && BitVec.ofNat 32 tm.index == team && !tm.ended).map fun x => x.2.tile).eraseDups
  if ts.isEmpty || ts.any (fun t => (m.wt w t).dbg.stop != 0xF || (m.wt w t).dbg.stepping.isSome) then none
  else
    some (ts.foldl (fun m t =>
      if (m.tile t).latch = some w then m.beginStep w t team
      else m.setWT w t { m.wt w t with dbg := { (m.wt w t).dbg with held := some team } }) m)

def execDebugStep (w : Nat) (team : W32) (s : State) : Host.Outcome State Fault Refusal := event s fun m => m.debugStep w team

/-- A step ends by an event of some reasons, once the picks of the event's cycle are made (R340). -/
def M.stepEndsBy (m : M) (t : Nat) (whys : List Nat) : Option M :=
  (m.tile t).latch.bind fun w => (m.wt w t).dbg.stepping.bind fun team =>
    ((m.stepEvent w team).filter fun why => whys.contains why && (m.pickOn t).isNone).map fun why => m.stepOver w team why

/-- STEP_END (R340): a phase of the team's barriers is complete, or the team has ended. -/
def M.stepEnds (m : M) (t : Nat) : Option M := m.stepEndsBy t [1, 3]

def execStepEnd (t : Nat) (s : State) : Host.Outcome State Fault Refusal := event s fun m => m.stepEnds t

/-- STEP_IDLE_TIMEOUT (R340). -/
def execStepIdleTimeout (t : Nat) (s : State) : Host.Outcome State Fault Refusal :=
  event s fun m => m.stepEndsBy t [2]

/-- Pending-write entries of a group (Table 18-10). -/
def Group.pendingWrites (g : Group) : List (List W64) :=
  (g.wins.filter fun w => g.pending w.op).flatMap fun w =>
    let p := g.ops.find? (·.id == w.op)
    let pc : Va := (p.map (·.pc)).getD 0
    let ls : W32 := laneMask ((p.map (·.lanes)).getD [])
    let entry (kind n first : Nat) : List W64 := [BitVec.ofNat 8 kind ++ pc, 0#16 ++ ls ++ BitVec.ofNat 8 n ++ BitVec.ofNat 8 first]
    (w.obj.vec.map fun (r, n) => entry 0 n r) ++ (w.obj.uni.map fun k => entry 1 1 k) ++ (w.obj.acc.map fun a => entry 3 1 a)
      ++ w.obj.sem.map fun i => entry 4 1 i

/-- A group entry (Table 18-9) with its pending-write entries. A stopped group shows the cause that its last evaluation
found. -/
def M.groupDump (m : M) (slot : Nat) (g : Group) : List W64 :=
  let ps := g.pendingWrites
  let team := ((look m.teams g.team).map (·.index)).getD 0
  [ BitVec.ofNat 8 slot ++ g.pc,
    BitVec.ofNat 16 ps.length ++ BitVec.ofNat 4 (((g.why.or g.cause).map Cause.num).getD 0) ++ 0#3 ++ BitVec.ofNat 9 g.allot
      ++ laneMask (g.lanes.map (·.1)),
    BitVec.ofNat 32 team ++ BitVec.ofNat 32 g.age,
    0 ] ++ ps.flatten

/-- The dump of a world's stopped issue sets on a tile (R339). -/
def M.dumpWords (m : M) (w t : Nat) : List W64 :=
  let wt := m.wt w t
  let head : List W64 := [0#28 ++ wt.dbg.stop ++ m.name t, mget 0 wt.acct 0, 0, 0, 0, 0, 0, 0]
  head ++ ([0, 1, 2, 3].filter fun s => wt.dbg.stop.getLsbD s).flatMap fun s =>
    (wt.groups.filter fun (slot, _) => issueSet slot == s).flatMap fun (slot, g) => m.groupDump slot g

/-- DEBUG_DUMP (R339). -/
def M.debugDump (m : M) (w : Nat) : Option M :=
  (m.dbgTile w).bind fun t =>
    let wt := m.wt w t
    if wt.dbg.dumpBusy then none
    else
      let d : Dump := { world := w, tile := t, buf := ((m.world w).dbgbuf.extractLsb' 6 50).toNat * 64,
                        data := (m.dumpWords w t).flatMap fun x => natBytes 8 x.toNat }
      some { m.setWT w t { wt with dbg := { wt.dbg with dumpBusy := true, dumpErr := false } } with dumps := m.dumps ++ [d] }

def execDebugDump (w : Nat) (s : State) : Host.Outcome State Fault Refusal := event s fun m => m.debugDump w

/-- Store a dump, 64 bytes at a time: what was stored, and whether a store faulted. -/
def M.storeDump (m : M) (w : Nat) : Nat → Nat → List Byte → Bool × M
  | 0, _, _ => (false, m)
  | n + 1, va, bs =>
    if bs.isEmpty then (false, m)
    else
      match m.deviceStore w va (bs.take 64) with
      | none => (true, m)
      | some m1 => m1.storeDump w n (va + 64) (bs.drop 64)

/-- A write of DBGCTL, whole on one cycle: STOP and LCEN, then a step, then a dump (Table 18-6, log entry 78). -/
def M.dbgctl (m : M) (w : Nat) (v : W64) : Option M :=
  (m.stopSets w (v.extractLsb' 0 4) fun d => { d with lcen := v.getLsbD 5, team := v.extractLsb' 8 32 }).map fun m1 =>
    let m2 := if v.getLsbD 4 then (m1.debugStep w (v.extractLsb' 8 32)).getD m1 else m1
    if v.getLsbD 6 then (m2.debugDump w).getD m2 else m2

/-- DUMP_COMPLETE (R339). -/
def M.dumpDone (m : M) (w : Nat) : Option M :=
  (m.dumps.find? (·.world == w)).map fun d =>
    let r := m.storeDump w (d.data.length / 64 + 1) d.buf d.data
    let wt := r.2.wt w d.tile
    { r.2.setWT w d.tile { wt with dbg := { wt.dbg with dumpBusy := false, dumpErr := r.1 } } with
      dumps := m.dumps.filter (· != d) }

def execDumpComplete (w : Nat) (s : State) : Host.Outcome State Fault Refusal := event s fun m => m.dumpDone w

end Sys2Proof.Machine
end

