-- ==== Sys2Proof/Machine/Window.lean ====
section
/-! DEFINITION. Writes of the host to the registers of its functions (R7, R154, R337, R349, R350, R376, R382, R385, R400,
R402, R403, R411, R442). -/

namespace Sys2Proof.Machine

/-- A bit field kept of a written value. -/
def keep (v : W64) (lo n : Nat) : W64 := ((v >>> lo) &&& (BitVec.ofNat 64 (2 ^ n - 1))) <<< lo

/-- TQBASE_WRITE (R350, R446). -/
def M.tqbase (m : M) (w : Nat) (v : W64) : Option M :=
  let wd := m.world w
  let base := (v.extractLsb' 16 40).toNat * 65536
  if !m.hears w || wd.occ ≠ 0 || (v.getLsbD 0 && !(devOk base 65536 && m.owns w base)) then none
  else some (m.setWorld w { wd with tqbase := keep v 16 40 ||| keep v 0 1, tqhead := 0, tqtail := 0 })

def execTqbaseWrite (w : Nat) (v : W64) (s : State) : Host.Outcome State Fault Refusal := event s fun m => m.tqbase w v

/-- TQHEAD_WRITE (R349). -/
def execTqheadWrite (w : Nat) (v : W64) (s : State) : Host.Outcome State Fault Refusal :=
  event s fun m => if m.hears w then some (m.setWorld w ((m.world w).moveHead v)) else none

/-- The verdict of a number (Table 19-4). -/
def verdictOf (n : Nat) : Option Verdict := if n = 0 then some .resume else if n = 1 then some .kill else if n = 2 then some .fatal else none

/-- RESOLVE_WRITE (R347, R350). In a quiesce it takes effect afterwards (R392). -/
def M.resolveW (m : M) (w : Nat) (v : W64) : Option M :=
  let wd := m.world w
  let tok := (v.extractLsb' 32 32).toNat
  if !m.hears w then none
  else (verdictOf (v.extractLsb' 0 2).toNat).map fun d =>
    if (wd.part.map fun p => (m.part p).quiesce != 0).getD false then m.setWorld w { wd with resWait := wd.resWait ++ [(tok, d)] }
    else m.resolve w tok d

def execResolveWrite (w : Nat) (v : W64) (s : State) : Host.Outcome State Fault Refusal := event s fun m => m.resolveW w v

/-- A static route entry (Table 21-5). -/
def parseRoute (v : W64) : Route := { v := v.getLsbD 39, dest := v.extractLsb' 0 32, droute := v.extractLsb' 33 6 }

/-- ROUTE_WRITE (R376, R402). -/
def M.routeW (m : M) (w r : Nat) (v : W64) : Option M :=
  if !m.hears w || 64 ≤ r then none
  else
    let wd := m.world w
    let good := (wd.st == .locked || wd.st == .run) && v.extractLsb' 40 24 == 0#24 && !v.getLsbD 32 && m.current (m.worldPart w) (v.extractLsb' 0 32)
    match m.tileAt w (wd.rtsel.extractLsb' 0 13).toNat with
    | some t =>
      if good then some (m.setWT w t { m.wt w t with routes := put (m.wt w t).routes r (parseRoute v) })
      else some (m.setWorld w { wd with rtrej := wd.rtrej + 1 })
    | none => some (m.setWorld w { wd with rtrej := wd.rtrej + 1 })

def execRouteWrite (w r : Nat) (v : W64) (s : State) : Host.Outcome State Fault Refusal := event s fun m => m.routeW w r v

/-- MODID_WRITE (R403): once. -/
def execModidWrite (v : W64) (s : State) : Host.Outcome State Fault Refusal :=
  event s fun m => if !m.responds || m.hearth.modid.isSome then none
    else some { m with hearth := { m.hearth with modid := some (v.extractLsb' 0 6) } }

/-- PEER_WRITE (R403): world DSEL of the port, in CONFIG_UNLOCKED. -/
def M.peerW (m : M) (p k : Nat) (v : W64) : Option M :=
  let w := (m.port p).dsel.toNat
  let wd := m.world w
  if !m.responds || 16 ≤ p || 64 ≤ k || wd.st ≠ .unlocked then none
  else some (m.setWorld w { wd with peers := put wd.peers k (keep v 63 1 ||| keep v 32 11) })

def execPeerWrite (p k : Nat) (v : W64) (s : State) : Host.Outcome State Fault Refusal := event s fun m => m.peerW p k v

/-- What the translation caches hold of a world is dropped on every tile (R385). -/
def M.dropLeaves (m : M) (w : Nat) : M :=
  { m with tiles := mapV (fun _ tl => { tl with tlb := tl.tlb.filter fun (k, _) => k / 2 ^ 42 != w }) m.tiles }

/-- The stores that the deterministic launches of a world have staged and not released (R127). -/
def M.stagedOf (m : M) (w : Nat) : List Staged :=
  ((m.teams.filter fun (_, tm) => tm.world == w).flatMap fun (_, tm) => tm.staged)
    ++ (m.launches.filter fun (_, l) => l.world == w).flatMap fun (_, l) => l.staged.flatMap (·.2)

/-- TRANSLATION_INVALIDATION (R385): what starts from now on reads the tables anew; it waits for the accesses, walks and
copies under way, and for the stores staged under the translations before it (R127). -/
def M.invalidate (m : M) (w : Nat) (v : W64) : Option M :=
  let wd := m.world w
  if !m.hears w || !v.getLsbD 0 || wd.inv then none
  else
    let m := m.dropLeaves w
    let ids := ((m.acc.filter fun a => a.world == w).map (·.id)) ++ (m.walks.filter fun k => k.world == w).map (·.id)
      ++ (m.copies.filter fun k => k.world == w).map (·.id) ++ (m.stagedOf w).map (·.id)
    some (m.setWorld w { wd with inv := true, invWait := ids })

def execTranslationInvalidation (w : Nat) (v : W64) (s : State) : Host.Outcome State Fault Refusal := event s fun m => m.invalidate w v

/-- INVALIDATION_COMPLETE (R385). -/
def M.invalidated (m : M) (w : Nat) : Option M :=
  let wd := m.world w
  let open' := (m.acc.any fun a => wd.invWait.contains a.id && a.phase != .done true 0) || m.walks.any (fun k => wd.invWait.contains k.id)
    || m.copies.any (fun k => wd.invWait.contains k.id) || (m.stagedOf w).any fun st => wd.invWait.contains st.id
  if !wd.inv || open' then none
  else
    some ((m.dropLeaves w).setWorld w { wd with inv := false, invWait := [] })

def execInvalidationComplete (w : Nat) (s : State) : Host.Outcome State Fault Refusal := event s fun m => m.invalidated w

/-- A register of a world's configuration window: in CONFIG_UNLOCKED only (R382). -/
def M.config (m : M) (w : Nat) (f : World → World) : Option M :=
  if (m.world w).st = .unlocked then some (m.setWorld w (f (m.world w))) else none

/-- A doubleword of the MSI-X table; a vector that is unmasked while pending is raised (R400, log entry 23). -/
def M.msixW (m : M) (w i : Nat) (v : W64) : Option M :=
  if 128 ≤ i then none
  else
    let wd := m.world w
    let wd1 := { wd with msix := put wd.msix i v }
    if i % 2 = 1 && !v.getLsbD 32 && wd.msixPend.contains (i / 2) then
      some ((m.setWorld w { wd1 with msixPend := wd.msixPend.filter (· != i / 2) }).raise w (i / 2))
    else some (m.setWorld w wd1)

/-- A debug window is reached: by its world, and by the physical function while DBGEN is 1 (R337). -/
def M.dbgOpen (m : M) (w : Nat) (pf : Bool) : Bool := if pf then m.responds && (m.world w).sec.getLsbD 0 else m.hears w

/-- A write at an offset of a world's debug window (R337, Table 18-4); offsets that are not listed, and DBGSTAT, discard
it. -/
def M.dbgWrite (m : M) (w off : Nat) (pf : Bool) (v : W64) : Option M :=
  let wd := m.world w
  if !m.dbgOpen w pf then none
  else if off = 0x000 then some (m.setWorld w { wd with dbgsel := keep v 0 13 })
  else if off = 0x008 then m.dbgctl w v
  else if off = 0x018 then some (m.setWorld w { wd with dbgbuf := keep v 6 50 })
  else none

/-- The offsets that an aligned write of 8 bytes changes: of a world's function (Tables 9-1, 19-3, 18-4, 22-2, 23-1), and of
a port's (Tables 23-2, 27-2). -/
def writable (off : Nat) (pf : Bool) : Bool :=
  if pf then
    [0x040, 0x050, 0x058, 0x060, 0x068, 0x078, 0x088, 0x090, 0x098, 0x0A0, 0x0C0, 0x0C8, 0x1000, 0x1008, 0x1018].contains off
      || (decide (0x2000 ≤ off) && decide (off < 0x2200))
  else if off < 0x4000 then decide (off % 0x1000 < 0x50)
  else
    [0x4000, 0x4008, 0x4018, 0x4020, 0x5000, 0x5008, 0x5018, 0x6008, 0x6010, 0x6018, 0x6020, 0x6028, 0x6030, 0x6038, 0x7000].contains off
      || (decide (0x7200 ≤ off) && decide (off < 0x7400)) || (decide (0x8000 ≤ off) && decide (off < 0x8400))

/-- Where 64 bytes are taken at once: submissions (R154) and CMDSUB. -/
def submits (off : Nat) (pf : Bool) : Bool := if pf then off == 0 else decide (off < 0x4000) && off % 0x1000 == 0

/-- A write to a register without behaviour of its own; reserved bits are dropped (R7), and so is an access that no register takes
(R400). -/
def M.writeReg (m : M) (r : HostReg) (v : W64) : Option M :=
  let wr (w : Nat) (f : World → World) : Option M := if m.hears w then some (m.setWorld w (f (m.world w))) else none
  let cf (w : Nat) (f : World → World) : Option M := if m.hears w then m.config w f else none
  let pr (p : Nat) (f : Port → Port) : Option M := if m.responds && p < 16 then some (m.setPort p (f (m.port p))) else none
  match r with
  | .wqca q => if m.hears (q / 4) then some (m.setWQ q { m.wq q with ca := keep v 3 53 }) else none
  | .handlerq w => wr w fun wd => { wd with handlerq := keep v 15 1 ||| keep v 0 13 }
  | .dbgsel w => wr w fun wd => { wd with dbgsel := keep v 0 13 }
  | .dbgbuf w => wr w fun wd => { wd with dbgbuf := keep v 6 50 }
  | .dbg n off pf => if pf && 16 ≤ n then none else m.dbgWrite (if pf then (m.port n).dsel.toNat else n) off pf v
  | .wroot w => cf w fun wd => { wd with root := keep v 16 40 }
  | .wctx w => cf w fun wd => { wd with ctx := keep v 16 40 ||| keep v 0 13 }
  | .wttb w => cf w fun wd => { wd with ttb := keep v 23 33 }
  | .wstkb w => cf w fun wd => { wd with stkb := keep v 16 40 }
  | .wstkn w => cf w fun wd => { wd with stkn := keep v 0 32 }
  | .wsec w => cf w fun wd => { wd with sec := keep v 0 1 }
  | .rtsel w => wr w fun wd => { wd with rtsel := keep v 0 13 }
  | .msix w i => if m.hears w then m.msixW w i v else none
  | .cmdca p => pr p fun pt => { pt with cmdca := keep v 3 53 }
  | .portcap p => pr p fun pt => { pt with atomok := v.getLsbD 0 }
  | .evbase p => pr p fun pt => { pt with evbase := keep v 14 42 ||| keep v 0 1 }
  | .evhead p => pr p fun pt => { pt with evhead := v.extractLsb' 0 9 }
  | .snapctl p => pr p fun pt => { pt with snapctl := keep v 12 44 ||| keep v 1 2 }
  | .numvfs p => pr p fun pt => { pt with numvfs := min v.toNat 128 }
  | .whsel p => if m.responds && p < 16 then some { m with hearth := { m.hearth with whsel := v.extractLsb' 0 6 } } else none
  | .whmask p =>
    if m.responds && p < 16 then
      some { m with hearth := { m.hearth with whmask := put m.hearth.whmask m.hearth.whsel.toNat (keep v 0 48) } }
    else none
  | .dsel p => pr p fun pt => { pt with dsel := v.extractLsb' 0 11 }
  | .fpsel p => pr p fun pt => { pt with fpsel := v.extractLsb' 0 7 }
  | .other n off size pf =>
    if (if pf then n < 16 && !m.hearth.off else m.hears n) && !(size == 8 && off % 8 == 0 && writable off pf)
      && !(size == 64 && off % 64 == 0 && submits off pf) then some m
    else none
  | .fwbuf p => if p < 16 && !m.hearth.off then some (m.setPort p { m.port p with fwbuf := keep v 12 44 }) else none

def execRegisterWrite (r : HostReg) (v : W64) (s : State) : Host.Outcome State Fault Refusal := event s fun m => m.writeReg r v

end Sys2Proof.Machine
end

