-- ==== Sys2Proof/Machine/Hearth.lean ====
section
/-! DEFINITION. Commands to the hearth: the command channel, shapes, worlds and frames, RESHAPE, FREEZE and POWER
(R375, R380, R384, R389 to R391, R404, R438 to R440). -/

namespace Sys2Proof.Machine

/-! ## The command channel (R404) -/

/-- The completion word of a command, at the port's CMDCA. -/
def M.commandWord (m : M) (port : Nat) (seq : W32) (status : Nat) : M :=
  { m with hmem := Memory.writeL m.hmem (hostKey port (m.port port).cmdca.toNat) (natBytes 8 (status * 2 ^ 32 + seq.toNat)) }

/-- The eight doublewords of a record, read as a command (Table 23-3). -/
def parseCmd (port : Nat) (seq : W32) (bs : List Byte) : HCmd :=
  let d (j : Nat) : W64 := dword bs j
  let code := ((d 0).extractLsb' 0 8).toNat
  let arg := ((d 0).extractLsb' 8 8).toNat
  let n := ((d 2).extractLsb' 0 32).toNat
  let resv := (d 0).extractLsb' 43 21 != 0#21 || (d 0).extractLsb' 23 9 != 0#9 || (d 1).extractLsb' 0 3 != 0#3
    || (d 2).extractLsb' 32 32 != 0#32 || [3, 4, 5, 6, 7].any fun j => d j != 0
  let none' := [2, 3, 4, 9].contains code && n != 0
  let wrong := (code == 7 && (n != 1 || 16 ≤ arg)) || (code == 8 && 4 ≤ arg)
  { port := port, seq := seq, code := code, part := ((d 0).extractLsb' 16 7).toNat, world := ((d 0).extractLsb' 32 11).toNat, arg := arg,
    buf := (d 1).toNat, nitem := n, bad := code == 0 || 12 ≤ code || resv || none' || wrong }

/-- COMMAND_SUBMISSION (R404): a record of another size is discarded; one that finds 8 held, or is malformed, completes at
once. -/
def M.command (m : M) (p : Nat) (data : List Byte) : Option M :=
  let h := m.hearth
  if !m.responds || 16 ≤ p || data.length ≠ 64 then none
  else
    let c := parseCmd p h.nextseq data
    let m1 : M := { m with hearth := { h with nextseq := h.nextseq + 1 } }
    if 8 ≤ h.cmds.length then some (m1.commandWord p h.nextseq 3)
    else if c.bad then some (m1.commandWord p h.nextseq 2)
    else some { m1 with hearth := { m1.hearth with cmds := h.cmds ++ [c] } }

def execCommandSubmission (p : Nat) (data : List Byte) (s : State) : Host.Outcome State Fault Refusal := event s fun m => m.command p data

/-- The items of a command, read from host memory (R404). -/
def M.items (m : M) (c : HCmd) : List W64 :=
  (List.range c.nitem).map fun i => BitVec.ofNat 64 (bytesNat (m.hostRead c.port (c.buf + 8 * i) 8))

/-- A frame item: its key (Table 23-4). -/
def itemFrame (e : W64) : Nat := (e.extractLsb' 56 8).toNat * 2 ^ 20 + (e.extractLsb' 16 20).toNat
def itemFrameOk (e : W64) : Bool := decide ((e.extractLsb' 56 8).toNat < 80) && e.extractLsb' 36 20 == 0#20 && e.extractLsb' 0 16 == 0#16

/-- Commands that touch one partition or one world run in their order of arrival (R380): partitions from 0, worlds from
128. -/
def M.cmdKeys (m : M) (c : HCmd) : List Nat :=
  let world (w : Nat) : List Nat := (m.world w).part.toList ++ [128 + w]
  if c.code = 1 || c.code = 2 || c.code = 7 || c.code = 8 || c.code = 10 then [c.part]
  else if c.code = 3 then [c.part, 128 + c.world]
  else if c.code = 4 || c.code = 5 || c.code = 9 then world c.world
  else if c.code = 6 then ((m.items c).filterMap fun e => look m.frames (itemFrame e)).flatMap world
  else []

/-- A command that may be performed now: POWER commands start in order, a snapshot makes every command wait (R414). -/
def M.cmd (m : M) (i code : Nat) : Option HCmd :=
  (m.hearth.cmds[i]?).bind fun c =>
    let before := m.hearth.cmds.take i
    let keys := m.cmdKeys c
    let clash (d : HCmd) : Bool := if code = 11 then d.code == 11 && !d.started && !c.started else (m.cmdKeys d).any keys.contains
    if !m.booted || m.hearth.snapstat == 1 || c.code ≠ code || before.any clash then none else some c

/-- A command completes. -/
def M.endCmd (m : M) (i : Nat) (c : HCmd) (status : Nat) : M :=
  ({ m with hearth := { m.hearth with cmds := m.hearth.cmds.eraseIdx i } }).commandWord c.port c.seq status

/-- A command marked as begun. -/
def M.startCmd (m : M) (i : Nat) (c : HCmd) : M :=
  { m with hearth := { m.hearth with cmds := m.hearth.cmds.set i { c with started := true } } }

/-- A command that is done or refused at once. -/
def M.endIf (m : M) (i : Nat) (c : HCmd) (refused : Bool) (m1 : M) : M := if refused then m.endCmd i c 1 else m1.endCmd i c 0

/-! ## Shapes (R375, R380, R439) -/

/-- The places that paths reach in so many steps more. -/
def M.paths (m : M) (ts : List Nat) : Nat → List (Nat × Nat) → List (Nat × Nat) → List (Nat × Nat)
  | 0, _, seen => seen
  | n + 1, new, seen =>
    let next := ((new.flatMap (m.pathNext ts)).filter fun p => !seen.contains p).eraseDups
    if next.isEmpty then seen else m.paths ts n next (seen ++ next)

/-- Every two tiles have an admissible path (R375). -/
def M.joined (m : M) (ts : List Nat) : Bool :=
  ts.all fun t =>
    let seen := m.paths ts (4 * ts.length) [(t, 0)] [(t, 0)]
    ts.all fun u => seen.any fun p => p.1 == u

/-- The checks of CUT on a set of tiles, for a partition's number. -/
def M.shapeOk (m : M) (pi : Nat) (ts : List Nat) : Bool :=
  !ts.isEmpty
    && (ts.all fun t => !m.retired t && ((m.partOf t).getD pi == pi) && (m.field (fieldOf t)).pst == 0 && !(m.field (fieldOf t)).moving)
    && m.joined ts

/-- A tile named by an item; GEN is not looked at (R362). -/
def itemTile (e : W64) : Nat := keyOfName (e.extractLsb' 0 32)
def itemTileOk (e : W64) : Bool := e.extractLsb' 0 7 == 0#7 && tileOk (itemTile e)

/-- CUT (Table 22-1). `full` says that the retirement log is full. -/
def M.cutP (m : M) (i : Nat) (full : Bool) : Option M :=
  (m.cmd i 1).map fun c =>
    let es := m.items c
    if es.any fun e => !itemTileOk e || e.extractLsb' 32 32 != 0#32 then m.endCmd i c 2
    else
      let ts := sortNat (es.map itemTile).eraseDups
      let no := (m.part c.part).used || full || m.hearth.needService || ts.any (fun t => (m.partOf t).isSome) || !m.shapeOk c.part ts
      let m1 := (ts.foldl M.quenchTile m).setPart c.part { used := true, tiles := ts, floor := m.gen }
      m.endIf i c no m1

def execCut (i : Nat) (s : State) : Host.Outcome State Fault Refusal := event s fun m => m.cutP i (decide (16384 ≤ s.nv.log.length))

/-- A tile's lease clock stops at the count it has; it goes on when the tile is taken from the frozen partition (R342). -/
def M.haltClock (m : M) (t : Nat) : M := m.setTile t { m.tile t with halt := some (m.tileClock t) }
def M.goClock (m : M) (t : Nat) : M := m.setTile t { m.tile t with halt := none }

/-- DISSOLVE (Table 22-1). -/
def M.dissolveP (m : M) (i : Nat) : Option M :=
  (m.cmd i 2).map fun c =>
    let p := m.part c.part
    let m1 := (p.tiles.foldl M.goClock (p.tiles.foldl M.quenchTile m)).setPart c.part {}
    let m2 : M := { m1 with hearth := { m1.hearth with frozen := m1.hearth.frozen.filter (· != c.part) } }
    m.endIf i c (!p.used || !p.worlds.isEmpty) m2

def execDissolve (i : Nat) (s : State) : Host.Outcome State Fault Refusal := event s fun m => m.dissolveP i

/-! ## Worlds (Table 22-1) -/

/-- BIND. -/
def M.bindW (m : M) (i : Nat) : Option M :=
  (m.cmd i 3).map fun c =>
    let p := m.part c.part
    let wd := m.world c.world
    let no := !p.used || wd.part.isSome || wd.st ≠ .unlocked || 16 ≤ p.worlds.length
    m.endIf i c no ((m.setPart c.part { p with worlds := p.worlds ++ [c.world] }).setWorld c.world { wd with part := some c.part })

def execBindWorld (i : Nat) (s : State) : Host.Outcome State Fault Refusal := event s fun m => m.bindW i

/-- A world leaves its partition: its quantum entry is nobody's. The latch, which only a switch changes, names the
quenched world until the next one (R329). -/
def M.leavePart (m : M) (w pi : Nat) : M :=
  let p := m.part pi
  let q := { p with worlds := p.worlds.filter (· != w), skip := p.skip.filter (· != w), before := p.before.filter (· != w) }
  (m.setPart pi q).setWorld w { m.world w with part := none }

/-- UNBIND: the world is quenched first. -/
def M.unbindW (m : M) (i : Nat) : Option M :=
  (m.cmd i 4).map fun c =>
    let wd := m.world c.world
    match wd.part with
    | none => m.endCmd i c 1
    | some pi => m.endIf i c (wd.st == .locked || wd.st == .run) ((m.quenchWorld c.world).leavePart c.world pi)

def execUnbindWorld (i : Nat) (s : State) : Host.Outcome State Fault Refusal := event s fun m => m.unbindW i

/-- EVICT: a world stop with DETAIL 6. -/
def M.evictW (m : M) (i : Nat) : Option M :=
  (m.cmd i 9).map fun c => m.endIf i c ((m.world c.world).st ≠ .run) (m.stopWorld c.world .machineCheck 6)

def execEvict (i : Nat) (s : State) : Host.Outcome State Fault Refusal := event s fun m => m.evictW i

/-- QUANTUM (R327); reserved bits are not kept (R7). -/
def M.quantumP (m : M) (i : Nat) : Option M :=
  (m.cmd i 7).map fun c =>
    let p := m.part c.part
    let e := ((m.items c).headD 0) &&& 0x000FFFFF0000C7FF#64
    let other := (List.range 16).any fun j => j != c.arg && qEn (mget 0 p.quantum j) && qWorld (mget 0 p.quantum j) == qWorld e
    let no := !p.used || (qEn e && (decide (qSlice e < 16) || !p.worlds.contains (qWorld e) || other))
    m.endIf i c no (m.setPart c.part { p with quantum := mset 0 p.quantum c.arg e })

def execQuantum (i : Nat) (s : State) : Host.Outcome State Fault Refusal := event s fun m => m.quantumP i

/-! ## Frames (R384) -/

/-- GRANT. -/
def M.grantF (m : M) (i : Nat) : Option M :=
  (m.cmd i 5).map fun c =>
    let es := m.items c
    if es.any fun e => !itemFrameOk e then m.endCmd i c 2
    else
      let fs := es.map itemFrame
      match (m.world c.world).part with
      | none => m.endCmd i c 1
      | some pi =>
        let has (f : Nat) : Bool := (m.part pi).tiles.any fun t => fieldOf t == f / 2 ^ 20
        let no := fs.any fun f => (look m.frames f).isSome || !has f || decide (2 ≤ (m.field (f / 2 ^ 20)).pst)
        m.endIf i c no { m with frames := fs.foldl (fun fr f => put fr f c.world) m.frames }

def execGrant (i : Nat) (s : State) : Host.Outcome State Fault Refusal := event s fun m => m.grantF i

/-- The lines of frames become blank: they read as zeros and check no tag (R384), entries of tensor tables among them. -/
def M.blankFrames (m : M) (dead : Nat → Bool) : M :=
  { m with fmem := m.fmem.filter fun (k, _) => !dead (k / 65536)
           lines := m.lines.filter fun (l, _) => !dead (l / 1024)
           ecc := m.ecc.filter fun l => !dead (l / 1024)
           worlds := mapV (fun _ wd => wd.blankEntries dead) m.worlds }

/-- RECLAIM. A frame that no world owns is blanked like any other (log entry 44). -/
def M.reclaimF (m : M) (i : Nat) : Option M :=
  (m.cmd i 6).map fun c =>
    let es := m.items c
    if es.any fun e => !itemFrameOk e then m.endCmd i c 2
    else
      let fs := es.map itemFrame
      let held (f : Nat) : Bool := match look m.frames f with
        | some w => (m.world w).st == .locked || (m.world w).st == .run
        | none => false
      m.endIf i c (fs.any held) { m.blankFrames fs.contains with frames := fs.foldl del m.frames }

def execReclaim (i : Nat) (s : State) : Host.Outcome State Fault Refusal := event s fun m => m.reclaimF i

/-! ## RESHAPE (R389 to R391) -/

/-- The map of a RESHAPE's items: old tile, new tile. -/
def itemMap (es : List W64) : List (Nat × Nat) :=
  (es.filter fun e => e.getLsbD 63).map fun e => ((e.extractLsb' 32 13).toNat, itemTile e)

def itemMapOk (e : W64) : Bool :=
  itemTileOk e && e.extractLsb' 45 18 == 0#18 && (e.getLsbD 63 || e.extractLsb' 32 13 == 0#13)

/-- Where the map sends a tile. -/
def sends (mp : List (Nat × Nat)) (t : Nat) : Option Nat := (mp.find? fun x => x.1 == t).map (·.2)

/-- A tile holds state of a bound world. -/
def M.holds (m : M) (p : Part) (t : Nat) : Bool :=
  p.worlds.any fun w => match look m.wts (wtKey w t) with
    | some wt => wt != { restored := wt.restored }
    | none => false

/-- A tile's capability record covers a world's state from another tile: its group slots, register rows and scratch. -/
def M.covers (m : M) (w t u : Nat) : Bool :=
  let wt := m.wt w t
  (wt.groups.all fun (slot, _) => (m.usable u (issueSet slot)).contains slot) && decide (wt.used ≤ m.rows u)
    && decide (m.scratchSum w t ≤ m.scrBytes u)

/-- The map carries a cluster's rectangle by one translation. -/
def Cluster.carried (c : Cluster) (m : M) (mp : List (Nat × Nat)) : Bool :=
  let ts := c.teams.filterMap fun (_, i) => (look m.teams i).map (·.tile)
  let by' (t : Nat) : Option (Int × Int) := (sends mp t).map fun u => ((tileX u : Int) - tileX t, (tileY u : Int) - tileY t)
  match ts with
  | [] => true
  | t :: _ => (by' t).isSome && ts.all fun u => by' u == by' t

/-- The conditions of a kind: 0 GROW, 1 SHRINK, 2 COMPACT, 3 MIGRATE. -/
def M.kindOk (m : M) (p : Part) (kind : Nat) (ns : List Nat) (mp : List (Nat × Nat)) : Bool :=
  let same := mp.all fun x => x.1 == x.2
  let busy (t : Nat) : Bool :=
    (m.teams.any fun (_, tm) => p.worlds.contains tm.world && tm.tile == t && !tm.ended)
      || p.worlds.any fun w => (m.wt w t).chains.any fun (_, c) => c.owner.isSome
  let whole := p.tiles.all fun t => !m.holds p t || (sends mp t).isSome
  if kind = 0 then same && whole && p.tiles.all ns.contains
  else if kind = 1 then same && ns.all p.tiles.contains && p.tiles.all fun t => if ns.contains t then !m.holds p t || (sends mp t).isSome else !busy t
  else
    ns.length == p.tiles.length && whole
      && (kind == 2 || p.tiles.all fun t => !ns.contains t || !(m.hearth.pend.any fun e => exTile e == t))

/-- Every check of a RESHAPE (R389). -/
def M.reshapeOk (m : M) (pi kind : Nat) (es : List W64) : Bool :=
  let p := m.part pi
  let ns := es.map itemTile
  let mp := itemMap es
  let field (f : Nat) : Bool := ns.any fun t => fieldOf t == f
  p.used && ns.eraseDups.length == ns.length && (mp.map (·.1)).eraseDups.length == mp.length && (mp.all fun x => p.tiles.contains x.1)
    && m.shapeOk pi ns && m.kindOk p kind ns mp
    && (mp.all fun x => x.1 == x.2 || p.worlds.all fun w => m.covers w x.1 x.2)
    && (m.clusters.all fun (ci, c) => !p.worlds.contains c.world || !m.clusterLives ci || c.carried m mp)
    && (m.frames.all fun (f, w) => !p.worlds.contains w || field (f / 2 ^ 20))
    && p.worlds.all fun w => decide (ns.length ≤ (m.world w).ctxBlocks)

/-- Step 5: the state of the partition's worlds moves by the map; what stood on a dropped tile is gone. -/
def M.moveState (m : M) (p : Part) (mp : List (Nat × Nat)) : M :=
  let ours (w : Nat) : Bool := p.worlds.contains w
  let mv (t : Nat) : Nat := (sends mp t).getD t
  let on := m.wts.filter fun (k, _) => ours (k / 8192)
  let off := m.wts.filter fun (k, _) => !ours (k / 8192)
  let step (acc : AMap WT) (x : Nat × WT) : AMap WT := match sends mp (x.1 % 8192) with
    | some u => put acc (wtKey (x.1 / 8192) u) x.2
    | none => acc
  let acc (a : Access) : Access := if ours a.world then { a with tile := mv a.tile } else a
  let world (w : Nat) (wd : World) : World :=
    if ours w then { wd with tokens := mapV (fun _ (tk : Token) => { tk with tile := mv tk.tile }) wd.tokens
                             changes := wd.changes.map fun (t, slot) => (mv t, slot) }
    else wd
  { m with wts := on.foldl step off
           teams := mapV (fun _ (tm : Team) => if ours tm.world then { tm with tile := mv tm.tile } else tm) m.teams
           acc := m.acc.map acc
           walks := m.walks.map fun (k : Walk) => if ours k.world then { k with tile := mv k.tile } else k
           dumps := m.dumps.map fun (d : Dump) => if ours d.world then { d with tile := mv d.tile } else d
           worlds := mapV world m.worlds }

/-- Scratch that reaches past the scratchpad of its new tile is laid side by side there (log entry 77). -/
def M.scratchMoved (m : M) (w t : Nat) : M :=
  if (m.scratchUsed w t).any fun p => decide (m.scrBytes t < p.1 + p.2) then m.scratchPack w t 0 else m

/-- Where a byte of a world's context area stands once each tile's block is at its new index; a dropped tile's block is
discarded (R390). -/
def World.newPlace (wd : World) (os ns : List Nat) (mp : List (Nat × Nat)) (k : Nat) : Option Nat :=
  if k < wd.ctxBase || wd.ctxBase + wd.ctxBlocks * blockBytes ≤ k then some k
  else
    let o := k - wd.ctxBase
    ((os[o / blockBytes]?).bind (sends mp)).bind fun u =>
      if ns.contains u then some (wd.ctxBase + ns.idxOf u * blockBytes + o % blockBytes) else none

/-- Step 5: the hearth moves each saved tile block of a world to its new index. -/
def M.moveBlocks (m : M) (os ns : List Nat) (mp : List (Nat × Nat)) (w : Nat) : M :=
  let place (k : Nat) : Option Nat := (m.world w).newPlace os ns mp k
  { m with fmem := m.fmem.foldl (fun mem (k, b) => match place k with
             | some q => Memory.write mem q b
             | none => mem) []
           lines := m.lines.foldl (fun ls (l, tag) => match place (l * 64) with
             | some q => put ls (q / 64) tag
             | none => ls) [] }

/-- Steps 5 to 9 with the partition at rest: the state moves, exclusions are applied, the generation advances once more,
names are rewritten, tiles are quenched and the world latched before is latched again. -/
def M.reshape (m : M) (pi : Nat) (es : List W64) : M :=
  let p := m.part pi
  let ns := sortNat (es.map itemTile)
  let mp := itemMap es
  let lost := p.tiles.filter fun t => !ns.contains t
  let new := ns.filter fun t => !p.tiles.contains t
  let kept := ns.filter fun t => p.tiles.contains t && sends mp t != some t
  let fresh (m : M) (t : Nat) : M := (m.quenchTile t).setTile t { (m.quenchTile t).tile t with quench := false }
  let bare (m : M) (t : Nat) : M := m.setTile t { m.tile t with l1 := [], tlb := [], fetch := [], asks := [] }
  let m1 := p.worlds.foldl (M.moveBlocks · (sortNat p.tiles) ns mp)
    (p.worlds.foldl (fun m w => ns.foldl (fun m t => m.scratchMoved w t) m) ((new.foldl fresh m).moveState p mp))
  let m2 := kept.foldl bare (lost.foldl M.quenchTile m1)
  let m3 := (m2.hearth.pend.filter fun e => lost.contains (exTile e)).foldl M.exclude (m2.setPart pi { m2.part pi with tiles := ns })
  let m4 : M := { m3 with gen := m3.gen + 1 }
  ((m4.setPart pi { m4.part pi with floor := m4.gen }).rename pi (sends (mp ++ (ns.map fun t => (t, t))))).resume pi

/-- RESHAPE: it is checked and its quiesce begins; with the partition at rest, and others renewed where the advances of
the generation call for it (R369), it is performed. -/
def M.reshapeP (m : M) (i kind : Nat) : Option M :=
  (m.cmd i 8).bind fun c =>
    let es := m.items c
    if c.arg ≠ kind then none
    else if !c.started then
      (if es.any fun e => !itemMapOk e then some (m.endCmd i c 2)
       else if !m.reshapeOk c.part kind es then some (m.endCmd i c 1)
       else if (m.part c.part).quiesce != 0 then none
       else some ((m.startCmd i { c with fields := es.map (·.toNat) }).pushQuiesce c.part 1))
    else if !m.atRest c.part then none
    else
      let held := c.fields.map (BitVec.ofNat 64)
      let lost (t : Nat) : Bool := (m.part c.part).tiles.contains t && !(held.any fun e => itemTile e == t)
      let n := (m.hearth.pend.filter fun e => lost (exTile e)).length + 1
      (m.prepare n (some c.part)).map fun (ready, m1) => if ready then (m1.reshape c.part held).endCmd i c 0 else m1

def execReshapeGrow (i : Nat) (s : State) : Host.Outcome State Fault Refusal := event s fun m => m.reshapeP i 0
def execReshapeShrink (i : Nat) (s : State) : Host.Outcome State Fault Refusal := event s fun m => m.reshapeP i 1
def execReshapeCompact (i : Nat) (s : State) : Host.Outcome State Fault Refusal := event s fun m => m.reshapeP i 2
def execReshapeMigrate (i : Nat) (s : State) : Host.Outcome State Fault Refusal := event s fun m => m.reshapeP i 3

/-! ## FREEZE (R342) -/

/-- A world of a frozen partition is stopped, or only told; a stop under way stands (R342, R394, R396). -/
def M.freezeWorld (m : M) (w : Nat) : M :=
  if (m.world w).stopping.isSome then m
  else if (m.world w).st = .run then m.stopWorld w .machineCheck 1
  else (m.quenchWorld w).outOfBand w { code := .machineCheck, detail := 1, kind := 4 }

/-- FREEZE. The read-out is the scan of the tiles' state, whose layout is not the manual's: free bytes (log entry 12). -/
def M.freezeP (m : M) (i : Nat) : Option M :=
  (m.cmd i 10).bind fun c =>
    let p := m.part c.part
    if p.quiesce != 0 then none
    else if !p.used || p.worlds.any fun w => !(m.world w).sec.getLsbD 0 then some (m.endCmd i c 1)
    else
      let f := m.freeVal
      let m1 := f.2.hostWrite c.port c.buf (freeBytes f.1 (8 * c.nitem))
      let m2 := (m1.launches.filter fun (_, l) => l.part == c.part).foldl (fun (m : M) x => m.completion x.2.wq x.2.seq 5 x.2.lr.irq) m1
      let m3 := (p.tiles.foldl M.haltClock (p.tiles.foldl M.quenchTile (p.worlds.foldl M.freezeWorld m2)))
      let m4 := m3.setPart c.part { m3.part c.part with latched := none, sw := none }
      some ({ m4 with hearth := { m4.hearth with frozen := c.part :: m4.hearth.frozen.filter (· != c.part) } }.endCmd i c 0)

def execFreeze (i : Nat) (s : State) : Host.Outcome State Fault Refusal := event s fun m => m.freezeP i

/-! ## POWER (R438 to R440) -/

def powerField (e : W64) : Nat := (e.extractLsb' 56 8).toNat
def powerTarget (e : W64) : Nat := (e.extractLsb' 0 2).toNat

/-- The refusals of POWER (R439). -/
def M.powerNo (m : M) (e : W64) : Bool :=
  let f := powerField e
  let leaves := (m.field f).pst == 0 && powerTarget e != 0
  (leaves && m.parts.any fun (_, p) => p.used && p.tiles.any fun t => fieldOf t == f)
    || (decide (2 ≤ powerTarget e) && m.frames.any fun (k, _) => k / 2 ^ 20 == f)

/-- A transition starts; a wake from F3 waits for a token (R440). -/
def M.powerStart (m : M) (f target : Nat) : M :=
  let fd := m.field f
  if fd.pst = target then m.setField f { fd with target := target }
  else
    let m1 := m.setField f { fd with target := target, moving := true }
    if fd.pst = 3 then { m1 with hearth := { m1.hearth with wakes := m1.hearth.wakes ++ [f] } } else m1

/-- POWER: the command starts, and completes when every item has reached its target. -/
def M.powerP (m : M) (i : Nat) : Option M :=
  (m.cmd i 11).bind fun c =>
    let es := m.items c
    let fs := es.map powerField
    if c.started then (if c.fields.any fun f => (m.field f).moving then none else some (m.endCmd i c 0))
    else if fs.eraseDups.length != fs.length || es.any fun e => decide (80 ≤ powerField e) || e.extractLsb' 2 54 != 0#54 then
      some (m.endCmd i c 2)
    else if fs.any fun f => (m.field f).moving then none
    else if es.any m.powerNo then some (m.endCmd i c 1)
    else
      let target (f : Nat) : Nat := ((es.find? fun e => powerField e == f).map powerTarget).getD 0
      some ((sortNat fs).foldl (fun (m : M) f => m.powerStart f (target f)) (m.startCmd i { c with fields := fs }))

def execPower (i : Nat) (s : State) : Host.Outcome State Fault Refusal := event s fun m => m.powerP i

/-- INRUSH_TOKEN_GRANT: the first waiting wake takes one of the 6 tokens (R440). -/
def M.tokenTake (m : M) (f : Nat) : Option M :=
  if m.hearth.wakes.head? ≠ some f || 6 ≤ (m.fields.filter fun (_, fd) => fd.token).length then none
  else some ({ m with hearth := { m.hearth with wakes := m.hearth.wakes.tail } }.setField f { m.field f with token := true })

def execInrushTokenGrant (f : Nat) (s : State) : Host.Outcome State Fault Refusal := event s fun m => m.tokenTake f

/-- INRUSH_TOKEN_RETURN. -/
def M.tokenGive (m : M) (f : Nat) : Option M :=
  if (m.field f).token then some (m.setField f { m.field f with token := false }) else none

def execInrushTokenReturn (f : Nat) (s : State) : Host.Outcome State Fault Refusal := event s fun m => m.tokenGive f

/-- The state of a field is lost, or comes up as after F3: tiles quenched, every frame blank, its tree over them (R440). -/
def M.clearField (m : M) (f : Nat) : M :=
  let ts := (m.tiles.filter fun (t, _) => fieldOf t == f).map (·.1)
  let m1 := ts.foldl (fun (m : M) t => (m.quenchTile t).setTile t { (m.quenchTile t).tile t with quench := false }) m
  { m1.blankFrames fun k => k / 2 ^ 20 == f with
    expiry := m1.expiry.filter fun (l, _) => l / 2 ^ 30 != f
    hot := m1.hot.filter fun (l, _) => l / 2 ^ 30 != f
    stale := m1.stale.filter (·.1 != f)
    failed := m1.failed.filter (·.1 != f) }

/-- FIELD_TRANSITION_COMPLETE. -/
def M.fieldMoved (m : M) (f : Nat) : Option M :=
  let fd := m.field f
  if !fd.moving || fd.token || m.hearth.wakes.contains f then none
  else
    let m1 := if fd.pst = 3 || fd.target = 3 then m.clearField f else m
    some (m1.setField f { m1.field f with pst := fd.target, moving := false })

def execFieldTransitionComplete (f : Nat) (s : State) : Host.Outcome State Fault Refusal := event s fun m => m.fieldMoved f

end Sys2Proof.Machine
end

