-- ==== Sys2Proof/Machine/Remote.lean ====
section
/-! DEFINITION. What other modules, routers, links and errors do to this module (R371, R373, R379, R397, R398, R411 to R413,
R441, Table 17-2). -/

namespace Sys2Proof.Machine

/-! ## Links and packets (R371, R373, R379) -/

def linkOk (t dir vc : Nat) : Bool := tileOk t && decide (dir < 4) && decide (vc < 128) && (neighbour t dir).isSome

/-- LINK_STOP and LINK_GO: the receiver's word for a channel, which holds back what would cross it; no value that an agent
observes changes (R373). -/
def execLinkStop (t dir vc : Nat) (s : State) : Host.Outcome State Fault Refusal :=
  event s fun m => if linkOk t dir vc then some { m with stops := put m.stops (linkKey t dir vc) true } else none
def execLinkGo (t dir vc : Nat) (s : State) : Host.Outcome State Fault Refusal :=
  event s fun m => if linkOk t dir vc then some { m with stops := del m.stops (linkKey t dir vc) } else none

/-- An entry of the fabric log (Table 21-6). -/
def M.fabricEntry (m : M) (t : Nat) (pk : Packet) : W64 :=
  pk.ptag ++ BitVec.ofNat 7 ((m.partOf t).getD 0) ++ pk.wtag ++ pk.port ++ pk.cls ++ 0#2 ++ m.name t

/-- PACKET_ARRIVAL (R379): a packet with another partition's tag is dropped and logged, and so is one that meets a frozen
partition (R342). A name that is not current went back to its sender where it was injected (R371, SEND). -/
def M.packet (m : M) (t : Nat) (pk : Packet) : Option M :=
  let bad := match m.partOf t with
    | some p => pk.ptag != BitVec.ofNat 7 p || m.hearth.frozen.contains p
    | none => true
  if !tileOk t || 4 ≤ pk.port.toNat || pk.cls = 3 || !bad then none
  else
    let e := m.fabricEntry t pk
    let m1 : M := { m with hearth := { m.hearth with fabricLog := m.hearth.fabricLog ++ [e] } }
    some ((m1.stopWorld pk.wtag.toNat .machineCheck 2).post [evWord 1 0, e])

def execPacketArrival (t : Nat) (pk : Packet) (s : State) : Host.Outcome State Fault Refusal := event s fun m => m.packet t pk

/-! ## Wharf links (R411, R405): a request keeps its link while it stays up -/

def M.linkState (m : M) (l : Nat) (up : Bool) : Option M :=
  let ls := m.hearth.linkUp
  if 48 ≤ l || ls.contains l == up then none
  else
    let m1 : M := { m with hearth := { m.hearth with linkUp := if up then l :: ls else ls.filter (· != l) } }
    let keep (a : Access) : Access := if a.link = some l then { a with link := m1.linkTo (m1.partNum a.world) a.homeid } else a
    some ({ m1 with acc := m1.acc.map keep }.post [evWord 5 (l + if up then 256 else 0)])

def execWharfLinkDown (l : Nat) (s : State) : Host.Outcome State Fault Refusal := event s fun m => m.linkState l false
def execWharfLinkUp (l : Nat) (s : State) : Host.Outcome State Fault Refusal := event s fun m => m.linkState l true

/-! ## Requests from other modules (R412, R413) -/

/-- Bytes of an address cut at the lines. -/
def lineCuts (a n : Nat) : Nat → List (Nat × Nat)
  | 0 => []
  | fuel + 1 =>
    if n = 0 then []
    else
      let k := min n (64 - a % 64)
      (a, k) :: lineCuts (a + k) (n - k) fuel

/-- Read bytes that may cross lines, each line under its tag (R186). -/
def M.readCuts (m : M) (w key : Nat) (tag : Nat → Tag) : List (Nat × Nat) → Option (List Byte) × M
  | [] => (some [], m)
  | (k, n) :: rest =>
    let r := m.fieldRead k n w key (tag (k / 64)).tid (tag (k / 64)).ver
    match r.1 with
    | none => (none, r.2)
    | some bs =>
      let q := r.2.readCuts w key tag rest
      (q.1.map (bs ++ ·), q.2)

/-- Write bytes that may cross lines, each line under its tag: the longest wait, or none when a line fails. -/
def M.writeCuts (m : M) (f w key : Nat) (tag : Nat → Tag) : List (Nat × Nat) → List Byte → Option (Nat × M)
  | [], _ => some (0, m)
  | (k, n) :: rest, bs =>
    (m.fieldWrite k (bs.take n) w key (tag (k / 64)).tid (tag (k / 64)).ver).bind fun m1 =>
      let p := m1.performed f (k / 64)
      (p.2.writeCuts f w key tag rest (bs.drop n)).map fun q => (max p.1 q.1, q.2)

/-- The world here whose PEER entry and whose requester's RWORLD agree (R412). -/
def M.peerWorld (m : M) (r : RemoteReq) : Option Nat :=
  let pe := mget 0 (m.world r.rworld).peers r.src
  if (m.world r.rworld).part.isSome && pe.getLsbD 63 && (pe.extractLsb' 32 11).toNat == r.world then some r.rworld else none

/-- A fault answered to another module. -/
def refuse (c : Code) (detail : Nat) : RemoteResp := .fault c.num (BitVec.ofNat 32 detail)

/-- A request performs at its home field and is acknowledged after its wait (R413). -/
def M.remotePerform (m : M) (w : Nat) (r : RemoteReq) (l : Leaf) : RemoteResp × M :=
  let k := fieldKey l.homeid (l.pa r.va.toNat)
  let tag (line : Nat) : Tag := (m.world w).tableTag (r.va.toNat / 64 + line - k / 64)
  let first := tag (k / 64)
  let cuts := lineCuts k r.size (r.size + 1)
  let over' (p : Nat × M) : M := if p.1 = 0 then p.2 else p.2.passUnits p.1
  let bad := refuse (((cuts.findSome? fun x => m.lineFault (x.1 / 64) w l.key (tag (x.1 / 64)).tid (tag (x.1 / 64)).ver)).getD .integrity) 0
  if (r.write || r.op.isSome) && cuts.any (fun x => (tag (x.1 / 64)).ro) then (refuse .readonlyTensor 0, m)
  else
    match r.op with
    | some op =>
      let q := m.atomRead k r.size w l.key first.tid first.ver
      match q.1 with
      | none => (bad, m)
      | some old =>
        let v := BitVec.ofNat 64 (bytesNat old)
        let m1 := if atomSkips op r.size v r.c then q.2
                  else (q.2.fieldWrite k (natBytes r.size (atomNew op r.size v r.b r.c).toNat) w l.key first.tid first.ver).getD q.2
        (.ok old, over' (m1.performed l.homeid (k / 64)))
    | none =>
      if r.write then
        match m.writeCuts l.homeid w l.key tag cuts r.data with
        | some p => (.ok [], over' p)
        | none => (bad, m)
      else
        let q := m.readCuts w l.key tag cuts
        match q.1 with
        | some bs => (.ok bs, q.2)
        | none => (bad, m)

/-- The answer of this module to a request, and the state after it (R412); local windows are never looked up (R322, R324). -/
def M.remoteAnswer (m : M) (r : RemoteReq) : RemoteResp × M :=
  match m.peerWorld r with
  | none => (refuse .remoteUnreachable 0, m)
  | some w =>
    let k : TKind := if r.ferry then .ferry else if r.write || r.op.isSome then .write else .read
    if r.va.toNat / 2 ^ 48 = 0xFF then (refuse .translation (detailOf 2 0 k), m)
    else match m.walk w r.va.toNat k with
    | .fault c d => (refuse c d, m)
    | .leaf l =>
      if l.homek ≠ 0 then (refuse .protection (detailOf 13 l.level k), m)
      else match m.leafCheck w r.va.toNat k l with
        | some (c, d) => (refuse c d, m)
        | none => if r.ferry && r.write && l.ro then (refuse .protection (detailOf 6 l.level k), m) else m.remotePerform w r l

/-- A request whose table entry or line lies beneath a tree node under repair waits at its home (R397). -/
def M.remoteWaits (m : M) (r : RemoteReq) : Bool :=
  match m.peerWorld r with
  | none => false
  | some w => m.walkWaits w r.va.toNat 4 (m.world w).rootTable 0 || match m.walk w r.va.toNat .read with
    | .fault _ _ => false
    | .leaf l => l.homek == 0 && (lineCuts (fieldKey l.homeid (l.pa r.va.toNat)) r.size (r.size + 1)).any fun x => m.repairing (x.1 / 64)

/-- REMOTE_REQUEST: without an id here, with another module's id, or without a link back, nothing is performed and nothing
sent (R411, R412). -/
def M.remoteReq (m : M) (r : RemoteReq) : Option M :=
  let good := decide (r.src < 64) && (m.linkTo r.part.toNat r.src).isSome && m.hearth.modid == some r.dst && decide (r.va.toNat < 2 ^ 56)
    && if r.write then r.data.length == r.size else r.op.isNone || r.size == 4 || r.size == 8
  if !good || m.remoteWaits r then none
  else
    let q := m.remoteAnswer r
    some { q.2 with hearth := { q.2.hearth with wharfOut := q.2.hearth.wharfOut ++ [(r.src, q.1)] } }

def execRemoteRequest (r : RemoteReq) (s : State) : Host.Outcome State Fault Refusal := event s fun m => m.remoteReq r

/-! ## Errors (R366, R397, R398, Table 17-2, Table 19-12) -/

/-- TILE_STATE_ERROR: a corrected error is logged; another stops the latched world with DETAIL 5. -/
def M.tileError (m : M) (t : Nat) (kind : BitVec 8) (corrected : Bool) : Option M :=
  (m.tile t).latch.bind fun w =>
    if !corrected then some (m.stopWorld w .machineCheck 5)
    else if kind = 3 || kind = 4 then some (m.setWT w t ((m.wt w t).logError kind 0))
    else none

/-- An instruction-cache error: the block is invalidated and fetched again, and logged (R320). -/
def M.fetchCorrected (m : M) (t : Nat) (loc : Va) : Option M :=
  (m.tile t).latch.map fun w =>
    let m1 := m.setTile t { m.tile t with fetch := del (m.tile t).fetch (blockKey w loc.toNat) }
    m1.setWT w t ((m1.wt w t).logError 1 (BitVec.ofNat 56 (loc.toNat / 32 * 32)))

def execTileStateError (t : Nat) (kind : BitVec 8) (loc : Va) (corrected : Bool) (s : State) : Host.Outcome State Fault Refusal :=
  event s fun m => if corrected && kind = 1 then m.fetchCorrected t loc else m.tileError t kind corrected

/-- The records of worlds that own frames beneath a poisoned node (R397). -/
def M.poisonRecs (m : M) (f first n : Nat) : M :=
  let mine := (List.range n).filterMap fun i => (look m.frames ((f * 2 ^ 30 + first + i) / 1024)).map fun w => (w, first + i)
  let worlds := (mine.map (·.1)).eraseDups
  worlds.foldl (fun (m : M) w =>
    let ls := (mine.filter fun x => x.1 == w).map (·.2)
    let low := ls.foldl min (2 ^ 30)
    m.outOfBand w { code := .integrity, addr := low / 1024 * 65536, detail := BitVec.ofNat 32 ls.length, kind := 4 }) m

/-- A node of a hash tree is rebuilt and matches its parent; without a match, the nodes beneath it and the path above it
are rebuilt too (R397). -/
def M.rebuilt (m : M) (f level first : Nat) (ok : Bool) : M :=
  let same (x : Nat × Nat × Nat) : Bool := x.1 == f && x.2.1 == level && x.2.2 / nodeLines level == first / nodeLines level
  let under (x : Nat × Nat × Nat) : Bool := x.1 == f && decide (x.2.1 ≤ level) && x.2.2 / nodeLines level == first / nodeLines level
  let over' (x : Nat × Nat × Nat) : Bool := x.1 == f && decide (level ≤ x.2.1) && x.2.2 / nodeLines x.2.1 == first / nodeLines x.2.1
  { m with failed := m.failed.filter fun x => !(same x || (!ok && under x))
           stale := m.stale.filter fun x => !(same x || (!ok && (under x || over' x))) }

/-- TREE_NODE_REPAIR (R397): the node is rebuilt; without a match every line beneath it is poisoned. Event 2. -/
def M.treeRepair (m : M) (f level line : Nat) (ok : Bool) : Option M :=
  if 80 ≤ f || 10 ≤ level || 2 ^ 30 ≤ line || 2 ≤ (m.field f).pst then none
  else
    let n := nodeLines level
    let first := line / n * n
    let where' : W64 := BitVec.ofNat 64 (f * 2 ^ 56 + first * 64)
    let note (m : M) (bit : Nat) : M := m.post [evWord 2 0, where', BitVec.ofNat 64 (level + 256 * bit)]
    let m := m.rebuilt f level first ok
    if ok then some (note { m with hearth := { m.hearth with repairLog := m.hearth.repairLog ++ [where'] } } 0)
    else
      let poison (ls : AMap (Option LineTag)) (i : Nat) : AMap (Option LineTag) := put ls (f * 2 ^ 30 + first + i) none
      some (note ({ m with lines := (List.range n).foldl poison m.lines }.poisonRecs f first n) 1)

def execTreeNodeRepair (f level line : Nat) (ok : Bool) (s : State) : Host.Outcome State Fault Refusal :=
  event s fun m => m.treeRepair f level line ok

/-- POWER_ALERT (R441): above 38 kW or 95 °C, event 7; no other action. -/
def execPowerAlert (watts : W32) (temp : BitVec 8) (s : State) : Host.Outcome State Fault Refusal :=
  event s fun m =>
    if !m.booted || (watts.toNat ≤ 38000 && temp.toNat ≤ 95) then none
    else
      let w : W64 := 0#24 ++ temp ++ watts
      some ({ m with hearth := { m.hearth with telem := w } }.post [evWord 7 0, w])

end Sys2Proof.Machine
end

