-- ==== Sys2Proof/Machine/Bringup.lean ====
section
/-! DEFINITION. Reset, power loss and firmware (R441 to R444); snapshot and restore of the module (R414, R415). -/

namespace Sys2Proof.Machine

/-! ## Reset and firmware -/

/-- What a loss of power or a reset leaves: the generation, host memory and the snapshot images in it, and the system's
domain key (log entry 6). Numbers that must not come twice go on (log entry 3). -/
def M.cleared (m : M) : M :=
  { uid := m.uid, free := m.free, agenda := m.agenda, gen := m.gen, excl := m.excl, hmem := m.hmem,
    hearth := { images := m.hearth.images, domain := m.hearth.domain } }

/-- Exclusions that a reset still has to apply (R366, R444). -/
def State.unapplied (s : State) : List W64 := s.nv.log.filter fun e => !s.m.excl.contains e

/-- MODULE_RESET (R443, R444): the stored image is checked, the capability records are formed anew. -/
def State.resetModule (s : State) : State :=
  let m := s.m.cleared
  let st : BitVec 3 × BitVec 8 := match s.nv.image with
    | some v => if s.nv.minSvn ≤ v then (0, v) else (1, 0)
    | none => (1, 0)
  let service := decide (16384 ≤ s.nv.log.length) && s.m.hearth.needService
  { s with m := { m with gen := m.gen + BitVec.ofNat 12 s.unapplied.length, excl := (s.nv.fuse ++ s.nv.log).eraseDups,
                         hearth := { m.hearth with fwst := st.1, svn := st.2, needService := service } } }

def execModuleReset (s : State) : Host.Outcome State Fault Refusal := .next s.resetModule

/-- THERMAL_TRIP (R441): a loss of power. -/
def M.trip (m : M) : M := { m.cleared with hearth := { m.cleared.hearth with off := true } }

def execThermalTrip (s : State) : Host.Outcome State Fault Refusal := .next { s with m := s.m.trip }

/-- FIRMWARE_LOAD (R443): a write to FWCTL. Whether an image's signature verifies, and its version, is Config's (log entry
5). -/
def State.loadFirmware (s : State) (p : Nat) (v : W64) : State :=
  let s : State := if s.m.hearth.off || 16 ≤ p then s else { s with m := s.m.setPort p { s.m.port p with fwctl := keep v 8 24 ||| keep v 1 1 } }
  let h := s.m.hearth
  if h.off || 16 ≤ p || !v.getLsbD 0 || (h.fwst ≠ 1 && h.fwst ≠ 3) then s
  else
    let base := ((s.m.port p).fwbuf.extractLsb' 12 44).toNat * 4096
    match (Config.imageSvn (s.m.hostRead p base ((v.extractLsb' 8 24).toNat * 4096))).filter fun x => s.nv.minSvn ≤ x with
    | none => { s with m := { s.m with hearth := { h with fwst := 3 } } }
    | some x =>
      { m := { s.m with hearth := { h with fwst := 0, svn := x } }
        nv := if v.getLsbD 1 then { s.nv with image := some x, minSvn := x } else s.nv }

def execFirmwareLoad (p : Nat) (v : W64) (s : State) : Host.Outcome State Fault Refusal := .next (s.loadFirmware p v)

/-! ## Snapshot and restore -/

/-- SNAPSTAT ends with a value; event 6 (R405). -/
def M.snapEnds (m : M) (st : Nat) : M :=
  ({ m with hearth := { m.hearth with snapstat := BitVec.ofNat 8 st } }).post [evWord 6 st]

/-- Bytes of one field's image. -/
def imageBytes : Nat := 73 * 2 ^ 30

/-- Where the fields' images lie: field f is image f / n of the (f mod n)-th of the n ports that take part (R414). -/
def M.snapPlaces (m : M) : List (Nat × Nat) :=
  let ps := sortNat ((m.ports.filter fun (_, pt) => pt.snapctl.getLsbD 1).map (·.1))
  (List.range 80).filterMap fun f => (ps[f % ps.length]?).map fun p =>
    (p, ((m.port p).snapctl.extractLsb' 12 44).toNat * 4096 + f / ps.length * imageBytes)

/-- A write of SNAPCTL with GO, for a snapshot (OP = 0) or a restore (OP = 1); a GO while one runs is discarded (R414). -/
def M.snapGo (m : M) (p : Nat) (v : W64) (restore : Bool) (k : M → M) : Option M :=
  if !m.responds || 16 ≤ p || !v.getLsbD 0 || v.getLsbD 2 != restore then none
  else
    let m1 := m.setPort p { m.port p with snapctl := keep v 12 44 ||| keep v 1 2 }
    if m.hearth.snapstat = 1 || !m.booted then some m1
    else if m1.snapPlaces.isEmpty then some (m1.snapEnds 3)
    else some (k { m1 with hearth := { m1.hearth with snapAt := m1.snapPlaces } })

/-- Images that the host or the device lays in host memory: what stood in their places is gone. -/
def M.layImages (m : M) (im : Image) : M :=
  let over' (a b : Nat × Nat) : Bool := a.1 == b.1 && decide (a.2 < b.2 + imageBytes) && decide (b.2 < a.2 + imageBytes)
  let kept := m.hearth.images.filter fun x => x.places.all fun a => im.places.all fun b => !over' a b
  { m with hearth := { m.hearth with images := im :: kept } }

/-- The images that a restore under way finds: all 80 of one snapshot, in the places its ports name (R414, R415). -/
def M.found (m : M) : Option Image := m.hearth.images.find? fun im => im.places == m.hearth.snapAt

/-- SNAPSHOT: every partition goes into its quiesce. -/
def M.snapStart (m : M) : M :=
  let m1 : M := { m with hearth := { m.hearth with snapstat := 1, snapRestore := false } }
  ((m.parts.filter fun (_, p) => p.used).map (·.1)).foldl (fun (m : M) i => m.pushQuiesce i 3) m1

def execSnapshot (p : Nat) (v : W64) (s : State) : Host.Outcome State Fault Refusal := event s fun m => m.snapGo p v false M.snapStart

/-- What a snapshot writes; a world that is being stopped is written without keys (R414). -/
def M.image (m : M) : Image :=
  { places := m.hearth.snapAt, domain := m.hearth.domain, fmem := m.fmem, lines := m.lines, frames := m.frames,
    parts := m.parts.filter fun (_, p) => p.used,
    worlds := mapV (fun _ wd => if wd.stopping.isSome then wd.bare else wd) m.worlds, wts := m.wts,
    wqs := m.wqs, launches := m.launches, clusters := m.clusters, teams := m.teams, acc := m.acc }

/-- The module may take an image: no partition is cut, and every saved tile is there with what its state needs (R415). -/
def M.mayRestore (m : M) : Bool :=
  (m.parts.all fun (_, p) => !p.used) && match m.found with
    | none => true
    | some im =>
      let m1 : M := { m with wts := im.wts, teams := im.teams, clusters := im.clusters, launches := im.launches }
      im.parts.all fun (_, p) => p.tiles.all fun t =>
        !m.retired t && (m.field (fieldOf t)).pst == 0 && p.worlds.all fun w => m1.covers w t t

/-- RESTORE. -/
def M.restoreStart (m : M) : M :=
  if m.mayRestore then { m with hearth := { m.hearth with snapstat := 1, snapRestore := true } } else m.snapEnds 3

def execRestore (p : Nat) (v : W64) (s : State) : Host.Outcome State Fault Refusal := event s fun m => m.snapGo p v true M.restoreStart

/-- A partition as a restore leaves it: nothing latched, every world waits for its START. -/
def Part.reborn (p : Part) (gen : BitVec 12) : Part :=
  { p with floor := gen, latched := none, cur := none, left := 0, sw := none, yielded := false, quiesce := 0, before := none, skip := p.worlds }

/-- A world as a restore leaves it: CONFIG_LOCKED with its keys, its session closed (R415). -/
def World.reborn (wd : World) : World :=
  { wd with st := .locked, stopped := true, sess := {}, tdispWait := [], quench := false, stopping := none, resWait := [] }

/-- The image is loaded (R415). -/
def M.load (m : M) (im : Image) : M :=
  let gen := m.gen + 1
  let bound (w : Nat) (wd : World) : AMap World → AMap World := fun ws => if wd.part.isSome then put ws w wd.reborn else ws
  let tiles := im.parts.flatMap fun (_, p) => p.tiles
  let m1 : M :=
    { m with
      gen := gen, fmem := im.fmem, lines := im.lines, frames := im.frames, parts := mapV (fun _ p => p.reborn gen) im.parts,
      worlds := im.worlds.foldl (fun ws (w, wd) => bound w wd ws) m.worlds, wts := im.wts, wqs := im.wqs, launches := im.launches,
      clusters := im.clusters, teams := im.teams, acc := im.acc, expiry := [], hot := [], stale := [], failed := [],
      ecc := m.ecc.filter fun l => decide (2 ^ 60 ≤ l) }
  let m2 := tiles.foldl (fun (m : M) t => m.setTile t { halt := (m.tile t).halt, cycle := (m.tile t).cycle }) m1
  (m2.parts.map (·.1)).foldl (fun (m : M) i => m.rename i some) m2

/-- SNAPSHOT_COMPLETE (R414, R415): `ok` says that every port carried its images, or that every trailer's signature verified.
A trailer wrapped under another domain key fails its seal. -/
def M.snapDone (m : M) (ok : Bool) : Option M :=
  let used := (m.parts.filter fun (_, p) => p.used).map (·.1)
  let go (m : M) : M := used.foldl (fun (m : M) i => if (m.part i).quiesce = 3 then m.resume i else m) m
  if m.hearth.snapstat ≠ 1 then none
  else if m.hearth.snapRestore then
    match m.found.filter fun im => im.domain == m.hearth.domain, ok with
    | some im, true => some ((m.load im).snapEnds 2)
    | _, _ => some (((m.fields.filter fun (_, f) => f.pst ≤ 1).map (·.1)).foldl M.clearField m |>.snapEnds 4)
  else if !used.all m.atRest then none
  else if ok then some ((go (m.layImages m.image)).snapEnds 2)
  else some ((go m).snapEnds 4)

def execSnapshotComplete (ok : Bool) (s : State) : Host.Outcome State Fault Refusal := event s fun m => m.snapDone ok

end Sys2Proof.Machine
end

