-- ==== Sys2Proof/Machine/Integer.lean ====
section
/-! DEFINITION. NOP and the integer group, opcodes 0x00 to 0x35 (R59, R68 to R82). -/

namespace Sys2Proof.Machine

/-- The guard of NOP: it has none (R59). -/
def always : Hdr := { pg := 7, pn := false, ac := .ex, la := 0 }

/-- NOP of a length: only the PC advances; no window counts it (R55, R59). -/
def nop (len : Nat) (s : State) : Host.Outcome State Fault Refusal :=
  issue always { len := len, counted := false, once := true } s fun _ m => .done m

def execNop64 (s : State) : Host.Outcome State Fault Refusal := nop 8 s
def execNop96 (s : State) : Host.Outcome State Fault Refusal := nop 12 s
def execNop128 (s : State) : Host.Outcome State Fault Refusal := nop 16 s

/-! ## Integer arithmetic (Table 4-2) -/

def execAdd (h : Hdr) (d a : BitVec 8) (b : Src) (s : State) : Host.Outcome State Fault Refusal :=
  twoSource h d a b s fun x y => x + y
def execAddi (h : Hdr) (d a : BitVec 8) (imm : W32) (s : State) : Host.Outcome State Fault Refusal :=
  setReg h (regForm 12 d 1 (one a)) d s fun th => th.xr a.toNat + imm
def execSub (h : Hdr) (d a : BitVec 8) (b : Src) (s : State) : Host.Outcome State Fault Refusal :=
  twoSource h d a b s fun x y => x - y
def execMul (h : Hdr) (d a : BitVec 8) (b : Src) (s : State) : Host.Outcome State Fault Refusal :=
  twoSource h d a b s (fun x y => x * y) .exOnly
def execMulh (h : Hdr) (d a : BitVec 8) (b : Src) (s : State) : Host.Outcome State Fault Refusal :=
  twoSource h d a b s mulhV .exOnly
def execMulhu (h : Hdr) (d a : BitVec 8) (b : Src) (s : State) : Host.Outcome State Fault Refusal :=
  twoSource h d a b s mulhuV .exOnly
/-- MULW writes both halves of its pair (R15, R71). -/
def execMulw (h : Hdr) (u : Bool) (d a : BitVec 8) (b : Src) (s : State) : Host.Outcome State Fault Refusal :=
  issue h (regForm 8 d 2 (one a ++ b.vecs) .exOnly) s fun c m =>
    .done (m.onLanes c fun _ th => th.setPair d.toNat (mulwV u (th.xr a.toNat) (srcV th b)))
def execMad (h : Hdr) (d a b : BitVec 8) (t : Src) (s : State) : Host.Outcome State Fault Refusal :=
  threeSource h d a b t s (fun x y z => x * y + z) .exOnly
def execDiv (h : Hdr) (d a : BitVec 8) (b : Src) (s : State) : Host.Outcome State Fault Refusal := twoSource h d a b s divS
def execDivu (h : Hdr) (d a : BitVec 8) (b : Src) (s : State) : Host.Outcome State Fault Refusal := twoSource h d a b s divU
def execRem (h : Hdr) (d a : BitVec 8) (b : Src) (s : State) : Host.Outcome State Fault Refusal := twoSource h d a b s remS
def execRemu (h : Hdr) (d a : BitVec 8) (b : Src) (s : State) : Host.Outcome State Fault Refusal := twoSource h d a b s remU
def execAbs (h : Hdr) (sat : Bool) (d a : BitVec 8) (s : State) : Host.Outcome State Fault Refusal :=
  unary h d a s (absV sat)
def execNeg (h : Hdr) (sat : Bool) (d a : BitVec 8) (s : State) : Host.Outcome State Fault Refusal :=
  unary h d a s (negV sat)
def execMin (h : Hdr) (d a : BitVec 8) (b : Src) (s : State) : Host.Outcome State Fault Refusal :=
  twoSource h d a b s fun x y => if x.toInt ≤ y.toInt then x else y
def execMax (h : Hdr) (d a : BitVec 8) (b : Src) (s : State) : Host.Outcome State Fault Refusal :=
  twoSource h d a b s fun x y => if y.toInt ≤ x.toInt then x else y
def execMinu (h : Hdr) (d a : BitVec 8) (b : Src) (s : State) : Host.Outcome State Fault Refusal :=
  twoSource h d a b s fun x y => if x.toNat ≤ y.toNat then x else y
def execMaxu (h : Hdr) (d a : BitVec 8) (b : Src) (s : State) : Host.Outcome State Fault Refusal :=
  twoSource h d a b s fun x y => if y.toNat ≤ x.toNat then x else y
def execAddsat (h : Hdr) (u : Bool) (d a : BitVec 8) (b : Src) (s : State) : Host.Outcome State Fault Refusal :=
  twoSource h d a b s (addsatV u)
def execSubsat (h : Hdr) (u : Bool) (d a : BitVec 8) (b : Src) (s : State) : Host.Outcome State Fault Refusal :=
  twoSource h d a b s (subsatV u)

/-! ## Logic, shifts and bit fields (Table 4-4, R74, R75) -/

def execAnd (h : Hdr) (d a : BitVec 8) (b : Src) (s : State) : Host.Outcome State Fault Refusal :=
  twoSource h d a b s fun x y => x &&& y
def execOr (h : Hdr) (d a : BitVec 8) (b : Src) (s : State) : Host.Outcome State Fault Refusal :=
  twoSource h d a b s fun x y => x ||| y
def execXor (h : Hdr) (d a : BitVec 8) (b : Src) (s : State) : Host.Outcome State Fault Refusal :=
  twoSource h d a b s fun x y => x ^^^ y
def execAndn (h : Hdr) (d a : BitVec 8) (b : Src) (s : State) : Host.Outcome State Fault Refusal :=
  twoSource h d a b s fun x y => x &&& ~~~y
def execOrn (h : Hdr) (d a : BitVec 8) (b : Src) (s : State) : Host.Outcome State Fault Refusal :=
  twoSource h d a b s fun x y => x ||| ~~~y
def execShl (h : Hdr) (d a : BitVec 8) (b : Src) (s : State) : Host.Outcome State Fault Refusal := twoSource h d a b s shlV
def execShr (h : Hdr) (d a : BitVec 8) (b : Src) (s : State) : Host.Outcome State Fault Refusal := twoSource h d a b s shrV
def execSar (h : Hdr) (d a : BitVec 8) (b : Src) (s : State) : Host.Outcome State Fault Refusal := twoSource h d a b s sarV
def execRotl (h : Hdr) (d a : BitVec 8) (b : Src) (s : State) : Host.Outcome State Fault Refusal := twoSource h d a b s rotlV
def execFunnel (h : Hdr) (d a b : BitVec 8) (t : Src) (s : State) : Host.Outcome State Fault Refusal :=
  threeSource h d a b t s funnelV
def execClz (h : Hdr) (d a : BitVec 8) (s : State) : Host.Outcome State Fault Refusal := unary h d a s clzV
def execCtz (h : Hdr) (d a : BitVec 8) (s : State) : Host.Outcome State Fault Refusal := unary h d a s ctzV
def execPopc (h : Hdr) (d a : BitVec 8) (s : State) : Host.Outcome State Fault Refusal := unary h d a s popcV
def execBrev (h : Hdr) (d a : BitVec 8) (s : State) : Host.Outcome State Fault Refusal := unary h d a s brevV
def execBfe (h : Hdr) (sg : Bool) (pos : BitVec 5) (len : BitVec 6) (d a : BitVec 8) (s : State) :
    Host.Outcome State Fault Refusal := unary h d a s (bfeV sg pos.toNat len.toNat)
def execBfi (h : Hdr) (pos : BitVec 5) (len : BitVec 6) (d a b : BitVec 8) (s : State) :
    Host.Outcome State Fault Refusal :=
  setReg h (regForm 8 d 1 (one a ++ one b)) d s fun th => bfiV pos.toNat len.toNat (th.xr a.toNat) (th.xr b.toNat)
def execBytep (h : Hdr) (fk : FillKind) (d a b : BitVec 8) (t : Src) (s : State) : Host.Outcome State Fault Refusal :=
  threeSource h d a b t s (bytepV fk)
def execSext (h : Hdr) (d a : BitVec 8) (b : Src) (s : State) : Host.Outcome State Fault Refusal := twoSource h d a b s sextV
def execZext (h : Hdr) (d a : BitVec 8) (b : Src) (s : State) : Host.Outcome State Fault Refusal := twoSource h d a b s zextV

/-! ## Moves, selects, compares and predicates (R76 to R80) -/

def execMovVector (h : Hdr) (d a : BitVec 8) (s : State) : Host.Outcome State Fault Refusal := unary h d a s fun x => x
def execMovPairFromUniform (h : Hdr) (d : BitVec 8) (a : BitVec 6) (s : State) : Host.Outcome State Fault Refusal :=
  issue h { regForm 8 d 2 [] with uni := [a.toNat] } s fun c m =>
    .done (m.onLanes c fun _ th => th.setPair d.toNat (c.g.kr a.toNat))
def execMovUniformFromPair (h : Hdr) (d : BitVec 6) (a : BitVec 8) (s : State) : Host.Outcome State Fault Refusal :=
  issue h (srcForm 8 [(a.toNat, 2)] [d.toNat]) s fun c m => .done (m.setUni c d.toNat fun th => th.xpair a.toNat)
def execMovUniform (h : Hdr) (d a : BitVec 6) (s : State) : Host.Outcome State Fault Refusal :=
  issue h (srcForm 8 [] [d.toNat, a.toNat]) s fun c m => .done (m.setUni c d.toNat fun _ => c.g.kr a.toNat)
def execMoviVector (h : Hdr) (d : BitVec 8) (imm : W32) (s : State) : Host.Outcome State Fault Refusal :=
  setReg h (regForm 12 d 1 []) d s fun _ => imm
def execMoviUniform (h : Hdr) (d : BitVec 6) (imm : W32) (s : State) : Host.Outcome State Fault Refusal :=
  issue h (srcForm 12 [] [d.toNat]) s fun c m => .done (m.setUni c d.toNat fun _ => imm.signExtend 64)
def execMovqPair (h : Hdr) (d : BitVec 8) (imm : W64) (s : State) : Host.Outcome State Fault Refusal :=
  issue h (regForm 16 d 2 []) s fun c m => .done (m.onLanes c fun _ th => th.setPair d.toNat imm)
def execMovqUniform (h : Hdr) (d : BitVec 6) (imm : W64) (s : State) : Host.Outcome State Fault Refusal :=
  issue h (srcForm 16 [] [d.toNat]) s fun c m => .done (m.setUni c d.toNat fun _ => imm)
def execSel (h : Hdr) (d a : BitVec 8) (p : BitVec 3) (t : Src) (s : State) : Host.Outcome State Fault Refusal :=
  setReg h (regForm 8 d 1 (one a ++ t.vecs)) d s fun th => if th.pr p then th.xr a.toNat else srcV th t
def execCmp (h : Hdr) (c : Cond) (pd : BitVec 3) (a : BitVec 8) (b : Src) (s : State) : Host.Outcome State Fault Refusal :=
  setPred h (srcForm 8 (one a ++ b.vecs)) pd s fun _ th => condV c (th.xr a.toNat) (srcV th b)
def execCmpi (h : Hdr) (c : Cond) (pd : BitVec 3) (a : BitVec 8) (imm : W32) (s : State) :
    Host.Outcome State Fault Refusal :=
  setPred h (srcForm 12 (one a)) pd s fun _ th => condV c (th.xr a.toNat) imm
def execPlop (h : Hdr) (pd pa pb : BitVec 3) (tt : BitVec 4) (s : State) : Host.Outcome State Fault Refusal :=
  setPred h (srcForm 8 []) pd s fun _ th => plopV tt (th.pr pa) (th.pr pb)
def execPmovToRegister (h : Hdr) (d : BitVec 8) (s : State) : Host.Outcome State Fault Refusal :=
  setReg h (regForm 8 d 1 []) d s fun th => (predsV th).setWidth 32
def execPmovFromRegister (h : Hdr) (a : BitVec 8) (s : State) : Host.Outcome State Fault Refusal :=
  issue h (srcForm 8 (one a)) s fun c m =>
    .done (m.onLanes c fun _ th => { th with p := (th.xr a.toNat).extractLsb' 0 8 ||| 0x80#8 })

/-! ## 64-bit and address instructions (R81, R82) -/

def execAdd64 (h : Hdr) (d a : Opd64) (b : Src64) (s : State) : Host.Outcome State Fault Refusal :=
  wide h d a b s fun x y => x + y
def execSub64 (h : Hdr) (d a : Opd64) (b : Src64) (s : State) : Host.Outcome State Fault Refusal :=
  wide h d a b s fun x y => x - y
def execShl64 (h : Hdr) (d a : Opd64) (b : Src64) (s : State) : Host.Outcome State Fault Refusal := wide h d a b s shl64V
def execShr64 (h : Hdr) (ar : Bool) (d a : Opd64) (b : Src64) (s : State) : Host.Outcome State Fault Refusal :=
  wide h d a b s (shr64V ar)
/-- CMP64; UF only chooses the kinds of A and B, which they already carry (R81). -/
def execCmp64 (h : Hdr) (_uf : Bool) (c : Cond) (pd : BitVec 3) (a : Opd64) (b : Src64) (s : State) :
    Host.Outcome State Fault Refusal :=
  setPred h (srcForm 8 (a.vecs ++ b.vecs) (a.unis ++ b.unis)) pd s fun g th => condV c (opdV g th a) (src64V g th b)
def execLea (h : Hdr) (w : Bool) (sh : BitVec 3) (d a b : Opd64) (imm : W32) (s : State) :
    Host.Outcome State Fault Refusal :=
  issue h (wideForm 12 d (a.vecs ++ b.vecs) (a.unis ++ b.unis)) s fun c m =>
    .done (m.setOpd c d fun th => leaV w sh (opdV c.g th a) (opdV c.g th b) imm)

end Sys2Proof.Machine
end

