-- ==== Sys2Proof/Machine/Dispatch.lean ====
section
/-! DEFINITION. The meaning of each constructor of Instr. -/

namespace Sys2Proof.Machine

def exec (i : Instr) (s : State) : Host.Outcome State Fault Refusal :=
  match i with
  | .nop64 => Sys2Proof.Machine.execNop64 s
  | .nop96 => Sys2Proof.Machine.execNop96 s
  | .nop128 => Sys2Proof.Machine.execNop128 s
  | .add h d a src => Sys2Proof.Machine.execAdd h d a src s
  | .addi h d a imm => Sys2Proof.Machine.execAddi h d a imm s
  | .sub h d a src => Sys2Proof.Machine.execSub h d a src s
  | .mul h d a src => Sys2Proof.Machine.execMul h d a src s
  | .mulh h d a src => Sys2Proof.Machine.execMulh h d a src s
  | .mulhu h d a src => Sys2Proof.Machine.execMulhu h d a src s
  | .mulw h u d a src => Sys2Proof.Machine.execMulw h u d a src s
  | .mad h d a b t => Sys2Proof.Machine.execMad h d a b t s
  | .div h d a src => Sys2Proof.Machine.execDiv h d a src s
  | .divu h d a src => Sys2Proof.Machine.execDivu h d a src s
  | .rem h d a src => Sys2Proof.Machine.execRem h d a src s
  | .remu h d a src => Sys2Proof.Machine.execRemu h d a src s
  | .abs h sat d a => Sys2Proof.Machine.execAbs h sat d a s
  | .neg h sat d a => Sys2Proof.Machine.execNeg h sat d a s
  | .min h d a src => Sys2Proof.Machine.execMin h d a src s
  | .max h d a src => Sys2Proof.Machine.execMax h d a src s
  | .minu h d a src => Sys2Proof.Machine.execMinu h d a src s
  | .maxu h d a src => Sys2Proof.Machine.execMaxu h d a src s
  | .addsat h u d a src => Sys2Proof.Machine.execAddsat h u d a src s
  | .subsat h u d a src => Sys2Proof.Machine.execSubsat h u d a src s
  | .and h d a src => Sys2Proof.Machine.execAnd h d a src s
  | .or h d a src => Sys2Proof.Machine.execOr h d a src s
  | .xor h d a src => Sys2Proof.Machine.execXor h d a src s
  | .andn h d a src => Sys2Proof.Machine.execAndn h d a src s
  | .orn h d a src => Sys2Proof.Machine.execOrn h d a src s
  | .shl h d a src => Sys2Proof.Machine.execShl h d a src s
  | .shr h d a src => Sys2Proof.Machine.execShr h d a src s
  | .sar h d a src => Sys2Proof.Machine.execSar h d a src s
  | .rotl h d a src => Sys2Proof.Machine.execRotl h d a src s
  | .funnel h d a b t => Sys2Proof.Machine.execFunnel h d a b t s
  | .clz h d a => Sys2Proof.Machine.execClz h d a s
  | .ctz h d a => Sys2Proof.Machine.execCtz h d a s
  | .popc h d a => Sys2Proof.Machine.execPopc h d a s
  | .brev h d a => Sys2Proof.Machine.execBrev h d a s
  | .bfe h sg pos len d a => Sys2Proof.Machine.execBfe h sg pos len d a s
  | .bfi h pos len d a b => Sys2Proof.Machine.execBfi h pos len d a b s
  | .bytep h fk d a b t => Sys2Proof.Machine.execBytep h fk d a b t s
  | .sext h d a src => Sys2Proof.Machine.execSext h d a src s
  | .zext h d a src => Sys2Proof.Machine.execZext h d a src s
  | .movVector h d a => Sys2Proof.Machine.execMovVector h d a s
  | .movPairFromUniform h d a => Sys2Proof.Machine.execMovPairFromUniform h d a s
  | .movUniformFromPair h d a => Sys2Proof.Machine.execMovUniformFromPair h d a s
  | .movUniform h d a => Sys2Proof.Machine.execMovUniform h d a s
  | .moviVector h d imm => Sys2Proof.Machine.execMoviVector h d imm s
  | .moviUniform h d imm => Sys2Proof.Machine.execMoviUniform h d imm s
  | .movqPair h d imm => Sys2Proof.Machine.execMovqPair h d imm s
  | .movqUniform h d imm => Sys2Proof.Machine.execMovqUniform h d imm s
  | .sel h d a p t => Sys2Proof.Machine.execSel h d a p t s
  | .cmp h c pd a src => Sys2Proof.Machine.execCmp h c pd a src s
  | .cmpi h c pd a imm => Sys2Proof.Machine.execCmpi h c pd a imm s
  | .plop h pd pa pb tt => Sys2Proof.Machine.execPlop h pd pa pb tt s
  | .pmovToRegister h d => Sys2Proof.Machine.execPmovToRegister h d s
  | .pmovFromRegister h a => Sys2Proof.Machine.execPmovFromRegister h a s
  | .add64 h d a src => Sys2Proof.Machine.execAdd64 h d a src s
  | .sub64 h d a src => Sys2Proof.Machine.execSub64 h d a src s
  | .shl64 h d a src => Sys2Proof.Machine.execShl64 h d a src s
  | .shr64 h ar d a src => Sys2Proof.Machine.execShr64 h ar d a src s
  | .cmp64 h uf c pd a src => Sys2Proof.Machine.execCmp64 h uf c pd a src s
  | .lea h w sh d a b imm => Sys2Proof.Machine.execLea h w sh d a b imm s
  | .fadd h f d a b => Sys2Proof.Machine.execFadd h f d a b s
  | .fsub h f d a b => Sys2Proof.Machine.execFsub h f d a b s
  | .fmul h f d a b => Sys2Proof.Machine.execFmul h f d a b s
  | .fma h f d a b c => Sys2Proof.Machine.execFma h f d a b c s
  | .fnma h f d a b c => Sys2Proof.Machine.execFnma h f d a b c s
  | .fmin h f d a b => Sys2Proof.Machine.execFmin h f d a b s
  | .fmax h f d a b => Sys2Proof.Machine.execFmax h f d a b s
  | .fsgn h op f d a b => Sys2Proof.Machine.execFsgn h op f d a b s
  | .fcmp h c f pd a b => Sys2Proof.Machine.execFcmp h c f pd a b s
  | .fclass h f d a => Sys2Proof.Machine.execFclass h f d a s
  | .frnd h rm f d a => Sys2Proof.Machine.execFrnd h rm f d a s
  | .frcp h rm d a => Sys2Proof.Machine.execFrcp h rm d a s
  | .frsq h rm d a => Sys2Proof.Machine.execFrsq h rm d a s
  | .fsqrt h rm d a => Sys2Proof.Machine.execFsqrt h rm d a s
  | .fdiv h rm d a b => Sys2Proof.Machine.execFdiv h rm d a b s
  | .fexp2 h rm d a => Sys2Proof.Machine.execFexp2 h rm d a s
  | .flog2 h rm d a => Sys2Proof.Machine.execFlog2 h rm d a s
  | .cvt h rm sat st0 dt se de merge d a => Sys2Proof.Machine.execCvt h rm sat st0 dt se de merge d a s
  | .hadd2 h f d a b => Sys2Proof.Machine.execHadd2 h f d a b s
  | .hmul2 h f d a b => Sys2Proof.Machine.execHmul2 h f d a b s
  | .hfma2 h f d a b c => Sys2Proof.Machine.execHfma2 h f d a b c s
  | .hmin2 h f d a b => Sys2Proof.Machine.execHmin2 h f d a b s
  | .hmax2 h f d a b => Sys2Proof.Machine.execHmax2 h f d a b s
  | .fdot2 h f d a b c => Sys2Proof.Machine.execFdot2 h f d a b c s
  | .dot4 h ua ub d a b c => Sys2Proof.Machine.execDot4 h ua ub d a b c s
  | .br h live target => Sys2Proof.Machine.execBr h live target s
  | .brx h a => Sys2Proof.Machine.execBrx h a s
  | .call h target => Sys2Proof.Machine.execCall h target s
  | .callx h a => Sys2Proof.Machine.execCallx h a s
  | .ret h => Sys2Proof.Machine.execRet h s
  | .exit h => Sys2Proof.Machine.execExit h s
  | .ld h d sx m => Sys2Proof.Machine.execLd h d sx m s
  | .st h m b => Sys2Proof.Machine.execSt h m b s
  | .pref h base off lc hint => Sys2Proof.Machine.execPref h base off lc hint s
  | .ldg h d sx sidx sh c m => Sys2Proof.Machine.execLdg h d sx sidx sh c m s
  | .stg h m sidx sh c b => Sys2Proof.Machine.execStg h m sidx sh c b s
  | .ldsl h d sx sz slab a off => Sys2Proof.Machine.execLdsl h d sx sz slab a off s
  | .stsl h sz slab a off b => Sys2Proof.Machine.execStsl h sz slab a off b s
  | .ldt h fl d hb a o0 o x => Sys2Proof.Machine.execLdt h fl d hb a o0 o x s
  | .stt h fl hb a c o0 o x => Sys2Proof.Machine.execStt h fl hb a c o0 o x s
  | .atom h op d m b c => Sys2Proof.Machine.execAtom h op d m b c s
  | .ldl h d m => Sys2Proof.Machine.execLdl h d m s
  | .stc h d m b => Sys2Proof.Machine.execStc h d m b s
  | .fence h dir scope i0 rest => Sys2Proof.Machine.execFence h dir scope i0 rest s
  | .fenceAll h => Sys2Proof.Machine.execFenceAll h s
  | .fenceEnd t slot => Sys2Proof.Machine.execFenceEnd t slot s
  | .ftag h c it => Sys2Proof.Machine.execFtag h c it s
  | .funtag h c => Sys2Proof.Machine.execFuntag h c s
  | .cflush h base off n => Sys2Proof.Machine.execCflush h base off n s
  | .cinv h base off n => Sys2Proof.Machine.execCinv h base off n s
  | .enter h n => Sys2Proof.Machine.execEnter h n s
  | .leave h n => Sys2Proof.Machine.execLeave h n s
  | .topen h w d b => Sys2Proof.Machine.execTopen h w d b s
  | .topenNew h w d b a off => Sys2Proof.Machine.execTopenNew h w d b a off s
  | .tclose h free a => Sys2Proof.Machine.execTclose h free a s
  | .hbind h slab a loc fmt span size => Sys2Proof.Machine.execHbind h slab a loc fmt span size s
  | .hbindRel h slab => Sys2Proof.Machine.execHbindRel h slab s
  | .slabq h d slab => Sys2Proof.Machine.execSlabq h d slab s
  | .spawn h live a b target => Sys2Proof.Machine.execSpawn h live a b target s
  | .meet h target => Sys2Proof.Machine.execMeet h target s
  | .vote h op => Sys2Proof.Machine.execVote h op s
  | .shfl h op wc d a src => Sys2Proof.Machine.execShfl h op wc d a src s
  | .lreduce h op d a => Sys2Proof.Machine.execLreduce h op d a s
  | .lscan h op excl d a => Sys2Proof.Machine.execLscan h op excl d a s
  | .lscanRank h kt d a b => Sys2Proof.Machine.execLscanRank h kt d a b s
  | .selmax h kt d a b pc => Sys2Proof.Machine.execSelmax h kt d a b pc s
  | .selmin h kt d a b pc => Sys2Proof.Machine.execSelmin h kt d a b pc s
  | .barT h n => Sys2Proof.Machine.execBarT h n s
  | .barC h n => Sys2Proof.Machine.execBarC h n s
  | .arrive h cl n d => Sys2Proof.Machine.execArrive h cl n d s
  | .await h cl n a => Sys2Proof.Machine.execAwait h cl n a s
  | .grow h n => Sys2Proof.Machine.execGrow h n s
  | .growGrant t => Sys2Proof.Machine.execGrowGrant t s
  | .shrink h n => Sys2Proof.Machine.execShrink h n s
  | .rng h d => Sys2Proof.Machine.execRng h d s
  | .rngk h d a => Sys2Proof.Machine.execRngk h d a s
  | .movs h d sel => Sys2Proof.Machine.execMovs h d sel s
  | .chainLink h ch a off => Sys2Proof.Machine.execChainLink h ch a off s
  | .chainAdv h ch => Sys2Proof.Machine.execChainAdv h ch s
  | .pilotRequestService t => Sys2Proof.Machine.execPilotRequestService t s
  | .condw h add cw a => Sys2Proof.Machine.execCondw h add cw a s
  | .sacq h sem => Sys2Proof.Machine.execSacq h sem s
  | .stry h pd sem => Sys2Proof.Machine.execStry h pd sem s
  | .sqry h d sem => Sys2Proof.Machine.execSqry h d sem s
  | .semaphoreRequestMet t sem => Sys2Proof.Machine.execSemaphoreRequestMet t sem s
  | .claim h r => Sys2Proof.Machine.execClaim h r s
  | .release h r => Sys2Proof.Machine.execRelease h r s
  | .claimReleaseFree t slot => Sys2Proof.Machine.execClaimReleaseFree t slot s
  | .ofill h span d b a => Sys2Proof.Machine.execOfill h span d b a s
  | .mma h d a b c koff => Sys2Proof.Machine.execMma h d a b c koff s
  | .mmat h d a b c koff => Sys2Proof.Machine.execMmat h d a b c koff s
  | .anvilAccept t slot => Sys2Proof.Machine.execAnvilAccept t slot s
  | .anvilPassComplete t => Sys2Proof.Machine.execAnvilPassComplete t s
  | .accz h a n => Sys2Proof.Machine.execAccz h a n s
  | .accrd h p half d a => Sys2Proof.Machine.execAccrd h p half d a s
  | .accrdSt h d a => Sys2Proof.Machine.execAccrdSt h d a s
  | .accrdWriteback t slot op => Sys2Proof.Machine.execAccrdWriteback t slot op s
  | .accwr h af p half d a => Sys2Proof.Machine.execAccwr h af p half d a s
  | .accwrSt h d a => Sys2Proof.Machine.execAccwrSt h d a s
  | .treeadd h d a l c => Sys2Proof.Machine.execTreeadd h d a l c s
  | .accfin h a => Sys2Proof.Machine.execAccfin h a s
  | .trap h code => Sys2Proof.Machine.execTrap h code s
  | .rfe h v a => Sys2Proof.Machine.execRfe h v a s
  | .region h => Sys2Proof.Machine.execRegion h s
  | .yield h => Sys2Proof.Machine.execYield h s
  | .bkpt h => Sys2Proof.Machine.execBkpt h s
  | .mfsr h d sr => Sys2Proof.Machine.execMfsr h d sr s
  | .mtsr h sr a => Sys2Proof.Machine.execMtsr h sr a s
  | .faultq h d a => Sys2Proof.Machine.execFaultq h d a s
  | .acct h d a => Sys2Proof.Machine.execAcct h d a s
  | .lrec h d a => Sys2Proof.Machine.execLrec h d a s
  | .send h sz r a => Sys2Proof.Machine.execSend h sz r a s
  | .sendTo h sz b dr a => Sys2Proof.Machine.execSendTo h sz b dr a s
  | .recv h sz d r m => Sys2Proof.Machine.execRecv h sz d r m s
  | .rld h d sx base off sz => Sys2Proof.Machine.execRld h d sx base off sz s
  | .rst h base off sz b => Sys2Proof.Machine.execRst h base off sz b s
  | .ratom h op d base off sz b c => Sys2Proof.Machine.execRatom h op d base off sz b c s
  | .hatom h op f d base off sz b c => Sys2Proof.Machine.execHatom h op f d base off sz b c s
  | .genqIdx h d a => Sys2Proof.Machine.execGenqIdx h d a s
  | .genqFix h d a => Sys2Proof.Machine.execGenqFix h d a s
  | .binTimerExpiry t b => Sys2Proof.Machine.execBinTimerExpiry t b s
  | .groupFormation t b => Sys2Proof.Machine.execGroupFormation t b s
  | .landingAdmission t => Sys2Proof.Machine.execLandingAdmission t s
  | .launchStart q => Sys2Proof.Machine.execLaunchStart q s
  | .clusterPlacement l => Sys2Proof.Machine.execClusterPlacement l s
  | .launchComplete l => Sys2Proof.Machine.execLaunchComplete l s
  | .gridStall l => Sys2Proof.Machine.execGridStall l s
  | .ticketRelease l => Sys2Proof.Machine.execTicketRelease l s
  | .homeRead a => Sys2Proof.Machine.execHomeRead a s
  | .homeWrite a => Sys2Proof.Machine.execHomeWrite a s
  | .homeAtomic a => Sys2Proof.Machine.execHomeAtomic a s
  | .longLatencyComplete t slot op => Sys2Proof.Machine.execLongLatencyComplete t slot op s
  | .storeAck a => Sys2Proof.Machine.execStoreAck a s
  | .writeCompletionExpiry a => Sys2Proof.Machine.execWriteCompletionExpiry a s
  | .nodeReached t ch => Sys2Proof.Machine.execNodeReached t ch s
  | .inputCopyStart t ch n1 => Sys2Proof.Machine.execInputCopyStart t ch n1 s
  | .nodeDispatch t ch => Sys2Proof.Machine.execNodeDispatch t ch s
  | .kernelNodeFinish t ch => Sys2Proof.Machine.execKernelNodeFinish t ch s
  | .condNode t ch => Sys2Proof.Machine.execCondNode t ch s
  | .whileNode t ch => Sys2Proof.Machine.execWhileNode t ch s
  | .joinNode t ch => Sys2Proof.Machine.execJoinNode t ch s
  | .signalNode t ch => Sys2Proof.Machine.execSignalNode t ch s
  | .inputCopyComplete c => Sys2Proof.Machine.execInputCopyComplete c s
  | .outputCopyComplete c => Sys2Proof.Machine.execOutputCopyComplete c s
  | .slipwayHandoff c => Sys2Proof.Machine.execSlipwayHandoff c s
  | .exclusionLogged e => Sys2Proof.Machine.execExclusionLogged e s
  | .slipwayComplete c ok => Sys2Proof.Machine.execSlipwayComplete c ok s
  | .fetchComplete t va bad => Sys2Proof.Machine.execFetchComplete t va bad s
  | .walkComplete n1 => Sys2Proof.Machine.execWalkComplete n1 s
  | .trapRecordWrite w => Sys2Proof.Machine.execTrapRecordWrite w s
  | .launchFatalEnd l => Sys2Proof.Machine.execLaunchFatalEnd l s
  | .sliceEnd p yielded => Sys2Proof.Machine.execSliceEnd p yielded s
  | .firstSwitch p => Sys2Proof.Machine.execFirstSwitch p s
  | .stopOrder t => Sys2Proof.Machine.execStopOrder t s
  | .tileQuiet t => Sys2Proof.Machine.execTileQuiet t s
  | .swapOrder p => Sys2Proof.Machine.execSwapOrder p s
  | .tileSwap t => Sys2Proof.Machine.execTileSwap t s
  | .spillResource t row => Sys2Proof.Machine.execSpillResource t row s
  | .stepEnd t => Sys2Proof.Machine.execStepEnd t s
  | .dumpComplete w => Sys2Proof.Machine.execDumpComplete w s
  | .invalidationComplete w => Sys2Proof.Machine.execInvalidationComplete w s
  | .cut n1 => Sys2Proof.Machine.execCut n1 s
  | .dissolve n1 => Sys2Proof.Machine.execDissolve n1 s
  | .bindWorld n1 => Sys2Proof.Machine.execBindWorld n1 s
  | .unbindWorld n1 => Sys2Proof.Machine.execUnbindWorld n1 s
  | .grant n1 => Sys2Proof.Machine.execGrant n1 s
  | .reclaim n1 => Sys2Proof.Machine.execReclaim n1 s
  | .quantum n1 => Sys2Proof.Machine.execQuantum n1 s
  | .reshapeGrow n1 => Sys2Proof.Machine.execReshapeGrow n1 s
  | .reshapeShrink n1 => Sys2Proof.Machine.execReshapeShrink n1 s
  | .reshapeCompact n1 => Sys2Proof.Machine.execReshapeCompact n1 s
  | .reshapeMigrate n1 => Sys2Proof.Machine.execReshapeMigrate n1 s
  | .evict n1 => Sys2Proof.Machine.execEvict n1 s
  | .freeze n1 => Sys2Proof.Machine.execFreeze n1 s
  | .power n1 => Sys2Proof.Machine.execPower n1 s
  | .inrushTokenGrant f => Sys2Proof.Machine.execInrushTokenGrant f s
  | .inrushTokenReturn f => Sys2Proof.Machine.execInrushTokenReturn f s
  | .fieldTransitionComplete f => Sys2Proof.Machine.execFieldTransitionComplete f s
  | .messageArrival m => Sys2Proof.Machine.execMessageArrival m s
  | .cycleCharge t => Sys2Proof.Machine.execCycleCharge t s
  | .quenchComplete t => Sys2Proof.Machine.execQuenchComplete t s
  | .tableChangeComplete w => Sys2Proof.Machine.execTableChangeComplete w s
  | .landingOverflowMove t n out => Sys2Proof.Machine.execLandingOverflowMove t n out s
  | .submission q off data => Sys2Proof.Machine.execSubmission q off data s
  | .wqctlWrite q v => Sys2Proof.Machine.execWqctlWrite q v s
  | .leaseExpiry t line => Sys2Proof.Machine.execLeaseExpiry t line s
  | .hotExpiry line => Sys2Proof.Machine.execHotExpiry line s
  | .shadowPreload t => Sys2Proof.Machine.execShadowPreload t s
  | .debugStop w bits => Sys2Proof.Machine.execDebugStop w bits s
  | .debugStep w team => Sys2Proof.Machine.execDebugStep w team s
  | .debugDump w => Sys2Proof.Machine.execDebugDump w s
  | .debugLcen w on => Sys2Proof.Machine.execDebugLcen w on s
  | .tqbaseWrite w v => Sys2Proof.Machine.execTqbaseWrite w v s
  | .tqheadWrite w v => Sys2Proof.Machine.execTqheadWrite w v s
  | .resolveWrite w v => Sys2Proof.Machine.execResolveWrite w v s
  | .routeWrite w r v => Sys2Proof.Machine.execRouteWrite w r v s
  | .modidWrite v => Sys2Proof.Machine.execModidWrite v s
  | .peerWrite p m v => Sys2Proof.Machine.execPeerWrite p m v s
  | .translationInvalidation w v => Sys2Proof.Machine.execTranslationInvalidation w v s
  | .registerWrite r v => Sys2Proof.Machine.execRegisterWrite r v s
  | .powerAlert watts temp => Sys2Proof.Machine.execPowerAlert watts temp s
  | .thermalTrip => Sys2Proof.Machine.execThermalTrip s
  | .moduleReset => Sys2Proof.Machine.execModuleReset s
  | .firmwareLoad p v => Sys2Proof.Machine.execFirmwareLoad p v s
  | .snapshot p v => Sys2Proof.Machine.execSnapshot p v s
  | .restore p v => Sys2Proof.Machine.execRestore p v s
  | .slipwayRetryExpiry c => Sys2Proof.Machine.execSlipwayRetryExpiry c s
  | .treeNodeRepair f level line ok => Sys2Proof.Machine.execTreeNodeRepair f level line ok s
  | .packetArrival t pk => Sys2Proof.Machine.execPacketArrival t pk s
  | .linkStop t dir vc => Sys2Proof.Machine.execLinkStop t dir vc s
  | .linkGo t dir vc => Sys2Proof.Machine.execLinkGo t dir vc s
  | .hostCompletion a st0 => Sys2Proof.Machine.execHostCompletion a st0 s
  | .atomicPointService a st0 => Sys2Proof.Machine.execAtomicPointService a st0 s
  | .remoteRequest r => Sys2Proof.Machine.execRemoteRequest r s
  | .remoteResponse a r => Sys2Proof.Machine.execRemoteResponse a r s
  | .remoteTimeout a => Sys2Proof.Machine.execRemoteTimeout a s
  | .wharfLinkDown l => Sys2Proof.Machine.execWharfLinkDown l s
  | .wharfLinkUp l => Sys2Proof.Machine.execWharfLinkUp l s
  | .lockInterface w => Sys2Proof.Machine.execLockInterface w s
  | .startInterface w => Sys2Proof.Machine.execStartInterface w s
  | .stopInterface w => Sys2Proof.Machine.execStopInterface w s
  | .getTdispVersion w => Sys2Proof.Machine.execGetTdispVersion w s
  | .getTdispCapabilities w => Sys2Proof.Machine.execGetTdispCapabilities w s
  | .getDeviceInterfaceReport w => Sys2Proof.Machine.execGetDeviceInterfaceReport w s
  | .getDeviceInterfaceState w => Sys2Proof.Machine.execGetDeviceInterfaceState w s
  | .getVersion w => Sys2Proof.Machine.execGetVersion w s
  | .getCapabilities w => Sys2Proof.Machine.execGetCapabilities w s
  | .negotiateAlgorithms w => Sys2Proof.Machine.execNegotiateAlgorithms w s
  | .getDigests w => Sys2Proof.Machine.execGetDigests w s
  | .getCertificate w => Sys2Proof.Machine.execGetCertificate w s
  | .challenge w => Sys2Proof.Machine.execChallenge w s
  | .getMeasurements w q => Sys2Proof.Machine.execGetMeasurements w q s
  | .keyExchange w period => Sys2Proof.Machine.execKeyExchange w period s
  | .finish w => Sys2Proof.Machine.execFinish w s
  | .heartbeat w => Sys2Proof.Machine.execHeartbeat w s
  | .keyUpdate w => Sys2Proof.Machine.execKeyUpdate w s
  | .endSession w => Sys2Proof.Machine.execEndSession w s
  | .vendorDefinedKeyInstall w key => Sys2Proof.Machine.execVendorDefinedKeyInstall w key s
  | .ideKm w => Sys2Proof.Machine.execIdeKm w s
  | .ideIntegrityFailure w => Sys2Proof.Machine.execIdeIntegrityFailure w s
  | .heartbeatLost w => Sys2Proof.Machine.execHeartbeatLost w s
  | .stackCacheWriteback t line => Sys2Proof.Machine.execStackCacheWriteback t line s
  | .hostCompletionTimeout a => Sys2Proof.Machine.execHostCompletionTimeout a s
  | .commandSubmission p data => Sys2Proof.Machine.execCommandSubmission p data s
  | .tileStateError t kind loc corrected => Sys2Proof.Machine.execTileStateError t kind loc corrected s
  | .meetingArrival t slot => Sys2Proof.Machine.execMeetingArrival t slot s
  | .faultSettle t slot => Sys2Proof.Machine.execFaultSettle t slot s
  | .snapshotComplete ok => Sys2Proof.Machine.execSnapshotComplete ok s
  | .stepIdleTimeout t => Sys2Proof.Machine.execStepIdleTimeout t s

end Sys2Proof.Machine
end

