-- ==== Sys2Proof/Decode.lean ====
section
/-! DEFINITION. From the bytes of a fetch block to an instruction, or to a rejection by name (R48 to R53, R58,
R62, Tables 3-1 to 3-14, 4-1 to 4-9, 5-1, 8-1, 12-2, 15-2, 19-1, 24-1), and the encoder written from the same
tables. -/

namespace Sys2Proof

/-- Every field of a word (Table 3-2); x0 is bits [95:64] and x1 bits [127:96]. -/
structure Fields where
  md : BitVec 6 := 0
  sub : BitVec 6 := 0
  ac : BitVec 2 := 0
  c : BitVec 8 := 0
  b : BitVec 8 := 0
  a : BitVec 8 := 0
  d : BitVec 8 := 0
  la : BitVec 4 := 0
  pn : BitVec 1 := 0
  pg : BitVec 3 := 0
  op : BitVec 8 := 0
  len : BitVec 2 := 0
  x0 : BitVec 32 := 0
  x1 : BitVec 32 := 0
  deriving DecidableEq, Repr

/-- The word that holds the fields. -/
def Fields.pack (f : Fields) : BitVec 128 :=
  f.x1 ++ f.x0 ++ f.md ++ f.sub ++ f.ac ++ f.c ++ f.b ++ f.a ++ f.d ++ f.la ++ f.pn ++ f.pg ++ f.op ++ f.len

/-- The fields of a word (R49, R52). -/
def Fields.unpack (w : BitVec 128) : Fields :=
  { x1 := w.extractLsb' 96 32, x0 := w.extractLsb' 64 32, md := w.extractLsb' 58 6, sub := w.extractLsb' 52 6,
    ac := w.extractLsb' 50 2, c := w.extractLsb' 42 8, b := w.extractLsb' 34 8, a := w.extractLsb' 26 8,
    d := w.extractLsb' 18 8, la := w.extractLsb' 14 4, pn := w.extractLsb' 13 1, pg := w.extractLsb' 10 3,
    op := w.extractLsb' 2 8, len := w.extractLsb' 0 2 }

/-! ## Codes of the operand types -/

def AccClass.code : AccClass → BitVec 2
  | .ex => 0 | .tr => 1 | .lg => 2

def AccClass.ofCode (v : BitVec 2) : Option AccClass :=
  if v = 0#2 then some .ex else if v = 1#2 then some .tr else if v = 2#2 then some .lg else none

def Rm.code : Rm → BitVec 2
  | .rne => 0 | .rz => 1 | .ru => 2 | .rd => 3

def Rm.ofCode (v : BitVec 2) : Rm :=
  if v = 0#2 then .rne else if v = 1#2 then .rz else if v = 2#2 then .ru else .rd

def Fmt.code : Fmt → BitVec 3
  | .f32 => 0 | .f16 => 1 | .bf16 => 2 | .e4m3 => 3 | .e5m2 => 4

def Fmt.ofCode (v : BitVec 3) : Option Fmt :=
  if v = 0#3 then some .f32 else if v = 1#3 then some .f16 else if v = 2#3 then some .bf16
  else if v = 3#3 then some .e4m3 else if v = 4#3 then some .e5m2 else none

def Sz.code : Sz → BitVec 3
  | .b1 => 0 | .b2 => 1 | .b4 => 2 | .b8 => 3 | .b16 => 4

def Sz.ofCode (v : BitVec 3) : Option Sz :=
  if v = 0#3 then some .b1 else if v = 1#3 then some .b2 else if v = 2#3 then some .b4
  else if v = 3#3 then some .b8 else if v = 4#3 then some .b16 else none

def Lc.code : Lc → BitVec 2
  | .dflt => 0 | .long => 1 | .none => 2

def Lc.ofCode (v : BitVec 2) : Option Lc :=
  if v = 0#2 then some .dflt else if v = 1#2 then some .long else if v = 2#2 then some .none else Option.none

def Hint.code : Hint → BitVec 2
  | .normal => 0 | .stream => 1 | .keep => 2

def Hint.ofCode (v : BitVec 2) : Option Hint :=
  if v = 0#2 then some .normal else if v = 1#2 then some .stream else if v = 2#2 then some .keep else none

def Scope.code : Scope → BitVec 3
  | .group => 0 | .team => 1 | .cluster => 2 | .partition => 3 | .field => 4 | .system => 5

def Scope.ofCode (v : BitVec 3) : Option Scope :=
  if v = 0#3 then some .group else if v = 1#3 then some .team else if v = 2#3 then some .cluster
  else if v = 3#3 then some .partition else if v = 4#3 then some .field else if v = 5#3 then some .system else none

def Cond.code : Cond → BitVec 4
  | .eq => 0 | .ne => 1 | .lt => 2 | .le => 3 | .gt => 4 | .ge => 5 | .ltu => 6 | .leu => 7 | .gtu => 8 | .geu => 9

def Cond.ofCode (v : BitVec 4) : Option Cond :=
  if v = 0#4 then some .eq else if v = 1#4 then some .ne else if v = 2#4 then some .lt else if v = 3#4 then some .le
  else if v = 4#4 then some .gt else if v = 5#4 then some .ge else if v = 6#4 then some .ltu
  else if v = 7#4 then some .leu else if v = 8#4 then some .gtu else if v = 9#4 then some .geu else none

def FCond.code : FCond → BitVec 4
  | .eq => 0 | .ne => 1 | .lt => 2 | .le => 3 | .gt => 4 | .ge => 5 | .un => 6 | .ord => 7

def FCond.ofCode (v : BitVec 4) : Option FCond :=
  if v = 0#4 then some .eq else if v = 1#4 then some .ne else if v = 2#4 then some .lt else if v = 3#4 then some .le
  else if v = 4#4 then some .gt else if v = 5#4 then some .ge else if v = 6#4 then some .un
  else if v = 7#4 then some .ord else none

def SgnOp.code : SgnOp → BitVec 6
  | .cp => 0 | .neg => 1 | .xor => 2

def SgnOp.ofCode (v : BitVec 6) : Option SgnOp :=
  if v = 0#6 then some .cp else if v = 1#6 then some .neg else if v = 2#6 then some .xor else none

def FillKind.code : FillKind → BitVec 5
  | .z => 0 | .o => 1 | .sgn => 2

def FillKind.ofCode (v : BitVec 5) : Option FillKind :=
  if v = 0#5 then some .z else if v = 1#5 then some .o else if v = 2#5 then some .sgn else none

def AtomOp.code : AtomOp → BitVec 6
  | .add => 0 | .fadd => 1 | .min => 2 | .max => 3 | .minu => 4 | .maxu => 5 | .and => 6 | .or => 7 | .xor => 8
  | .swap => 9 | .cas => 10 | .ring => 11

def AtomOp.ofCode (v : BitVec 6) : Option AtomOp :=
  if v = 0#6 then some .add else if v = 1#6 then some .fadd else if v = 2#6 then some .min
  else if v = 3#6 then some .max else if v = 4#6 then some .minu else if v = 5#6 then some .maxu
  else if v = 6#6 then some .and else if v = 7#6 then some .or else if v = 8#6 then some .xor
  else if v = 9#6 then some .swap else if v = 10#6 then some .cas else if v = 11#6 then some .ring else none

def HostAtomOp.code : HostAtomOp → BitVec 4
  | .add => 0 | .swap => 9 | .cas => 10

def HostAtomOp.ofCode (v : BitVec 4) : Option HostAtomOp :=
  if v = 0#4 then some .add else if v = 9#4 then some .swap else if v = 10#4 then some .cas else none

def RedOp.code : RedOp → BitVec 4
  | .add => 0 | .min => 1 | .max => 2 | .minu => 3 | .maxu => 4 | .and => 5 | .or => 6 | .xor => 7
  | .fadd => 8 | .fmin => 9 | .fmax => 10

def RedOp.ofCode (v : BitVec 4) : Option RedOp :=
  if v = 0#4 then some .add else if v = 1#4 then some .min else if v = 2#4 then some .max
  else if v = 3#4 then some .minu else if v = 4#4 then some .maxu else if v = 5#4 then some .and
  else if v = 6#4 then some .or else if v = 7#4 then some .xor else if v = 8#4 then some .fadd
  else if v = 9#4 then some .fmin else if v = 10#4 then some .fmax else none

def KeyTy.code : KeyTy → BitVec 2
  | .s32 => 0 | .u32 => 1 | .f32 => 2

def KeyTy.ofCode (v : BitVec 2) : Option KeyTy :=
  if v = 0#2 then some .s32 else if v = 1#2 then some .u32 else if v = 2#2 then some .f32 else none

def ShflOp.code : ShflOp → BitVec 5
  | .idx => 0 | .up => 1 | .down => 2 | .xor => 3

def ShflOp.ofCode (v : BitVec 5) : Option ShflOp :=
  if v = 0#5 then some .idx else if v = 1#5 then some .up else if v = 2#5 then some .down
  else if v = 3#5 then some .xor else none

def FenceDir.code : FenceDir → BitVec 2
  | .acq => 1 | .rel => 2 | .ar => 3

def FenceDir.ofCode (v : BitVec 2) : Option FenceDir :=
  if v = 1#2 then some .acq else if v = 2#2 then some .rel else if v = 3#2 then some .ar else none

def Verdict.code : Verdict → BitVec 6
  | .resume => 0 | .kill => 1 | .fatal => 2

def Verdict.ofCode (v : BitVec 6) : Option Verdict :=
  if v = 0#6 then some .resume else if v = 1#6 then some .kill else if v = 2#6 then some .fatal else none

def Af.code : Af → BitVec 2
  | .f32 => 1 | .i32 => 2

def Af.ofCode (v : BitVec 2) : Option Af :=
  if v = 1#2 then some .f32 else if v = 2#2 then some .i32 else none

def Ty.code : Ty → BitVec 4
  | .f32 => 0 | .f16 => 1 | .bf16 => 2 | .e4m3 => 3 | .e5m2 => 4 | .e8m0 => 5 | .int32 => 6 | .uint32 => 7
  | .int16 => 8 | .uint16 => 9 | .int8 => 10 | .uint8 => 11

def Ty.ofCode (v : BitVec 4) : Option Ty :=
  if v = 0#4 then some .f32 else if v = 1#4 then some .f16 else if v = 2#4 then some .bf16
  else if v = 3#4 then some .e4m3 else if v = 4#4 then some .e5m2 else if v = 5#4 then some .e8m0
  else if v = 6#4 then some .int32 else if v = 7#4 then some .uint32 else if v = 8#4 then some .int16
  else if v = 9#4 then some .uint16 else if v = 10#4 then some .int8 else if v = 11#4 then some .uint8 else none

/-! ## Operand kinds (Table 3-3) -/

/-- Continue only when the condition holds; a field that fails it takes ILLEGAL_ENCODING. -/
def chk (b : Bool) : Option Unit := if b then some () else none

/-- A field of at most `n` bits: every bit above is zero. -/
def narrow {m : Nat} (n : Nat) (v : BitVec m) : Option (BitVec n) :=
  if v.toNat < 2 ^ n then some (v.setWidth n) else none

def pairF (v : BitVec 8) : Option (BitVec 8) := if pairOk v then some v else none
def quadF (v : BitVec 8) : Option (BitVec 8) := if quadOk v then some v else none

def opdF (uf : Bool) (v : BitVec 8) : Option Opd64 :=
  if uf then (narrow 6 v).map .uni else (pairF v).map .pair

def datF (ud : Bool) (sz : Sz) (v : BitVec 8) : Option DataReg :=
  if ud then (if sz = .b16 then none else (narrow 6 v).map .uni)
  else if (DataReg.vec v).ok sz then some (.vec v) else none

/-- The field of a 64-bit operand. -/
def Opd64.field : Opd64 → BitVec 8
  | .pair r => r
  | .uni k => k.setWidth 8

def DataReg.field : DataReg → BitVec 8
  | .vec r => r
  | .uni k => k.setWidth 8

/-- The second source of the two-source pattern (R68). -/
def srcF (ci : Bool) (b c : BitVec 8) : Option Src :=
  if ci then (if b = 0#8 then some (.imm c) else none) else (if c = 0#8 then some (.reg b) else none)

/-- The third source of the three-source pattern (R68). -/
def thirdF (ci : Bool) (c : BitVec 8) : Src := if ci then .imm c else .reg c

def Src.ci : Src → Bool
  | .reg _ => false
  | .imm _ => true

/-- Field B of a two-source instruction. -/
def Src.fb : Src → BitVec 8
  | .reg r => r
  | .imm _ => 0

/-- Field C of a two-source instruction. -/
def Src.fc : Src → BitVec 8
  | .reg _ => 0
  | .imm i => i

/-- Field C of a three-source instruction. -/
def Src.third : Src → BitVec 8
  | .reg r => r
  | .imm i => i

/-- The second source of opcodes 0x30 to 0x34 (R81). -/
def src64F (ci uf : Bool) (b c : BitVec 8) : Option Src64 :=
  if ci then (if b = 0#8 then some (.imm c) else none)
  else (if c = 0#8 then (opdF uf b).map .opd else none)

def Src64.ci : Src64 → Bool
  | .opd _ => false
  | .imm _ => true

def Src64.fb : Src64 → BitVec 8
  | .opd o => o.field
  | .imm _ => 0

def Src64.fc : Src64 → BitVec 8
  | .opd _ => 0
  | .imm i => i

/-- SUB with CI in its top bit (Table 3-4). -/
def ciSub (ci : Bool) (low : BitVec 5) : BitVec 6 := BitVec.ofBool ci ++ low

/-- Bits [4:0] of SUB. -/
def Fields.sub5 (f : Fields) : BitVec 5 := f.sub.extractLsb' 0 5

/-- MOD of a memory instruction (Table 3-4). -/
def memMod (ub ud sx : Bool) (sz : Sz) : BitVec 6 :=
  BitVec.ofBool ub ++ BitVec.ofBool ud ++ BitVec.ofBool sx ++ sz.code

def Fields.ub (f : Fields) : Bool := f.md.getLsbD 5
def Fields.ud (f : Fields) : Bool := f.md.getLsbD 4
def Fields.sx (f : Fields) : Bool := f.md.getLsbD 3
def Fields.szF (f : Fields) : Option Sz := Sz.ofCode (f.md.extractLsb' 0 3)
def Fields.off (f : Fields) : BitVec 24 := f.x0.extractLsb' 0 24

/-- MEMX (Table 3-5). -/
def Fields.memx (f : Fields) : Option MemX := do
  let lc ← Lc.ofCode (f.x0.extractLsb' 30 2)
  let hint ← Hint.ofCode (f.x0.extractLsb' 28 2)
  chk (f.x0.extractLsb' 27 1 == 0#1)
  let scope ← Scope.ofCode (f.x0.extractLsb' 24 3)
  some ⟨lc, hint, scope⟩

/-- The extension of a memory instruction. -/
def memExt (x : MemX) (off : BitVec 24) : BitVec 32 :=
  x.lc.code ++ x.hint.code ++ 0#1 ++ x.scope.code ++ off

/-- MEMX zero. -/
def MemX.zero : MemX := ⟨.dflt, .normal, .group⟩

/-- MOD of a rounding floating-point instruction (Table 3-4). -/
def fMod (rm : Rm) (sat : Bool) (fmt : BitVec 3) : BitVec 6 := fmt ++ BitVec.ofBool sat ++ rm.code

def Fields.rm (f : Fields) : Rm := Rm.ofCode (f.md.extractLsb' 0 2)
def Fields.sat (f : Fields) : Bool := f.md.getLsbD 2
def Fields.fmt (f : Fields) : Option Fmt := Fmt.ofCode (f.md.extractLsb' 3 3)

/-- Guard, class and lookahead, for an instruction marked LL or not (R54, Table 3-14). -/
def Fields.hdr (f : Fields) (ll : Bool) : Option Hdr := do
  let ac ← AccClass.ofCode f.ac
  chk (ll || f.la == 0#4)
  some ⟨f.pg, f.pn == 1#1, ac, f.la⟩

/-- The fields a header gives. -/
def Hdr.put (h : Hdr) (len : BitVec 2) (op : BitVec 8) (f : Fields) : Fields :=
  { f with pg := h.pg, pn := BitVec.ofBool h.pn, ac := h.ac.code, la := h.la, len := len, op := op }

/-! ## The decoders, one shape at a time -/

/-- Two-source, SUB zero but for CI, MOD zero (R68). -/
def decTwo (f : Fields) (k : Hdr → BitVec 8 → BitVec 8 → Src → Instr) : Option Instr := do
  let h ← f.hdr false
  chk (f.md == 0#6 && f.sub5 == 0#5)
  let s ← srcF f.sub.msb f.b f.c
  some (k h f.d f.a s)

def encTwo (op : BitVec 8) (h : Hdr) (d a : BitVec 8) (s : Src) : Fields :=
  h.put 0 op { sub := ciSub s.ci 0, c := s.fc, b := s.fb, a := a, d := d }

/-- Two-source with U in SUB[0] (R71). -/
def decTwoU (f : Fields) (k : Hdr → Bool → BitVec 8 → BitVec 8 → Src → Instr) : Option Instr := do
  let h ← f.hdr false
  let u ← narrow 1 f.sub5
  chk (f.md == 0#6)
  let s ← srcF f.sub.msb f.b f.c
  some (k h (u == 1#1) f.d f.a s)

def encTwoU (op : BitVec 8) (h : Hdr) (u : Bool) (d a : BitVec 8) (s : Src) : Fields :=
  h.put 0 op { sub := ciSub s.ci ((BitVec.ofBool u).setWidth 5), c := s.fc, b := s.fb, a := a, d := d }

/-- Three-source, SUB zero but for CI, MOD zero (R68). -/
def decThree (f : Fields) (k : Hdr → BitVec 8 → BitVec 8 → BitVec 8 → Src → Instr) : Option Instr := do
  let h ← f.hdr false
  chk (f.md == 0#6 && f.sub5 == 0#5)
  some (k h f.d f.a f.b (thirdF f.sub.msb f.c))

def encThree (op : BitVec 8) (h : Hdr) (d a b : BitVec 8) (t : Src) : Fields :=
  h.put 0 op { sub := ciSub t.ci 0, c := t.third, b := b, a := a, d := d }

/-- Unary, SUB and MOD zero (R68). -/
def decOne (f : Fields) (k : Hdr → BitVec 8 → BitVec 8 → Instr) : Option Instr := do
  let h ← f.hdr false
  chk (f.md == 0#6 && f.sub == 0#6 && f.b == 0#8 && f.c == 0#8)
  some (k h f.d f.a)

def encOne (op : BitVec 8) (h : Hdr) (d a : BitVec 8) : Fields := h.put 0 op { a := a, d := d }

/-- Unary with SAT in MOD[2] (R71). -/
def decOneSat (f : Fields) (k : Hdr → Bool → BitVec 8 → BitVec 8 → Instr) : Option Instr := do
  let h ← f.hdr false
  chk ((f.md == 0#6 || f.md == 4#6) && f.sub == 0#6 && f.b == 0#8 && f.c == 0#8)
  some (k h (f.md == 4#6) f.d f.a)

def encOneSat (op : BitVec 8) (h : Hdr) (sat : Bool) (d a : BitVec 8) : Fields :=
  h.put 0 op { md := if sat then 4#6 else 0#6, a := a, d := d }

/-- No operand at all; LEN is the caller's. -/
def decBare (f : Fields) (k : Hdr → Instr) : Option Instr := do
  let h ← f.hdr false
  chk (f.md == 0#6 && f.sub == 0#6 && f.a == 0#8 && f.b == 0#8 && f.c == 0#8 && f.d == 0#8)
  some (k h)

def encBare (op : BitVec 8) (h : Hdr) : Fields := h.put 0 op {}

/-- 64-bit arithmetic with the low bits of SUB given back to the entry (R81). -/
def decWide (f : Fields) (k : Hdr → BitVec 4 → Opd64 → Opd64 → Src64 → Option Instr) : Option Instr := do
  let h ← f.hdr false
  chk (f.md == 0#6)
  let uf := f.sub.getLsbD 4
  let d ← opdF uf f.d
  let a ← opdF uf f.a
  let s ← src64F f.sub.msb uf f.b f.c
  k h (f.sub.extractLsb' 0 4) d a s

/-- SUB with CI and UF (Table 3-4). -/
def wideSub (ci uf : Bool) (low : BitVec 4) : BitVec 6 := BitVec.ofBool ci ++ BitVec.ofBool uf ++ low

def encWide (op : BitVec 8) (h : Hdr) (low : BitVec 4) (d a : Opd64) (s : Src64) : Fields :=
  h.put 0 op { sub := wideSub s.ci a.isUni low, c := s.fc, b := s.fb, a := a.field, d := d.field }

/-- Rounding floating point with FMT, RM and SAT; `two` and `three` say which of B and C are read (Table 5-1). -/
def decF (f : Fields) (okFmt : Fmt → Bool) (b c : Bool) (k : Hdr → FCfg → Instr) : Option Instr := do
  let h ← f.hdr false
  let fm ← f.fmt
  chk (okFmt fm && f.sub == 0#6 && (b || f.b == 0#8) && (c || f.c == 0#8))
  some (k h ⟨f.rm, f.sat, fm⟩)

def encF (op : BitVec 8) (h : Hdr) (g : FCfg) (d a b c : BitVec 8) : Fields :=
  h.put 0 op { md := fMod g.rm g.sat g.fmt.code, d := d, a := a, b := b, c := c }

/-- Floating point with FMT only: RM 00, SAT 0 (Table 5-1). -/
def decFx (f : Fields) (okFmt : Fmt → Bool) (b : Bool) (k : Hdr → Fmt → Option Instr) : Option Instr := do
  let h ← f.hdr false
  let fm ← f.fmt
  chk (okFmt fm && f.md.extractLsb' 0 3 == 0#3 && (b || f.b == 0#8) && f.c == 0#8)
  k h fm

def encFx (op : BitVec 8) (h : Hdr) (sub : BitVec 6) (fm : Fmt) (d a b : BitVec 8) : Fields :=
  h.put 0 op { md := fMod .rne false fm.code, sub := sub, d := d, a := a, b := b }

/-- The long functions: FMT 000, SAT 0 (Table 5-1). -/
def decL (f : Fields) (ll b : Bool) (k : Hdr → Rm → Instr) : Option Instr := do
  let h ← f.hdr ll
  chk (f.md.extractLsb' 2 4 == 0#4 && f.sub == 0#6 && (b || f.b == 0#8) && f.c == 0#8)
  some (k h f.rm)

def encL (op : BitVec 8) (h : Hdr) (rm : Rm) (d a b : BitVec 8) : Fields :=
  h.put 0 op { md := fMod rm false 0, d := d, a := a, b := b }

/-- Opcodes 0x01 to 0x14 (Table 4-2). -/
def decArith (f : Fields) : Option Instr :=
  match f.op.toNat with
  | 0x01 => decTwo f .add
  | 0x02 => do
    let h ← f.hdr false
    chk (f.md == 0#6 && f.sub == 0#6 && f.b == 0#8 && f.c == 0#8)
    some (.addi h f.d f.a f.x0)
  | 0x03 => decTwo f .sub
  | 0x04 => decTwo f .mul
  | 0x05 => decTwo f .mulh
  | 0x06 => decTwo f .mulhu
  | 0x07 => if pairOk f.d then decTwoU f .mulw else none
  | 0x08 => decThree f .mad
  | 0x09 => decTwo f .div
  | 0x0A => decTwo f .divu
  | 0x0B => decTwo f .rem
  | 0x0C => decTwo f .remu
  | 0x0D => decOneSat f .abs
  | 0x0E => decOneSat f .neg
  | 0x0F => decTwo f .min
  | 0x10 => decTwo f .max
  | 0x11 => decTwo f .minu
  | 0x12 => decTwo f .maxu
  | 0x13 => decTwoU f .addsat
  | 0x14 => decTwoU f .subsat
  | _ => none

/-- Opcodes 0x15 to 0x27 (Table 4-4, R74, R75). -/
def decLogic (f : Fields) : Option Instr :=
  match f.op.toNat with
  | 0x15 => decTwo f .and
  | 0x16 => decTwo f .or
  | 0x17 => decTwo f .xor
  | 0x18 => decTwo f .andn
  | 0x19 => decTwo f .orn
  | 0x1A => decTwo f .shl
  | 0x1B => decTwo f .shr
  | 0x1C => decTwo f .sar
  | 0x1D => decTwo f .rotl
  | 0x1E => decThree f .funnel
  | 0x1F => decOne f .clz
  | 0x20 => decOne f .ctz
  | 0x21 => decOne f .popc
  | 0x22 => decOne f .brev
  | 0x23 => do
    let h ← f.hdr false
    chk (f.b == 0#8 && f.c == 0#8 && decide (f.md.toNat ≤ 32) && decide (f.sub5.toNat + f.md.toNat ≤ 32))
    some (.bfe h f.sub.msb f.sub5 f.md f.d f.a)
  | 0x24 => do
    let h ← f.hdr false
    chk (f.sub.msb == false && f.c == 0#8 && decide (f.md.toNat ≤ 32)
      && decide (f.sub5.toNat + f.md.toNat ≤ 32))
    some (.bfi h f.sub5 f.md f.d f.a f.b)
  | 0x25 => do
    let h ← f.hdr false
    let fk ← FillKind.ofCode f.sub5
    chk (f.md == 0#6)
    some (.bytep h fk f.d f.a f.b (thirdF f.sub.msb f.c))
  | 0x26 => decTwo f .sext
  | 0x27 => decTwo f .zext
  | _ => none

/-- Opcodes 0x28 to 0x2F (Table 4-5, R77 to R80). -/
def decMove (f : Fields) : Option Instr :=
  match f.op.toNat with
  | 0x28 => do
    let h ← f.hdr false
    chk (f.md == 0#6 && f.b == 0#8 && f.c == 0#8)
    if f.sub = 0#6 then some (.movVector h f.d f.a)
    else if f.sub = 1#6 then do
      let d ← pairF f.d
      let a ← narrow 6 f.a
      some (.movPairFromUniform h d a)
    else if f.sub = 2#6 then do
      let d ← narrow 6 f.d
      let a ← pairF f.a
      some (.movUniformFromPair h d a)
    else if f.sub = 3#6 then do
      let d ← narrow 6 f.d
      let a ← narrow 6 f.a
      some (.movUniform h d a)
    else none
  | 0x29 => do
    let h ← f.hdr false
    chk (f.md == 0#6 && f.a == 0#8 && f.b == 0#8 && f.c == 0#8)
    if f.sub = 0#6 then some (.moviVector h f.d f.x0)
    else if f.sub = 1#6 then do
      let d ← narrow 6 f.d
      some (.moviUniform h d f.x0)
    else none
  | 0x2A => do
    let h ← f.hdr false
    chk (f.md == 0#6 && f.a == 0#8 && f.b == 0#8 && f.c == 0#8)
    if f.sub = 0#6 then do
      let d ← pairF f.d
      some (.movqPair h d (f.x1 ++ f.x0))
    else if f.sub = 1#6 then do
      let d ← narrow 6 f.d
      some (.movqUniform h d (f.x1 ++ f.x0))
    else none
  | 0x2B => do
    let h ← f.hdr false
    let p ← narrow 3 f.b
    chk (f.md == 0#6 && f.sub5 == 0#5)
    some (.sel h f.d f.a p (thirdF f.sub.msb f.c))
  | 0x2C => do
    let h ← f.hdr false
    let cd ← narrow 4 f.sub5
    let cond ← Cond.ofCode cd
    let pd ← narrow 3 f.d
    chk (f.md == 0#6)
    let s ← srcF f.sub.msb f.b f.c
    some (.cmp h cond pd f.a s)
  | 0x2D => do
    let h ← f.hdr false
    let cd ← narrow 4 f.sub
    let cond ← Cond.ofCode cd
    let pd ← narrow 3 f.d
    chk (f.md == 0#6 && f.b == 0#8 && f.c == 0#8)
    some (.cmpi h cond pd f.a f.x0)
  | 0x2E => do
    let h ← f.hdr false
    let tt ← narrow 4 f.sub
    let pd ← narrow 3 f.d
    let pa ← narrow 3 f.a
    let pb ← narrow 3 f.b
    chk (f.md == 0#6 && f.c == 0#8)
    some (.plop h pd pa pb tt)
  | 0x2F => do
    let h ← f.hdr false
    chk (f.md == 0#6 && f.b == 0#8 && f.c == 0#8)
    if f.sub = 0#6 then (do chk (f.a == 0#8); some (.pmovToRegister h f.d))
    else if f.sub = 1#6 then (do chk (f.d == 0#8); some (.pmovFromRegister h f.a))
    else none
  | _ => none

/-- Opcodes 0x30 to 0x35 (Table 4-7, R82). -/
def decAddr (f : Fields) : Option Instr :=
  match f.op.toNat with
  | 0x30 => decWide f fun h l d a s => if l = 0#4 then some (.add64 h d a s) else none
  | 0x31 => decWide f fun h l d a s => if l = 0#4 then some (.sub64 h d a s) else none
  | 0x32 => decWide f fun h l d a s => if l = 0#4 then some (.shl64 h d a s) else none
  | 0x33 => decWide f fun h l d a s =>
      if l = 0#4 then some (.shr64 h false d a s) else if l = 1#4 then some (.shr64 h true d a s) else none
  | 0x34 => do
    let h ← f.hdr false
    chk (f.md == 0#6)
    let uf := f.sub.getLsbD 4
    let cond ← Cond.ofCode (f.sub.extractLsb' 0 4)
    let pd ← narrow 3 f.d
    let a ← opdF uf f.a
    let s ← src64F f.sub.msb uf f.b f.c
    some (.cmp64 h uf cond pd a s)
  | 0x35 => do
    let h ← f.hdr false
    chk (f.md == 0#6 && f.c == 0#8 && f.sub.msb == false)
    let uf := f.sub.getLsbD 4
    let sh := f.sub.extractLsb' 0 3
    chk (decide (sh.toNat ≤ 4))
    let d ← opdF uf f.d
    let a ← opdF uf f.a
    let b ← opdF uf f.b
    some (.lea h (f.sub.getLsbD 3) sh d a b f.x0)
  | _ => none

/-- Opcodes 0x40 to 0x58 (Table 5-1). -/
def decFloat (f : Fields) : Option Instr :=
  match f.op.toNat with
  | 0x40 => decF f Fmt.scalar true false fun h g => .fadd h g f.d f.a f.b
  | 0x41 => decF f Fmt.scalar true false fun h g => .fsub h g f.d f.a f.b
  | 0x42 => decF f Fmt.scalar true false fun h g => .fmul h g f.d f.a f.b
  | 0x43 => decF f Fmt.scalar true true fun h g => .fma h g f.d f.a f.b f.c
  | 0x44 => decF f Fmt.scalar true true fun h g => .fnma h g f.d f.a f.b f.c
  | 0x45 => decFx f Fmt.scalar true fun h g => if f.sub = 0#6 then some (.fmin h g f.d f.a f.b) else none
  | 0x46 => decFx f Fmt.scalar true fun h g => if f.sub = 0#6 then some (.fmax h g f.d f.a f.b) else none
  | 0x47 => decFx f Fmt.scalar true fun h g => do
      let op ← SgnOp.ofCode f.sub
      some (.fsgn h op g f.d f.a f.b)
  | 0x48 => decFx f Fmt.scalar true fun h g => do
      let cd ← narrow 4 f.sub
      let cond ← FCond.ofCode cd
      let pd ← narrow 3 f.d
      some (.fcmp h cond g pd f.a f.b)
  | 0x49 => decFx f (fun _ => true) false fun h g => if f.sub = 0#6 then some (.fclass h g f.d f.a) else none
  | 0x4A => do
    let h ← f.hdr false
    let fm ← f.fmt
    chk (fm.scalar && f.sub == 0#6 && !f.sat && f.b == 0#8 && f.c == 0#8)
    some (.frnd h f.rm fm f.d f.a)
  | 0x4B => decL f false false fun h r => .frcp h r f.d f.a
  | 0x4C => decL f false false fun h r => .frsq h r f.d f.a
  | 0x4D => decL f true false fun h r => .fsqrt h r f.d f.a
  | 0x4E => decL f true true fun h r => .fdiv h r f.d f.a f.b
  | 0x4F => decL f true false fun h r => .fexp2 h r f.d f.a
  | 0x50 => decL f true false fun h r => .flog2 h r f.d f.a
  | 0x51 => do
    let h ← f.hdr false
    let st ← Ty.ofCode (f.b.extractLsb' 4 4)
    let dt ← Ty.ofCode (f.b.extractLsb' 0 4)
    let se := f.c.extractLsb' 0 2
    let de := f.c.extractLsb' 2 2
    let mg := f.c.getLsbD 4
    chk (f.c.extractLsb' 5 3 == 0#3 && f.sub == 0#6 && f.md.extractLsb' 3 3 == 0#3
      && decide (se.toNat < 32 / st.width) && decide (de.toNat < 32 / dt.width)
      && !(mg && dt.width == 32) && !(f.sat && dt.isInt))
    some (.cvt h f.rm f.sat st dt se de mg f.d f.a)
  | 0x52 => decF f Fmt.packed true false fun h g => .hadd2 h g f.d f.a f.b
  | 0x53 => decF f Fmt.packed true false fun h g => .hmul2 h g f.d f.a f.b
  | 0x54 => decF f Fmt.packed true true fun h g => .hfma2 h g f.d f.a f.b f.c
  | 0x55 => decFx f Fmt.packed true fun h g => if f.sub = 0#6 then some (.hmin2 h g f.d f.a f.b) else none
  | 0x56 => decFx f Fmt.packed true fun h g => if f.sub = 0#6 then some (.hmax2 h g f.d f.a f.b) else none
  | 0x57 => decF f Fmt.packed true true fun h g => .fdot2 h g f.d f.a f.b f.c
  | 0x58 => do
    let h ← f.hdr false
    let sg ← narrow 2 f.sub
    chk (f.md == 0#6)
    some (.dot4 h (sg.getLsbD 0) (sg.getLsbD 1) f.d f.a f.b f.c)
  | _ => none

/-- Opcodes 0x70 to 0x75 (Table 4-8). -/
def decControl (f : Fields) : Option Instr :=
  match f.op.toNat with
  | 0x70 => do
    let h ← f.hdr false
    chk (f.md == 0#6 && f.sub == 0#6 && f.a == 0#8 && f.b == 0#8 && f.d == 0#8)
    some (.br h f.c f.x0)
  | 0x71 => do
    let h ← f.hdr false
    let a ← narrow 6 f.a
    chk (f.md == 0#6 && f.sub == 0#6 && f.b == 0#8 && f.c == 0#8 && f.d == 0#8)
    some (.brx h a)
  | 0x72 => decBare f fun h => .call h f.x0
  | 0x73 => do
    let h ← f.hdr false
    let a ← narrow 6 f.a
    chk (f.md == 0#6 && f.sub == 0#6 && f.b == 0#8 && f.c == 0#8 && f.d == 0#8)
    some (.callx h a)
  | 0x74 => decBare f .ret
  | 0x75 => decBare f .exit
  | _ => none

/-- Base, offset, extension and size of a memory operand (R22, R53). -/
def Fields.mem (f : Fields) : Option Mem := do
  let sz ← f.szF
  let base ← opdF f.ub f.a
  let x ← f.memx
  some ⟨base, f.off, x, sz⟩

def encMem (op : BitVec 8) (h : Hdr) (ud sx : Bool) (sub : BitVec 6) (m : Mem) (d b c : BitVec 8) : Fields :=
  h.put 1 op { md := memMod m.base.isUni ud sx m.sz, sub := sub, d := d, a := m.base.field, b := b, c := c,
               x0 := memExt m.x m.off }

/-- SUB of a gather: SIDX and the shift (Table 12-2). -/
def idxSub (sidx : Bool) (sh : BitVec 3) : BitVec 6 := 0#2 ++ BitVec.ofBool sidx ++ sh

/-- An item of FENCE: the register field and the 16 bits of IMM64 (R230). -/
def itemF (v : BitVec 8) (k : BitVec 16) : Option Item :=
  if k.msb then (narrow 6 v).map fun r => .range r (k.extractLsb' 0 15)
  else if k = 0#16 then (narrow 4 v).map .handle else none

def Item.field : Item → BitVec 8
  | .handle h => h.setWidth 8
  | .range k _ => k.setWidth 8

def Item.kind : Item → BitVec 16
  | .handle _ => 0
  | .range _ g => 1#1 ++ g

/-- Opcodes 0x90 to 0x9B (Table 12-2). -/
def decMem (f : Fields) : Option Instr :=
  match f.op.toNat with
  | 0x90 => do
    let h ← f.hdr true
    let m ← f.mem
    let d ← datF f.ud m.sz f.d
    chk (f.sub == 0#6 && f.b == 0#8 && f.c == 0#8 && sxOk f.sx m.sz)
    some (.ld h d f.sx m)
  | 0x91 => do
    let h ← f.hdr false
    let m ← f.mem
    let b ← datF f.ud m.sz f.b
    chk (f.sub == 0#6 && f.d == 0#8 && f.c == 0#8 && !f.sx)
    some (.st h m b)
  | 0x92 => do
    let h ← f.hdr false
    let x ← f.memx
    let base ← opdF f.ub f.a
    chk (f.md.extractLsb' 0 5 == 0#5 && f.sub == 0#6 && f.d == 0#8 && f.b == 0#8 && f.c == 0#8
      && x.scope == .group)
    some (.pref h base f.off x.lc x.hint)
  | 0x93 => do
    let h ← f.hdr true
    let m ← f.mem
    let sh := f.sub.extractLsb' 0 3
    chk (!f.ud && (DataReg.vec f.d).ok m.sz && f.b == 0#8 && f.sub.extractLsb' 4 2 == 0#2
      && decide (sh.toNat ≤ 4) && sxOk f.sx m.sz)
    some (.ldg h f.d f.sx (f.sub.getLsbD 3) sh f.c m)
  | 0x94 => do
    let h ← f.hdr false
    let m ← f.mem
    let b ← datF f.ud m.sz f.b
    let sh := f.sub.extractLsb' 0 3
    chk (f.d == 0#8 && f.sub.extractLsb' 4 2 == 0#2 && decide (sh.toNat ≤ 4) && !f.sx)
    some (.stg h m (f.sub.getLsbD 3) sh f.c b)
  | 0x95 => do
    let h ← f.hdr true
    let sz ← f.szF
    chk (!f.ub && !f.ud && (DataReg.vec f.d).ok sz && f.b == 0#8 && f.sub == 0#6
      && f.x0.extractLsb' 24 8 == 0#8 && sxOk f.sx sz)
    some (.ldsl h f.d f.sx sz f.c f.a f.off)
  | 0x96 => do
    let h ← f.hdr false
    let sz ← f.szF
    let b ← datF f.ud sz f.b
    chk (!f.ub && !f.sx && f.d == 0#8 && f.sub == 0#6 && f.x0.extractLsb' 24 8 == 0#8)
    some (.stsl h sz f.c f.a f.off b)
  | 0x97 => do
    let h ← f.hdr true
    let hb ← narrow 4 f.b
    let fl ← narrow 1 f.sub
    let x ← f.memx
    chk (f.md == 0#6 && f.c == 0#8)
    some (.ldt h (fl == 1#1) f.d hb f.a f.off f.x1 x)
  | 0x98 => do
    let h ← f.hdr false
    let hb ← narrow 4 f.b
    let fl ← narrow 1 f.sub
    let x ← f.memx
    chk (f.md == 0#6 && f.d == 0#8)
    some (.stt h (fl == 1#1) hb f.a f.c f.off f.x1 x)
  | 0x99 => do
    let h ← f.hdr true
    let op ← AtomOp.ofCode f.sub
    let m ← f.mem
    let d ← datF f.ud m.sz f.d
    let b ← datF f.ud m.sz f.b
    let c ← datF f.ud m.sz f.c
    chk (m.sz.is48 && !(op == .fadd && m.sz == .b8) && !f.sx && m.x.plain && (op == .cas || f.c == 0#8))
    some (.atom h op d m b c)
  | 0x9A => do
    let h ← f.hdr true
    let m ← f.mem
    let d ← datF f.ud m.sz f.d
    chk (m.sz.is48 && !f.sx && m.x.plain && f.sub == 0#6 && f.b == 0#8 && f.c == 0#8)
    some (.ldl h d m)
  | 0x9B => do
    let h ← f.hdr false
    let m ← f.mem
    let b ← datF f.ud m.sz f.b
    chk (m.sz.is48 && !f.sx && m.x.plain && f.sub == 0#6 && f.c == 0#8)
    some (.stc h f.d m b)
  | _ => none

/-- Items of a fence after the first: as many as SUB[3:2] says, the fields of the others zero (R230). -/
def fenceRest (n : BitVec 2) (f : Fields) : Option (List Item) :=
  if n = 0#2 then (do
    chk (f.a == 0#8 && f.b == 0#8 && f.c == 0#8 && f.x0.extractLsb' 16 16 == 0#16 && f.x1 == 0#32)
    some [])
  else if n = 1#2 then (do
    let i1 ← itemF f.a (f.x0.extractLsb' 16 16)
    chk (f.b == 0#8 && f.c == 0#8 && f.x1 == 0#32)
    some [i1])
  else if n = 2#2 then (do
    let i1 ← itemF f.a (f.x0.extractLsb' 16 16)
    let i2 ← itemF f.b (f.x1.extractLsb' 0 16)
    chk (f.c == 0#8 && f.x1.extractLsb' 16 16 == 0#16)
    some [i1, i2])
  else (do
    let i1 ← itemF f.a (f.x0.extractLsb' 16 16)
    let i2 ← itemF f.b (f.x1.extractLsb' 0 16)
    let i3 ← itemF f.c (f.x1.extractLsb' 16 16)
    some [i1, i2, i3])

def encFence (h : Hdr) (dir : FenceDir) (scope : Scope) (i0 : Item) (rest : List Item) : Fields :=
  let base : Fields := { md := 0#3 ++ scope.code, d := i0.field }
  let sub (n : BitVec 2) : BitVec 6 := 0#2 ++ n ++ dir.code
  match rest with
  | [] => h.put 2 0x9C { base with sub := sub 0, x0 := 0#16 ++ i0.kind }
  | [i1] => h.put 2 0x9C { base with sub := sub 1, a := i1.field, x0 := i1.kind ++ i0.kind }
  | [i1, i2] => h.put 2 0x9C { base with sub := sub 2, a := i1.field, b := i2.field,
                                         x0 := i1.kind ++ i0.kind, x1 := 0#16 ++ i2.kind }
  | i1 :: i2 :: i3 :: _ => h.put 2 0x9C { base with sub := sub 3, a := i1.field, b := i2.field, c := i3.field,
                                                    x0 := i1.kind ++ i0.kind, x1 := i3.kind ++ i2.kind }

/-- Opcodes 0x9C to 0xA7 (Table 12-2). -/
def decFence (f : Fields) : Option Instr :=
  match f.op.toNat with
  | 0x9C => do
    let h ← f.hdr false
    let dir ← FenceDir.ofCode (f.sub.extractLsb' 0 2)
    let sc ← narrow 3 f.md
    let scope ← Scope.ofCode sc
    chk (f.sub.extractLsb' 4 2 == 0#2)
    let i0 ← itemF f.d (f.x0.extractLsb' 0 16)
    let rest ← fenceRest (f.sub.extractLsb' 2 2) f
    some (.fence h dir scope i0 rest)
  | 0x9D => decBare f .fenceAll
  | 0x9E => do
    let h ← f.hdr false
    let c ← narrow 3 f.d
    chk (f.md == 0#6 && c != 0#3 && f.b == 0#8 && f.c == 0#8)
    if f.sub = 0#6 then do
      chk (f.x0 == 0#32)
      let hd ← narrow 4 f.a
      some (.ftag h c (.handle hd))
    else if f.sub = 1#6 then do
      let k ← narrow 6 f.a
      let g ← narrow 15 f.x0
      some (.ftag h c (.range k g))
    else none
  | 0x9F => do
    let h ← f.hdr false
    let c ← narrow 3 f.d
    chk (f.md == 0#6 && f.sub == 0#6 && c != 0#3 && f.a == 0#8 && f.b == 0#8 && f.c == 0#8)
    some (.funtag h c)
  | 0xA0 => do
    let h ← f.hdr false
    let base ← opdF f.ub f.a
    chk (f.md.extractLsb' 0 5 == 0#5 && f.sub == 0#6 && f.d == 0#8 && f.b == 0#8
      && f.x0.extractLsb' 24 8 == 0#8)
    some (.cflush h base f.off f.c)
  | 0xA1 => do
    let h ← f.hdr false
    let base ← opdF f.ub f.a
    chk (f.md.extractLsb' 0 5 == 0#5 && f.sub == 0#6 && f.d == 0#8 && f.b == 0#8
      && f.x0.extractLsb' 24 8 == 0#8)
    some (.cinv h base f.off f.c)
  | 0xA2 => do
    let h ← f.hdr false
    chk (f.md == 0#6 && f.sub == 0#6 && f.a == 0#8 && f.b == 0#8 && f.c == 0#8 && f.d == 0#8
      && f.x0.extractLsb' 24 8 == 0#8 && f.off.toNat % 16 == 0 && 16 ≤ f.off.toNat && f.off.toNat ≤ 8388592)
    some (.enter h f.off)
  | 0xA3 => do
    let h ← f.hdr false
    chk (f.md == 0#6 && f.sub == 0#6 && f.a == 0#8 && f.b == 0#8 && f.c == 0#8 && f.d == 0#8
      && f.x0.extractLsb' 24 8 == 0#8 && f.off.toNat % 16 == 0 && 16 ≤ f.off.toNat && f.off.toNat ≤ 8388592)
    some (.leave h f.off)
  | 0xA4 => do
    let h ← f.hdr false
    let d ← narrow 4 f.d
    let b ← narrow 6 f.b
    let wn ← narrow 2 f.sub
    chk (f.md == 0#6 && f.c == 0#8 && f.x0.extractLsb' 24 8 == 0#8)
    if wn.getLsbD 0 then do
      let a ← narrow 6 f.a
      some (.topenNew h (wn.getLsbD 1) d b a f.off)
    else do
      chk (f.a == 0#8 && f.off == 0#24)
      some (.topen h (wn.getLsbD 1) d b)
  | 0xA5 => do
    let h ← f.hdr false
    let a ← narrow 4 f.a
    let fr ← narrow 1 f.sub
    chk (f.md == 0#6 && f.d == 0#8 && f.b == 0#8 && f.c == 0#8)
    some (.tclose h (fr == 1#1) a)
  | 0xA6 => do
    let h ← f.hdr false
    chk (f.md == 0#6 && f.d == 0#8 && f.b == 0#8)
    if f.sub = 0#6 then do
      let a ← narrow 6 f.a
      let fmt := f.x0.extractLsb' 27 4
      let span := f.x0.extractLsb' 24 3
      let size := f.x0.extractLsb' 0 20
      chk (f.x0.extractLsb' 20 4 == 0#4 && decide (fmt.toNat ≤ 12) && decide (1 ≤ size.toNat)
        && decide (size.toNat ≤ 524288) && size.toNat % spanBytes span.toNat == 0)
      some (.hbind h f.c a f.x0.msb fmt span size)
    else if f.sub = 1#6 then do
      chk (f.a == 0#8 && f.x0 == 0#32)
      some (.hbindRel h f.c)
    else none
  | 0xA7 => do
    let h ← f.hdr false
    let d ← quadF f.d
    chk (f.md == 0#6 && f.sub == 0#6 && f.a == 0#8 && f.b == 0#8)
    some (.slabq h d f.c)
  | _ => none

/-- Opcodes 0xB0 to 0xC0 (Table 8-1). -/
def decPar (f : Fields) : Option Instr :=
  match f.op.toNat with
  | 0xB0 => do
    let h ← f.hdr false
    let a ← pairF f.a
    chk (f.md == 0#6 && f.sub == 0#6 && f.d == 0#8
      && (if f.c == 0#8 then f.b == 0#8 else decide (f.b.toNat + f.c.toNat ≤ 256)))
    some (.spawn h f.c a f.b f.x0)
  | 0xB1 => decBare f fun h => .meet h f.x0
  | 0xB2 => do
    let h ← f.hdr false
    chk (f.md == 0#6 && f.b == 0#8 && f.c == 0#8)
    if f.sub = 0#6 then do
      let d ← narrow 3 f.d
      let a ← narrow 3 f.a
      some (.vote h (.some d a))
    else if f.sub = 1#6 then do
      let d ← narrow 3 f.d
      let a ← narrow 3 f.a
      some (.vote h (.every d a))
    else if f.sub = 2#6 then do
      let a ← narrow 3 f.a
      some (.vote h (.mask f.d a))
    else if f.sub = 3#6 then do
      let d ← narrow 3 f.d
      some (.vote h (.alike d f.a))
    else none
  | 0xB3 => do
    let h ← f.hdr false
    let op ← ShflOp.ofCode f.sub5
    let wc ← narrow 3 f.md
    chk (decide (wc.toNat ≤ 5))
    let s ← srcF f.sub.msb f.b f.c
    some (.shfl h op wc f.d f.a s)
  | 0xB4 => do
    let h ← f.hdr false
    let cd ← narrow 4 f.sub
    let op ← RedOp.ofCode cd
    chk (f.md == 0#6 && f.b == 0#8 && f.c == 0#8)
    some (.lreduce h op f.d f.a)
  | 0xB5 => do
    let h ← f.hdr false
    chk (f.c == 0#8)
    if f.sub = 11#6 then do
      let kc ← narrow 2 f.md
      let kt ← KeyTy.ofCode kc
      some (.lscanRank h kt f.d f.a f.b)
    else do
      let low ← narrow 5 f.sub
      let op ← RedOp.ofCode (low.extractLsb' 0 4)
      chk (f.md == 0#6 && f.b == 0#8)
      some (.lscan h op low.msb f.d f.a)
  | 0xB6 => do
    let h ← f.hdr false
    chk (f.md == 0#6 && f.sub.extractLsb' 2 2 == 0#2 && f.sub.msb == false)
    let kt ← KeyTy.ofCode (f.sub.extractLsb' 0 2)
    if f.sub.getLsbD 4 then do
      let p ← narrow 3 f.c
      some (.selmax h kt f.d f.a f.b (some p))
    else do
      chk (f.c == 0#8)
      some (.selmax h kt f.d f.a f.b none)
  | 0xB7 => do
    let h ← f.hdr false
    chk (f.md == 0#6 && f.sub.extractLsb' 2 2 == 0#2 && f.sub.msb == false)
    let kt ← KeyTy.ofCode (f.sub.extractLsb' 0 2)
    if f.sub.getLsbD 4 then do
      let p ← narrow 3 f.c
      some (.selmin h kt f.d f.a f.b (some p))
    else do
      chk (f.c == 0#8)
      some (.selmin h kt f.d f.a f.b none)
  | 0xB8 => do
    let h ← f.hdr false
    let n ← narrow 4 f.sub
    chk (f.md == 0#6 && f.a == 0#8 && f.b == 0#8 && f.c == 0#8 && f.d == 0#8)
    some (.barT h n)
  | 0xB9 => do
    let h ← f.hdr false
    let n ← narrow 4 f.sub
    chk (f.md == 0#6 && f.a == 0#8 && f.b == 0#8 && f.c == 0#8 && f.d == 0#8)
    some (.barC h n)
  | 0xBA => do
    let h ← f.hdr false
    chk (f.md == 0#6 && f.sub.msb == false && f.a == 0#8 && f.b == 0#8 && f.c == 0#8)
    some (.arrive h (f.sub.getLsbD 4) (f.sub.extractLsb' 0 4) f.d)
  | 0xBB => do
    let h ← f.hdr false
    chk (f.md == 0#6 && f.sub.msb == false && f.d == 0#8 && f.b == 0#8 && f.c == 0#8)
    some (.await h (f.sub.getLsbD 4) (f.sub.extractLsb' 0 4) f.a)
  | 0xBC => do
    let h ← f.hdr false
    chk (f.md == 0#6 && f.sub == 0#6 && f.a == 0#8 && f.b == 0#8 && f.d == 0#8
      && f.c.toNat % 8 == 0 && decide (8 ≤ f.c.toNat) && decide (f.c.toNat ≤ 248))
    some (.grow h f.c)
  | 0xBD => do
    let h ← f.hdr false
    chk (f.md == 0#6 && f.sub == 0#6 && f.a == 0#8 && f.b == 0#8 && f.d == 0#8
      && f.c.toNat % 8 == 0 && decide (8 ≤ f.c.toNat) && decide (f.c.toNat ≤ 248))
    some (.shrink h f.c)
  | 0xBE => do
    let h ← f.hdr false
    chk (f.md == 0#6 && f.sub == 0#6 && f.a == 0#8 && f.b == 0#8 && f.c == 0#8)
    some (.rng h f.d)
  | 0xBF => do
    let h ← f.hdr false
    let u ← narrow 1 f.sub
    let a ← opdF (u == 1#1) f.a
    chk (f.md == 0#6 && f.b == 0#8 && f.c == 0#8)
    some (.rngk h f.d a)
  | 0xC0 => do
    let h ← f.hdr false
    let u ← narrow 1 f.sub
    let sel ← narrow 4 f.c
    chk (f.md == 0#6 && f.a == 0#8 && f.b == 0#8)
    if u = 1#1 then do
      let k ← narrow 6 f.d
      some (.movs h (.uni k) sel)
    else do
      chk (!sel64 sel || pairOk f.d)
      some (.movs h (.vec f.d) sel)
  | _ => none

/-- Claim range (R281). -/
def claimF (f : Fields) : Option ClaimRange :=
  if f.sub = 0#6 then do
    let a ← narrow 7 f.a
    chk (ClaimRange.slots a f.c).ok
    some (.slots a f.c)
  else if f.sub = 1#6 then do
    let a ← narrow 6 f.a
    chk (ClaimRange.tiles a f.c).ok
    some (.tiles a f.c)
  else none

def encClaim (op : BitVec 8) (h : Hdr) : ClaimRange → Fields
  | .slots a n => h.put 0 op { a := a.setWidth 8, c := n }
  | .tiles a n => h.put 0 op { sub := 1, a := a.setWidth 8, c := n }

/-- Opcodes 0xD0 to 0xDF (Table 15-2). -/
def decEngine (f : Fields) : Option Instr :=
  match f.op.toNat with
  | 0xD0 => do
    let h ← f.hdr false
    let a ← narrow 6 f.a
    let ch ← narrow 4 f.sub
    chk (f.md == 0#6 && f.d == 0#8 && f.b == 0#8 && f.c == 0#8)
    some (.chainLink h ch a f.x0)
  | 0xD1 => do
    let h ← f.hdr false
    let ch ← narrow 4 f.sub
    chk (f.md == 0#6 && f.a == 0#8 && f.d == 0#8 && f.b == 0#8 && f.c == 0#8)
    some (.chainAdv h ch)
  | 0xD2 => do
    let h ← f.hdr false
    let cw ← narrow 4 f.d
    let au ← narrow 2 f.sub
    let a ← opdF (au.getLsbD 0) f.a
    chk (f.md == 0#6 && f.b == 0#8 && f.c == 0#8)
    some (.condw h (au.getLsbD 1) cw a)
  | 0xD3 => do
    let h ← f.hdr true
    let s ← narrow 6 f.d
    chk (f.md == 0#6 && f.sub == 0#6 && f.a == 0#8 && f.b == 0#8 && f.c == 0#8)
    some (.sacq h s)
  | 0xD4 => do
    let h ← f.hdr false
    let p ← narrow 3 f.d
    let s ← narrow 6 f.a
    chk (f.md == 0#6 && f.sub == 0#6 && f.b == 0#8 && f.c == 0#8)
    some (.stry h p s)
  | 0xD5 => do
    let h ← f.hdr false
    let u ← narrow 1 f.sub
    let d ← opdF (u == 1#1) f.d
    let s ← narrow 6 f.a
    chk (f.md == 0#6 && f.b == 0#8 && f.c == 0#8)
    some (.sqry h d s)
  | 0xD6 => do
    let h ← f.hdr false
    let r ← claimF f
    chk (f.md == 0#6 && f.d == 0#8 && f.b == 0#8)
    some (.claim h r)
  | 0xD7 => do
    let h ← f.hdr false
    let r ← claimF f
    chk (f.md == 0#6 && f.d == 0#8 && f.b == 0#8)
    some (.release h r)
  | 0xD8 => do
    let h ← f.hdr false
    let span ← narrow 3 f.sub
    let d ← narrow 7 f.d
    let b ← narrow 6 f.b
    let a ← quadF f.a
    chk (f.md == 0#6 && f.c == 0#8)
    some (.ofill h span d b a)
  | 0xD9 => do
    let h ← f.hdr true
    let b ← pairF f.b
    chk (f.md == 0#6 && f.sub == 0#6 && f.x1 == 0#32)
    let k ← narrow 8 f.x0
    some (.mma h f.d f.a b f.c k)
  | 0xDA => do
    let h ← f.hdr true
    let b ← pairF f.b
    chk (f.md == 0#6 && f.sub == 0#6 && f.x1 == 0#32)
    let k ← narrow 8 f.x0
    some (.mmat h f.d f.a b f.c k)
  | 0xDB => do
    let h ← f.hdr false
    let a ← narrow 6 f.a
    chk (f.md == 0#6 && f.sub == 0#6 && f.d == 0#8 && f.b == 0#8 && decide (a.toNat + f.c.toNat + 1 ≤ 64))
    some (.accz h a f.c)
  | 0xDC => do
    let h ← f.hdr true
    let d ← quadF f.d
    let a ← narrow 6 f.a
    let ps ← narrow 4 f.sub
    chk (f.md == 0#6 && f.b == 0#8 && f.c == 0#8)
    let p := ps.extractLsb' 1 3
    if p.toNat ≤ 5 then some (.accrd h p (ps.getLsbD 0) d a)
    else if ps = 12#4 then some (.accrdSt h d a)
    else none
  | 0xDD => do
    let h ← f.hdr false
    let d ← narrow 6 f.d
    chk (f.md == 0#6 && f.b == 0#8 && f.c == 0#8)
    let p := f.sub.extractLsb' 1 3
    if p.toNat ≤ 5 then do
      let af ← Af.ofCode (f.sub.extractLsb' 4 2)
      let a ← quadF f.a
      some (.accwr h af p (f.sub.getLsbD 0) d a)
    else if f.sub = 12#6 then some (.accwrSt h d f.a)
    else none
  | 0xDE => do
    let h ← f.hdr false
    let d ← narrow 6 f.d
    let a ← narrow 6 f.a
    let l ← narrow 3 f.sub
    chk (f.md == 0#6 && f.b == 0#8)
    some (.treeadd h d a l f.c)
  | 0xDF => do
    let h ← f.hdr false
    let a ← narrow 6 f.a
    chk (f.md == 0#6 && f.sub == 0#6 && f.d == 0#8 && f.b == 0#8 && f.c == 0#8)
    some (.accfin h a)
  | _ => none

/-- Opcodes 0xF0 to 0xF8 (Table 19-1). -/
def decSystem (f : Fields) : Option Instr :=
  match f.op.toNat with
  | 0xF0 => do
    let h ← f.hdr false
    chk (f.md == 0#6 && f.sub == 0#6 && f.a == 0#8 && f.b == 0#8 && f.d == 0#8 && decide (128 ≤ f.c.toNat))
    some (.trap h f.c)
  | 0xF1 => do
    let h ← f.hdr false
    let v ← Verdict.ofCode f.sub
    chk (f.md == 0#6 && f.d == 0#8 && f.b == 0#8 && f.c == 0#8)
    some (.rfe h v f.a)
  | 0xF2 => decBare f .region
  | 0xF3 => decBare f .yield
  | 0xF4 => decBare f .bkpt
  | 0xF5 => do
    let h ← f.hdr false
    let u ← narrow 1 f.md
    let sr ← narrow 16 f.x0
    chk (f.b == 0#8 && f.c == 0#8)
    if f.sub = 0#6 then do
      let d ← opdF (u == 1#1) f.d
      chk (f.a == 0#8 && srRead sr)
      some (.mfsr h d sr)
    else if f.sub = 1#6 then do
      let a ← opdF (u == 1#1) f.a
      chk (f.d == 0#8 && srWrite sr)
      some (.mtsr h sr a)
    else none
  | 0xF6 => do
    let h ← f.hdr false
    let a ← narrow 6 f.a
    chk (f.md == 0#6 && f.sub == 0#6 && f.b == 0#8 && f.c == 0#8 && f.d.toNat % 16 == 0)
    some (.faultq h f.d a)
  | 0xF7 => do
    let h ← f.hdr false
    let u ← narrow 1 f.md
    let d ← opdF (u == 1#1) f.d
    let a ← narrow 6 f.a
    chk (f.sub == 0#6 && f.b == 0#8 && f.c == 0#8)
    some (.acct h d a)
  | 0xF8 => do
    let h ← f.hdr false
    let u ← narrow 1 f.md
    let d ← opdF (u == 1#1) f.d
    let a ← narrow 6 f.a
    chk (f.sub == 0#6 && f.b == 0#8 && f.c == 0#8)
    some (.lrec h d a)
  | _ => none

/-- Opcodes 0xF9 to 0xFF (Table 24-1). -/
def decFabric (f : Fields) : Option Instr :=
  match f.op.toNat with
  | 0xF9 => do
    let h ← f.hdr false
    let sz ← f.szF
    chk (!f.ub && !f.ud && !f.sx && sz.isMsg && f.x0 == 0#32 && f.d == 0#8 && (DataReg.vec f.a).ok sz)
    let r ← narrow 6 f.c
    if f.sub = 0#6 then do
      chk (f.b == 0#8)
      some (.send h sz r f.a)
    else if f.sub = 1#6 then do
      let b ← narrow 6 f.b
      some (.sendTo h sz b r f.a)
    else none
  | 0xFA => do
    let h ← f.hdr true
    let sz ← f.szF
    chk (!f.ub && !f.ud && !f.sx && sz.isMsg && f.x0 == 0#32 && f.a == 0#8 && (DataReg.vec f.d).ok sz)
    let r ← narrow 6 f.c
    if f.sub = 0#6 then do
      chk (f.b == 0#8)
      some (.recv h sz f.d r none)
    else if f.sub = 1#6 then some (.recv h sz f.d r (some f.b))
    else none
  | 0xFB => do
    let h ← f.hdr true
    let m ← f.mem
    let d ← datF f.ud m.sz f.d
    chk (m.x == .zero && f.sub == 0#6 && f.b == 0#8 && f.c == 0#8 && sxOk f.sx m.sz)
    some (.rld h d f.sx m.base m.off m.sz)
  | 0xFC => do
    let h ← f.hdr false
    let m ← f.mem
    let b ← datF f.ud m.sz f.b
    chk (m.x == .zero && f.sub == 0#6 && f.d == 0#8 && f.c == 0#8 && !f.sx)
    some (.rst h m.base m.off m.sz b)
  | 0xFD => do
    let h ← f.hdr true
    let op ← AtomOp.ofCode f.sub
    let m ← f.mem
    let d ← datF f.ud m.sz f.d
    let b ← datF f.ud m.sz f.b
    let c ← datF f.ud m.sz f.c
    chk (m.x == .zero && m.sz.is48 && !(op == .fadd && m.sz == .b8) && !f.sx && (op == .cas || f.c == 0#8))
    some (.ratom h op d m.base m.off m.sz b c)
  | 0xFE => do
    let h ← f.hdr true
    let fo ← narrow 5 f.sub
    let op ← HostAtomOp.ofCode (fo.extractLsb' 0 4)
    let m ← f.mem
    let d ← datF f.ud m.sz f.d
    let b ← datF f.ud m.sz f.b
    let c ← datF f.ud m.sz f.c
    chk (m.x == .zero && m.sz.is48 && !f.sx && (op == .cas || f.c == 0#8))
    some (.hatom h op fo.msb d m.base m.off m.sz b c)
  | 0xFF => do
    let h ← f.hdr false
    let fx ← narrow 1 f.sub
    chk (f.md == 0#6 && f.b == 0#8 && f.c == 0#8)
    if fx = 0#1 then some (.genqIdx h f.d f.a) else some (.genqFix h f.d f.a)
  | _ => none

/-- NOP: every bit but LEN zero (R59). -/
def decNop (f : Fields) : Option Instr :=
  if { f with len := 0 } = ({} : Fields) then
    if f.len = 0#2 then some .nop64 else if f.len = 1#2 then some .nop96
    else if f.len = 2#2 then some .nop128 else none
  else none

/-- The LEN an opcode requires (Tables 3-7 to 3-13); none for an unassigned opcode. NOP is apart. -/
def lenOfOp (op : Nat) : Option (BitVec 2) :=
  if op ∈ [0x02, 0x29, 0x2D, 0x35, 0x70, 0x72, 0x9E, 0xA0, 0xA1, 0xA2, 0xA3, 0xA4, 0xA6, 0xB0, 0xB1, 0xD0, 0xF5]
      ∨ (0x90 ≤ op ∧ op ≤ 0x96) ∨ (0x99 ≤ op ∧ op ≤ 0x9B) ∨ (0xF9 ≤ op ∧ op ≤ 0xFE) then some 1#2
  else if op ∈ [0x2A, 0x97, 0x98, 0x9C, 0xD9, 0xDA] then some 2#2
  else if (0x01 ≤ op ∧ op ≤ 0x35) ∨ (0x40 ≤ op ∧ op ≤ 0x58) ∨ (0x70 ≤ op ∧ op ≤ 0x75) ∨ (0x90 ≤ op ∧ op ≤ 0xA7)
      ∨ (0xB0 ≤ op ∧ op ≤ 0xC0) ∨ (0xD0 ≤ op ∧ op ≤ 0xDF) ∨ (0xF0 ≤ op ∧ op ≤ 0xFF) then some 0#2
  else none

/-- LEN 0b11, an unassigned OP, or a LEN that differs from the required length: decided on the first two bytes
(R48, R58). -/
def headBad (op : Nat) (len : BitVec 2) : Bool :=
  if op = 0 then len == 3#2 else lenOfOp op != some len

/-- Bytes of a word of the given LEN (Table 3-1). -/
def lenBytes (len : BitVec 2) : Nat := 8 + 4 * len.toNat

/-- Every field of a word beyond its head; extension bits a length lacks are zero. -/
def decodeFields (f : Fields) : Option Instr :=
  let op := f.op.toNat
  if op = 0 then decNop f
  else if headBad op f.len then none
  else if op < 0x15 then decArith f
  else if op < 0x28 then decLogic f
  else if op < 0x30 then decMove f
  else if op < 0x40 then decAddr f
  else if op < 0x70 then decFloat f
  else if op < 0x90 then decControl f
  else if op < 0x9C then decMem f
  else if op < 0xB0 then decFence f
  else if op < 0xD0 then decPar f
  else if op < 0xF0 then decEngine f
  else if op < 0xF9 then decSystem f
  else decFabric f

/-- Little-endian value of bytes (R6). -/
def leNat : List Byte → Nat
  | [] => 0
  | b :: bs => b.toNat + 256 * leNat bs

/-- The n bytes of a value, lowest first (R6). -/
def leBytes : Nat → Nat → List Byte
  | 0, _ => []
  | n + 1, v => BitVec.ofNat 8 v :: leBytes n (v / 256)

/-- What decoding answers: an instruction with its length in bytes, or the fault the word takes (R62). -/
inductive Decoded where
  | ok (i : Instr) (len : Nat)
  | illegal
  | boundary
  deriving DecidableEq, Repr

/-- Extension words of which, for every opcode, one goes with any legal rest of a word. -/
def someExt : List (BitVec 32) := [0, 16, 0x80, 0x10000, 0x8000, 0x80000000, 0x80008000]

/-- Words that agree with the bits lying in the first bytes, of which four hold the low six bits of field A: of what lies
beyond, enough values that one makes a legal word, if any does (R58). -/
def completions (bytes : Nat) (f : Fields) : List Fields :=
  let more (f : Fields) : List Fields := if f.len = 2#2 then someExt.map fun x => { f with x1 := x } else [f]
  if 12 ≤ bytes then more f
  else
    let ext (f : Fields) : List Fields := if f.len = 0#2 then [f] else someExt.flatMap fun x => more { f with x0 := x }
    if 8 ≤ bytes then ext f
    else
      let g (k : Nat) : Fields := { f with a := BitVec.ofNat 2 k ++ f.a.extractLsb' 0 6, b := 0, c := 0, ac := 0 }
      (List.range 64).flatMap fun i => (List.range 64).flatMap fun j => (List.range 4).flatMap fun k =>
        ext { g k with sub := BitVec.ofNat 6 i, md := BitVec.ofNat 6 j } ++ ext { g k with c := 128, sub := BitVec.ofNat 6 i, md := BitVec.ofNat 6 j }

/-- A word of which only so many bytes lie in its block: FETCH_BOUNDARY, unless a field in the block makes it illegal
whatever follows (R25, R58, R62). -/
def crosses (bs : List Byte) : Bool :=
  (completions bs.length (Fields.unpack (BitVec.ofNat 128 (leNat bs)))).any fun f => (decodeFields f).isSome

/-- Decode the bytes from the program counter to the end of its fetch block (R48, R58, R62). -/
def decode (bs : List Byte) : Decoded :=
  let head := Fields.unpack (BitVec.ofNat 128 (leNat (bs.take 2)))
  if headBad head.op.toNat head.len then .illegal
  else
    let n := lenBytes head.len
    if bs.length < n then (if crosses bs then .boundary else .illegal)
    else
      match decodeFields (Fields.unpack (BitVec.ofNat 128 (leNat (bs.take n)))) with
      | some i => .ok i n
      | none => .illegal

/-- The bytes of an opcode-table word, as memory holds them from the lowest address. -/
def tableBytes (nbits w : Nat) : List Byte := leBytes 16 (w % 2 ^ nbits)

/-- What the decoder reads from a word of the opcode table. -/
def decodeTableWord (nbits w : Nat) : Option Instr :=
  match decode (tableBytes nbits w) with
  | .ok i _ => some i
  | .illegal => none
  | .boundary => none

/-! ## The encoder -/

/-- The fields of an instruction's word (the tables above); none for a step that has no word. -/
def encode : Instr → Option Fields
  | .nop64 => some {}
  | .nop96 => some { len := 1 }
  | .nop128 => some { len := 2 }
  | .add h d a s => some (encTwo 0x01 h d a s)
  | .addi h d a imm => some (h.put 1 0x02 { d := d, a := a, x0 := imm })
  | .sub h d a s => some (encTwo 0x03 h d a s)
  | .mul h d a s => some (encTwo 0x04 h d a s)
  | .mulh h d a s => some (encTwo 0x05 h d a s)
  | .mulhu h d a s => some (encTwo 0x06 h d a s)
  | .mulw h u d a s => some (encTwoU 0x07 h u d a s)
  | .mad h d a b t => some (encThree 0x08 h d a b t)
  | .div h d a s => some (encTwo 0x09 h d a s)
  | .divu h d a s => some (encTwo 0x0A h d a s)
  | .rem h d a s => some (encTwo 0x0B h d a s)
  | .remu h d a s => some (encTwo 0x0C h d a s)
  | .abs h sat d a => some (encOneSat 0x0D h sat d a)
  | .neg h sat d a => some (encOneSat 0x0E h sat d a)
  | .min h d a s => some (encTwo 0x0F h d a s)
  | .max h d a s => some (encTwo 0x10 h d a s)
  | .minu h d a s => some (encTwo 0x11 h d a s)
  | .maxu h d a s => some (encTwo 0x12 h d a s)
  | .addsat h u d a s => some (encTwoU 0x13 h u d a s)
  | .subsat h u d a s => some (encTwoU 0x14 h u d a s)
  | .and h d a s => some (encTwo 0x15 h d a s)
  | .or h d a s => some (encTwo 0x16 h d a s)
  | .xor h d a s => some (encTwo 0x17 h d a s)
  | .andn h d a s => some (encTwo 0x18 h d a s)
  | .orn h d a s => some (encTwo 0x19 h d a s)
  | .shl h d a s => some (encTwo 0x1A h d a s)
  | .shr h d a s => some (encTwo 0x1B h d a s)
  | .sar h d a s => some (encTwo 0x1C h d a s)
  | .rotl h d a s => some (encTwo 0x1D h d a s)
  | .funnel h d a b t => some (encThree 0x1E h d a b t)
  | .clz h d a => some (encOne 0x1F h d a)
  | .ctz h d a => some (encOne 0x20 h d a)
  | .popc h d a => some (encOne 0x21 h d a)
  | .brev h d a => some (encOne 0x22 h d a)
  | .bfe h sg p l d a => some (h.put 0 0x23 { md := l, sub := ciSub sg p, d := d, a := a })
  | .bfi h p l d a b => some (h.put 0 0x24 { md := l, sub := ciSub false p, d := d, a := a, b := b })
  | .bytep h fk d a b t =>
    some (h.put 0 0x25 { sub := ciSub t.ci fk.code, d := d, a := a, b := b, c := t.third })
  | .sext h d a s => some (encTwo 0x26 h d a s)
  | .zext h d a s => some (encTwo 0x27 h d a s)
  | .movVector h d a => some (encOne 0x28 h d a)
  | .movPairFromUniform h d a => some (h.put 0 0x28 { sub := 1, d := d, a := a.setWidth 8 })
  | .movUniformFromPair h d a => some (h.put 0 0x28 { sub := 2, d := d.setWidth 8, a := a })
  | .movUniform h d a => some (h.put 0 0x28 { sub := 3, d := d.setWidth 8, a := a.setWidth 8 })
  | .moviVector h d imm => some (h.put 1 0x29 { d := d, x0 := imm })
  | .moviUniform h d imm => some (h.put 1 0x29 { sub := 1, d := d.setWidth 8, x0 := imm })
  | .movqPair h d imm =>
    some (h.put 2 0x2A { d := d, x0 := imm.extractLsb' 0 32, x1 := imm.extractLsb' 32 32 })
  | .movqUniform h d imm =>
    some (h.put 2 0x2A { sub := 1, d := d.setWidth 8, x0 := imm.extractLsb' 0 32, x1 := imm.extractLsb' 32 32 })
  | .sel h d a p t =>
    some (h.put 0 0x2B { sub := ciSub t.ci 0, d := d, a := a, b := p.setWidth 8, c := t.third })
  | .cmp h cd pd a s =>
    some (h.put 0 0x2C { sub := ciSub s.ci (cd.code.setWidth 5), d := pd.setWidth 8, a := a, b := s.fb, c := s.fc })
  | .cmpi h cd pd a imm =>
    some (h.put 1 0x2D { sub := cd.code.setWidth 6, d := pd.setWidth 8, a := a, x0 := imm })
  | .plop h pd pa pb tt =>
    some (h.put 0 0x2E { sub := tt.setWidth 6, d := pd.setWidth 8, a := pa.setWidth 8, b := pb.setWidth 8 })
  | .pmovToRegister h d => some (h.put 0 0x2F { d := d })
  | .pmovFromRegister h a => some (h.put 0 0x2F { sub := 1, a := a })
  | .add64 h d a s => some (encWide 0x30 h 0 d a s)
  | .sub64 h d a s => some (encWide 0x31 h 0 d a s)
  | .shl64 h d a s => some (encWide 0x32 h 0 d a s)
  | .shr64 h ar d a s => some (encWide 0x33 h (if ar then 1#4 else 0#4) d a s)
  | .cmp64 h uf cd pd a s =>
    some (h.put 0 0x34 { sub := wideSub s.ci uf cd.code, d := pd.setWidth 8, a := a.field, b := s.fb, c := s.fc })
  | .lea h w sh d a b imm =>
    some (h.put 1 0x35 { sub := wideSub false a.isUni (BitVec.ofBool w ++ sh), d := d.field, a := a.field,
                         b := b.field, x0 := imm })
  | .fadd h g d a b => some (encF 0x40 h g d a b 0)
  | .fsub h g d a b => some (encF 0x41 h g d a b 0)
  | .fmul h g d a b => some (encF 0x42 h g d a b 0)
  | .fma h g d a b c => some (encF 0x43 h g d a b c)
  | .fnma h g d a b c => some (encF 0x44 h g d a b c)
  | .fmin h g d a b => some (encFx 0x45 h 0 g d a b)
  | .fmax h g d a b => some (encFx 0x46 h 0 g d a b)
  | .fsgn h op g d a b => some (encFx 0x47 h op.code g d a b)
  | .fcmp h cd g pd a b => some (encFx 0x48 h (cd.code.setWidth 6) g (pd.setWidth 8) a b)
  | .fclass h g d a => some (encFx 0x49 h 0 g d a 0)
  | .frnd h rm g d a => some (h.put 0 0x4A { md := fMod rm false g.code, d := d, a := a })
  | .frcp h rm d a => some (encL 0x4B h rm d a 0)
  | .frsq h rm d a => some (encL 0x4C h rm d a 0)
  | .fsqrt h rm d a => some (encL 0x4D h rm d a 0)
  | .fdiv h rm d a b => some (encL 0x4E h rm d a b)
  | .fexp2 h rm d a => some (encL 0x4F h rm d a 0)
  | .flog2 h rm d a => some (encL 0x50 h rm d a 0)
  | .cvt h rm sat st dt se de mg d a =>
    some (h.put 0 0x51 { md := fMod rm sat 0, d := d, a := a, b := st.code ++ dt.code,
                         c := 0#3 ++ BitVec.ofBool mg ++ de ++ se })
  | .hadd2 h g d a b => some (encF 0x52 h g d a b 0)
  | .hmul2 h g d a b => some (encF 0x53 h g d a b 0)
  | .hfma2 h g d a b c => some (encF 0x54 h g d a b c)
  | .hmin2 h g d a b => some (encFx 0x55 h 0 g d a b)
  | .hmax2 h g d a b => some (encFx 0x56 h 0 g d a b)
  | .fdot2 h g d a b c => some (encF 0x57 h g d a b c)
  | .dot4 h ua ub d a b c =>
    some (h.put 0 0x58 { sub := 0#4 ++ BitVec.ofBool ub ++ BitVec.ofBool ua, d := d, a := a, b := b, c := c })
  | .br h live t => some (h.put 1 0x70 { c := live, x0 := t })
  | .brx h a => some (h.put 0 0x71 { a := a.setWidth 8 })
  | .call h t => some (h.put 1 0x72 { x0 := t })
  | .callx h a => some (h.put 0 0x73 { a := a.setWidth 8 })
  | .ret h => some (encBare 0x74 h)
  | .exit h => some (encBare 0x75 h)
  | .ld h d sx m => some (encMem 0x90 h d.isUni sx 0 m d.field 0 0)
  | .st h m b => some (encMem 0x91 h b.isUni false 0 m 0 b.field 0)
  | .pref h base off lc hint =>
    some (h.put 1 0x92 { md := BitVec.ofBool base.isUni ++ 0#5, a := base.field, x0 := memExt ⟨lc, hint, .group⟩ off })
  | .ldg h d sx sidx sh c m => some (encMem 0x93 h false sx (idxSub sidx sh) m d 0 c)
  | .stg h m sidx sh c b => some (encMem 0x94 h b.isUni false (idxSub sidx sh) m 0 b.field c)
  | .ldsl h d sx sz slab a off =>
    some (h.put 1 0x95 { md := memMod false false sx sz, d := d, a := a, c := slab, x0 := 0#8 ++ off })
  | .stsl h sz slab a off b =>
    some (h.put 1 0x96 { md := memMod false b.isUni false sz, a := a, b := b.field, c := slab, x0 := 0#8 ++ off })
  | .ldt h fl d hb a o0 o x =>
    some (h.put 2 0x97 { sub := (BitVec.ofBool fl).setWidth 6, d := d, a := a, b := hb.setWidth 8,
                         x0 := memExt x o0, x1 := o })
  | .stt h fl hb a c o0 o x =>
    some (h.put 2 0x98 { sub := (BitVec.ofBool fl).setWidth 6, a := a, b := hb.setWidth 8, c := c,
                         x0 := memExt x o0, x1 := o })
  | .atom h op d m b c => some (encMem 0x99 h d.isUni false op.code m d.field b.field c.field)
  | .ldl h d m => some (encMem 0x9A h d.isUni false 0 m d.field 0 0)
  | .stc h d m b => some (encMem 0x9B h b.isUni false 0 m d b.field 0)
  | .fence h dir scope i0 rest => some (encFence h dir scope i0 rest)
  | .fenceAll h => some (encBare 0x9D h)
  | .ftag h c it =>
    match it with
    | .handle hd => some (h.put 1 0x9E { d := c.setWidth 8, a := hd.setWidth 8 })
    | .range k g => some (h.put 1 0x9E { sub := 1, d := c.setWidth 8, a := k.setWidth 8, x0 := g.setWidth 32 })
  | .funtag h c => some (h.put 0 0x9F { d := c.setWidth 8 })
  | .cflush h base off n =>
    some (h.put 1 0xA0 { md := BitVec.ofBool base.isUni ++ 0#5, a := base.field, c := n, x0 := 0#8 ++ off })
  | .cinv h base off n =>
    some (h.put 1 0xA1 { md := BitVec.ofBool base.isUni ++ 0#5, a := base.field, c := n, x0 := 0#8 ++ off })
  | .enter h n => some (h.put 1 0xA2 { x0 := 0#8 ++ n })
  | .leave h n => some (h.put 1 0xA3 { x0 := 0#8 ++ n })
  | .topen h w d b =>
    some (h.put 1 0xA4 { sub := 0#4 ++ BitVec.ofBool w ++ 0#1, d := d.setWidth 8, b := b.setWidth 8 })
  | .topenNew h w d b a off =>
    some (h.put 1 0xA4 { sub := 0#4 ++ BitVec.ofBool w ++ 1#1, d := d.setWidth 8, a := a.setWidth 8,
                         b := b.setWidth 8, x0 := 0#8 ++ off })
  | .tclose h fr a => some (h.put 0 0xA5 { sub := (BitVec.ofBool fr).setWidth 6, a := a.setWidth 8 })
  | .hbind h slab a loc fmt span size =>
    some (h.put 1 0xA6 { a := a.setWidth 8, c := slab, x0 := BitVec.ofBool loc ++ fmt ++ span ++ 0#4 ++ size })
  | .hbindRel h slab => some (h.put 1 0xA6 { sub := 1, c := slab })
  | .slabq h d slab => some (h.put 0 0xA7 { d := d, c := slab })
  | .spawn h live a b t => some (h.put 1 0xB0 { a := a, b := b, c := live, x0 := t })
  | .meet h t => some (h.put 1 0xB1 { x0 := t })
  | .vote h op =>
    match op with
    | .some pd pa => some (h.put 0 0xB2 { d := pd.setWidth 8, a := pa.setWidth 8 })
    | .every pd pa => some (h.put 0 0xB2 { sub := 1, d := pd.setWidth 8, a := pa.setWidth 8 })
    | .mask d pa => some (h.put 0 0xB2 { sub := 2, d := d, a := pa.setWidth 8 })
    | .alike pd a => some (h.put 0 0xB2 { sub := 3, d := pd.setWidth 8, a := a })
  | .shfl h op wc d a s =>
    some (h.put 0 0xB3 { md := wc.setWidth 6, sub := ciSub s.ci op.code, d := d, a := a, b := s.fb, c := s.fc })
  | .lreduce h op d a => some (h.put 0 0xB4 { sub := op.code.setWidth 6, d := d, a := a })
  | .lscan h op ex d a => some (h.put 0 0xB5 { sub := 0#1 ++ BitVec.ofBool ex ++ op.code, d := d, a := a })
  | .lscanRank h kt d a b => some (h.put 0 0xB5 { md := kt.code.setWidth 6, sub := 11, d := d, a := a, b := b })
  | .selmax h kt d a b pc =>
    match pc with
    | none => some (h.put 0 0xB6 { sub := 0#4 ++ kt.code, d := d, a := a, b := b })
    | some p => some (h.put 0 0xB6 { sub := 4#4 ++ kt.code, d := d, a := a, b := b, c := p.setWidth 8 })
  | .selmin h kt d a b pc =>
    match pc with
    | none => some (h.put 0 0xB7 { sub := 0#4 ++ kt.code, d := d, a := a, b := b })
    | some p => some (h.put 0 0xB7 { sub := 4#4 ++ kt.code, d := d, a := a, b := b, c := p.setWidth 8 })
  | .barT h n => some (h.put 0 0xB8 { sub := n.setWidth 6 })
  | .barC h n => some (h.put 0 0xB9 { sub := n.setWidth 6 })
  | .arrive h cl n d => some (h.put 0 0xBA { sub := wideSub false cl n, d := d })
  | .await h cl n a => some (h.put 0 0xBB { sub := wideSub false cl n, a := a })
  | .grow h n => some (h.put 0 0xBC { c := n })
  | .shrink h n => some (h.put 0 0xBD { c := n })
  | .rng h d => some (h.put 0 0xBE { d := d })
  | .rngk h d a => some (h.put 0 0xBF { sub := (BitVec.ofBool a.isUni).setWidth 6, d := d, a := a.field })
  | .movs h d sel =>
    some (h.put 0 0xC0 { sub := (BitVec.ofBool d.isUni).setWidth 6, d := d.field, c := sel.setWidth 8 })
  | .chainLink h ch a off => some (h.put 1 0xD0 { sub := ch.setWidth 6, a := a.setWidth 8, x0 := off })
  | .chainAdv h ch => some (h.put 0 0xD1 { sub := ch.setWidth 6 })
  | .condw h add cw a =>
    some (h.put 0 0xD2 { sub := 0#4 ++ BitVec.ofBool add ++ BitVec.ofBool a.isUni, d := cw.setWidth 8, a := a.field })
  | .sacq h s => some (h.put 0 0xD3 { d := s.setWidth 8 })
  | .stry h p s => some (h.put 0 0xD4 { d := p.setWidth 8, a := s.setWidth 8 })
  | .sqry h d s => some (h.put 0 0xD5 { sub := (BitVec.ofBool d.isUni).setWidth 6, d := d.field, a := s.setWidth 8 })
  | .claim h r => some (encClaim 0xD6 h r)
  | .release h r => some (encClaim 0xD7 h r)
  | .ofill h span d b a =>
    some (h.put 0 0xD8 { sub := span.setWidth 6, d := d.setWidth 8, b := b.setWidth 8, a := a })
  | .mma h d a b c k => some (h.put 2 0xD9 { d := d, a := a, b := b, c := c, x0 := k.setWidth 32 })
  | .mmat h d a b c k => some (h.put 2 0xDA { d := d, a := a, b := b, c := c, x0 := k.setWidth 32 })
  | .accz h a n => some (h.put 0 0xDB { a := a.setWidth 8, c := n })
  | .accrd h p hf d a => some (h.put 0 0xDC { sub := 0#2 ++ p ++ BitVec.ofBool hf, d := d, a := a.setWidth 8 })
  | .accrdSt h d a => some (h.put 0 0xDC { sub := 12, d := d, a := a.setWidth 8 })
  | .accwr h af p hf d a => some (h.put 0 0xDD { sub := af.code ++ p ++ BitVec.ofBool hf, d := d.setWidth 8, a := a })
  | .accwrSt h d a => some (h.put 0 0xDD { sub := 12, d := d.setWidth 8, a := a })
  | .treeadd h d a l c =>
    some (h.put 0 0xDE { sub := l.setWidth 6, d := d.setWidth 8, a := a.setWidth 8, c := c })
  | .accfin h a => some (h.put 0 0xDF { a := a.setWidth 8 })
  | .trap h code => some (h.put 0 0xF0 { c := code })
  | .rfe h v a => some (h.put 0 0xF1 { sub := v.code, a := a })
  | .region h => some (encBare 0xF2 h)
  | .yield h => some (encBare 0xF3 h)
  | .bkpt h => some (encBare 0xF4 h)
  | .mfsr h d sr =>
    some (h.put 1 0xF5 { md := (BitVec.ofBool d.isUni).setWidth 6, d := d.field, x0 := sr.setWidth 32 })
  | .mtsr h sr a =>
    some (h.put 1 0xF5 { md := (BitVec.ofBool a.isUni).setWidth 6, sub := 1, a := a.field, x0 := sr.setWidth 32 })
  | .faultq h d a => some (h.put 0 0xF6 { d := d, a := a.setWidth 8 })
  | .acct h d a => some (h.put 0 0xF7 { md := (BitVec.ofBool d.isUni).setWidth 6, d := d.field, a := a.setWidth 8 })
  | .lrec h d a => some (h.put 0 0xF8 { md := (BitVec.ofBool d.isUni).setWidth 6, d := d.field, a := a.setWidth 8 })
  | .send h sz r a => some (h.put 1 0xF9 { md := 0#3 ++ sz.code, a := a, c := r.setWidth 8 })
  | .sendTo h sz b dr a =>
    some (h.put 1 0xF9 { md := 0#3 ++ sz.code, sub := 1, a := a, b := b.setWidth 8, c := dr.setWidth 8 })
  | .recv h sz d r m =>
    match m with
    | none => some (h.put 1 0xFA { md := 0#3 ++ sz.code, d := d, c := r.setWidth 8 })
    | some b => some (h.put 1 0xFA { md := 0#3 ++ sz.code, sub := 1, d := d, b := b, c := r.setWidth 8 })
  | .rld h d sx base off sz => some (encMem 0xFB h d.isUni sx 0 ⟨base, off, .zero, sz⟩ d.field 0 0)
  | .rst h base off sz b => some (encMem 0xFC h b.isUni false 0 ⟨base, off, .zero, sz⟩ 0 b.field 0)
  | .ratom h op d base off sz b c =>
    some (encMem 0xFD h d.isUni false op.code ⟨base, off, .zero, sz⟩ d.field b.field c.field)
  | .hatom h op fb d base off sz b c =>
    some (encMem 0xFE h d.isUni false (0#1 ++ BitVec.ofBool fb ++ op.code) ⟨base, off, .zero, sz⟩
      d.field b.field c.field)
  | .genqIdx h d a => some (h.put 0 0xFF { d := d, a := a })
  | .genqFix h d a => some (h.put 0 0xFF { sub := 1, d := d, a := a })
  | .fenceEnd _ _ => none
  | .growGrant _ => none
  | .pilotRequestService _ => none
  | .semaphoreRequestMet _ _ => none
  | .claimReleaseFree _ _ => none
  | .anvilAccept _ _ => none
  | .anvilPassComplete _ => none
  | .accrdWriteback _ _ _ => none
  | .meetingArrival _ _ => none
  | .binTimerExpiry _ _ => none
  | .groupFormation _ _ => none
  | .landingOverflowMove _ _ _ => none
  | .landingAdmission _ => none
  | .submission _ _ _ => none
  | .wqctlWrite _ _ => none
  | .launchStart _ => none
  | .clusterPlacement _ => none
  | .launchComplete _ => none
  | .gridStall _ => none
  | .ticketRelease _ => none
  | .homeRead _ => none
  | .homeWrite _ => none
  | .homeAtomic _ => none
  | .longLatencyComplete _ _ _ => none
  | .storeAck _ => none
  | .writeCompletionExpiry _ => none
  | .leaseExpiry _ _ => none
  | .hotExpiry _ => none
  | .nodeReached _ _ => none
  | .inputCopyStart _ _ _ => none
  | .nodeDispatch _ _ => none
  | .kernelNodeFinish _ _ => none
  | .condNode _ _ => none
  | .whileNode _ _ => none
  | .joinNode _ _ => none
  | .signalNode _ _ => none
  | .inputCopyComplete _ => none
  | .outputCopyComplete _ => none
  | .slipwayHandoff _ => none
  | .slipwayRetryExpiry _ => none
  | .slipwayComplete _ _ => none
  | .fetchComplete _ _ _ => none
  | .walkComplete _ => none
  | .faultSettle _ _ => none
  | .trapRecordWrite _ => none
  | .launchFatalEnd _ => none
  | .sliceEnd _ _ => none
  | .firstSwitch _ => none
  | .stopOrder _ => none
  | .tileQuiet _ => none
  | .swapOrder _ => none
  | .tileSwap _ => none
  | .spillResource _ _ => none
  | .shadowPreload _ => none
  | .debugStop _ _ => none
  | .debugStep _ _ => none
  | .stepEnd _ => none
  | .stepIdleTimeout _ => none
  | .debugDump _ => none
  | .dumpComplete _ => none
  | .debugLcen _ _ => none
  | .tqbaseWrite _ _ => none
  | .tqheadWrite _ _ => none
  | .resolveWrite _ _ => none
  | .routeWrite _ _ _ => none
  | .modidWrite _ => none
  | .peerWrite _ _ _ => none
  | .translationInvalidation _ _ => none
  | .invalidationComplete _ => none
  | .registerWrite _ _ => none
  | .cut _ => none
  | .dissolve _ => none
  | .bindWorld _ => none
  | .unbindWorld _ => none
  | .grant _ => none
  | .reclaim _ => none
  | .quantum _ => none
  | .reshapeGrow _ => none
  | .reshapeShrink _ => none
  | .reshapeCompact _ => none
  | .reshapeMigrate _ => none
  | .evict _ => none
  | .freeze _ => none
  | .power _ => none
  | .inrushTokenGrant _ => none
  | .inrushTokenReturn _ => none
  | .fieldTransitionComplete _ => none
  | .powerAlert _ _ => none
  | .thermalTrip => none
  | .moduleReset => none
  | .firmwareLoad _ _ => none
  | .snapshot _ _ => none
  | .restore _ _ => none
  | .snapshotComplete _ => none
  | .exclusionLogged _ => none
  | .treeNodeRepair _ _ _ _ => none
  | .packetArrival _ _ => none
  | .linkStop _ _ _ => none
  | .linkGo _ _ _ => none
  | .messageArrival _ => none
  | .hostCompletion _ _ => none
  | .atomicPointService _ _ => none
  | .remoteRequest _ => none
  | .remoteResponse _ _ => none
  | .remoteTimeout _ => none
  | .wharfLinkDown _ => none
  | .wharfLinkUp _ => none
  | .lockInterface _ => none
  | .startInterface _ => none
  | .stopInterface _ => none
  | .getTdispVersion _ => none
  | .getTdispCapabilities _ => none
  | .getDeviceInterfaceReport _ => none
  | .getDeviceInterfaceState _ => none
  | .getVersion _ => none
  | .getCapabilities _ => none
  | .negotiateAlgorithms _ => none
  | .getDigests _ => none
  | .getCertificate _ => none
  | .challenge _ => none
  | .getMeasurements _ _ => none
  | .keyExchange _ _ => none
  | .finish _ => none
  | .heartbeat _ => none
  | .keyUpdate _ => none
  | .endSession _ => none
  | .vendorDefinedKeyInstall _ _ => none
  | .ideKm _ => none
  | .ideIntegrityFailure _ => none
  | .heartbeatLost _ => none
  | .cycleCharge _ => none
  | .stackCacheWriteback _ _ => none
  | .hostCompletionTimeout _ => none
  | .commandSubmission _ _ => none
  | .tileStateError _ _ _ _ => none
  | .quenchComplete _ => none
  | .tableChangeComplete _ => none

/-- The bytes of an instruction, as memory holds them; none for a step that has no word. -/
def encodeBytes (i : Instr) : Option (List Byte) :=
  (encode i).map fun f => leBytes (lenBytes f.len) f.pack.toNat

end Sys2Proof
end

