-- ==== Sys2Proof/Machine/Place.lean ====
section
/-! DEFINITION. Placing one instruction where the machine fetches next (log entry 9). -/

namespace Sys2Proof.Machine

/-- The tile, world, launch, team and group of a state in which nothing runs: tile 0 of field 0, world 0 in partition
0, one team of one thread with 256 registers at PC 0x10000, no instruction window open (log entry 9). -/
def M.oneThread (m : M) : M :=
  let th : Thread := { idx := 0, entry := 0x10000, regpc := 0x10000 }
  let g : Group :=
    { uid := m.uid, team := m.uid + 1, pc := 0x10000, allot := 256, lanes := [(0, th)],
      gone := ((List.range 32).filter fun i => 1 ≤ i).map fun i => (i, .unfilled), span := BitVec.ofNat 64 (32 * 2 ^ 32) }
  let tm : Team := { launch := m.uid + 2, world := 0, index := 0, tile := 0, cluster := m.uid + 3, pos := 0, live := 1 }
  let la : Launch :=
    { wq := 0, seq := 0, world := 0, part := 0, next := 1, placed := [m.uid + 1],
      lr := { entry := 0x10000, teams := 1, h := 1, w := 1, threads := 1, regs := 256 } }
  let cl : Cluster := { launch := m.uid + 2, world := 0, index := 0, w := 1, h := 1, teams := [(0, m.uid + 1)] }
  { m with
    uid := m.uid + 4
    agenda := []
    tiles := [(0, { latch := some 0 })]
    fields := put m.fields 0 { m.field 0 with pst := 0, target := 0 }
    parts := [(0, { used := true, tiles := [0], worlds := [0], latched := some 0 })]
    worlds := put m.worlds 0 { m.world 0 with part := some 0 }
    wts := put m.wts 0 { groups := [(0, g)], used := 256 }
    teams := [(m.uid + 1, tm)]
    launches := [(m.uid + 2, la)]
    clusters := [(m.uid + 3, cl)]
    wqs := put m.wqs 0 { m.wq 0 with running := true } }

/-- Store an instruction's bytes in the fetch block of a group, at its PC. -/
def M.putCode (m : M) (t w : Nat) (g : Group) (bs : List Byte) : M :=
  let off := g.pc.toNat % 32
  let tl := m.tile t
  let old := ((look tl.fetch (blockKey w g.pc.toNat)).map (·.data)).getD []
  let b : FetchBlock := { data := (old.take off ++ List.replicate (off - old.length) 0 ++ bs).take 32 }
  m.setTile t { tl with fetch := put tl.fetch (blockKey w g.pc.toNat) b }

/-- The group the machine would issue next, if it may issue at all. -/
def M.nextGroup (m : M) : Option (Nat × Nat × Group) :=
  match m.agenda, m.pick with
  | [], some (t, slot) =>
    match (m.tile t).latch with
    | some w => ((look (m.wt w t).groups slot).filter fun g => m.mayIssue t w slot g && g.wait == .none).map fun g => (t, w, g)
    | none => none
  | _, _ => none

def M.placeWord (m : M) (nbits n : Nat) : M :=
  match m.nextGroup with
  | some (t, w, g) => m.putCode t w g (tableBytes nbits n)
  | none =>
    let m1 := m.oneThread
    match m1.nextGroup with
    | some (t, w, g) => m1.putCode t w g (tableBytes nbits n)
    | none => m1

end Sys2Proof.Machine
end

