-- ==== Sys2Proof/Machine/Due.lean ====
section
/-! DEFINITION. Events that are due when the agenda is empty and no group has a turn: the first of a fixed order (log entry
3). What other agents begin (the host, other modules, errors) is not among them. -/

namespace Sys2Proof.Machine

/-- What the next step does: execute an instruction or event in a state, or only change the state. -/
inductive Move where
  | run (i : Instr) (m : M)
  | quiet (m : M)

/-- An event, if it is enabled. -/
def M.try (m : M) (r : Option M) (i : Instr) : Option Move := if r.isSome then some (.run i m) else none

/-- An event whose effect is applied at once. -/
def now (r : Option M) : Option Move := r.map .quiet

/-- Accesses at field homes, acknowledgements and walks. -/
def M.dueHome (m : M) : Option Move :=
  (m.acc.findSome? fun (a : Access) =>
    m.try (m.homeRead a.id) (.homeRead a.id) <|> m.try (m.homeWrite a.id) (.homeWrite a.id) <|> m.try (m.homeAtomic a.id) (.homeAtomic a.id)
      <|> m.try (m.storeAck a.id) (.storeAck a.id))
  <|> m.walks.findSome? fun (k : Walk) => m.try (m.walkDone k.id) (.walkComplete k.id)

/-- What a group in a slot waits for: its fetch, its operations, its requests. -/
def M.dueGroup (m : M) (w t slot : Nat) (g : Group) : Option Move :=
  let fetch (va : Nat) : Option Move :=
    if (m.tile t).latch = some w && (look (m.tile t).fetch (blockKey w va)).isNone then m.try (m.fetchDone t va false) (.fetchComplete t va false)
    else none
  let fetched : Option Move := match g.wait with
    | .fetch va => fetch va
    | x => if x.begun && m.mayIssue t w slot g then fetch g.pc.toNat else none
  fetched
  <|> (g.ops.findSome? fun (p : Pend) => m.try (m.opCompletes t slot p.id) (.longLatencyComplete t slot p.id)
        <|> m.try (m.accrdDone t slot p.id) (.accrdWriteback t slot p.id))
  <|> m.try (m.fenceEndOn t slot) (.fenceEnd t slot) <|> m.try (m.anvilAdmit t slot) (.anvilAccept t slot)
  <|> m.try (m.releaseFree t slot) (.claimReleaseFree t slot)
  <|> if (m.tile t).out = some w then now (m.settles t slot) else none

/-- Groups of every world on every tile. -/
def M.dueGroups (m : M) : Option Move :=
  m.wts.findSome? fun (k, wt) => wt.groups.findSome? fun (slot, g) => m.dueGroup (k / 8192) (k % 8192) slot g

/-- Units of a tile. Every timer that has run out expires before a group forms (R117). -/
def M.dueUnits (m : M) (t : Nat) : Option Move :=
  let w := (m.tile t).latch.getD 0
  m.try (m.growGranted t) (.growGrant t) <|> now (m.overflowMove t 1 true)
  <|> now (m.overflowMove t 32 false) <|> m.try (m.passDone t) (.anvilPassComplete t) <|> m.try (m.pilotServe t) (.pilotRequestService t)
  <|> ((m.wt w t).sems.findSome? fun (i, _) => m.try (m.semMet t i) (.semaphoreRequestMet t i))
  <|> ((m.wt w t).bins.findSome? fun (b, _) => m.try (m.binExpires t b) (.binTimerExpiry t b))
  <|> ((m.wt w t).bins.findSome? fun (b, _) => m.try (m.formGroup t b) (.groupFormation t b))
  <|> m.try (m.admission t) (.landingAdmission t)

/-- Nodes of a tile's chains. -/
def M.dueChains (m : M) (t : Nat) : Option Move :=
  (List.range 16).findSome? fun (ch : Nat) =>
    m.try (m.nodeFinish t ch) (.kernelNodeFinish t ch) <|> m.try (m.condActs t ch 2) (.condNode t ch) <|> m.try (m.condActs t ch 3) (.whileNode t ch)
    <|> m.try (m.joinActs t ch) (.joinNode t ch) <|> m.try (m.signalActs t ch) (.signalNode t ch)
    <|> ([0, 1, 2, 3].findSome? fun (i : Nat) => m.try (m.inputStart t ch i) (.inputCopyStart t ch i))
    <|> m.try (m.nodeDispatch t ch) (.nodeDispatch t ch) <|> m.try (m.nodeReached t ch) (.nodeReached t ch)

/-- Copies and messages under way. -/
def M.dueCopies (m : M) : Option Move :=
  (m.copies.findSome? fun (k : Copy) =>
    m.try (m.inputOver k.id) (.inputCopyComplete k.id) <|> m.try (m.outputOver k.id) (.outputCopyComplete k.id)
    <|> m.try (m.handOff k.id) (.slipwayHandoff k.id) <|> m.try (m.slipOver k.id true) (.slipwayComplete k.id true))
  <|> m.flights.findSome? fun (f : Flight) => m.try (m.messageArrives f.id) (.messageArrival f.id)

/-- Worlds' tables, records, invalidations, dumps and quenches. -/
def M.dueWorld (m : M) (w : Nat) : Option Move :=
  m.try (m.tableChanged w) (.tableChangeComplete w) <|> m.try (m.writeRec w) (.trapRecordWrite w)
  <|> m.try (m.invalidated w) (.invalidationComplete w) <|> m.try (m.dumpDone w) (.dumpComplete w)
  <|> m.try (m.quenchEnds (8192 + w)) (.quenchComplete (8192 + w))

/-- Launches and queues. -/
def M.dueLaunch (m : M) : Option Move :=
  (m.launches.findSome? fun (l, _) =>
    m.try (m.fatalEnd l) (.launchFatalEnd l) <|> m.try (m.gridStalls l) (.gridStall l) <|> m.try (m.ticket l) (.ticketRelease l)
    <|> m.try (m.completeLaunch l) (.launchComplete l) <|> m.try (m.dispatch l) (.clusterPlacement l))
  <|> m.wqs.findSome? fun (q, _) => m.try (m.startLaunch q) (.launchStart q)

/-- A dirty stack line that must go home: a fence or a node waits for it, its world leaves the tile, or its team has ended
(R175). -/
def M.dueStack (m : M) (t : Nat) : Option Move :=
  (m.rowWorld t 5).bind fun w =>
    let wt := m.wt w t
    let leaves := (m.tile t).out == some w || (m.tile t).phase != .running
    let over' (i : Nat) : Bool := match look m.teams i with
      | some tm => tm.ended
      | none => true
    let must (line : Nat) : Bool := leaves || wt.flush.contains line || wt.stackd.any fun (a, o) => a / 64 == line && over' o.1
    (wt.dirtyLines.filter must).findSome? fun line => now (m.stackBack t line)

/-- The switch on a tile (R330 to R332). -/
def M.dueTile (m : M) (t : Nat) : Option Move :=
  let row := (m.tile t).spill + 1
  m.dueStack t <|> m.try (m.stopOrder t) (.stopOrder t) <|> m.try (m.tileQuiet t) (.tileQuiet t) <|> m.try (m.tileSwap t) (.tileSwap t)
  <|> m.try (m.spillRow t row) (.spillResource t row) <|> now (m.preload t) <|> m.try (m.stepEnds t) (.stepEnd t)
  <|> now (m.stepEndsBy t [2])
  <|> m.try (m.quenchEnds t) (.quenchComplete t)

/-- Slices and swap orders of a partition. -/
def M.duePart (m : M) (p : Nat) : Option Move :=
  m.try (m.sliceEnds p false) (.sliceEnd p false) <|> m.try (m.sliceEnds p true) (.sliceEnd p true)
  <|> m.try (m.firstSwitch p) (.firstSwitch p) <|> m.try (m.swapOrder p) (.swapOrder p)

/-- A command the hearth holds, by its code. CUT is checked against the log in its own step. -/
def M.dueCmd (m : M) (i : Nat) : Option Move :=
  m.try (m.cutP i false) (.cut i) <|> m.try (m.dissolveP i) (.dissolve i) <|> m.try (m.bindW i) (.bindWorld i)
  <|> m.try (m.unbindW i) (.unbindWorld i) <|> m.try (m.grantF i) (.grant i) <|> m.try (m.reclaimF i) (.reclaim i)
  <|> m.try (m.quantumP i) (.quantum i) <|> m.try (m.reshapeP i 0) (.reshapeGrow i) <|> m.try (m.reshapeP i 1) (.reshapeShrink i)
  <|> m.try (m.reshapeP i 2) (.reshapeCompact i) <|> m.try (m.reshapeP i 3) (.reshapeMigrate i) <|> m.try (m.evictW i) (.evict i)
  <|> m.try (m.freezeP i) (.freeze i) <|> m.try (m.powerP i) (.power i)

/-- The hearth: commands, exclusions that wait, and fields on their way. -/
def M.dueHearth (m : M) : Option Move :=
  ((List.range m.hearth.cmds.length).findSome? m.dueCmd)
  <|> (m.hearth.pend.findSome? fun (e : W64) => m.try (m.exclusionDue e) (.exclusionLogged e))
  <|> m.fields.findSome? fun (f, _) => m.try (m.tokenTake f) (.inrushTokenGrant f) <|> m.try (m.tokenGive f) (.inrushTokenReturn f)
        <|> m.try (m.fieldMoved f) (.fieldTransitionComplete f)

/-- A node of a hash tree with an uncorrectable error is repaired; it matches unless it was stale (R397). -/
def M.dueRepair (m : M) : Option Move :=
  m.failed.findSome? fun (f, level, line) =>
    now (m.treeRepair f level line (!m.stale.contains (f, level, line)))

/-- Waits of stores run out last. -/
def M.dueWaits (m : M) : Option Move := m.acc.findSome? fun (a : Access) => m.try (m.waitExpires a.id) (.writeCompletionExpiry a.id)

/-- The first event that is due. -/
def M.due (m : M) : Option Move :=
  let ts := m.tiles.map (·.1)
  m.dueHome <|> m.dueGroups <|> ts.findSome? m.dueUnits <|> ts.findSome? m.dueChains <|> m.dueCopies
  <|> (m.worlds.map (·.1)).findSome? m.dueWorld <|> m.dueLaunch <|> ts.findSome? m.dueTile <|> (m.parts.map (·.1)).findSome? m.duePart
  <|> m.dueHearth <|> m.dueRepair <|> m.dueWaits

end Sys2Proof.Machine
end

