-- ==== Sys2Proof/Machine/Read.lean ====
section
/-! DEFINITION. What the host reads in the registers of its functions (R154, R337, R350, R382, R400, R402, R403, R442). Write-only
registers, offsets that are not listed and accesses that are not aligned read zero. -/

namespace Sys2Proof.Machine

/-- Table 9-1: WQCTL, WQCA and WQSTAT. -/
def WQ.read (q : WQ) (off : Nat) : W64 :=
  if off = 0x40 then 0#32 ++ q.vec ++ 0#14 ++ BitVec.ofBool q.irq ++ BitVec.ofBool q.en
  else if off = 0x48 then q.ca
  else if off = 0x50 then 0#8 ++ q.badwr ++ 0#3 ++ BitVec.ofBool q.cwfail ++ BitVec.ofNat 4 q.pend ++ q.nextseq
  else 0

/-- Table 19-3: TQBASE, TQHEAD, TQTAIL and HANDLERQ. -/
def World.readTrap (wd : World) (off : Nat) : W64 :=
  if off = 0x00 then wd.tqbase
  else if off = 0x08 then wd.tqhead.setWidth 64
  else if off = 0x10 then wd.tqtail.setWidth 64
  else if off = 0x18 then wd.handlerq
  else 0

/-- DBGCTL and DBGSTAT (Tables 18-6 and 18-7). -/
def Dbg.ctl (d : Dbg) : W64 := 0#24 ++ d.team ++ 0#2 ++ BitVec.ofBool d.lcen ++ 0#1 ++ d.stop
def Dbg.stat (d : Dbg) : W64 :=
  0#48 ++ BitVec.ofNat 8 d.stepend ++ BitVec.ofBool d.dumpErr ++ BitVec.ofBool d.dumpBusy ++ BitVec.ofBool d.stepping.isSome ++ 0#1 ++ d.stop

/-- Table 18-4. The physical function reads zero while DBGEN is 0 (R337). -/
def M.readDbg (m : M) (w off : Nat) (pf : Bool) : W64 :=
  let wd := m.world w
  let dbg := ((m.dbgTile w).map fun t => (m.wt w t).dbg).getD {}
  if !m.dbgOpen w pf then 0
  else if off = 0x00 then wd.dbgsel
  else if off = 0x08 then dbg.ctl
  else if off = 0x10 then dbg.stat
  else if off = 0x18 then wd.dbgbuf
  else 0

/-- WSTATE (Table 22-2). -/
def World.state (wd : World) : W64 :=
  0#48 ++ BitVec.ofBool wd.part.isSome ++ BitVec.ofNat 7 (wd.part.getD 0) ++ 0#6 ++ BitVec.ofNat 2 wd.st.num

/-- Table 22-2, and the out-of-band record above it (Table 23-1). -/
def World.readConfig (wd : World) (off : Nat) : W64 :=
  if off = 0x00 then wd.state
  else if off = 0x08 then wd.root
  else if off = 0x10 then wd.ctx
  else if off = 0x18 then wd.ttb
  else if off = 0x20 then wd.stkb
  else if off = 0x28 then wd.stkn
  else if off = 0x30 then wd.sec
  else if off = 0x38 then (BitVec.ofBool wd.inv).setWidth 64
  else if 0x100 ≤ off && off < 0x140 then ((wd.oobrec.map FRec.words).getD [])[(off - 0x100) / 8]?.getD 0
  else if off = 0x140 then wd.oobseq.setWidth 64
  else 0

/-- A route entry as it is read (Table 21-5). -/
def Route.word (r : Route) : W64 := 0#24 ++ BitVec.ofBool r.v ++ r.droute ++ 0#1 ++ r.dest

/-- RTSEL, RTREJ and the routes of tile TIDX (Table 23-1, R402). -/
def M.readRoutes (m : M) (w off : Nat) : W64 :=
  let wd := m.world w
  if off = 0x00 then wd.rtsel
  else if off = 0x08 then wd.rtrej.setWidth 64
  else if 0x200 ≤ off && off < 0x400 then
    match m.tileAt w (wd.rtsel.extractLsb' 0 13).toNat with
    | some t => (mget {} (m.wt w t).routes ((off - 0x200) / 8)).word
    | none => 0
  else 0

/-- A register of a world's virtual function (Table 23-1). -/
def M.readVf (m : M) (w off : Nat) : W64 :=
  let wd := m.world w
  if !m.hears w then 0
  else if off < 0x4000 then (m.wq (4 * w + off / 0x1000)).read (off % 0x1000)
  else if off < 0x5000 then wd.readTrap (off % 0x1000)
  else if off < 0x6000 then m.readDbg w (off % 0x1000) false
  else if off < 0x7000 then wd.readConfig (off % 0x1000)
  else if off < 0x8000 then m.readRoutes w (off % 0x1000)
  else if off < 0x8400 then wd.msixAt ((off - 0x8000) / 8)
  else if off = 0x9000 then wd.msixPend.foldl (fun v i => v ||| (1#64 <<< i)) 0
  else 0

/-- SNAPCTL, WHMASK and PEER, and the other registers of Table 23-2. -/
def M.readModule (m : M) (p off : Nat) : W64 :=
  let h := m.hearth
  let pt := m.port p
  if off = 0x040 then pt.cmdca
  else if off = 0x048 then 0#28 ++ BitVec.ofNat 4 h.cmds.length ++ h.nextseq
  else if off = 0x050 then 0#55 ++ BitVec.ofBool h.modid.isSome ++ 0#2 ++ h.modid.getD 0
  else if off = 0x058 then (BitVec.ofBool pt.atomok).setWidth 64
  else if off = 0x060 then pt.evbase
  else if off = 0x068 then pt.evhead.setWidth 64
  else if off = 0x070 then 0#16 ++ pt.lost ++ 0#23 ++ pt.evtail
  else if off = 0x078 then pt.snapctl
  else if off = 0x080 then h.snapstat.setWidth 64
  else if off = 0x088 then h.whsel.setWidth 64
  else if off = 0x090 then mget 0 h.whmask h.whsel.toNat
  else if off = 0x098 then pt.dsel.setWidth 64
  else if 0x1000 ≤ off && off < 0x2000 then m.readDbg pt.dsel.toNat (off % 0x1000) true
  else if 0x2000 ≤ off && off < 0x2200 then mget 0 (m.world pt.dsel.toNat).peers ((off - 0x2000) / 8)
  else 0

/-- FPSTAT of a field (Table 27-2). -/
def Field.stat (f : Field) : W64 :=
  0#54 ++ BitVec.ofBool f.token ++ BitVec.ofBool f.moving ++ 0#4 ++ BitVec.ofNat 2 f.target ++ BitVec.ofNat 2 f.pst

/-- FWBUF, FWCTL and FWSTAT (Table 27-2): they answer whatever the hearth's state. -/
def M.readFw (m : M) (p off : Nat) : Option W64 :=
  if off = 0x0C0 then some (m.port p).fwbuf
  else if off = 0x0C8 then some (m.port p).fwctl
  else if off = 0x0D0 then some (0#48 ++ m.hearth.svn ++ 0#5 ++ m.hearth.fwst)
  else none

/-- A register of a port's physical function (Tables 23-2 and 27-2). While the hearth waits for an image or loads one, only
those of its firmware answer (R442). -/
def M.readPf (m : M) (p off : Nat) : W64 :=
  if m.hearth.off || 16 ≤ p then 0
  else match m.readFw p off with
    | some v => v
    | none =>
      if !m.responds then 0
      else if off = 0x0A0 then (m.port p).fpsel.setWidth 64
      else if off = 0x0A8 then (m.field (m.port p).fpsel.toNat).stat
      else if off = 0x0B0 then m.hearth.telem
      else m.readModule p off

/-- A read of the host: of 8 aligned bytes, else of zero (R400). -/
def M.readBar (m : M) (a : BarAddr) : W64 := match a with
  | .vf w off size => if size = 8 ∧ off % 8 = 0 then m.readVf w off else 0
  | .pf p off size => if size = 8 ∧ off % 8 = 0 then m.readPf p off else 0

end Sys2Proof.Machine
end

