-- ==== Sys2Proof/Machine/Turn.lean ====
section
/-! DEFINITION. Which agent moves next (log entry 3), and the fetch of a group's next instruction (R17, R19, R58,
R320). -/

namespace Sys2Proof.Machine

/-- A step of the machine that is no instruction of a thread: well formed and without a word. -/
def isEvent (i : Instr) : Bool := i.wf && (encode i).isNone

/-- A group was evaluated in this cycle: it is not again before the next one (R164). -/
def M.mark (m : M) (t slot : Nat) : M :=
  let tl := m.tile t
  { m.setTile t { tl with tried := slot :: tl.tried } with cur := some (t, slot) }

/-- The group keeps waiting until an event ends its wait. -/
def Group.asleep (g : Group) : Bool := g.record.isSome

/-- The instructions whose effects in one cycle come in order of group slot (R124, R225, R253, R278, R285, R289, R420,
R422). The pilot orders its own requests (PilotReq). -/
def isOrdered : Instr → Bool
  | .grow _ _ => true
  | .hbind _ _ _ _ _ _ _ => true
  | .hbindRel _ _ => true
  | .condw _ _ _ _ => true
  | .sacq _ _ => true
  | .send _ _ _ _ => true
  | .sendTo _ _ _ _ _ => true
  | .recv _ _ _ _ _ => true
  | .claim _ _ => true
  | .release _ _ => true
  | _ => false

/-- STRY takes its effect at the end of the cycle (R287). -/
def isTry : Instr → Bool
  | .stry _ _ _ => true
  | _ => false

/-- A pick of a lower group slot of the issue set may still come in this cycle, or one has been kept back. -/
def M.lowerLeft (m : M) (w t slot : Nat) : Bool :=
  let tl := m.tile t
  tl.later.any (fun x => decide (x < slot) && issueSet x == issueSet slot)
    || ((tl.done (issueSet slot)).isEmpty && (m.todo w t (issueSet slot)).any fun x => decide (x < slot))

/-- Keep a slot back, in order of group slot. -/
def insSlot (x : Nat) : List Nat → List Nat
  | [] => [x]
  | y :: ys => if x ≤ y then x :: y :: ys else y :: insSlot x ys

/-- CLAIM and RELEASE are checked when the claim table serves them (R278). -/
def isClaim : Instr → Bool
  | .claim _ _ => true
  | .release _ _ => true
  | _ => false

/-- A pick that issues an ordered instruction takes its effect after those of lower slots: the pick is noted, with what it
reads, and its effect kept back; so is the fault of a CLAIM or RELEASE, which what lower slots do may still avert. None
when it does not issue. -/
def M.keepBack (m : M) (t w slot at' : Nat) (i : Instr) : Option M :=
  let lanes (m : M) : Option (AMap Thread) := (look (m.wt w t).groups slot).map (·.lanes)
  let pc := ((look (m.wt w t).groups slot).map (·.pc)).getD 0
  match exec i { m := m, nv := {} } with
  | .next s =>
    let faults : Option IssuedRec := if isClaim i ∧ lanes s.m ≠ lanes m then some { slot := slot, pc := pc, banks := [], anvil := false } else none
    (((s.m.tile t).issued.find? fun r => r.slot == slot).or faults).map fun r =>
      let tl := m.tile t
      m.setTile t { tl with issued := tl.issued ++ [r], later := insSlot at' tl.later }
  | .fault _ => none
  | .refused _ => none

/-- A pick whose effect was kept back takes it now: what it was picked against is no matter any more. -/
def M.takeLater (m : M) (t at' : Nat) : M :=
  let tl := m.tile t
  let slot := at' % 192
  let mine (r : IssuedRec) : Bool := issueSet r.slot == issueSet slot
  m.setTile t { tl with later := tl.later.filter (· != at')
                        past := tl.past ++ tl.issued.filter (fun r => mine r && r.slot != slot)
                        issued := tl.issued.filter fun r => !mine r }

/-- A group whose instruction cannot be read takes the fault in every active lane (R58, R62, R320). What comes before any
instruction comes before it, for a NOP that crosses its block as for any NOP (R55); `taken` is the state once the fault is
taken. -/
def M.badFetch (m : M) (c : Ctx) (nop : Bool) (code : Code) (addr detail : Nat) (taken : M) : M :=
  match m.before c { len := 0, counted := !nop } with
  | some m1 => m1
  | none =>
    match m.parkWait c (whole c.g.lanes code addr detail) with
    | some m1 => m1
    | none => taken.reject c c.g.lanes code addr detail

/-- The two issue slots of the set are used: a group whose instruction could issue but for its bank reads collects them
(R166). Nothing else of it happens. -/
def M.collect (m : M) (t w slot : Nat) (i : Instr) : M :=
  let bank (m : M) : Option Nat := (look (m.wt w t).groups slot).bind (·.bank)
  match exec i { m := m, nv := {} } with
  | .next s => if bank s.m = bank m then m else m.updGroup w t slot fun g =>
      { g with bank := bank s.m, wait := if g.wait.begun then g.wait else .none }
  | .fault _ => m
  | .refused _ => m

/-- Why a group of a stopped issue set would not issue, as if the set ran: ISSUE when it is ready (R339, Table 18-9). -/
def M.whyNot (m : M) (c : Ctx) : Cause :=
  let wt := m.wt c.w c.t
  let free := m.setWT c.w c.t { wt with dbg := { wt.dbg with stop := 0, lift := 0, brk := 0, stepping := none } }
  let after (m1 : M) : Cause :=
    if (m1.tile c.t).issued.any (·.slot == c.slot) then .issue
    else ((look (m1.wt c.w c.t).groups c.slot).bind (·.cause)).getD .issue
  match look (m.tile c.t).fetch (blockKey c.w c.g.pc.toNat) with
  | none => ((free.atMeeting c).map after).getD .fetch
  | some b => match b.fault, decode ((b.bytes c.g.team).drop (c.g.pc.toNat % 32)) with
    | none, .ok i _ => match exec i { m := free, nv := {} } with
      | .next s => after s.m
      | .fault _ => .issue
      | .refused _ => .issue
    | _, _ => .issue

/-- The group's turn: its fetch block, the instruction at its PC, and the instruction's issue. `m` is the state with
the group marked. The record of an encoding fault has the PC as its ADDR (log entry 88). -/
def M.fetch (m : M) (t w slot : Nat) (g : Group) (fresh : Bool) : Move :=
  let full := fresh && (m.tile t).setUsed (issueSet slot)
  let c : Ctx := { t := t, w := w, slot := slot, g := g, ex := g.lanes }
  if !m.mayIssue t w slot g || g.asleep then
    .quiet (if m.isStopped t w slot g && !g.asleep then m.updGroup w t slot fun g => { g with why := some (m.whyNot c) } else m)
  else
    let pc := g.pc.toNat
    match look (m.tile t).fetch (blockKey w pc) with
    | none =>
      match m.atMeeting c with
      | some m1 => .quiet m1
      | none => .quiet (m.updGroup w t slot (·.waitFor (.fetch pc)))
    | some b =>
      match b.fault with
      | some (code, detail) =>
        let tl := m.tile t
        .quiet (if full then m else m.badFetch c false code pc detail (m.setTile t { tl with fetch := del tl.fetch (blockKey w pc) }))
      | none =>
        match decode ((b.bytes g.team).drop (pc % 32)) with
        | .ok i _ =>
          if full then .quiet (m.collect t w slot i)
          else if fresh && (isTry i || (isOrdered i && m.lowerLeft w t slot)) then
            match m.keepBack t w slot (if isTry i then slot + 192 else slot) i with
            | some m1 => .quiet m1
            | none => .run i m
          else .run i m
        | .illegal => .quiet (if full then m else m.badFetch c false .illegalEncoding pc 0 m)
        | .boundary => .quiet (if full then m else m.badFetch c (((b.bytes g.team).drop (pc % 32)).headD 0 == 0) .fetchBoundary pc 0 m)

/-- The turn of a group, if it has one in this cycle. -/
def M.groupTurn (m : M) (t at' : Nat) : Move :=
  let slot := at' % 192
  match (m.tile t).latch with
  | none => .quiet m
  | some w =>
    match look (m.wt w t).groups slot with
    | none => .quiet (m.takeLater t at')
    | some g =>
      if (m.tile t).tried.contains slot then ((m.takeLater t at').mark t slot).fetch t w slot g false
      else (m.mark t slot).fetch t w slot g true

/-- What comes by the default order: the next group of the tile that is behind; then an event that is due; then a cycle of
that tile. -/
def M.goOn (m : M) : Move :=
  match m.pick with
  | some (t, slot) => m.groupTurn t slot
  | none =>
    match m.due with
    | some move => move
    | none =>
      match m.behind with
      | some t => .run (.cycleCharge t) m
      | none => .quiet m

/-- A line of memory begins or ceases to have an error (R324, R409). -/
def M.lineFails (m : M) (line : Nat) (bad : Bool) : M :=
  { m with ecc := if bad then line :: m.ecc.filter (· != line) else m.ecc.filter (· != line) }

/-- A node of a hash tree no longer matches its children, or has an uncorrectable error (R189, R397). -/
def M.nodeFails (m : M) (field level line : Nat) (stale : Bool) : M :=
  if 80 ≤ field || 10 ≤ level || fieldLines ≤ line then m
  else if stale then { m with stale := (field, level, line) :: m.stale } else { m with failed := (field, level, line) :: m.failed }

/-- A write of the host to its memory waits while an instruction's atomics to the location are under way (R210); what is
to come on the agenda comes before it. -/
def M.hostTurn (m : M) (p a : Nat) (bs : List Byte) (rest : List Turn) : Move :=
  let host : Turn → Bool
    | .host _ _ _ => true
    | _ => false
  if !m.between p a bs.length (fun _ => false) then .quiet { m with agenda := rest, hmem := Memory.writeL m.hmem (hostKey p a) bs }
  else if rest.all host then m.goOn
  else .quiet { m with agenda := rest ++ [.host p a bs] }

/-- The next step: the agenda first, then the default order. -/
def M.move (m : M) : Move :=
  match m.agenda with
  | .ev i :: rest => if isEvent i then .run i { m with agenda := rest } else .quiet { m with agenda := rest }
  | .go :: rest => ({ m with agenda := rest } : M).goOn
  | .mem line bad :: rest => .quiet (({ m with agenda := rest } : M).lineFails line bad)
  | .host p a bs :: rest => m.hostTurn p a bs rest
  | .read a :: rest => .quiet { m with agenda := rest, readout := m.readBar a }
  | .evict t line :: rest => .quiet (({ m with agenda := rest } : M).l1Drop t line)
  | .image im :: rest => .quiet (({ m with agenda := rest } : M).layImages im)
  | .domain k :: rest => .quiet { m with agenda := rest, hearth := { m.hearth with domain := k } }
  | .node field level line stale :: rest => .quiet (({ m with agenda := rest } : M).nodeFails field level line stale)
  | [] => m.goOn

end Sys2Proof.Machine
end

