-- ==== Sys2Proof/Machine/Step.lean ====
section
/-! DEFINITION. One step of the machine, and placing an instruction where the next step fetches. -/

namespace Sys2Proof.Machine

/-- One step: the move the machine makes next (log entry 3). -/
def step (s : State) : Host.Outcome State Fault Refusal :=
  match s.m.move with
  | .run i m => exec i { s with m := m }
  | .quiet m => .next { s with m := m }

/-- The state with an instruction stored in the fetch block of the group that issues next; where no group would
issue, a tile, a world, a launch, a team and a group with one thread are there as after a launch (log entry 9). -/
def State.withFetchWord (s : State) (nbits w : Nat) : State := { s with m := s.m.placeWord nbits w }

end Sys2Proof.Machine
end

