-- ==== Sys2Proof/Safety.lean ====
section
/-! DEFINITION. The terms in which the statements speak: runs that go on, when an instruction of the current group
issues with nothing in its way, and what it leaves as it was. -/

namespace Sys2Proof

open Machine

/-- Some state follows. -/
def Goes (o : Host.Outcome State Fault Refusal) : Prop := ∃ s, o = .next s

/-- n steps from a state all answer a next state. -/
def Safe : Nat → State → Prop
  | 0, _ => True
  | n + 1, s => ∃ t, step s = .next t ∧ Safe n t

/-- The context in which the current group issues an instruction with this header (R16, R132). -/
def ctxOf (h : Hdr) (s : State) : Option Ctx :=
  s.m.curG.map fun (t, w, slot, g) =>
    { t := t, w := w, slot := slot, g := g, ex := g.lanes.filter fun (_, th) => guardOk h th }

/-- The group has its turn and nothing that is older stands before the instruction: the group may issue (R315, R331,
R338, R394), no late fault settles first (R308), no lane stands at its meeting address (R122), no used-up window
blocks it (R55), and the rows of Table 18-2 it touches are restored (R333). -/
abbrev Ready (h : Hdr) (f : Form) (s : State) (c : Ctx) : Prop :=
  ctxOf h s = some c ∧ s.m.mayIssue c.t c.w c.slot c.g = true ∧
  (f.counted && !c.g.wait.begun && c.g.settleDue (f.waits || f.nonIdem || f.region)) = false ∧
  c.g.faultAtMeet = false ∧ c.g.arriving.isEmpty = true ∧
  (f.counted && !c.g.blocking.isEmpty) = false ∧
  f.touch.any (fun r => decide ((s.m.wt c.w c.t).restored < r)) = false

/-- Every register the instruction names lies below the allotment, and the allotment it asks for is one (R12, R151). -/
abbrev InAllot (f : Form) (g : Group) : Prop :=
  f.vec.any (fun (r, n) => decide (g.allot < r + n)) = false ∧ (f.badAllot && !g.wait.begun) = false

/-- The accuracy class of the header is one the instruction has (R42). -/
abbrev ClassOk (h : Hdr) (f : Form) : Prop := h.ac = .ex ∨ f.mark = .all

/-- No window watches what the instruction names in an executing lane (R56), and it waits for no pending operation
(R57, R306). -/
abbrev NoWait (f : Form) (g : Group) (ex : List (Nat × Thread)) : Prop :=
  (g.violators f ex).isEmpty = true ∧ (g.awaits f ex).isEmpty = true ∧ (f.nonIdem && !(g.lateOf ex).isEmpty) = false

/-- The instruction issues: ready, with an executing lane, its registers allotted, its class allowed, nothing to wait
for, and no register bank or port in its way in this cycle (R16, R164, R166). -/
abbrev Issues (h : Hdr) (f : Form) (s : State) (c : Ctx) : Prop :=
  Ready h f s c ∧ c.ex.isEmpty = false ∧ InAllot f c.g ∧ ClassOk h f ∧ NoWait f c.g c.ex ∧
  c.bankDelay f = none ∧ s.m.dual c f = false

/-- The instruction issues, and a sequential advance stays in the address space (R18). -/
abbrev IssuesSeq (h : Hdr) (f : Form) (s : State) (c : Ctx) : Prop :=
  Issues h f s c ∧ pastEnd c.g.pc f.len = false

/-- A change of the threads of the executing lanes (R132). -/
def onEx (c : Ctx) (f : Thread → Thread) (g : Group) : Group :=
  { g with lanes := mapV (fun l th => if c.ex.any (·.1 == l) then f th else th) g.lanes }

/-- A write of a uniform register with the value of the lowest executing lane (R70). -/
def uniEx (c : Ctx) (k : Nat) (v : Thread → W64) (g : Group) : Group :=
  match c.ex.head? with
  | some (_, th) => g.setK k (v th)
  | none => g

/-- A write of a 64-bit operand (R70, R81). -/
def opdEx (c : Ctx) (d : Opd64) (v : Thread → W64) (g : Group) : Group :=
  match d with
  | .pair r => onEx c (fun th => th.setPair r.toNat (v th)) g
  | .uni k => uniEx c k.toNat v g

/-- A group at the end of its instruction: the next PC, no age, nothing waited for, no bank read (R17, R164, R166, R304). -/
def ended (c : Ctx) (f : Form) (npc : Va) (g : Group) : Group :=
  { g with pc := npc, age := 0, wait := .none, bank := none, walked := [],
           lanes := if f.region then (onEx c (enterRegion npc) g).lanes else g.lanes }

/-- Nothing but the group in its slot differs: every other group, register, resource, tile, launch, memory and store
is as it was. What counts time may differ: the instructions issued in the cycle, the stall interval of the launch,
the lane-cycle record, and the idle count of a debug step (R163, R164, R338, R341); and the group waits for room in the
landing no longer, while every other wait stands (R119). -/
def Rest (s t : State) (c : Ctx) : Prop :=
  t.nv = s.nv ∧
  { t.m with wts := s.m.wts, tiles := s.m.tiles, launches := s.m.launches } = s.m ∧
  (∀ k, k ≠ wtKey c.w c.t → look t.m.wts k = look s.m.wts k) ∧
  { t.m.wt c.w c.t with groups := (s.m.wt c.w c.t).groups, lcr := (s.m.wt c.w c.t).lcr,
                        dbg := (s.m.wt c.w c.t).dbg, admits := (s.m.wt c.w c.t).admits } = s.m.wt c.w c.t ∧
  (t.m.wt c.w c.t).admits.filter (·.slot != c.slot) = (s.m.wt c.w c.t).admits.filter (·.slot != c.slot) ∧
  { (t.m.wt c.w c.t).dbg with idle := (s.m.wt c.w c.t).dbg.idle } = (s.m.wt c.w c.t).dbg ∧
  (∀ i, i ≠ c.slot → look (t.m.wt c.w c.t).groups i = look (s.m.wt c.w c.t).groups i) ∧
  (∀ k, k ≠ c.t → look t.m.tiles k = look s.m.tiles k) ∧
  { t.m.tile c.t with issued := (s.m.tile c.t).issued } = s.m.tile c.t ∧
  (∀ k, (look t.m.launches k).map (fun l => { l with stall := 0 })
      = (look s.m.launches k).map (fun l => { l with stall := 0 }))

/-- Every byte of memory reads as before: field memory, host memory, and the scratchpad, the operand memory and the stack
cache of every world on every tile. -/
def SameBytes (s t : State) : Prop :=
  (∀ a, Memory.read t.m.fmem a = Memory.read s.m.fmem a) ∧ (∀ a, Memory.read t.m.hmem a = Memory.read s.m.hmem a) ∧
  (∀ w n a, Memory.read (t.m.wt w n).scratch a = Memory.read (s.m.wt w n).scratch a) ∧
  (∀ w n a, Memory.read (t.m.wt w n).omem a = Memory.read (s.m.wt w n).omem a) ∧
  (∀ w n a, Memory.read (t.m.wt w n).stackc a = Memory.read (s.m.wt w n).stackc a)

/-- An instruction of the group leaves the group g, ended, and the rest as in s. -/
def Leaves (s t : State) (c : Ctx) (f : Form) (npc : Va) (g : Group) : Prop :=
  look (t.m.wt c.w c.t).groups c.slot = some (ended c f npc g) ∧ Rest s t c

/-- An instruction that only writes registers of its group: wherever it issues it completes, goes on at the next
instruction, and the group is changed by u alone. -/
def Writes (i : Instr) (h : Hdr) (f : Form) (u : Ctx → Group → Group) : Prop :=
  ∀ s c, IssuesSeq h f s c → ∃ t, exec i s = .next t ∧
    Leaves s t c f (nextPc c.g.pc f.len) (u c (if f.counted then c.g.countWin else c.g))

/-- The machine once a window has counted the instruction (R55). -/
def counted (c : Ctx) (f : Form) (m : M) : M := if f.counted then m.updGroup c.w c.t c.slot Group.countWin else m

/-- What follows is the machine of s with the group of the context, if it is still there, ended. -/
def After (s t : State) (c : Ctx) (f : Form) (npc : Va) : Prop :=
  look (t.m.wt c.w c.t).groups c.slot = (look (s.m.wt c.w c.t).groups c.slot).map (ended c f npc) ∧ Rest s t c

/-- An instruction with an effect e on the machine beside its group: wherever it issues and its own conditions p hold
it completes, and what it leaves is the state e makes, with the group ended at the next PC. -/
def Does (i : Instr) (h : Hdr) (f : Form) (p : Ctx → M → Prop) (e : Ctx → M → M) : Prop :=
  ∀ s c, IssuesSeq h f s c → p c (counted c f s.m) → ∃ t, exec i s = .next t ∧
    After { s with m := e c (counted c f s.m) } t c f (nextPc c.g.pc f.len)

/-- A transfer of control: wherever it issues with a target that it can go to (R18), the group goes on there, changed by
u alone. -/
def Jumps (i : Instr) (h : Hdr) (f : Form) (p : Ctx → Prop) (target : Ctx → W64) (u : Ctx → Group → Group) : Prop :=
  ∀ s c, Issues h f s c → p c → (target c).extractLsb' 0 2 = 0#2 → (target c).extractLsb' 56 8 = 0#8 →
    ∃ t, exec i s = .next t ∧ Leaves s t c f ((target c).extractLsb' 0 56) (u c c.g.countWin)

/-- An instruction that must wait: wherever it issues and its own conditions p hold, the group keeps its place with the
wait given and no bank cycles of its own left, and what it has done so far is the state e makes (R168). -/
def Holds (i : Instr) (h : Hdr) (f : Form) (p : Ctx → M → Prop) (wait : Ctx → M → Wait) (e : Ctx → M → M) : Prop :=
  ∀ s c, Issues h f s c → p c (counted c f s.m) → ∃ t, exec i s = .next t ∧
    look (t.m.wt c.w c.t).groups c.slot = some { c.g with wait := wait c (counted c f s.m), bank := none } ∧
    Rest { s with m := e c (counted c f s.m) } t c

/-- What acceptance of an anvil operation makes: the group's request leaves the queue of those that wait, the operation
stands last among the accepted, the group's own part of it is done, and what heads them and is no MMA takes effect
(R270). -/
def accepted (c : Ctx) (m : M) (occ : Nat) (op : AnvilOp) (eff : M → M) : M :=
  let m0 := m.unask c
  let wt := m0.wt c.w c.t
  (eff (m0.setWT c.w c.t { wt with anvil := wt.anvil ++ [{ op with fin := wt.arrayEnd (m0.tile c.t).cycle + occ }] })).anvilDrain
    c.w c.t (wt.anvil.length + 1)

/-- The anvil accepts now: it has room for the occupancy and its port is free, and the group's request has been
admitted, or it has made none and no other waits (R270). -/
def acceptsNow (c : Ctx) (m : M) (occ : Nat) : Prop :=
  m.anvilTakes c.w c.t occ = true ∧
    (c.g.wait = .request .engine true ∨ (c.g.wait = .none ∧ (m.wt c.w c.t).anvilq = []))

/-- An event: wherever its condition holds it happens, and what follows is the state given. -/
def Happens (i : Instr) (p : M → Prop) (e : M → M) : Prop :=
  ∀ s, p s.m → exec i s = .next { s with m := e s.m }

/-- What two steps of the module's nonvolatile memory keep: the fuse map stands, the retirement log only grows and never
beyond its 16,384 entries, the fused minimum version never falls (R363, R366, R443). -/
def nvKeeps (a b : Nv) : Prop :=
  b.fuse = a.fuse ∧ a.log <+: b.log ∧ b.log.length ≤ max a.log.length 16384 ∧ a.minSvn ≤ b.minSvn

/-- The log is within its 16,384 entries. -/
def nvFits (n : Nv) : Prop := n.log.length ≤ 16384

end Sys2Proof
end

