-- ==== Sys2Proof/Certificates/Slice0/Obligations.lean ====
section
/-! DEFINITION. The statements of this model, from the rules of the manual. -/

open Sys2Proof Sys2Proof.Machine

/-! ## Integer and floating-point instructions -/

/-- Wherever an integer arithmetic instruction issues it completes with the value of Table 4-2 in the destination of every
executing lane, and changes nothing else (R68 to R73). -/
def Obligations.IntegerArithmeticCompletes : Prop :=
  ∀ (h : Hdr) (d a b : BitVec 8) (t : Src) (imm : W32) (u sat : Bool),
    let f2 := regForm 8 d 1 (one a ++ t.vecs)
    let m2 := regForm 8 d 1 (one a ++ t.vecs) .exOnly
    let f1 := regForm 8 d 1 (one a)
    let two (i : Instr) (f : Form) (op : W32 → W32 → W32) : Prop :=
      Writes i h f fun c => onEx c fun th => th.setX d.toNat (op (th.xr a.toNat) (srcV th t))
    two (.add h d a t) f2 (fun x y => x + y) ∧
    two (.sub h d a t) f2 (fun x y => x - y) ∧
    two (.mul h d a t) m2 (fun x y => BitVec.ofInt 32 (x.toInt * y.toInt)) ∧
    two (.mulh h d a t) m2 (fun x y => (x.signExtend 64 * y.signExtend 64).extractLsb' 32 32) ∧
    two (.mulhu h d a t) m2 (fun x y => (x.setWidth 64 * y.setWidth 64).extractLsb' 32 32) ∧
    two (.div h d a t) f2 (fun n q => if q = 0 then BitVec.allOnes 32 else n.sdiv q) ∧
    two (.divu h d a t) f2 (fun n q => if q = 0 then BitVec.allOnes 32 else n / q) ∧
    two (.rem h d a t) f2 (fun n q => if q = 0 then n else n.srem q) ∧
    two (.remu h d a t) f2 (fun n q => if q = 0 then n else n % q) ∧
    two (.min h d a t) f2 (fun x y => if x.toInt ≤ y.toInt then x else y) ∧
    two (.max h d a t) f2 (fun x y => if y.toInt ≤ x.toInt then x else y) ∧
    two (.minu h d a t) f2 (fun x y => if x.toNat ≤ y.toNat then x else y) ∧
    two (.maxu h d a t) f2 (fun x y => if y.toNat ≤ x.toNat then x else y) ∧
    two (.addsat h u d a t) f2 (fun x y => if u then satU (x.toNat + y.toNat) else satS (x.toInt + y.toInt)) ∧
    two (.subsat h u d a t) f2 (fun x y => if u then satU ((x.toNat : Int) - y.toNat) else satS (x.toInt - y.toInt)) ∧
    Writes (.addi h d a imm) h (regForm 12 d 1 (one a))
      (fun c => onEx c fun th => th.setX d.toNat (th.xr a.toNat + imm)) ∧
    Writes (.mulw h u d a t) h (regForm 8 d 2 (one a ++ t.vecs) .exOnly) (fun c => onEx c fun th =>
      th.setPair d.toNat (if u then (th.xr a.toNat).setWidth 64 * (srcV th t).setWidth 64
        else (th.xr a.toNat).signExtend 64 * (srcV th t).signExtend 64)) ∧
    Writes (.mad h d a b t) h (regForm 8 d 1 (one a ++ one b ++ t.vecs) .exOnly) (fun c => onEx c fun th =>
      th.setX d.toNat (th.xr a.toNat * th.xr b.toNat + srcV th t)) ∧
    Writes (.abs h sat d a) h f1 (fun c => onEx c fun th =>
      th.setX d.toNat (if sat then satS |(th.xr a.toNat).toInt| else BitVec.ofInt 32 |(th.xr a.toNat).toInt|)) ∧
    Writes (.neg h sat d a) h f1 (fun c => onEx c fun th =>
      th.setX d.toNat (if sat then satS (-(th.xr a.toNat).toInt) else 0 - th.xr a.toNat))

/-- Logic, shifts and bit fields (Table 4-4, R74, R75). -/
def Obligations.LogicCompletes : Prop :=
  ∀ (h : Hdr) (d a b : BitVec 8) (t : Src) (fk : FillKind) (pos : BitVec 5) (len : BitVec 6) (sg : Bool),
    let two (i : Instr) (op : W32 → W32 → W32) : Prop :=
      Writes i h (regForm 8 d 1 (one a ++ t.vecs)) fun c => onEx c fun th => th.setX d.toNat (op (th.xr a.toNat) (srcV th t))
    let un (i : Instr) (op : W32 → W32) : Prop :=
      Writes i h (regForm 8 d 1 (one a)) fun c => onEx c fun th => th.setX d.toNat (op (th.xr a.toNat))
    let three (i : Instr) (op : W32 → W32 → W32 → W32) : Prop :=
      Writes i h (regForm 8 d 1 (one a ++ one b ++ t.vecs)) fun c => onEx c fun th =>
        th.setX d.toNat (op (th.xr a.toNat) (th.xr b.toNat) (srcV th t))
    two (.and h d a t) (fun x y => x &&& y) ∧
    two (.or h d a t) (fun x y => x ||| y) ∧
    two (.xor h d a t) (fun x y => x ^^^ y) ∧
    two (.andn h d a t) (fun x y => x &&& ~~~y) ∧
    two (.orn h d a t) (fun x y => x ||| ~~~y) ∧
    two (.shl h d a t) (fun x y => x <<< y) ∧
    two (.shr h d a t) (fun x y => x >>> y) ∧
    two (.sar h d a t) (fun x y => x.sshiftRight y.toNat) ∧
    two (.rotl h d a t) (fun x y => x.rotateLeft y.toNat) ∧
    three (.funnel h d a b t) (fun x y z => ((y ++ x) >>> (z.toNat % 64)).setWidth 32) ∧
    un (.clz h d a) (fun x => BitVec.ofNat 32 (if x = 0 then 32 else 31 - Nat.log2 x.toNat)) ∧
    un (.ctz h d a) (fun x => BitVec.ofNat 32 (if x = 0 then 32 else 31 - Nat.log2 x.reverse.toNat)) ∧
    un (.popc h d a) (fun x => BitVec.ofNat 32 ((List.range 32).countP fun i => x.getLsbD i)) ∧
    un (.brev h d a) (fun x => x.reverse) ∧
    un (.bfe h sg pos len d a) (bfeV sg pos.toNat len.toNat) ∧
    Writes (.bfi h pos len d a b) h (regForm 8 d 1 (one a ++ one b)) (fun c => onEx c fun th =>
      th.setX d.toNat (bfiV pos.toNat len.toNat (th.xr a.toNat) (th.xr b.toNat))) ∧
    three (.bytep h fk d a b t) (bytepV fk) ∧
    two (.sext h d a t) (fun x y => if y = 0 ∨ 32 ≤ y.toNat then x else (x <<< (32 - y.toNat)).sshiftRight (32 - y.toNat)) ∧
    two (.zext h d a t) (fun x y => if y = 0 ∨ 32 ≤ y.toNat then x else (x <<< (32 - y.toNat)) >>> (32 - y.toNat))

/-- NOP, moves, selects, compares and predicates (R59, R76 to R80). -/
def Obligations.MovesCompletes : Prop :=
  ∀ (h : Hdr) (d a : BitVec 8) (kd ka : BitVec 6) (p pa pb : BitVec 3) (t : Src) (imm : W32) (w : W64) (cd : Cond)
    (tt : BitVec 4),
    Writes .nop64 always { len := 8, counted := false, once := true } (fun _ g => g) ∧
    Writes .nop96 always { len := 12, counted := false, once := true } (fun _ g => g) ∧
    Writes .nop128 always { len := 16, counted := false, once := true } (fun _ g => g) ∧
    Writes (.movVector h d a) h (regForm 8 d 1 (one a)) (fun c => onEx c fun th => th.setX d.toNat (th.xr a.toNat)) ∧
    Writes (.movPairFromUniform h d ka) h { regForm 8 d 2 [] with uni := [ka.toNat] }
      (fun c => onEx c fun th => th.setPair d.toNat (c.g.kr ka.toNat)) ∧
    Writes (.movUniformFromPair h kd a) h (srcForm 8 [(a.toNat, 2)] [kd.toNat])
      (fun c => uniEx c kd.toNat fun th => th.xr (a.toNat + 1) ++ th.xr a.toNat) ∧
    Writes (.movUniform h kd ka) h (srcForm 8 [] [kd.toNat, ka.toNat])
      (fun c => uniEx c kd.toNat fun _ => c.g.kr ka.toNat) ∧
    Writes (.moviVector h d imm) h (regForm 12 d 1 []) (fun c => onEx c fun th => th.setX d.toNat imm) ∧
    Writes (.moviUniform h kd imm) h (srcForm 12 [] [kd.toNat]) (fun c => uniEx c kd.toNat fun _ => imm.signExtend 64) ∧
    Writes (.movqPair h d w) h (regForm 16 d 2 []) (fun c => onEx c fun th => th.setPair d.toNat w) ∧
    Writes (.movqUniform h kd w) h (srcForm 16 [] [kd.toNat]) (fun c => uniEx c kd.toNat fun _ => w) ∧
    Writes (.sel h d a p t) h (regForm 8 d 1 (one a ++ t.vecs))
      (fun c => onEx c fun th => th.setX d.toNat (if th.pr p then th.xr a.toNat else srcV th t)) ∧
    Writes (.cmp h cd p a t) h (srcForm 8 (one a ++ t.vecs))
      (fun c => onEx c fun th => th.setP p (condV cd (th.xr a.toNat) (srcV th t))) ∧
    Writes (.cmpi h cd p a imm) h (srcForm 12 (one a))
      (fun c => onEx c fun th => th.setP p (condV cd (th.xr a.toNat) imm)) ∧
    Writes (.plop h p pa pb tt) h (srcForm 8 [])
      (fun c => onEx c fun th => th.setP p (tt.getLsbD (2 * (th.pr pa).toNat + (th.pr pb).toNat))) ∧
    Writes (.pmovToRegister h d) h (regForm 8 d 1 [])
      (fun c => onEx c fun th => th.setX d.toNat ((th.p ||| 0x80#8).setWidth 32)) ∧
    Writes (.pmovFromRegister h a) h (srcForm 8 (one a))
      (fun c => onEx c fun th => { th with p := (th.xr a.toNat).extractLsb' 0 8 ||| 0x80#8 })

/-- The 64-bit and address instructions, on pairs in every executing lane or on a uniform register with the lowest lane's
value (R70, R81, R82). -/
def Obligations.WideCompletes : Prop :=
  ∀ (h : Hdr) (d a b : Opd64) (t : Src64) (ar uf w : Bool) (cd : Cond) (p : BitVec 3) (sh : BitVec 3) (imm : W32),
    let two (i : Instr) (op : W64 → W64 → W64) : Prop :=
      Writes i h (wideForm 8 d (a.vecs ++ t.vecs) (a.unis ++ t.unis)) fun c =>
        opdEx c d fun th => op (opdV c.g th a) (src64V c.g th t)
    two (.add64 h d a t) (fun x y => x + y) ∧
    two (.sub64 h d a t) (fun x y => x - y) ∧
    two (.shl64 h d a t) (fun x y => x <<< y) ∧
    two (.shr64 h ar d a t) (fun x y => if ar then x.sshiftRight y.toNat else x >>> y) ∧
    Writes (.cmp64 h uf cd p a t) h (srcForm 8 (a.vecs ++ t.vecs) (a.unis ++ t.unis))
      (fun c => onEx c fun th => th.setP p (condV cd (opdV c.g th a) (src64V c.g th t))) ∧
    Writes (.lea h w sh d a b imm) h (wideForm 12 d (a.vecs ++ b.vecs) (a.unis ++ b.unis))
      (fun c => opdEx c d fun th =>
        opdV c.g th a + ((if w then ((opdV c.g th b).extractLsb' 0 32).signExtend 64 else opdV c.g th b) <<< sh.toNat)
          + imm.signExtend 64)

/-- The floating-point instructions that complete at once: the value of their operation (R91 to R107) in the destination
of every executing lane, and nothing else. -/
def Obligations.FloatCompletes : Prop :=
  ∀ (h : Hdr) (f : FCfg) (fm : Fmt) (d a b e : BitVec 8) (op : SgnOp) (cd : FCond) (p : BitVec 3) (rm : Rm)
    (sat merge ua ub : Bool) (st dt : Ty) (se de : BitVec 2),
    let x (th : Thread) (r : BitVec 8) : Nat := (th.xr r.toNat).toNat
    let two (i : Instr) (mk : AcMark) (v : Nat → Nat → Nat) : Prop :=
      Writes i h (regForm 8 d 1 (one a ++ one b) mk) fun c => onEx c fun th =>
        th.setX d.toNat (BitVec.ofNat 32 (v (x th a) (x th b)))
    let three (i : Instr) (mk : AcMark) (v : Nat → Nat → Nat → Nat) : Prop :=
      Writes i h (regForm 8 d 1 (one a ++ one b ++ one e) mk) fun c => onEx c fun th =>
        th.setX d.toNat (BitVec.ofNat 32 (v (x th a) (x th b) (x th e)))
    let un (i : Instr) (v : Nat → Nat) : Prop :=
      Writes i h (regForm 8 d 1 (one a)) fun c => onEx c fun th => th.setX d.toNat (BitVec.ofNat 32 (v (x th a)))
    two (.fadd h f d a b) .none (fAdd f) ∧
    two (.fsub h f d a b) .none (fSub f) ∧
    two (.fmul h f d a b) .all (fMul h.ac f) ∧
    three (.fma h f d a b e) .all (fMa h.ac f) ∧
    three (.fnma h f d a b e) .all (fNma h.ac f) ∧
    two (.fmin h fm d a b) .none (fMin fm) ∧
    two (.fmax h fm d a b) .none (fMax fm) ∧
    two (.fsgn h op fm d a b) .none (fSgn op fm) ∧
    Writes (.fcmp h cd fm p a b) h (srcForm 8 (one a ++ one b))
      (fun c => onEx c fun th => th.setP p (fCmp cd fm (x th a) (x th b))) ∧
    un (.fclass h fm d a) (fClass fm) ∧
    un (.frnd h rm fm d a) (fRnd rm fm) ∧
    un (.frcp h rm d a) (fRcp rm) ∧
    un (.frsq h rm d a) (fRsq rm) ∧
    Writes (.cvt h rm sat st dt se de merge d a) h (regForm 8 d 1 (one a ++ if merge then one d else [])) (fun c =>
      onEx c fun th => th.setX d.toNat (BitVec.ofNat 32 (cvtReg rm sat st dt se.toNat de.toNat merge (x th d) (x th a)))) ∧
    two (.hadd2 h f d a b) .none (fun x y => both (fun x y _ => fAdd f x y) x y 0) ∧
    two (.hmul2 h f d a b) .all (fun x y => both (fun x y _ => fMul h.ac f x y) x y 0) ∧
    three (.hfma2 h f d a b e) .all (both (fMa h.ac f)) ∧
    two (.hmin2 h fm d a b) .none (fun x y => both (fun x y _ => fMin fm x y) x y 0) ∧
    two (.hmax2 h fm d a b) .none (fun x y => both (fun x y _ => fMax fm x y) x y 0) ∧
    three (.fdot2 h f d a b e) .all (fDot2 h.ac f) ∧
    three (.dot4 h ua ub d a b e) .exOnly (dot4 ua ub)

/-- FSQRT, FDIV, FEXP2 and FLOG2 complete at issue with their operation pending: the values wait for the event
LONG_LATENCY_COMPLETE, and a window of the header's length watches the destination (R54, R55, R93). -/
def Obligations.LongFloatBegins : Prop :=
  ∀ (h : Hdr) (d a b : BitVec 8) (rm : Rm),
    let begin (v : Thread → Nat) (c : Ctx) (m : M) : M :=
      ({ m with uid := m.uid + 1 } : M).updGroup c.w c.t c.slot fun g =>
        { g with
          ops := g.ops ++ [({ id := m.uid, pc := c.g.pc, len := 8, ll := true, late := false, nonIdem := false,
                              dest := .vals d (c.ex.map fun (l, th) => (l, BitVec.ofNat 32 (v th))), lanes := c.ex.map (·.1) } : Pend)]
          wins := g.wins ++ [({ op := m.uid, lanes := c.ex.map (·.1), left := h.la.toNat, obj := { vec := [(d.toNat, 1)] } } : Window)] }
    let x (th : Thread) (r : BitVec 8) : Nat := (th.xr r.toNat).toNat
    let un (i : Instr) (v : Nat → Nat) : Prop :=
      Does i h (regForm 8 d 1 (one a)) (fun _ _ => True) (begin fun th => v (x th a))
    un (.fsqrt h rm d a) (fSqrt rm) ∧ un (.fexp2 h rm d a) (fExp2 rm) ∧ un (.flog2 h rm d a) (fLog2 rm) ∧
    Does (.fdiv h rm d a b) h (regForm 8 d 1 (one a ++ one b)) (fun _ _ => True) (begin fun th => fDiv rm (x th a) (x th b))

/-! ## Control -/

/-- Transfers go to their target when it is aligned and in the address space: BR with every active lane taking it, or
with the next instruction for its target whatever the vote, BRX to its uniform register, CALL and CALLX with k62 set
to the return address and k63 aligned, RET to k62 (R18, R26, R27, R83, R120). Model's part: where guard-false lanes go
at transfers other than BR is log entry 16. -/
def Obligations.TransfersComplete : Prop :=
  ∀ (h : Hdr) (live : BitVec 8) (imm : W32) (a : BitVec 6),
    let rel (c : Ctx) : W64 := c.g.pc.setWidth 64 + imm.signExtend 64
    let link (len : Nat) (c : Ctx) (g : Machine.Group) : Machine.Group := g.setK 62 ((c.g.pc + BitVec.ofNat 56 len).setWidth 64)
    Jumps (.br h live imm) h { len := 12 } (fun c => c.ex.length = c.g.lanes.length ∨ rel c = c.g.pc.setWidth 64 + 12#64) rel
      (fun _ g => g) ∧
    Jumps (.brx h a) h (srcForm 8 [] [a.toNat]) (fun _ => True) (fun c => c.g.kr a.toNat) (fun _ g => g) ∧
    Jumps (.call h imm) h (srcForm 12 [] [62, 63]) (fun c => c.g.kr 63 &&& 15#64 = 0) rel (link 12) ∧
    Jumps (.callx h a) h (srcForm 8 [] [a.toNat, 62, 63]) (fun c => c.g.kr 63 &&& 15#64 = 0) (fun c => c.g.kr a.toNat) (link 8) ∧
    Jumps (.ret h) h (srcForm 8 [] [62]) (fun _ => True) (fun c => c.g.kr 62) (fun _ g => g)

/-- A divergent BR with room in the landing keeps the larger part of the active lanes, on a tie the part with the lower
address, and the group goes on at that part's address; the threads of the others enter the landing's bin of their own
address and the group's uniform registers, but for those whose meeting address it is, which arrive there. EXIT in every
active lane ends its threads: the group's slot is free, and no memory changes; EXIT in some active lanes ends theirs, and
the group goes on with the others. Both wait for the group's pending long-latency instructions (R84, R119 to R121, R138).
Model's part: that windows and handles travel with a thread is the model's reading, log entries 10 and 11. -/
def Obligations.GroupsSplitAndEnd : Prop :=
  (∀ (h : Hdr) (live : BitVec 8) (imm : W32) (s : State) (c : Ctx),
    let target : W64 := c.g.pc.setWidth 64 + imm.signExtend 64
    let fall : Va := c.g.pc + 12#56
    let stay := c.g.lanes.filter fun (l, _) => !c.ex.any (·.1 == l)
    let keepTaken : Bool := decide (stay.length < c.ex.length) ||
      (decide (stay.length = c.ex.length) && decide ((target.extractLsb' 0 56).toNat < fall.toNat))
    let out := if keepTaken then stay else c.ex
    let away : Va := if keepTaken then fall else target.extractLsb' 0 56
    let f : Form := { len := 12, waits := true, waitsAll := true, touch := [5] }
    let m0 : M := (counted c f s.m).roomTaken c.w c.t c.slot
    let u := (m0.wt c.w c.t).urecFor c.g.team c.g.k
    let n := min live.toNat c.g.allot
    let arrived := out.filter fun x => x.2.meet != 0 && meetVa x.2.meet == away
    let ejected : List Waiting := (out.filter fun x => !(x.2.meet != 0 && meetVa x.2.meet == away)).map fun (l, th) =>
      { th := { th with x := th.x.filter (fun (r, _) => r < n), resv := none }, pc := away, allot := c.g.allot, l := n,
        team := c.g.team, urec := u.1, born := s.m.uid, wins := c.g.countWin.windowsOf l }
    let landed : WT := ((u.2.arriveAs c.g.countWin away u.1 s.m.uid arrived).enterBin (s.m.tile c.t).cycle away u.1 c.g.team
      (m0.bint c.g.team) ejected)
    let gone : M := ((m0.setWT c.w c.t landed).vacate c.w c.t c.slot (out.map (·.1)) .diverged).meetChecks c.w c.t (arrived.map (·.2))
    Issues h { len := 12, waits := true, waitsAll := true, touch := [5] } s c →
    c.ex.length < c.g.lanes.length → target.extractLsb' 0 2 = 0#2 → target.extractLsb' 56 8 = 0#8 →
    target ≠ c.g.pc.setWidth 64 + 12#64 →
    s.m.hasRoom c.w c.t c.slot ((s.m.wt c.w c.t).needOf c.g.team c.g.k (ejectBytes c.g.allot live.toNat away out)) = true →
    ∃ t g, exec (.br h live imm) s = .next t ∧ look (t.m.wt c.w c.t).groups c.slot = some g ∧
      g.pc = (if keepTaken then target.extractLsb' 0 56 else fall) ∧
      g.lanes = (c.g.lanes.filter fun (l, _) => !(out.map (·.1)).contains l) ∧ g.k = c.g.k ∧ g.allot = c.g.allot ∧ g.uid = c.g.uid ∧
      (∀ l ∈ out.map (·.1), look g.gone l = some .diverged) ∧
      After { s with m := gone } t c f g.pc ∧
      t.nv = s.nv ∧ t.m.teams = s.m.teams ∧ t.m.acc = s.m.acc ∧ t.m.worlds = s.m.worlds ∧ SameBytes s t) ∧
  (∀ (h : Hdr) (s : State) (c : Ctx), Issues h { len := 8, waits := true, waitsAll := true, touch := [5] } s c →
    c.ex.length = c.g.lanes.length →
    ∃ t, exec (.exit h) s = .next t ∧ look (t.m.wt c.w c.t).groups c.slot = none ∧
      (∀ tm, look s.m.teams c.g.team = some tm → ∃ tm', look t.m.teams c.g.team = some tm' ∧
        tm'.live = tm.live - c.ex.length) ∧
      t.nv = s.nv ∧ t.m.acc = s.m.acc ∧ t.m.worlds = s.m.worlds ∧ SameBytes s t) ∧
  (∀ (h : Hdr) (s : State) (c : Ctx), IssuesSeq h { len := 8, waits := true, waitsAll := true, touch := [5] } s c →
    c.ex.length < c.g.lanes.length → (c.g.lanes.map (·.1)).Nodup →
    ∃ t g, exec (.exit h) s = .next t ∧ look (t.m.wt c.w c.t).groups c.slot = some g ∧ g.pc = nextPc c.g.pc 8 ∧
      g.lanes.map (·.1) = ((c.g.lanes.map (·.1)).filter fun l => !(c.ex.map (·.1)).contains l) ∧ g.k = c.g.k ∧ g.uid = c.g.uid ∧
      (∀ l ∈ c.ex.map (·.1), look g.gone l = some .exited) ∧
      (∀ tm, look s.m.teams c.g.team = some tm → ∃ tm', look t.m.teams c.g.team = some tm' ∧
        tm'.live = tm.live - c.ex.length) ∧
      t.nv = s.nv ∧ t.m.acc = s.m.acc ∧ t.m.worlds = s.m.worlds ∧ SameBytes s t)

/-! ## Memory -/

/-- Loads, prefetches and atomics complete at issue: every lane's access is on its way, and one pending operation holds
the destination (R86, R90, R210, R214 to R218, R227, R229). The windows and the stack must be restored (R333). Model's
part: the tag of a plain access and the checks of coordinates are the model's reading, log entries 17, 29 and 61. -/
def Obligations.LoadsIssue : Prop :=
  ∀ (h : Hdr) (d : DataReg) (dv a cx : BitVec 8) (sx sidx fl : Bool) (sh : BitVec 3) (mm : Mem) (lc : Lc) (hint : Hint)
    (base : Opd64) (off : BitVec 24) (b cc : DataReg) (op : AtomOp),
    let back (c : Ctx) (m : M) : Prop := 5 ≤ (m.wt c.w c.t).restored
    let dims (hb : BitVec 4) (c : Ctx) (m : M) : List Nat :=
      c.ex.filterMap fun (_, th) => ((m.world c.w).tensor (th.hr hb.toNat).toNat).map (·.ndim)
    let load (fresh : Bool) (n : Nat) : Shape :=
      { kind := fun _ => .load, size := mm.sz.bytes, lc := mm.x.lc, hint := mm.x.hint, fresh := fresh, op := n }
    Does (.ld h d sx mm) h (memForm 12 mm.base [] (d.vecs mm.sz) d.unis) back (fun c m =>
      m.issueLate c h 12 false (.data d sx mm.sz) (objOf d mm.sz) (load (freshScope mm.x.scope))
        ((loadLanes c d).map fun (l, th) => wantOf c.g l th mm)) ∧
    Does (.ldg h dv sx sidx sh cx mm) h (memForm 12 mm.base (one cx) (DataReg.vecs mm.sz (.vec dv)) []) back (fun c m =>
      m.issueLate c h 12 false (.data (.vec dv) sx mm.sz) (objOf (.vec dv) mm.sz) (load (freshScope mm.x.scope))
        (c.ex.map fun (l, th) => gatherWant c mm sidx sh cx l th)) ∧
    Does (.ldl h d mm) h (memForm 12 mm.base [] (d.vecs mm.sz) d.unis) back (fun c m =>
      let xs := (loadLanes c d).map fun (l, th) => m.detLane c (wantOf c.g l th mm)
      let lost := (m.flushFor c xs).onLanes c fun _ th => { th with resv := none }
      lost.issueLate c h 12 false (.data d false mm.sz) (objOf d mm.sz)
        (fun n => { kind := fun _ => .ldl, size := mm.sz.bytes, lc := mm.x.lc, fresh := true, reach := 1, op := n }) xs) ∧
    Does (.pref h base off lc hint) h (memForm 12 base [] [] []) (fun _ _ => True) (fun c m =>
      c.ex.foldl (fun m (l, th) => m.prefLane c lc hint (wantAt c.g l th (isStack base) (effAddr c.g th base off).toNat 1)) m) ∧
    Does (.atom h op d mm b cc) h
      { memForm 12 mm.base (b.vecs mm.sz ++ if op = .cas then cc.vecs mm.sz else []) (d.vecs mm.sz)
          (d.unis ++ b.unis ++ if op = .cas then cc.unis else []) with nonIdem := true }
      (fun c m => back c m ∧ (m.det c.g.team && wideScope mm.x.scope) = false) (fun c m =>
      let xs := c.ex.map fun (l, th) => wantOf c.g l th mm
      (m.flushFor c xs).issueLate c h 12 true (.data d false mm.sz) (objOf d mm.sz)
        (fun n => { kind := fun x => .atom op (dataV c.g x.th b mm.sz) (dataV c.g x.th cc mm.sz), size := mm.sz.bytes,
                    lc := mm.x.lc, reach := 1, op := n }) xs) ∧
    (∀ (hb : BitVec 4) (o0 : BitVec 24) (o : BitVec 32) (x : MemX) (n : Nat),
      Does (.ldt h fl dv hb a o0 o x) h { regForm 16 dv 1 (one a) with also := [(a.toNat, n)] }
        (fun c m => n = (dims hb c m).foldl max 1 ∧ back c m ∧ c.coordViolators (m.world c.w) hb a = []) (fun c m =>
        let ps := c.ex.map fun (l, th) => (l, th, tensorLane .read (m.world c.w) c.g th hb a o0 o)
        let sx := ps.filterMap fun (l, _, p) => match p with
          | .at _ _ e => if fmtSigned e.fmt then some l else none
          | .outside e => if fmtSigned e.fmt then some l else none
          | .bad _ _ => none
        let p : Pend := { id := m.uid, pc := c.g.pc, len := 16, ll := true, late := true, nonIdem := false,
                          dest := .tens dv sx, lanes := c.ex.map (·.1) }
        ps.foldl (fun m (l, th, q) => m.ldtLane c fl x p.id l th q)
          (({ m with uid := m.uid + 1 } : M).beginLL c h p { vec := one dv })))

/-- Stores whose lanes all pass their checks complete: every lane's bytes are on their way, in scratch, in the stack cache
or staged (R86, R127, R175, R210, R211, R214, R216, R217, R229). Model's part: the tag of a plain access and the
checks of coordinates are the model's reading, log entries 17, 29 and 61. -/
def Obligations.StoresComplete : Prop :=
  ∀ (h : Hdr) (a cx dv : BitVec 8) (sidx fl : Bool) (sh : BitVec 3) (mm : Mem) (b : DataReg),
    let back (c : Ctx) (m : M) : Prop := 5 ≤ (m.wt c.w c.t).restored
    let dims (hb : BitVec 4) (c : Ctx) (m : M) : List Nat :=
      c.ex.filterMap fun (_, th) => ((m.world c.w).tensor (th.hr hb.toNat).toNat).map (·.ndim)
    let clean (c : Ctx) (m : M) (xs : List Want) : Prop :=
      (m.checkAll c .write mm.sz.bytes 0 xs).miss = [] ∧ (m.checkAll c .write mm.sz.bytes 0 xs).bad = []
    let put (c : Ctx) (m : M) (xs : List Want) : M :=
      (m.checkAll c .write mm.sz.bytes 0 xs).go.foldl (fun m' (x, p) =>
        m'.storeLane c { kind := fun _ => .store, size := mm.sz.bytes, lc := mm.x.lc, op := m.uid } x p)
        { m with uid := m.uid + 1 }
    let direct (c : Ctx) : List Want := c.ex.map fun (l, th) => { wantOf c.g l th mm with data := dataBytes c.g th b mm.sz }
    let scatter (c : Ctx) : List Want :=
      c.ex.map fun (l, th) => { gatherWant c mm sidx sh cx l th with data := dataBytes c.g th b mm.sz }
    Does (.st h mm b) h (memForm 12 mm.base (b.vecs mm.sz) [] b.unis) (fun c m => back c m ∧ clean c m (direct c))
      (fun c m => put c m (direct c)) ∧
    Does (.stg h mm sidx sh cx b) h (memForm 12 mm.base (one cx ++ b.vecs mm.sz) [] b.unis)
      (fun c m => back c m ∧ clean c m (scatter c)) (fun c m => put c m (scatter c)) ∧
    (∀ (hb : BitVec 4) (o0 : BitVec 24) (o : BitVec 32) (x : MemX) (n : Nat),
      let ws (c : Ctx) (m : M) : List (Nat × Want) :=
        c.ex.filterMap fun (l, th) => sttWant fl dv l th (tensorLane .write (m.world c.w) c.g th hb a o0 o)
      Does (.stt h fl hb a dv o0 o x) h { srcForm 16 (one a ++ one dv) with also := [(a.toNat, n)] }
        (fun c m => n = (dims hb c m).foldl max 1 ∧ back c m ∧ c.coordViolators (m.world c.w) hb a = [] ∧
          ∀ q ∈ ws c m, (m.checkAll c .write q.1 0 [q.2]).miss = [] ∧ (m.checkAll c .write q.1 0 [q.2]).bad = [])
        (fun c m => ((ws c m).map fun (n, w) => (n, m.checkAll c .write n 0 [w])).foldl (fun m' (n, k) =>
          k.go.foldl (fun m' (w, p) =>
            m'.storeLane c { kind := fun _ => .store, size := n, lc := x.lc, op := m.uid } w p) m') { m with uid := m.uid + 1 })) ∧
    (∀ (op : Nat),
      Does (.stc h dv mm b) h { memForm 12 mm.base (b.vecs mm.sz) (one dv) b.unis with nonIdem := true, region := true }
        (fun c m => c.g.wait = .result op ∧ (m.accOf c.g op).all (·.settled) = true ∧
          (m.accOf c.g op).filterMap Access.fault? = [])
        (fun c m =>
          let as := m.accOf c.g op
          let kept (x : Access) : Option Access :=
            if x.group == c.g.uid && x.op == op then
              (if x.res == some (.status true) && x.homek != 3 && x.phase != .done true 0 then some { x with kind := .store, res := none } else none)
            else some x
          let m1 : M := { m with acc := m.acc.filterMap kept }
          m1.onLanes c fun l th => match (as.find? (·.lane == l)).bind fun (x : Access) => (match x.res with
              | some (.status ok) => some ok
              | _ => none) with
            | some ok => th.setX dv.toNat (if ok then 0 else 1)
            | none => th))

/-- A fence with nothing to wait for completes once what it names of the stack cache has gone home; tags change when their
counter is idle; flushes and invalidations drop lines (R19, R175, R199, R202, R203, R230 to R233); a fence of scope
PARTITION or SYSTEM ends past the seam ordering points (R201, R378). Model's part: what
a write-back carries and which fences wait for a RECV are the model's reading, log entries 20, 58 and 60. -/
def Obligations.FencesAndCachesComplete : Prop :=
  ∀ (h : Hdr) (dir : FenceDir) (sc : Scope) (i0 : Item) (rest : List Item) (cn : BitVec 3) (it : Item) (base : Opd64)
    (off : BitVec 24) (n : BitVec 8),
    let us (l : List Item) : List Nat := l.flatMap fun it => match it with
      | .handle _ => []
      | .range k _ => [k.toNat]
    let named (c : Ctx) (m : M) : List Span := (i0 :: rest).flatMap fun it => m.itemSpans c it
    let range (c : Ctx) : List Nat := linesOf c base off n.toNat
    let gone (c : Ctx) (m : M) : M := (m.flushLines c (range c)).flush c.w c.t ((range c).map fun l => { lo := l, hi := l })
    Does (.fence h dir sc i0 rest) h (srcForm 16 [] (us (i0 :: rest)))
      (fun c m => c.g.wait = .none ∧
        m.fenceWaits c (m.selected c.g (named c m)) dir sc = []) (fun c m => (m.fenceFlush c (named c m) []).pastSeams c sc) ∧
    (∀ ids, ids ≠ [] → Holds (.fence h dir sc i0 rest) h (srcForm 16 [] (us (i0 :: rest)))
      (fun c m => c.g.wait = .none ∧ m.fenceWaits c (m.selected c.g (named c m)) dir sc = ids) (fun _ _ => .fence ids sc)
      (fun c m => m.fenceFlush c (named c m) ids)) ∧
    Does (.fence h dir sc i0 rest) h (srcForm 16 [] (us (i0 :: rest))) (fun c _ => c.g.wait = .request .fence true)
      (fun c m => m.pastSeams c sc) ∧
    Does (.fenceAll h) h (srcForm 8 [])
      (fun c m => c.g.wait = .none ∧ m.fenceWaits c (List.range 8) .ar .system = [])
      (fun c m => (m.fenceFlush c [{ lo := 0, hi := 2 ^ 58 }] []).pastSeams c .system) ∧
    Does (.fenceAll h) h (srcForm 8 []) (fun c _ => c.g.wait = .request .fence true) (fun c m => m.pastSeams c .system) ∧
    Does (.ftag h cn it) h { srcForm 12 [] (us [it]) with once := true } (fun c m => m.counterIdle c.g cn.toNat = true)
      (fun c m => m.updGroup c.w c.t c.slot fun g =>
        { g with tags := mset [] g.tags cn.toNat (m.itemSpans { c with ex := c.ex.take 1 } it) }) ∧
    Does (.funtag h cn) h { srcForm 8 [] with once := true } (fun c m => m.counterIdle c.g cn.toNat = true)
      (fun c m => m.updGroup c.w c.t c.slot fun g => { g with tags := del g.tags cn.toNat }) ∧
    Does (.cflush h base off n) h (memForm 12 base [] [] []) (fun _ _ => True)
      (fun c m => m.flushLines c (linesOf c base off n.toNat)) ∧
    Does (.cinv h base off n) h (memForm 12 base [] [] [])
      (fun c m => ((gone c m).acc.any fun x => x.group == c.g.uid && !x.kind.isLoad && !x.settled &&
        (range c).contains (x.va / 64)) = false)
      (fun c m => (gone c m).setTile c.t { (gone c m).tile c.t with fetch := ((gone c m).tile c.t).fetch.filter fun (k, _) =>
        !(k / 2 ^ 51 == c.w && (range c).contains (k % 2 ^ 51 / 2)) })

/-- ENTER stores the return address in every executing lane and lowers k63; LEAVE, once its load has its bytes, restores
k62 and raises k63 (R234). Model's part: ADDR of the faults is not stated; log entry 30. -/
def Obligations.FramesComplete : Prop :=
  ∀ (h : Hdr) (n : BitVec 24),
    let ea (c : Ctx) : Nat := (c.g.kr 63 - 8).toNat
    let low (c : Ctx) : W64 := c.g.kr 63 - n.setWidth 64
    let xs (c : Ctx) : List Want := c.ex.map fun (l, th) =>
      { wantAt c.g l th true (ea c) 8 with data := natBytes 8 (c.g.kr 62).toNat }
    Does (.enter h n) h { srcForm 12 [] [62, 63] with once := true, touch := [5] }
      (fun c m => c.g.kr 63 &&& 15#64 = 0 ∧ c.g.limit.toNat ≤ (low c).toNat ∧
        (m.checkAll c .write 8 0 (xs c)).miss = [] ∧ (m.checkAll c .write 8 0 (xs c)).bad = [])
      (fun c m => ((m.checkAll c .write 8 0 (xs c)).go.foldl (fun (m' : M) (x, p) =>
        m'.storeLane c { kind := fun _ => .store, size := 8, op := m.uid } x p) { m with uid := m.uid + 1 }).updGroup c.w c.t c.slot
          fun g => g.setK 63 (low c)) ∧
    (∀ (op : Nat) (x : Access) (bs : List Byte),
      Does (.leave h n) h { srcForm 12 [] [62, 63] with once := true, touch := [5] }
        (fun c m => c.g.wait = .result op ∧ m.accOf c.g op = [x] ∧ x.settled = true ∧ x.res = some (.data bs))
        (fun c m => ({ m with acc := m.acc.filter fun y => y.id != x.id } : M).updGroup c.w c.t c.slot fun g =>
          (g.setK 62 (BitVec.ofNat 64 (bytesNat bs))).setK 63 (g.kr 63 + n.setWidth 64)))

/-- The tensor table: TOPEN of a valid entry gives every executing lane its handle; with .w and for TOPEN.new the handle
comes once every tile uses the changed entry; TCLOSE clears the handle (R220 to R222). Model's part: the table as a
map of the world is the model's choice, log entry 7. -/
def Obligations.TensorHandlesComplete : Prop :=
  ∀ (h : Hdr) (w free : Bool) (d : BitVec 4) (b a : BitVec 6) (off : BitVec 24) (i : Nat),
    let once (len : Nat) (us : List Nat) : Form := { srcForm len [] us with nonIdem := true, region := true, once := true }
    let index (c : Ctx) : Prop := (c.g.kr b.toNat).toNat = i ∧ 1 ≤ i ∧ i < 65536
    let bound (c : Ctx) (m : M) : M := m.onLanes c fun _ th => th.setH d.toNat (BitVec.ofNat 16 i)
    Does (.topen h false d b) h (once 12 [b.toNat])
      (fun c m => index c ∧ c.g.wait = .none ∧ ((m.world c.w).tensor i).isSome = true) bound ∧
    Does (.topen h true d b) h (once 12 [b.toNat]) (fun c _ => index c ∧ c.g.wait = .table true) bound ∧
    Does (.topenNew h w d b a off) h (once 12 [b.toNat, a.toNat]) (fun c _ => index c ∧ c.g.wait = .table true) bound ∧
    Does (.tclose h free d) h { srcForm 8 [] with nonIdem := true, region := true, once := free }
      (fun c _ => free = false ∨ c.g.wait = .table true)
      (fun c m => m.onLanes c fun _ th => th.setH d.toNat 0)

/-- What the table changes do before their handle: TOPEN.w raises VERSION by one, TOPEN.new enters a descriptor that
is accepted and TOPEN.new.w then waits as a fence naming it does and raises its VERSION, TCLOSE.free makes the entries
invalid; each group then waits for the change to reach every tile, and TABLE_CHANGE_COMPLETE ends the wait of the
oldest (R220 to R222). Model's part: the table as a map of the world and plain bases of TOPEN.new are the model's, log
entries 7 and 28. -/
def Obligations.TensorTableChanges : Prop :=
  ∀ (h : Hdr) (d : BitVec 4) (b a : BitVec 6) (off : BitVec 24) (i : Nat) (s : State) (c : Ctx),
    let once (len : Nat) (us : List Nat) (o : Bool) : Form := { srcForm len [] us with nonIdem := true, region := true, once := o }
    let index : Prop := (c.g.kr b.toNat).toNat = i ∧ 1 ≤ i ∧ i < 65536
    let waiting (t : State) : Prop := ∃ g, look (t.m.wt c.w c.t).groups c.slot = some g ∧ g.wait = .table false ∧ g.pc = c.g.pc
    (∀ e, Issues h (once 12 [b.toNat] true) s c → index → c.g.wait = .request .fence true →
      (s.m.world c.w).entry i = some e → e.valid = true →
      ∃ t, exec (.topen h true d b) s = .next t ∧ waiting t ∧
        (t.m.world c.w).entry i = some { e with ver := e.ver + 1 } ∧
        (t.m.world c.w).changes = (s.m.world c.w).changes ++ [(c.t, c.slot)]) ∧
    (∀ e, Issues h (once 12 [b.toNat, a.toNat] true) s c → index → c.g.wait = .request .fence true →
      (s.m.world c.w).entry i = some e →
      ∃ t, exec (.topenNew h true d b a off) s = .next t ∧ waiting t ∧
        (t.m.world c.w).entry i = some { e with ver := e.ver + 1 } ∧
        (t.m.world c.w).changes = (s.m.world c.w).changes ++ [(c.t, c.slot)]) ∧
    (∀ op, Issues h (once 12 [b.toNat, a.toNat] true) s c → index → c.g.wait = .result op →
      (s.m.accOf c.g op).all (·.settled) = true → (s.m.accOf c.g op).filterMap Access.fault? = [] →
      let bs := (s.m.accOf c.g op).flatMap fun x => match x.res with
        | some (.data bs) => bs
        | _ => []
      let e := parseTensor bs
      (s.m.world c.w).tensor i = none → (s.m.world c.w).accepts e.1 e.2 = true →
      (∃ t, exec (.topenNew h false d b a off) s = .next t ∧ waiting t ∧ (t.m.world c.w).entry i = some e.1) ∧
      ∃ t g, exec (.topenNew h true d b a off) s = .next t ∧ look (t.m.wt c.w c.t).groups c.slot = some g ∧ g.pc = c.g.pc ∧
        ((g.wait = .table false ∧ (t.m.world c.w).entry i = some { e.1 with ver := e.1.ver + 1 }) ∨
          ∃ ids, ids ≠ [] ∧ g.wait = .fence ids .partition ∧ (t.m.world c.w).entry i = some e.1)) ∧
    (Issues h (once 8 [] true) s c → c.g.wait = .request .fence true → s.m.closing c d ≠ [] →
      ∃ t, exec (.tclose h true d) s = .next t ∧ waiting t ∧
        ∀ j ∈ s.m.closing c d, ((t.m.world c.w).tensor j).isNone = true) ∧
    (∀ (v t0 slot : Nat) rest g, (s.m.world v).changes = (t0, slot) :: rest → look (s.m.wt v t0).groups slot = some g → g.wait = .table false →
      ∃ t, exec (.tableChangeComplete v) s = .next t ∧ (t.m.world v).changes = rest ∧
        look (t.m.wt v t0).groups slot = some { g with wait := .table true })

/-- Slabs: HBIND into an empty entry, its release, loads and stores inside a READY slab of scratch with no access of their
threads still to perform there, and SLABQ (R28, R178 to R180, R198, R223 to R226). Model's part: the cause charged for
that wait is log entry 91. -/
def Obligations.SlabsComplete : Prop :=
  ∀ (h : Hdr) (d slab a : BitVec 8) (ka : BitVec 6) (sx loc : Bool) (sz : Sz) (off : BitVec 24) (b : DataReg)
    (fmt : BitVec 4) (span : BitVec 3) (size : BitVec 20),
    let entry (c : Ctx) (m : M) : Slab := (m.wt c.w c.t).slab slab.toNat
    let reg (len : Nat) (us : List Nat) : Form :=
      { srcForm len [] us with nonIdem := true, region := true, once := true, touch := [1] }
    let base (c : Ctx) : Nat := (c.g.kr ka.toNat).toNat % 2 ^ 20
    let fp : Nat := footprint span.toNat size.toNat
    let team (c : Ctx) (m : M) (f : Team → Nat) : Nat := ((look m.teams c.g.team).map f).getD 0
    let new (c : Ctx) (m : M) : Slab :=
      { st := .ready, owner := 0xFF, loc := loc, fmt := fmt, span := span, size := size,
        offset := BitVec.ofNat 20 (if loc then base c else team c m (·.scratch) + base c) }
    Does (.hbind h slab ka loc fmt span size) h (reg 12 [ka.toNat])
      (fun c m => (entry c m).st = .empty ∧ base c % 16 = 0 ∧
        (if loc then base c + fp ≤ 2048 * 128 ∧ ∀ i ∈ slotsOf (base c) fp, look (m.wt c.w c.t).claims i = some c.g.team
         else base c + fp ≤ team c m (·.scratchLen)))
      (fun c m => m.setWT c.w c.t
        { (m.wt c.w c.t).setSlab slab.toNat (new c m) with
          spans := (new c m).slots.foldl (fun sp i => mset 0 sp i span.toNat) (m.wt c.w c.t).spans }) ∧
    Does (.hbindRel h slab) h (reg 12 [])
      (fun c m => (entry c m).st = .ready ∧ (entry c m).owner = 0xFF ∧ (m.wt c.w c.t).passReads (entry c m) = false)
      (fun c m => m.setWT c.w c.t ((m.wt c.w c.t).setSlab slab.toNat { entry c m with st := .empty })) ∧
    Does (.ldsl h d sx sz slab a off) h { regForm 12 d sz.regs (one a) with touch := [1, 4] }
      (fun c m => (entry c m).st = .ready ∧
        ∀ x ∈ c.ex, ∃ o, slabLane .read (entry c m) sz.bytes x.1 x.2 a off = .inr o ∧
          m.windowAhead c true sz.bytes x.2 (.inr o) = false)
      (fun c m =>
        let vals : AMap (List W32) := c.ex.filterMap fun (l, th) => match slabLane .read (entry c m) sz.bytes l th a off with
          | .inl _ => none
          | .inr o => some (l, (List.range sz.regs).map fun i =>
              (placeVec { idx := 0 } 0 sx sz (Memory.readN (m.wt c.w c.t).scratch o sz.bytes)).xr i)
        ({ m with uid := m.uid + 1 } : M).beginLL c h
          { id := m.uid, pc := c.g.pc, len := 12, ll := true, late := false, nonIdem := false, dest := .quad d vals,
            lanes := vals.map (·.1) } { vec := [(d.toNat, sz.regs)] }) ∧
    Does (.stsl h sz slab a off b) h { srcForm 12 (one a ++ b.vecs sz) b.unis with touch := [1, 4] }
      (fun c m => (entry c m).st = .ready ∧
        ∀ x ∈ c.ex, ∃ o, slabLane .write (entry c m) sz.bytes x.1 x.2 a off = .inr o ∧
          m.windowAhead c false sz.bytes x.2 (.inr o) = false)
      (fun c m => c.ex.foldl (fun m' (l, th) => match slabLane .write (entry c m) sz.bytes l th a off with
        | .inl _ => m'
        | .inr o => m'.scratchWrite c.w c.t o (dataBytes c.g th b sz)) m) ∧
    Does (.slabq h d slab) h { regForm 8 d 4 [] with touch := [1] } (fun _ _ => True)
      (fun c m => m.onLanes c fun _ th => th.setXs d.toNat (entry c m).words)

/-! ## Parallel instructions -/

/-- Cross-lane instructions: votes, shuffles, reductions, scans and selections over the executing lanes (R142 to R147,
Tables 8-4 and 8-5). Model's part: a lone NaN passes unchanged, log entry 25. -/
def Obligations.CrossLaneCompletes : Prop :=
  ∀ (h : Hdr) (d a b : BitVec 8) (t : Src) (p q : BitVec 3) (wc : BitVec 3) (sop : ShflOp) (op : RedOp) (excl : Bool)
    (kt : KeyTy) (pc : Option (BitVec 3)),
    let ranked (c : Ctx) (m : M) (th : Thread) : Nat :=
      c.ex.countP fun (_, u) => precedes (m.seed c.g.team) (keyIdx kt a b u) (keyIdx kt a b th)
    let chosen (up : Bool) (c : Ctx) (m : M) : M :=
      (winner up kt (m.seed c.g.team) (c.ex.map fun (_, th) => keyIdx kt a b th)).elim m fun w =>
        m.onLanes c fun _ th => match pc with
          | some p => (th.setX d.toNat (w.2.extractLsb' 0 32)).setP p (keyIdx kt a b th == w)
          | none => th.setX d.toNat (w.2.extractLsb' 0 32)
    Writes (.vote h (.some p q)) h (srcForm 8 [])
      (fun c => onEx c fun th => th.setP p (c.ex.any fun (_, u) => u.pr q)) ∧
    Writes (.vote h (.every p q)) h (srcForm 8 [])
      (fun c => onEx c fun th => th.setP p (c.ex.all fun (_, u) => u.pr q)) ∧
    Writes (.vote h (.mask d q)) h (regForm 8 d 1 [])
      (fun c => onEx c fun th => th.setX d.toNat (laneMask ((c.ex.filter fun (_, u) => u.pr q).map (·.1)))) ∧
    Writes (.vote h (.alike p a)) h (srcForm 8 (one a))
      (fun c => onEx c fun th => th.setP p (c.ex.all fun (_, u) => some (u.xr a.toNat) == c.ex.head?.map fun (_, v) => v.xr a.toNat)) ∧
    Does (.shfl h sop wc d a t) h (regForm 8 d 1 (one a ++ t.vecs)) (fun _ _ => True) (fun c m => m.onLanes c fun l th =>
      th.setX d.toNat (((shflFrom sop (2 ^ wc.toNat) l (srcV th t).toNat).bind (exValue c.ex a)).getD (th.xr a.toNat))) ∧
    Writes (.lreduce h op d a) h (regForm 8 d 1 (one a))
      (fun c => onEx c fun th => th.setX d.toNat ((laneTree op (exValue c.ex a)).getD (identity op))) ∧
    Does (.lscan h op excl d a) h (regForm 8 d 1 (one a)) (fun _ _ => True) (fun c m => m.onLanes c fun l th =>
      th.setX d.toNat ((laneTree op fun j => if (if excl then decide (j < l) else decide (j ≤ l)) then exValue c.ex a j else none).getD
        (identity op))) ∧
    Does (.lscanRank h kt d a b) h (regForm 8 d 1 (one a ++ one b)) (fun _ _ => True) (fun c m =>
      m.onLanes c fun _ th => th.setX d.toNat (BitVec.ofNat 32 (ranked c m th))) ∧
    Does (.selmax h kt d a b pc) h (regForm 8 d 1 (one a ++ one b)) (fun _ _ => True) (chosen true) ∧
    Does (.selmin h kt d a b pc) h (regForm 8 d 1 (one a ++ one b)) (fun _ _ => True) (chosen false)

/-- SPAWN puts one thread of each executing lane into the landing, with the registers, predicates and address of Table
8-3, and counts it live, wherever the landing admits it; MEET opens one record for each distinct old meeting value and
puts its number and the meeting address into the lanes that held the value, wherever records are free, and clears the
register for address zero (R119, R122, R136, R137, R140). -/
def Obligations.SpawnAndMeetComplete : Prop :=
  ∀ (h : Hdr) (live a b : BitVec 8) (imm : W32),
    let target (c : Ctx) : W64 := c.g.pc.setWidth 64 + imm.signExtend 64
    let good (c : Ctx) : Prop := (target c).extractLsb' 0 2 = 0#2 ∧ (target c).extractLsb' 56 8 = 0#8
    let srcs : List (Nat × Nat) := (a.toNat, 2) :: (if live = 0 then [] else [(b.toNat, live.toNat)])
    let born (c : Ctx) (m : M) (u : Nat) : List Waiting := c.ex.map fun (_, th) =>
      { th := { idx := th.xpair a.toNat, x := carried th b.toNat live.toNat, p := th.p, entry := target c,
                regpc := (target c).extractLsb' 0 56, spawned := true },
        pc := (target c).extractLsb' 0 56, allot := c.g.allot, l := live.toNat, team := c.g.team, urec := u, born := m.uid }
    let olds (c : Ctx) : List W64 := (c.ex.map fun (_, th) => th.meet).eraseDups
    let opened (c : Ctx) (m : M) : List (W64 × Nat) := (olds c).zip (m.wt c.w c.t).freeMeets
    let rec' (c : Ctx) (v : W64) : Meeting :=
      { m := (target c).extractLsb' 0 56, n := c.ex.countP fun (_, th) => th.meet == v, parent := v, team := c.g.team }
    Does (.spawn h live a b imm) h { srcForm 12 srcs with nonIdem := true, region := true, touch := [5] }
      (fun c m => good c ∧
        (m.wt c.w c.t).creates ((m.wt c.w c.t).needOf c.g.team c.g.k (c.ex.length * entryBytes live.toNat)) = true)
      (fun c m =>
        let u := WT.urecFor { m.wt c.w c.t with lwant := 0 } c.g.team c.g.k
        (m.setWT c.w c.t (u.2.enterBin (m.tile c.t).cycle ((target c).extractLsb' 0 56) u.1 c.g.team (m.bint c.g.team)
          (born c m u.1))).updTeam c.g.team fun tm => { tm with live := tm.live + c.ex.length }) ∧
    Does (.meet h imm) h { len := 12, nonIdem := true, region := true, once := true, touch := [5] }
      (fun c _ => good c ∧ target c = 0) (fun c m => m.onLanes c fun _ th => { th with meet := 0 }) ∧
    Does (.meet h imm) h { len := 12, nonIdem := true, region := true, once := true, touch := [5] }
      (fun c m => good c ∧ target c ≠ 0 ∧ (olds c).length ≤ (m.wt c.w c.t).freeMeets.length)
      (fun c m =>
        (m.setWT c.w c.t { m.wt c.w c.t with
          meets := (opened c m).foldl (fun ms (v, no) => put ms no (rec' c v)) (m.wt c.w c.t).meets }).onLanes c fun _ th =>
          { th with meet := BitVec.ofNat 8 ((((opened c m).find? fun (v, _) => v == th.meet).map (·.2)).getD 0)
              ++ (target c).extractLsb' 0 56 })

/-- Barriers: an arrival that completes the phase, or whose phase has completed since, goes on; ARRIVE gives the count and
never waits; AWAIT goes on once the count lies ahead of the value (R126, R148 to R150, Table 8-6). -/
def Obligations.BarriersComplete : Prop :=
  ∀ (h : Hdr) (n : BitVec 4) (d a : BitVec 8) (cl : Bool),
    let f : Form := { len := 8, waits := true, nonIdem := true, region := true, once := true, touch := [1] }
    let both (i : Instr) (cl : Bool) : Prop :=
      Does i h f (fun c m => c.g.wait = .none ∧ c.again n.toNat = false ∧
          (m.arriveBar c cl n.toNat).barDone cl c.g.team n.toNat (m.barPhase cl c.g.team n.toNat) = true)
        (fun c m => m.arriveBar c cl n.toNat) ∧
      (∀ (cl' : Bool) (k ph : Nat), Does i h f
        (fun c m => c.g.wait = .arrived cl' k ph ∧ m.barDone cl c.g.team n.toNat ph = true) (fun _ m => m))
    both (.barT h n) false ∧ both (.barC h n) true ∧
    Does (.arrive h cl n d) h { regForm 8 d 1 [] with waits := true, nonIdem := true, region := true, once := true, touch := [1] }
      (fun c _ => c.again n.toNat = false)
      (fun c m => (m.onLanes c fun _ th => th.setX d.toNat (m.barCount cl c.g.team n.toNat)).arriveBar c cl n.toNat) ∧
    Does (.await h cl n a) h { srcForm 8 (one a) with waits := true, once := true, touch := [1] }
      (fun c m => ∀ x ∈ c.ex, 1 ≤ (m.barCount cl c.g.team n.toNat - x.2.xr a.toNat).toNat ∧
        (m.barCount cl c.g.team n.toNat - x.2.xr a.toNat).toNat < 2 ^ 31) (fun _ m => m)

/-- The register allotment, changed with no load of the group pending: GROW with rows free and no request before it, or
once granted; SHRINK; and the grant of the first request (R124, R151). Model's part: that no lane executing takes no
REG_ALLOT is log entry 15. -/
def Obligations.AllotmentCompletes : Prop :=
  ∀ (h : Hdr) (n : BitVec 8),
    let f : Form := { len := 8, waits := true, waitsAll := true, nonIdem := true, region := true, once := true, touch := [1] }
    Does (.grow h n) h f
      (fun c m => c.g.wait = .none ∧ c.g.allot + n.toNat ≤ 256 ∧ n.toNat ≤ m.freeRows c.w c.t ∧
        ((m.wt c.w c.t).insReq (.grow c.slot n.toNat (m.tile c.t).cycle) (m.wt c.w c.t).growq).head? =
          some (.grow c.slot n.toNat (m.tile c.t).cycle))
      (fun c m => (m.setWT c.w c.t { m.wt c.w c.t with used := (m.wt c.w c.t).used + n.toNat }).updGroup c.w c.t c.slot
        fun g => { g with allot := g.allot + n.toNat }) ∧
    Does (.grow h n) h f (fun c _ => c.g.wait = .request .grow true) (fun _ m => m) ∧
    Does (.shrink h n) h f (fun c _ => n.toNat + 8 ≤ c.g.allot)
      (fun c m => (m.setWT c.w c.t { m.wt c.w c.t with used := (m.wt c.w c.t).used - n.toNat }).updGroup c.w c.t c.slot
        fun g => { g with allot := c.g.allot - n.toNat
                          lanes := mapV (fun _ th => { th with x := th.x.filter fun (r, _) => r < c.g.allot - n.toNat }) g.lanes }) ∧
    (∀ (s : State) (t w slot k cyc : Nat) (rest : List RowReq) (g : Machine.Group),
      (s.m.tile t).latch = some w → 1 ≤ (s.m.wt w t).restored → (s.m.wt w t).growq = .grow slot k cyc :: rest →
      k ≤ s.m.freeRows w t → look (s.m.wt w t).groups slot = some g →
      ∃ u, exec (.growGrant t) s = .next u ∧ (u.m.wt w t).growq = rest ∧ (u.m.wt w t).used = (s.m.wt w t).used + k ∧
        look (u.m.wt w t).groups slot = some { g with allot := g.allot + k, wait := .request .grow true })

/-- Draws and read-only values: RNG hashes the thread's draw counter and raises its draw count, RNGK hashes the given
counter, MOVS reads the value its selector names (R129, R130, R152, R153, Table 1-2). -/
def Obligations.DrawsComplete : Prop :=
  ∀ (h : Hdr) (d : BitVec 8) (a : Opd64) (r : BitVec 8) (k : BitVec 6) (sel : BitVec 4),
    let key (c : Ctx) (m : M) : W32 × W32 := drawKey (m.teamInfo c.g.team).2.2 (m.teamInfo c.g.team).1
    Does (.rng h d) h { regForm 8 d 1 [] .exOnly with nonIdem := true, region := true } (fun _ _ => True) (fun c m =>
      m.onLanes c fun _ th => { th.setX d.toNat (bellows (drawCounter (m.teamInfo c.g.team).1 th.idx th.draws
        (if th.spawned then 0 else (m.teamInfo c.g.team).2.1)) (key c m).1 (key c m).2) with draws := th.draws + 1 }) ∧
    Does (.rngk h d a) h { regForm 8 d 1 a.vecs .exOnly with uni := a.unis } (fun _ _ => True) (fun c m =>
      m.onLanes c fun _ th => th.setX d.toNat (bellows (opdV c.g th a) (key c m).1 (key c m).2)) ∧
    Does (.movs h (.vec r) sel) h { len := 8, vec := [(r.toNat, if sel64 sel then 2 else 1)] } (fun _ _ => True) (fun c m =>
      m.onLanes c fun l th => if sel64 sel then th.setPair r.toNat (m.readOnly c sel.toNat l th)
        else th.setX r.toNat ((m.readOnly c sel.toNat l th).setWidth 32)) ∧
    Does (.movs h (.uni k) sel) h { len := 8, uni := [k.toNat] } (fun _ _ => True) (fun c m =>
      m.updGroup c.w c.t c.slot fun g => (c.ex.head?).elim g fun (l, th) => g.setK k.toNat (m.readOnly c sel.toNat l th))

/-! ## System instructions -/

/-- System instructions in the groups that may run them: RFE and MTSR of TQHEAD in a handler group, the others in any;
an RFE that ends a launch completes when the threads of its tokens have ended (R304, R343, R344, R346, R347, R349,
R351 to R355). -/
def Obligations.SystemCompletes : Prop :=
  ∀ (h : Hdr) (v : Verdict) (a : BitVec 8) (d o : Opd64) (sr : BitVec 16) (ka : BitVec 6),
    let value (c : Ctx) : W64 := (c.ex.head?).elim 0 fun (_, th) => opdV c.g th o
    let mt : Form := { srcForm 12 o.vecs o.unis with nonIdem := true, region := true, once := true }
    let handler (c : Ctx) (m : M) : Prop := ∃ l, m.launchOf c.g.team = some l ∧ l.2.handler = true
    let resolved (c : Ctx) (m : M) : M := c.ex.foldl (fun m (_, th) => m.resolve c.w (th.xr a.toNat).toNat v) m
    let toks (c : Ctx) (m : M) : List (Nat × Nat) := c.ex.filterMap fun (_, th) =>
      (look (m.world c.w).tokens (th.xr a.toNat).toNat).map fun tk => (tk.tile, (th.xr a.toNat).toNat)
    let parked (c : Ctx) (m : M) (x : Nat × Nat) : Prop := (look (m.wt c.w x.1).parked x.2).isSome = true
    let begins (c : Ctx) : Prop := ∀ l, c.g.wait ≠ .ended l
    let rf : Form := { srcForm 8 (one a) with waits := true }
    Does (.rfe h v a) h rf (fun c m => begins c ∧ handler c m ∧ (v = .fatal → ∀ x ∈ toks c m, ¬ parked c m x)) resolved ∧
    Holds (.rfe h v a) h rf (fun c m => begins c ∧ handler c m ∧ v = .fatal ∧ ∃ x ∈ toks c m, parked c m x)
      (fun c m => .ended (toks c m)) resolved ∧
    (∀ l, Does (.rfe h v a) h rf (fun c m => c.g.wait = .ended l ∧ ∀ x ∈ l, ¬ parked c m x) (fun _ m => m)) ∧
    Does (.region h) h { len := 8, nonIdem := true } (fun _ _ => True)
      (fun c m => m.onLanes c fun _ th => { th with regpc := c.g.pc, regcnt := th.regcnt + 1 }) ∧
    Does (.yield h) h { len := 8, waits := true, nonIdem := true, region := true } (fun _ _ => True)
      (fun c m => (m.partOf c.t).elim m fun p =>
        if (m.part p).latched = some c.w ∧ (m.part p).sw = none then m.setPart p { m.part p with yielded := true } else m) ∧
    Does (.bkpt h) h { len := 8, waits := true } (fun _ _ => True)
      (fun c m => m.setWT c.w c.t { m.wt c.w c.t with
        dbg := { (m.wt c.w c.t).dbg with next := (m.wt c.w c.t).dbg.next ||| (1#4 <<< (c.slot / 48)) } }) ∧
    Does (.mfsr h d sr) h (wideForm 12 d [] []) (fun _ _ => True) (fun c m => m.setOpd c d fun th => m.sysReg c sr.toNat th) ∧
    Does (.mtsr h sr o) h mt (fun c m => sr = 0x11#16 → handler c m)
      (fun c m => m.setWT c.w c.t { m.wt c.w c.t with mtsr := (m.wt c.w c.t).mtsr ++ [(sr.toNat, value c)] }) ∧
    (∀ (m : M) (w t : Nat) (v : W64), m.writeSr w t (0x11, v) = m.setWorld w ((m.world w).moveHead v)) ∧
    (∀ (m : M) (w t : Nat) (v : W64), ∀ r < 32, m.writeSr w t (0x80 + 2 * r, v) =
      m.setWT w t { m.wt w t with pcbase := mset 0 (m.wt w t).pcbase r (v.extractLsb' 0 56) }) ∧
    (∀ (m : M) (w t : Nat) (v : W64), ∀ r < 32, m.writeSr w t (0x81 + 2 * r, v) =
      m.setWT w t { m.wt w t with pclimit := mset 0 (m.wt w t).pclimit r (v.extractLsb' 0 56) }) ∧
    Does (.acct h d ka) h { wideForm 8 d [] [ka.toNat] with touch := [7] } (fun _ _ => True)
      (fun c m => m.setOpd c d fun _ => (m.wt c.w c.t).acctV (c.g.kr ka.toNat)) ∧
    Does (.lrec h d ka) h { wideForm 8 d [] [ka.toNat] with touch := [7] } (fun _ _ => True)
      (fun c m => m.setOpd c d fun _ => (m.wt c.w c.t).lrecV (c.g.kr ka.toNat)) ∧
    Does (.faultq h a ka) h { regForm 8 a 16 [] with uni := [ka.toNat], once := true }
      (fun c m => handler c m ∧
        ((m.world c.w).tqtail - (m.world c.w).tqhead).toNat ≤ ((c.g.kr ka.toNat).extractLsb' 0 11 - (m.world c.w).tqhead).toNat)
      (fun c m => m.onLanes c fun _ th => th.setXs a.toNat (List.replicate 16 0)) ∧
    (∀ bs m', Does (.faultq h a ka) h { regForm 8 a 16 [] with uni := [ka.toNat], once := true }
      (fun c m => handler c m ∧
        ((c.g.kr ka.toNat).extractLsb' 0 11 - (m.world c.w).tqhead).toNat < ((m.world c.w).tqtail - (m.world c.w).tqhead).toNat ∧
        m.fieldRead ((m.world c.w).slotKey ((c.g.kr ka.toNat).extractLsb' 0 11 : BitVec 11).toNat) 64 c.w 0 0 0 = (some bs, m'))
      (fun c _ => m'.onLanes c fun _ th => th.setXs a.toNat
        ((List.range 16).map fun j => BitVec.ofNat 32 (bytesNat ((bs.drop (4 * j)).take 4)))))

/-- TRAP completes and then takes its code: the executing lanes leave the group for the landing, their threads parked
with their registers under one new token, to be replayed after the instruction; the record names the instruction, its
lanes and the code, and lanes that did not execute go on (R304, R309, R313, R318, R345). -/
def Obligations.TrapTaken : Prop :=
  ∀ (h : Hdr) (code : BitVec 8) (s : State) (c : Ctx),
    IssuesSeq h { len := 8, waits := true, nonIdem := true, region := true } s c →
    5 ≤ (s.m.wt c.w c.t).restored → s.m.hasRoom c.w c.t c.slot ((s.m.wt c.w c.t).roomFor c.g c.ex.length) = true →
    c.g.anyLL = false → c.g.late = [] →
    (∀ x ∈ c.ex, x.1 < 32) → (c.g.lanes.map (·.1)).Nodup → look (s.m.wt c.w c.t).parked (s.m.world c.w).nextTok = none →
    ∃ t fr, exec (.trap h code) s = .next t ∧
      (t.m.world c.w).recs.map (·.fr) = (s.m.world c.w).recs.map (·.fr) ++ [fr] ∧
      fr.code = .trap code ∧ fr.pc = c.g.pc ∧ fr.lanes = laneMask (c.ex.map (·.1)) ∧ fr.token = (s.m.world c.w).nextTok ∧
      fr.kind = 0 ∧ fr.group = c.slot ∧
      (∃ tk, look (t.m.world c.w).tokens fr.token = some tk ∧ tk.tile = c.t) ∧
      (∃ pk, look (t.m.wt c.w c.t).parked fr.token = some pk ∧ pk.team = c.g.team ∧
        pk.ths.map (fun e => (e.th, e.pc, e.allot, e.l, e.team, e.urec)) = c.ex.map fun (_, th) =>
          ({ enterRegion (nextPc c.g.pc 8) th with resv := none }, nextPc c.g.pc 8, c.g.allot, c.g.allot, c.g.team,
            ((s.m.wt c.w c.t).urecFor c.g.team c.g.k).1)) ∧
      (∀ g, look (t.m.wt c.w c.t).groups c.slot = some g → g.pc = nextPc c.g.pc 8 ∧
        ∀ x ∈ g.lanes, ¬ ∃ y ∈ c.ex, y.1 = x.1) ∧
      t.nv = s.nv ∧ SameBytes s t

/-! ## Fabric and host -/

/-- GENQ names tiles of the partition; SEND and SEND.to put one message on its way to a current name, unless the first
link of its way is stopped; RECV begins with one request; remote and host accesses issue as loads and atomics do (R367,
R368, R373, R417 to R426). Model's part: messages under way without a bound are the model's reading, log entry 58; the
numbers of the channels are log entry 82. -/
def Obligations.FabricCompletes : Prop :=
  ∀ (h : Hdr) (d a : BitVec 8) (sz : Sz) (r dr kb : BitVec 6) (mk : Option (BitVec 8)) (dd b cc : DataReg) (sx fl : Bool)
    (base : Opd64) (off : BitVec 24) (op : AtomOp) (hop : HostAtomOp),
    let back (c : Ctx) (m : M) : Prop := 5 ≤ (m.wt c.w c.t).restored
    let lanesOf (l : List (Nat × Thread)) (c : Ctx) : List Want :=
      l.map fun (i, th) => wantAt c.g i th (isStack base) (effAddr c.g th base off).toNat sz.bytes
    let cv (cas : Bool) : List (Nat × Nat) := if cas then cc.vecs sz else []
    let cu (cas : Bool) : List Nat := if cas then cc.unis else []
    let fly (c : Ctx) (m : M) (dest : W32) (route : Option Nat) (dr : Nat) : M :=
      let f : Flight := { id := m.uid, world := c.w, src := c.t, dest := keyOfName dest, route := route, droute := dr, msg := msgOf c a sz,
                          group := c.g.uid, epoch := c.g.seams }
      { m with uid := m.uid + 1, flights := m.flights ++ [f] }
    let free (c : Ctx) (m : M) : Prop := m.det c.g.team = false
    let route (c : Ctx) (m : M) : Route := mget {} (m.wt c.w c.t).routes r.toNat
    let named (c : Ctx) : W32 := (c.g.kr kb.toNat).extractLsb' 0 32
    let held (c : Ctx) (m : M) (route : Option Nat) (dest : W32) : Bool :=
      m.heldAtSource (m.worldPart c.w) .message route c.t (keyOfName dest)
    Does (.genqIdx h d a) h (regForm 8 d 1 (one a)) (fun _ _ => True)
      (fun c m => m.onLanes c fun _ th => th.setX d.toNat (genIdx (m.worldPart c.w) (th.xr a.toNat))) ∧
    Does (.genqFix h d a) h (regForm 8 d 1 (one a)) (fun _ _ => True)
      (fun c m => m.onLanes c fun _ th => th.setX d.toNat (m.genFix (m.worldPart c.w) (th.xr a.toNat))) ∧
    Does (.send h sz r a) h (sendForm a sz [])
      (fun c m => free c m ∧ (route c m).v = true ∧ m.current (m.worldPart c.w) (route c m).dest = true ∧
        held c m (some r.toNat) (route c m).dest = false)
      (fun c m => fly c m (route c m).dest (some r.toNat) (route c m).droute.toNat) ∧
    Does (.sendTo h sz kb dr a) h (sendForm a sz [kb.toNat])
      (fun c m => free c m ∧ m.current (m.worldPart c.w) (named c) = true ∧ held c m none (named c) = false)
      (fun c m => fly c m (named c) none dr.toNat) ∧
    Holds (.sendTo h sz kb dr a) h (sendForm a sz [kb.toNat])
      (fun c m => free c m ∧ m.current (m.worldPart c.w) (named c) = true ∧ held c m none (named c) = true)
      (fun _ _ => .pend .engine) (fun _ m => m) ∧
    Does (.recv h sz d r mk) h
      { len := 12, vec := (d.toNat, sz.regs) :: (mk.map fun b => (b.toNat, 1)).toList, nonIdem := true, once := true } free
      (fun c m =>
        let m1 := ({ m with uid := m.uid + 1 } : M).beginLL c h
          { id := m.uid, pc := c.g.pc, len := 12, ll := true, late := true, nonIdem := true, dest := .recv d sz mk,
            lanes := c.ex.map (·.1), ready := false } { vec := (d.toNat, sz.regs) :: (mk.map fun b => (b.toNat, 1)).toList }
        let q : RecvReq := { slot := c.slot, group := c.g.uid, op := m.uid }
        let qs : AMap (List RecvReq) := put (m1.wt c.w c.t).recvs r.toNat (mget [] (m1.wt c.w c.t).recvs r.toNat ++ [q])
        (m1.setWT c.w c.t { m1.wt c.w c.t with recvs := qs }).serveBuf c.w c.t r.toNat 2) ∧
    Does (.rld h dd sx base off sz) h { memForm 12 base [] (dd.vecs sz) dd.unis with nonIdem := true } back
      (fun c m => m.issueLate c h 12 true (.data dd sx sz) (objOf dd sz)
        (fun n => { kind := fun _ => .load, size := sz.bytes, reach := 2, op := n }) (lanesOf (loadLanes c dd) c)) ∧
    Does (.rst h base off sz b) h { memForm 12 base (b.vecs sz) [] b.unis with nonIdem := true, region := true }
      (fun c m => back c m ∧
        (m.checkAll c .write sz.bytes 2 (c.ex.map fun (i, th) =>
          { wantAt c.g i th (isStack base) (effAddr c.g th base off).toNat sz.bytes with data := dataBytes c.g th b sz })).miss = [] ∧
        (m.checkAll c .write sz.bytes 2 (c.ex.map fun (i, th) =>
          { wantAt c.g i th (isStack base) (effAddr c.g th base off).toNat sz.bytes with data := dataBytes c.g th b sz })).bad = [])
      (fun c m => (m.checkAll c .write sz.bytes 2 (c.ex.map fun (i, th) =>
          { wantAt c.g i th (isStack base) (effAddr c.g th base off).toNat sz.bytes with data := dataBytes c.g th b sz })).go.foldl
        (fun m' (x, p) => m'.storeLane c { kind := fun _ => .store, size := sz.bytes, reach := 2, op := m.uid } x p)
        { m with uid := m.uid + 1 }) ∧
    Does (.ratom h op dd base off sz b cc) h
      { memForm 12 base (b.vecs sz ++ cv (op == .cas)) (dd.vecs sz) (dd.unis ++ b.unis ++ cu (op == .cas)) with nonIdem := true }
      (fun c m => back c m ∧ free c m)
      (fun c m => m.issueLate c h 12 true (.data dd false sz) (objOf dd sz)
        (fun n => { kind := fun x => .atom op (dataV c.g x.th b sz) (dataV c.g x.th cc sz), size := sz.bytes, reach := 2, op := n })
        (lanesOf c.ex c)) ∧
    Does (.hatom h hop fl dd base off sz b cc) h
      { memForm 12 base (b.vecs sz ++ cv (hop == .cas)) (dd.vecs sz) (dd.unis ++ b.unis ++ cu (hop == .cas)) with nonIdem := true }
      (fun c m => back c m ∧ free c m)
      (fun c m => m.issueLate c h 12 true (.data dd false sz) (objOf dd sz)
        (fun n => { kind := fun x => .hatom hop fl (dataV c.g x.th b sz) (dataV c.g x.th cc sz), size := sz.bytes, reach := 3, op := n })
        (lanesOf c.ex c))

/-! ## The anvil -/

/-- CLAIM of a free range and RELEASE of a held one that nothing accepted names (R257, R258, R281, R289). -/
def Obligations.ClaimsComplete : Prop :=
  ∀ (h : Hdr) (r : ClaimRange),
    let f : Form := { engineForm 8 [] 1 with nonIdem := true, region := true, acc := rangeTiles r }
    Does (.claim h r) h f (fun c m => ∀ k ∈ rangeKeys r, look (m.wt c.w c.t).claims k = none)
      (fun c m => m.setWT c.w c.t ((rangeKeys r).foldl (fun (wt : WT) k =>
        { wt.cleared k with claims := put wt.claims k c.g.team }) (m.wt c.w c.t))) ∧
    Does (.release h r) h f
      (fun c m => c.g.wait = .none ∧ ∀ k ∈ rangeKeys r, look (m.wt c.w c.t).claims k = some c.g.team ∧
        (k < 128 → (m.wt c.w c.t).slabOn k = false) ∧ (m.wt c.w c.t).busyKey k = false)
      (fun c m => m.setWT c.w c.t { m.wt c.w c.t with
        claims := (m.wt c.w c.t).claims.filter fun (k, _) => !(rangeKeys r).contains k }) ∧
    (∀ (s : State) (t w slot : Nat) (g : Machine.Group) (ks : List Nat),
      (s.m.tile t).latch = some w → (s.m.wt w t).rels.find? (·.1 == slot) = some (slot, ks) →
      (∀ k ∈ ks, (s.m.wt w t).busyKey k = false) → look (s.m.wt w t).groups slot = some g →
      ∃ u, exec (.claimReleaseFree t slot) s = .next u ∧
        look (u.m.wt w t).groups slot = some { g with wait := .request .engine true } ∧
        (u.m.wt w t).claims = ((s.m.wt w t).claims.filter fun (k, _) =>
          !(ks.filter fun k => (s.m.wt w t).holds g.team k).contains k) ∧
        (u.m.wt w t).rels = (s.m.wt w t).rels.filter (·.1 != slot))

/-- Operations on accumulator tiles that the team holds are accepted (R259, R270, R272, R293 to R297). Model's part:
checks against the tiles ahead and the array's time are the model's reading, log entries 21 and 38. -/
def Obligations.TileOperationsAccepted : Prop :=
  ∀ (h : Hdr) (a d : BitVec 6) (v : BitVec 8) (n cn : BitVec 8) (p l : BitVec 3) (half : Bool) (af : Af),
    let held (c : Ctx) (m : M) (ts : List Nat) : Prop := ∀ t ∈ ts, look (m.wt c.w c.t).claims (128 + t) = some c.g.team
    let now (c : Ctx) (m : M) (ts : List Nat) (k : AnvilWork) : M :=
      accepted c { m with uid := m.uid + 1 } 0 { id := m.uid, slot := c.slot, group := c.g.uid, op := 0, slots := [], tiles := ts, work := k }
        fun m => m
    let run : List Nat := (List.range (n.toNat + 1)).map (· + a.toNat)
    let form (vec : List (Nat × Nat)) (ts : List Nat) : Form := anvilForm 8 vec vec [] ts 3
    let code : BitVec 2 := match af with
      | .f32 => 1
      | .i32 => 2
    let vals (c : Ctx) : AMap (List W32) := c.ex.map fun (i, th) => (i, (List.range 4).map fun j => th.xr (v.toNat + j))
    let reads (p : Nat) (half : Bool) (c : Ctx) (m : M) : M :=
      let op : AnvilOp := { id := m.uid + 1, slot := c.slot, group := c.g.uid, op := m.uid, slots := [], tiles := [a.toNat],
                            work := .read a.toNat p half }
      let pe : Pend := { id := m.uid, pc := c.g.pc, len := 8, ll := true, late := false, nonIdem := false, dest := .quad v [],
                         lanes := c.ex.map (·.1), ready := false, since := (m.tile c.t).cycle + 6 }
      accepted c { m with uid := m.uid + 2 } 0 op fun m1 => m1.beginLL c h pe { vec := [(v.toNat, 4)] }
    Does (.accz h a n) h { form [] run with once := true } (fun c m => acceptsNow c m 0 ∧ held c m run)
      (fun c m => now c m run (.zero run)) ∧
    Does (.accrd h p half v a) h (anvilForm 8 [(v.toNat, 4)] [] [] [a.toNat] 3)
      (fun c m => acceptsNow c m 0 ∧ held c m [a.toNat]) (reads p.toNat half) ∧
    Does (.accrdSt h v a) h (anvilForm 8 [(v.toNat, 4)] [] [] [a.toNat] 3)
      (fun c m => acceptsNow c m 0 ∧ held c m [a.toNat]) (reads 6 false) ∧
    Does (.accwr h af p half d v) h (form [(v.toNat, 4)] [d.toNat])
      (fun c m => acceptsNow c m 0 ∧ held c m [d.toNat] ∧
        (((m.wt c.w c.t).ahead.accTile d.toNat).pres = 0 ∨ ((m.wt c.w c.t).ahead.accTile d.toNat).afmt = code))
      (fun c m => now c m [d.toNat] (.write d.toNat code.toNat p.toNat half (vals c))) ∧
    Does (.accwrSt h d v) h { form (one v) [d.toNat] with once := true }
      (fun c m => acceptsNow c m 0 ∧ held c m [d.toNat])
      (fun c m => now c m [d.toNat] (.bad d.toNat ((c.ex.head?).elim false fun (_, th) => (th.xr v.toNat).getLsbD 15))) ∧
    Does (.treeadd h d a l cn) h { form [] [d.toNat, a.toNat] with nonIdem := true, region := true, once := true }
      (fun c m => acceptsNow c m 0 ∧ held c m [d.toNat, a.toNat] ∧
        ((m.wt c.w c.t).ahead.accTile a.toNat).fin = true ∧ ((m.wt c.w c.t).ahead.accTile a.toNat).afmt ≠ 0 ∧
        ((m.wt c.w c.t).ahead.accTile d.toNat).forbids ((m.wt c.w c.t).ahead.accTile a.toNat).afmt = false ∧
        l.toNat < 6 ∧ (cn.toNat + 1) * 2 ^ l.toNat ≤ 32)
      (fun c m => now c m [d.toNat, a.toNat] (.tree d.toNat a.toNat l.toNat cn.toNat)) ∧
    Does (.accfin h a) h { form [] [a.toNat] with once := true } (fun c m => acceptsNow c m 0 ∧ held c m [a.toNat])
      (fun c m => now c m [a.toNat] (.fin a.toNat))

/-- OFILL, MMA and MMAT whose checks pass are accepted: OFILL writes the executing lanes' 16 bytes into the slots it
names, the MMA's quarters stand in the anvil with the operand bytes of this moment (R260 to R262, R266, R270, R276,
R290 to R292). Model's part: checks against the tiles ahead and the array's time are the model's reading, log entries
21 and 38. -/
def Obligations.OperandsAndProductsAccepted : Prop :=
  ∀ (h : Hdr) (span : BitVec 3) (dq : BitVec 7) (b : BitVec 6) (d a bb cc koff : BitVec 8) (sl tiles : List Nat),
    let c0 (c : Ctx) : Nat := ((c.g.kr b.toNat).extractLsb' 0 8).toNat
    let regs : List (Nat × Nat) := one d ++ one a ++ [(bb.toNat, 2)] ++ one cc
    let qs (c : Ctx) : List Quarter := (activeQuarters c.ex).map fun (q, th) => quarterOf q th d a bb koff
    let fw (c : Ctx) : W32 := (c.ex.head?).elim 0 fun (_, th) => th.xr cc.toNat
    let slots (c : Ctx) : List Nat := (qs c).flatMap fun q => q.slots (fw c)
    let product (tern : Bool) (i : Instr) : Prop := Does i h
      { anvilForm 16 regs regs [] tiles 3 with mark := if tern then .exOnly else .all, nonIdem := true, touch := [3] }
      (fun c m => acceptsNow c m (occupancy tern (fw c) (qs c)) ∧ tiles = (qs c).map (·.tile) ∧
        (m.wt c.w c.t).slabsReady (slots c) = true ∧
        mmaCheck tern h.ac (m.wt c.w c.t) (m.wt c.w c.t).ahead c (fw c) cc bb (qs c) = none)
      (fun c m =>
        let op : AnvilOp := { id := m.uid + 1, slot := c.slot, group := c.g.uid, op := m.uid,
                              slots := slots c, tiles := (qs c).map (·.tile),
                              work := .mma tern h.ac (fw c) (qs c) (slotBytes (m.wt c.w c.t).omem (slots c)) }
        let pe : Pend := { id := m.uid, pc := c.g.pc, len := 16, ll := true, late := false, nonIdem := true, dest := .none,
                           lanes := c.ex.map (·.1), ready := false }
        accepted c { m with uid := m.uid + 2 } (occupancy tern (fw c) (qs c)) op fun m1 => m1.beginLL c h pe { acc := (qs c).map (·.tile) })
    Does (.ofill h span dq b a) h (anvilForm 8 [(a.toNat, 4)] [(a.toNat, 4)] [b.toNat] [] 3)
      (fun c m => acceptsNow c m 0 ∧ (m.wt c.w c.t).slabsReady sl = true ∧
        ofillSlots (m.wt c.w c.t) c.g.team dq.toNat (16 * (c0 c + (c.ex.map (·.1)).foldl max 0) + 16) = some sl ∧
        ∀ op ∈ (m.wt c.w c.t).anvil, op.slots.any sl.contains = false)
      (fun c m => accepted c { m with uid := m.uid + 1 } 0
        { id := m.uid, slot := c.slot, group := c.g.uid, op := 0, slots := [], tiles := [], work := .zero [] } fun m =>
          let om := c.ex.foldl (fun om (l, th) => Memory.writeL om (swizzle (2048 * dq.toNat) span.toNat (16 * (c0 c + l)))
            (dataBytes c.g th (.vec a) .b16)) (m.wt c.w c.t).omem
          m.setWT c.w c.t { m.wt c.w c.t with omem := om, spans := sl.foldl (fun sp i => mset 0 sp i span.toNat) (m.wt c.w c.t).spans }) ∧
    product false (.mma h d a bb cc koff) ∧ product true (.mmat h d a bb cc koff)

/-- The anvil's own steps: the oldest request is admitted once the occupancy allows, and its group issues next; a pass
applies the next quarter of the oldest MMA, and with the last quarter the operation ends and what stands behind it and
is no MMA takes effect (R269 to R271). Model's part: all quarters taking effect together for later checks is the
model's reading, log entry 38. -/
def Obligations.AnvilStepsHappen : Prop :=
  ∀ (t w slot : Nat) (r : AnvilReq) (rest : List AnvilReq) (g : Machine.Group) (op : AnvilOp) (ops : List AnvilOp) (tern : Bool)
    (ac : AccClass) (f : W32) (q : Quarter) (qs : List Quarter) (mem : Memory),
    let latched (m : M) : Prop := (m.tile t).latch = some w
    let pass (m : M) : Prop := latched m ∧ (m.wt w t).anvil = op :: ops ∧ op.work = .mma tern ac f (q :: qs) mem ∧ op.fin ≤ (m.tile t).cycle
    let applied (m : M) : M := m.setWT w t { (m.wt w t).quarterDone tern ac f q mem with
      anvil := { op with work := .mma tern ac f qs mem } :: ops }
    Happens (.anvilAccept t slot)
      (fun m => latched m ∧ (m.wt w t).anvilq = r :: rest ∧ look (m.wt w t).groups slot = some g ∧ r.slot = slot ∧ r.group = g.uid ∧
        g.wait = .request .engine false ∧ m.anvilTakes w t r.occ = true)
      (fun m => m.setGroup w t slot { g with wait := .request .engine true }) ∧
    Happens (.anvilPassComplete t) (fun m => pass m ∧ qs ≠ []) applied ∧
    Happens (.anvilPassComplete t) (fun m => pass m ∧ qs = [])
      (fun m => ((applied m).anvilFinish w t op).anvilDrain w t (ops.length + 1))

/-! ## The pilot, the ferry and semaphores -/

/-- Engine instructions of a group: CHAIN.LINK and CHAIN.ADV ask the pilot, CHAIN.ADV once the group's stores have
completed, which has what its stack cache holds of them written back, and go on once it has served them; CONDW, SACQ,
STRY and SQRY act on the tile's condition words and semaphores (R253, R278, R282 to R287). -/
def Obligations.EngineInstructionsComplete : Prop :=
  ∀ (h : Hdr) (ch cw : BitVec 4) (a sem : BitVec 6) (off : W32) (add : Bool) (o d : Opd64) (pd : BitVec 3),
    let eng (len : Nat) (us : List Nat) : Form := { engineForm len us 1 with nonIdem := true, region := true }
    let node (c : Ctx) : Nat := (c.g.kr a.toNat + off.signExtend 64).toNat
    let ask (c : Ctx) (m : M) (lane : Nat) (n : Option Nat) : M :=
      let r : PilotReq := { slot := c.slot, group := c.g.uid, lane := lane, ch := ch.toNat, node := n, at' := (m.tile c.t).cycle }
      m.setWT c.w c.t { m.wt c.w c.t with pilotq := insPilot r (m.wt c.w c.t).pilotq }
    let stores (c : Ctx) (m : M) : List Nat := (m.acc.filter fun x => x.group == c.g.uid && !x.kind.isLoad).map (·.id)
    let q (c : Ctx) (m : M) : Sem := (m.wt c.w c.t).sem sem.toNat
    let free (c : Ctx) (m : M) : Bool := (q c m).queue.isEmpty && (q c m).count != 0 && !(q c m).err
    let served (c : Ctx) (m : M) : M := m.semServe c.w c.t sem.toNat (q c m).queue.length
    Does (.chainLink h ch a off) h (eng 12 [a.toNat]) (fun c _ => c.g.wait = .request .engine true) (fun _ m => m) ∧
    (∀ l th, Holds (.chainLink h ch a off) h (eng 12 [a.toNat])
      (fun c m => c.g.wait = .none ∧ c.ex.head? = some (l, th) ∧ (m.det c.g.team = true → m.inTeamWindow c.g.team (node c) = true) ∧
        node c % 64 = 0 ∧ m.placeOf c (node c) 8 .write ≠ .miss ∧ ∀ d, m.placeOf c (node c) 8 .write ≠ .bad .translation d)
      (fun _ _ => .request .engine false) (fun c m => ask c m l (some (node c)))) ∧
    Does (.chainAdv h ch) h (eng 8 []) (fun c _ => c.g.wait = .request .engine true) (fun _ m => m) ∧
    Holds (.chainAdv h ch) h (eng 8 [])
      (fun c m => c.g.wait = .none ∧ stores c m = []) (fun _ _ => .request .engine false) (fun c m => ask c m 0 none) ∧
    Holds (.chainAdv h ch) h (eng 8 []) (fun c m => c.g.wait = .none ∧ stores c m ≠ [])
      (fun _ _ => .pend .fence) (fun c m => m.fenceFlush c [] (stores c m)) ∧
    Does (.condw h add cw o) h { eng 8 o.unis with vec := o.vecs, src := o.vecs } (fun _ _ => True) (fun c m =>
      let v := (c.ex.head?).elim 0 fun (_, th) => opdV c.g th o
      m.setWT c.w c.t { m.wt c.w c.t with
        cws := mset 0 (m.wt c.w c.t).cws cw.toNat (if add then mget 0 (m.wt c.w c.t).cws cw.toNat + v else v) }) ∧
    Does (.sacq h sem) h { engineForm 8 [] 1 with nonIdem := true, sem := [sem.toNat] } (fun _ _ => True) (fun c m =>
      let p : Pend := { id := m.uid, pc := c.g.pc, len := 8, ll := true, late := true, nonIdem := true, dest := .none,
                        lanes := c.ex.map (·.1), sem := some sem.toNat, ready := false }
      let m1 := ({ m with uid := m.uid + 1 } : M).beginLL c h p { sem := [sem.toNat] }
      m1.setWT c.w c.t ((m1.wt c.w c.t).askSem sem.toNat (.sacq c.slot m.uid c.g.uid true))) ∧
    Does (.stry h pd sem) h { eng 8 [] with sem := [sem.toNat] } (fun _ _ => True) (fun c m =>
      (if free c (served c m) then
          ((served c m).setWT c.w c.t (((served c m).wt c.w c.t).setSem sem.toNat
            { q c (served c m) with count := (q c (served c m)).count - 1 })).acquire c.t c.g.team
        else served c m).onLanes c fun _ th => th.setP pd (free c (served c m))) ∧
    Does (.sqry h d sem) h { engineForm 8 d.unis 1 with vec := d.vecs, sem := [sem.toNat] } (fun _ _ => True) (fun c m =>
      m.setOpd c d fun _ => (0#31 ++ BitVec.ofBool (q c m).err ++ (q c m).count : BitVec 64))

/-- The pilot serves the oldest request of a tile, one in a cycle and none of the cycle itself: CHAIN.ADV of the owning
team moves ATAIL to LTAIL, and on an empty chain moves nothing; CHAIN.LINK stores zero into the new node's NEXT and the
node's address into the old tail's, makes the node the chain's tail, and where the chain was empty its head, and the team
its owner; its group goes on; a request of a team that does not own the chain, or a NEXT that may not be written, gives
its group that fault, PROTECTION with reason 17 for the former (R235, R278, R282, R283). Model's part: a node at another
module halts the chain, log entry 22; faults of NEXT are ordered as a lane's, log entry 89. -/
def Obligations.PilotServesRequests : Prop :=
  ∀ (t w node : Nat) (r : PilotReq) (rest : List PilotReq) (g : Machine.Group) (place place2 : Place) (code : Code) (d o : Nat),
    let k (m : M) : Chain := (m.wt w t).chain r.ch
    let taken (m : M) : M := (m.setWT w t { m.wt w t with pilotq := rest }).setTile t { m.tile t with served := true }
    let c : Ctx := { t := t, w := w, slot := r.slot, g := g, ex := g.lanes }
    let th : Thread := (look g.lanes r.lane).getD { idx := 0 }
    let asked (n : Option Nat) (m : M) : Prop := m.rowWorld t 1 = some w ∧ (m.wt w t).pilotq = r :: rest ∧ r.node = n ∧
      look (m.wt w t).groups r.slot = some g ∧ g.uid = r.group ∧ (m.tile t).served = false ∧ r.at' < (m.tile t).cycle
    let writes (m : M) (addr : Nat) (p : Place) : Prop := (taken m).linkPlace c th [] addr = some (.inr p)
    let serves (n : Option Nat) (p : M → Prop) (wait : Wait) (e : M → M) : Prop :=
      Happens (.pilotRequestService t) (fun m => asked n m ∧ p m)
        (fun m => (e (taken m)).updGroup w t r.slot fun g => { g with wait := wait })
    let goesOn : Wait := .request .engine true
    let linked (m : M) (k : Chain) : M := m.setWT w t ((m.wt w t).setChain r.ch { k with ltail := node })
    serves none (fun m => (k m).owner = some g.team) goesOn
      (fun m => m.setWT w t ((m.wt w t).setChain r.ch { k m with atail := (k m).ltail })) ∧
    serves none (fun m => (k m).owner = none) goesOn (fun m => m) ∧
    serves none (fun m => (k m).owner = some o ∧ o ≠ g.team) (.failed .protection 0 17) (fun m => m) ∧
    serves (some node) (fun m => (k m).owner = none ∧ writes m node place) goesOn
      (fun m => linked (m.linkStore c th r.lane node 0 place)
        { k m with owner := some g.team, head := node, walk := node, atail := 0, last := 0, links := [] }) ∧
    serves (some node) (fun m => (k m).owner = some g.team ∧ writes m node place ∧ (k m).ltail ≠ 0 ∧ writes m (k m).ltail place2) goesOn
      (fun m => linked ((m.linkStore c th r.lane node 0 place).linkStore c th r.lane (k m).ltail node place2)
        ((k m).relink (k m).ltail node)) ∧
    serves (some node) (fun m => (k m).owner = some o ∧ o ≠ g.team ∧ writes m node place) (.failed .protection node 17) (fun m => m) ∧
    serves (some node) (fun m => (k m).owner = none ∧ (taken m).linkPlace c th [] node = some (.inl (code, d))) (.failed code node d)
      (fun m => m)

/-- Nodes of a chain: a node that can be read, with its descriptors, is reached, one that is not well made halts the
chain; a KERNEL node whose inputs are in and whose slabs are READY is dispatched and its threads counted live; it
finishes when its threads have ended, its stores have performed and no pass reads its slabs, which starts its outputs;
COND and WHILE enter their sub-chain, at most four deep, or go on; a JOIN makes its request; a SIGNAL's sequence
counter rises with its store, and the node retires once that is done; threads of the first paused node whose thread
fits are spawned (R119, R235 to R244, R282). Model's part: a node at another module halts the chain, log entry 22; an
output slab that is not READY holds the node back, log entry 85. -/
def Obligations.NodesAct : Prop :=
  ∀ (t w ch team : Nat) (n : NodeSt) (rest : List NodeSt),
    let chain (m : M) : Chain := (m.wt w t).chain ch
    let works (m : M) : Prop := m.pilotWorld t = some w ∧ (chain m).owner = some team
    let first (m : M) (kind : Nat) : Prop := m.pilotWorld t = some w ∧ (chain m).nodes = n :: rest ∧ n.nd.kind = kind
    let cond (e : Instr) (kind : Nat) : Prop :=
      Happens e
        (fun m => first m kind ∧ (chain m).halted = false ∧ nodeCond (m.wt w t) n.nd = true ∧ n.nd.b ≠ 0 ∧ (chain m).ret.length < 4)
        (fun m => m.chainGo w t ch { chain m with nodes := rest, ret := (n.addr, n.nd) :: (chain m).ret, walk := n.nd.b.toNat }) ∧
      Happens e
        (fun m => first m kind ∧ (chain m).halted = false ∧ nodeCond (m.wt w t) n.nd = true ∧ n.nd.b ≠ 0 ∧ 4 ≤ (chain m).ret.length)
        (fun m => m.haltChain w t ch .illegalEncoding n.addr 0 true) ∧
      Happens e
        (fun m => first m kind ∧ (chain m).halted = false ∧ (nodeCond (m.wt w t) n.nd = false ∨ n.nd.b = 0))
        (fun m => m.chainGo w t ch { chain m with nodes := rest, walk := n.nd.next })
    let vec : Option Nat := if n.nd.irq then some n.nd.b.toNat else none
    let ends (m : M) : M := (vec.elim m fun v => m.raise w v).retire w t ch n.uid
    let acted (m : M) : M := m.setWT w t ((m.wt w t).setChain ch
      { (chain m).updNode n.uid fun n => { n with joinMade := true, dispatched := true } with seq := (chain m).seq + 1 })
    let signals (m : M) (r : SigStore × M) : Prop := works m ∧ first m 5 ∧ m.chainOpen w t ch = false ∧ n.joinMade = false ∧
      (chain m).halted = false ∧ (acted m).signalStore w t team ch n.nd.a.toNat ((chain m).seq + 1) vec [] = r
    let outs : List CopyDesc := n.descs.drop n.nd.nin
    let ins : List CopyDesc := (n.descs.take n.nd.nin).filter fun d => !(outs.any fun o => o.slab == d.slab)
    let freed (wt : WT) (d : CopyDesc) : WT :=
      if (wt.slab d.slab).st == .ready then wt.setSlab d.slab { wt.slab d.slab with st := .empty } else wt
    (∀ nd ds m1, Happens (.nodeReached t ch)
      (fun m => works m ∧ (chain m).mayReach = true ∧ m.readNode w t team [] (chain m).walk = (.node nd ds, m1))
      (fun m =>
        let m2 : M := { m1 with uid := m1.uid + 1 }
        let n := mkNode (chain m).walk m1.uid nd ds
        m2.setWT w t ((m2.wt w t).setChain ch ((chain m).reach n (m2.nextOf w (chain m) n))))) ∧
    (∀ code d m1, Happens (.nodeReached t ch)
      (fun m => works m ∧ (chain m).mayReach = true ∧ m.readNode w t team [] (chain m).walk = (.bad code d, m1))
      (fun m => m1.haltChain w t ch code (chain m).walk d true)) ∧
    Happens (.nodeDispatch t ch)
      (fun m => works m ∧ first m 1 ∧ (chain m).halted = false ∧ n.dispatched = false ∧
        n.nd.nin ≤ n.begun.length ∧ (∀ k ∈ m.copies, k.node ≠ n.uid) ∧ ∀ d ∈ n.descs, ((m.wt w t).slab d.slab).st = .ready)
      (fun m => ((m.setWT w t ((m.wt w t).setChain ch ((chain m).updNode n.uid fun n => { n with dispatched := true, live := n.nd.count }))).updTeam
        team fun tm => { tm with live := tm.live + n.nd.count }).spawnOn w t ch (min n.nd.count spawnFuel)) ∧
    Happens (.kernelNodeFinish t ch)
      (fun m => works m ∧ first m 1 ∧ n.dispatched = true ∧ n.finishing = false ∧ n.nd.count ≤ n.spawned ∧ n.live = 0 ∧
        (∀ x ∈ m.acc, x.id ∉ n.stores) ∧ (∀ d ∈ n.descs, (m.wt w t).passReads ((m.wt w t).slab d.slab) = false) ∧
        ((chain m).halted = true ∨ ∀ d ∈ outs, ((m.wt w t).slab d.slab).st = .ready))
      (fun m => (outs.foldl (fun (m : M) d => m.outputStart w t ch n team d)
        (m.setWT w t ((ins.foldl freed (m.wt w t)).setChain ch ((chain m).updNode n.uid fun n => { n with finishing := true })))).nodeEnds
        w t ch n.uid) ∧
    cond (.condNode t ch) 2 ∧ cond (.whileNode t ch) 3 ∧
    Happens (.joinNode t ch) (fun m => first m 4 ∧ n.joinMade = false ∧ (chain m).halted = false)
      (fun m => m.setWT w t (((m.wt w t).askSem n.nd.sem (.join ch n.nd.a.toNat true)).setChain ch
        ((chain m).updNode n.uid fun n => { n with joinMade := true, dispatched := true }))) ∧
    (∀ m1, Happens (.signalNode t ch) (fun m => signals m (.done 0, m1)) (fun _ => ends m1)) ∧
    (∀ m1 wait, Happens (.signalNode t ch) (fun m => wait ≠ 0 ∧ signals m (.done wait, m1)) (fun _ => m1.chainWait w t ch team 0 wait)) ∧
    (∀ m1, Happens (.signalNode t ch) (fun m => signals m (.staged, m1)) (fun _ => m1.retire w t ch n.uid)) ∧
    (∀ m1 code d, Happens (.signalNode t ch) (fun m => signals m (.bad code d, m1)) (fun _ => m1.haltNode w t ch n.uid code d)) ∧
    Happens (.signalNode t ch) (fun m => works m ∧ first m 5 ∧ m.chainOpen w t ch = false ∧ n.joinMade = true) ends ∧
    (∀ need, Happens (.landingAdmission t)
      (fun m => (m.tile t).latch = some w ∧
        (((m.wt w t).chains.filterMap fun (ch, c) => (c.nodes.find? fun n => n.dispatched && n.nd.kind == 1 && decide (n.spawned < n.nd.count)).bind
          fun n => c.owner.bind fun team => (look m.teams team).map fun tm => (ch, (m.wt w t).nodeNeed team tm n)).find?
            fun (_, need) => (m.wt w t).creates need) = some (ch, need) ∧ 5 ≤ (m.wt w t).restored)
      (fun m => m.spawnOn w t ch spawnFuel))

/-- Semaphores: once the cycle of the request at the head is over it is met, lowering COUNT, when ERR is 0 and COUNT
suffices; an SACQ's instruction can then complete, and it acquires; a JOIN's node retires; while ERR is 1 it fails with
COPY_FAILED and takes ERR with it: a late fault of the SACQ's lanes, a halt of the JOIN's chain (R207, R243, R253,
R286). -/
def Obligations.SemaphoreRequestsMet : Prop :=
  ∀ (t w i : Nat) (rest : List SemReq),
    let sem (m : M) : Sem := (m.wt w t).sem i
    let here (r : SemReq) (m : M) : Prop := m.rowWorld t 1 = some w ∧ (sem m).queue = r :: rest
    let taken (m : M) (n : Nat) : M := m.setWT w t ((m.wt w t).setSem i { sem m with count := (sem m).count - BitVec.ofNat 32 n, queue := rest })
    let failed (m : M) : M := m.setWT w t ((m.wt w t).setSem i { sem m with err := false, queue := rest })
    let node (m : M) (ch : Nat) : Nat := ((((m.wt w t).chain ch).nodes.head?).map (·.uid)).getD 0
    (∀ slot op gid, Happens (.semaphoreRequestMet t i)
      (fun m => here (.sacq slot op gid false) m ∧ (sem m).err = false ∧ (sem m).count ≠ 0)
      (fun m => ((taken m 1).updGroup w t slot fun g =>
        if g.uid != gid then g else { g with ops := g.ops.map fun p => if p.id = op then { p with ready := true } else p }).acquire t
          (((look (m.wt w t).groups slot).map (·.team)).getD 0))) ∧
    (∀ slot op gid, Happens (.semaphoreRequestMet t i)
      (fun m => here (.sacq slot op gid false) m ∧ (sem m).err = true)
      (fun m => (failed m).updGroup w t slot fun g =>
        if g.uid != gid then g
        else { g with
          ops := g.ops.map fun p => if p.id = op then { p with ready := true, lanes := [] } else p
          late := g.late ++ (g.ops.filter (·.id == op)).flatMap fun p =>
            p.lanes.map fun l => { op := op, pc := p.pc, fault := { lane := l, code := .copyFailed } } })) ∧
    (∀ ch n, Happens (.semaphoreRequestMet t i)
      (fun m => here (.join ch n false) m ∧ (sem m).err = false ∧ n ≤ (sem m).count.toNat)
      (fun m => (taken m n).retire w t ch (node m ch))) ∧
    (∀ ch n, Happens (.semaphoreRequestMet t i) (fun m => here (.join ch n false) m ∧ (sem m).err = true)
      (fun m => (failed m).haltNode w t ch (node m ch) .copyFailed 0))

/-- Copies: an input begins when its slab is EMPTY, which makes the slab FILLING, and looks up the pages of its box,
after which they are checked; an input whose units can all be read fills its slab, which becomes READY, and its
semaphore rises; an output writes its lines, its slab becomes EMPTY and its semaphore rises, with REL only once the
writes have completed everywhere; a copy that cannot go on passes to the slipway, which asks for its failed parts
again and completes it or lets it fail, in the saved slab table too (R246 to R254, R332). Model's part: copies moving
in one step and free values of failed ones are the model's, log entries 12 and 27; clocks that advance together and
the byte a ferry reads are log entries 4 and 70. -/
def Obligations.CopiesMove : Prop :=
  ∀ (k : Copy),
    let there (m : M) : Prop := m.copy k.id = some k ∧ k.translated = true ∧ m.copyWaits k = false
    let whole (m : M) : Prop := there m ∧ k.out = false ∧ ∀ u ∈ m.copyIn k, ∀ b ∈ u.2, b.isSome = true
    let filled (m : M) : M := ((((m.freeVal.2).copyLeases k).deliver k (m.elements k)).inputEnds k).semInc k.world k.tile k.desc.sem
    let ready (m : M) : Prop := there m ∧ k.out = true ∧ m.piecesOpen k = false
    let writes (m : M) (r : Nat × M) : Prop := ready m ∧ k.moved = false ∧ m.linesWrite k (byLine (m.copyOut k)) = some r
    let later (m : M) : M := { m with copies := m.copies.map fun j => if j.id = k.id then { j with moved := true } else j }
    let stuck (m : M) : Prop := m.copy k.id = some k ∧ m.copyStuck k = true
    let ended (slip : Bool) (m1 : M) : M :=
      if slip = true ∧ (m1.copy k.id).isNone = true then m1.slabsSaved k.world k.tile else m1
    let output (e : Instr) (slip : Bool) : Prop :=
      Happens e (fun m => k.slip = slip ∧ ready m ∧ k.moved = true) (fun m => ended slip (m.outputOut k)) ∧
      (∀ wait m1, Happens e (fun m => k.slip = slip ∧ writes m (wait, m1) ∧ (k.desc.rel = false ∨ wait = 0))
        (fun _ => ended slip ((m1.outputOut k).chainWait k.world k.tile k.ch k.team 0 wait))) ∧
      (∀ wait m1, Happens e (fun m => k.slip = slip ∧ writes m (wait, m1) ∧ k.desc.rel = true ∧ wait ≠ 0)
        (fun _ => ended slip ((later m1).chainWait k.world k.tile k.ch k.team k.id wait)))
    Happens (.inputCopyComplete k.id) (fun m => k.slip = false ∧ whole m) filled ∧
    output (.outputCopyComplete k.id) false ∧
    Happens (.slipwayHandoff k.id) (fun m => stuck m ∧ k.slip = false)
      (fun m => ({ m with copies := m.copies.map fun j => if j.id = k.id then { j with slip := true } else j } : M).slipPieces k) ∧
    Happens (.slipwayComplete k.id true) (fun m => k.slip = true ∧ whole m) (fun m => ended true (filled m)) ∧
    output (.slipwayComplete k.id true) true ∧
    Happens (.slipwayComplete k.id false) (fun m => stuck m ∧ k.slip = true) (fun m => ended true (m.copyFails k)) ∧
    Happens (.slipwayRetryExpiry k.id)
      (fun m => (stuck m ∨ (m.copy k.id = some k ∧ m.piecesFly k = true ∧ k.retried ≠ [])) ∧ k.slip = true)
      (fun m => ended true ((m.passUnits (2 ^ 20)).copyFails k)) ∧
    (∀ (t w ch i team : Nat) (n : NodeSt) (d : CopyDesc),
      let tn (m : M) : Tensor := ((m.world w).tensor d.tensor).getD {}
      let e (m : M) : Slab :=
        { st := .filling, owner := BitVec.ofNat 8 ch, loc := d.loc, span := BitVec.ofNat 3 d.span,
          fmt := BitVec.ofNat 4 (if d.srck then d.sfmt else (tn m).fmt), size := BitVec.ofNat 20 (d.size (tn m)),
          offset := BitVec.ofNat 20 (if d.loc then d.soff else ((look m.teams team).map (·.scratch)).getD 0 + d.soff) }
      let begun (m : M) : M := m.setWT w t (((m.wt w t).setSlab d.slab (e m)).setChain ch
        (((m.wt w t).chain ch).updNode n.uid fun n => { n with begun := i :: n.begun }))
      Happens (.inputCopyStart t ch i)
        (fun m => m.pilotWorld t = some w ∧ ((m.wt w t).chain ch).halted = false ∧ ((m.wt w t).chain ch).owner = some team ∧
          ((m.wt w t).chain ch).canBegin (m.wt w t) i = some n ∧ n.descs[i]? = some d)
        (fun m =>
          let c : Copy := { id := m.uid, world := w, tile := t, team := team, ch := ch, node := n.uid, out := false, desc := d,
                            tn := tn m, size := d.size (tn m) }
          let r := ({ begun m with uid := m.uid + 1 } : M).askPages c
          ({ r.2 with copies := r.2.copies ++ [r.1] } : M).copyChecked m.uid))

/-! ## Where accesses perform -/

/-- Accesses that have reached their home field or a scratchpad perform once no earlier one of their thread or
instruction to the same bytes is left: the loads of an instruction to one line together; a store writes its bytes under
its tag and takes its wait from the line's leases, or takes its fault; an STC writes only if its thread still reserves
the line, and the reservation ends; the atomics of an instruction to one place one after the other; the acknowledgement
lets the wait run, and the lease clocks run it out; a stopped link holds a request or its answer back (R176, R188, R193
to R199, R205, R206, R210, R373). Model's part: ideal authentication, clocks that advance together and the order within a
line are the model's, log entries 4, 5, 26 and 56; what an STC meets at its home is log entry 83. -/
def Obligations.AccessesPerform : Prop :=
  ∀ (id f t : Nat) (a : Access),
    let k := fieldKey f a.pa
    let line := k / 64
    let sent (m : M) : Prop := m.access id = some a ∧ m.requestHeld a = false
    let here (m : M) : Prop := sent m ∧ a.phase = .home f ∧ m.repairing a.line = false
    let there (m : M) : Prop := sent m ∧ a.phase = .scr t ∧ m.rowWorld t 4 = some a.world
    let free (m : M) : Prop := m.ownEarlier a = false
    let freed (m : M) : M := m.updThread a fun th => { th with resv := none }
    let spot := scratchLine a.world t a.pa
    Happens (.homeRead id) (fun m => here m ∧ a.kind.isLoad = true ∧ m.heldBack (m.mates a) = false)
      (fun m => (m.mates a).foldl (fun m b => m.readOne f b) m) ∧
    Happens (.homeRead id) (fun m => there m ∧ a.kind.isLoad = true ∧ m.heldBack (m.mates a) = false)
      (fun m => (m.mates a).foldl (fun m b =>
        (m.reserve b (scratchLine b.world t b.pa)).gotBytes b (m.scratchRead b.world t b.pa b.size)) m) ∧
    (∀ m1, Happens (.homeWrite id)
      (fun m => here m ∧ free m ∧ a.kind = .store ∧ m.fieldWrite k a.data a.world a.key a.tid a.ver = some m1)
      (fun _ => (m1.performed f line).2.setAcc { a with phase := .done false (m1.performed f line).1 })) ∧
    Happens (.homeWrite id)
      (fun m => here m ∧ free m ∧ a.kind = .store ∧ m.fieldWrite k a.data a.world a.key a.tid a.ver = none)
      (fun m => m.failAcc a (m.readFault line a.world a.key a.tid a.ver) 0) ∧
    Happens (.homeWrite id) (fun m => there m ∧ free m ∧ a.kind = .store)
      (fun m => (m.scratchWrite a.world t a.pa a.data).dropAcc id) ∧
    (∀ m1, Happens (.homeWrite id)
      (fun m => here m ∧ free m ∧ a.kind = .stc ∧ m.reserves a a.line = true ∧
        m.fieldWrite k a.data a.world a.key a.tid a.ver = some m1)
      (fun _ => (((m1.performed f line).2).updThread a fun th => { th with resv := none }).setAcc
        { a with phase := .done false (m1.performed f line).1, res := some (.status true) })) ∧
    Happens (.homeWrite id) (fun m => here m ∧ free m ∧ a.kind = .stc ∧ m.reserves a a.line = false)
      (fun m => (freed m).setAcc { a with phase := .done true 0, res := some (.status false) }) ∧
    Happens (.homeWrite id) (fun m => there m ∧ free m ∧ a.kind = .stc ∧ m.reserves a spot = true)
      (fun m => (freed (m.scratchWrite a.world t a.pa a.data)).setAcc { a with phase := .done false 0, res := some (.status true) }) ∧
    Happens (.homeWrite id) (fun m => there m ∧ free m ∧ a.kind = .stc ∧ m.reserves a spot = false)
      (fun m => (freed m).setAcc { a with phase := .done true 0, res := some (.status false) }) ∧
    (∀ op b c, Happens (.homeAtomic id) (fun m => here m ∧ a.kind = .atom op b c ∧ m.heldBack (m.mates a) = false)
      (fun m => (m.mates a).foldl (fun m b => m.atomOne f b) m)) ∧
    (∀ op b c, Happens (.homeAtomic id) (fun m => there m ∧ a.kind = .atom op b c ∧ m.heldBack (m.mates a) = false)
      (fun m => (m.mates a).foldl (fun m b => m.atomScratch t b) m)) ∧
    (∀ op b c old (m m1 m2 : M), a.kind = .atom op b c → m.lineFault line a.world a.key a.tid a.ver = none →
      m.atomRead k a.size a.world a.key a.tid a.ver = (some old, m1) →
      atomSkips op a.size (BitVec.ofNat 64 (bytesNat old)) c = false →
      m1.fieldWrite k (natBytes a.size (atomNew op a.size (BitVec.ofNat 64 (bytesNat old)) b c).toNat) a.world a.key a.tid a.ver
        = some m2 →
      m.atomOne f a = (m2.performed f line).2.setAcc
        { a with phase := .done false (m2.performed f line).1, res := some (.data old) }) ∧
    (∀ w, Happens (.storeAck id)
      (fun m => m.access id = some a ∧ m.responseHeld a = false ∧ a.phase = .done false w ∧ (w ≠ 0 ∨ a.kind ≠ .store))
      (fun m => m.setAcc { a with phase := .done true w })) ∧
    Happens (.storeAck id)
      (fun m => m.access id = some a ∧ m.responseHeld a = false ∧ a.phase = .done false 0 ∧ a.kind = .store) (fun m => m.dropAcc id) ∧
    (∀ w, Happens (.writeCompletionExpiry id)
      (fun m => m.access id = some a ∧ a.phase = .done true w ∧ (w ≠ 0 ∨ a.complete = true) ∧ m.counting a = true)
      (fun m => m.passUnits w))

/-- Accesses to host memory and to other modules: a host load's answer gives its bytes, or the completion status its
fault, for all the loads of an instruction from one line; a host store leaves, but not between an instruction's
atomics at its place; the atomics of an instruction perform one after the other, natively, or by their fallback's read
and then its write, or are refused; an answer of another module gives its bytes or its fault, to every lane of a load
that asked for them; an answer that never comes is a fault (R198, R210, R406 to R413, R424, R425). Model's part: the
fallback's two services and an abort as R410 has it are the model's, log entry 57; the loads that go together and
clocks that advance together are log entries 4 and 26. -/
def Obligations.OutsideAccessesComplete : Prop :=
  ∀ (id p : Nat) (a : Access) (st : HostStatus),
    let at' (m : M) : Prop := m.access id = some a ∧ a.phase = .host p ∧ m.heldBack (m.mates a) = false
    let far (m : M) : Prop := m.access id = some a ∧ ∃ q, a.phase = .remote q
    let inTime (m : M) : Prop := m.tileClock a.tile < a.start + 2 ^ 22
    let clean (m : M) : Prop := m.ecc.contains a.line = false
    let asked (m : M) : List Access := if a.kind.isLoad then (m.mates a).filter (·.pa == a.pa) else [a]
    let answers (m : M) : Prop := far m ∧ inTime m ∧ m.heldBack (asked m) = false
    Happens (.hostCompletion id .success) (fun m => at' m ∧ a.kind.isLoad = true ∧ clean m)
      (fun m => (m.mates a).foldl (fun m b => m.hostLoad p b) m) ∧
    Happens (.hostCompletion id st) (fun m => at' m ∧ a.kind.isLoad = true ∧ (st ≠ .success ∨ ¬ clean m))
      (fun m => (m.mates a).foldl (fun m b => m.failAcc b .uncorrectableData 0) m) ∧
    Happens (.storeAck id) (fun m => m.access id = some a ∧ a.phase = .host p ∧ m.ownEarlier a = false ∧
        m.between p a.pa a.size (·.sameOp a) = false ∧ a.kind = .store)
      (fun m => { m with hmem := Memory.writeL m.hmem (hostKey p a.pa) a.data }.dropAcc id) ∧
    (∀ op fb b c,
      let atom (m : M) : Prop := m.access id = some a ∧ a.phase = .host p ∧ a.kind = .hatom op fb b c ∧ m.heldBack [a] = false ∧
        m.fallsBack p a = false ∧ m.between p a.pa a.size (·.sameOp a) = false
      let fresh' : Prop := a.fell = none
      let refused : Prop := st = .unsupported ∨ st = .abort
      Happens (.atomicPointService id st) (fun m => atom m ∧ fresh' ∧ clean m ∧ (m.port p).atomok = true ∧ st = .success)
        (fun m => m.hostAtom p a (hostOp op) b c) ∧
      Happens (.atomicPointService id st)
        (fun m => atom m ∧ fresh' ∧ clean m ∧ fb = true ∧
          (((m.port p).atomok = false ∧ st = .success) ∨ ((m.port p).atomok = true ∧ refused)))
        (fun m => m.setAcc { a with fell := some (m.hostRead p a.pa a.size) }) ∧
      Happens (.atomicPointService id st) (fun m => atom m ∧ a.fell.isSome = true) (fun m => m.hostAtom p a (hostOp op) b c) ∧
      Happens (.atomicPointService id st)
        (fun m => atom m ∧ fresh' ∧ fb = false ∧ ((m.port p).atomok = false ∨ refused))
        (fun m => m.failAcc a .hostAtomicUnsupported 0) ∧
      Happens (.atomicPointService id st)
        (fun m => atom m ∧ fresh' ∧ (fb = true ∨ (m.port p).atomok = true) ∧
          (¬ clean m ∨ (st ≠ .success ∧ ¬ ((m.port p).atomok = true ∧ refused))) ∧ (fb = true ∨ ¬ refused))
        (fun m => m.failAcc a .uncorrectableData 0) ∧
      (∀ m : M, m.hostAtom p a (hostOp op) b c =
        let old := a.fell.getD (m.hostRead p a.pa a.size)
        let v := BitVec.ofNat 64 (bytesNat old)
        (if atomSkips (hostOp op) a.size v c then m
         else { m with hmem := Memory.writeL m.hmem (hostKey p a.pa) (natBytes a.size (atomNew (hostOp op) a.size v b c).toNat) }).setAcc
          { a with phase := .done true 0, res := some (.data old) })) ∧
    Happens (.hostCompletionTimeout id) (fun m => m.access id = some a ∧ a.phase = .host p ∧ a.kind ≠ .store ∧ a.fell = none)
      (fun m => m.failAcc a .uncorrectableData 0) ∧
    (∀ bs, Happens (.remoteResponse id (.ok bs)) (fun m => answers m ∧ a.kind ≠ .store ∧ bs.length = a.size)
      (fun m =>
        let m1 := (asked m).foldl
          (fun m b => m.setAcc { b with phase := .done true 0, res := some (.data (overBytes b.held bs)) }) m
        ((m.copies.find? fun k => a.group == 0 && k.id == a.op).map m1.valuePieces).getD m1)) ∧
    (∀ bs, Happens (.remoteResponse id (.ok bs)) (fun m => answers m ∧ a.kind = .store) (fun m => (m.dropAcc id).visible a)) ∧
    (∀ code d, Happens (.remoteResponse id (.fault code d)) (fun m => answers m ∧ listed code = true)
      (fun m => (asked m).foldl (fun m b => m.failAcc b (codeOf code) d.toNat) m)) ∧
    Happens (.remoteTimeout id) far (fun m => (m.passUnits (a.start + 2 ^ 22 - m.tileClock a.tile)).failAcc a .remoteTimeout 0)

/-- An operation completes once its accesses have their results and waits behind them: its registers are written and it
leaves its group; an ACCRD writes back when the anvil has read; a fence ends when nothing that it waits for is left; a
message that its buffer takes, at a tile that has its world latched, arrives in order (R28, R199, R202, R270, R294, R306,
R373, R420 to R422). Model's part: the moment of an atomic's completion is the model's reading, log entry 18. -/
def Obligations.OperationsComplete : Prop :=
  ∀ (t w slot op : Nat) (g : Machine.Group) (p : Pend),
    let there (m : M) : Prop := m.opWorld t slot op = some w ∧ look (m.wt w t).groups slot = some g ∧
      g.ops.find? (·.id == op) = some p
    Happens (.longLatencyComplete t slot op)
      (fun m => there m ∧ p.ll = true ∧ p.ready = true ∧ p.since = 0 ∧
        ∀ a ∈ m.accOf g op, a.phase = .done true 0 ∧ m.responseHeld a = false)
      (fun m => { m with acc := m.acc.filter fun a => !(a.group == g.uid && a.op == op) }.setGroup w t slot
        (g.completed p (m.accOf g op))) ∧
    Happens (.accrdWriteback t slot op)
      (fun m => there m ∧ p.since ≠ 0 ∧ p.ready = true ∧ p.since ≤ (m.tile t).cycle)
      (fun m => m.setGroup w t slot (g.completed p [])) ∧
    (∀ ids sc, Happens (.fenceEnd t slot)
      (fun m => (m.tile t).latch = some w ∧ look (m.wt w t).groups slot = some g ∧ g.wait = .fence ids sc ∧
        m.fenceOver t g ids sc = true)
      (fun m => m.setGroup w t slot { g with wait := .request .fence true })) ∧
    (∀ f : Flight, Happens (.messageArrival f.id)
      (fun m => m.flights.find? (·.id == f.id) = some f ∧ (mget [] (m.wt f.world f.dest).bufs f.droute).length < 2 ∧
        (m.tile f.dest).latch = some f.world ∧
        m.heldOnWay (m.worldPart f.world) .message f.route f.src f.dest = false ∧
        ∀ x ∈ m.flights, x.id < f.id → m.ordered x f = false)
      (fun m => (({ m with flights := m.flights.filter (·.id != f.id) } : M).setWT f.world f.dest
        { m.wt f.world f.dest with
          bufs := put (m.wt f.world f.dest).bufs f.droute (mget [] (m.wt f.world f.dest).bufs f.droute ++ [f.msg]) }).serveBuf
        f.world f.dest f.droute 3))

/-- Walks and time: a walk gives one result to every access and every unit of a tile that asked for it, one of 32 in a
field; the clocks pass the rest of a lease and the copy is absent, or the rest of a line's hot state; a dirty stack
line goes home, its stores in their order, once nothing older of their threads is in the way (R175, R194, R195, R322
to R325). Model's part: clocks that advance together and the order of eviction are the model's choice, log entries 4
and 64; what the stack cache writes back, and when, is the model's reading, log entries 20 and 60. -/
def Obligations.WalksAndLeasesEnd : Prop :=
  ∀ (t w line : Nat) (k : Walk),
    let asked (m : M) : Prop := m.walks.find? (·.id == k.id) = some k ∧
      (m.walks.filter fun j => j.field == k.field && decide (j.id < k.id)).length < 32 ∧
      m.walkWaits k.world (k.page * 65536) 4 (m.world k.world).rootTable 0 = false
    let rest (m : M) : M := { m with walks := m.walks.filter (·.id != k.id) }
    (∀ l, Happens (.walkComplete k.id) (fun m => asked m ∧ m.walk k.world (k.page * 65536) .read = .leaf l)
      (fun m =>
        let m1 := ((m.askers k).foldl (fun m t => m.tlbPut t k.world (k.page * 65536) l) (rest m)).served k (.leaf l)
        ((m.acc.filter k.joins).map (·.id)).foldl M.serveAt ((m.acc.filter k.joins).foldl (fun m a => m.gotLeaf l a) m1))) ∧
    (∀ c d, Happens (.walkComplete k.id) (fun m => asked m ∧ m.walk k.world (k.page * 65536) .read = .fault c d)
      (fun m =>
        let m1 := (m.acc.filter k.joins).foldl (fun m a => m.failAcc a c (d % 256 + a.kind.tkind.bits))
          ((rest m).served k (.fault c d))
        let told (i : Nat) (g : Machine.Group) : Machine.Group :=
          if k.waits m (i % 8192) g then { g with walked := put g.walked k.page (c.num.toNat, d) } else g
        let at' (i : Nat) (wt : WT) : WT :=
          if i / 8192 = k.world then { wt with groups := mapV (fun _ g => told i g) wt.groups } else wt
        { m1 with wts := mapV at' m1.wts })) ∧
    (∀ l, Happens (.leaseExpiry t line) (fun m => look (m.tile t).l1 line = some l)
      (fun m => (m.passUnits (l.start + l.len - m.tileClock t)).l1Drop t line)) ∧
    (∀ e, Happens (.hotExpiry line) (fun m => look m.hot line = some e)
      (fun m =>
        let m1 := m.passUnits (e - m.clock)
        { m1 with hot := del m1.hot line })) ∧
    (let mine (m : M) : List Access := m.acc.filter fun a => a.phase == .cached && a.world == w && a.tile == t && a.va / 64 == line
     Happens (.stackCacheWriteback t line)
      (fun m => m.rowWorld t 5 = some w ∧ line ∈ (m.wt w t).dirtyLines ∧ m.heldBack (mine m) = false ∧
        ∀ a ∈ mine m, m.repairing a.line = false ∧ m.requestHeld a = false)
      (fun m =>
        let wt := m.wt w t
        let m1 := m.setWT w t { wt with stackd := wt.stackd.filter fun (x, _) => x / 64 != line,
                                        stackc := wt.stackc.filter fun (x, _) => x / 64 != line,
                                        flush := wt.flush.filter (· != line) }
        (mine m).foldl (fun m a => m.backOne wt.stackd a) m1))

/-! ## The landing, launches and faults -/

/-- The landing's own steps: a bin's timer makes it ask for a group; a group forms when its request is the first, a
slot and its rows are free; when the landing is full its oldest entries move out for a writer it holds back or for
threads about to form a group, and such threads come back first; lanes at their meeting address arrive under their
record, or stay in place when they are all its members; late faults settle, those of a pre-empted group too (R116 to
R118, R122 to R124, R308, R309). Model's part: the order of bins and what travels are the model's, log entries 10, 11,
19 and 62; the moves of the overflow area and the arrivals at a meeting address are its reading, log entries 68, 69
and 75. -/
def Obligations.LandingSteps : Prop :=
  ∀ (t w b slot n : Nat) (bn : Bin) (g : Machine.Group),
    let latched (m : M) : Prop := (m.tile t).latch = some w
    let stands (m : M) : Prop := latched m ∧ look (m.wt w t).groups slot = some g ∧ m.mayIssue t w slot g = true
    Happens (.binTimerExpiry t b)
      (fun m => latched m ∧ look (m.wt w t).bins b = some bn ∧ bn.timed = false ∧ bn.closed = false ∧ bn.timer = 0 ∧ bn.ths ≠ [])
      (fun m => m.setWT w t
        (WT.askForm { m.wt w t with bins := put (m.wt w t).bins b { bn with timed := true } } (m.tile t).cycle b)) ∧
    (∀ m1, Happens (.groupFormation t b) (fun m => latched m ∧ 5 ≤ (m.wt w t).restored ∧ m.form w t b = some m1) (fun _ => m1)) ∧
    (∀ s' u tm cyc rest (m : M), look (m.wt w t).bins b = some bn → bn.chosen ≠ [] → (m.wt w t).growq = .form b cyc :: rest →
      bn.rows ≤ m.freeRows w t → (∀ e ∈ bn.chosen, e.out = false) →
      m.pickSlot w t = some s' → look (m.wt w t).urecs bn.urec = some u → look m.teams bn.team = some tm →
      ∃ m1, m.form w t b = some m1 ∧ ∃ g', look (m1.wt w t).groups s' = some g' ∧ g'.pc = bn.pc ∧ g'.team = bn.team ∧
        g'.allot = (bn.chosen.map (·.allot)).foldl max 8 ∧ g'.k = u.k ∧ g'.lanes = (fillLanes (bn.chosen.map (·.th))).1) ∧
    (let kept (m : M) := m.forming w t
     let back (m : M) := (kept m).filter (·.out)
     let pool (m : M) := (m.wt w t).entries.filter fun e => !e.out && !(kept m).contains e
     let takes (m : M) : Prop := ((m.wt w t).moveOldest (back m).length false (back m)).landIn ≤ 65536
     Happens (.landingOverflowMove t n true)
      (fun m => m.rowWorld t 5 = some w ∧ pool m ≠ [] ∧
        (65536 < (m.wt w t).landIn + (m.wt w t).lwant ∨ (back m ≠ [] ∧ ¬ takes m)))
      (fun m => m.setWT w t ((m.wt w t).moveOldest n true (pool m))) ∧
     Happens (.landingOverflowMove t n false) (fun m => m.rowWorld t 5 = some w ∧ back m ≠ [] ∧ takes m)
      (fun m => m.setWT w t ((m.wt w t).moveOldest n false (back m)))) ∧
    (∀ no r, Happens (.meetingArrival t slot)
      (fun m => stands m ∧ m.hasIssued t slot = false ∧ g.faultAtMeet = false ∧ g.arriving ≠ [] ∧
        5 ≤ (m.wt w t).restored ∧ g.anyLL = false ∧
        g.inPlace (m.wt w t) = some (no, r))
      (fun m => ((m.roomTaken w t slot).setWT w t { (m.roomTaken w t slot).wt w t with
        meets := del (m.wt w t).meets no,
        groups := put (m.wt w t).groups slot { g with
          lanes := mapV (fun _ th => { th with meet := r.parent, regpc := r.m, regcnt := th.regcnt + 1 }) g.lanes } }).again t slot)) ∧
    Happens (.meetingArrival t slot)
      (fun m => stands m ∧ m.hasIssued t slot = false ∧ g.faultAtMeet = false ∧ g.arriving ≠ [] ∧
        5 ≤ (m.wt w t).restored ∧ g.anyLL = false ∧
        g.inPlace (m.wt w t) = none ∧ m.hasRoom w t slot ((m.wt w t).roomFor g g.arriving.length) = true)
      (fun m =>
        let m0 := m.roomTaken w t slot
        let u := (m0.wt w t).urecFor g.team g.k
        let ths := g.arriving.map (·.2)
        (((m0.setWT w t (u.2.arriveAs g g.pc u.1 m.uid g.arriving)).vacate w t slot (g.arriving.map (·.1)) .arrived).meetChecks
          w t ths).again t slot) ∧
    Happens (.faultSettle t slot)
      (fun m => (m.tile t).out = none ∧ stands m ∧ g.late ≠ [] ∧ g.wait.begun = false ∧
        (g.faultAtMeet = true ∨ g.settleDue false = true) ∧ 5 ≤ (m.wt w t).restored ∧ g.anyLL = false ∧
        m.hasRoom w t slot ((m.wt w t).roomFor g g.settled.length) = true)
      (fun m => ((m.roomTaken w t slot).updGroup w t slot fun g => { g with late := [] }).takeFaults w t slot g.settled) ∧
    (∀ w', Happens (.faultSettle t slot)
      (fun m => (m.tile t).out = some w' ∧ look (m.wt w' t).groups slot = some g ∧ (m.tile t).spill < 5 ∧ g.late ≠ [] ∧
        m.drained g = true ∧ g.anyLL = false ∧ m.hasRoom w' t slot ((m.wt w' t).roomFor g g.settled.length) = true)
      (fun m => (((m.quit w' t slot g).roomTaken w' t slot).updGroup w' t slot fun g => { g with late := [] }).takeFaults w' t slot
        g.settled))

/-- Work queues: a record is held under the next sequence number, or rejected with status 4 when the queue is full, or
dropped and counted; a launch starts, or ends at once with status 1, 2 or 3; its clusters are placed; it ends with its
completion word, which waits only for a tree repair of its line (R154 to R163, R315, R381, R397). Model's part: where
scratch and stack lie, COOP's order, CWFAIL of a read-only tensor and the cluster that is placed next are the model's,
log entries 33, 34, 36, 76 and 77. -/
def Obligations.LaunchesRun : Prop :=
  ∀ (q : Nat) (data : List Byte) (v : W64) (li : Nat) (la : Launch) (seq : W32) (r : LRec) (rest : List (W32 × LRec)) (p : Nat),
    let run (m : M) : Prop := ((m.world (m.wq q).world).st = .run)
    let takes (m : M) : Prop := m.hears (q / 4) = true ∧ data.length = 64 ∧ (m.wq q).en = true ∧ run m
    let starts (m : M) : Prop := (m.wq q).held = (seq, r) :: rest ∧ (m.world (m.wq q).world).part = some p ∧ (m.wq q).running = false ∧
      run m ∧ (m.world (m.wq q).world).stopped = false ∧ m.wordWaits q = false ∧ (m.part p).quiesce = 0 ∧ m.hearth.snapstat ≠ 1
    let popped (m : M) : M := m.setWQ q { m.wq q with held := rest }
    let there (m : M) : Prop := look m.launches li = some la
    let on (m : M) : Prop := there m ∧ la.ending = false ∧ (m.part la.part).quiesce = 0 ∧ (m.world la.world).stopped = false
    Happens (.submission q 0 data) (fun m => takes m ∧ (m.wq q).pend < 5)
      (fun m => m.setWQ q { m.wq q with nextseq := (m.wq q).nextseq + 1, held := (m.wq q).held ++ [((m.wq q).nextseq, parseLaunch data)] }) ∧
    Happens (.submission q 0 data) (fun m => takes m ∧ 5 ≤ (m.wq q).pend ∧ m.wordWaits q = false)
      (fun m => (m.setWQ q { m.wq q with nextseq := (m.wq q).nextseq + 1 }).completion q (m.wq q).nextseq 4 (parseLaunch data).irq) ∧
    (∀ off, Happens (.submission q off data)
      (fun m => m.hears (q / 4) = true ∧ off < 64 ∧ (off ≠ 0 ∨ data.length ≠ 64 ∨ (m.wq q).en = false ∨ ¬ run m))
      (fun m => m.setWQ q { m.wq q with badwr := (m.wq q).badwr + 1 })) ∧
    Happens (.wqctlWrite q v) (fun m => m.hears (q / 4) = true ∧ ((m.wq q).en = true ∨ v.getLsbD 0 = false))
      (fun m => m.setWQ q { m.wq q with en := v.getLsbD 0, irq := v.getLsbD 1, vec := v.extractLsb' 16 16 }) ∧
    Happens (.wqctlWrite q v) (fun m => m.hears (q / 4) = true ∧ (m.wq q).en = false ∧ v.getLsbD 0 = true)
      (fun m => m.setWQ q { m.wq q with en := true, irq := v.getLsbD 1, vec := v.extractLsb' 16 16, nextseq := 1, cwfail := false }) ∧
    Happens (.launchStart q) (fun m => starts m ∧ r.badFields = true) (fun m => (popped m).completion q seq 1 r.irq) ∧
    Happens (.launchStart q) (fun m => starts m ∧ r.badFields = false ∧ m.noRectangle (m.part p) r = true)
      (fun m => (popped m).completion q seq 2 r.irq) ∧
    Happens (.launchStart q) (fun m => starts m ∧ r.badFields = false ∧ m.noRectangle (m.part p) r = false ∧ r.coop = true ∧
        m.arranged (m.part p) r r.clusters [] = false)
      (fun m => (popped m).completion q seq 3 r.irq) ∧
    Happens (.launchStart q) (fun m => starts m ∧ r.badFields = false ∧ m.noRectangle (m.part p) r = false ∧
        (r.coop = false ∨ m.arranged (m.part p) r r.clusters [] = true))
      (fun m =>
        let f := (m.setWQ q { m.wq q with held := rest, running := true }).fresh
        f.2.setLaunch f.1 { wq := q, seq := seq, world := (m.wq q).world, part := p, lr := r,
                            handler := (m.world (m.wq q).world).handles q }) ∧
    (∀ m1, Happens (.clusterPlacement li)
      (fun m => on m ∧ (∀ x ∈ m.launches, ¬ (x.2.world = la.world ∧ x.2.part = la.part ∧ x.2.coopWaits = true)) ∧
        m.placeNext li = some m1) (fun _ => m1)) ∧
    (∀ (m : M) (i j : Nat) (is : List Nat), there m →
      (la.dealt = [i] → m.placeNext li = m.placeCluster li i) ∧
      (la.dealt = i :: j :: is → ∀ m1, m.placeNext li = some m1 → ∃ k ∈ la.dealt, m.freeVal.2.placeCluster li k = some m1)) ∧
    (∀ m1, Happens (.clusterPlacement li)
      (fun m => on m ∧ (m.launches.find? fun (_, l) => l.world == la.world && l.part == la.part && l.coopWaits) = some (li, la) ∧
        m.placeAll li la.lr.clusters = some m1) (fun _ => m1)) ∧
    Happens (.launchComplete li)
      (fun m => there m ∧ m.allDone li la = true ∧ (m.world la.world).stopped = false ∧ m.wordWaits la.wq = false)
      (fun m =>
        let m1 : M := { m with launches := del m.launches li, teams := m.teams.filter fun (_, tm) => tm.launch != li,
                               clusters := m.clusters.filter fun (_, c) => c.launch != li }
        (m1.setWQ la.wq { m.wq la.wq with running := false }).completion la.wq la.seq la.status la.lr.irq)

/-- The stores of a deterministic launch are released in the order of its teams; a grid that cannot go on for its stall
interval, and a launch that a fatal fault ends, end all their teams; a record goes to the trap queue in order, the group
or chain that waited for it goes on, and a fatal one that finds the queue full or absent stops the world; a fetched block
comes with the thread's own stores, after those that its stack cache still holds were written back (R19, R127, R163,
R309, R315 to R320, R350, R397). Model's part: what becomes of a discarded group's accesses is the model's reading, and
clocks advance together, log entries 4 and 63. -/
def Obligations.LaunchesEnd : Prop :=
  ∀ (li w : Nat) (la : Launch) (r : PendRec),
    let there (m : M) : Prop := look m.launches li = some la
    let first (m : M) : Prop := (m.world w).st = .run ∧ (m.world w).recs.find? (m.world w).takes = some r ∧
      (m.world w).stopping = none ∧ m.repairing ((m.world w).slotKey (m.world w).tqtail.toNat / 64) = false
    (∀ ss i tm, Happens (.ticketRelease li)
      (fun m => there m ∧ la.lr.det = true ∧ la.ending = false ∧ (m.world la.world).stopped = false ∧ (m.part la.part).quiesce = 0 ∧
        look la.staged la.released = some ss ∧
        (∀ st ∈ ss, st.homek = 0 → m.repairing (fieldKey st.homeid st.pa / 64) = false) ∧
        ((m.teamsOf li).find? fun (_, tm) => tm.index == la.released) = some (i, tm))
      (fun m => ss.foldl (M.releaseStore li i tm.tile)
        (m.setLaunch li { la with staged := del la.staged la.released, released := la.released + 1 }))) ∧
    Happens (.gridStall li) (fun m => there m ∧ la.lr.stallCycles ≤ la.stall ∧ m.stalled li la = true)
      (fun m => m.fatal la.world li { code := .gridStall, pc := la.lr.entry.extractLsb' 0 56, seq := la.seq, kind := 3, wq := la.wq }) ∧
    Happens (.launchFatalEnd li)
      (fun m => there m ∧ la.ending = true ∧ ((∃ x ∈ m.teamsOf li, m.teamOver x.1 x.2 = false) ∨ la.staged ≠ []))
      (fun m =>
        let m1 := m.setWorld la.world { m.world la.world with tokens := (m.world la.world).tokens.filter fun (_, tk) => tk.launch != li }
        ((m1.teamsOf li).foldl (fun m (i, tm) => m.endTeam i tm) m1).updLaunch li fun l => { l with staged := [] }) ∧
    Happens (.trapRecordWrite w)
      (fun m => first m ∧ r.fr.isFatal = true ∧ ((m.world w).tqbase.getLsbD 0 = false ∨ 1024 ≤ (m.world w).occ))
      (fun m => m.stopWith w { r.fr with kind := 4, code := .trapQueueOverflow }) ∧
    (∀ m1, Happens (.trapRecordWrite w)
      (fun m => first m ∧ (m.world w).tqbase.getLsbD 0 = true ∧ (m.world w).occ < 1024 ∧
        m.fieldWrite ((m.world w).slotKey (m.world w).tqtail.toNat)
          ({ r.fr with resv := r.fr.isFatal && (m.world w).occ == 1023 } : FRec).bytes w 0 0 0 = some m1)
      (fun m =>
        let key := (m.world w).slotKey (m.world w).tqtail.toNat
        let q := m1.performed (key / 2 ^ 36) (key / 64)
        let m2 := if q.1 = 0 then q.2 else q.2.passUnits q.1
        ((m2.setWorld w { m.world w with tqtail := (m.world w).tqtail + 1,
                                         recs := (m.world w).recs.filter (·.id != r.id) }).wakeRec w r.id).wakeChains w r.id)) ∧
    (∀ t va b m1, Happens (.fetchComplete t va false)
      (fun m => (m.tile t).latch = some w ∧ va < 2 ^ 56 ∧ m.fetchBlock t w (va / 32 * 32) = (.got b, m1))
      (fun _ => m1.setTile t { m1.tile t with fetch := put (m1.tile t).fetch (w * 2 ^ 51 + va / 32) b })) ∧
    (∀ t va b m1, Happens (.fetchComplete t va true)
      (fun m => (m.tile t).latch = some w ∧ va < 2 ^ 56 ∧ m.fetchBlock t w (va / 32 * 32) = (.got b, m1))
      (fun _ =>
        let m2 := m1.setWT w t ((m1.wt w t).logError 2 (BitVec.ofNat 56 (va / 32 * 32)))
        m2.setTile t { m2.tile t with
          fetch := put (m2.tile t).fetch (w * 2 ^ 51 + va / 32) { data := [], fault := some (.uncorrectableData, 0) } })) ∧
    (∀ t va bad m1, Happens (.fetchComplete t va bad)
      (fun m => (m.tile t).latch = some w ∧ va < 2 ^ 56 ∧ (m.fetchBlock t w (va / 32 * 32)).1 = .miss ∧
        m.ask t w (va / 32 * 32) = some m1) (fun _ => m1)) ∧
    (∀ t va bad m1, Happens (.fetchComplete t va bad)
      (fun m => (m.tile t).latch = some w ∧ va < 2 ^ 56 ∧ m.fetchBlock t w (va / 32 * 32) = (.later, m1) ∧
        (m1.wt w t).flush ≠ (m.wt w t).flush) (fun _ => m1))

/-! ## Slices, the switch and debug -/

/-- A cycle of a tile charges the eight issue slots of its world and ages its groups, or counts as idle; a slice that has
run out passes to the next entry that takes part, or goes on; the first switch of a partition takes the lowest entry
that qualifies (R164 to R170, R328). Model's part: when cycles pass and from when a slice counts are the model's, log
entries 3 and 31. -/
def Obligations.CyclesAndSlices : Prop :=
  ∀ (t w p : Nat) (y : Bool),
    let frozen (m : M) : Prop := ∃ q, m.partOf t = some q ∧ m.hearth.frozen.contains q = true
    let runs (m : M) : Prop := tileOk t = true ∧ t < 8192 ∧ ¬ frozen m ∧ (m.tile t).phase ≠ .swapping ∧
      (m.field (fieldOf t)).pst = 0 ∧ m.pickOn t = none
    let next (m : M) : Tile :=
      { m.tile t with cycle := (m.tile t).cycle + 1, issued := [], left := [], past := [], later := [], lost := [], tried := [],
                      served := false }
    let ends (m : M) : Prop := (m.part p).latched = some w ∧ (m.part p).sw = none ∧ (m.part p).quiesce = 0 ∧
      ((y = true ∧ (m.part p).yielded = true) ∨ (y = false ∧ (m.part p).left = 0))
    let entry (m : M) (i : Nat) : Nat := qWorld (mget 0 (m.part p).quantum i)
    Happens (.cycleCharge t) (fun m => runs m ∧ (m.tile t).latch = none)
      (fun m => m.setTile t { next m with idle := (m.tile t).idle + 1, idleSlots := (m.tile t).idleSlots + 8 }) ∧
    Happens (.cycleCharge t) (fun m => runs m ∧ (m.tile t).latch = some w)
      (fun m =>
        let wt := m.wt w t
        let wt1 := [0, 1, 2, 3].foldl (fun (x : WT) s => (m.setCharges (m.tile t) wt s).foldl (fun x (c, pc) => x.charge s c pc) x) wt
        ((((m.setWT w t { wt1 with acct := bump wt1.acct 0 1 }).wtTick w t).setTile t (next m)).ctlTick t w)) ∧
    Happens (.sliceEnd p y) (fun m => ends m ∧ m.nextEntry (m.part p) = none)
      (fun m => m.setPart p { m.part p with left := (m.part p).further w, yielded := false }) ∧
    (∀ i, Happens (.sliceEnd p false) (fun m => y = false ∧ ends m ∧ m.nextEntry (m.part p) = some i ∧ entry m i = w)
      (fun m => m.setPart p { m.part p with cur := some i, left := (m.part p).cycles i, yielded := false })) ∧
    (∀ i, Happens (.sliceEnd p true) (fun m => y = true ∧ ends m ∧ m.nextEntry (m.part p) = some i ∧ entry m i = w)
      (fun m => m.setPart p { m.part p with yielded := false })) ∧
    (∀ i, Happens (.sliceEnd p y) (fun m => ends m ∧ m.nextEntry (m.part p) = some i ∧ entry m i ≠ w)
      (fun m => m.setPart p { m.part p with cur := some i, left := (m.part p).cycles i, yielded := false,
                                            sw := some { dst := some (entry m i) } })) ∧
    (∀ i, Happens (.firstSwitch p)
      (fun m => (m.part p).used = true ∧ (m.part p).latched = none ∧ (m.part p).sw = none ∧ (m.part p).quiesce = 0 ∧
        m.hearth.frozen.contains p = false ∧ (∀ t ∈ (m.part p).tiles, (m.tile t).quench = false) ∧
        (List.range 16).find? (m.eligible (m.part p)) = some i ∧ (m.world (entry m i)).quench = false)
      (fun m => m.setPart p { m.part p with cur := some i, left := (m.part p).cycles i, yielded := false,
                                            sw := some { dst := some (entry m i) } }))

/-- The switch: a tile stops, is quiet once its anvil and its messages have drained, its rows are saved and the preload is
in; when every tile of the partition is quiet the swap is ordered; each tile then latches the incoming world with no
L1 line and no reservation left, and the rows are saved and restored in their order; a saved row or bank image that fails
its tag stops its world; a world's quench ends once what it had sent has performed (R206, R330 to R333, R336, R393).
Model's part: a switch as a move of the latch is the model's reading, log entries 6 and 40. -/
def Obligations.SwitchHappens : Prop :=
  ∀ (t w p row : Nat) (sw : Switch),
    let on (m : M) : Prop := m.partOf t = some p ∧ (m.part p).sw = some sw
    Happens (.stopOrder t) (fun m => on m ∧ sw.swapping = false ∧ (m.tile t).phase = .running)
      (fun m => m.setTile t { m.tile t with phase := .draining }) ∧
    Happens (.tileQuiet t)
      (fun m => on m ∧ (m.tile t).phase = .draining ∧ (∀ a, (m.tile t).latch = some a → (m.wt a t).anvil = []) ∧
        (∀ f ∈ m.flights, f.src ≠ t) ∧ m.windowOpen t = false ∧ (m.tile t).out = none ∧ 7 ≤ (m.tile t).spill ∧
        (sw.dst = none ∨ (m.tile t).shadow = sw.dst))
      (fun m => m.setTile t { m.tile t with phase := .quiet }) ∧
    Happens (.swapOrder p)
      (fun m => (m.part p).sw = some sw ∧ sw.swapping = false ∧ ∀ t ∈ (m.part p).tiles, (m.tile t).phase = .quiet)
      (fun m => ((m.part p).tiles.foldl (fun m t => m.setTile t { m.tile t with phase := .swapping })
          (m.countSwitch (m.part p).latched)).setPart p
        { m.part p with sw := some { sw with swapping := true } }) ∧
    (∀ s : State, on s.m → (s.m.tile t).phase = .swapping → sw.dst = some w → (s.m.world w).stopped = false → w ∈ (s.m.part p).worlds →
      (s.m.wt w t).dbg.held = none →
      ∃ u, exec (.tileSwap t) s = .next u ∧ (u.m.tile t).latch = some w ∧ (u.m.tile t).out = (s.m.tile t).latch ∧
        (u.m.tile t).l1 = [] ∧ (u.m.tile t).phase = .running ∧ (u.m.tile t).spill = 0 ∧
        (u.m.tile t).cycle = (s.m.tile t).cycle + 40 ∧ (u.m.wt w t).restored = 0 ∧
        ∀ sl g l th, look (u.m.wt w t).groups sl = some g → look g.lanes l = some th → th.resv = none) ∧
    (∀ s : State, on s.m → (s.m.tile t).phase = .swapping → sw.dst = none →
      ∃ u, exec (.tileSwap t) s = .next u ∧ (u.m.tile t).latch = none ∧ (u.m.tile t).out = (s.m.tile t).latch ∧
        (u.m.tile t).phase = .running) ∧
    (∀ a, Happens (.spillResource t row)
      (fun m => row = (m.tile t).spill + 1 ∧ row ≤ 7 ∧ (m.tile t).out = some a ∧ m.maySave a t row = true ∧
        m.ctxWaits a t row = false ∧ (m.tile t).latch = none)
      (fun m => (m.setTile t { m.tile t with spill := row, out := if row = 7 then none else some a }).saveRow a t row)) ∧
    (let reads (m : M) : Prop := row = (m.tile t).spill + 1 ∧ row ≤ 7 ∧ (m.tile t).latch = some w ∧
       ∀ a, (m.tile t).out = some a → m.maySave a t row = true ∧ m.ctxWaits a t row = false
     let saved (m : M) : M :=
       let m1 := m.setTile t { m.tile t with spill := row, out := if row = 7 then none else (m.tile t).out }
       (m.tile t).out.elim m1 fun a => m1.saveRow a t row
     Happens (.spillResource t row) (fun m => reads m ∧ (row = 6 ∨ (saved m).ctxBad w t row = false))
      (fun m =>
        let wt := (saved m).wt w t
        let m3 := (saved m).setWT w t (if row = 7 then { wt.addSaved with restored := 10 } else { wt with restored := row })
        if row = 1 then m3.growDeadlock w t else m3) ∧
     Happens (.spillResource t row) (fun m => reads m ∧ row ≠ 6 ∧ (saved m).ctxBad w t row = true)
       (fun m => (saved m).restoreFails w t)) ∧
    (let loads (m : M) : Prop := m.preloadOf t = some w ∧ (m.tile t).shadow ≠ some w ∧
       ((m.tile t).out = none ∨ 6 ≤ (m.tile t).spill) ∧ (m.tile t).phase ≠ .swapping
     Happens (.shadowPreload t) (fun m => loads m ∧ m.ctxBad w t 6 = false)
       (fun m => m.setTile t { m.tile t with shadow := some w }) ∧
     Happens (.shadowPreload t) (fun m => loads m ∧ m.ctxBad w t 6 = true) (fun m => m.restoreFails w t)) ∧
    Happens (.quenchComplete t) (fun m => t < 8192 ∧ (m.tile t).quench = true)
      (fun m => m.setTile t { m.tile t with quench := false }) ∧
    Happens (.quenchComplete (8192 + w))
      (fun m => (m.world w).quench = true ∧ (m.world w).stopping = none ∧ ∀ a ∈ m.acc, a.world = w → a.settled = true)
      (fun m => (({ m with acc := m.acc.filter (·.world != w) } : M).setWorld w { m.world w with quench := false }).hearIf w)

/-- Debug: the host stops issue sets, and lets them run again from the next cycle on, begins a step, which ends on every
tile of it with a barrier phase, with the team's end or after 65,536 idle cycles, and dumps a world's stopped sets; a
write of DBGCTL acts whole, through the world's window or, with DBGEN, the physical function's (R337 to R341). Model's
part: the order within one write of DBGCTL is the model's, log entry 78. -/
def Obligations.DebugActs : Prop :=
  ∀ (t w : Nat) (bits : BitVec 4) (on : Bool) (team : W32),
    let steps (m : M) : Prop := (m.tile t).latch = some w ∧ (m.wt w t).dbg.stepping = some team ∧ m.pickOn t = none ∧ m.stepTiles w team ≠ []
    let ts (m : M) : List Nat := m.stepTiles w team
    let mine (m : M) (u : Nat) : Option Team :=
      (m.teams.find? fun (_, x) => x.world == w && x.tile == u && BitVec.ofNat 32 x.index == team && !x.ended).map (·.2)
    let moved (m : M) : Prop := ∃ u ∈ ts m, ∃ x, mine m u = some x ∧ x.phases ≠ (m.wt w u).dbg.base
    let left (m : M) : Prop := ∃ u ∈ ts m, mine m u = none
    let ended (why : Nat) (m : M) : M := (ts m).foldl (fun m u => m.setWT w u { m.wt w u with dbg :=
      { (m.wt w u).dbg with stepping := none, stepend := why, stop := 0xF, brk := 0, idle := 0 } }) m
    let dbg (d : Dbg) (m : M) : M := m.setWT w t { m.wt w t with dbg := d }
    let lift (m : M) (b : BitVec 4) : BitVec 4 :=
      if (m.tile t).latch = some w then (m.wt w t).dbg.lift ||| ((m.wt w t).dbg.stop &&& ~~~b) else (m.wt w t).dbg.lift
    Happens (.debugStop w bits) (fun m => m.dbgTile w = some t) (fun m => dbg { (m.wt w t).dbg with stop := bits, lift := lift m bits } m) ∧
    Happens (.debugLcen w on) (fun m => m.dbgTile w = some t) (fun m => dbg { (m.wt w t).dbg with lcen := on } m) ∧
    (∀ (n : Nat) (pf : Bool) (v : W64),
      let bare (m : M) : M :=
        dbg { (m.wt w t).dbg with stop := v.extractLsb' 0 4, lift := lift m (v.extractLsb' 0 4), lcen := v.getLsbD 5, team := v.extractLsb' 8 32 } m
      Happens (.registerWrite (.dbg n 0x008 pf) v)
        (fun m => (if pf = true then n < 16 ∧ (m.port n).dsel.toNat = w ∧ m.responds = true ∧ (m.world w).sec.getLsbD 0 = true
          else n = w ∧ m.hears w = true) ∧ m.dbgTile w = some t)
        (fun m =>
          let m2 := if v.getLsbD 4 then ((bare m).debugStep w (v.extractLsb' 8 32)).getD (bare m) else bare m
          if v.getLsbD 6 then (m2.debugDump w).getD m2 else m2)) ∧
    Happens (.debugStep w team)
      (fun m => ((m.teams.filter fun (_, tm) => tm.world == w && BitVec.ofNat 32 tm.index == team && !tm.ended).map
          fun x => x.2.tile).eraseDups = [t] ∧ (m.wt w t).dbg.stop = 0xF ∧ (m.wt w t).dbg.stepping = none ∧ (m.tile t).latch = some w)
      (fun m => m.beginStep w t team) ∧
    Happens (.stepEnd t) (fun m => steps m ∧ moved m) (ended 1) ∧
    Happens (.stepEnd t) (fun m => steps m ∧ ¬ moved m ∧ left m) (ended 3) ∧
    Happens (.stepIdleTimeout t) (fun m => steps m ∧ ¬ moved m ∧ ¬ left m ∧ ∀ u ∈ ts m, 65536 ≤ (m.wt w u).dbg.idle) (ended 2) ∧
    Happens (.debugDump w) (fun m => m.dbgTile w = some t ∧ (m.wt w t).dbg.dumpBusy = false)
      (fun m => { dbg { (m.wt w t).dbg with dumpBusy := true, dumpErr := false } m with
        dumps := m.dumps ++ [{ world := w, tile := t, buf := ((m.world w).dbgbuf.extractLsb' 6 50).toNat * 64,
                               data := (m.dumpWords w t).flatMap fun x => natBytes 8 x.toNat }] }) ∧
    (∀ d r, Happens (.dumpComplete w)
      (fun m => m.dumps.find? (·.world == w) = some d ∧ d.tile = t ∧
        m.storeDump w (d.data.length / 64 + 1) d.buf d.data = r)
      (fun m => { r.2.setWT w t { r.2.wt w t with dbg := { (r.2.wt w t).dbg with dumpBusy := false, dumpErr := r.1 } } with
        dumps := m.dumps.filter (· != d) }))

/-! ## What the host and the security manager ask -/

/-- Writes to the registers of a world's function and of a port: what the field of the register takes, the rest dropped;
the configuration window takes writes in CONFIG_UNLOCKED only; an access that no register takes, by its offset, its
alignment or its size, changes nothing (R7, R154, R337, R344, R376, R382, R400, R402 to R405, R411, R414, R442). Model's
part: the layout of the MSI-X table is PCI Express's, log entry 23; when the registers answer is log entry 79. -/
def Obligations.RegistersWritten : Prop :=
  ∀ (w q p i : Nat) (v : W64),
    let wr (r : HostReg) (f : World → World) : Prop :=
      Happens (.registerWrite r v) (fun m => m.hears w = true) (fun m => m.setWorld w (f (m.world w)))
    let cf (r : HostReg) (f : World → World) : Prop :=
      Happens (.registerWrite r v) (fun m => m.hears w = true ∧ (m.world w).st = .unlocked) (fun m => m.setWorld w (f (m.world w)))
    let pr (r : HostReg) (f : Port → Port) : Prop :=
      Happens (.registerWrite r v) (fun m => m.responds = true ∧ p < 16) (fun m => m.setPort p (f (m.port p)))
    wr (.handlerq w) (fun wd => { wd with handlerq := keep v 15 1 ||| keep v 0 13 }) ∧
    wr (.dbgsel w) (fun wd => { wd with dbgsel := keep v 0 13 }) ∧ wr (.dbgbuf w) (fun wd => { wd with dbgbuf := keep v 6 50 }) ∧
    wr (.rtsel w) (fun wd => { wd with rtsel := keep v 0 13 }) ∧
    cf (.wroot w) (fun wd => { wd with root := keep v 16 40 }) ∧
    cf (.wctx w) (fun wd => { wd with ctx := keep v 16 40 ||| keep v 0 13 }) ∧
    cf (.wttb w) (fun wd => { wd with ttb := keep v 23 33 }) ∧ cf (.wstkb w) (fun wd => { wd with stkb := keep v 16 40 }) ∧
    cf (.wstkn w) (fun wd => { wd with stkn := keep v 0 32 }) ∧ cf (.wsec w) (fun wd => { wd with sec := keep v 0 1 }) ∧
    Happens (.registerWrite (.msix w i) v)
      (fun m => m.hears w = true ∧ i < 128 ∧ (i % 2 = 0 ∨ v.getLsbD 32 = true ∨ i / 2 ∉ (m.world w).msixPend))
      (fun m => m.setWorld w { m.world w with msix := put (m.world w).msix i v }) ∧
    Happens (.registerWrite (.msix w i) v)
      (fun m => m.hears w = true ∧ i < 128 ∧ i % 2 = 1 ∧ v.getLsbD 32 = false ∧ i / 2 ∈ (m.world w).msixPend)
      (fun m => (m.setWorld w { m.world w with msix := put (m.world w).msix i v,
                                               msixPend := (m.world w).msixPend.filter (· != i / 2) }).raise w (i / 2)) ∧
    Happens (.registerWrite (.wqca q) v) (fun m => m.hears (q / 4) = true)
      (fun m => m.setWQ q { m.wq q with ca := keep v 3 53 }) ∧
    pr (.cmdca p) (fun pt => { pt with cmdca := keep v 3 53 }) ∧ pr (.portcap p) (fun pt => { pt with atomok := v.getLsbD 0 }) ∧
    pr (.evbase p) (fun pt => { pt with evbase := keep v 14 42 ||| keep v 0 1 }) ∧
    pr (.evhead p) (fun pt => { pt with evhead := v.extractLsb' 0 9 }) ∧
    pr (.snapctl p) (fun pt => { pt with snapctl := keep v 12 44 ||| keep v 1 2 }) ∧
    pr (.numvfs p) (fun pt => { pt with numvfs := min v.toNat 128 }) ∧
    wr (.dbg w 0x000 false) (fun wd => { wd with dbgsel := keep v 0 13 }) ∧
    wr (.dbg w 0x018 false) (fun wd => { wd with dbgbuf := keep v 6 50 }) ∧
    pr (.dsel p) (fun pt => { pt with dsel := v.extractLsb' 0 11 }) ∧ pr (.fpsel p) (fun pt => { pt with fpsel := v.extractLsb' 0 7 }) ∧
    Happens (.registerWrite (.whsel p) v) (fun m => m.responds = true ∧ p < 16)
      (fun m => { m with hearth := { m.hearth with whsel := v.extractLsb' 0 6 } }) ∧
    Happens (.registerWrite (.whmask p) v) (fun m => m.responds = true ∧ p < 16)
      (fun m => { m with hearth := { m.hearth with whmask := put m.hearth.whmask m.hearth.whsel.toNat (keep v 0 48) } }) ∧
    Happens (.registerWrite (.fwbuf p) v) (fun m => m.hearth.off = false ∧ p < 16)
      (fun m => m.setPort p { m.port p with fwbuf := keep v 12 44 }) ∧
    (∀ (n off size : Nat) (pf : Bool),
      Happens (.registerWrite (.other n off size pf) v)
        (fun m => (if pf = true then n < 16 ∧ m.hearth.off = false else m.hears n = true) ∧
          (size ≠ 8 ∨ off % 8 ≠ 0 ∨ writable off pf = false) ∧ (size ≠ 64 ∨ off % 64 ≠ 0 ∨ submits off pf = false)) (fun m => m))

/-- Writes with a behaviour: TQBASE is taken when the queue is empty and its range is the world's; TQHEAD and RESOLVE act
on the trap queue and the tokens; a route is taken or counted as rejected; MODID is written once; PEER while unlocked;
a RESOLVE written in a quiesce of the world's partition acts after it; an invalidation waits for what is under way and for
what is staged, and then no tile holds a translation of the world (R347 to R350, R376, R385, R392, R402, R403). -/
def Obligations.WindowWritesAct : Prop :=
  ∀ (w p k t : Nat) (v : W64),
    let base := (v.extractLsb' 16 40).toNat * 65536
    let fits (m : M) : Prop := ((m.world w).st = .locked ∨ (m.world w).st = .run) ∧ v.extractLsb' 40 24 = 0#24 ∧ v.getLsbD 32 = false ∧
      m.current (m.worldPart w) (v.extractLsb' 0 32) = true
    let at' (m : M) : Option Nat := m.tileAt w ((m.world w).rtsel.extractLsb' 0 13).toNat
    Happens (.tqbaseWrite w v)
      (fun m => m.hears w = true ∧ (m.world w).occ = 0 ∧ (v.getLsbD 0 = false ∨ (devOk base 65536 = true ∧ m.owns w base = true)))
      (fun m => m.setWorld w { m.world w with tqbase := keep v 16 40 ||| keep v 0 1, tqhead := 0, tqtail := 0 }) ∧
    Happens (.tqheadWrite w v) (fun m => m.hears w = true) (fun m => m.setWorld w ((m.world w).moveHead v)) ∧
    (∀ d, verdictOf (v.extractLsb' 0 2).toNat = some d →
      Happens (.resolveWrite w v) (fun m => m.hears w = true ∧ ∀ q, (m.world w).part = some q → (m.part q).quiesce = 0)
        (fun m => m.resolve w (v.extractLsb' 32 32).toNat d) ∧
      Happens (.resolveWrite w v) (fun m => m.hears w = true ∧ ∃ q, (m.world w).part = some q ∧ (m.part q).quiesce ≠ 0)
        (fun m => m.setWorld w { m.world w with resWait := (m.world w).resWait ++ [((v.extractLsb' 32 32).toNat, d)] })) ∧
    Happens (.routeWrite w k v) (fun m => m.hears w = true ∧ k < 64 ∧ fits m ∧ at' m = some t)
      (fun m => m.setWT w t { m.wt w t with routes := put (m.wt w t).routes k (parseRoute v) }) ∧
    Happens (.routeWrite w k v) (fun m => m.hears w = true ∧ k < 64 ∧ ¬ fits m)
      (fun m => m.setWorld w { m.world w with rtrej := (m.world w).rtrej + 1 }) ∧
    Happens (.modidWrite v) (fun m => m.responds = true ∧ m.hearth.modid = none)
      (fun m => { m with hearth := { m.hearth with modid := some (v.extractLsb' 0 6) } }) ∧
    Happens (.peerWrite p k v) (fun m => m.responds = true ∧ p < 16 ∧ k < 64 ∧ (m.port p).dsel.toNat = w ∧ (m.world w).st = .unlocked)
      (fun m => m.setWorld w { m.world w with peers := put (m.world w).peers k (keep v 63 1 ||| keep v 32 11) }) ∧
    Happens (.translationInvalidation w v) (fun m => m.hears w = true ∧ v.getLsbD 0 = true ∧ (m.world w).inv = false)
      (fun m =>
        let begun : List Nat := ((m.acc.filter fun a => a.world == w).map fun a => a.id) ++ ((m.walks.filter fun k => k.world == w).map fun k => k.id)
          ++ ((m.copies.filter fun k => k.world == w).map fun k => k.id) ++ (m.stagedOf w).map fun st => st.id
        (m.dropLeaves w).setWorld w { m.world w with inv := true, invWait := begun }) ∧
    (∀ s : State, (s.m.world w).inv = true → (∀ a ∈ s.m.acc, a.id ∈ (s.m.world w).invWait → a.phase = .done true 0) →
      (∀ k ∈ s.m.walks, k.id ∉ (s.m.world w).invWait) → (∀ k ∈ s.m.copies, k.id ∉ (s.m.world w).invWait) →
      (∀ st ∈ s.m.stagedOf w, st.id ∉ (s.m.world w).invWait) →
      ∃ u, exec (.invalidationComplete w) s = .next u ∧ (u.m.world w).inv = false ∧
        ∀ t, ∀ e ∈ (u.m.tile t).tlb, e.1 / 2 ^ 42 ≠ w)

/-- TDISP and SPDM: a world locks when it is bound with its link and session secure; it starts when every requirement
holds, and its partition's slices take it again; a stop of a running world ends once what it had sent has performed:
its keys are withdrawn, its queues disabled, and it unlocks or, with its record, goes to ERROR; keys are installed
while it is locked; losing the session, the heartbeat or the link's integrity stops a running world; every request is
answered (R383, R386 to R388, R392, R394, R395). Model's part: answers as numbers and ideal keys are the model's, log
entries 5 and 24; that a start takes the world out of those the slices pass over is log entry 32; how requests wait in
a quiesce is log entry 47. -/
def Obligations.TrustMessagesAct : Prop :=
  ∀ (w p period val : Nat) (block : BitVec 8) (nonce : BitVec 256) (key : Option (BitVec 4)),
    let hears (m : M) : Prop := m.hears w = true
    let calm (m : M) : Prop := hears m ∧ (m.world w).tdispWait = [] ∧ (m.world w).stopping = none ∧
      ∀ q, (m.world w).part = some q → (m.part q).quiesce = 0
    let sess (f : Session → Session) (m : M) : M := m.setWorld w { m.world w with sess := f (m.world w).sess }
    let asks (i : Instr) (k : Nat) (ws : M → List W64) : Prop := Happens i hears (fun m => m.answer w k (ws m))
    let safe (m : M) : Prop := hears m ∧ (m.world w).sess.secured = true
    let none' (_ : M) : List W64 := []
    let keyless (m : M) : M := m.setWorld w { m.world w with keys := [], mac := false, gens := [], macGen := 0 }
    let unlocks (m : M) : M := (keyless m).setWorld w { (keyless m).world w with st := .unlocked }
    let quenched (m : M) : Prop := (m.world w).quench = true ∧ ∀ a ∈ m.acc, a.world = w → a.settled = true
    let still (m : M) : M :=
      ({ m with acc := m.acc.filter (·.world != w) } : M).setWorld w { m.world w with quench := false }
    Happens (.lockInterface w)
      (fun m => calm m ∧ (m.world w).st = .unlocked ∧ (m.world w).part.isSome = true ∧ (m.world w).sess.ide = true ∧
        (m.world w).sess.secured = true)
      (fun m => (m.setWorld w { m.world w with st := .locked }).answer w 1 []) ∧
    Happens (.startInterface w) (fun m => calm m ∧ (m.world w).st = .locked ∧ m.mayStart w = true ∧ (m.world w).part = some p)
      (fun m => ((m.setWorld w { m.world w with st := .run, stopped := false }).setPart p
        { m.part p with skip := (m.part p).skip.filter (· != w) }).answer w 2 []) ∧
    Happens (.startInterface w) (fun m => calm m ∧ ¬ ((m.world w).st = .locked ∧ m.mayStart w = true)) (fun m => m.tdispError w) ∧
    Happens (.stopInterface w) (fun m => calm m ∧ (m.world w).st = .run)
      (fun m => (m.haltWorld w).setWorld w { (m.haltWorld w).world w with stopping := some none }) ∧
    Happens (.stopInterface w) (fun m => calm m ∧ (m.world w).st = .locked) (fun m => (unlocks m).answer w 3 []) ∧
    Happens (.quenchComplete (8192 + w)) (fun m => quenched m ∧ (m.world w).stopping = some none)
      (fun m =>
        let m1 := unlocks ((still m).closeQueues w)
        (m1.setWorld w { m1.world w with stopping := none, sess := { (m1.world w).sess with out := [3] } }).hearIf w) ∧
    (∀ fr, Happens (.quenchComplete (8192 + w)) (fun m => quenched m ∧ (m.world w).stopping = some (some fr))
      (fun m =>
        let m1 := keyless ((still m).closeQueues w)
        ((m1.setWorld w { m1.world w with st := .error, stopping := none }).outOfBand w fr).hearIf w)) ∧
    Happens (.stopInterface w) (fun m => calm m ∧ (m.world w).st = .error ∧ (m.world w).quench = false)
      (fun m => (m.setWorld w { m.world w with st := .unlocked }).answer w 3 []) ∧
    Happens (.lockInterface w) (fun m => hears m ∧ (m.world w).part = some p ∧ (m.part p).quiesce ≠ 0)
      (fun m => m.setWorld w { m.world w with tdispWait := (m.world w).tdispWait ++ [1] }) ∧
    Happens (.stopInterface w) (fun m => calm m ∧ (m.world w).st = .error ∧ (m.world w).quench = true)
      (fun m => m.setWorld w { m.world w with tdispWait := [3] }) ∧
    asks (.getTdispVersion w) 4 (fun _ => [0x10]) ∧ asks (.getTdispCapabilities w) 5 none' ∧ asks (.getDeviceInterfaceReport w) 6 none' ∧
    asks (.getDeviceInterfaceState w) 7 (fun m => [BitVec.ofNat 64 (m.world w).st.num]) ∧ asks (.getVersion w) 8 (fun _ => [0x14]) ∧
    asks (.getCapabilities w) 9 none' ∧ asks (.negotiateAlgorithms w) 10 (fun _ => [87, 512, 1024]) ∧ asks (.getDigests w) 11 none' ∧
    asks (.getCertificate w) 12 none' ∧ asks (.challenge w) 13 none' ∧
    Happens (.getMeasurements w ⟨block, nonce⟩) (fun m => hears m ∧ block ≠ 0xF0) (fun m => m.answer w 14 []) ∧
    Happens (.getMeasurements w ⟨block, nonce⟩) (fun m => hears m ∧ block = 0xF0)
      (fun m => m.freeVal.2.answer w 14
        (m.shapeReport w ++ (List.range 4).map (fun j => nonce.extractLsb' (64 * j) 64) ++ [Config.freeWord m.freeVal.1 0])) ∧
    Happens (.keyExchange w period) (fun m => hears m ∧ (m.world w).sess.opened = true) (fun m => m.tdispError w) ∧
    Happens (.keyExchange w period) (fun m => hears m ∧ (m.world w).sess.opened = false)
      (fun m => (sess (fun s => { s with opened := true, secured := false, period := period }) m).answer w 15 []) ∧
    Happens (.finish w) (fun m => hears m ∧ (m.world w).sess.opened = true)
      (fun m => (sess (fun s => { s with secured := true }) m).answer w 16 []) ∧
    Happens (.heartbeat w) safe (fun m => m.answer w 17 []) ∧ Happens (.keyUpdate w) safe (fun m => m.answer w 18 []) ∧
    Happens (.vendorDefinedKeyInstall w ⟨key, val⟩) (fun m => safe m ∧ (m.world w).st = .locked)
      (fun m => m.setWorld w (match key with
        | some i => { m.world w with keys := if i.toNat ∈ (m.world w).keys then (m.world w).keys else i.toNat :: (m.world w).keys,
                                     gens := put (m.world w).gens i.toNat val }
        | none => { m.world w with mac := true, macGen := val })) ∧
    Happens (.ideKm w) safe (sess fun s => { s with ide := true }) ∧
    Happens (.endSession w) (fun m => hears m ∧ (m.world w).sess.opened = true ∧ ((m.world w).st = .unlocked ∨ (m.world w).st = .error))
      (sess fun s => { s with opened := false, secured := false }) ∧
    Happens (.endSession w) (fun m => hears m ∧ (m.world w).sess.opened = true ∧ (m.world w).st = .locked)
      (fun m => unlocks (sess (fun s => { s with opened := false, secured := false }) m)) ∧
    Happens (.endSession w) (fun m => hears m ∧ (m.world w).sess.opened = true ∧ (m.world w).st = .run)
      (fun m => (sess (fun s => { s with opened := false, secured := false }) m).stopWorld w .heartbeatLost 0) ∧
    Happens (.heartbeatLost w) (fun m => (m.world w).st = .run) (fun m => m.stopWorld w .heartbeatLost 0) ∧
    Happens (.ideIntegrityFailure w) (fun m => (m.world w).sess.ide = true ∧ (m.world w).st = .run)
      (fun m => m.stopWorld w .machineCheck 4)

/-! ## The hearth -/

/-- Commands: a record is held, or completes at once with status 3 when 8 are held and 2 when it is malformed; partitions
are cut and dissolved, worlds bound, unbound and evicted, quantum entries set, frames granted and reclaimed; one that
the checks refuse completes with status 1 and changes nothing else (R327, R375, R380, R384, R404, Table 22-1). Model's
part: the order of the checks and several refusals are the model's reading, log entries 35 and 42 to 46. -/
def Obligations.CommandsAct : Prop :=
  ∀ (i p : Nat) (data : List Byte) (c : HCmd),
    let sent (m : M) : M := { m with hearth := { m.hearth with nextseq := m.hearth.nextseq + 1 } }
    let comes (m : M) : Prop := m.responds = true ∧ p < 16 ∧ data.length = 64
    let parsed (m : M) : HCmd := parseCmd p m.hearth.nextseq data
    let part (m : M) : Part := m.part c.part
    let wd (m : M) : World := m.world c.world
    let tiles (m : M) : List Nat := sortNat ((m.items c).map itemTile).eraseDups
    let tilesOk (m : M) : Prop := ∀ e ∈ m.items c, itemTileOk e = true ∧ e.extractLsb' 32 32 = 0#32
    let mayCut (s : State) : Prop := (part s.m).used = false ∧ s.nv.log.length < 16384 ∧ s.m.hearth.needService = false ∧
      (∀ t ∈ tiles s.m, s.m.partOf t = none) ∧ s.m.shapeOk c.part (tiles s.m) = true
    let entry (m : M) : W64 := ((m.items c).headD 0) &&& 0x000FFFFF0000C7FF#64
    let fits (m : M) : Prop := (part m).used = true ∧ (qEn (entry m) = true → 16 ≤ qSlice (entry m) ∧ qWorld (entry m) ∈ (part m).worlds ∧
      ∀ j < 16, j ≠ c.arg → qEn (mget 0 (part m).quantum j) = true → qWorld (mget 0 (part m).quantum j) ≠ qWorld (entry m))
    let frames (m : M) : List Nat := (m.items c).map itemFrame
    let framesOk (m : M) : Prop := ∀ e ∈ m.items c, itemFrameOk e = true
    let free (m : M) (pi : Nat) : Prop := ∀ f ∈ frames m, look m.frames f = none ∧ (m.field (f / 2 ^ 20)).pst < 2 ∧
      ∃ t ∈ (m.part pi).tiles, fieldOf t = f / 2 ^ 20
    let cmd (code : Nat) (m : M) : Prop := m.cmd i code = some c
    let ends (st : Nat) (m : M) : M := m.endCmd i c st
    Happens (.commandSubmission p data) (fun m => comes m ∧ m.hearth.cmds.length < 8 ∧ (parsed m).bad = false)
      (fun m => { m with hearth := { m.hearth with nextseq := m.hearth.nextseq + 1, cmds := m.hearth.cmds ++ [parsed m] } }) ∧
    Happens (.commandSubmission p data) (fun m => comes m ∧ 8 ≤ m.hearth.cmds.length)
      (fun m => (sent m).commandWord p m.hearth.nextseq 3) ∧
    Happens (.commandSubmission p data) (fun m => comes m ∧ m.hearth.cmds.length < 8 ∧ (parsed m).bad = true)
      (fun m => (sent m).commandWord p m.hearth.nextseq 2) ∧
    (∀ s : State, cmd 1 s.m → tilesOk s.m → mayCut s → exec (.cut i) s = .next { s with
      m := ends 0 (((tiles s.m).foldl M.quenchTile s.m).setPart c.part { used := true, tiles := tiles s.m, floor := s.m.gen }) }) ∧
    (∀ s : State, cmd 1 s.m → tilesOk s.m → ¬ mayCut s → exec (.cut i) s = .next { s with m := ends 1 s.m }) ∧
    Happens (.cut i) (fun m => cmd 1 m ∧ ¬ tilesOk m) (ends 2) ∧
    Happens (.dissolve i) (fun m => cmd 2 m ∧ (part m).used = true ∧ (part m).worlds = [])
      (fun m =>
        let m1 := ((part m).tiles.foldl M.goClock ((part m).tiles.foldl M.quenchTile m)).setPart c.part {}
        ends 0 { m1 with hearth := { m1.hearth with frozen := m1.hearth.frozen.filter (· != c.part) } }) ∧
    Happens (.dissolve i) (fun m => cmd 2 m ∧ ((part m).used = false ∨ (part m).worlds ≠ [])) (ends 1) ∧
    Happens (.bindWorld i)
      (fun m => cmd 3 m ∧ (part m).used = true ∧ (wd m).part = none ∧ (wd m).st = .unlocked ∧ (part m).worlds.length < 16)
      (fun m => ends 0 ((m.setPart c.part { part m with worlds := (part m).worlds ++ [c.world] }).setWorld c.world
        { wd m with part := some c.part })) ∧
    Happens (.bindWorld i)
      (fun m => cmd 3 m ∧ ((part m).used = false ∨ (wd m).part ≠ none ∨ (wd m).st ≠ .unlocked ∨ 16 ≤ (part m).worlds.length)) (ends 1) ∧
    (∀ pi, Happens (.unbindWorld i)
      (fun m => cmd 4 m ∧ (wd m).part = some pi ∧ ((wd m).st = .unlocked ∨ (wd m).st = .error))
      (fun m => ends 0 ((m.quenchWorld c.world).leavePart c.world pi))) ∧
    Happens (.unbindWorld i) (fun m => cmd 4 m ∧ ((wd m).part = none ∨ (wd m).st = .locked ∨ (wd m).st = .run)) (ends 1) ∧
    Happens (.evict i) (fun m => cmd 9 m ∧ (wd m).st = .run) (fun m => ends 0 (m.stopWorld c.world .machineCheck 6)) ∧
    Happens (.evict i) (fun m => cmd 9 m ∧ (wd m).st ≠ .run) (ends 1) ∧
    Happens (.quantum i) (fun m => cmd 7 m ∧ fits m)
      (fun m => ends 0 (m.setPart c.part { part m with quantum := mset 0 (part m).quantum c.arg (entry m) })) ∧
    Happens (.quantum i) (fun m => cmd 7 m ∧ ¬ fits m) (ends 1) ∧
    (∀ pi, Happens (.grant i) (fun m => cmd 5 m ∧ framesOk m ∧ (wd m).part = some pi ∧ free m pi)
      (fun m => ends 0 { m with frames := (frames m).foldl (fun fr f => put fr f c.world) m.frames })) ∧
    (∀ pi, Happens (.grant i) (fun m => cmd 5 m ∧ framesOk m ∧ (wd m).part = some pi ∧ ¬ free m pi) (ends 1)) ∧
    Happens (.reclaim i)
      (fun m => cmd 6 m ∧ framesOk m ∧ ∀ f ∈ frames m, ∀ w, look m.frames f = some w → (m.world w).st ≠ .locked ∧ (m.world w).st ≠ .run)
      (fun m => ends 0 { m.blankFrames (frames m).contains with frames := (frames m).foldl del m.frames }) ∧
    Happens (.reclaim i)
      (fun m => cmd 6 m ∧ framesOk m ∧ ∃ f ∈ frames m, ∃ w, look m.frames f = some w ∧ ((m.world w).st = .locked ∨ (m.world w).st = .run))
      (ends 1)

/-- RESHAPE, FREEZE and POWER: a reshape that passes its checks begins its partition's quiesce, and with the partition at
rest and no renewal to make it is performed; a freeze stops the partition's worlds, quenches its tiles and halts their
lease clocks; a field's transition begins, a wake from F3 taking one of 6 tokens, and ends in its target state (R342,
R369, R389 to R391, R438 to R440). Model's part: what covers a tile, a waiting POWER and the quiesce's moments are the
model's, log entries 45, 47 and 49; that the read-out is free bytes and a world that does not run is only told are log
entries 12 and 46. -/
def Obligations.ReshapeAndPowerAct : Prop :=
  ∀ (i f : Nat) (c : HCmd),
    let ends (st : Nat) (m : M) : M := m.endCmd i c st
    let kinds : List (Instr × Nat) := [(.reshapeGrow i, 0), (.reshapeShrink i, 1), (.reshapeCompact i, 2), (.reshapeMigrate i, 3)]
    let new (k : Nat) (m : M) : Prop := m.cmd i 8 = some c ∧ c.arg = k ∧ c.started = false ∧ ∀ e ∈ m.items c, itemMapOk e = true
    let held : List W64 := c.fields.map (BitVec.ofNat 64)
    let lost (m : M) : Nat := (m.hearth.pend.filter fun e =>
      (m.part c.part).tiles.contains (exTile e) && !(held.any fun x => itemTile x == exTile e)).length
    let fields (m : M) : List Nat := (m.items c).map powerField
    let target (m : M) (f : Nat) : Nat := (((m.items c).find? fun e => powerField e == f).map powerTarget).getD 0
    let powers (m : M) : Prop := m.cmd i 11 = some c ∧ c.started = false ∧ (fields m).eraseDups.length = (fields m).length ∧
      (∀ e ∈ m.items c, powerField e < 80 ∧ e.extractLsb' 2 54 = 0#54) ∧ ∀ f ∈ fields m, (m.field f).moving = false
    let iced (m : M) : M :=
      let m1 : M := ({ m with free := m.free + 1 } : M).hostWrite c.port c.buf (freeBytes m.free (8 * c.nitem))
      let m2 := (m1.launches.filter fun (_, l) => l.part == c.part).foldl (fun (m : M) x => m.completion x.2.wq x.2.seq 5 x.2.lr.irq) m1
      let m3 := (m.part c.part).tiles.foldl M.haltClock
        ((m.part c.part).tiles.foldl M.quenchTile ((m.part c.part).worlds.foldl M.freezeWorld m2))
      m3.setPart c.part { m3.part c.part with latched := none, sw := none }
    (∀ x ∈ kinds,
      Happens x.1 (fun m => new x.2 m ∧ m.reshapeOk c.part x.2 (m.items c) = true ∧ (m.part c.part).quiesce = 0)
        (fun m => (m.startCmd i { c with fields := (m.items c).map (·.toNat) }).pushQuiesce c.part 1) ∧
      Happens x.1 (fun m => new x.2 m ∧ m.reshapeOk c.part x.2 (m.items c) = false) (ends 1) ∧
      Happens x.1 (fun m => m.cmd i 8 = some c ∧ c.arg = x.2 ∧ c.started = true ∧ m.atRest c.part = true ∧
          m.farOff (lost m + 1) (some c.part) = [])
        (fun m => ends 0 (m.reshape c.part held))) ∧
    Happens (.freeze i) (fun m => m.cmd i 10 = some c ∧ (m.part c.part).quiesce = 0 ∧ (m.part c.part).used = true ∧
        ∀ w ∈ (m.part c.part).worlds, (m.world w).sec.getLsbD 0 = true)
      (fun m =>
        let h := (iced m).hearth
        ends 0 { iced m with hearth := { h with frozen := c.part :: h.frozen.filter (· != c.part) } }) ∧
    Happens (.freeze i) (fun m => m.cmd i 10 = some c ∧ (m.part c.part).quiesce = 0 ∧
        ((m.part c.part).used = false ∨ ∃ w ∈ (m.part c.part).worlds, (m.world w).sec.getLsbD 0 = false)) (ends 1) ∧
    Happens (.power i) (fun m => powers m ∧ ∀ e ∈ m.items c, m.powerNo e = false)
      (fun m => (sortNat (fields m)).foldl (fun (m1 : M) f => m1.powerStart f (target m f)) (m.startCmd i { c with fields := fields m })) ∧
    Happens (.power i) (fun m => powers m ∧ ∃ e ∈ m.items c, m.powerNo e = true) (ends 1) ∧
    Happens (.power i) (fun m => m.cmd i 11 = some c ∧ c.started = true ∧ ∀ f ∈ c.fields, (m.field f).moving = false) (ends 0) ∧
    (∀ rest, Happens (.inrushTokenGrant f)
      (fun m => m.hearth.wakes = f :: rest ∧ (m.fields.filter fun (_, fd) => fd.token).length < 6)
      (fun m => ({ m with hearth := { m.hearth with wakes := rest } } : M).setField f { m.field f with token := true })) ∧
    Happens (.inrushTokenReturn f) (fun m => (m.field f).token = true) (fun m => m.setField f { m.field f with token := false }) ∧
    Happens (.fieldTransitionComplete f)
      (fun m => (m.field f).moving = true ∧ (m.field f).token = false ∧ f ∉ m.hearth.wakes ∧ (m.field f).pst ≠ 3 ∧ (m.field f).target ≠ 3)
      (fun m => m.setField f { m.field f with pst := (m.field f).target, moving := false }) ∧
    Happens (.fieldTransitionComplete f)
      (fun m => (m.field f).moving = true ∧ (m.field f).token = false ∧ f ∉ m.hearth.wakes ∧ ((m.field f).pst = 3 ∨ (m.field f).target = 3))
      (fun m => (m.clearField f).setField f { (m.clearField f).field f with pst := (m.field f).target, moving := false })

/-! ## Errors, links, reset and the module's own memory -/

/-- Links and other modules: a stop holds a channel of a link and a go frees it; a packet of another partition is dropped,
logged and stops its world; a wharf link's change posts event 5, and the requests on their way over it take their link
anew; a request that another module sends to this one is answered, and the answer is sent back (R342, R371, R373, R379,
R405, R411 to R413). Model's part: what other modules send is an input, log entries 22 and 66; the numbers of the channels
are log entry 82; the logged word of a tile in no partition is log entry 52. -/
def Obligations.LinksAndRequestsAct : Prop :=
  ∀ (t dir vc l : Nat) (pk : Packet) (r : RemoteReq),
    let foreign (m : M) : Prop := tileOk t = true ∧ pk.port.toNat < 4 ∧ pk.cls ≠ 3 ∧
      (m.partOf t = none ∨ ∃ p, m.partOf t = some p ∧ (pk.ptag ≠ BitVec.ofNat 7 p ∨ p ∈ m.hearth.frozen))
    let logged (m : M) : M := { m with hearth := { m.hearth with fabricLog := m.hearth.fabricLog ++ [m.fabricEntry t pk] } }
    let links (ls : List Nat) (m : M) : M :=
      let m1 : M := { m with hearth := { m.hearth with linkUp := ls } }
      { m1 with acc := m1.acc.map fun a => if a.link = some l then { a with link := m1.linkTo (m1.partNum a.world) a.homeid } else a }
    Happens (.linkStop t dir vc) (fun _ => linkOk t dir vc = true) (fun m => { m with stops := put m.stops (linkKey t dir vc) true }) ∧
    Happens (.linkGo t dir vc) (fun _ => linkOk t dir vc = true) (fun m => { m with stops := del m.stops (linkKey t dir vc) }) ∧
    Happens (.packetArrival t pk) foreign
      (fun m => ((logged m).stopWorld pk.wtag.toNat .machineCheck 2).post [evWord 1 0, m.fabricEntry t pk]) ∧
    Happens (.wharfLinkDown l) (fun m => l < 48 ∧ l ∈ m.hearth.linkUp)
      (fun m => (links (m.hearth.linkUp.filter (· != l)) m).post [evWord 5 l]) ∧
    Happens (.wharfLinkUp l) (fun m => l < 48 ∧ l ∉ m.hearth.linkUp)
      (fun m => (links (l :: m.hearth.linkUp) m).post [evWord 5 (l + 256)]) ∧
    Happens (.remoteRequest r)
      (fun m => r.src < 64 ∧ (m.linkTo r.part.toNat r.src).isSome = true ∧ m.hearth.modid = some r.dst ∧ r.va.toNat < 2 ^ 56 ∧
        (r.write = true → r.data.length = r.size) ∧ (r.write = false → r.op = none ∨ r.size = 4 ∨ r.size = 8) ∧ m.remoteWaits r = false)
      (fun m =>
        let q := m.remoteAnswer r
        { q.2 with hearth := { q.2.hearth with wharfOut := q.2.hearth.wharfOut ++ [(r.src, q.1)] } })

/-- Errors and power: a corrected error of a tile is logged, another stops the world; a repaired node of the tree is
logged, and one that does not match poisons every line beneath it and tells their worlds; a power alert posts event 7;
a thermal trip and a reset lose the state, and a reset applies the retirement log; firmware is taken when its image
verifies and is not older than the lowest version allowed (R320, R366, R397, R405, R441 to R444). Model's part: the
span of a poisoned node, firmware state 3 and what a reset applies are the model's reading, log entries 50, 51, 53
and 55. -/
def Obligations.ErrorsAndResetAct : Prop :=
  ∀ (t w f level line p : Nat) (kind : BitVec 8) (loc : Va) (watts : W32) (temp : BitVec 8) (v : W64),
    let n := 8 ^ (level + 1)
    let first := line / n * n
    let at' : W64 := BitVec.ofNat 64 (f * 2 ^ 56 + first * 64)
    let node (m : M) : Prop := f < 80 ∧ level < 10 ∧ line < 2 ^ 30 ∧ (m.field f).pst < 2
    let image (s : State) : Option (BitVec 8) :=
      (Config.imageSvn (s.m.hostRead p (((s.m.port p).fwbuf.extractLsb' 12 44).toNat * 4096) ((v.extractLsb' 8 24).toNat * 4096))).filter
        fun x => s.nv.minSvn ≤ x
    let loads (s : State) : Prop := s.m.hearth.off = false ∧ p < 16 ∧ v.getLsbD 0 = true ∧ (s.m.hearth.fwst = 1 ∨ s.m.hearth.fwst = 3)
    let asked (s : State) : M := s.m.setPort p { s.m.port p with fwctl := keep v 8 24 ||| keep v 1 1 }
    let told : W64 := 0#24 ++ temp ++ watts
    Happens (.tileStateError t kind loc true) (fun m => (m.tile t).latch = some w ∧ kind = 1)
      (fun m =>
        let m1 := m.setWT w t ((m.wt w t).logError 1 (BitVec.ofNat 56 (loc.toNat / 32 * 32)))
        m1.setTile t { m1.tile t with fetch := del (m1.tile t).fetch (blockKey w loc.toNat) }) ∧
    Happens (.tileStateError t kind loc true) (fun m => (m.tile t).latch = some w ∧ (kind = 3 ∨ kind = 4))
      (fun m => m.setWT w t ((m.wt w t).logError kind 0)) ∧
    Happens (.tileStateError t kind loc false) (fun m => (m.tile t).latch = some w) (fun m => m.stopWorld w .machineCheck 5) ∧
    Happens (.treeNodeRepair f level line true) node
      (fun m => ({ m.rebuilt f level first true with hearth := { m.hearth with repairLog := m.hearth.repairLog ++ [at'] } } : M).post
        [evWord 2 0, at', BitVec.ofNat 64 level]) ∧
    Happens (.treeNodeRepair f level line false) node
      (fun m =>
        let poison (ls : AMap (Option LineTag)) (i : Nat) : AMap (Option LineTag) := put ls (f * 2 ^ 30 + first + i) none
        (({ m.rebuilt f level first false with lines := (List.range n).foldl poison m.lines } : M).poisonRecs f first n).post
          [evWord 2 0, at', BitVec.ofNat 64 (level + 256)]) ∧
    Happens (.powerAlert watts temp) (fun m => m.booted = true ∧ (38000 < watts.toNat ∨ 95 < temp.toNat))
      (fun m => ({ m with hearth := { m.hearth with telem := told } } : M).post [evWord 7 0, told]) ∧
    Happens .thermalTrip (fun _ => True)
      (fun m => { m.cleared with hearth := { images := m.hearth.images, domain := m.hearth.domain, off := true } }) ∧
    (∀ s : State, ∃ u, exec .moduleReset s = .next u ∧ u.nv = s.nv ∧ u.m.excl = (s.nv.fuse ++ s.nv.log).eraseDups ∧
      u.m.gen = s.m.gen + BitVec.ofNat 12 (s.nv.log.filter fun e => !s.m.excl.contains e).length ∧
      u.m.tiles = [] ∧ u.m.wts = [] ∧ u.m.worlds = [] ∧ u.m.parts = [] ∧ u.m.launches = [] ∧ u.m.fmem = [] ∧ u.m.frames = [] ∧
      u.m.hmem = s.m.hmem ∧ u.m.hearth.images = s.m.hearth.images ∧ u.m.hearth.domain = s.m.hearth.domain ∧
      (∀ x, s.nv.image = some x → s.nv.minSvn ≤ x → u.m.hearth.fwst = 0 ∧ u.m.hearth.svn = x) ∧
      ((∀ x, s.nv.image = some x → x < s.nv.minSvn) → u.m.hearth.fwst = 1)) ∧
    (∀ s x, loads s → image s = some x → exec (.firmwareLoad p v) s = .next
      { m := { asked s with hearth := { s.m.hearth with fwst := 0, svn := x } },
        nv := if v.getLsbD 1 then { s.nv with image := some x, minSvn := x } else s.nv }) ∧
    (∀ s, loads s → image s = none → exec (.firmwareLoad p v) s = .next
      { s with m := { asked s with hearth := { s.m.hearth with fwst := 3 } } }) ∧
    (∀ s : State, s.m.hearth.off = false → p < 16 → ¬ loads s → exec (.firmwareLoad p v) s = .next { s with m := asked s })

/-- The retirement log and the module's images: an exclusion is written to the log, which never loses an entry, and
applied when its tile is in no partition; a full log is reported; a snapshot brings every partition to rest and lays
the fields' images in the places that the ports taking part name; a restore needs an uncut module and brings back the
images that stand in its places, sealed under the domain's key, or clears the fields and fails (R363, R366, R367, R369,
R405, R414, R415). Model's part: an image as a record and the moments of exclusions are the model's, log entries 6, 48
and 54. -/
def Obligations.ExclusionsAndSnapshots : Prop :=
  ∀ (e : W64) (p : Nat) (v : W64),
    let go (m : M) : M := m.setPort p { m.port p with snapctl := keep v 12 44 ||| keep v 1 2 }
    let places (m : M) : M := { go m with hearth := { m.hearth with snapAt := (go m).snapPlaces } }
    let heard (op : Bool) (m : M) : Prop := m.responds = true ∧ p < 16 ∧ v.getLsbD 0 = true ∧ v.getLsbD 2 = op
    let asked (op : Bool) (m : M) : Prop := heard op m ∧ m.booted = true ∧ m.hearth.snapstat ≠ 1 ∧ (go m).snapPlaces ≠ []
    let lies (a b : Nat × Nat) : Bool := a.1 == b.1 && decide (a.2 < b.2 + imageBytes) && decide (b.2 < a.2 + imageBytes)
    let kept (m : M) : List Image :=
      m.hearth.images.filter fun x => x.places.all fun a => m.hearth.snapAt.all fun b => !lies a b
    let mine (m : M) (im : Image) : Prop := im ∈ m.hearth.images ∧ im.places = m.hearth.snapAt ∧
      (∀ x ∈ m.hearth.images, x.places = m.hearth.snapAt → x = im)
    let cleared (m : M) : M := ((m.fields.filter fun (_, f) => f.pst ≤ 1).map (·.1)).foldl M.clearField m
    let used (m : M) : List Nat := (m.parts.filter fun (_, p) => p.used).map (·.1)
    let done (st : Nat) (m : M) : M :=
      ({ m with hearth := { m.hearth with snapstat := BitVec.ofNat 8 st } } : M).post [evWord 6 st]
    let goesOn (m0 m : M) : M := (used m0).foldl (fun (m : M) i => if (m.part i).quiesce = 3 then m.resume i else m) m
    let runs (m : M) : Prop := m.hearth.snapstat = 1
    (∀ s : State, s.m.booted = true → e ∉ s.nv.log → e ∉ s.nv.fuse → s.nv.log.length < 16384 →
      ∃ u, exec (.exclusionLogged e) s = .next u ∧ u.nv = { s.nv with log := s.nv.log ++ [e] } ∧
        (s.m.partOf (exTile e) = none → s.m.farOff 1 none = [] → u.m.excl = s.m.excl ++ [e] ∧ u.m.gen = s.m.gen + 1) ∧
        ((s.m.partOf (exTile e)).isSome = true → u.m.excl = s.m.excl ∧ e ∈ u.m.hearth.pend)) ∧
    (∀ s : State, s.m.booted = true → e ∉ s.nv.log → e ∉ s.nv.fuse → 16384 ≤ s.nv.log.length →
      exec (.exclusionLogged e) s = .next { s with m := { s.m with hearth := { s.m.hearth with needService := true } } }) ∧
    Happens (.snapshot p v) (asked false)
      (fun m => (used (go m)).foldl (fun (m : M) i => m.pushQuiesce i 3)
        { places m with hearth := { (places m).hearth with snapstat := 1, snapRestore := false } }) ∧
    Happens (.restore p v) (fun m => asked true m ∧ (places m).mayRestore = true)
      (fun m => { places m with hearth := { (places m).hearth with snapstat := 1, snapRestore := true } }) ∧
    Happens (.restore p v) (fun m => asked true m ∧ (places m).mayRestore = false) (fun m => done 3 (places m)) ∧
    (∀ x ∈ [(Instr.snapshot p v, false), (Instr.restore p v, true)],
      Happens x.1 (fun m => heard x.2 m ∧ m.booted = true ∧ m.hearth.snapstat ≠ 1 ∧ (go m).snapPlaces = []) (fun m => done 3 (go m)) ∧
      Happens x.1 (fun m => heard x.2 m ∧ m.hearth.snapstat = 1) go) ∧
    Happens (.snapshotComplete true) (fun m => runs m ∧ m.hearth.snapRestore = false ∧ (used m).all m.atRest = true)
      (fun m => done 2 (goesOn m { m with hearth := { m.hearth with images := m.image :: kept m } })) ∧
    Happens (.snapshotComplete false) (fun m => runs m ∧ m.hearth.snapRestore = false ∧ (used m).all m.atRest = true)
      (fun m => done 4 (goesOn m m)) ∧
    (∀ im, Happens (.snapshotComplete true)
      (fun m => runs m ∧ m.hearth.snapRestore = true ∧ mine m im ∧ im.domain = m.hearth.domain) (fun m => done 2 (m.load im))) ∧
    (∀ im ok, Happens (.snapshotComplete ok)
      (fun m => runs m ∧ m.hearth.snapRestore = true ∧ mine m im ∧ (ok = false ∨ im.domain ≠ m.hearth.domain))
      (fun m => done 4 (cleared m))) ∧
    (∀ ok, Happens (.snapshotComplete ok)
      (fun m => runs m ∧ m.hearth.snapRestore = true ∧ ∀ x ∈ m.hearth.images, x.places ≠ m.hearth.snapAt)
      (fun m => done 4 (cleared m)))

/-! ## Decoding, issuing and stepping -/

/-- A step runs the decoded instruction: when a group has its turn, its fetch block is there without a fault and the bytes
at its program counter decode to i, the step is i's own effect in the state with the group marked as tried in this
cycle, but for an instruction whose effect comes later in the cycle than those of lower group slots, whose pick is noted,
and for a group behind the two issue slots of its set, which only collects its registers; bytes that do not decode, and a
block with a fault, raise their fault; an event that the agenda holds happens in its turn, the host reads a register, and
host memory takes what the host writes, after an instruction's atomics that are under way there (R17, R58, R62, R164,
R166, R210, R320, R400). Model's part: the agenda and what is kept back are the model's own, log entry 3; the PC as ADDR of
these faults is log entry 88. -/
def Obligations.StepRunsDecoded : Prop :=
  ∀ (s : State) (t w turn' : Nat) (g : Machine.Group) (b : FetchBlock) (i : Instr) (n : Nat) (rest : List Turn),
    let slot := turn' % 192
    let m0 : M := { s.m with agenda := rest }
    let turn : Prop := (s.m.agenda = .go :: rest ∨ (s.m.agenda = [] ∧ rest = [])) ∧ m0.pick = some (t, turn')
    let first : Bool := !(s.m.tile t).tried.contains slot
    let marked : M := if first then m0.mark t slot else (m0.takeLater t turn').mark t slot
    let c : Ctx := { t := t, w := w, slot := slot, g := g, ex := g.lanes }
    let ready : Prop := turn ∧ (s.m.tile t).latch = some w ∧
      look (s.m.wt w t).groups slot = some g ∧ marked.mayIssue t w slot g = true ∧ g.asleep = false ∧
      look (s.m.tile t).fetch (blockKey w g.pc.toNat) = some b
    let dropped : M := marked.setTile t { marked.tile t with fetch := del (marked.tile t).fetch (blockKey w g.pc.toNat) }
    let full : Bool := first && (marked.tile t).setUsed (issueSet slot)
    let bytes : List Byte := (b.bytes g.team).drop (g.pc.toNat % 32)
    let reads (d : Decoded) : Prop := ready ∧ b.fault = none ∧ decode bytes = d
    let waits : Prop := first = true ∧ (isTry i = true ∨ (isOrdered i = true ∧ marked.lowerLeft w t slot = true))
    let later : Nat := if isTry i then slot + 192 else slot
    (reads (.ok i n) → full = false → (¬ waits ∨ marked.keepBack t w slot later i = none) → step s = exec i { s with m := marked }) ∧
    (∀ m1, reads (.ok i n) → full = false → waits → marked.keepBack t w slot later i = some m1 → step s = .next { s with m := m1 }) ∧
    (reads (.ok i n) → full = true → step s = .next { s with m := marked.collect t w slot i }) ∧
    (reads .illegal → full = false → step s = .next { s with m := marked.badFetch c false .illegalEncoding g.pc.toNat 0 marked }) ∧
    (reads .boundary → full = false →
      step s = .next { s with m := marked.badFetch c (bytes.headD 0 == 0) .fetchBoundary g.pc.toNat 0 marked }) ∧
    (∀ code d, ready → b.fault = some (code, d) → full = false →
      step s = .next { s with m := marked.badFetch c false code g.pc.toNat d dropped }) ∧
    (∀ x, reads .illegal ∨ reads .boundary ∨ (ready ∧ b.fault = some x) → full = true → step s = .next { s with m := marked }) ∧
    (s.m.agenda = .ev i :: rest → isEvent i = true → step s = exec i { s with m := m0 }) ∧
    (∀ a, s.m.agenda = .read a :: rest → step s = .next { s with m := { m0 with readout := s.m.readBar a } }) ∧
    (∀ p a bs, s.m.agenda = .host p a bs :: rest → s.m.between p a bs.length (fun _ => false) = false →
      step s = .next { s with m := { m0 with hmem := Memory.writeL s.m.hmem (hostKey p a) bs } }) ∧
    (∀ p a bs, s.m.agenda = .host p a bs :: .ev i :: rest → s.m.between p a bs.length (fun _ => false) = true →
      step s = .next { s with m := { m0 with agenda := .ev i :: (rest ++ [.host p a bs]) } })

/-- Words of the manual's own worked encodings decode to the instructions they stand for (R49, R53, Tables 6-2, 8-2, 15-4,
19-4, 20-3, 24-2). -/
def Obligations.WordsDecode : Prop :=
  let al : Hdr := { pg := 7, pn := false, ac := .ex, la := 0 }
  decodeTableWord 64 0x0000202424201C20 = some (.mad al 8 9 9 (.reg 8)) ∧
  decodeTableWord 64 0x00042C08042C1D0C =
    some (.fma { al with ac := .tr } { rm := .rne, sat := false, fmt := .f32 } 11 1 2 11) ∧
  decodeTableWord 96 0xFFFFFFB400000000000005C1 = some (.br { al with pg := 1 } 0 0xFFFFFFB4) ∧
  decodeTableWord 96 0x000000008800000004051E41 = some (.ld { al with la := 4 } (.vec 1) false
    { base := .uni 1, off := 0, x := { lc := .dflt, hint := .normal, scope := .group }, sz := .b4 }) ∧
  decodeTableWord 64 0x0080000010241ED0 = some (.lreduce al .fadd 9 4) ∧
  decodeTableWord 128 0x00000000000000020004503830205F66 = some (.mma { al with ac := .tr, la := 1 } 8 12 14 20 2) ∧
  decodeTableWord 64 0x0010000064000BC4 = some (.rfe { al with pg := 2 } .kill 25) ∧
  decodeTableWord 96 0x000000001000040040002FE5 = some (.send { al with pg := 3, pn := true } .b16 1 16)

/-- Decoding and encoding agree: the bytes of every well-formed instruction that has a word, with whatever bytes follow
them in their fetch block, decode to that instruction with every operand at every value, and to its length (R6, R48 to
R53, R59). -/
def Obligations.DecodeEncodeAgree : Prop :=
  ∀ (i : Instr) (bs after : List Byte), i.wf = true → encodeBytes i = some bs → decode (bs ++ after) = .ok i bs.length

/-- Every step keeps the module's nonvolatile memory: the fuse map stands, the retirement log loses no entry and never
outgrows 16,384 entries, and the fused minimum version never falls (R363, R366, R443). -/
def Obligations.LogKept : Prop :=
  ∀ s t : State, step s = .next t → nvKeeps s.nv t.nv ∧ (nvFits s.nv → nvFits t.nv)

/-- At reset every field is in F3, no id is set, no partition is cut and no world bound, no queue is enabled, nothing is
listed in any memory, and the log fits; every register of a thread that starts reads zero but p7, which reads true
(R11, R367, R403, R440, R444). What reset leaves of the rest is the model's choice (log entry 1). Model's part: the
zeros of registers without a reset value are not stated here; log entry 1. -/
def Obligations.ResetState : Prop :=
  let m := State.reset.m
  (∀ f, (m.field f).pst = 3) ∧ m.hearth.modid = none ∧ (∀ p, (m.part p).used = false) ∧
  (∀ w, (m.world w).part = none ∧ (m.world w).st = .unlocked) ∧ (∀ q, (m.wq q).en = false) ∧
  m.fmem = [] ∧ m.hmem = [] ∧ m.wts = [] ∧ m.tiles = [] ∧ m.launches = [] ∧ nvFits State.reset.nv ∧
  (∀ (th : Thread) r, th.x = [] → th.xr r = 0) ∧ (∀ th : Thread, th.pr 7 = true) ∧
  (∀ (th : Thread) p, th.p = 0 → p ≠ 7 → th.pr p = false)

/-- Every state has a next step: no step of the machine ends in a fault or a refusal. Model's part: an event without an
occasion changes nothing, log entry 8. -/
def Obligations.StepsGoOn : Prop := ∀ s : State, Goes (step s)

/-- The checks that come before an instruction's own effect, for every instruction that issues: a register at or above
the allotment, guard true or false, is REG_ALLOT; with no executing lane only the program counter advances; an accuracy
class that the instruction has not, then naming a window's object once everything earlier has completed, fault; what
waits for pending operations, of its threads or of the group, waits; the guard is p(PG) XOR PN (R12, R16, R42, R56, R57,
R125, R132). Model's part: the lanes of REG_ALLOT under false guards and windows by lane are the model's reading, log
entries 15 and 39. -/
def Obligations.IssueChecks : Prop :=
  ∀ (i : Instr) (h : Hdr) (f : Form) (body : Ctx → M → Res) (s : State) (c : Ctx), exec i s = issue h f s body →
    let rejected (ls : List (Nat × Thread)) (code : Code) : Prop := exec i s = .next { s with m := s.m.reject c ls code 0 0 }
    let waits (cause : Cause) : Prop := exec i s = .next { s with m := s.m.holdC c cause }
    let named : Prop := (c.g.violators f c.ex).isEmpty = false
    let pends (p : Pend) : Prop := p ∈ c.g.ops ∧ p.ll = true
    let ofEx (p : Pend) : Prop := ∃ x ∈ c.ex, x.1 ∈ p.lanes
    Ready h f s c →
    ((∃ x ∈ f.vec, c.g.allot < x.1 + x.2) → rejected (if c.ex.isEmpty then c.g.lanes else c.ex) .regAllot) ∧
    (¬ InAllot f c.g → c.ex ≠ [] → rejected c.ex .regAllot) ∧
    ((∀ x ∈ f.vec, x.1 + x.2 ≤ c.g.allot) → c.ex = [] → pastEnd c.g.pc f.len = false → ∃ t, exec i s = .next t ∧
      Leaves s t c { f with region := false } (nextPc c.g.pc f.len) c.g.countWin) ∧
    (InAllot f c.g → c.ex ≠ [] → ¬ ClassOk h f → rejected c.ex .accuracyClass) ∧
    (InAllot f c.g → c.ex ≠ [] → ClassOk h f → named → (∃ p, pends p) →
      waits (if ∀ p ∈ c.g.ops, p.ll = true → p.sem.isSome = true then .sema else .window)) ∧
    (InAllot f c.g → c.ex ≠ [] → ClassOk h f → named → (∀ p, ¬ pends p) → rejected (c.g.violators f c.ex) .lookaheadViolation) ∧
    (InAllot f c.g → c.ex ≠ [] → ClassOk h f → ¬ named → f.waits = true → (∃ p, pends p ∧ (f.waitsAll = true ∨ ofEx p)) →
      waits .window ∨ waits .sema) ∧
    (InAllot f c.g → c.ex ≠ [] → ClassOk h f → ¬ named → f.nonIdem = true → (∃ p ∈ c.g.ops, p.late = true ∧ ofEx p) →
      waits .window ∨ waits .sema) ∧
    (∀ th : Thread, guardOk h th = (th.pr h.pg).xor h.pn) ∧ (∀ l th, (l, th) ∈ c.ex ↔ (l, th) ∈ c.g.lanes ∧ guardOk h th = true)

/-- A control transfer whose target has bits [1:0] nonzero takes ALIGNMENT, and one whose target has bits [63:56] nonzero
takes TRANSLATION, in every executing lane and before the transfer takes place; a sequential advance past the last
address takes TRANSLATION at the instruction that would have advanced; the record carries that instruction's own
address (R18). -/
def Obligations.TransfersOutOfRange : Prop :=
  ∀ (h : Hdr) (live : BitVec 8) (imm : W32) (a : BitVec 6),
    let rel (c : Ctx) : W64 := c.g.pc.setWidth 64 + imm.signExtend 64
    let taken (s : State) (c : Ctx) (code : Code) (addr d : Nat) : State :=
      { s with m := s.m.trapOr c (whole c.ex code addr d) (s.m.quit c.w c.t c.slot c.g) }
    let faults (i : Instr) (f : Form) (p : Ctx → Prop) (target : Ctx → W64) : Prop := ∀ s c, Issues h f s c → p c →
      ((target c).extractLsb' 0 2 ≠ 0#2 → ∃ addr d, exec i s = .next (taken s c .alignment addr d)) ∧
      ((target c).extractLsb' 0 2 = 0#2 → (target c).extractLsb' 56 8 ≠ 0#8 →
        ∃ addr d, exec i s = .next (taken s c .translation addr d))
    faults (.br h live imm) { len := 12 } (fun c => divergent c.g c.ex (rel c) = false) rel ∧
    faults (.br h live imm) { len := 12, waits := true, waitsAll := true, touch := [5] } (fun c => divergent c.g c.ex (rel c) = true) rel ∧
    faults (.brx h a) (srcForm 8 [] [a.toNat]) (fun _ => True) (fun c => c.g.kr a.toNat) ∧
    faults (.call h imm) (srcForm 12 [] [62, 63]) (fun c => c.g.kr 63 &&& 15#64 = 0) rel ∧
    faults (.callx h a) (srcForm 8 [] [a.toNat, 62, 63]) (fun c => c.g.kr 63 &&& 15#64 = 0) (fun c => c.g.kr a.toNat) ∧
    faults (.ret h) (srcForm 8 [] [62]) (fun _ => True) (fun c => c.g.kr 62) ∧
    (∀ (i : Instr) (f : Form) (body : Ctx → M → Res) (s : State) (c : Ctx) (m2 : M), exec i s = issue h f s body →
      Issues h f s c → body c (counted c f s.m) = .done m2 → pastEnd c.g.pc f.len = true →
      ∃ addr d, exec i s = .next { s with m := s.m.reject c c.ex .translation addr d }) ∧
    (∀ (m : M) (t slot : Nat) (g : Machine.Group) (r : Report) (token kind : Nat),
      (m.recOf t slot g r token kind).pc = r.pc ∧ (m.recOf t slot g r token kind).code = r.code)

/-- The bytes a store writes, and no others: a line's write is read back under its tag and leaves every byte outside its
line; a store instruction changes only the stack-cache bytes of its lanes as it issues; a store performs at its home, at
its scratchpad and at the host in its own bytes; what leaves the group alone leaves every byte (R6, R87, R175,
R176, R188, R198). -/
def Obligations.StoredBytes : Prop :=
  (∀ (s t : State) (c : Ctx), Rest s t c → SameBytes s t) ∧
  (∀ (m m1 : M) (k w key tid ver : Nat) (bs : List Byte), k % 64 + bs.length ≤ 64 → m.fieldWrite k bs w key tid ver = some m1 →
    (m1.fieldRead k bs.length w key tid ver).1 = some bs ∧
    (∀ a, a / 64 ≠ k / 64 → Memory.read m1.fmem a = Memory.read m.fmem a) ∧
    (m.view (k / 64) w key tid ver = .plain → ∀ a, (a < k ∨ k + bs.length ≤ a) → Memory.read m1.fmem a = Memory.read m.fmem a) ∧
    (Memory.wf m.fmem = true → Memory.wf m1.fmem = true) ∧ m1.hmem = m.hmem) ∧
  (∀ (h : Hdr) (mm : Mem) (b : DataReg) (s : State) (c : Ctx),
    let m := counted c (memForm 12 mm.base (b.vecs mm.sz) [] b.unis) s.m
    let r := m.checkAll c .write mm.sz.bytes 0 (c.ex.map fun (l, th) => { wantOf c.g l th mm with data := dataBytes c.g th b mm.sz })
    IssuesSeq h (memForm 12 mm.base (b.vecs mm.sz) [] b.unis) s c → 5 ≤ (m.wt c.w c.t).restored → r.miss = [] → r.bad = [] →
    ∃ t, exec (.st h mm b) s = .next t ∧ (∀ a, Memory.read t.m.fmem a = Memory.read s.m.fmem a) ∧
      (∀ a, Memory.read t.m.hmem a = Memory.read s.m.hmem a) ∧
      (∀ w n a, Memory.read (t.m.wt w n).omem a = Memory.read (s.m.wt w n).omem a) ∧
      (∀ w n a, Memory.read (t.m.wt w n).scratch a = Memory.read (s.m.wt w n).scratch a) ∧
      (∀ w n a, (∀ x l, (x, Place.page l) ∈ r.go → x.stack = true → w = c.w → n = c.t → a < x.va ∨ x.va + mm.sz.bytes ≤ a) →
        Memory.read (t.m.wt w n).stackc a = Memory.read (s.m.wt w n).stackc a)) ∧
  (∀ (s : State) (id f : Nat) (x : Access), s.m.access id = some x → x.phase = .home f → x.kind = .store → s.m.ownEarlier x = false →
    let k := fieldKey f x.pa
    s.m.repairing x.line = false → s.m.ecc.contains (k / 64) = false →
    s.m.view (k / 64) x.world x.key x.tid x.ver = .plain → k % 64 + x.data.length ≤ 64 →
    ∃ t, exec (.homeWrite id) s = .next t ∧ (∀ j (hj : j < x.data.length), Memory.read t.m.fmem (k + j) = x.data[j]) ∧
      (∀ a, (a < k ∨ k + x.data.length ≤ a) → Memory.read t.m.fmem a = Memory.read s.m.fmem a) ∧ t.m.hmem = s.m.hmem ∧
      (∀ w n a, Memory.read (t.m.wt w n).scratch a = Memory.read (s.m.wt w n).scratch a)) ∧
  (∀ (s : State) (id n : Nat) (x : Access), s.m.access id = some x → x.phase = .scr n → x.kind = .store → s.m.ownEarlier x = false →
    s.m.rowWorld n 4 = some x.world →
    ∃ t, exec (.homeWrite id) s = .next t ∧
      (∀ j (hj : j < x.data.length), Memory.read (t.m.wt x.world n).scratch (x.pa + j) = x.data[j]) ∧
      (∀ w k a, (w ≠ x.world ∨ k ≠ n ∨ a < x.pa ∨ x.pa + x.data.length ≤ a) → w < 2048 → k < 8192 → x.world < 2048 → n < 8192 →
        Memory.read (t.m.wt w k).scratch a = Memory.read (s.m.wt w k).scratch a) ∧
      t.m.fmem = s.m.fmem ∧ t.m.hmem = s.m.hmem) ∧
  (∀ (s : State) (id p : Nat) (x : Access), s.m.access id = some x → x.phase = .host p → x.kind = .store → s.m.ownEarlier x = false →
    ∃ t, exec (.storeAck id) s = .next t ∧ (∀ j (hj : j < x.data.length), Memory.read t.m.hmem (hostKey p x.pa + j) = x.data[j]) ∧
      (∀ a, (a < hostKey p x.pa ∨ hostKey p x.pa + x.data.length ≤ a) → Memory.read t.m.hmem a = Memory.read s.m.hmem a) ∧
      t.m.fmem = s.m.fmem ∧ t.m.wts = s.m.wts)

/-- Taking a fault and returning from one: a fatal one queues its record and marks its launch as ending with status 5;
a replayable one parks its lanes' threads under a new token, whose record it queues, and its group waits for that
record; a verdict closes its token, RESUME puts the parked threads into the bins of their REGPC with what they hold
and checks nothing, KILL ends them, a fatal verdict ends the launch, and a token that is not open is left as it is
(R307, R309, R313, R315 to R319, R347). Model's part: the verdict FATAL ending the launch with status 5 is the model's
reading, log entry 59. -/
def Obligations.FaultsAndVerdicts : Prop :=
  ∀ (m : M) (c : Ctx) (code : Code) (addr detail li : Nat) (la : Launch) (l0 : Nat × Thread) (ls : List (Nat × Thread)),
    let m1 := m.reject c (l0 :: ls) code addr detail
    let mask := laneMask ((l0 :: ls).map (·.1))
    let stands : Prop := look (m.wt c.w c.t).groups c.slot = some c.g ∧ m.launchOf c.g.team = some (li, la) ∧
      look m.launches li = some la ∧ la.ending = false ∧ c.g.late = [] ∧ (∀ x ∈ l0 :: ls, x ∈ c.g.lanes) ∧
      (c.g.lanes.map (·.1)).Nodup ∧ ((l0 :: ls).map (·.1)).Nodup ∧ (∀ x ∈ l0 :: ls, x.1 < 32)
    let tok := (m.world c.w).nextTok
    let parked (x : Nat × Thread) : Bool := !((l0 :: ls).map (·.1)).contains x.1
    (stands → code.cls = .fatal → ∃ id fr,
      look m1.launches li = some { la with ending := true, status := 5 } ∧
      (m1.world c.w).recs = (m.world c.w).recs ++ [{ id := id, fr := fr, launch := li }] ∧
      fr.code = code ∧ fr.pc = c.g.pc ∧ fr.kind = 1 ∧ fr.token = 0 ∧ fr.group = c.slot ∧ fr.seq = la.seq ∧
      (code ≠ .formatDivergence → fr.lanes = mask ∧ fr.addr = addr) ∧
      look (m1.wt c.w c.t).groups c.slot = some c.g) ∧
    (stands → code.cls = .replayable → look (m.wt c.w c.t).parked tok = none → 5 ≤ (m.wt c.w c.t).restored →
      c.g.anyLL = false → m.hasRoom c.w c.t c.slot ((m.wt c.w c.t).roomFor c.g (ls.length + 1)) = true → ∃ id fr,
      look (m1.world c.w).tokens tok = some { tile := c.t, launch := li } ∧
      (m1.world c.w).recs = (m.world c.w).recs ++ [{ id := id, fr := fr, launch := li }] ∧
      fr.code = code ∧ fr.pc = c.g.pc ∧ fr.kind = 0 ∧ fr.token = tok ∧ fr.lanes = mask ∧ fr.addr = addr ∧
      look m1.launches li = some la ∧
      (∃ pk, look (m1.wt c.w c.t).parked tok = some pk ∧ pk.team = c.g.team ∧
        pk.ths.map (fun e => (e.th, e.pc, e.allot, e.l, e.team, e.urec)) = (c.g.lanes.filter fun x => !parked x).map fun (_, th) =>
          ({ th with resv := none }, th.regpc, c.g.allot, c.g.allot, c.g.team, ((m.wt c.w c.t).urecFor c.g.team c.g.k).1)) ∧
      (c.g.lanes.filter parked = [] → look (m1.wt c.w c.t).groups c.slot = none) ∧
      (c.g.lanes.filter parked ≠ [] → ∃ g, look (m1.wt c.w c.t).groups c.slot = some g ∧ g.lanes = c.g.lanes.filter parked ∧
        g.record = some id ∧ g.pc = c.g.pc ∧ g.k = c.g.k)) ∧
    (∀ w token v, look (m.world w).tokens token = none → m.resolve w token v = m) ∧
    (∀ w token tk, look (m.world w).tokens token = some tk →
      (m.resolve w token .resume = (m.setWorld w { m.world w with tokens := del (m.world w).tokens token }).setWT w tk.tile
        ((((look (m.wt w tk.tile).parked token).map (·.ths)).getD []).foldl
          (fun (wt : WT) e => wt.enterBin (m.tile tk.tile).cycle e.th.regpc e.urec e.team (m.bint e.team) [{ e with pc := e.th.regpc }])
          { m.wt w tk.tile with parked := del (m.wt w tk.tile).parked token })) ∧
      (m.resolve w token .kill = (((look (m.wt w tk.tile).parked token).map (·.ths)).getD []).foldl
        (fun m e => m.endThread w tk.tile e.team e.th)
        ((m.setWorld w { m.world w with tokens := del (m.world w).tokens token }).setWT w tk.tile
          (WT.gcUrecs { m.wt w tk.tile with parked := del (m.wt w tk.tile).parked token }))) ∧
      ((m.resolve w token .fatal).world w) = { m.world w with tokens := del (m.world w).tokens token } ∧
      (∀ l, look m.launches tk.launch = some l →
        look (m.resolve w token .fatal).launches tk.launch = some { l with ending := true, status := 5 }))
end

