-- ==== Sys2Proof/Laws/Alu.lean ====
section
/-! SUPPORT. The integer values of the model against the bit-vector operations of the same meaning (R71 to R75, R82). -/

namespace Sys2Proof.Machine

theorem mulV_eq (x y : W32) : x * y = BitVec.ofInt 32 (x.toInt * y.toInt) := by
  apply BitVec.eq_of_toInt_eq; simp [BitVec.toInt_mul]

theorem mulhuV_eq (x y : W32) : mulhuV x y = (x.setWidth 64 * y.setWidth 64).extractLsb' 32 32 := by
  have hx := x.isLt; have hy := y.isLt
  apply BitVec.eq_of_toNat_eq
  have hlt : x.toNat * y.toNat < 2 ^ 64 := by nlinarith
  simp only [mulhuV, BitVec.toNat_ofNat, BitVec.extractLsb'_toNat, BitVec.toNat_mul, BitVec.toNat_setWidth, Nat.shiftRight_eq_div_pow]
  rw [Nat.mod_eq_of_lt (show x.toNat < 2 ^ 64 by omega), Nat.mod_eq_of_lt (show y.toNat < 2 ^ 64 by omega),
    Nat.mod_eq_of_lt hlt]

theorem mulwV_true (x y : W32) : mulwV true x y = x.setWidth 64 * y.setWidth 64 := by
  have hx := x.isLt; have hy := y.isLt
  apply BitVec.eq_of_toNat_eq
  simp only [mulwV, if_true, BitVec.toNat_ofNat, BitVec.toNat_mul, BitVec.toNat_setWidth]
  rw [Nat.mod_eq_of_lt (show x.toNat < 2 ^ 64 by omega), Nat.mod_eq_of_lt (show y.toNat < 2 ^ 64 by omega)]

theorem mulwV_false (x y : W32) : mulwV false x y = x.signExtend 64 * y.signExtend 64 := by
  apply BitVec.eq_of_toInt_eq
  simp [mulwV, BitVec.toInt_mul, BitVec.toInt_signExtend_of_le]

theorem mulhV_eq (x y : W32) : mulhV x y = (x.signExtend 64 * y.signExtend 64).extractLsb' 32 32 := by
  rw [← mulwV_false]
  apply BitVec.eq_of_toNat_eq
  simp only [mulhV, mulwV, Bool.false_eq_true, if_false, BitVec.extractLsb'_toNat, BitVec.toNat_ofInt, Nat.shiftRight_eq_div_pow]
  generalize x.toInt * y.toInt = z
  omega

theorem divU_eq (n q : W32) : divU n q = if q = 0 then BitVec.allOnes 32 else n / q := by
  unfold divU; split_ifs
  · rfl
  · apply BitVec.eq_of_toNat_eq
    simp only [BitVec.toNat_ofNat, BitVec.toNat_udiv]
    exact Nat.mod_eq_of_lt (Nat.lt_of_le_of_lt (Nat.div_le_self _ _) n.isLt)

theorem remU_eq (n q : W32) : remU n q = if q = 0 then n else n % q := by
  unfold remU; split_ifs
  · rfl
  · apply BitVec.eq_of_toNat_eq
    have := Nat.mod_le n.toNat q.toNat
    have := n.isLt
    simp only [BitVec.toNat_ofNat, BitVec.toNat_umod]; omega

theorem divS_eq (n q : W32) : divS n q = if q = 0 then BitVec.allOnes 32 else n.sdiv q := by
  unfold divS; split_ifs with h1 h2
  · rfl
  · obtain ⟨rfl, rfl⟩ := h2; decide
  · apply BitVec.eq_of_toInt_eq
    rw [BitVec.toInt_sdiv, BitVec.toInt_ofInt]

theorem remS_eq (n q : W32) : remS n q = if q = 0 then n else n.srem q := by
  unfold remS; split_ifs with h1 h2
  · rfl
  · obtain ⟨rfl, rfl⟩ := h2; decide
  · apply BitVec.eq_of_toInt_eq
    rw [BitVec.toInt_srem, BitVec.toInt_ofInt]
    have h0 : (q.toInt) ≠ 0 := by intro h; exact h1 (by apply BitVec.eq_of_toInt_eq; simpa using h)
    have h1 := Int.natAbs_tmod n.toInt q.toInt
    have h2 : n.toInt.natAbs % q.toInt.natAbs ≤ n.toInt.natAbs := Nat.mod_le _ _
    have h3 := Nat.mod_lt n.toInt.natAbs (show 0 < q.toInt.natAbs by omega)
    have a := BitVec.toInt_lt (x := q); have b := BitVec.le_toInt (x := q)
    simp only [Nat.reduceSub] at a b
    apply Int.bmod_eq_of_le <;> omega

theorem shlV_eq (x y : W32) : shlV x y = x <<< y := by
  unfold shlV; split_ifs with h
  · rw [BitVec.shiftLeft_eq', BitVec.shiftLeft_eq_zero h]; rfl
  · rfl

theorem shrV_eq (x y : W32) : shrV x y = x >>> y := by
  unfold shrV; split_ifs with h
  · rw [BitVec.ushiftRight_eq', BitVec.ushiftRight_eq_zero h]; rfl
  · rfl

theorem sarV_eq (x y : W32) : sarV x y = x.sshiftRight y.toNat := by
  unfold sarV; split_ifs with h h2
  · ext i hi
    rw [BitVec.getElem_sshiftRight]
    have hm : x.msb = true := by rw [BitVec.msb_eq_toInt]; simpa using h2
    rw [dif_neg (by omega), hm]
    have : (0xFFFFFFFF : W32) = BitVec.allOnes 32 := by decide
    simp only [this, BitVec.getElem_allOnes]
  · ext i hi
    rw [BitVec.getElem_sshiftRight]
    have hm : x.msb = false := by rw [BitVec.msb_eq_toInt]; simpa using h2
    rw [dif_neg (by omega), hm]; simp
  · rfl

theorem shl64V_eq (x y : W64) : shl64V x y = x <<< y := by
  unfold shl64V; split_ifs with h
  · rw [BitVec.shiftLeft_eq', BitVec.shiftLeft_eq_zero h]; rfl
  · rfl

theorem shr64V_eq (ar : Bool) (x y : W64) : shr64V ar x y = if ar then x.sshiftRight y.toNat else x >>> y := by
  unfold shr64V; split_ifs with ha h h2 h
  · ext i hi
    rw [BitVec.getElem_sshiftRight]
    have hm : x.msb = true := by rw [BitVec.msb_eq_toInt]; simpa using h2
    rw [dif_neg (by omega), hm]
    have : (0xFFFFFFFFFFFFFFFF : W64) = BitVec.allOnes 64 := by decide
    simp only [this, BitVec.getElem_allOnes]
  · ext i hi
    rw [BitVec.getElem_sshiftRight]
    have hm : x.msb = false := by rw [BitVec.msb_eq_toInt]; simpa using h2
    rw [dif_neg (by omega), hm]; simp
  · rfl
  · rw [BitVec.ushiftRight_eq', BitVec.ushiftRight_eq_zero h]; rfl
  · rfl

theorem absV_eq (sat : Bool) (x : W32) :
    absV sat x = if sat then satS |x.toInt| else BitVec.ofInt 32 |x.toInt| := by
  unfold absV; rw [Int.natCast_natAbs]

theorem negV_eq (sat : Bool) (x : W32) : negV sat x = if sat then satS (-x.toInt) else 0 - x := by
  unfold negV; split_ifs
  · rfl
  · apply BitVec.eq_of_toInt_eq; simp [BitVec.toInt_neg]

theorem funnelV_eq (x y z : W32) : funnelV x y z = ((y ++ x) >>> (z.toNat % 64)).setWidth 32 := by
  apply BitVec.eq_of_toNat_eq
  have hx := x.isLt
  simp only [funnelV, BitVec.toNat_ofNat, BitVec.toNat_setWidth, BitVec.toNat_ushiftRight, Nat.shiftRight_eq_div_pow,
    BitVec.toNat_append]
  rw [← Nat.shiftLeft_add_eq_or_of_lt hx, Nat.shiftLeft_eq]

theorem plopV_eq (tt : BitVec 4) (a b : Bool) : plopV tt a b = tt.getLsbD (2 * a.toNat + b.toNat) := by
  cases a <;> cases b <;> rfl

theorem rotlV_eq (x y : W32) : rotlV x y = x.rotateLeft y.toNat := by
  have h1 : ∀ k, BitVec.ofNat 32 (x.toNat * 2 ^ k) = x <<< k := fun k => by
    apply BitVec.eq_of_toNat_eq; simp [Nat.shiftLeft_eq]
  have h2 : ∀ k, BitVec.ofNat 32 (x.toNat / 2 ^ k) = x >>> k := fun k => by
    apply BitVec.eq_of_toNat_eq
    simp only [BitVec.toNat_ofNat, BitVec.toNat_ushiftRight, Nat.shiftRight_eq_div_pow]
    exact Nat.mod_eq_of_lt (Nat.lt_of_le_of_lt (Nat.div_le_self _ _) x.isLt)
  rw [rotlV, h1, h2, BitVec.rotateLeft_def]

theorem leadZ_eq (x : W32) : ∀ n, x.toNat < 2 ^ n → leadZ x n = if x.toNat = 0 then n else n - 1 - Nat.log2 x.toNat := by
  intro n
  induction n with
  | zero => intro h; simp [leadZ, show x.toNat = 0 by omega]
  | succ n ih =>
    intro h
    simp only [leadZ]
    by_cases hb : x.getLsbD n = true
    · have hge : 2 ^ n ≤ x.toNat := Nat.ge_two_pow_of_testBit hb
      have hpos := Nat.two_pow_pos n
      have hl : Nat.log2 x.toNat = n := (Nat.log2_eq_iff (by omega)).2 ⟨hge, h⟩
      rw [if_pos hb, if_neg (by omega), hl]; omega
    · rw [if_neg hb]
      have hlt : x.toNat < 2 ^ n := by
        by_contra hc
        apply hb
        show x.toNat.testBit n = true
        rw [Nat.testBit_eq_decide_div_mod_eq]
        have hd : x.toNat / 2 ^ n = 1 := by
          rw [Nat.div_eq_iff (Nat.two_pow_pos n)]; rw [Nat.pow_succ] at h; omega
        rw [hd]; rfl
      rw [ih hlt]
      split_ifs with h0
      · omega
      · have : Nat.log2 x.toNat < n := (Nat.log2_lt h0).2 hlt
        omega

theorem clzV_eq (x : W32) : clzV x = BitVec.ofNat 32 (if x = 0 then 32 else 31 - Nat.log2 x.toNat) := by
  rw [clzV, leadZ_eq x 32 x.isLt]
  congr 1
  have : x.toNat = 0 ↔ x = 0 := by
    constructor
    · intro h; apply BitVec.eq_of_toNat_eq; simpa using h
    · rintro rfl; rfl
  simp only [this]

theorem brev_sum (x : W32) (n : Nat) (h : n ≤ 32) :
    ∃ q, (List.range n).foldl (fun acc i => if x.getLsbD i then acc + 2 ^ (31 - i) else acc) 0 = q * 2 ^ (32 - n) ∧
    ∀ j, j < n → q.testBit j = x.getLsbD (n - 1 - j) := by
  induction n with
  | zero => exact ⟨0, by simp, by omega⟩
  | succ n ih =>
    obtain ⟨q, hq, hb⟩ := ih (by omega)
    refine ⟨2 * q + (x.getLsbD n).toNat, ?_, ?_⟩
    · rw [List.range_succ, List.foldl_append, hq]
      have e : 2 ^ (32 - n) = 2 * 2 ^ (32 - (n + 1)) := by rw [← Nat.pow_succ']; congr 1; omega
      have e2 : 31 - n = 32 - (n + 1) := by omega
      simp only [List.foldl_cons, List.foldl_nil, e, e2]
      generalize 2 ^ (32 - (n + 1)) = z
      cases x.getLsbD n <;> simp <;> ring
    · intro j hj
      cases j with
      | zero => rw [Nat.testBit_zero]; simp only [Nat.add_sub_cancel, Nat.sub_zero]; cases x.getLsbD n <;> simp
      | succ j =>
        rw [Nat.testBit_succ]
        have : (2 * q + (x.getLsbD n).toNat) / 2 = q := by cases x.getLsbD n <;> simp <;> omega
        rw [this, hb j (by omega)]; congr 1; omega

theorem brevV_eq (x : W32) : brevV x = x.reverse := by
  obtain ⟨q, hq, hb⟩ := brev_sum x 32 (by omega)
  apply BitVec.eq_of_getLsbD_eq
  intro i hi
  rw [brevV, hq, BitVec.getLsbD_reverse, BitVec.getMsbD_eq_getLsbD]
  simp only [Nat.sub_self, Nat.pow_zero, Nat.mul_one, BitVec.getLsbD_ofNat, hi, decide_true, Bool.true_and]
  exact hb i hi

theorem ctzV_eq (x : W32) : ctzV x = BitVec.ofNat 32 (if x = 0 then 32 else 31 - Nat.log2 x.reverse.toNat) := by
  rw [ctzV, clzV_eq, brevV_eq]
  have : x.reverse = 0 ↔ x = 0 := by
    constructor
    · intro h
      apply BitVec.eq_of_getLsbD_eq; intro i hi
      have := congrArg (fun y => y.getMsbD i) h
      simpa [BitVec.getMsbD_reverse] using this
    · rintro rfl; apply BitVec.eq_of_getLsbD_eq; intro i hi; simp [BitVec.getLsbD_reverse, BitVec.getMsbD]
  simp only [this]

theorem sextV_eq (x y : W32) :
    sextV x y = if y = 0 ∨ 32 ≤ y.toNat then x else (x <<< (32 - y.toNat)).sshiftRight (32 - y.toNat) := by
  have h0 : y.toNat = 0 ↔ y = 0 := by
    constructor
    · intro h; apply BitVec.eq_of_toNat_eq; simpa using h
    · rintro rfl; rfl
  unfold sextV; dsimp only; simp only [h0]
  split_ifs with h
  · rfl
  · rw [not_or] at h
    have hw : 0 < y.toNat ∧ y.toNat < 32 := ⟨by have := mt h0.1 h.1; omega, by omega⟩
    obtain ⟨hw0, hw1⟩ := hw
    have e : BitVec.ofInt 32 (sextNat y.toNat (x.toNat % 2 ^ y.toNat)) = (x.setWidth y.toNat).signExtend 32 := by
      apply BitVec.eq_of_toInt_eq
      rw [BitVec.toInt_signExtend_of_le (by omega), BitVec.toInt_ofInt]
      have hv : (x.setWidth y.toNat).toNat = x.toNat % 2 ^ y.toNat := by simp
      have hs : sextNat y.toNat (x.toNat % 2 ^ y.toNat) = (x.setWidth y.toNat).toInt := by
        rw [BitVec.toInt_eq_toNat_cond, hv]
        unfold sextNat; dsimp only
        rw [Nat.mod_mod]
        have hp : 2 ^ y.toNat = 2 * 2 ^ (y.toNat - 1) := by rw [← Nat.pow_succ']; congr 1; omega
        split_ifs with c1 c2 c2
        · omega
        · push_cast; rfl
        · rfl
        · omega
      rw [hs]
      have a := BitVec.toInt_lt (x := x.setWidth y.toNat); have b := BitVec.le_toInt (x := x.setWidth y.toNat)
      have hle : (2 : Int) ^ (y.toNat - 1) ≤ 2 ^ 31 := by
        exact_mod_cast Nat.pow_le_pow_right (by omega) (by omega)
      apply Int.bmod_eq_of_le <;> simp only [Nat.reducePow, Nat.cast_ofNat] <;> omega
    rw [e]
    apply BitVec.eq_of_getLsbD_eq; intro i hi
    rw [BitVec.getLsbD_signExtend, BitVec.getLsbD_sshiftRight]
    simp only [hi, decide_true, Bool.true_and, BitVec.getLsbD_setWidth, BitVec.getLsbD_shiftLeft,
      show ¬ 32 ≤ i by omega, decide_false, Bool.not_false]
    split_ifs with c1 c2 c2
    · simp [show i < y.toNat by omega]
      simp [show 32 - y.toNat + i < 32 by omega]
    · omega
    · omega
    · rw [BitVec.msb_setWidth, BitVec.msb_eq_getLsbD_last]
      simp [show 0 < y.toNat by omega, show 31 - (32 - y.toNat) = y.toNat - 1 by omega, show ¬ 31 < 32 - y.toNat by omega,
        BitVec.getLsbD_eq_getElem (show y.toNat - 1 < 32 by omega)]

theorem zextV_eq (x y : W32) :
    zextV x y = if y = 0 ∨ 32 ≤ y.toNat then x else (x <<< (32 - y.toNat)) >>> (32 - y.toNat) := by
  have h0 : y.toNat = 0 ↔ y = 0 := by
    constructor
    · intro h; apply BitVec.eq_of_toNat_eq; simpa using h
    · rintro rfl; rfl
  unfold zextV; dsimp only; simp only [h0]
  split_ifs with h
  · rfl
  · rw [not_or] at h
    have hw : 0 < y.toNat ∧ y.toNat < 32 := ⟨by have := mt h0.1 h.1; omega, by omega⟩
    apply BitVec.eq_of_getLsbD_eq; intro i hi
    simp only [BitVec.getLsbD_ofNat, hi, decide_true, Bool.true_and, BitVec.getLsbD_ushiftRight, BitVec.getLsbD_shiftLeft,
      Nat.testBit_mod_two_pow]
    by_cases c : i < y.toNat
    · simp [c, show 32 - y.toNat + i - (32 - y.toNat) = i by omega, show 32 - y.toNat + i < 32 by omega, BitVec.testBit_toNat]
    · simp [c, show ¬ 32 - y.toNat + i < 32 by omega]

end Sys2Proof.Machine
end

