-- ==== Sys2Proof/Laws/Maps.lean ====
section
/-! SUPPORT. Laws of maps and memories: a read after a write, and the canonical form that every write keeps. -/

namespace Sys2Proof.Machine

variable {β : Type}

@[simp] theorem look_nil (k : Nat) : look ([] : AMap β) k = none := rfl

@[simp] theorem look_put_self (m : AMap β) (k : Nat) (v : β) : look (put m k v) k = some v := by
  induction m with
  | nil => simp [put, look]
  | cons p t ih => obtain ⟨j, w⟩ := p; simp only [put]; split_ifs <;> simp_all [look]

theorem look_put_ne (m : AMap β) {k i : Nat} (v : β) (h : i ≠ k) : look (put m k v) i = look m i := by
  induction m with
  | nil => simp [put, look, Ne.symm h]
  | cons p t ih => obtain ⟨j, w⟩ := p; simp only [put]; split_ifs <;> simp_all [look, Ne.symm h]

theorem look_put (m : AMap β) (k i : Nat) (v : β) : look (put m k v) i = if i = k then some v else look m i := by
  split_ifs with h
  · subst h; simp
  · exact look_put_ne m v h

@[simp] theorem look_del_self (m : AMap β) (k : Nat) : look (del m k) k = none := by
  induction m with
  | nil => rfl
  | cons p t ih => obtain ⟨j, w⟩ := p; simp only [del]; split_ifs with h <;> simp_all [look]

theorem look_del_ne (m : AMap β) {k i : Nat} (h : i ≠ k) : look (del m k) i = look m i := by
  induction m with
  | nil => rfl
  | cons p t ih => obtain ⟨j, w⟩ := p; simp only [del]; split_ifs with h' <;> simp_all [look, Ne.symm h]

theorem look_del (m : AMap β) (k i : Nat) : look (del m k) i = if i = k then none else look m i := by
  split_ifs with h
  · subst h; simp
  · exact look_del_ne m h

@[simp] theorem mget_put_self (d : β) (m : AMap β) (k : Nat) (v : β) : mget d (put m k v) k = v := by simp [mget]

theorem mget_put_ne (d : β) (m : AMap β) {k i : Nat} (v : β) (h : i ≠ k) : mget d (put m k v) i = mget d m i := by
  simp [mget, look_put_ne m v h]

@[simp] theorem mget_mset_self [DecidableEq β] (d : β) (m : AMap β) (k : Nat) (v : β) : mget d (mset d m k v) k = v := by
  unfold mset; split_ifs with h
  · simp [mget, h]
  · simp

theorem mget_mset_ne [DecidableEq β] (d : β) (m : AMap β) {k i : Nat} (v : β) (h : i ≠ k) :
    mget d (mset d m k v) i = mget d m i := by
  unfold mset; split_ifs
  · simp [mget, look_del_ne m h]
  · exact mget_put_ne d m v h

@[simp] theorem look_mapV {γ : Type} (f : Nat → β → γ) (m : AMap β) (k : Nat) :
    look (mapV f m) k = (look m k).map (f k) := by
  induction m with
  | nil => rfl
  | cons p t ih => obtain ⟨j, w⟩ := p; simp only [mapV, look]; split_ifs with h <;> simp_all

theorem look_of_put_eq (m : AMap β) {k : Nat} {v : β} (h : look m k = some v) (i : Nat) :
    look (put m k v) i = look m i := by
  rw [look_put]; split_ifs with hi
  · rw [hi, h]
  · rfl

/-! ## Memory -/

@[simp] theorem Memory.read_write_self (m : Memory) (a : Nat) (v : Byte) : Memory.read (Memory.write m a v) a = v := by
  simp [Memory.read, Memory.write]

theorem Memory.read_write_ne (m : Memory) {a b : Nat} (v : Byte) (h : b ≠ a) :
    Memory.read (Memory.write m a v) b = Memory.read m b := mget_mset_ne _ _ v h

/-- A write of many bytes leaves every other address as it was. -/
theorem Memory.read_writeL_out (bs : List Byte) : ∀ (m : Memory) (a b : Nat), b < a ∨ a + bs.length ≤ b →
    Memory.read (Memory.writeL m a bs) b = Memory.read m b := by
  induction bs with
  | nil => intro m a b _; rfl
  | cons x xs ih =>
    intro m a b h
    simp only [List.length_cons] at h
    rw [Memory.writeL, ih _ _ _ (by omega), Memory.read_write_ne _ _ (by omega)]

/-- A byte that a write of many bytes has written. -/
theorem Memory.read_writeL_in (bs : List Byte) : ∀ (m : Memory) (a i : Nat) (h : i < bs.length),
    Memory.read (Memory.writeL m a bs) (a + i) = bs[i] := by
  induction bs with
  | nil => intro m a i h; simp at h
  | cons x xs ih =>
    intro m a i h
    rw [Memory.writeL]
    cases i with
    | zero => rw [Memory.read_writeL_out _ _ _ _ (by omega)]; simp
    | succ i =>
      have := ih (Memory.write m a x) (a + 1) i (by simpa using h)
      rw [show a + (i + 1) = a + 1 + i by omega, this]; rfl

theorem Memory.readN_writeL (bs : List Byte) (m : Memory) (a : Nat) :
    Memory.readN (Memory.writeL m a bs) a bs.length = bs := by
  have key : ∀ (n : Nat) (m' : Memory) (a' : Nat) (ys : List Byte), ys.length = n →
      (∀ i (h : i < ys.length), Memory.read m' (a' + i) = ys[i]) → Memory.readN m' a' n = ys := by
    intro n
    induction n with
    | zero => intro m' a' ys hy _; rw [List.length_eq_zero_iff.mp hy]; rfl
    | succ n ih =>
      intro m' a' ys hy hr
      cases ys with
      | nil => simp at hy
      | cons y ys =>
        simp only [Memory.readN]
        have h0 := hr 0 (by simp)
        rw [Nat.add_zero] at h0
        rw [h0, ih m' (a' + 1) ys (by simpa using hy) (fun i h => by
          have := hr (i + 1) (by simpa using h)
          rw [show a' + (i + 1) = a' + 1 + i by omega] at this
          simpa using this)]
        rfl
  exact key _ _ _ _ rfl (fun i h => Memory.read_writeL_in bs m a i h)

/-! ## The canonical form -/

theorem Memory.wfFrom_mono {m : Memory} {lo lo' : Nat} (h : Memory.wfFrom lo m = true) (hl : lo' ≤ lo) :
    Memory.wfFrom lo' m = true := by
  cases m with
  | nil => rfl
  | cons p t => obtain ⟨k, v⟩ := p; simp only [Memory.wfFrom, Bool.and_eq_true, decide_eq_true_eq] at *; exact ⟨⟨by omega, h.1.2⟩, h.2⟩

theorem Memory.wfFrom_del {m : Memory} : ∀ {lo : Nat} (a : Nat), Memory.wfFrom lo m = true →
    Memory.wfFrom lo (del m a) = true := by
  induction m with
  | nil => intro lo a _; rfl
  | cons p t ih =>
    obtain ⟨k, v⟩ := p
    intro lo a h
    simp only [Memory.wfFrom, Bool.and_eq_true, decide_eq_true_eq] at h
    simp only [del]; split_ifs
    · exact wfFrom_mono (ih a h.2) (by omega)
    · simp only [Memory.wfFrom, Bool.and_eq_true, decide_eq_true_eq]; exact ⟨h.1, ih a h.2⟩

theorem Memory.wfFrom_put {m : Memory} : ∀ {lo : Nat} (a : Nat) (v : Byte), v ≠ Memory.unlisted → lo ≤ a →
    Memory.wfFrom lo m = true → Memory.wfFrom lo (put m a v) = true := by
  induction m with
  | nil => intro lo a v hv hl _; simp [put, Memory.wfFrom, hv, hl]
  | cons p t ih =>
    obtain ⟨k, w⟩ := p
    intro lo a v hv hl h
    simp only [Memory.wfFrom, Bool.and_eq_true, decide_eq_true_eq, bne_iff_ne] at h
    simp only [put]; split_ifs with h1 h2
    · simp only [Memory.wfFrom, Bool.and_eq_true, decide_eq_true_eq, bne_iff_ne]
      exact ⟨⟨hl, hv⟩, ⟨by omega, h.1.2⟩, h.2⟩
    · subst h2
      simp only [Memory.wfFrom, Bool.and_eq_true, decide_eq_true_eq, bne_iff_ne]
      exact ⟨⟨hl, hv⟩, h.2⟩
    · simp only [Memory.wfFrom, Bool.and_eq_true, decide_eq_true_eq, bne_iff_ne]
      exact ⟨h.1, ih a v hv (by omega) h.2⟩

theorem Memory.wf_write {m : Memory} (a : Nat) (v : Byte) (h : Memory.wf m = true) : Memory.wf (Memory.write m a v) = true := by
  unfold Memory.write mset; split_ifs with hv
  · exact wfFrom_del a h
  · exact wfFrom_put a v hv (Nat.zero_le _) h

theorem Memory.wf_writeL (bs : List Byte) : ∀ {m : Memory} (a : Nat), Memory.wf m = true →
    Memory.wf (Memory.writeL m a bs) = true := by
  induction bs with
  | nil => intro m a h; exact h
  | cons x xs ih => intro m a h; exact ih _ (wf_write a x h)

theorem Memory.wfFrom_filter (p : Host.Cell → Bool) {m : Memory} : ∀ {lo : Nat}, Memory.wfFrom lo m = true →
    Memory.wfFrom lo (m.filter p) = true := by
  induction m with
  | nil => intro lo _; rfl
  | cons q t ih =>
    obtain ⟨k, v⟩ := q
    intro lo h
    simp only [Memory.wfFrom, Bool.and_eq_true, decide_eq_true_eq] at h
    rw [List.filter_cons]; split_ifs
    · simp only [Memory.wfFrom, Bool.and_eq_true, decide_eq_true_eq]; exact ⟨h.1, ih h.2⟩
    · exact wfFrom_mono (ih h.2) (by omega)

theorem Memory.wf_filter (p : Host.Cell → Bool) {m : Memory} (h : Memory.wf m = true) : Memory.wf (m.filter p) = true :=
  wfFrom_filter p h

/-- Two canonical memories that read alike are equal. -/
theorem Memory.wf_ext_from : ∀ {a b : Memory} {lo : Nat}, Memory.wfFrom lo a = true → Memory.wfFrom lo b = true →
    (∀ k, Memory.read a k = Memory.read b k) → a = b := by
  have low : ∀ {m : Memory} {lo k : Nat}, Memory.wfFrom lo m = true → k < lo → Memory.read m k = Memory.unlisted := by
    intro m
    induction m with
    | nil => intro lo k _ _; rfl
    | cons p t ih =>
      obtain ⟨j, v⟩ := p
      intro lo k h hk
      simp only [Memory.wfFrom, Bool.and_eq_true, decide_eq_true_eq] at h
      have hj : j ≠ k := by omega
      have := ih (lo := j + 1) (k := k) h.2 (by omega)
      simpa [Memory.read, mget, look, hj] using this
  intro a
  induction a with
  | nil =>
    intro b lo _ hb hr
    cases b with
    | nil => rfl
    | cons p t =>
      obtain ⟨j, v⟩ := p
      simp only [Memory.wfFrom, Bool.and_eq_true, decide_eq_true_eq, bne_iff_ne] at hb
      have := hr j
      exact absurd (by simpa [Memory.read, mget, look] using this.symm) hb.1.2
  | cons p t ih =>
    obtain ⟨j, v⟩ := p
    intro b lo ha hb hr
    simp only [Memory.wfFrom, Bool.and_eq_true, decide_eq_true_eq, bne_iff_ne] at ha
    cases b with
    | nil =>
      have := hr j
      exact absurd (by simpa [Memory.read, mget, look] using this) ha.1.2
    | cons q u =>
      obtain ⟨i, w⟩ := q
      simp only [Memory.wfFrom, Bool.and_eq_true, decide_eq_true_eq, bne_iff_ne] at hb
      have hij : j = i := by
        rcases Nat.lt_trichotomy j i with h | h | h
        · have := hr j
          rw [show Memory.read ((i, w) :: u) j = Memory.unlisted by
            have := low (m := u) (lo := i + 1) (k := j) hb.2 (by omega)
            simpa [Memory.read, mget, look, show i ≠ j by omega] using this] at this
          exact absurd (by simpa [Memory.read, mget, look] using this) ha.1.2
        · exact h
        · have := hr i
          rw [show Memory.read ((j, v) :: t) i = Memory.unlisted by
            have := low (m := t) (lo := j + 1) (k := i) ha.2 (by omega)
            simpa [Memory.read, mget, look, show j ≠ i by omega] using this] at this
          exact absurd (by simpa [Memory.read, mget, look] using this.symm) hb.1.2
      subst hij
      have hvw : v = w := by simpa [Memory.read, mget, look] using hr j
      subst hvw
      congr 1
      refine ih ha.2 hb.2 (fun k => ?_)
      by_cases hk : j = k
      · subst hk
        rw [low ha.2 (by omega), low hb.2 (by omega)]
      · simpa [Memory.read, mget, look, hk] using hr k

theorem Memory.wf_ext {a b : Memory} (ha : Memory.wf a = true) (hb : Memory.wf b = true)
    (h : ∀ k, Memory.read a k = Memory.read b k) : a = b := wf_ext_from ha hb h

end Sys2Proof.Machine
end

