-- ==== Sys2Proof/Laws/State.lean ====
section
/-! SUPPORT. What each update of the state leaves as it was, field by field, and what reading after it gives. -/

namespace Sys2Proof.Machine

/-! ## The machine -/

@[simp] theorem M.setTile_cur (m : M) (k : Nat) (v : Tile) : (m.setTile k v).cur = m.cur := rfl
@[simp] theorem M.setTile_agenda (m : M) (k : Nat) (v : Tile) : (m.setTile k v).agenda = m.agenda := rfl
@[simp] theorem M.setTile_uid (m : M) (k : Nat) (v : Tile) : (m.setTile k v).uid = m.uid := rfl
@[simp] theorem M.setTile_free (m : M) (k : Nat) (v : Tile) : (m.setTile k v).free = m.free := rfl
@[simp] theorem M.setTile_gen (m : M) (k : Nat) (v : Tile) : (m.setTile k v).gen = m.gen := rfl
@[simp] theorem M.setTile_excl (m : M) (k : Nat) (v : Tile) : (m.setTile k v).excl = m.excl := rfl
@[simp] theorem M.setTile_clock (m : M) (k : Nat) (v : Tile) : (m.setTile k v).clock = m.clock := rfl
@[simp] theorem M.setTile_tiles (m : M) (k : Nat) (v : Tile) : (m.setTile k v).tiles = put m.tiles k v := rfl
@[simp] theorem M.setTile_wts (m : M) (k : Nat) (v : Tile) : (m.setTile k v).wts = m.wts := rfl
@[simp] theorem M.setTile_teams (m : M) (k : Nat) (v : Tile) : (m.setTile k v).teams = m.teams := rfl
@[simp] theorem M.setTile_clusters (m : M) (k : Nat) (v : Tile) : (m.setTile k v).clusters = m.clusters := rfl
@[simp] theorem M.setTile_launches (m : M) (k : Nat) (v : Tile) : (m.setTile k v).launches = m.launches := rfl
@[simp] theorem M.setTile_wqs (m : M) (k : Nat) (v : Tile) : (m.setTile k v).wqs = m.wqs := rfl
@[simp] theorem M.setTile_acc (m : M) (k : Nat) (v : Tile) : (m.setTile k v).acc = m.acc := rfl
@[simp] theorem M.setTile_walks (m : M) (k : Nat) (v : Tile) : (m.setTile k v).walks = m.walks := rfl
@[simp] theorem M.setTile_copies (m : M) (k : Nat) (v : Tile) : (m.setTile k v).copies = m.copies := rfl
@[simp] theorem M.setTile_flights (m : M) (k : Nat) (v : Tile) : (m.setTile k v).flights = m.flights := rfl
@[simp] theorem M.setTile_dumps (m : M) (k : Nat) (v : Tile) : (m.setTile k v).dumps = m.dumps := rfl
@[simp] theorem M.setTile_fmem (m : M) (k : Nat) (v : Tile) : (m.setTile k v).fmem = m.fmem := rfl
@[simp] theorem M.setTile_lines (m : M) (k : Nat) (v : Tile) : (m.setTile k v).lines = m.lines := rfl
@[simp] theorem M.setTile_expiry (m : M) (k : Nat) (v : Tile) : (m.setTile k v).expiry = m.expiry := rfl
@[simp] theorem M.setTile_ecc (m : M) (k : Nat) (v : Tile) : (m.setTile k v).ecc = m.ecc := rfl
@[simp] theorem M.setTile_stale (m : M) (k : Nat) (v : Tile) : (m.setTile k v).stale = m.stale := rfl
@[simp] theorem M.setTile_failed (m : M) (k : Nat) (v : Tile) : (m.setTile k v).failed = m.failed := rfl
@[simp] theorem M.setTile_readout (m : M) (k : Nat) (v : Tile) : (m.setTile k v).readout = m.readout := rfl
@[simp] theorem M.setTile_hot (m : M) (k : Nat) (v : Tile) : (m.setTile k v).hot = m.hot := rfl
@[simp] theorem M.setTile_frames (m : M) (k : Nat) (v : Tile) : (m.setTile k v).frames = m.frames := rfl
@[simp] theorem M.setTile_fields (m : M) (k : Nat) (v : Tile) : (m.setTile k v).fields = m.fields := rfl
@[simp] theorem M.setTile_hmem (m : M) (k : Nat) (v : Tile) : (m.setTile k v).hmem = m.hmem := rfl
@[simp] theorem M.setTile_worlds (m : M) (k : Nat) (v : Tile) : (m.setTile k v).worlds = m.worlds := rfl
@[simp] theorem M.setTile_parts (m : M) (k : Nat) (v : Tile) : (m.setTile k v).parts = m.parts := rfl
@[simp] theorem M.setTile_ports (m : M) (k : Nat) (v : Tile) : (m.setTile k v).ports = m.ports := rfl
@[simp] theorem M.setTile_stops (m : M) (k : Nat) (v : Tile) : (m.setTile k v).stops = m.stops := rfl
@[simp] theorem M.setTile_hearth (m : M) (k : Nat) (v : Tile) : (m.setTile k v).hearth = m.hearth := rfl
@[simp] theorem M.world_setTile (m : M) (k j : Nat) (v : Tile) : (m.setTile k v).world j = m.world j := rfl
@[simp] theorem M.part_setTile (m : M) (k j : Nat) (v : Tile) : (m.setTile k v).part j = m.part j := rfl
@[simp] theorem M.port_setTile (m : M) (k j : Nat) (v : Tile) : (m.setTile k v).port j = m.port j := rfl
@[simp] theorem M.field_setTile (m : M) (k j : Nat) (v : Tile) : (m.setTile k v).field j = m.field j := rfl
@[simp] theorem M.wq_setTile (m : M) (k j : Nat) (v : Tile) : (m.setTile k v).wq j = m.wq j := rfl
@[simp] theorem M.wt_setTile (m : M) (k i j : Nat) (v : Tile) : (m.setTile k v).wt i j = m.wt i j := rfl
@[simp] theorem M.tile_setTile_self (m : M) (k : Nat) (v : Tile) : (m.setTile k v).tile k = v := mget_put_self _ _ _ _
theorem M.tile_setTile_ne (m : M) {k j : Nat} (v : Tile) (h : j ≠ k) : (m.setTile k v).tile j = m.tile j := mget_put_ne _ _ _ h

@[simp] theorem M.setWorld_cur (m : M) (k : Nat) (v : World) : (m.setWorld k v).cur = m.cur := rfl
@[simp] theorem M.setWorld_agenda (m : M) (k : Nat) (v : World) : (m.setWorld k v).agenda = m.agenda := rfl
@[simp] theorem M.setWorld_uid (m : M) (k : Nat) (v : World) : (m.setWorld k v).uid = m.uid := rfl
@[simp] theorem M.setWorld_free (m : M) (k : Nat) (v : World) : (m.setWorld k v).free = m.free := rfl
@[simp] theorem M.setWorld_gen (m : M) (k : Nat) (v : World) : (m.setWorld k v).gen = m.gen := rfl
@[simp] theorem M.setWorld_excl (m : M) (k : Nat) (v : World) : (m.setWorld k v).excl = m.excl := rfl
@[simp] theorem M.setWorld_clock (m : M) (k : Nat) (v : World) : (m.setWorld k v).clock = m.clock := rfl
@[simp] theorem M.setWorld_tiles (m : M) (k : Nat) (v : World) : (m.setWorld k v).tiles = m.tiles := rfl
@[simp] theorem M.setWorld_wts (m : M) (k : Nat) (v : World) : (m.setWorld k v).wts = m.wts := rfl
@[simp] theorem M.setWorld_teams (m : M) (k : Nat) (v : World) : (m.setWorld k v).teams = m.teams := rfl
@[simp] theorem M.setWorld_clusters (m : M) (k : Nat) (v : World) : (m.setWorld k v).clusters = m.clusters := rfl
@[simp] theorem M.setWorld_launches (m : M) (k : Nat) (v : World) : (m.setWorld k v).launches = m.launches := rfl
@[simp] theorem M.setWorld_wqs (m : M) (k : Nat) (v : World) : (m.setWorld k v).wqs = m.wqs := rfl
@[simp] theorem M.setWorld_acc (m : M) (k : Nat) (v : World) : (m.setWorld k v).acc = m.acc := rfl
@[simp] theorem M.setWorld_walks (m : M) (k : Nat) (v : World) : (m.setWorld k v).walks = m.walks := rfl
@[simp] theorem M.setWorld_copies (m : M) (k : Nat) (v : World) : (m.setWorld k v).copies = m.copies := rfl
@[simp] theorem M.setWorld_flights (m : M) (k : Nat) (v : World) : (m.setWorld k v).flights = m.flights := rfl
@[simp] theorem M.setWorld_dumps (m : M) (k : Nat) (v : World) : (m.setWorld k v).dumps = m.dumps := rfl
@[simp] theorem M.setWorld_fmem (m : M) (k : Nat) (v : World) : (m.setWorld k v).fmem = m.fmem := rfl
@[simp] theorem M.setWorld_lines (m : M) (k : Nat) (v : World) : (m.setWorld k v).lines = m.lines := rfl
@[simp] theorem M.setWorld_expiry (m : M) (k : Nat) (v : World) : (m.setWorld k v).expiry = m.expiry := rfl
@[simp] theorem M.setWorld_ecc (m : M) (k : Nat) (v : World) : (m.setWorld k v).ecc = m.ecc := rfl
@[simp] theorem M.setWorld_stale (m : M) (k : Nat) (v : World) : (m.setWorld k v).stale = m.stale := rfl
@[simp] theorem M.setWorld_failed (m : M) (k : Nat) (v : World) : (m.setWorld k v).failed = m.failed := rfl
@[simp] theorem M.setWorld_readout (m : M) (k : Nat) (v : World) : (m.setWorld k v).readout = m.readout := rfl
@[simp] theorem M.setWorld_hot (m : M) (k : Nat) (v : World) : (m.setWorld k v).hot = m.hot := rfl
@[simp] theorem M.setWorld_frames (m : M) (k : Nat) (v : World) : (m.setWorld k v).frames = m.frames := rfl
@[simp] theorem M.setWorld_fields (m : M) (k : Nat) (v : World) : (m.setWorld k v).fields = m.fields := rfl
@[simp] theorem M.setWorld_hmem (m : M) (k : Nat) (v : World) : (m.setWorld k v).hmem = m.hmem := rfl
@[simp] theorem M.setWorld_worlds (m : M) (k : Nat) (v : World) : (m.setWorld k v).worlds = put m.worlds k v := rfl
@[simp] theorem M.setWorld_parts (m : M) (k : Nat) (v : World) : (m.setWorld k v).parts = m.parts := rfl
@[simp] theorem M.setWorld_ports (m : M) (k : Nat) (v : World) : (m.setWorld k v).ports = m.ports := rfl
@[simp] theorem M.setWorld_stops (m : M) (k : Nat) (v : World) : (m.setWorld k v).stops = m.stops := rfl
@[simp] theorem M.setWorld_hearth (m : M) (k : Nat) (v : World) : (m.setWorld k v).hearth = m.hearth := rfl
@[simp] theorem M.tile_setWorld (m : M) (k j : Nat) (v : World) : (m.setWorld k v).tile j = m.tile j := rfl
@[simp] theorem M.part_setWorld (m : M) (k j : Nat) (v : World) : (m.setWorld k v).part j = m.part j := rfl
@[simp] theorem M.port_setWorld (m : M) (k j : Nat) (v : World) : (m.setWorld k v).port j = m.port j := rfl
@[simp] theorem M.field_setWorld (m : M) (k j : Nat) (v : World) : (m.setWorld k v).field j = m.field j := rfl
@[simp] theorem M.wq_setWorld (m : M) (k j : Nat) (v : World) : (m.setWorld k v).wq j = m.wq j := rfl
@[simp] theorem M.wt_setWorld (m : M) (k i j : Nat) (v : World) : (m.setWorld k v).wt i j = m.wt i j := rfl
@[simp] theorem M.world_setWorld_self (m : M) (k : Nat) (v : World) : (m.setWorld k v).world k = v := mget_put_self _ _ _ _
theorem M.world_setWorld_ne (m : M) {k j : Nat} (v : World) (h : j ≠ k) : (m.setWorld k v).world j = m.world j := mget_put_ne _ _ _ h

@[simp] theorem M.setPart_cur (m : M) (k : Nat) (v : Part) : (m.setPart k v).cur = m.cur := rfl
@[simp] theorem M.setPart_agenda (m : M) (k : Nat) (v : Part) : (m.setPart k v).agenda = m.agenda := rfl
@[simp] theorem M.setPart_uid (m : M) (k : Nat) (v : Part) : (m.setPart k v).uid = m.uid := rfl
@[simp] theorem M.setPart_free (m : M) (k : Nat) (v : Part) : (m.setPart k v).free = m.free := rfl
@[simp] theorem M.setPart_gen (m : M) (k : Nat) (v : Part) : (m.setPart k v).gen = m.gen := rfl
@[simp] theorem M.setPart_excl (m : M) (k : Nat) (v : Part) : (m.setPart k v).excl = m.excl := rfl
@[simp] theorem M.setPart_clock (m : M) (k : Nat) (v : Part) : (m.setPart k v).clock = m.clock := rfl
@[simp] theorem M.setPart_tiles (m : M) (k : Nat) (v : Part) : (m.setPart k v).tiles = m.tiles := rfl
@[simp] theorem M.setPart_wts (m : M) (k : Nat) (v : Part) : (m.setPart k v).wts = m.wts := rfl
@[simp] theorem M.setPart_teams (m : M) (k : Nat) (v : Part) : (m.setPart k v).teams = m.teams := rfl
@[simp] theorem M.setPart_clusters (m : M) (k : Nat) (v : Part) : (m.setPart k v).clusters = m.clusters := rfl
@[simp] theorem M.setPart_launches (m : M) (k : Nat) (v : Part) : (m.setPart k v).launches = m.launches := rfl
@[simp] theorem M.setPart_wqs (m : M) (k : Nat) (v : Part) : (m.setPart k v).wqs = m.wqs := rfl
@[simp] theorem M.setPart_acc (m : M) (k : Nat) (v : Part) : (m.setPart k v).acc = m.acc := rfl
@[simp] theorem M.setPart_walks (m : M) (k : Nat) (v : Part) : (m.setPart k v).walks = m.walks := rfl
@[simp] theorem M.setPart_copies (m : M) (k : Nat) (v : Part) : (m.setPart k v).copies = m.copies := rfl
@[simp] theorem M.setPart_flights (m : M) (k : Nat) (v : Part) : (m.setPart k v).flights = m.flights := rfl
@[simp] theorem M.setPart_dumps (m : M) (k : Nat) (v : Part) : (m.setPart k v).dumps = m.dumps := rfl
@[simp] theorem M.setPart_fmem (m : M) (k : Nat) (v : Part) : (m.setPart k v).fmem = m.fmem := rfl
@[simp] theorem M.setPart_lines (m : M) (k : Nat) (v : Part) : (m.setPart k v).lines = m.lines := rfl
@[simp] theorem M.setPart_expiry (m : M) (k : Nat) (v : Part) : (m.setPart k v).expiry = m.expiry := rfl
@[simp] theorem M.setPart_ecc (m : M) (k : Nat) (v : Part) : (m.setPart k v).ecc = m.ecc := rfl
@[simp] theorem M.setPart_stale (m : M) (k : Nat) (v : Part) : (m.setPart k v).stale = m.stale := rfl
@[simp] theorem M.setPart_failed (m : M) (k : Nat) (v : Part) : (m.setPart k v).failed = m.failed := rfl
@[simp] theorem M.setPart_readout (m : M) (k : Nat) (v : Part) : (m.setPart k v).readout = m.readout := rfl
@[simp] theorem M.setPart_hot (m : M) (k : Nat) (v : Part) : (m.setPart k v).hot = m.hot := rfl
@[simp] theorem M.setPart_frames (m : M) (k : Nat) (v : Part) : (m.setPart k v).frames = m.frames := rfl
@[simp] theorem M.setPart_fields (m : M) (k : Nat) (v : Part) : (m.setPart k v).fields = m.fields := rfl
@[simp] theorem M.setPart_hmem (m : M) (k : Nat) (v : Part) : (m.setPart k v).hmem = m.hmem := rfl
@[simp] theorem M.setPart_worlds (m : M) (k : Nat) (v : Part) : (m.setPart k v).worlds = m.worlds := rfl
@[simp] theorem M.setPart_parts (m : M) (k : Nat) (v : Part) : (m.setPart k v).parts = put m.parts k v := rfl
@[simp] theorem M.setPart_ports (m : M) (k : Nat) (v : Part) : (m.setPart k v).ports = m.ports := rfl
@[simp] theorem M.setPart_stops (m : M) (k : Nat) (v : Part) : (m.setPart k v).stops = m.stops := rfl
@[simp] theorem M.setPart_hearth (m : M) (k : Nat) (v : Part) : (m.setPart k v).hearth = m.hearth := rfl
@[simp] theorem M.tile_setPart (m : M) (k j : Nat) (v : Part) : (m.setPart k v).tile j = m.tile j := rfl
@[simp] theorem M.world_setPart (m : M) (k j : Nat) (v : Part) : (m.setPart k v).world j = m.world j := rfl
@[simp] theorem M.port_setPart (m : M) (k j : Nat) (v : Part) : (m.setPart k v).port j = m.port j := rfl
@[simp] theorem M.field_setPart (m : M) (k j : Nat) (v : Part) : (m.setPart k v).field j = m.field j := rfl
@[simp] theorem M.wq_setPart (m : M) (k j : Nat) (v : Part) : (m.setPart k v).wq j = m.wq j := rfl
@[simp] theorem M.wt_setPart (m : M) (k i j : Nat) (v : Part) : (m.setPart k v).wt i j = m.wt i j := rfl
@[simp] theorem M.part_setPart_self (m : M) (k : Nat) (v : Part) : (m.setPart k v).part k = v := mget_put_self _ _ _ _
theorem M.part_setPart_ne (m : M) {k j : Nat} (v : Part) (h : j ≠ k) : (m.setPart k v).part j = m.part j := mget_put_ne _ _ _ h

@[simp] theorem M.setPort_cur (m : M) (k : Nat) (v : Port) : (m.setPort k v).cur = m.cur := rfl
@[simp] theorem M.setPort_agenda (m : M) (k : Nat) (v : Port) : (m.setPort k v).agenda = m.agenda := rfl
@[simp] theorem M.setPort_uid (m : M) (k : Nat) (v : Port) : (m.setPort k v).uid = m.uid := rfl
@[simp] theorem M.setPort_free (m : M) (k : Nat) (v : Port) : (m.setPort k v).free = m.free := rfl
@[simp] theorem M.setPort_gen (m : M) (k : Nat) (v : Port) : (m.setPort k v).gen = m.gen := rfl
@[simp] theorem M.setPort_excl (m : M) (k : Nat) (v : Port) : (m.setPort k v).excl = m.excl := rfl
@[simp] theorem M.setPort_clock (m : M) (k : Nat) (v : Port) : (m.setPort k v).clock = m.clock := rfl
@[simp] theorem M.setPort_tiles (m : M) (k : Nat) (v : Port) : (m.setPort k v).tiles = m.tiles := rfl
@[simp] theorem M.setPort_wts (m : M) (k : Nat) (v : Port) : (m.setPort k v).wts = m.wts := rfl
@[simp] theorem M.setPort_teams (m : M) (k : Nat) (v : Port) : (m.setPort k v).teams = m.teams := rfl
@[simp] theorem M.setPort_clusters (m : M) (k : Nat) (v : Port) : (m.setPort k v).clusters = m.clusters := rfl
@[simp] theorem M.setPort_launches (m : M) (k : Nat) (v : Port) : (m.setPort k v).launches = m.launches := rfl
@[simp] theorem M.setPort_wqs (m : M) (k : Nat) (v : Port) : (m.setPort k v).wqs = m.wqs := rfl
@[simp] theorem M.setPort_acc (m : M) (k : Nat) (v : Port) : (m.setPort k v).acc = m.acc := rfl
@[simp] theorem M.setPort_walks (m : M) (k : Nat) (v : Port) : (m.setPort k v).walks = m.walks := rfl
@[simp] theorem M.setPort_copies (m : M) (k : Nat) (v : Port) : (m.setPort k v).copies = m.copies := rfl
@[simp] theorem M.setPort_flights (m : M) (k : Nat) (v : Port) : (m.setPort k v).flights = m.flights := rfl
@[simp] theorem M.setPort_dumps (m : M) (k : Nat) (v : Port) : (m.setPort k v).dumps = m.dumps := rfl
@[simp] theorem M.setPort_fmem (m : M) (k : Nat) (v : Port) : (m.setPort k v).fmem = m.fmem := rfl
@[simp] theorem M.setPort_lines (m : M) (k : Nat) (v : Port) : (m.setPort k v).lines = m.lines := rfl
@[simp] theorem M.setPort_expiry (m : M) (k : Nat) (v : Port) : (m.setPort k v).expiry = m.expiry := rfl
@[simp] theorem M.setPort_ecc (m : M) (k : Nat) (v : Port) : (m.setPort k v).ecc = m.ecc := rfl
@[simp] theorem M.setPort_stale (m : M) (k : Nat) (v : Port) : (m.setPort k v).stale = m.stale := rfl
@[simp] theorem M.setPort_failed (m : M) (k : Nat) (v : Port) : (m.setPort k v).failed = m.failed := rfl
@[simp] theorem M.setPort_readout (m : M) (k : Nat) (v : Port) : (m.setPort k v).readout = m.readout := rfl
@[simp] theorem M.setPort_hot (m : M) (k : Nat) (v : Port) : (m.setPort k v).hot = m.hot := rfl
@[simp] theorem M.setPort_frames (m : M) (k : Nat) (v : Port) : (m.setPort k v).frames = m.frames := rfl
@[simp] theorem M.setPort_fields (m : M) (k : Nat) (v : Port) : (m.setPort k v).fields = m.fields := rfl
@[simp] theorem M.setPort_hmem (m : M) (k : Nat) (v : Port) : (m.setPort k v).hmem = m.hmem := rfl
@[simp] theorem M.setPort_worlds (m : M) (k : Nat) (v : Port) : (m.setPort k v).worlds = m.worlds := rfl
@[simp] theorem M.setPort_parts (m : M) (k : Nat) (v : Port) : (m.setPort k v).parts = m.parts := rfl
@[simp] theorem M.setPort_ports (m : M) (k : Nat) (v : Port) : (m.setPort k v).ports = put m.ports k v := rfl
@[simp] theorem M.setPort_stops (m : M) (k : Nat) (v : Port) : (m.setPort k v).stops = m.stops := rfl
@[simp] theorem M.setPort_hearth (m : M) (k : Nat) (v : Port) : (m.setPort k v).hearth = m.hearth := rfl
@[simp] theorem M.tile_setPort (m : M) (k j : Nat) (v : Port) : (m.setPort k v).tile j = m.tile j := rfl
@[simp] theorem M.world_setPort (m : M) (k j : Nat) (v : Port) : (m.setPort k v).world j = m.world j := rfl
@[simp] theorem M.part_setPort (m : M) (k j : Nat) (v : Port) : (m.setPort k v).part j = m.part j := rfl
@[simp] theorem M.field_setPort (m : M) (k j : Nat) (v : Port) : (m.setPort k v).field j = m.field j := rfl
@[simp] theorem M.wq_setPort (m : M) (k j : Nat) (v : Port) : (m.setPort k v).wq j = m.wq j := rfl
@[simp] theorem M.wt_setPort (m : M) (k i j : Nat) (v : Port) : (m.setPort k v).wt i j = m.wt i j := rfl
@[simp] theorem M.port_setPort_self (m : M) (k : Nat) (v : Port) : (m.setPort k v).port k = v := mget_put_self _ _ _ _
theorem M.port_setPort_ne (m : M) {k j : Nat} (v : Port) (h : j ≠ k) : (m.setPort k v).port j = m.port j := mget_put_ne _ _ _ h

@[simp] theorem M.setField_cur (m : M) (k : Nat) (v : Field) : (m.setField k v).cur = m.cur := rfl
@[simp] theorem M.setField_agenda (m : M) (k : Nat) (v : Field) : (m.setField k v).agenda = m.agenda := rfl
@[simp] theorem M.setField_uid (m : M) (k : Nat) (v : Field) : (m.setField k v).uid = m.uid := rfl
@[simp] theorem M.setField_free (m : M) (k : Nat) (v : Field) : (m.setField k v).free = m.free := rfl
@[simp] theorem M.setField_gen (m : M) (k : Nat) (v : Field) : (m.setField k v).gen = m.gen := rfl
@[simp] theorem M.setField_excl (m : M) (k : Nat) (v : Field) : (m.setField k v).excl = m.excl := rfl
@[simp] theorem M.setField_clock (m : M) (k : Nat) (v : Field) : (m.setField k v).clock = m.clock := rfl
@[simp] theorem M.setField_tiles (m : M) (k : Nat) (v : Field) : (m.setField k v).tiles = m.tiles := rfl
@[simp] theorem M.setField_wts (m : M) (k : Nat) (v : Field) : (m.setField k v).wts = m.wts := rfl
@[simp] theorem M.setField_teams (m : M) (k : Nat) (v : Field) : (m.setField k v).teams = m.teams := rfl
@[simp] theorem M.setField_clusters (m : M) (k : Nat) (v : Field) : (m.setField k v).clusters = m.clusters := rfl
@[simp] theorem M.setField_launches (m : M) (k : Nat) (v : Field) : (m.setField k v).launches = m.launches := rfl
@[simp] theorem M.setField_wqs (m : M) (k : Nat) (v : Field) : (m.setField k v).wqs = m.wqs := rfl
@[simp] theorem M.setField_acc (m : M) (k : Nat) (v : Field) : (m.setField k v).acc = m.acc := rfl
@[simp] theorem M.setField_walks (m : M) (k : Nat) (v : Field) : (m.setField k v).walks = m.walks := rfl
@[simp] theorem M.setField_copies (m : M) (k : Nat) (v : Field) : (m.setField k v).copies = m.copies := rfl
@[simp] theorem M.setField_flights (m : M) (k : Nat) (v : Field) : (m.setField k v).flights = m.flights := rfl
@[simp] theorem M.setField_dumps (m : M) (k : Nat) (v : Field) : (m.setField k v).dumps = m.dumps := rfl
@[simp] theorem M.setField_fmem (m : M) (k : Nat) (v : Field) : (m.setField k v).fmem = m.fmem := rfl
@[simp] theorem M.setField_lines (m : M) (k : Nat) (v : Field) : (m.setField k v).lines = m.lines := rfl
@[simp] theorem M.setField_expiry (m : M) (k : Nat) (v : Field) : (m.setField k v).expiry = m.expiry := rfl
@[simp] theorem M.setField_ecc (m : M) (k : Nat) (v : Field) : (m.setField k v).ecc = m.ecc := rfl
@[simp] theorem M.setField_stale (m : M) (k : Nat) (v : Field) : (m.setField k v).stale = m.stale := rfl
@[simp] theorem M.setField_failed (m : M) (k : Nat) (v : Field) : (m.setField k v).failed = m.failed := rfl
@[simp] theorem M.setField_readout (m : M) (k : Nat) (v : Field) : (m.setField k v).readout = m.readout := rfl
@[simp] theorem M.setField_hot (m : M) (k : Nat) (v : Field) : (m.setField k v).hot = m.hot := rfl
@[simp] theorem M.setField_frames (m : M) (k : Nat) (v : Field) : (m.setField k v).frames = m.frames := rfl
@[simp] theorem M.setField_fields (m : M) (k : Nat) (v : Field) : (m.setField k v).fields = put m.fields k v := rfl
@[simp] theorem M.setField_hmem (m : M) (k : Nat) (v : Field) : (m.setField k v).hmem = m.hmem := rfl
@[simp] theorem M.setField_worlds (m : M) (k : Nat) (v : Field) : (m.setField k v).worlds = m.worlds := rfl
@[simp] theorem M.setField_parts (m : M) (k : Nat) (v : Field) : (m.setField k v).parts = m.parts := rfl
@[simp] theorem M.setField_ports (m : M) (k : Nat) (v : Field) : (m.setField k v).ports = m.ports := rfl
@[simp] theorem M.setField_stops (m : M) (k : Nat) (v : Field) : (m.setField k v).stops = m.stops := rfl
@[simp] theorem M.setField_hearth (m : M) (k : Nat) (v : Field) : (m.setField k v).hearth = m.hearth := rfl
@[simp] theorem M.tile_setField (m : M) (k j : Nat) (v : Field) : (m.setField k v).tile j = m.tile j := rfl
@[simp] theorem M.world_setField (m : M) (k j : Nat) (v : Field) : (m.setField k v).world j = m.world j := rfl
@[simp] theorem M.part_setField (m : M) (k j : Nat) (v : Field) : (m.setField k v).part j = m.part j := rfl
@[simp] theorem M.port_setField (m : M) (k j : Nat) (v : Field) : (m.setField k v).port j = m.port j := rfl
@[simp] theorem M.wq_setField (m : M) (k j : Nat) (v : Field) : (m.setField k v).wq j = m.wq j := rfl
@[simp] theorem M.wt_setField (m : M) (k i j : Nat) (v : Field) : (m.setField k v).wt i j = m.wt i j := rfl
@[simp] theorem M.field_setField_self (m : M) (k : Nat) (v : Field) : (m.setField k v).field k = v := mget_put_self _ _ _ _
theorem M.field_setField_ne (m : M) {k j : Nat} (v : Field) (h : j ≠ k) : (m.setField k v).field j = m.field j := mget_put_ne _ _ _ h

@[simp] theorem M.setWQ_cur (m : M) (k : Nat) (v : WQ) : (m.setWQ k v).cur = m.cur := rfl
@[simp] theorem M.setWQ_agenda (m : M) (k : Nat) (v : WQ) : (m.setWQ k v).agenda = m.agenda := rfl
@[simp] theorem M.setWQ_uid (m : M) (k : Nat) (v : WQ) : (m.setWQ k v).uid = m.uid := rfl
@[simp] theorem M.setWQ_free (m : M) (k : Nat) (v : WQ) : (m.setWQ k v).free = m.free := rfl
@[simp] theorem M.setWQ_gen (m : M) (k : Nat) (v : WQ) : (m.setWQ k v).gen = m.gen := rfl
@[simp] theorem M.setWQ_excl (m : M) (k : Nat) (v : WQ) : (m.setWQ k v).excl = m.excl := rfl
@[simp] theorem M.setWQ_clock (m : M) (k : Nat) (v : WQ) : (m.setWQ k v).clock = m.clock := rfl
@[simp] theorem M.setWQ_tiles (m : M) (k : Nat) (v : WQ) : (m.setWQ k v).tiles = m.tiles := rfl
@[simp] theorem M.setWQ_wts (m : M) (k : Nat) (v : WQ) : (m.setWQ k v).wts = m.wts := rfl
@[simp] theorem M.setWQ_teams (m : M) (k : Nat) (v : WQ) : (m.setWQ k v).teams = m.teams := rfl
@[simp] theorem M.setWQ_clusters (m : M) (k : Nat) (v : WQ) : (m.setWQ k v).clusters = m.clusters := rfl
@[simp] theorem M.setWQ_launches (m : M) (k : Nat) (v : WQ) : (m.setWQ k v).launches = m.launches := rfl
@[simp] theorem M.setWQ_wqs (m : M) (k : Nat) (v : WQ) : (m.setWQ k v).wqs = put m.wqs k v := rfl
@[simp] theorem M.setWQ_acc (m : M) (k : Nat) (v : WQ) : (m.setWQ k v).acc = m.acc := rfl
@[simp] theorem M.setWQ_walks (m : M) (k : Nat) (v : WQ) : (m.setWQ k v).walks = m.walks := rfl
@[simp] theorem M.setWQ_copies (m : M) (k : Nat) (v : WQ) : (m.setWQ k v).copies = m.copies := rfl
@[simp] theorem M.setWQ_flights (m : M) (k : Nat) (v : WQ) : (m.setWQ k v).flights = m.flights := rfl
@[simp] theorem M.setWQ_dumps (m : M) (k : Nat) (v : WQ) : (m.setWQ k v).dumps = m.dumps := rfl
@[simp] theorem M.setWQ_fmem (m : M) (k : Nat) (v : WQ) : (m.setWQ k v).fmem = m.fmem := rfl
@[simp] theorem M.setWQ_lines (m : M) (k : Nat) (v : WQ) : (m.setWQ k v).lines = m.lines := rfl
@[simp] theorem M.setWQ_expiry (m : M) (k : Nat) (v : WQ) : (m.setWQ k v).expiry = m.expiry := rfl
@[simp] theorem M.setWQ_ecc (m : M) (k : Nat) (v : WQ) : (m.setWQ k v).ecc = m.ecc := rfl
@[simp] theorem M.setWQ_stale (m : M) (k : Nat) (v : WQ) : (m.setWQ k v).stale = m.stale := rfl
@[simp] theorem M.setWQ_failed (m : M) (k : Nat) (v : WQ) : (m.setWQ k v).failed = m.failed := rfl
@[simp] theorem M.setWQ_readout (m : M) (k : Nat) (v : WQ) : (m.setWQ k v).readout = m.readout := rfl
@[simp] theorem M.setWQ_hot (m : M) (k : Nat) (v : WQ) : (m.setWQ k v).hot = m.hot := rfl
@[simp] theorem M.setWQ_frames (m : M) (k : Nat) (v : WQ) : (m.setWQ k v).frames = m.frames := rfl
@[simp] theorem M.setWQ_fields (m : M) (k : Nat) (v : WQ) : (m.setWQ k v).fields = m.fields := rfl
@[simp] theorem M.setWQ_hmem (m : M) (k : Nat) (v : WQ) : (m.setWQ k v).hmem = m.hmem := rfl
@[simp] theorem M.setWQ_worlds (m : M) (k : Nat) (v : WQ) : (m.setWQ k v).worlds = m.worlds := rfl
@[simp] theorem M.setWQ_parts (m : M) (k : Nat) (v : WQ) : (m.setWQ k v).parts = m.parts := rfl
@[simp] theorem M.setWQ_ports (m : M) (k : Nat) (v : WQ) : (m.setWQ k v).ports = m.ports := rfl
@[simp] theorem M.setWQ_stops (m : M) (k : Nat) (v : WQ) : (m.setWQ k v).stops = m.stops := rfl
@[simp] theorem M.setWQ_hearth (m : M) (k : Nat) (v : WQ) : (m.setWQ k v).hearth = m.hearth := rfl
@[simp] theorem M.tile_setWQ (m : M) (k j : Nat) (v : WQ) : (m.setWQ k v).tile j = m.tile j := rfl
@[simp] theorem M.world_setWQ (m : M) (k j : Nat) (v : WQ) : (m.setWQ k v).world j = m.world j := rfl
@[simp] theorem M.part_setWQ (m : M) (k j : Nat) (v : WQ) : (m.setWQ k v).part j = m.part j := rfl
@[simp] theorem M.port_setWQ (m : M) (k j : Nat) (v : WQ) : (m.setWQ k v).port j = m.port j := rfl
@[simp] theorem M.field_setWQ (m : M) (k j : Nat) (v : WQ) : (m.setWQ k v).field j = m.field j := rfl
@[simp] theorem M.wt_setWQ (m : M) (k i j : Nat) (v : WQ) : (m.setWQ k v).wt i j = m.wt i j := rfl
@[simp] theorem M.wq_setWQ_self (m : M) (k : Nat) (v : WQ) : (m.setWQ k v).wq k = v := mget_put_self _ _ _ _
theorem M.wq_setWQ_ne (m : M) {k j : Nat} (v : WQ) (h : j ≠ k) : (m.setWQ k v).wq j = m.wq j := mget_put_ne _ _ _ h

@[simp] theorem M.setTeam_cur (m : M) (k : Nat) (v : Team) : (m.setTeam k v).cur = m.cur := rfl
@[simp] theorem M.setTeam_agenda (m : M) (k : Nat) (v : Team) : (m.setTeam k v).agenda = m.agenda := rfl
@[simp] theorem M.setTeam_uid (m : M) (k : Nat) (v : Team) : (m.setTeam k v).uid = m.uid := rfl
@[simp] theorem M.setTeam_free (m : M) (k : Nat) (v : Team) : (m.setTeam k v).free = m.free := rfl
@[simp] theorem M.setTeam_gen (m : M) (k : Nat) (v : Team) : (m.setTeam k v).gen = m.gen := rfl
@[simp] theorem M.setTeam_excl (m : M) (k : Nat) (v : Team) : (m.setTeam k v).excl = m.excl := rfl
@[simp] theorem M.setTeam_clock (m : M) (k : Nat) (v : Team) : (m.setTeam k v).clock = m.clock := rfl
@[simp] theorem M.setTeam_tiles (m : M) (k : Nat) (v : Team) : (m.setTeam k v).tiles = m.tiles := rfl
@[simp] theorem M.setTeam_wts (m : M) (k : Nat) (v : Team) : (m.setTeam k v).wts = m.wts := rfl
@[simp] theorem M.setTeam_teams (m : M) (k : Nat) (v : Team) : (m.setTeam k v).teams = put m.teams k v := rfl
@[simp] theorem M.setTeam_clusters (m : M) (k : Nat) (v : Team) : (m.setTeam k v).clusters = m.clusters := rfl
@[simp] theorem M.setTeam_launches (m : M) (k : Nat) (v : Team) : (m.setTeam k v).launches = m.launches := rfl
@[simp] theorem M.setTeam_wqs (m : M) (k : Nat) (v : Team) : (m.setTeam k v).wqs = m.wqs := rfl
@[simp] theorem M.setTeam_acc (m : M) (k : Nat) (v : Team) : (m.setTeam k v).acc = m.acc := rfl
@[simp] theorem M.setTeam_walks (m : M) (k : Nat) (v : Team) : (m.setTeam k v).walks = m.walks := rfl
@[simp] theorem M.setTeam_copies (m : M) (k : Nat) (v : Team) : (m.setTeam k v).copies = m.copies := rfl
@[simp] theorem M.setTeam_flights (m : M) (k : Nat) (v : Team) : (m.setTeam k v).flights = m.flights := rfl
@[simp] theorem M.setTeam_dumps (m : M) (k : Nat) (v : Team) : (m.setTeam k v).dumps = m.dumps := rfl
@[simp] theorem M.setTeam_fmem (m : M) (k : Nat) (v : Team) : (m.setTeam k v).fmem = m.fmem := rfl
@[simp] theorem M.setTeam_lines (m : M) (k : Nat) (v : Team) : (m.setTeam k v).lines = m.lines := rfl
@[simp] theorem M.setTeam_expiry (m : M) (k : Nat) (v : Team) : (m.setTeam k v).expiry = m.expiry := rfl
@[simp] theorem M.setTeam_ecc (m : M) (k : Nat) (v : Team) : (m.setTeam k v).ecc = m.ecc := rfl
@[simp] theorem M.setTeam_stale (m : M) (k : Nat) (v : Team) : (m.setTeam k v).stale = m.stale := rfl
@[simp] theorem M.setTeam_failed (m : M) (k : Nat) (v : Team) : (m.setTeam k v).failed = m.failed := rfl
@[simp] theorem M.setTeam_readout (m : M) (k : Nat) (v : Team) : (m.setTeam k v).readout = m.readout := rfl
@[simp] theorem M.setTeam_hot (m : M) (k : Nat) (v : Team) : (m.setTeam k v).hot = m.hot := rfl
@[simp] theorem M.setTeam_frames (m : M) (k : Nat) (v : Team) : (m.setTeam k v).frames = m.frames := rfl
@[simp] theorem M.setTeam_fields (m : M) (k : Nat) (v : Team) : (m.setTeam k v).fields = m.fields := rfl
@[simp] theorem M.setTeam_hmem (m : M) (k : Nat) (v : Team) : (m.setTeam k v).hmem = m.hmem := rfl
@[simp] theorem M.setTeam_worlds (m : M) (k : Nat) (v : Team) : (m.setTeam k v).worlds = m.worlds := rfl
@[simp] theorem M.setTeam_parts (m : M) (k : Nat) (v : Team) : (m.setTeam k v).parts = m.parts := rfl
@[simp] theorem M.setTeam_ports (m : M) (k : Nat) (v : Team) : (m.setTeam k v).ports = m.ports := rfl
@[simp] theorem M.setTeam_stops (m : M) (k : Nat) (v : Team) : (m.setTeam k v).stops = m.stops := rfl
@[simp] theorem M.setTeam_hearth (m : M) (k : Nat) (v : Team) : (m.setTeam k v).hearth = m.hearth := rfl
@[simp] theorem M.tile_setTeam (m : M) (k j : Nat) (v : Team) : (m.setTeam k v).tile j = m.tile j := rfl
@[simp] theorem M.world_setTeam (m : M) (k j : Nat) (v : Team) : (m.setTeam k v).world j = m.world j := rfl
@[simp] theorem M.part_setTeam (m : M) (k j : Nat) (v : Team) : (m.setTeam k v).part j = m.part j := rfl
@[simp] theorem M.port_setTeam (m : M) (k j : Nat) (v : Team) : (m.setTeam k v).port j = m.port j := rfl
@[simp] theorem M.field_setTeam (m : M) (k j : Nat) (v : Team) : (m.setTeam k v).field j = m.field j := rfl
@[simp] theorem M.wq_setTeam (m : M) (k j : Nat) (v : Team) : (m.setTeam k v).wq j = m.wq j := rfl
@[simp] theorem M.wt_setTeam (m : M) (k i j : Nat) (v : Team) : (m.setTeam k v).wt i j = m.wt i j := rfl

@[simp] theorem M.setLaunch_cur (m : M) (k : Nat) (v : Launch) : (m.setLaunch k v).cur = m.cur := rfl
@[simp] theorem M.setLaunch_agenda (m : M) (k : Nat) (v : Launch) : (m.setLaunch k v).agenda = m.agenda := rfl
@[simp] theorem M.setLaunch_uid (m : M) (k : Nat) (v : Launch) : (m.setLaunch k v).uid = m.uid := rfl
@[simp] theorem M.setLaunch_free (m : M) (k : Nat) (v : Launch) : (m.setLaunch k v).free = m.free := rfl
@[simp] theorem M.setLaunch_gen (m : M) (k : Nat) (v : Launch) : (m.setLaunch k v).gen = m.gen := rfl
@[simp] theorem M.setLaunch_excl (m : M) (k : Nat) (v : Launch) : (m.setLaunch k v).excl = m.excl := rfl
@[simp] theorem M.setLaunch_clock (m : M) (k : Nat) (v : Launch) : (m.setLaunch k v).clock = m.clock := rfl
@[simp] theorem M.setLaunch_tiles (m : M) (k : Nat) (v : Launch) : (m.setLaunch k v).tiles = m.tiles := rfl
@[simp] theorem M.setLaunch_wts (m : M) (k : Nat) (v : Launch) : (m.setLaunch k v).wts = m.wts := rfl
@[simp] theorem M.setLaunch_teams (m : M) (k : Nat) (v : Launch) : (m.setLaunch k v).teams = m.teams := rfl
@[simp] theorem M.setLaunch_clusters (m : M) (k : Nat) (v : Launch) : (m.setLaunch k v).clusters = m.clusters := rfl
@[simp] theorem M.setLaunch_launches (m : M) (k : Nat) (v : Launch) : (m.setLaunch k v).launches = put m.launches k v := rfl
@[simp] theorem M.setLaunch_wqs (m : M) (k : Nat) (v : Launch) : (m.setLaunch k v).wqs = m.wqs := rfl
@[simp] theorem M.setLaunch_acc (m : M) (k : Nat) (v : Launch) : (m.setLaunch k v).acc = m.acc := rfl
@[simp] theorem M.setLaunch_walks (m : M) (k : Nat) (v : Launch) : (m.setLaunch k v).walks = m.walks := rfl
@[simp] theorem M.setLaunch_copies (m : M) (k : Nat) (v : Launch) : (m.setLaunch k v).copies = m.copies := rfl
@[simp] theorem M.setLaunch_flights (m : M) (k : Nat) (v : Launch) : (m.setLaunch k v).flights = m.flights := rfl
@[simp] theorem M.setLaunch_dumps (m : M) (k : Nat) (v : Launch) : (m.setLaunch k v).dumps = m.dumps := rfl
@[simp] theorem M.setLaunch_fmem (m : M) (k : Nat) (v : Launch) : (m.setLaunch k v).fmem = m.fmem := rfl
@[simp] theorem M.setLaunch_lines (m : M) (k : Nat) (v : Launch) : (m.setLaunch k v).lines = m.lines := rfl
@[simp] theorem M.setLaunch_expiry (m : M) (k : Nat) (v : Launch) : (m.setLaunch k v).expiry = m.expiry := rfl
@[simp] theorem M.setLaunch_ecc (m : M) (k : Nat) (v : Launch) : (m.setLaunch k v).ecc = m.ecc := rfl
@[simp] theorem M.setLaunch_stale (m : M) (k : Nat) (v : Launch) : (m.setLaunch k v).stale = m.stale := rfl
@[simp] theorem M.setLaunch_failed (m : M) (k : Nat) (v : Launch) : (m.setLaunch k v).failed = m.failed := rfl
@[simp] theorem M.setLaunch_readout (m : M) (k : Nat) (v : Launch) : (m.setLaunch k v).readout = m.readout := rfl
@[simp] theorem M.setLaunch_hot (m : M) (k : Nat) (v : Launch) : (m.setLaunch k v).hot = m.hot := rfl
@[simp] theorem M.setLaunch_frames (m : M) (k : Nat) (v : Launch) : (m.setLaunch k v).frames = m.frames := rfl
@[simp] theorem M.setLaunch_fields (m : M) (k : Nat) (v : Launch) : (m.setLaunch k v).fields = m.fields := rfl
@[simp] theorem M.setLaunch_hmem (m : M) (k : Nat) (v : Launch) : (m.setLaunch k v).hmem = m.hmem := rfl
@[simp] theorem M.setLaunch_worlds (m : M) (k : Nat) (v : Launch) : (m.setLaunch k v).worlds = m.worlds := rfl
@[simp] theorem M.setLaunch_parts (m : M) (k : Nat) (v : Launch) : (m.setLaunch k v).parts = m.parts := rfl
@[simp] theorem M.setLaunch_ports (m : M) (k : Nat) (v : Launch) : (m.setLaunch k v).ports = m.ports := rfl
@[simp] theorem M.setLaunch_stops (m : M) (k : Nat) (v : Launch) : (m.setLaunch k v).stops = m.stops := rfl
@[simp] theorem M.setLaunch_hearth (m : M) (k : Nat) (v : Launch) : (m.setLaunch k v).hearth = m.hearth := rfl
@[simp] theorem M.tile_setLaunch (m : M) (k j : Nat) (v : Launch) : (m.setLaunch k v).tile j = m.tile j := rfl
@[simp] theorem M.world_setLaunch (m : M) (k j : Nat) (v : Launch) : (m.setLaunch k v).world j = m.world j := rfl
@[simp] theorem M.part_setLaunch (m : M) (k j : Nat) (v : Launch) : (m.setLaunch k v).part j = m.part j := rfl
@[simp] theorem M.port_setLaunch (m : M) (k j : Nat) (v : Launch) : (m.setLaunch k v).port j = m.port j := rfl
@[simp] theorem M.field_setLaunch (m : M) (k j : Nat) (v : Launch) : (m.setLaunch k v).field j = m.field j := rfl
@[simp] theorem M.wq_setLaunch (m : M) (k j : Nat) (v : Launch) : (m.setLaunch k v).wq j = m.wq j := rfl
@[simp] theorem M.wt_setLaunch (m : M) (k i j : Nat) (v : Launch) : (m.setLaunch k v).wt i j = m.wt i j := rfl

@[simp] theorem M.setWT_cur (m : M) (w t : Nat) (v : WT) : (m.setWT w t v).cur = m.cur := rfl
@[simp] theorem M.setWT_agenda (m : M) (w t : Nat) (v : WT) : (m.setWT w t v).agenda = m.agenda := rfl
@[simp] theorem M.setWT_uid (m : M) (w t : Nat) (v : WT) : (m.setWT w t v).uid = m.uid := rfl
@[simp] theorem M.setWT_free (m : M) (w t : Nat) (v : WT) : (m.setWT w t v).free = m.free := rfl
@[simp] theorem M.setWT_gen (m : M) (w t : Nat) (v : WT) : (m.setWT w t v).gen = m.gen := rfl
@[simp] theorem M.setWT_excl (m : M) (w t : Nat) (v : WT) : (m.setWT w t v).excl = m.excl := rfl
@[simp] theorem M.setWT_clock (m : M) (w t : Nat) (v : WT) : (m.setWT w t v).clock = m.clock := rfl
@[simp] theorem M.setWT_tiles (m : M) (w t : Nat) (v : WT) : (m.setWT w t v).tiles = m.tiles := rfl
@[simp] theorem M.setWT_wts (m : M) (w t : Nat) (v : WT) : (m.setWT w t v).wts = put m.wts (wtKey w t) v := rfl
@[simp] theorem M.setWT_teams (m : M) (w t : Nat) (v : WT) : (m.setWT w t v).teams = m.teams := rfl
@[simp] theorem M.setWT_clusters (m : M) (w t : Nat) (v : WT) : (m.setWT w t v).clusters = m.clusters := rfl
@[simp] theorem M.setWT_launches (m : M) (w t : Nat) (v : WT) : (m.setWT w t v).launches = m.launches := rfl
@[simp] theorem M.setWT_wqs (m : M) (w t : Nat) (v : WT) : (m.setWT w t v).wqs = m.wqs := rfl
@[simp] theorem M.setWT_acc (m : M) (w t : Nat) (v : WT) : (m.setWT w t v).acc = m.acc := rfl
@[simp] theorem M.setWT_walks (m : M) (w t : Nat) (v : WT) : (m.setWT w t v).walks = m.walks := rfl
@[simp] theorem M.setWT_copies (m : M) (w t : Nat) (v : WT) : (m.setWT w t v).copies = m.copies := rfl
@[simp] theorem M.setWT_flights (m : M) (w t : Nat) (v : WT) : (m.setWT w t v).flights = m.flights := rfl
@[simp] theorem M.setWT_dumps (m : M) (w t : Nat) (v : WT) : (m.setWT w t v).dumps = m.dumps := rfl
@[simp] theorem M.setWT_fmem (m : M) (w t : Nat) (v : WT) : (m.setWT w t v).fmem = m.fmem := rfl
@[simp] theorem M.setWT_lines (m : M) (w t : Nat) (v : WT) : (m.setWT w t v).lines = m.lines := rfl
@[simp] theorem M.setWT_expiry (m : M) (w t : Nat) (v : WT) : (m.setWT w t v).expiry = m.expiry := rfl
@[simp] theorem M.setWT_ecc (m : M) (w t : Nat) (v : WT) : (m.setWT w t v).ecc = m.ecc := rfl
@[simp] theorem M.setWT_stale (m : M) (w t : Nat) (v : WT) : (m.setWT w t v).stale = m.stale := rfl
@[simp] theorem M.setWT_failed (m : M) (w t : Nat) (v : WT) : (m.setWT w t v).failed = m.failed := rfl
@[simp] theorem M.setWT_readout (m : M) (w t : Nat) (v : WT) : (m.setWT w t v).readout = m.readout := rfl
@[simp] theorem M.setWT_hot (m : M) (w t : Nat) (v : WT) : (m.setWT w t v).hot = m.hot := rfl
@[simp] theorem M.setWT_frames (m : M) (w t : Nat) (v : WT) : (m.setWT w t v).frames = m.frames := rfl
@[simp] theorem M.setWT_fields (m : M) (w t : Nat) (v : WT) : (m.setWT w t v).fields = m.fields := rfl
@[simp] theorem M.setWT_hmem (m : M) (w t : Nat) (v : WT) : (m.setWT w t v).hmem = m.hmem := rfl
@[simp] theorem M.setWT_worlds (m : M) (w t : Nat) (v : WT) : (m.setWT w t v).worlds = m.worlds := rfl
@[simp] theorem M.setWT_parts (m : M) (w t : Nat) (v : WT) : (m.setWT w t v).parts = m.parts := rfl
@[simp] theorem M.setWT_ports (m : M) (w t : Nat) (v : WT) : (m.setWT w t v).ports = m.ports := rfl
@[simp] theorem M.setWT_stops (m : M) (w t : Nat) (v : WT) : (m.setWT w t v).stops = m.stops := rfl
@[simp] theorem M.setWT_hearth (m : M) (w t : Nat) (v : WT) : (m.setWT w t v).hearth = m.hearth := rfl
@[simp] theorem M.tile_setWT (m : M) (w t j : Nat) (v : WT) : (m.setWT w t v).tile j = m.tile j := rfl
@[simp] theorem M.world_setWT (m : M) (w t j : Nat) (v : WT) : (m.setWT w t v).world j = m.world j := rfl
@[simp] theorem M.part_setWT (m : M) (w t j : Nat) (v : WT) : (m.setWT w t v).part j = m.part j := rfl
@[simp] theorem M.port_setWT (m : M) (w t j : Nat) (v : WT) : (m.setWT w t v).port j = m.port j := rfl
@[simp] theorem M.field_setWT (m : M) (w t j : Nat) (v : WT) : (m.setWT w t v).field j = m.field j := rfl
@[simp] theorem M.wq_setWT (m : M) (w t j : Nat) (v : WT) : (m.setWT w t v).wq j = m.wq j := rfl
@[simp] theorem M.wt_setWT_self (m : M) (w t : Nat) (v : WT) : (m.setWT w t v).wt w t = v := mget_put_self _ _ _ _
theorem M.wt_setWT_ne (m : M) {w t w' t' : Nat} (v : WT) (h : wtKey w' t' ≠ wtKey w t) : (m.setWT w t v).wt w' t' = m.wt w' t' :=
  mget_put_ne _ _ _ h

@[simp] theorem M.setGroup_cur (m : M) (w t i : Nat) (g : Group) : (m.setGroup w t i g).cur = m.cur := rfl
@[simp] theorem M.setGroup_agenda (m : M) (w t i : Nat) (g : Group) : (m.setGroup w t i g).agenda = m.agenda := rfl
@[simp] theorem M.setGroup_uid (m : M) (w t i : Nat) (g : Group) : (m.setGroup w t i g).uid = m.uid := rfl
@[simp] theorem M.setGroup_free (m : M) (w t i : Nat) (g : Group) : (m.setGroup w t i g).free = m.free := rfl
@[simp] theorem M.setGroup_gen (m : M) (w t i : Nat) (g : Group) : (m.setGroup w t i g).gen = m.gen := rfl
@[simp] theorem M.setGroup_excl (m : M) (w t i : Nat) (g : Group) : (m.setGroup w t i g).excl = m.excl := rfl
@[simp] theorem M.setGroup_clock (m : M) (w t i : Nat) (g : Group) : (m.setGroup w t i g).clock = m.clock := rfl
@[simp] theorem M.setGroup_tiles (m : M) (w t i : Nat) (g : Group) : (m.setGroup w t i g).tiles = m.tiles := rfl
@[simp] theorem M.setGroup_teams (m : M) (w t i : Nat) (g : Group) : (m.setGroup w t i g).teams = m.teams := rfl
@[simp] theorem M.setGroup_clusters (m : M) (w t i : Nat) (g : Group) : (m.setGroup w t i g).clusters = m.clusters := rfl
@[simp] theorem M.setGroup_launches (m : M) (w t i : Nat) (g : Group) : (m.setGroup w t i g).launches = m.launches := rfl
@[simp] theorem M.setGroup_wqs (m : M) (w t i : Nat) (g : Group) : (m.setGroup w t i g).wqs = m.wqs := rfl
@[simp] theorem M.setGroup_acc (m : M) (w t i : Nat) (g : Group) : (m.setGroup w t i g).acc = m.acc := rfl
@[simp] theorem M.setGroup_walks (m : M) (w t i : Nat) (g : Group) : (m.setGroup w t i g).walks = m.walks := rfl
@[simp] theorem M.setGroup_copies (m : M) (w t i : Nat) (g : Group) : (m.setGroup w t i g).copies = m.copies := rfl
@[simp] theorem M.setGroup_flights (m : M) (w t i : Nat) (g : Group) : (m.setGroup w t i g).flights = m.flights := rfl
@[simp] theorem M.setGroup_dumps (m : M) (w t i : Nat) (g : Group) : (m.setGroup w t i g).dumps = m.dumps := rfl
@[simp] theorem M.setGroup_fmem (m : M) (w t i : Nat) (g : Group) : (m.setGroup w t i g).fmem = m.fmem := rfl
@[simp] theorem M.setGroup_lines (m : M) (w t i : Nat) (g : Group) : (m.setGroup w t i g).lines = m.lines := rfl
@[simp] theorem M.setGroup_expiry (m : M) (w t i : Nat) (g : Group) : (m.setGroup w t i g).expiry = m.expiry := rfl
@[simp] theorem M.setGroup_ecc (m : M) (w t i : Nat) (g : Group) : (m.setGroup w t i g).ecc = m.ecc := rfl
@[simp] theorem M.setGroup_stale (m : M) (w t i : Nat) (g : Group) : (m.setGroup w t i g).stale = m.stale := rfl
@[simp] theorem M.setGroup_failed (m : M) (w t i : Nat) (g : Group) : (m.setGroup w t i g).failed = m.failed := rfl
@[simp] theorem M.setGroup_readout (m : M) (w t i : Nat) (g : Group) : (m.setGroup w t i g).readout = m.readout := rfl
@[simp] theorem M.setGroup_hot (m : M) (w t i : Nat) (g : Group) : (m.setGroup w t i g).hot = m.hot := rfl
@[simp] theorem M.setGroup_frames (m : M) (w t i : Nat) (g : Group) : (m.setGroup w t i g).frames = m.frames := rfl
@[simp] theorem M.setGroup_fields (m : M) (w t i : Nat) (g : Group) : (m.setGroup w t i g).fields = m.fields := rfl
@[simp] theorem M.setGroup_hmem (m : M) (w t i : Nat) (g : Group) : (m.setGroup w t i g).hmem = m.hmem := rfl
@[simp] theorem M.setGroup_worlds (m : M) (w t i : Nat) (g : Group) : (m.setGroup w t i g).worlds = m.worlds := rfl
@[simp] theorem M.setGroup_parts (m : M) (w t i : Nat) (g : Group) : (m.setGroup w t i g).parts = m.parts := rfl
@[simp] theorem M.setGroup_ports (m : M) (w t i : Nat) (g : Group) : (m.setGroup w t i g).ports = m.ports := rfl
@[simp] theorem M.setGroup_stops (m : M) (w t i : Nat) (g : Group) : (m.setGroup w t i g).stops = m.stops := rfl
@[simp] theorem M.setGroup_hearth (m : M) (w t i : Nat) (g : Group) : (m.setGroup w t i g).hearth = m.hearth := rfl
@[simp] theorem M.setGroup_wt (m : M) (w t i : Nat) (g : Group) :
    (m.setGroup w t i g).wt w t = { m.wt w t with groups := put (m.wt w t).groups i g } := mget_put_self _ _ _ _

@[simp] theorem M.updGroup_cur (m : M) (w t i : Nat) (f : Group → Group) : (m.updGroup w t i f).cur = m.cur := by
  unfold M.updGroup; split <;> rfl
@[simp] theorem M.updGroup_agenda (m : M) (w t i : Nat) (f : Group → Group) : (m.updGroup w t i f).agenda = m.agenda := by
  unfold M.updGroup; split <;> rfl
@[simp] theorem M.updGroup_uid (m : M) (w t i : Nat) (f : Group → Group) : (m.updGroup w t i f).uid = m.uid := by
  unfold M.updGroup; split <;> rfl
@[simp] theorem M.updGroup_free (m : M) (w t i : Nat) (f : Group → Group) : (m.updGroup w t i f).free = m.free := by
  unfold M.updGroup; split <;> rfl
@[simp] theorem M.updGroup_gen (m : M) (w t i : Nat) (f : Group → Group) : (m.updGroup w t i f).gen = m.gen := by
  unfold M.updGroup; split <;> rfl
@[simp] theorem M.updGroup_excl (m : M) (w t i : Nat) (f : Group → Group) : (m.updGroup w t i f).excl = m.excl := by
  unfold M.updGroup; split <;> rfl
@[simp] theorem M.updGroup_clock (m : M) (w t i : Nat) (f : Group → Group) : (m.updGroup w t i f).clock = m.clock := by
  unfold M.updGroup; split <;> rfl
@[simp] theorem M.updGroup_tiles (m : M) (w t i : Nat) (f : Group → Group) : (m.updGroup w t i f).tiles = m.tiles := by
  unfold M.updGroup; split <;> rfl
@[simp] theorem M.updGroup_teams (m : M) (w t i : Nat) (f : Group → Group) : (m.updGroup w t i f).teams = m.teams := by
  unfold M.updGroup; split <;> rfl
@[simp] theorem M.updGroup_clusters (m : M) (w t i : Nat) (f : Group → Group) : (m.updGroup w t i f).clusters = m.clusters := by
  unfold M.updGroup; split <;> rfl
@[simp] theorem M.updGroup_launches (m : M) (w t i : Nat) (f : Group → Group) : (m.updGroup w t i f).launches = m.launches := by
  unfold M.updGroup; split <;> rfl
@[simp] theorem M.updGroup_wqs (m : M) (w t i : Nat) (f : Group → Group) : (m.updGroup w t i f).wqs = m.wqs := by
  unfold M.updGroup; split <;> rfl
@[simp] theorem M.updGroup_acc (m : M) (w t i : Nat) (f : Group → Group) : (m.updGroup w t i f).acc = m.acc := by
  unfold M.updGroup; split <;> rfl
@[simp] theorem M.updGroup_walks (m : M) (w t i : Nat) (f : Group → Group) : (m.updGroup w t i f).walks = m.walks := by
  unfold M.updGroup; split <;> rfl
@[simp] theorem M.updGroup_copies (m : M) (w t i : Nat) (f : Group → Group) : (m.updGroup w t i f).copies = m.copies := by
  unfold M.updGroup; split <;> rfl
@[simp] theorem M.updGroup_flights (m : M) (w t i : Nat) (f : Group → Group) : (m.updGroup w t i f).flights = m.flights := by
  unfold M.updGroup; split <;> rfl
@[simp] theorem M.updGroup_dumps (m : M) (w t i : Nat) (f : Group → Group) : (m.updGroup w t i f).dumps = m.dumps := by
  unfold M.updGroup; split <;> rfl
@[simp] theorem M.updGroup_fmem (m : M) (w t i : Nat) (f : Group → Group) : (m.updGroup w t i f).fmem = m.fmem := by
  unfold M.updGroup; split <;> rfl
@[simp] theorem M.updGroup_lines (m : M) (w t i : Nat) (f : Group → Group) : (m.updGroup w t i f).lines = m.lines := by
  unfold M.updGroup; split <;> rfl
@[simp] theorem M.updGroup_expiry (m : M) (w t i : Nat) (f : Group → Group) : (m.updGroup w t i f).expiry = m.expiry := by
  unfold M.updGroup; split <;> rfl
@[simp] theorem M.updGroup_ecc (m : M) (w t i : Nat) (f : Group → Group) : (m.updGroup w t i f).ecc = m.ecc := by
  unfold M.updGroup; split <;> rfl
@[simp] theorem M.updGroup_stale (m : M) (w t i : Nat) (f : Group → Group) : (m.updGroup w t i f).stale = m.stale := by
  unfold M.updGroup; split <;> rfl
@[simp] theorem M.updGroup_failed (m : M) (w t i : Nat) (f : Group → Group) : (m.updGroup w t i f).failed = m.failed := by
  unfold M.updGroup; split <;> rfl
@[simp] theorem M.updGroup_readout (m : M) (w t i : Nat) (f : Group → Group) : (m.updGroup w t i f).readout = m.readout := by
  unfold M.updGroup; split <;> rfl
@[simp] theorem M.updGroup_hot (m : M) (w t i : Nat) (f : Group → Group) : (m.updGroup w t i f).hot = m.hot := by
  unfold M.updGroup; split <;> rfl
@[simp] theorem M.updGroup_frames (m : M) (w t i : Nat) (f : Group → Group) : (m.updGroup w t i f).frames = m.frames := by
  unfold M.updGroup; split <;> rfl
@[simp] theorem M.updGroup_fields (m : M) (w t i : Nat) (f : Group → Group) : (m.updGroup w t i f).fields = m.fields := by
  unfold M.updGroup; split <;> rfl
@[simp] theorem M.updGroup_hmem (m : M) (w t i : Nat) (f : Group → Group) : (m.updGroup w t i f).hmem = m.hmem := by
  unfold M.updGroup; split <;> rfl
@[simp] theorem M.updGroup_worlds (m : M) (w t i : Nat) (f : Group → Group) : (m.updGroup w t i f).worlds = m.worlds := by
  unfold M.updGroup; split <;> rfl
@[simp] theorem M.updGroup_parts (m : M) (w t i : Nat) (f : Group → Group) : (m.updGroup w t i f).parts = m.parts := by
  unfold M.updGroup; split <;> rfl
@[simp] theorem M.updGroup_ports (m : M) (w t i : Nat) (f : Group → Group) : (m.updGroup w t i f).ports = m.ports := by
  unfold M.updGroup; split <;> rfl
@[simp] theorem M.updGroup_stops (m : M) (w t i : Nat) (f : Group → Group) : (m.updGroup w t i f).stops = m.stops := by
  unfold M.updGroup; split <;> rfl
@[simp] theorem M.updGroup_hearth (m : M) (w t i : Nat) (f : Group → Group) : (m.updGroup w t i f).hearth = m.hearth := by
  unfold M.updGroup; split <;> rfl
@[simp] theorem M.tile_updGroup (m : M) (w t i j : Nat) (f : Group → Group) : (m.updGroup w t i f).tile j = m.tile j := by
  unfold M.updGroup; split <;> rfl
@[simp] theorem M.world_updGroup (m : M) (w t i j : Nat) (f : Group → Group) : (m.updGroup w t i f).world j = m.world j := by
  unfold M.updGroup; split <;> rfl
@[simp] theorem M.part_updGroup (m : M) (w t i j : Nat) (f : Group → Group) : (m.updGroup w t i f).part j = m.part j := by
  unfold M.updGroup; split <;> rfl
@[simp] theorem M.port_updGroup (m : M) (w t i j : Nat) (f : Group → Group) : (m.updGroup w t i f).port j = m.port j := by
  unfold M.updGroup; split <;> rfl
@[simp] theorem M.field_updGroup (m : M) (w t i j : Nat) (f : Group → Group) : (m.updGroup w t i f).field j = m.field j := by
  unfold M.updGroup; split <;> rfl
@[simp] theorem M.wq_updGroup (m : M) (w t i j : Nat) (f : Group → Group) : (m.updGroup w t i f).wq j = m.wq j := by
  unfold M.updGroup; split <;> rfl

@[simp] theorem M.updTeam_cur (m : M) (i : Nat) (f : Team → Team) : (m.updTeam i f).cur = m.cur := by
  unfold M.updTeam; split <;> rfl
@[simp] theorem M.updLaunch_cur (m : M) (i : Nat) (f : Launch → Launch) : (m.updLaunch i f).cur = m.cur := by
  unfold M.updLaunch; split <;> rfl
@[simp] theorem M.updTeam_agenda (m : M) (i : Nat) (f : Team → Team) : (m.updTeam i f).agenda = m.agenda := by
  unfold M.updTeam; split <;> rfl
@[simp] theorem M.updLaunch_agenda (m : M) (i : Nat) (f : Launch → Launch) : (m.updLaunch i f).agenda = m.agenda := by
  unfold M.updLaunch; split <;> rfl
@[simp] theorem M.updTeam_uid (m : M) (i : Nat) (f : Team → Team) : (m.updTeam i f).uid = m.uid := by
  unfold M.updTeam; split <;> rfl
@[simp] theorem M.updLaunch_uid (m : M) (i : Nat) (f : Launch → Launch) : (m.updLaunch i f).uid = m.uid := by
  unfold M.updLaunch; split <;> rfl
@[simp] theorem M.updTeam_free (m : M) (i : Nat) (f : Team → Team) : (m.updTeam i f).free = m.free := by
  unfold M.updTeam; split <;> rfl
@[simp] theorem M.updLaunch_free (m : M) (i : Nat) (f : Launch → Launch) : (m.updLaunch i f).free = m.free := by
  unfold M.updLaunch; split <;> rfl
@[simp] theorem M.updTeam_gen (m : M) (i : Nat) (f : Team → Team) : (m.updTeam i f).gen = m.gen := by
  unfold M.updTeam; split <;> rfl
@[simp] theorem M.updLaunch_gen (m : M) (i : Nat) (f : Launch → Launch) : (m.updLaunch i f).gen = m.gen := by
  unfold M.updLaunch; split <;> rfl
@[simp] theorem M.updTeam_excl (m : M) (i : Nat) (f : Team → Team) : (m.updTeam i f).excl = m.excl := by
  unfold M.updTeam; split <;> rfl
@[simp] theorem M.updTeam_clock (m : M) (i : Nat) (f : Team → Team) : (m.updTeam i f).clock = m.clock := by
  unfold M.updTeam; split <;> rfl
@[simp] theorem M.updLaunch_excl (m : M) (i : Nat) (f : Launch → Launch) : (m.updLaunch i f).excl = m.excl := by
  unfold M.updLaunch; split <;> rfl
@[simp] theorem M.updLaunch_clock (m : M) (i : Nat) (f : Launch → Launch) : (m.updLaunch i f).clock = m.clock := by
  unfold M.updLaunch; split <;> rfl
@[simp] theorem M.updTeam_tiles (m : M) (i : Nat) (f : Team → Team) : (m.updTeam i f).tiles = m.tiles := by
  unfold M.updTeam; split <;> rfl
@[simp] theorem M.updLaunch_tiles (m : M) (i : Nat) (f : Launch → Launch) : (m.updLaunch i f).tiles = m.tiles := by
  unfold M.updLaunch; split <;> rfl
@[simp] theorem M.updTeam_wts (m : M) (i : Nat) (f : Team → Team) : (m.updTeam i f).wts = m.wts := by
  unfold M.updTeam; split <;> rfl
@[simp] theorem M.updLaunch_wts (m : M) (i : Nat) (f : Launch → Launch) : (m.updLaunch i f).wts = m.wts := by
  unfold M.updLaunch; split <;> rfl
@[simp] theorem M.updLaunch_teams (m : M) (i : Nat) (f : Launch → Launch) : (m.updLaunch i f).teams = m.teams := by
  unfold M.updLaunch; split <;> rfl
@[simp] theorem M.updTeam_clusters (m : M) (i : Nat) (f : Team → Team) : (m.updTeam i f).clusters = m.clusters := by
  unfold M.updTeam; split <;> rfl
@[simp] theorem M.updLaunch_clusters (m : M) (i : Nat) (f : Launch → Launch) : (m.updLaunch i f).clusters = m.clusters := by
  unfold M.updLaunch; split <;> rfl
@[simp] theorem M.updTeam_launches (m : M) (i : Nat) (f : Team → Team) : (m.updTeam i f).launches = m.launches := by
  unfold M.updTeam; split <;> rfl
@[simp] theorem M.updTeam_wqs (m : M) (i : Nat) (f : Team → Team) : (m.updTeam i f).wqs = m.wqs := by
  unfold M.updTeam; split <;> rfl
@[simp] theorem M.updLaunch_wqs (m : M) (i : Nat) (f : Launch → Launch) : (m.updLaunch i f).wqs = m.wqs := by
  unfold M.updLaunch; split <;> rfl
@[simp] theorem M.updTeam_acc (m : M) (i : Nat) (f : Team → Team) : (m.updTeam i f).acc = m.acc := by
  unfold M.updTeam; split <;> rfl
@[simp] theorem M.updLaunch_acc (m : M) (i : Nat) (f : Launch → Launch) : (m.updLaunch i f).acc = m.acc := by
  unfold M.updLaunch; split <;> rfl
@[simp] theorem M.updTeam_walks (m : M) (i : Nat) (f : Team → Team) : (m.updTeam i f).walks = m.walks := by
  unfold M.updTeam; split <;> rfl
@[simp] theorem M.updLaunch_walks (m : M) (i : Nat) (f : Launch → Launch) : (m.updLaunch i f).walks = m.walks := by
  unfold M.updLaunch; split <;> rfl
@[simp] theorem M.updTeam_copies (m : M) (i : Nat) (f : Team → Team) : (m.updTeam i f).copies = m.copies := by
  unfold M.updTeam; split <;> rfl
@[simp] theorem M.updLaunch_copies (m : M) (i : Nat) (f : Launch → Launch) : (m.updLaunch i f).copies = m.copies := by
  unfold M.updLaunch; split <;> rfl
@[simp] theorem M.updTeam_flights (m : M) (i : Nat) (f : Team → Team) : (m.updTeam i f).flights = m.flights := by
  unfold M.updTeam; split <;> rfl
@[simp] theorem M.updLaunch_flights (m : M) (i : Nat) (f : Launch → Launch) : (m.updLaunch i f).flights = m.flights := by
  unfold M.updLaunch; split <;> rfl
@[simp] theorem M.updTeam_dumps (m : M) (i : Nat) (f : Team → Team) : (m.updTeam i f).dumps = m.dumps := by
  unfold M.updTeam; split <;> rfl
@[simp] theorem M.updLaunch_dumps (m : M) (i : Nat) (f : Launch → Launch) : (m.updLaunch i f).dumps = m.dumps := by
  unfold M.updLaunch; split <;> rfl
@[simp] theorem M.updTeam_fmem (m : M) (i : Nat) (f : Team → Team) : (m.updTeam i f).fmem = m.fmem := by
  unfold M.updTeam; split <;> rfl
@[simp] theorem M.updLaunch_fmem (m : M) (i : Nat) (f : Launch → Launch) : (m.updLaunch i f).fmem = m.fmem := by
  unfold M.updLaunch; split <;> rfl
@[simp] theorem M.updTeam_lines (m : M) (i : Nat) (f : Team → Team) : (m.updTeam i f).lines = m.lines := by
  unfold M.updTeam; split <;> rfl
@[simp] theorem M.updLaunch_lines (m : M) (i : Nat) (f : Launch → Launch) : (m.updLaunch i f).lines = m.lines := by
  unfold M.updLaunch; split <;> rfl
@[simp] theorem M.updTeam_expiry (m : M) (i : Nat) (f : Team → Team) : (m.updTeam i f).expiry = m.expiry := by
  unfold M.updTeam; split <;> rfl
@[simp] theorem M.updTeam_ecc (m : M) (i : Nat) (f : Team → Team) : (m.updTeam i f).ecc = m.ecc := by
  unfold M.updTeam; split <;> rfl
@[simp] theorem M.updTeam_stale (m : M) (i : Nat) (f : Team → Team) : (m.updTeam i f).stale = m.stale := by
  unfold M.updTeam; split <;> rfl
@[simp] theorem M.updTeam_failed (m : M) (i : Nat) (f : Team → Team) : (m.updTeam i f).failed = m.failed := by
  unfold M.updTeam; split <;> rfl
@[simp] theorem M.updTeam_readout (m : M) (i : Nat) (f : Team → Team) : (m.updTeam i f).readout = m.readout := by
  unfold M.updTeam; split <;> rfl
@[simp] theorem M.updLaunch_expiry (m : M) (i : Nat) (f : Launch → Launch) : (m.updLaunch i f).expiry = m.expiry := by
  unfold M.updLaunch; split <;> rfl
@[simp] theorem M.updLaunch_ecc (m : M) (i : Nat) (f : Launch → Launch) : (m.updLaunch i f).ecc = m.ecc := by
  unfold M.updLaunch; split <;> rfl
@[simp] theorem M.updLaunch_stale (m : M) (i : Nat) (f : Launch → Launch) : (m.updLaunch i f).stale = m.stale := by
  unfold M.updLaunch; split <;> rfl
@[simp] theorem M.updLaunch_failed (m : M) (i : Nat) (f : Launch → Launch) : (m.updLaunch i f).failed = m.failed := by
  unfold M.updLaunch; split <;> rfl
@[simp] theorem M.updLaunch_readout (m : M) (i : Nat) (f : Launch → Launch) : (m.updLaunch i f).readout = m.readout := by
  unfold M.updLaunch; split <;> rfl
@[simp] theorem M.updTeam_hot (m : M) (i : Nat) (f : Team → Team) : (m.updTeam i f).hot = m.hot := by
  unfold M.updTeam; split <;> rfl
@[simp] theorem M.updLaunch_hot (m : M) (i : Nat) (f : Launch → Launch) : (m.updLaunch i f).hot = m.hot := by
  unfold M.updLaunch; split <;> rfl
@[simp] theorem M.updTeam_frames (m : M) (i : Nat) (f : Team → Team) : (m.updTeam i f).frames = m.frames := by
  unfold M.updTeam; split <;> rfl
@[simp] theorem M.updLaunch_frames (m : M) (i : Nat) (f : Launch → Launch) : (m.updLaunch i f).frames = m.frames := by
  unfold M.updLaunch; split <;> rfl
@[simp] theorem M.updTeam_fields (m : M) (i : Nat) (f : Team → Team) : (m.updTeam i f).fields = m.fields := by
  unfold M.updTeam; split <;> rfl
@[simp] theorem M.updLaunch_fields (m : M) (i : Nat) (f : Launch → Launch) : (m.updLaunch i f).fields = m.fields := by
  unfold M.updLaunch; split <;> rfl
@[simp] theorem M.updTeam_hmem (m : M) (i : Nat) (f : Team → Team) : (m.updTeam i f).hmem = m.hmem := by
  unfold M.updTeam; split <;> rfl
@[simp] theorem M.updLaunch_hmem (m : M) (i : Nat) (f : Launch → Launch) : (m.updLaunch i f).hmem = m.hmem := by
  unfold M.updLaunch; split <;> rfl
@[simp] theorem M.updTeam_worlds (m : M) (i : Nat) (f : Team → Team) : (m.updTeam i f).worlds = m.worlds := by
  unfold M.updTeam; split <;> rfl
@[simp] theorem M.updLaunch_worlds (m : M) (i : Nat) (f : Launch → Launch) : (m.updLaunch i f).worlds = m.worlds := by
  unfold M.updLaunch; split <;> rfl
@[simp] theorem M.updTeam_parts (m : M) (i : Nat) (f : Team → Team) : (m.updTeam i f).parts = m.parts := by
  unfold M.updTeam; split <;> rfl
@[simp] theorem M.updLaunch_parts (m : M) (i : Nat) (f : Launch → Launch) : (m.updLaunch i f).parts = m.parts := by
  unfold M.updLaunch; split <;> rfl
@[simp] theorem M.updTeam_ports (m : M) (i : Nat) (f : Team → Team) : (m.updTeam i f).ports = m.ports := by
  unfold M.updTeam; split <;> rfl
@[simp] theorem M.updLaunch_ports (m : M) (i : Nat) (f : Launch → Launch) : (m.updLaunch i f).ports = m.ports := by
  unfold M.updLaunch; split <;> rfl
@[simp] theorem M.updTeam_stops (m : M) (i : Nat) (f : Team → Team) : (m.updTeam i f).stops = m.stops := by
  unfold M.updTeam; split <;> rfl
@[simp] theorem M.updLaunch_stops (m : M) (i : Nat) (f : Launch → Launch) : (m.updLaunch i f).stops = m.stops := by
  unfold M.updLaunch; split <;> rfl
@[simp] theorem M.updTeam_hearth (m : M) (i : Nat) (f : Team → Team) : (m.updTeam i f).hearth = m.hearth := by
  unfold M.updTeam; split <;> rfl
@[simp] theorem M.updLaunch_hearth (m : M) (i : Nat) (f : Launch → Launch) : (m.updLaunch i f).hearth = m.hearth := by
  unfold M.updLaunch; split <;> rfl

/-! ## Threads and groups -/

@[simp] theorem Thread.setX_idx (th : Thread) (r : Nat) (v : W32) : (th.setX r v).idx = th.idx := rfl
@[simp] theorem Thread.setX_p (th : Thread) (r : Nat) (v : W32) : (th.setX r v).p = th.p := rfl
@[simp] theorem Thread.setX_meet (th : Thread) (r : Nat) (v : W32) : (th.setX r v).meet = th.meet := rfl
@[simp] theorem Thread.setX_h (th : Thread) (r : Nat) (v : W32) : (th.setX r v).h = th.h := rfl
@[simp] theorem Thread.setX_draws (th : Thread) (r : Nat) (v : W32) : (th.setX r v).draws = th.draws := rfl
@[simp] theorem Thread.setX_entry (th : Thread) (r : Nat) (v : W32) : (th.setX r v).entry = th.entry := rfl
@[simp] theorem Thread.setX_regpc (th : Thread) (r : Nat) (v : W32) : (th.setX r v).regpc = th.regpc := rfl
@[simp] theorem Thread.setX_regcnt (th : Thread) (r : Nat) (v : W32) : (th.setX r v).regcnt = th.regcnt := rfl
@[simp] theorem Thread.setX_resv (th : Thread) (r : Nat) (v : W32) : (th.setX r v).resv = th.resv := rfl
@[simp] theorem Thread.setX_arrived (th : Thread) (r : Nat) (v : W32) : (th.setX r v).arrived = th.arrived := rfl
@[simp] theorem Thread.setX_node (th : Thread) (r : Nat) (v : W32) : (th.setX r v).node = th.node := rfl
@[simp] theorem Thread.setX_spawned (th : Thread) (r : Nat) (v : W32) : (th.setX r v).spawned = th.spawned := rfl
@[simp] theorem Thread.setH_idx (th : Thread) (r : Nat) (v : BitVec 16) : (th.setH r v).idx = th.idx := rfl
@[simp] theorem Thread.setH_x (th : Thread) (r : Nat) (v : BitVec 16) : (th.setH r v).x = th.x := rfl
@[simp] theorem Thread.setH_p (th : Thread) (r : Nat) (v : BitVec 16) : (th.setH r v).p = th.p := rfl
@[simp] theorem Thread.setH_meet (th : Thread) (r : Nat) (v : BitVec 16) : (th.setH r v).meet = th.meet := rfl
@[simp] theorem Thread.setH_draws (th : Thread) (r : Nat) (v : BitVec 16) : (th.setH r v).draws = th.draws := rfl
@[simp] theorem Thread.setH_entry (th : Thread) (r : Nat) (v : BitVec 16) : (th.setH r v).entry = th.entry := rfl
@[simp] theorem Thread.setH_regpc (th : Thread) (r : Nat) (v : BitVec 16) : (th.setH r v).regpc = th.regpc := rfl
@[simp] theorem Thread.setH_regcnt (th : Thread) (r : Nat) (v : BitVec 16) : (th.setH r v).regcnt = th.regcnt := rfl
@[simp] theorem Thread.setH_resv (th : Thread) (r : Nat) (v : BitVec 16) : (th.setH r v).resv = th.resv := rfl
@[simp] theorem Thread.setH_arrived (th : Thread) (r : Nat) (v : BitVec 16) : (th.setH r v).arrived = th.arrived := rfl
@[simp] theorem Thread.setH_node (th : Thread) (r : Nat) (v : BitVec 16) : (th.setH r v).node = th.node := rfl
@[simp] theorem Thread.setH_spawned (th : Thread) (r : Nat) (v : BitVec 16) : (th.setH r v).spawned = th.spawned := rfl
@[simp] theorem Thread.setPair_idx (th : Thread) (r : Nat) (v : W64) : (th.setPair r v).idx = th.idx := rfl
@[simp] theorem Thread.setPair_p (th : Thread) (r : Nat) (v : W64) : (th.setPair r v).p = th.p := rfl
@[simp] theorem Thread.setPair_meet (th : Thread) (r : Nat) (v : W64) : (th.setPair r v).meet = th.meet := rfl
@[simp] theorem Thread.setPair_h (th : Thread) (r : Nat) (v : W64) : (th.setPair r v).h = th.h := rfl
@[simp] theorem Thread.setPair_draws (th : Thread) (r : Nat) (v : W64) : (th.setPair r v).draws = th.draws := rfl
@[simp] theorem Thread.setPair_entry (th : Thread) (r : Nat) (v : W64) : (th.setPair r v).entry = th.entry := rfl
@[simp] theorem Thread.setPair_regpc (th : Thread) (r : Nat) (v : W64) : (th.setPair r v).regpc = th.regpc := rfl
@[simp] theorem Thread.setPair_regcnt (th : Thread) (r : Nat) (v : W64) : (th.setPair r v).regcnt = th.regcnt := rfl
@[simp] theorem Thread.setPair_resv (th : Thread) (r : Nat) (v : W64) : (th.setPair r v).resv = th.resv := rfl
@[simp] theorem Thread.setPair_arrived (th : Thread) (r : Nat) (v : W64) : (th.setPair r v).arrived = th.arrived := rfl
@[simp] theorem Thread.setPair_node (th : Thread) (r : Nat) (v : W64) : (th.setPair r v).node = th.node := rfl
@[simp] theorem Thread.setPair_spawned (th : Thread) (r : Nat) (v : W64) : (th.setPair r v).spawned = th.spawned := rfl
@[simp] theorem Thread.setP_idx (th : Thread) (i : BitVec 3) (v : Bool) : (th.setP i v).idx = th.idx := by
  unfold Thread.setP; split <;> rfl
@[simp] theorem Thread.setP_x (th : Thread) (i : BitVec 3) (v : Bool) : (th.setP i v).x = th.x := by
  unfold Thread.setP; split <;> rfl
@[simp] theorem Thread.setP_meet (th : Thread) (i : BitVec 3) (v : Bool) : (th.setP i v).meet = th.meet := by
  unfold Thread.setP; split <;> rfl
@[simp] theorem Thread.setP_h (th : Thread) (i : BitVec 3) (v : Bool) : (th.setP i v).h = th.h := by
  unfold Thread.setP; split <;> rfl
@[simp] theorem Thread.setP_draws (th : Thread) (i : BitVec 3) (v : Bool) : (th.setP i v).draws = th.draws := by
  unfold Thread.setP; split <;> rfl
@[simp] theorem Thread.setP_entry (th : Thread) (i : BitVec 3) (v : Bool) : (th.setP i v).entry = th.entry := by
  unfold Thread.setP; split <;> rfl
@[simp] theorem Thread.setP_regpc (th : Thread) (i : BitVec 3) (v : Bool) : (th.setP i v).regpc = th.regpc := by
  unfold Thread.setP; split <;> rfl
@[simp] theorem Thread.setP_regcnt (th : Thread) (i : BitVec 3) (v : Bool) : (th.setP i v).regcnt = th.regcnt := by
  unfold Thread.setP; split <;> rfl
@[simp] theorem Thread.setP_resv (th : Thread) (i : BitVec 3) (v : Bool) : (th.setP i v).resv = th.resv := by
  unfold Thread.setP; split <;> rfl
@[simp] theorem Thread.setP_arrived (th : Thread) (i : BitVec 3) (v : Bool) : (th.setP i v).arrived = th.arrived := by
  unfold Thread.setP; split <;> rfl
@[simp] theorem Thread.setP_node (th : Thread) (i : BitVec 3) (v : Bool) : (th.setP i v).node = th.node := by
  unfold Thread.setP; split <;> rfl
@[simp] theorem Thread.setP_spawned (th : Thread) (i : BitVec 3) (v : Bool) : (th.setP i v).spawned = th.spawned := by
  unfold Thread.setP; split <;> rfl

@[simp] theorem Thread.xr_setX_self (th : Thread) (r : Nat) (v : W32) : (th.setX r v).xr r = v := mget_mset_self _ _ _ _
theorem Thread.xr_setX_ne (th : Thread) {r i : Nat} (v : W32) (h : i ≠ r) : (th.setX r v).xr i = th.xr i := mget_mset_ne _ _ _ h
@[simp] theorem Thread.hr_setH_self (th : Thread) (r : Nat) (v : BitVec 16) : (th.setH r v).hr r = v := mget_mset_self _ _ _ _
theorem Thread.hr_setH_ne (th : Thread) {r i : Nat} (v : BitVec 16) (h : i ≠ r) : (th.setH r v).hr i = th.hr i :=
  mget_mset_ne _ _ _ h
@[simp] theorem Group.kr_setK_self (g : Group) (i : Nat) (v : W64) : (g.setK i v).kr i = v := mget_mset_self _ _ _ _
theorem Group.kr_setK_ne (g : Group) {i j : Nat} (v : W64) (h : j ≠ i) : (g.setK i v).kr j = g.kr j := mget_mset_ne _ _ _ h

@[simp] theorem Group.setK_uid (g : Group) (i : Nat) (v : W64) : (g.setK i v).uid = g.uid := rfl
@[simp] theorem Group.countWin_uid (g : Group) : g.countWin.uid = g.uid := rfl
@[simp] theorem Group.setK_team (g : Group) (i : Nat) (v : W64) : (g.setK i v).team = g.team := rfl
@[simp] theorem Group.countWin_team (g : Group) : g.countWin.team = g.team := rfl
@[simp] theorem Group.setK_pc (g : Group) (i : Nat) (v : W64) : (g.setK i v).pc = g.pc := rfl
@[simp] theorem Group.countWin_pc (g : Group) : g.countWin.pc = g.pc := rfl
@[simp] theorem Group.setK_allot (g : Group) (i : Nat) (v : W64) : (g.setK i v).allot = g.allot := rfl
@[simp] theorem Group.countWin_allot (g : Group) : g.countWin.allot = g.allot := rfl
@[simp] theorem Group.setK_lanes (g : Group) (i : Nat) (v : W64) : (g.setK i v).lanes = g.lanes := rfl
@[simp] theorem Group.countWin_lanes (g : Group) : g.countWin.lanes = g.lanes := rfl
@[simp] theorem Group.setK_gone (g : Group) (i : Nat) (v : W64) : (g.setK i v).gone = g.gone := rfl
@[simp] theorem Group.countWin_gone (g : Group) : g.countWin.gone = g.gone := rfl
@[simp] theorem Group.countWin_k (g : Group) : g.countWin.k = g.k := rfl
@[simp] theorem Group.setK_limit (g : Group) (i : Nat) (v : W64) : (g.setK i v).limit = g.limit := rfl
@[simp] theorem Group.countWin_limit (g : Group) : g.countWin.limit = g.limit := rfl
@[simp] theorem Group.setK_span (g : Group) (i : Nat) (v : W64) : (g.setK i v).span = g.span := rfl
@[simp] theorem Group.countWin_span (g : Group) : g.countWin.span = g.span := rfl
@[simp] theorem Group.setK_age (g : Group) (i : Nat) (v : W64) : (g.setK i v).age = g.age := rfl
@[simp] theorem Group.countWin_age (g : Group) : g.countWin.age = g.age := rfl
@[simp] theorem Group.setK_wait (g : Group) (i : Nat) (v : W64) : (g.setK i v).wait = g.wait := rfl
@[simp] theorem Group.countWin_wait (g : Group) : g.countWin.wait = g.wait := rfl
@[simp] theorem Group.setK_ops (g : Group) (i : Nat) (v : W64) : (g.setK i v).ops = g.ops := rfl
@[simp] theorem Group.countWin_ops (g : Group) : g.countWin.ops = g.ops := rfl
@[simp] theorem Group.setK_wins (g : Group) (i : Nat) (v : W64) : (g.setK i v).wins = g.wins := rfl
@[simp] theorem Group.setK_late (g : Group) (i : Nat) (v : W64) : (g.setK i v).late = g.late := rfl
@[simp] theorem Group.countWin_late (g : Group) : g.countWin.late = g.late := rfl
@[simp] theorem Group.setK_tags (g : Group) (i : Nat) (v : W64) : (g.setK i v).tags = g.tags := rfl
@[simp] theorem Group.countWin_tags (g : Group) : g.countWin.tags = g.tags := rfl
@[simp] theorem Group.setK_walked (g : Group) (i : Nat) (v : W64) : (g.setK i v).walked = g.walked := rfl
@[simp] theorem Group.countWin_walked (g : Group) : g.countWin.walked = g.walked := rfl
@[simp] theorem Group.setK_urec (g : Group) (i : Nat) (v : W64) : (g.setK i v).urec = g.urec := rfl
@[simp] theorem Group.countWin_urec (g : Group) : g.countWin.urec = g.urec := rfl
@[simp] theorem Group.setK_bank (g : Group) (i : Nat) (v : W64) : (g.setK i v).bank = g.bank := rfl
@[simp] theorem Group.countWin_bank (g : Group) : g.countWin.bank = g.bank := rfl
@[simp] theorem Group.setK_seams (g : Group) (i : Nat) (v : W64) : (g.setK i v).seams = g.seams := rfl
@[simp] theorem Group.countWin_seams (g : Group) : g.countWin.seams = g.seams := rfl
@[simp] theorem Group.setK_record (g : Group) (i : Nat) (v : W64) : (g.setK i v).record = g.record := rfl
@[simp] theorem Group.countWin_record (g : Group) : g.countWin.record = g.record := rfl
@[simp] theorem Group.setK_why (g : Group) (i : Nat) (v : W64) : (g.setK i v).why = g.why := rfl
@[simp] theorem Group.countWin_why (g : Group) : g.countWin.why = g.why := rfl

end Sys2Proof.Machine
end

