-- ==== Sys2Proof/Laws/Issue.lean ====
section
/-! SUPPORT. What the issue of an instruction does, once: with nothing in its way it is its own effect and its end, and
its end changes the group and what counts time. -/

namespace Sys2Proof

open Machine

theorem ctx_some {h : Hdr} {s : State} {c : Ctx} (hc : ctxOf h s = some c) :
    s.m.curG = some (c.t, c.w, c.slot, c.g) ∧ c.ex = c.g.lanes.filter (fun (_, th) => guardOk h th) := by
  unfold ctxOf at hc
  cases hg : s.m.curG with
  | none => rw [hg] at hc; simp at hc
  | some q =>
    obtain ⟨t, w, slot, g⟩ := q
    rw [hg] at hc; simp only [Option.map_some, Option.some.injEq] at hc
    subst hc; exact ⟨rfl, rfl⟩

/-- The current group stands in its slot. -/
theorem ctx_group {h : Hdr} {s : State} {c : Ctx} (hc : ctxOf h s = some c) :
    look (s.m.wt c.w c.t).groups c.slot = some c.g := by
  have h1 := (ctx_some hc).1
  unfold M.curG at h1
  split at h1
  · simp at h1
  · split at h1
    · simp at h1
    · simp only [Option.map_eq_some_iff, Prod.mk.injEq] at h1
      obtain ⟨g, hg, rfl, rfl, rfl, rfl⟩ := h1
      exact hg

/-- Banks ready and no pick before it in the way: an instruction's effect is its end, whatever it is. -/
theorem effect_of {m : M} {c : Ctx} {f : Form} (r : Res) (hb : c.bankDelay f = none) (hd : m.dual c f = false) :
    m.effect c f r = endRes c f m r := by
  unfold M.effect; rw [hb, hd]; simp

theorem waitFor_nil : waitFor? [] = none := rfl

/-- Nothing to wait for, and no lanes at their meeting: nothing comes before the instruction. -/
theorem before_of {h : Hdr} {f : Form} {s : State} {c : Ctx} (hr : Ready h f s c) : s.m.before c f = none := by
  obtain ⟨-, -, hset, hfm, harr, hfull, htouch⟩ := hr
  have hat : s.m.atMeeting c = none := by unfold M.atMeeting; rw [hfm, harr]; rfl
  have e1 : (f.touch.any fun r => decide ((s.m.wt c.w c.t).restored < r)) = false := htouch
  unfold M.before
  rw [hset, hat]
  simp only [Bool.false_eq_true, if_false, e1]
  split_ifs with hc
  · simp only [hc, Bool.true_and, Bool.not_eq_false'] at hfull
    rw [List.isEmpty_iff.1 hfull]; rfl
  · rfl

/-- Nothing that the instruction waits for is pending. -/
theorem llWait_of {f : Form} {c : Ctx} (hw : (c.g.awaits f c.ex).isEmpty = true)
    (hni : (f.nonIdem && !(c.g.lateOf c.ex).isEmpty) = false) : c.llWait f = none := by
  unfold Ctx.llWait
  rw [List.isEmpty_iff.1 hw]
  split_ifs with hn
  · simp only [hn, Bool.true_and, Bool.not_eq_false'] at hni
    rw [List.isEmpty_iff.1 hni]; rfl
  · rfl

/-- With nothing in its way an instruction is its own effect and its end. -/
theorem issue_of {h : Hdr} {f : Form} {s : State} {c : Ctx} (body : Ctx → M → Res) (hi : Issues h f s c) :
    issue h f s body = .next (State.mk
      (endRes c f s.m (body c (if f.counted then s.m.updGroup c.w c.t c.slot Group.countWin else s.m))) s.nv) := by
  obtain ⟨hr, hex, ⟨hall, hbad⟩, hcls, ⟨hn, hw, hni⟩, hb, hd⟩ := hi
  obtain ⟨h1, h2⟩ := ctx_some hr.1
  have hcc : Ctx.mk c.t c.w c.slot c.g (c.g.lanes.filter (fun (_, th) => guardOk h th)) = c := by rw [← h2]
  have hac : ¬ (h.ac ≠ .ex ∧ (f.mark = .none ∨ f.mark = .exOnly)) := by
    rcases hcls with h | h
    · simp [h]
    · simp [h]
  have e2 : (f.vec.any fun x => decide (c.g.allot < x.1 + x.2)) = false := hall
  unfold issue; rw [h1]; dsimp only; rw [hcc]
  unfold M.issueIn
  rw [before_of hr, llWait_of hw hni, effect_of _ hb hd]
  simp only [hr.2.1, hex, hn, hbad, e2, Bool.not_true, Bool.false_eq_true, if_false]
  rw [if_neg (by simpa using hac)]

/-- What an update of the group of the context leaves. -/
theorem updGroup_look {m : M} {w t slot : Nat} {g : Group} (f : Group → Group)
    (hg : look (m.wt w t).groups slot = some g) :
    look ((m.updGroup w t slot f).wt w t).groups slot = some (f g) := by
  unfold M.updGroup; rw [hg]; simp

theorem updGroup_wt {m : M} {w t slot : Nat} {g : Group} (f : Group → Group)
    (hg : look (m.wt w t).groups slot = some g) :
    m.updGroup w t slot f = m.setGroup w t slot (f g) := by
  unfold M.updGroup; rw [hg]

theorem rest_refl (s : State) (c : Ctx) : Rest s s c :=
  ⟨rfl, rfl, fun _ _ => rfl, rfl, rfl, rfl, fun _ _ => rfl, fun _ _ => rfl, rfl, fun _ => rfl⟩

theorem rest_trans {s t u : State} {c : Ctx} (h1 : Rest s t c) (h2 : Rest t u c) : Rest s u c := by
  obtain ⟨a1, a2, a3, a4, a0, a5, a6, a7, a8, a9⟩ := h1
  obtain ⟨b1, b2, b3, b4, b0, b5, b6, b7, b8, b9⟩ := h2
  refine ⟨b1.trans a1, ?_, fun k hk => (b3 k hk).trans (a3 k hk), ?_, b0.trans a0, ?_, fun i hi => (b6 i hi).trans (a6 i hi),
    fun k hk => (b7 k hk).trans (a7 k hk), ?_, fun k => (b9 k).trans (a9 k)⟩
  · rw [← a2, ← b2]
  · rw [← a4, ← b4]
  · rw [← a5, ← b5]
  · rw [← a8, ← b8]

/-- A change of the group in its slot leaves the rest. -/
theorem rest_setGroup (s : State) (c : Ctx) (g : Group) :
    Rest s { s with m := s.m.setGroup c.w c.t c.slot g } c := by
  refine ⟨rfl, rfl, fun k hk => ?_, ?_, ?_, ?_, fun i hi => ?_, fun _ _ => rfl, rfl, fun _ => rfl⟩
  · exact look_put_ne _ _ hk
  · simp
  · simp
  · simp
  · simp [look_put_ne _ _ hi]

theorem rest_updGroup (s : State) (c : Ctx) (f : Group → Group) :
    Rest s { s with m := s.m.updGroup c.w c.t c.slot f } c := by
  unfold M.updGroup; split
  · exact rest_setGroup s c _
  · exact rest_refl s c

theorem countLanes_groups (wt : WT) (g : Group) (pc : Va) (ex : List Nat) (o : Bool) :
    (wt.countLanes g pc ex o).groups = wt.groups := by
  unfold WT.countLanes; split <;> rfl

theorem countLanes_rest (wt : WT) (g : Group) (pc : Va) (ex : List Nat) (o : Bool) :
    { wt.countLanes g pc ex o with lcr := wt.lcr } = wt := by
  unfold WT.countLanes; split <;> rfl

/-- What every issued instruction does beside its own effect leaves the rest and the group. -/
theorem issued_rest (s : State) (c : Ctx) (g : Group) (ex : List Nat) (f : Form) :
    Rest s { s with m := s.m.issued c.t c.w c.slot g ex f } c ∧
    ((s.m.issued c.t c.w c.slot g ex f).wt c.w c.t).groups = (s.m.wt c.w c.t).groups := by
  have cl : ∀ (wt : WT), ∃ l, wt.countLanes g g.pc ex f.once = { wt with lcr := l } := by
    intro wt; unfold WT.countLanes; split
    · exact ⟨wt.lcr, rfl⟩
    · exact ⟨_, rfl⟩
  obtain ⟨l, hl⟩ := cl (s.m.wt c.w c.t)
  have key : ∃ (d : Nat) (r : List IssuedRec), (s.m.issued c.t c.w c.slot g ex f =
        (M.setWT s.m c.w c.t { s.m.wt c.w c.t with lcr := l, dbg := { (s.m.wt c.w c.t).dbg with idle := d } }).setTile c.t
          { s.m.tile c.t with issued := r }) ∨
      ∃ i, s.m.issued c.t c.w c.slot g ex f =
        ((M.setWT s.m c.w c.t { s.m.wt c.w c.t with lcr := l, dbg := { (s.m.wt c.w c.t).dbg with idle := d } }).setTile c.t
          { s.m.tile c.t with issued := r }).updLaunch i (fun l => { l with stall := 0 }) := by
    unfold M.issued; rw [hl]; dsimp only
    by_cases hs : (s.m.wt c.w c.t).dbg.stepping.isSome
    · rw [if_pos hs]; split
      · exact ⟨0, _, Or.inr ⟨_, rfl⟩⟩
      · exact ⟨0, _, Or.inl rfl⟩
    · rw [if_neg hs]; split
      · exact ⟨(s.m.wt c.w c.t).dbg.idle, _, Or.inr ⟨_, rfl⟩⟩
      · exact ⟨(s.m.wt c.w c.t).dbg.idle, _, Or.inl rfl⟩
  obtain ⟨d, r, h | ⟨i, h⟩⟩ := key
  · rw [h]
    refine ⟨⟨rfl, rfl, fun k hk => look_put_ne _ _ hk, by simp, by simp, by simp, by simp, fun k hk => look_put_ne _ _ hk, by simp, fun _ => rfl⟩, by simp⟩
  · rw [h]
    have hw : ∀ (m : M) (i w t : Nat), (m.updLaunch i (fun l => { l with stall := 0 })).wt w t = m.wt w t := by
      intro m i w t; simp [M.wt]
    have ht : ∀ (m : M) (i t : Nat), (m.updLaunch i (fun l => { l with stall := 0 })).tile t = m.tile t := by
      intro m i t; simp [M.tile]
    refine ⟨⟨rfl, ?_, fun k hk => ?_, ?_, ?_, ?_, fun j hj => ?_, fun k hk => ?_, ?_, fun k => ?_⟩, ?_⟩
    · unfold M.updLaunch; split <;> rfl
    · simp [look_put_ne _ _ hk]
    · simp only [hw]; simp
    · simp only [hw]; simp
    · simp only [hw]; simp
    · simp only [hw]; simp
    · simp [look_put_ne _ _ hk]
    · simp only [ht]; simp
    · unfold M.updLaunch; split
      · rename_i v hv
        simp only [M.setLaunch_launches, M.setTile_launches, M.setWT_launches, look_put] at hv ⊢
        split_ifs with hk
        · rw [hk, hv]; rfl
        · rfl
      · rfl
    · simp only [hw]; simp

/-- A group that waits for room no longer leaves the rest and the group. -/
theorem noRoom_rest (s : State) (c : Ctx) :
    Rest s { s with m := s.m.noRoom c.w c.t c.slot } c ∧
    ((s.m.noRoom c.w c.t c.slot).wt c.w c.t).groups = (s.m.wt c.w c.t).groups := by
  unfold M.noRoom; dsimp only; split_ifs
  · refine ⟨⟨rfl, rfl, fun k hk => look_put_ne _ _ hk, by simp, by simp [List.filter_filter], by simp, by simp, fun _ _ => rfl, rfl,
      fun _ => rfl⟩, by simp⟩
  · exact ⟨rest_refl s c, rfl⟩

/-- The end of an instruction: the group is ended, the rest stays. -/
theorem finish_leaves {m : M} {nv : Nv} {c : Ctx} (f : Form) (npc : Va) {g : Group}
    (hg : look (m.wt c.w c.t).groups c.slot = some g) :
    Leaves { m := m, nv := nv } { m := m.finish c f npc, nv := nv } c f npc g := by
  have he := updGroup_look (m := m) (w := c.w) (t := c.t) (slot := c.slot) (g := g) (ended c f npc) hg
  have hu : m.finish c f npc = ((m.updGroup c.w c.t c.slot (ended c f npc)).noRoom c.w c.t c.slot).issued c.t c.w c.slot c.g
      (c.ex.map (·.1)) f := rfl
  have hn := noRoom_rest { m := m.updGroup c.w c.t c.slot (ended c f npc), nv := nv } c
  have hr := issued_rest { m := (m.updGroup c.w c.t c.slot (ended c f npc)).noRoom c.w c.t c.slot, nv := nv } c c.g (c.ex.map (·.1)) f
  rw [hu]
  refine ⟨?_, rest_trans (rest_updGroup { m := m, nv := nv } c _) (rest_trans hn.1 hr.1)⟩
  show look ((M.issued _ _ _ _ _ _ _).wt c.w c.t).groups c.slot = _
  rw [hr.2, hn.2]; exact he

/-- An instruction whose effect is an update of its group. -/
theorem writes_of {i : Instr} {h : Hdr} {f : Form} {u : Ctx → Group → Group} (body : Ctx → M → Res)
    (he : ∀ s, exec i s = issue h f s body)
    (hb : ∀ c m, c.ex.isEmpty = false → body c m = .done (m.updGroup c.w c.t c.slot (u c))) : Writes i h f u := by
  intro s c ⟨hi, hp⟩
  have hg := ctx_group hi.1.1
  refine ⟨_, (he s).trans (issue_of body hi), ?_⟩
  rw [hb _ _ hi.2.1]
  simp only [endRes, hp, Bool.false_eq_true, if_false]
  have hx : ∃ g0, look ((if f.counted then s.m.updGroup c.w c.t c.slot Group.countWin else s.m).wt c.w c.t).groups c.slot = some g0
      ∧ g0 = (if f.counted then c.g.countWin else c.g)
      ∧ Rest s { s with m := if f.counted then s.m.updGroup c.w c.t c.slot Group.countWin else s.m } c := by
    split_ifs
    · exact ⟨_, updGroup_look _ hg, rfl, rest_updGroup s c _⟩
    · exact ⟨_, hg, rfl, rest_refl s c⟩
  obtain ⟨g0, h0, rfl, hr⟩ := hx
  have h1 := updGroup_look (u c) h0
  have := finish_leaves (nv := s.nv) f (nextPc c.g.pc f.len) h1
  exact ⟨this.1, rest_trans hr (rest_trans (rest_updGroup _ c _) this.2)⟩

theorem setUni_eq {c : Ctx} (hx : c.ex.isEmpty = false) (m : M) (k : Nat) (v : Thread → W64) :
    m.setUni c k v = m.updGroup c.w c.t c.slot (uniEx c k v) := by
  unfold M.setUni uniEx lowest
  cases hl : c.ex with
  | nil => rw [hl] at hx; simp at hx
  | cons p t => rfl

theorem setOpd_eq {c : Ctx} (hx : c.ex.isEmpty = false) (m : M) (d : Opd64) (v : Thread → W64) :
    m.setOpd c d v = m.updGroup c.w c.t c.slot (opdEx c d v) := by
  cases d with
  | pair r => rfl
  | uni k => exact setUni_eq hx m k.toNat v

/-- The same when the effect leaves the group alone. -/
theorem writes_of_none {i : Instr} {h : Hdr} {f : Form} (body : Ctx → M → Res)
    (he : ∀ s, exec i s = issue h f s body) (hb : ∀ c m, c.ex.isEmpty = false → body c m = .done m) : Writes i h f fun _ g => g := by
  intro s c ⟨hi, hp⟩
  have hg := ctx_group hi.1.1
  refine ⟨_, (he s).trans (issue_of body hi), ?_⟩
  rw [hb _ _ hi.2.1]
  simp only [endRes, hp, Bool.false_eq_true, if_false]
  split_ifs
  · have := finish_leaves (nv := s.nv) f (nextPc c.g.pc f.len) (updGroup_look Group.countWin hg)
    exact ⟨this.1, rest_trans (rest_updGroup _ c _) this.2⟩
  · exact finish_leaves (nv := s.nv) f (nextPc c.g.pc f.len) hg

/-- An update of a group that may not be there. -/
theorem updGroup_map (m : M) (w t slot : Nat) (f : Group → Group) :
    look ((m.updGroup w t slot f).wt w t).groups slot = (look (m.wt w t).groups slot).map f := by
  cases hg : look (m.wt w t).groups slot with
  | none => unfold M.updGroup; rw [hg]; simp [hg]
  | some g => exact updGroup_look f hg

/-- The end of an instruction, whether its group is still there or not. -/
theorem finish_after (s : State) (c : Ctx) (f : Form) (npc : Va) :
    After s { s with m := s.m.finish c f npc } c f npc := by
  have hn := noRoom_rest { s with m := s.m.updGroup c.w c.t c.slot (ended c f npc) } c
  have hr := issued_rest { s with m := (s.m.updGroup c.w c.t c.slot (ended c f npc)).noRoom c.w c.t c.slot } c c.g (c.ex.map (·.1)) f
  refine ⟨?_, rest_trans (rest_updGroup s c _) (rest_trans hn.1 hr.1)⟩
  exact (congrArg (fun g => look g c.slot) (hr.2.trans hn.2)).trans (updGroup_map _ _ _ _ _)

/-- An instruction whose effect goes beyond its group. -/
theorem does_of {i : Instr} {h : Hdr} {f : Form} {p : Ctx → M → Prop} {e : Ctx → M → M} (body : Ctx → M → Res)
    (he : ∀ s c, IssuesSeq h f s c → p c (counted c f s.m) → exec i s = issue h f s body)
    (hb : ∀ s c, IssuesSeq h f s c → p c (counted c f s.m) → body c (counted c f s.m) = .done (e c (counted c f s.m))) :
    Does i h f p e := by
  intro s c hi hp
  refine ⟨_, (he s c hi hp).trans (issue_of body hi.1), ?_⟩
  have := hb s c hi hp
  unfold counted at this
  rw [this]
  simp only [endRes, hi.2, Bool.false_eq_true, if_false]
  exact finish_after _ c f _

/-- The group counted by its windows stands in its slot. -/
theorem counted_group {h : Hdr} {f : Form} {s : State} {c : Ctx} (hc : ctxOf h s = some c) :
    look ((counted c f s.m).wt c.w c.t).groups c.slot = some (if f.counted then c.g.countWin else c.g) := by
  unfold counted; split_ifs
  · exact updGroup_look _ (ctx_group hc)
  · exact ctx_group hc

/-- A transfer of control. -/
theorem jumps_of {i : Instr} {h : Hdr} {f : Form} {p : Ctx → Prop} {target : Ctx → W64} {u : Ctx → Group → Group}
    (body : Ctx → M → Res) (hf : f.counted = true)
    (he : ∀ s c, Issues h f s c → p c → exec i s = issue h f s body)
    (hb : ∀ c m, c.ex.isEmpty = false → p c → (target c).extractLsb' 0 2 = 0#2 → (target c).extractLsb' 56 8 = 0#8 →
      body c m = .jump (m.updGroup c.w c.t c.slot (u c)) ((target c).extractLsb' 0 56)) : Jumps i h f p target u := by
  intro s c hi hp h1 h2
  have hg := ctx_group hi.1.1
  refine ⟨_, (he s c hi hp).trans (issue_of body hi), ?_⟩
  rw [hb c _ hi.2.1 hp h1 h2, hf]
  simp only [endRes, if_true]
  have h3 := updGroup_look (u c) (updGroup_look Group.countWin hg)
  have := finish_leaves (nv := s.nv) f ((target c).extractLsb' 0 56) h3
  exact ⟨this.1, rest_trans (rest_updGroup _ c _) (rest_trans (rest_updGroup _ c _) this.2)⟩

/-- The same when the transfer changes nothing of the group. -/
theorem jumps_of_none {i : Instr} {h : Hdr} {f : Form} {p : Ctx → Prop} {target : Ctx → W64}
    (body : Ctx → M → Res) (hf : f.counted = true)
    (he : ∀ s c, Issues h f s c → p c → exec i s = issue h f s body)
    (hb : ∀ c m, c.ex.isEmpty = false → p c → (target c).extractLsb' 0 2 = 0#2 → (target c).extractLsb' 56 8 = 0#8 →
      body c m = .jump m ((target c).extractLsb' 0 56)) : Jumps i h f p target fun _ g => g := by
  intro s c hi hp h1 h2
  have hg := ctx_group hi.1.1
  refine ⟨_, (he s c hi hp).trans (issue_of body hi), ?_⟩
  rw [hb c _ hi.2.1 hp h1 h2, hf]
  simp only [endRes, if_true]
  have := finish_leaves (nv := s.nv) f ((target c).extractLsb' 0 56) (updGroup_look Group.countWin hg)
  exact ⟨this.1, rest_trans (rest_updGroup _ c _) this.2⟩

/-- An event whose function answers. -/
theorem happens_of {i : Instr} {p : M → Prop} {e : M → M} (f : M → Option M)
    (he : ∀ s, exec i s = event s f) (hf : ∀ m, p m → f m = some (e m)) : Happens i p e := by
  intro s hp; rw [he, event, hf _ hp]; rfl

/-- An instruction that must wait. -/
theorem holds_of {i : Instr} {h : Hdr} {f : Form} {p : Ctx → M → Prop} {wt : Ctx → M → Wait} {e : Ctx → M → M} (body : Ctx → M → Res)
    (he : ∀ s, exec i s = issue h f s body)
    (hb : ∀ s c, Issues h f s c → p c (counted c f s.m) →
      body c (counted c f s.m) = .hold (e c (counted c f s.m)) (wt c (counted c f s.m)))
    (hg : ∀ s c, Issues h f s c → p c (counted c f s.m) →
      look ((e c (counted c f s.m)).wt c.w c.t).groups c.slot = some (if f.counted then c.g.countWin else c.g)) :
    Holds i h f p wt e := by
  intro s c hi hp
  refine ⟨_, (he s).trans (issue_of body hi), ?_⟩
  have := hb s c hi hp
  unfold counted at this
  rw [this]
  have h2 := hg s c hi hp
  unfold counted at h2
  refine ⟨?_, rest_updGroup _ c _⟩
  refine (updGroup_look _ h2).trans ?_
  split_ifs with hc <;> simp [counted, hc, Group.countWin]

/-- Counting by a window restores nothing (R55, R333). -/
theorem restored_counted (c : Ctx) (f : Form) (m : M) :
    ((counted c f m).wt c.w c.t).restored = (m.wt c.w c.t).restored := by
  unfold counted; split_ifs
  · have := (rest_updGroup (s := { m := m, nv := {} }) (f := Group.countWin) c)
    have h := this.2.2.2.1
    rw [← h]
  · rfl

/-- Rows that accesses touch (R333). -/
theorem rows_le (xs : List Want) : ∀ r ∈ rowsOf xs, r ≤ 5 := by
  intro r hr; unfold rowsOf at hr; simp only [List.mem_append] at hr
  rcases hr with h | h <;> split_ifs at h <;> simp_all

/-- An instruction that makes accesses, once the rows they touch are restored (R333). -/
theorem does_rows {i : Instr} {h : Hdr} {f : Form} {p : Ctx → M → Prop} {e : Ctx → M → M}
    (xs : State → Ctx → M → List Want) (body : Ctx → M → List Want → Res)
    (hr : ∀ s c, p c (counted c f s.m) → ∀ r ∈ rowsOf (xs s c s.m), r ≤ (s.m.wt c.w c.t).restored)
    (he : ∀ s c, IssuesSeq h f s c → p c (counted c f s.m) → exec i s = issueMem h f s (xs s) body)
    (hb : ∀ s c, IssuesSeq h f s c → p c (counted c f s.m) →
      body c (counted c f s.m) (xs s c (counted c f s.m)) = .done (e c (counted c f s.m))) :
    Does i h f p e := by
  intro s c hi hp
  obtain ⟨h1, h2⟩ := ctx_some hi.1.1.1
  have h5 := hr _ _ hp
  have hex := he s c hi hp
  unfold issueMem at hex
  rw [h1] at hex; dsimp only at hex
  rw [← h2] at hex
  let rows := rowsOf (xs s { t := c.t, w := c.w, slot := c.slot, g := c.g, ex := c.ex } s.m)
  set f' : Form := { f with touch := f.touch ++ rows } with hf'
  have hi' : Issues h f' s c := by
    obtain ⟨⟨⟨a1, a2, a3, a4, a5, a6, a7⟩, a8⟩, _⟩ := hi
    refine ⟨⟨a1, a2, a3, a4, a5, a6, ?_⟩, a8⟩
    rw [hf']; dsimp only; rw [List.any_append, a7]; simp only [Bool.false_or]
    rw [List.any_eq_false]; intro r hr
    have := h5 _ hr; simp; omega
  refine ⟨_, hex.trans (issue_of _ hi'), ?_⟩
  have := hb s c hi hp
  unfold counted at this
  rw [show f'.counted = f.counted from rfl, this]
  have hpe : pastEnd c.g.pc f'.len = false := hi.2
  simp only [endRes, hpe, Bool.false_eq_true, if_false]
  exact finish_after { s with m := e c (counted c f s.m) } c f' _

/-- The same with every row restored. -/
theorem does_mem {i : Instr} {h : Hdr} {f : Form} {p : Ctx → M → Prop} {e : Ctx → M → M}
    (xs : State → Ctx → M → List Want) (body : Ctx → M → List Want → Res)
    (hr : ∀ c m, p c m → 5 ≤ (m.wt c.w c.t).restored)
    (he : ∀ s c, IssuesSeq h f s c → p c (counted c f s.m) → exec i s = issueMem h f s (xs s) body)
    (hb : ∀ s c, IssuesSeq h f s c → p c (counted c f s.m) →
      body c (counted c f s.m) (xs s c (counted c f s.m)) = .done (e c (counted c f s.m))) :
    Does i h f p e := does_rows xs body (fun s c hp r h => by
      have := hr _ _ hp; rw [restored_counted] at this
      have := rows_le _ r h; omega) he hb

end Sys2Proof
end

