-- ==== Sys2Proof/Laws/Landing.lean ====
section
/-! SUPPORT. The landing's operations change the landing and the queue of row requests, and nothing else of a tile. -/

namespace Sys2Proof.Machine

/-- Two worlds' parts of a tile that differ only in the landing and in the queue of row requests. -/
def WT.Landed (a b : WT) : Prop :=
  { b with bins := a.bins, urecs := a.urecs, meets := a.meets, growq := a.growq } = a

theorem WT.landed_refl (a : WT) : a.Landed a := rfl

theorem WT.landed_trans {a b c : WT} (h1 : a.Landed b) (h2 : b.Landed c) : a.Landed c := by
  unfold WT.Landed at *; rw [← h1, ← h2]

theorem WT.landed_groups {a b : WT} (h : a.Landed b) : b.groups = a.groups := by rw [← h]

theorem WT.landed_foldl {α : Type} (f : WT → α → WT) (hf : ∀ (wt : WT) x, wt.Landed (f wt x)) :
    ∀ (l : List α) (wt : WT), wt.Landed (l.foldl f wt) := by
  intro l
  induction l with
  | nil => exact WT.landed_refl
  | cons x xs ih => exact fun wt => WT.landed_trans (hf wt x) (ih _)

theorem WT.askForm_landed (wt : WT) (now i : Nat) : wt.Landed (wt.askForm now i) := by
  unfold WT.askForm; split
  · split_ifs <;> rfl
  · rfl

theorem WT.enterBin_landed (wt : WT) (now : Nat) (pc : Va) (u team timer : Nat) (ws : List Waiting) :
    wt.Landed (wt.enterBin now pc u team timer ws) := by
  unfold WT.enterBin; split_ifs
  · rfl
  · split <;> refine WT.landed_trans ?_ (WT.askForm_landed _ _ _) <;> rfl

theorem WT.urecFor_landed (wt : WT) (team : Nat) (k : AMap W64) : wt.Landed (wt.urecFor team k).2 := by
  unfold WT.urecFor; split <;> rfl

theorem WT.gcUrecs_landed (wt : WT) : wt.Landed wt.gcUrecs := rfl

theorem WT.arriveAs_landed (wt : WT) (g : Group) (pc : Va) (u born : Nat) (ths : List (Nat × Thread)) :
    wt.Landed (wt.arriveAs g pc u born ths) := by
  unfold WT.arriveAs
  refine WT.landed_foldl _ (fun wt th => ?_) ths wt
  dsimp only; split <;> rfl

theorem WT.regroup_landed (wt : WT) (now : Nat) (r : Meeting) : wt.Landed (wt.regroup now r) := by
  unfold WT.regroup
  refine WT.landed_foldl _ (fun wt u => WT.landed_foldl _ (fun wt p => ?_) _ wt) _ wt
  refine WT.landed_trans ?_ (WT.askForm_landed _ _ _); rfl

theorem WT.meetCheck_landed (wt : WT) (now no : Nat) : wt.Landed (wt.meetCheck now no) := by
  unfold WT.meetCheck; split
  · rfl
  · split_ifs
    · refine WT.landed_trans ?_ (WT.regroup_landed _ _ _); rfl
    · rfl

theorem WT.meetLeave_landed (wt : WT) (now n : Nat) (v : W64) : wt.Landed (wt.meetLeave now n v) := by
  induction n generalizing wt v with
  | zero => rfl
  | succ n ih =>
    simp only [WT.meetLeave]; split_ifs
    · rfl
    · split
      · rfl
      · refine WT.landed_trans (WT.landed_trans ?_ (WT.meetCheck_landed _ _ _)) (ih _ _); rfl

theorem M.meetChecks_landed (m : M) (w t : Nat) (ths : List Thread) :
    ∃ wt, (m.wt w t).Landed wt ∧ ((m.meetChecks w t ths) = m ∨ (m.meetChecks w t ths) = m.setWT w t wt) := by
  unfold M.meetChecks
  have setset : ∀ (m : M) (a b : WT), (m.setWT w t a).setWT w t b = m.setWT w t b := by
    intro m a b
    have : ∀ (l : AMap WT) (k : Nat), put (put l k a) k b = put l k b := by
      intro l k
      induction l with
      | nil => simp [put]
      | cons p l ih =>
        obtain ⟨j, v⟩ := p
        simp only [put]; split_ifs with h1 h2
        · simp [put]
        · simp [put]
        · simp only [put, ih]; rw [if_neg h1, if_neg h2]
    simp [M.setWT, this]
  generalize (ths.map fun th => meetNo th.meet).eraseDups = l
  suffices H : ∀ (l : List Nat) (m0 : M), (m0 = m ∨ ∃ wt, (m.wt w t).Landed wt ∧ m0 = m.setWT w t wt) →
      ∃ wt, (m.wt w t).Landed wt ∧ (l.foldl (fun m no => m.setWT w t ((m.wt w t).meetCheck (m.tile t).cycle no)) m0 = m ∨
        l.foldl (fun m no => m.setWT w t ((m.wt w t).meetCheck (m.tile t).cycle no)) m0 = m.setWT w t wt) from H l m (Or.inl rfl)
  intro l
  induction l with
  | nil =>
    rintro m0 (rfl | ⟨wt, h, rfl⟩)
    · exact ⟨_, WT.landed_refl _, Or.inl rfl⟩
    · exact ⟨wt, h, Or.inr rfl⟩
  | cons x xs ih =>
    rintro m0 (rfl | ⟨wt, h, rfl⟩)
    · exact ih _ (Or.inr ⟨_, WT.meetCheck_landed _ _ _, rfl⟩)
    · refine ih _ (Or.inr ⟨_, WT.landed_trans h (WT.meetCheck_landed _ ((m.setWT w t wt).tile t).cycle x), ?_⟩)
      dsimp only; rw [setset, M.wt_setWT_self]

end Sys2Proof.Machine
end

