-- ==== Sys2Proof/Laws/Tile.lean ====
section
/-! SUPPORT. What an update of a slab, a chain or a semaphore of a tile leaves as it was, field by field, and what
reading after it gives. -/

namespace Sys2Proof.Machine

@[simp] theorem WT.setSlab_groups (wt : WT) (i : Nat) (v : Slab) : (wt.setSlab i v).groups = wt.groups := rfl
@[simp] theorem WT.setSlab_used (wt : WT) (i : Nat) (v : Slab) : (wt.setSlab i v).used = wt.used := rfl
@[simp] theorem WT.setSlab_growq (wt : WT) (i : Nat) (v : Slab) : (wt.setSlab i v).growq = wt.growq := rfl
@[simp] theorem WT.setSlab_bins (wt : WT) (i : Nat) (v : Slab) : (wt.setSlab i v).bins = wt.bins := rfl
@[simp] theorem WT.setSlab_urecs (wt : WT) (i : Nat) (v : Slab) : (wt.setSlab i v).urecs = wt.urecs := rfl
@[simp] theorem WT.setSlab_meets (wt : WT) (i : Nat) (v : Slab) : (wt.setSlab i v).meets = wt.meets := rfl
@[simp] theorem WT.setSlab_parked (wt : WT) (i : Nat) (v : Slab) : (wt.setSlab i v).parked = wt.parked := rfl
@[simp] theorem WT.setSlab_admits (wt : WT) (i : Nat) (v : Slab) : (wt.setSlab i v).admits = wt.admits := rfl
@[simp] theorem WT.setSlab_lwant (wt : WT) (i : Nat) (v : Slab) : (wt.setSlab i v).lwant = wt.lwant := rfl
@[simp] theorem WT.setSlab_scratch (wt : WT) (i : Nat) (v : Slab) : (wt.setSlab i v).scratch = wt.scratch := rfl
@[simp] theorem WT.setSlab_omem (wt : WT) (i : Nat) (v : Slab) : (wt.setSlab i v).omem = wt.omem := rfl
@[simp] theorem WT.setSlab_spans (wt : WT) (i : Nat) (v : Slab) : (wt.setSlab i v).spans = wt.spans := rfl
@[simp] theorem WT.setSlab_accs (wt : WT) (i : Nat) (v : Slab) : (wt.setSlab i v).accs = wt.accs := rfl
@[simp] theorem WT.setSlab_claims (wt : WT) (i : Nat) (v : Slab) : (wt.setSlab i v).claims = wt.claims := rfl
@[simp] theorem WT.setSlab_anvil (wt : WT) (i : Nat) (v : Slab) : (wt.setSlab i v).anvil = wt.anvil := rfl
@[simp] theorem WT.setSlab_anvilq (wt : WT) (i : Nat) (v : Slab) : (wt.setSlab i v).anvilq = wt.anvilq := rfl
@[simp] theorem WT.setSlab_rels (wt : WT) (i : Nat) (v : Slab) : (wt.setSlab i v).rels = wt.rels := rfl
@[simp] theorem WT.setSlab_sems (wt : WT) (i : Nat) (v : Slab) : (wt.setSlab i v).sems = wt.sems := rfl
@[simp] theorem WT.setSlab_cws (wt : WT) (i : Nat) (v : Slab) : (wt.setSlab i v).cws = wt.cws := rfl
@[simp] theorem WT.setSlab_chains (wt : WT) (i : Nat) (v : Slab) : (wt.setSlab i v).chains = wt.chains := rfl
@[simp] theorem WT.setSlab_pilotq (wt : WT) (i : Nat) (v : Slab) : (wt.setSlab i v).pilotq = wt.pilotq := rfl
@[simp] theorem WT.setSlab_stackc (wt : WT) (i : Nat) (v : Slab) : (wt.setSlab i v).stackc = wt.stackc := rfl
@[simp] theorem WT.setSlab_stackd (wt : WT) (i : Nat) (v : Slab) : (wt.setSlab i v).stackd = wt.stackd := rfl
@[simp] theorem WT.setSlab_flush (wt : WT) (i : Nat) (v : Slab) : (wt.setSlab i v).flush = wt.flush := rfl
@[simp] theorem WT.setSlab_routes (wt : WT) (i : Nat) (v : Slab) : (wt.setSlab i v).routes = wt.routes := rfl
@[simp] theorem WT.setSlab_bufs (wt : WT) (i : Nat) (v : Slab) : (wt.setSlab i v).bufs = wt.bufs := rfl
@[simp] theorem WT.setSlab_recvs (wt : WT) (i : Nat) (v : Slab) : (wt.setSlab i v).recvs = wt.recvs := rfl
@[simp] theorem WT.setSlab_acct (wt : WT) (i : Nat) (v : Slab) : (wt.setSlab i v).acct = wt.acct := rfl
@[simp] theorem WT.setSlab_saved (wt : WT) (i : Nat) (v : Slab) : (wt.setSlab i v).saved = wt.saved := rfl
@[simp] theorem WT.setSlab_savedLcr (wt : WT) (i : Nat) (v : Slab) : (wt.setSlab i v).savedLcr = wt.savedLcr := rfl
@[simp] theorem WT.setSlab_pcbase (wt : WT) (i : Nat) (v : Slab) : (wt.setSlab i v).pcbase = wt.pcbase := rfl
@[simp] theorem WT.setSlab_pclimit (wt : WT) (i : Nat) (v : Slab) : (wt.setSlab i v).pclimit = wt.pclimit := rfl
@[simp] theorem WT.setSlab_lcr (wt : WT) (i : Nat) (v : Slab) : (wt.setSlab i v).lcr = wt.lcr := rfl
@[simp] theorem WT.setSlab_errs (wt : WT) (i : Nat) (v : Slab) : (wt.setSlab i v).errs = wt.errs := rfl
@[simp] theorem WT.setSlab_dbg (wt : WT) (i : Nat) (v : Slab) : (wt.setSlab i v).dbg = wt.dbg := rfl
@[simp] theorem WT.setSlab_restored (wt : WT) (i : Nat) (v : Slab) : (wt.setSlab i v).restored = wt.restored := rfl
@[simp] theorem WT.setSlab_ctx (wt : WT) (i : Nat) (v : Slab) : (wt.setSlab i v).ctx = wt.ctx := rfl
@[simp] theorem WT.setSlab_mtsr (wt : WT) (i : Nat) (v : Slab) : (wt.setSlab i v).mtsr = wt.mtsr := rfl
@[simp] theorem WT.slab_setSlab_self (wt : WT) (i : Nat) (v : Slab) : (wt.setSlab i v).slab i = v := mget_mset_self _ _ _ _
theorem WT.slab_setSlab_ne (wt : WT) {i j : Nat} (v : Slab) (h : j ≠ i) : (wt.setSlab i v).slab j = wt.slab j := mget_mset_ne _ _ _ h

@[simp] theorem WT.setChain_groups (wt : WT) (i : Nat) (v : Chain) : (wt.setChain i v).groups = wt.groups := rfl
@[simp] theorem WT.setChain_used (wt : WT) (i : Nat) (v : Chain) : (wt.setChain i v).used = wt.used := rfl
@[simp] theorem WT.setChain_growq (wt : WT) (i : Nat) (v : Chain) : (wt.setChain i v).growq = wt.growq := rfl
@[simp] theorem WT.setChain_bins (wt : WT) (i : Nat) (v : Chain) : (wt.setChain i v).bins = wt.bins := rfl
@[simp] theorem WT.setChain_urecs (wt : WT) (i : Nat) (v : Chain) : (wt.setChain i v).urecs = wt.urecs := rfl
@[simp] theorem WT.setChain_meets (wt : WT) (i : Nat) (v : Chain) : (wt.setChain i v).meets = wt.meets := rfl
@[simp] theorem WT.setChain_parked (wt : WT) (i : Nat) (v : Chain) : (wt.setChain i v).parked = wt.parked := rfl
@[simp] theorem WT.setChain_admits (wt : WT) (i : Nat) (v : Chain) : (wt.setChain i v).admits = wt.admits := rfl
@[simp] theorem WT.setChain_lwant (wt : WT) (i : Nat) (v : Chain) : (wt.setChain i v).lwant = wt.lwant := rfl
@[simp] theorem WT.setChain_scratch (wt : WT) (i : Nat) (v : Chain) : (wt.setChain i v).scratch = wt.scratch := rfl
@[simp] theorem WT.setChain_slabs (wt : WT) (i : Nat) (v : Chain) : (wt.setChain i v).slabs = wt.slabs := rfl
@[simp] theorem WT.setChain_omem (wt : WT) (i : Nat) (v : Chain) : (wt.setChain i v).omem = wt.omem := rfl
@[simp] theorem WT.setChain_spans (wt : WT) (i : Nat) (v : Chain) : (wt.setChain i v).spans = wt.spans := rfl
@[simp] theorem WT.setChain_accs (wt : WT) (i : Nat) (v : Chain) : (wt.setChain i v).accs = wt.accs := rfl
@[simp] theorem WT.setChain_claims (wt : WT) (i : Nat) (v : Chain) : (wt.setChain i v).claims = wt.claims := rfl
@[simp] theorem WT.setChain_anvil (wt : WT) (i : Nat) (v : Chain) : (wt.setChain i v).anvil = wt.anvil := rfl
@[simp] theorem WT.setChain_anvilq (wt : WT) (i : Nat) (v : Chain) : (wt.setChain i v).anvilq = wt.anvilq := rfl
@[simp] theorem WT.setChain_rels (wt : WT) (i : Nat) (v : Chain) : (wt.setChain i v).rels = wt.rels := rfl
@[simp] theorem WT.setChain_sems (wt : WT) (i : Nat) (v : Chain) : (wt.setChain i v).sems = wt.sems := rfl
@[simp] theorem WT.setChain_cws (wt : WT) (i : Nat) (v : Chain) : (wt.setChain i v).cws = wt.cws := rfl
@[simp] theorem WT.setChain_pilotq (wt : WT) (i : Nat) (v : Chain) : (wt.setChain i v).pilotq = wt.pilotq := rfl
@[simp] theorem WT.setChain_stackc (wt : WT) (i : Nat) (v : Chain) : (wt.setChain i v).stackc = wt.stackc := rfl
@[simp] theorem WT.setChain_stackd (wt : WT) (i : Nat) (v : Chain) : (wt.setChain i v).stackd = wt.stackd := rfl
@[simp] theorem WT.setChain_flush (wt : WT) (i : Nat) (v : Chain) : (wt.setChain i v).flush = wt.flush := rfl
@[simp] theorem WT.setChain_routes (wt : WT) (i : Nat) (v : Chain) : (wt.setChain i v).routes = wt.routes := rfl
@[simp] theorem WT.setChain_bufs (wt : WT) (i : Nat) (v : Chain) : (wt.setChain i v).bufs = wt.bufs := rfl
@[simp] theorem WT.setChain_recvs (wt : WT) (i : Nat) (v : Chain) : (wt.setChain i v).recvs = wt.recvs := rfl
@[simp] theorem WT.setChain_acct (wt : WT) (i : Nat) (v : Chain) : (wt.setChain i v).acct = wt.acct := rfl
@[simp] theorem WT.setChain_saved (wt : WT) (i : Nat) (v : Chain) : (wt.setChain i v).saved = wt.saved := rfl
@[simp] theorem WT.setChain_savedLcr (wt : WT) (i : Nat) (v : Chain) : (wt.setChain i v).savedLcr = wt.savedLcr := rfl
@[simp] theorem WT.setChain_pcbase (wt : WT) (i : Nat) (v : Chain) : (wt.setChain i v).pcbase = wt.pcbase := rfl
@[simp] theorem WT.setChain_pclimit (wt : WT) (i : Nat) (v : Chain) : (wt.setChain i v).pclimit = wt.pclimit := rfl
@[simp] theorem WT.setChain_lcr (wt : WT) (i : Nat) (v : Chain) : (wt.setChain i v).lcr = wt.lcr := rfl
@[simp] theorem WT.setChain_errs (wt : WT) (i : Nat) (v : Chain) : (wt.setChain i v).errs = wt.errs := rfl
@[simp] theorem WT.setChain_dbg (wt : WT) (i : Nat) (v : Chain) : (wt.setChain i v).dbg = wt.dbg := rfl
@[simp] theorem WT.setChain_restored (wt : WT) (i : Nat) (v : Chain) : (wt.setChain i v).restored = wt.restored := rfl
@[simp] theorem WT.setChain_ctx (wt : WT) (i : Nat) (v : Chain) : (wt.setChain i v).ctx = wt.ctx := rfl
@[simp] theorem WT.setChain_mtsr (wt : WT) (i : Nat) (v : Chain) : (wt.setChain i v).mtsr = wt.mtsr := rfl
@[simp] theorem WT.chain_setChain_self (wt : WT) (i : Nat) (v : Chain) : (wt.setChain i v).chain i = v := mget_mset_self _ _ _ _
theorem WT.chain_setChain_ne (wt : WT) {i j : Nat} (v : Chain) (h : j ≠ i) : (wt.setChain i v).chain j = wt.chain j := mget_mset_ne _ _ _ h

@[simp] theorem WT.setSem_groups (wt : WT) (i : Nat) (v : Sem) : (wt.setSem i v).groups = wt.groups := rfl
@[simp] theorem WT.setSem_used (wt : WT) (i : Nat) (v : Sem) : (wt.setSem i v).used = wt.used := rfl
@[simp] theorem WT.setSem_growq (wt : WT) (i : Nat) (v : Sem) : (wt.setSem i v).growq = wt.growq := rfl
@[simp] theorem WT.setSem_bins (wt : WT) (i : Nat) (v : Sem) : (wt.setSem i v).bins = wt.bins := rfl
@[simp] theorem WT.setSem_urecs (wt : WT) (i : Nat) (v : Sem) : (wt.setSem i v).urecs = wt.urecs := rfl
@[simp] theorem WT.setSem_meets (wt : WT) (i : Nat) (v : Sem) : (wt.setSem i v).meets = wt.meets := rfl
@[simp] theorem WT.setSem_parked (wt : WT) (i : Nat) (v : Sem) : (wt.setSem i v).parked = wt.parked := rfl
@[simp] theorem WT.setSem_admits (wt : WT) (i : Nat) (v : Sem) : (wt.setSem i v).admits = wt.admits := rfl
@[simp] theorem WT.setSem_lwant (wt : WT) (i : Nat) (v : Sem) : (wt.setSem i v).lwant = wt.lwant := rfl
@[simp] theorem WT.setSem_scratch (wt : WT) (i : Nat) (v : Sem) : (wt.setSem i v).scratch = wt.scratch := rfl
@[simp] theorem WT.setSem_slabs (wt : WT) (i : Nat) (v : Sem) : (wt.setSem i v).slabs = wt.slabs := rfl
@[simp] theorem WT.setSem_omem (wt : WT) (i : Nat) (v : Sem) : (wt.setSem i v).omem = wt.omem := rfl
@[simp] theorem WT.setSem_spans (wt : WT) (i : Nat) (v : Sem) : (wt.setSem i v).spans = wt.spans := rfl
@[simp] theorem WT.setSem_accs (wt : WT) (i : Nat) (v : Sem) : (wt.setSem i v).accs = wt.accs := rfl
@[simp] theorem WT.setSem_claims (wt : WT) (i : Nat) (v : Sem) : (wt.setSem i v).claims = wt.claims := rfl
@[simp] theorem WT.setSem_anvil (wt : WT) (i : Nat) (v : Sem) : (wt.setSem i v).anvil = wt.anvil := rfl
@[simp] theorem WT.setSem_anvilq (wt : WT) (i : Nat) (v : Sem) : (wt.setSem i v).anvilq = wt.anvilq := rfl
@[simp] theorem WT.setSem_rels (wt : WT) (i : Nat) (v : Sem) : (wt.setSem i v).rels = wt.rels := rfl
@[simp] theorem WT.setSem_cws (wt : WT) (i : Nat) (v : Sem) : (wt.setSem i v).cws = wt.cws := rfl
@[simp] theorem WT.setSem_chains (wt : WT) (i : Nat) (v : Sem) : (wt.setSem i v).chains = wt.chains := rfl
@[simp] theorem WT.setSem_pilotq (wt : WT) (i : Nat) (v : Sem) : (wt.setSem i v).pilotq = wt.pilotq := rfl
@[simp] theorem WT.setSem_stackc (wt : WT) (i : Nat) (v : Sem) : (wt.setSem i v).stackc = wt.stackc := rfl
@[simp] theorem WT.setSem_stackd (wt : WT) (i : Nat) (v : Sem) : (wt.setSem i v).stackd = wt.stackd := rfl
@[simp] theorem WT.setSem_flush (wt : WT) (i : Nat) (v : Sem) : (wt.setSem i v).flush = wt.flush := rfl
@[simp] theorem WT.setSem_routes (wt : WT) (i : Nat) (v : Sem) : (wt.setSem i v).routes = wt.routes := rfl
@[simp] theorem WT.setSem_bufs (wt : WT) (i : Nat) (v : Sem) : (wt.setSem i v).bufs = wt.bufs := rfl
@[simp] theorem WT.setSem_recvs (wt : WT) (i : Nat) (v : Sem) : (wt.setSem i v).recvs = wt.recvs := rfl
@[simp] theorem WT.setSem_acct (wt : WT) (i : Nat) (v : Sem) : (wt.setSem i v).acct = wt.acct := rfl
@[simp] theorem WT.setSem_saved (wt : WT) (i : Nat) (v : Sem) : (wt.setSem i v).saved = wt.saved := rfl
@[simp] theorem WT.setSem_savedLcr (wt : WT) (i : Nat) (v : Sem) : (wt.setSem i v).savedLcr = wt.savedLcr := rfl
@[simp] theorem WT.setSem_pcbase (wt : WT) (i : Nat) (v : Sem) : (wt.setSem i v).pcbase = wt.pcbase := rfl
@[simp] theorem WT.setSem_pclimit (wt : WT) (i : Nat) (v : Sem) : (wt.setSem i v).pclimit = wt.pclimit := rfl
@[simp] theorem WT.setSem_lcr (wt : WT) (i : Nat) (v : Sem) : (wt.setSem i v).lcr = wt.lcr := rfl
@[simp] theorem WT.setSem_errs (wt : WT) (i : Nat) (v : Sem) : (wt.setSem i v).errs = wt.errs := rfl
@[simp] theorem WT.setSem_dbg (wt : WT) (i : Nat) (v : Sem) : (wt.setSem i v).dbg = wt.dbg := rfl
@[simp] theorem WT.setSem_restored (wt : WT) (i : Nat) (v : Sem) : (wt.setSem i v).restored = wt.restored := rfl
@[simp] theorem WT.setSem_ctx (wt : WT) (i : Nat) (v : Sem) : (wt.setSem i v).ctx = wt.ctx := rfl
@[simp] theorem WT.setSem_mtsr (wt : WT) (i : Nat) (v : Sem) : (wt.setSem i v).mtsr = wt.mtsr := rfl
@[simp] theorem WT.sem_setSem_self (wt : WT) (i : Nat) (v : Sem) : (wt.setSem i v).sem i = v := mget_mset_self _ _ _ _
theorem WT.sem_setSem_ne (wt : WT) {i j : Nat} (v : Sem) (h : j ≠ i) : (wt.setSem i v).sem j = wt.sem j := mget_mset_ne _ _ _ h

end Sys2Proof.Machine
end

