-- ==== Sys2Proof/Tests/Slice0.lean ====
section
/-! SUPPORT. The model's own tests: ill-formed terms are refused, words written from the manual's encodings decode to
their instructions, small steps give the values of the manual's tables, and every statement's hypotheses are met by a
concrete state (the witnesses wit_<Statement>, one part for each clause). -/

namespace Sys2Proof.Tests

open Sys2Proof Sys2Proof.Machine

set_option Elab.async false
set_option maxRecDepth 100000

/-! ## Small states -/

/-- The header of an instruction with no guard, accuracy .ex and no window. -/
def h0 : Hdr := { pg := 7, pn := false, ac := .ex, la := 0 }

/-- The machine of log entry 9: one world, one team, one thread on tile 0. -/
def base : M := { (State.reset.withFetchWord 64 0).m with agenda := [] }

/-- A thread with the registers x. -/
def thr (x : AMap W32) : Thread := { idx := 0, x := x }

/-- A group of the one team with the uniform registers k and the lanes ls. -/
def grp (k : AMap W64) (ls : AMap Thread) : Machine.Group :=
  { uid := 1, team := 2, pc := 0x10000, allot := 256, lanes := ls, k := k }

/-- The machine with the group g in slot 0, at its turn. -/
def mOf (g : Machine.Group) : M := (base.setGroup 0 0 0 g).mark 0 0

/-- Its state. -/
def stOf (m : M) : State := { State.reset with m := m }

/-- The context in which it issues. -/
def cOf (h : Hdr) (g : Machine.Group) : Ctx :=
  { t := 0, w := 0, slot := 0, g := g, ex := g.lanes.filter fun (_, th) => guardOk h th }

/-- The instruction form issues, and the machine at its effect meets p. -/
def wit (f : Form) (g : Machine.Group) (e : M → M) (p : Ctx → M → Bool) : Bool :=
  decide (IssuesSeq h0 f (stOf (e (mOf g))) (cOf h0 g)) && p (cOf h0 g) (counted (cOf h0 g) f (e (mOf g)))

/-- One thread with zero registers. -/
def g1 : Machine.Group := grp [] [(0, thr [])]

/-- The world's and the tile's part changed. -/
def inWT (f : WT → WT) (m : M) : M := m.setWT 0 0 (f (m.wt 0 0))

/-- Tile 0 changed. -/
def inTile (f : Tile → Tile) (m : M) : M := m.setTile 0 (f (m.tile 0))

/-- World 0 changed. -/
def inWorld (f : World → World) (m : M) : M := m.setWorld 0 (f (m.world 0))

/-- Partition 0 changed. -/
def inPart (f : Part → Part) (m : M) : M := m.setPart 0 (f (m.part 0))

/-- The team changed. -/
def inTeam (f : Team → Team) (m : M) : M := m.updTeam 2 f

/-- The launch changed. -/
def inLaunch (f : Launch → Launch) (m : M) : M := m.updLaunch 3 f

/-- A leaf of world 0 for the page at va, in frame 0 of field 0, which is granted to it and away from its tensor table, under
its key 0. -/
def mapped (va : Nat) (m : M) : M :=
  ({ m with frames := [(0, 0)], worlds := put m.worlds 0 { m.world 0 with keys := [0], ttb := 0x800000 } } : M).tlbPut 0 0 va { level := 3, frame := 0, homek := 0, homeid := 0, nc := false, fp := false, x := true, ro := false, key := 0 }

/-- An access of the group, with its kind, phase and result. -/
def acc (id op : Nat) (k : AKind) (ph : Phase) (r : Option Result) : Access :=
  { id := id, world := 0, tile := 0, slot := 0, group := 1, team := 2, launch := 3, op := op, lane := 0, thread := 0, pc := 0x10000,
    kind := k, ctr := 8, va := 0x20000, size := 4, phase := ph, res := r, homek := 0 }

/-- A pending operation of the group. -/
def pend (id : Nat) (rdy : Bool) (since : Nat) : Pend :=
  { id := id, pc := 0x10000, len := 8, ll := true, late := false, nonIdem := false, dest := .vals 1 [(0, 7)], lanes := [0],
    ready := rdy, since := since }

/-! ## Well-formedness: one ill-formed term for each check -/

/-- A base register and a memory operand for the terms below. -/
def opB (b : Opd64) (sz : Sz) : Mem := { base := b, off := 0, x := { lc := .dflt, hint := .normal, scope := .group }, sz := sz }

/-- A rounding floating-point MOD of a format. -/
def fc (f : Fmt) : FCfg := { rm := .rne, sat := false, fmt := f }

theorem test_wf_integer : ([
    .add { h0 with la := 1 } 1 2 (.reg 3),                       -- LA without LL (R54)
    .mulw h0 false 3 1 (.reg 2),                                 -- an odd pair (R14)
    .bfe h0 false 30 3 1 2, .bfe h0 false 0 33 1 2, .bfi h0 31 2 1 2 3,  -- a field past bit 31 (R75)
    .movPairFromUniform h0 5 0, .movUniformFromPair h0 0 5, .movqPair h0 7 0,
    .add64 h0 (.uni 1) (.pair 2) (.imm 0), .sub64 h0 (.pair 1) (.pair 2) (.imm 0), .shl64 h0 (.pair 2) (.pair 3) (.imm 0),
    .shr64 h0 false (.uni 1) (.uni 2) (.opd (.pair 4)), .cmp64 h0 true .eq 0 (.pair 2) (.imm 0), .cmp64 h0 false .eq 0 (.pair 2) (.opd (.uni 1)),
    .lea h0 false 5 (.uni 1) (.uni 2) (.uni 3) 0, .lea h0 false 0 (.uni 1) (.uni 2) (.pair 4) 0] : List Instr).all (fun i => !i.wf) = true := by
  decide +kernel

theorem test_wf_float : ([
    .fadd h0 (fc .e4m3) 1 2 3, .fma h0 (fc .e5m2) 1 2 3 4, .fmin h0 .e4m3 1 2 3, .fsgn h0 .cp .e5m2 1 2 3, .frnd h0 .rne .e4m3 1 2,
    .hadd2 h0 (fc .f32) 1 2 3, .hmin2 h0 .f32 1 2 3, .fdot2 h0 (fc .f32) 1 2 3 4,
    .cvt h0 .rne false .f16 .f32 2 0 false 1 2, .cvt h0 .rne false .f32 .f16 0 2 false 1 2, .cvt h0 .rne false .f16 .f32 0 0 true 1 2,
    .cvt h0 .rne true .f32 .int8 0 0 false 1 2] : List Instr).all (fun i => !i.wf) = true := by decide +kernel

theorem test_wf_memory : ([
    .ld h0 (.vec 2) false (opB (.pair 3) .b4), .ld h0 (.vec 3) false (opB (.uni 1) .b8), .ld h0 (.vec 6) false (opB (.uni 1) .b16),
    .ld h0 (.uni 1) false (opB (.uni 1) .b16), .ld h0 (.vec 2) true (opB (.uni 1) .b4), .st { h0 with la := 1 } (opB (.uni 1) .b4) (.vec 2),
    .pref h0 (.pair 1) 0 .dflt .normal, .ldg h0 2 false false 5 3 (opB (.uni 1) .b4), .stg h0 (opB (.uni 1) .b8) false 0 3 (.vec 5),
    .ldsl h0 2 true .b8 0 1 0, .stsl h0 .b16 0 1 0 (.uni 1),
    .atom h0 .fadd (.vec 2) (opB (.uni 1) .b8) (.vec 4) (.vec 0), .atom h0 .add (.vec 2) (opB (.uni 1) .b2) (.vec 4) (.vec 0),
    .atom h0 .add (.vec 2) (opB (.uni 1) .b4) (.uni 4) (.vec 0), .atom h0 .add (.vec 2) (opB (.uni 1) .b4) (.vec 4) (.vec 1),
    .atom h0 .cas (.vec 2) (opB (.uni 1) .b8) (.vec 4) (.vec 7), .ldl h0 (.vec 2) (opB (.uni 1) .b1),
    .stc h0 2 { opB (.uni 1) .b4 with x := { lc := .long, hint := .normal, scope := .group } } (.vec 3),
    .fence h0 .ar .team (.handle 0) [.handle 1, .handle 2, .handle 3, .handle 4], .ftag h0 0 (.handle 0), .funtag h0 0,
    .enter h0 8, .enter h0 0, .leave h0 8388608, .hbind h0 0 0 false 13 0 16, .hbind h0 0 0 false 0 1 16, .hbind h0 0 0 false 0 0 0,
    .slabq h0 2 0] : List Instr).all (fun i => !i.wf) = true := by decide +kernel

theorem test_wf_others : ([
    .spawn h0 2 5 0 0, .spawn h0 0 4 1 0, .spawn h0 8 4 249 0, .shfl h0 .idx 6 1 2 (.imm 0), .grow h0 4, .grow h0 0, .shrink h0 255,
    .movs h0 (.vec 3) 1, .claim h0 (.slots 127 1), .release h0 (.tiles 63 1), .ofill h0 0 0 0 2, .mma h0 1 2 3 4 0, .mmat h0 1 2 5 4 0,
    .accz h0 63 1, .accrd h0 6 false 4 0, .accrd h0 0 false 2 0, .accwr h0 .f32 6 false 0 4, .trap h0 127, .mfsr h0 (.uni 1) 0x14,
    .mtsr h0 0x10 (.uni 1), .faultq h0 8 0, .rngk h0 1 (.pair 3), .condw h0 false 0 (.pair 1), .sqry h0 (.pair 1) 0,
    .send h0 .b2 0 4, .sendTo h0 .b8 0 0 3, .recv h0 .b1 4 0 none, .rld h0 (.vec 3) false (.uni 1) 0 .b8, .rst h0 (.pair 1) 0 .b4 (.vec 2),
    .ratom h0 .add (.vec 2) (.uni 1) 0 .b16 (.vec 4) (.vec 0), .hatom h0 .swap false (.vec 2) (.uni 1) 0 .b4 (.vec 4) (.vec 1)]
      : List Instr).all (fun i => !i.wf) = true := by decide +kernel

/-! ## Decoding: the manual's worked encodings, word by word -/

/-- The decoder reads w as i. -/
def reads (nbits w : Nat) (i : Instr) : Bool := decodeTableWord nbits w == some i

theorem test_decode_float_and_integer :
    reads 64 0x040434302C281D0C (.fma { h0 with ac := .tr } { rm := .rz, sat := false, fmt := .f32 } 10 11 12 13) &&
    reads 64 0x0000202424201C20 (.mad h0 8 9 9 (.reg 8)) &&
    reads 64 0x0303C000FCFC1CC0 (.add64 h0 (.uni 63) (.uni 63) (.imm 0xF0)) && reads 64 0 .nop64 := by decide +kernel

theorem test_decode_control_and_memory :
    reads 96 0x000000400800000010209E41 (.ld { h0 with la := 2 } (.vec 8) false { opB (.pair 4) .b4 with off := 0x40 }) &&
    reads 96 0x00000000CC0000F8FC001E45 (.st h0 (opB (.uni 63) .b8) (.uni 62)) &&
    reads 96 0xFFFFFFB400000000000005C1 (.br { h0 with pg := 1 } 0 0xFFFFFFB4) := by decide +kernel

theorem test_decode_parallel :
    reads 64 0x0030000000001EE0 (.barT h0 3) && reads 64 0x0080000010241ED0 (.lreduce h0 .fadd 9 4) &&
    reads 96 0x000002000000082818001EC1 (.spawn h0 2 6 10 0x200) && reads 64 0x0000000018201EFC (.rngk h0 8 (.pair 6)) := by decide +kernel

theorem test_decode_engines :
    reads 96 0x000000400020000014001F41 (.chainLink h0 2 5 0x40) && reads 64 0x00000000000C9F4C (.sacq { h0 with la := 2 } 3) &&
    reads 64 0x0010040010001F58 (.claim h0 (.tiles 4 1)) &&
    reads 128 0x00000000000000020004503830205F66 (.mma { h0 with ac := .tr, la := 1 } 8 12 14 20 2) := by decide +kernel

theorem test_decode_system :
    reads 64 0x0002440000001FC0 (.trap h0 0x91) && reads 96 0x000000110400000000081FD5 (.mfsr h0 (.uni 2) 0x11) &&
    reads 64 0x0000000008401FD8 (.faultq h0 16 2) && reads 64 0x0010000064000BC4 (.rfe { h0 with pg := 2 } .kill 25) := by decide +kernel

theorem test_decode_fabric :
    reads 96 0x08000C0020001FE5 (.send h0 .b4 3 8) && reads 96 0x1000040040002FE5 (.send { h0 with pg := 3, pn := true } .b16 1 16) &&
    reads 96 0x00000840CC00000004141FED (.rld h0 (.uni 5) false (.uni 1) 0x840 .b8) &&
    reads 96 0x8D00003010285FF9 (.hatom { h0 with la := 1 } .add true (.vec 10) (.uni 4) 0 .b8 (.vec 12) (.vec 0)) := by decide +kernel

/-- The word whose first byte is 0xD8 (R58, R59): second bits 00 and 01 are no instructions, 10 and 11 are SELMAX and
FAULTQ. -/
theorem test_decode_refuses :
    (decodeTableWord 64 0x1CD8).isNone && (decodeTableWord 64 0x1DD8).isNone &&
    reads 64 0x0000000000001ED8 (.selmax h0 .s32 0 0 0 none) && reads 64 0x0000000000001FD8 (.faultq h0 0 0) &&
    (decodeTableWord 64 0x000C000000001C10).isNone := by decide +kernel

/-! ## Steps: values of the manual's tables and worked sequences -/

/-- The group after an instruction of one thread with the registers x. -/
def after (i : Instr) (k : AMap W64) (x : AMap W32) : Option Machine.Group :=
  match exec i (stOf (mOf (grp k [(0, thr x)]))) with
  | .next t => look (t.m.wt 0 0).groups 0
  | _ => none

/-- Register r afterwards is v, and the group has gone on to the next instruction. -/
def gives (i : Instr) (x : AMap W32) (r : Nat) (v : W32) : Bool :=
  match after i [] x with
  | some g => (g.lanes.all fun (_, th) => th.xr r == v) && g.pc == 0x10008
  | none => false

theorem test_arithmetic :
    gives (.add h0 3 1 (.reg 2)) [(1, 0xFFFFFFFF), (2, 2)] 3 1 && gives (.mulh h0 3 1 (.reg 2)) [(1, 0xFFFFFFFF), (2, 2)] 3 0xFFFFFFFF &&
    gives (.mulhu h0 3 1 (.reg 2)) [(1, 0xFFFFFFFF), (2, 2)] 3 1 && gives (.div h0 3 1 (.reg 2)) [(1, 7)] 3 0xFFFFFFFF &&
    gives (.rem h0 3 1 (.reg 2)) [(1, 0x80000000), (2, 0xFFFFFFFF)] 3 0 && gives (.div h0 3 1 (.reg 2)) [(1, 0x80000000), (2, 0xFFFFFFFF)] 3 0x80000000 &&
    gives (.remu h0 3 1 (.reg 2)) [(1, 7)] 3 7 && gives (.abs h0 true 3 1) [(1, 0x80000000)] 3 0x7FFFFFFF &&
    gives (.abs h0 false 3 1) [(1, 0x80000000)] 3 0x80000000 && gives (.addsat h0 false 3 1 (.reg 2)) [(1, 0x7FFFFFFF), (2, 1)] 3 0x7FFFFFFF &&
    gives (.subsat h0 true 3 1 (.reg 2)) [(1, 1), (2, 2)] 3 0 := by decide +kernel

theorem test_logic :
    gives (.bytep h0 .sgn 3 1 2 (.reg 12)) [(1, 0x44332211), (2, 0x88776655), (12, 0x0000C704)] 3 0x00881155 &&
    gives (.bytep h0 .o 3 1 2 (.reg 12)) [(1, 0x44332211), (2, 0x88776655), (12, 0x0000C704)] 3 0xFF881155 &&
    gives (.bfe h0 true 4 4 5 1) [(1, 0x800000A7)] 5 0xFFFFFFFA && gives (.sar h0 6 1 (.imm 40)) [(1, 0x800000A7)] 6 0xFFFFFFFF &&
    gives (.funnel h0 7 5 6 (.imm 8)) [(5, 0xFFFFFFFA), (6, 0xFFFFFFFF)] 7 0xFFFFFFFF && gives (.clz h0 3 1) [] 3 32 &&
    gives (.shl h0 3 1 (.imm 32)) [(1, 1)] 3 0 && gives (.zext h0 3 1 (.imm 0)) [(1, 0x80000000)] 3 0x80000000 := by decide +kernel

theorem test_float :
    gives (.frcp h0 .rne 3 1) [(1, 0x40400000)] 3 0x3EAAAAAB && gives (.frcp h0 .rd 3 1) [(1, 0x40400000)] 3 0x3EAAAAAA &&
    gives (.frnd h0 .rne .f32 3 1) [(1, 0x40200000)] 3 0x40000000 && gives (.frnd h0 .ru .f32 3 1) [(1, 0xC0200000)] 3 0xC0000000 &&
    gives (.fmul { h0 with ac := .tr } (fc .f32) 3 1 2) [(1, 0x43960000), (2, 0)] 3 0 &&
    gives (.fmul h0 (fc .f32) 9 1 8) [(1, 0x43960000), (8, 0x3A800000)] 9 0x3E960000 &&
    gives (.cvt h0 .ru false .f32 .e8m0 0 0 false 6 5) [(5, 0x447A0000)] 6 0x89 &&
    gives (.cvt h0 .rne false .e8m0 .f32 0 0 false 7 6) [(6, 0x89)] 7 0x44800000 &&
    gives (.cvt h0 .rne false .f32 .e4m3 0 0 false 11 9) [(9, 0x3E960000)] 11 0x29 &&
    gives (.cvt h0 .rne false .f32 .e4m3 0 1 true 11 10) [(10, 0xBF7A0000), (11, 0x29)] 11 0xB829 &&
    gives (.cvt h0 .rne false .f32 .e4m3 0 0 false 3 1) [(1, 0x43EB0000)] 3 0x7F &&
    gives (.cvt h0 .rz false .f32 .e4m3 0 0 false 3 1) [(1, 0xC47A0000)] 3 0xFE := by decide +kernel

/-- A store of 4 bytes sends them in their order (R6, R21): the scratch window of the team. -/
theorem test_store_bytes :
    (match exec (.st h0 (opB (.uni 1) .b4) (.vec 2)) (stOf (inTeam (fun tm => { tm with scratchLen := 64 })
         (mOf (grp [(1, 0xFF000000000000)] [(0, thr [(2, 0x11223344)])])))) with
     | .next t => t.m.acc.map (fun a => (a.phase, a.data)) == [(.scr 0, [0x44, 0x33, 0x22, 0x11])]
     | _ => false) = true := by decide +kernel

/-- CALL sets k62 to the return address; a CALL with k63 not aligned takes ALIGNMENT (R26, R27, R83). -/
theorem test_call :
    (match after (.call h0 0x100) [] [] with
     | some g => g.pc == 0x10100 && g.kr 62 == 0x1000C
     | none => false) &&
    (match exec (.call h0 0x100) (stOf (mOf (grp [(63, 8)] [(0, thr [])]))) with
     | .next t => ((t.m.world 0).recs.map (·.fr.code)) == [.alignment]
     | _ => false) := by decide +kernel

/-- Every step from reset with nothing placed goes on, and an instruction placed is the first that runs (log entry 9). -/
theorem test_placed :
    (match step (State.reset.withFetchWord 64 0x0303C000FCFC1CC0) with
     | .next t => (look (t.m.wt 0 0).groups 0).any fun g => g.kr 63 == 0 - 16 && g.pc == 0x10008
     | _ => false) &&
    (match step State.reset with
     | .next _ => true
     | _ => false) := by decide +kernel

/-! ## Witnesses -/

theorem wit_IntegerArithmeticCompletes :
    (∀ f ∈ [regForm 8 255 1 (one 254 ++ (Src.reg 255).vecs), regForm 8 0 1 (one 0 ++ (Src.imm 255).vecs),
      regForm 8 255 1 (one 254 ++ (Src.reg 255).vecs) .exOnly, regForm 8 255 1 (one 254), regForm 12 255 1 (one 255),
      regForm 8 254 2 (one 255 ++ (Src.reg 0).vecs) .exOnly, regForm 8 255 1 (one 1 ++ one 2 ++ (Src.reg 3).vecs) .exOnly],
      IssuesSeq h0 f (stOf (mOf g1)) (cOf h0 g1)) := by decide +kernel

theorem wit_LogicCompletes :
    (∀ f ∈ [regForm 8 255 1 (one 254 ++ (Src.reg 255).vecs), regForm 8 255 1 (one 0), regForm 8 255 1 (one 1 ++ one 2 ++ (Src.imm 255).vecs),
      regForm 8 255 1 (one 254 ++ one 255)], IssuesSeq h0 f (stOf (mOf g1)) (cOf h0 g1)) := by decide +kernel

theorem wit_MovesCompletes :
    (∀ f ∈ [regForm 8 255 1 (one 254), { regForm 8 254 2 [] with uni := [63] }, srcForm 8 [(254, 2)] [63], srcForm 8 [] [63, 0],
      regForm 12 255 1 [], srcForm 12 [] [63], regForm 16 254 2 [], srcForm 16 [] [63], regForm 8 255 1 (one 254 ++ (Src.imm 255).vecs),
      srcForm 8 (one 255 ++ (Src.reg 0).vecs), srcForm 12 (one 255), srcForm 8 [], regForm 8 255 1 [], srcForm 8 (one 255)],
      IssuesSeq h0 f (stOf (mOf g1)) (cOf h0 g1)) ∧
    (∀ n ∈ [8, 12, 16], IssuesSeq always { len := n, counted := false, once := true } (stOf (mOf g1)) (cOf always g1)) := by decide +kernel

theorem wit_WideCompletes :
    (∀ f ∈ [wideForm 8 (.pair 254) (Opd64.vecs (.pair 252) ++ Src64.vecs (.opd (.pair 250))) (Opd64.unis (.pair 252) ++ Src64.unis (.opd (.pair 250))),
      wideForm 8 (.uni 63) (Opd64.vecs (.uni 62) ++ Src64.vecs (.imm 255)) (Opd64.unis (.uni 62) ++ Src64.unis (.imm 255)),
      srcForm 8 (Opd64.vecs (.pair 254) ++ Src64.vecs (.imm 0)) (Opd64.unis (.pair 254) ++ Src64.unis (.imm 0)),
      wideForm 12 (.uni 63) (Opd64.vecs (.uni 62) ++ Opd64.vecs (.uni 0)) (Opd64.unis (.uni 62) ++ Opd64.unis (.uni 0))],
      IssuesSeq h0 f (stOf (mOf g1)) (cOf h0 g1)) := by decide +kernel

theorem wit_FloatCompletes :
    (∀ f ∈ [regForm 8 255 1 (one 254 ++ one 253) .none, regForm 8 255 1 (one 254 ++ one 253) .all,
      regForm 8 255 1 (one 254 ++ one 253 ++ one 0) .all, regForm 8 255 1 (one 254 ++ one 253 ++ one 0) .exOnly, srcForm 8 (one 254 ++ one 253),
      regForm 8 255 1 (one 254), regForm 8 255 1 (one 254 ++ if true then one 255 else [])],
      IssuesSeq h0 f (stOf (mOf g1)) (cOf h0 g1)) := by decide +kernel

theorem wit_LongFloatBegins :
    (∀ f ∈ [regForm 8 255 1 (one 254), regForm 8 255 1 (one 254 ++ one 253)], IssuesSeq h0 f (stOf (mOf g1)) (cOf h0 g1)) := by decide +kernel

/-- Two threads, of which the guard p0 lets the second take a branch. -/
def g2 : Machine.Group := grp [] [(0, thr []), (1, { idx := 1, p := 0x81 })]

theorem wit_TransfersComplete :
    (∀ f ∈ [{ len := 12 }, srcForm 8 [] [63], srcForm 12 [] [62, 63], srcForm 8 [] [0, 62, 63], srcForm 8 [] [62]],
      Issues h0 f (stOf (mOf g1)) (cOf h0 g1)) ∧
    (cOf h0 g1).ex.length = (cOf h0 g1).g.lanes.length ∧ (cOf h0 g1).g.kr 63 &&& 15#64 = 0 ∧
    (0x00FFFFFFFFFFFFFC#64).extractLsb' 0 2 = 0#2 ∧ (0x00FFFFFFFFFFFFFC#64).extractLsb' 56 8 = 0#8 ∧
    (let h := { h0 with pg := 0 }
     Issues h { len := 12 } (stOf (mOf g2)) (cOf h g2) ∧ (cOf h g2).ex.length < g2.lanes.length ∧
       g2.pc.setWidth 64 + (12 : W32).signExtend 64 = g2.pc.setWidth 64 + 12#64) := by decide +kernel

theorem wit_GroupsSplitAndEnd :
    (let h := { h0 with pg := 0 }
     let c := cOf h g2
     Issues h { len := 12, waits := true, waitsAll := true, touch := [5] } (stOf (mOf g2)) c ∧ c.ex.length < g2.lanes.length ∧
     (∀ x ∈ [((16 : W32), (0x10010 : Va), c.ex), (0xFFFFFFF0, 0x1000C, [(0, thr [])])],
       let target := g2.pc.setWidth 64 + x.1.signExtend 64
       target.extractLsb' 0 2 = 0#2 ∧ target.extractLsb' 56 8 = 0#8 ∧ target ≠ g2.pc.setWidth 64 + 12#64 ∧
       (mOf g2).hasRoom 0 0 0 (((mOf g2).wt 0 0).needOf 2 g2.k (ejectBytes 256 255 x.2.1 x.2.2)) = true) ∧
     IssuesSeq h { len := 8, waits := true, waitsAll := true, touch := [5] } (stOf (mOf g2)) c ∧ (g2.lanes.map (·.1)).Nodup) ∧
    Issues h0 { len := 8, waits := true, waitsAll := true, touch := [5] } (stOf (mOf g2)) (cOf h0 g2) ∧
    (cOf h0 g2).ex.length = g2.lanes.length := by
  decide +kernel

/-- A base register k1, with the MEMX fields zero. -/
def mm1 (sz : Sz) : Mem := { base := .uni 1, off := 0, x := { lc := .dflt, hint := .normal, scope := .group }, sz := sz }

theorem wit_LoadsIssue :
    wit (memForm 12 (mm1 .b16).base [] (DataReg.vecs .b16 (.vec 252)) (DataReg.unis (.vec 252))) g1 id (fun c m => decide (5 ≤ (m.wt c.w c.t).restored)) &&
    wit (memForm 12 (mm1 .b4).base (one 0) (DataReg.vecs .b4 (.vec 255)) []) g1 id (fun c m => decide (5 ≤ (m.wt c.w c.t).restored)) &&
    wit (memForm 12 (mm1 .b8).base [] (DataReg.vecs .b8 (.uni 63)) (DataReg.unis (.uni 63))) g1 id (fun c m => decide (5 ≤ (m.wt c.w c.t).restored)) &&
    wit (memForm 12 (.pair 254) [] [] []) g1 id (fun _ _ => decide (True)) &&
    wit { memForm 12 (mm1 .b4).base (DataReg.vecs .b4 (.vec 3) ++ DataReg.vecs .b4 (.vec 4)) (DataReg.vecs .b4 (.vec 2)) [] with nonIdem := true } g1 id
      (fun c m => decide (5 ≤ (m.wt c.w c.t).restored ∧ (m.det c.g.team && wideScope .system) = false)) &&
    ([1, 2].all fun n => wit { regForm 16 255 1 (one 250) with also := [(250, n)] } (grp [] [(0, { thr [] with h := [(15, 1)] })])
      (inWorld fun w => { w with tensors := [(1, { valid := true, ndim := n })] })
      (fun c m => decide (n = (c.ex.filterMap fun (_, th) => ((m.world c.w).tensor (th.hr 15).toNat).map (·.ndim)).foldl max 1 ∧
        5 ≤ (m.wt c.w c.t).restored ∧ c.coordViolators (m.world c.w) 15 250 = []))) := by decide +kernel

/-- k1 holds an address in a mapped page of field 0. -/
def g3 : Machine.Group := grp [(1, 0x20000)] [(0, thr [])]

theorem wit_StoresComplete :
    wit (memForm 12 (mm1 .b4).base (DataReg.vecs .b4 (.vec 2)) [] (DataReg.unis (.vec 2))) g3 (mapped 0x20000) (fun c m => decide (5 ≤ (m.wt c.w c.t).restored ∧
      (m.checkAll c .write 4 0 (c.ex.map fun (l, th) => { wantOf c.g l th (mm1 .b4) with data := dataBytes c.g th (.vec 2) .b4 })).miss = [] ∧
      (m.checkAll c .write 4 0 (c.ex.map fun (l, th) => { wantOf c.g l th (mm1 .b4) with data := dataBytes c.g th (.vec 2) .b4 })).bad = [])) &&
    wit (memForm 12 (mm1 .b4).base (one 3 ++ DataReg.vecs .b4 (.vec 2)) [] (DataReg.unis (.vec 2))) g3 (mapped 0x20000) (fun c m => decide ((m.checkAll c .write 4 0 (c.ex.map fun (l, th) => { gatherWant c (mm1 .b4) true 4 3 l th with data := dataBytes c.g th (.vec 2) .b4 })).miss = [] ∧
      (m.checkAll c .write 4 0 (c.ex.map fun (l, th) => { gatherWant c (mm1 .b4) true 4 3 l th with data := dataBytes c.g th (.vec 2) .b4 })).bad = [])) &&
    wit { srcForm 16 (one 3 ++ one 2) with also := [(3, 1)] } (grp [] [(0, { thr [] with h := [(15, 1)] })])
      (fun m => mapped 0x20000 (inWorld (fun w => { w with tensors := [(0x10001, { valid := true, base := 0x20000, fmt := 0, ndim := 1, shape := [4], stride := [4] })] }) m))
      (fun c m => decide (5 ≤ (m.wt c.w c.t).restored ∧ c.coordViolators (m.world c.w) 15 3 = [] ∧
        (c.ex.filterMap fun (l, th) => sttWant false 2 l th (tensorLane .write (m.world c.w) c.g th 15 3 3 0)).length = 1 ∧
        ∀ q ∈ c.ex.filterMap fun (l, th) => sttWant false 2 l th (tensorLane .write (m.world c.w) c.g th 15 3 3 0),
          (m.checkAll c .write q.1 0 [q.2]).miss = [] ∧ (m.checkAll c .write q.1 0 [q.2]).bad = [])) &&
    wit { memForm 12 (mm1 .b4).base (DataReg.vecs .b4 (.vec 3)) (one 2) [] with nonIdem := true, region := true } { g3 with wait := .result 9 }
      (fun m => { m with acc := [acc 8 9 .stc (.done true 0) (some (.status false))] })
      (fun c m => decide (c.g.wait = .result 9 ∧ m.accOf c.g 9 ≠ [] ∧ (m.accOf c.g 9).all (·.settled) = true ∧ (m.accOf c.g 9).filterMap Access.fault? = [])) := by
  decide +kernel
/-- The group's store of a line of counter 0, on its way to field 0. -/
def storing (m : M) : M := { m with acc := [{ acc 8 9 .store (.home 0) none with ctr := 0, keep := false }] }

theorem wit_FencesAndCachesComplete :
    wit (srcForm 16 [] [63]) g1 id (fun c m => let s := [(Item.handle 15), .range 63 0].flatMap fun it => m.itemSpans c it
      decide (c.g.wait = .none ∧ m.fenceWaits c (m.selected c.g s) .ar .system = [])) &&
    wit (srcForm 16 [] [1]) g3 storing (fun c m => let s := [Item.range 1 0].flatMap fun it => m.itemSpans c it
      decide (c.g.wait = .none ∧ m.fenceWaits c (m.selected c.g s) .rel .group = [8])) &&
    wit (srcForm 16 [] [63]) { g1 with wait := .request .fence true } id (fun c _ => decide (c.g.wait = .request .fence true)) &&
    wit (srcForm 8 []) g1 id (fun c m => decide (c.g.wait = .none ∧ m.fenceWaits c (List.range 8) .ar .system = [])) &&
    wit (srcForm 8 []) { g1 with wait := .request .fence true } id (fun c _ => decide (c.g.wait = .request .fence true)) &&
    wit { srcForm 12 [] [63] with once := true } g1 id (fun c m => m.counterIdle c.g 7) &&
    wit { srcForm 8 [] with once := true } g1 id (fun c m => m.counterIdle c.g 1) &&
    ([0, 255].all fun n => wit (memForm 12 (.uni 1) [] [] []) g3 id (fun c m =>
      let ls := linesOf c (.uni 1) 0 n
      !(((m.flushLines c ls).flush c.w c.t (ls.map fun l => { lo := l, hi := l })).acc.any fun x =>
        x.group == c.g.uid && !x.kind.isLoad && !x.settled && ls.contains (x.va / 64)))) := by decide +kernel

/-- A group whose stack pointer stands 16 bytes above its limit. -/
def gs : Machine.Group := { grp [(62, 0x1234), (63, 0x30010)] [(0, thr [])] with limit := 0x30000, span := 0x2000000040 }

theorem wit_FramesComplete :
    wit { srcForm 12 [] [62, 63] with once := true, touch := [5] } gs (mapped 0x30000) (fun c m =>
      let r := m.checkAll c .write 8 0 (c.ex.map fun (l, th) => { wantAt c.g l th true (c.g.kr 63 - 8).toNat 8 with data := natBytes 8 (c.g.kr 62).toNat })
      decide (c.g.kr 63 &&& 15#64 = 0 ∧ c.g.limit.toNat ≤ (c.g.kr 63 - (16 : BitVec 24).setWidth 64).toNat ∧ r.miss = [] ∧ r.bad = [] ∧ r.go.length = 1)) &&
    wit { srcForm 12 [] [62, 63] with once := true, touch := [5] } { gs with wait := .result 9 }
      (fun m => { m with acc := [acc 8 9 .load (.done true 0) (some (.data [0, 1, 0, 0, 0, 0, 0, 0]))] }) (fun c m =>
      decide (c.g.wait = .result 9 ∧ (m.accOf c.g 9).map (·.id) = [8] ∧ (m.accOf c.g 9).all (fun x => x.settled && x.res.isSome) = true)) := by
  decide +kernel

/-- World 0 with a valid tensor at index 65535. -/
def tensored : M → M := inWorld fun w => { w with tensors := [(65535, { valid := true })] }

theorem wit_TensorHandlesComplete :
    wit { srcForm 12 [] [1] with nonIdem := true, region := true, once := true } (grp [(1, 65535)] [(0, thr [])]) tensored
      (fun c m => decide ((c.g.kr 1).toNat = 65535 ∧ c.g.wait = .none ∧ ((m.world c.w).tensor 65535).isSome = true)) &&
    wit { srcForm 12 [] [1] with nonIdem := true, region := true, once := true } { grp [(1, 1)] [(0, thr [])] with wait := .table true } id
      (fun c _ => decide ((c.g.kr 1).toNat = 1 ∧ c.g.wait = .table true)) &&
    wit { srcForm 12 [] [1, 2] with nonIdem := true, region := true, once := true } { grp [(1, 1)] [(0, thr [])] with wait := .table true } id
      (fun c _ => decide ((c.g.kr 1).toNat = 1 ∧ c.g.wait = .table true)) &&
    wit { srcForm 8 [] with nonIdem := true, region := true, once := false } g1 id (fun _ _ => true) &&
    wit { srcForm 8 [] with nonIdem := true, region := true, once := true } { g1 with wait := .table true } id (fun c _ => decide (c.g.wait = .table true)) := by
  decide +kernel

/-- The 128 bytes of a descriptor of one dimension. -/
def descBytes : List Byte := (List.range 128).map fun i => BitVec.ofNat 8 (if i = 8 then 0x10 else if i = 9 then 0x02 else if i = 32 then 1 else 0)

theorem wit_TensorTableChanges :
    wit { srcForm 12 [] [1] with nonIdem := true, region := true, once := true } { grp [(1, 65535)] [(0, thr [])] with wait := .request .fence true } tensored
      (fun c m => decide (c.g.wait = .request .fence true ∧ ((m.world c.w).entry 65535).map (·.valid) = some true)) &&
    wit { srcForm 12 [] [1, 2] with nonIdem := true, region := true, once := true } { grp [(1, 1)] [(0, thr [])] with wait := .result 9 }
      (fun m => { m with acc := [acc 8 9 .load (.done true 0) (some (.data descBytes))] })
      (fun c m => decide (c.g.wait = .result 9 ∧ (m.accOf c.g 9).length = 1 ∧ (m.accOf c.g 9).all (·.settled) = true ∧ (m.accOf c.g 9).filterMap Access.fault? = [] ∧
        (m.world c.w).tensor 1 = none) && (m.world c.w).accepts (parseTensor descBytes).1 (parseTensor descBytes).2) &&
    wit { srcForm 8 [] with nonIdem := true, region := true, once := true }
      { grp [] [(0, { thr [] with h := [(15, 65535)] })] with wait := .request .fence true } tensored
      (fun c m => decide (c.g.wait = .request .fence true ∧ m.closing c 15 ≠ [])) &&
    wit { srcForm 12 [] [1, 2] with nonIdem := true, region := true, once := true } { grp [(1, 65535)] [(0, thr [])] with wait := .request .fence true }
      tensored (fun c m => decide (c.g.wait = .request .fence true) && ((m.world c.w).entry 65535).isSome) &&
    (let m := inWorld (fun w => { w with changes := [(0, 0)] }) (mOf { g1 with wait := .table false })
     (m.world 0).changes == [(0, 0)] && ((look (m.wt 0 0).groups 0).map (·.wait)) == some (.table false)) := by decide +kernel

theorem wit_SlabsComplete :
    wit { srcForm 12 [] [1] with nonIdem := true, region := true, once := true, touch := [1] } (grp [(1, 16)] [(0, thr [])])
      (inTeam fun tm => { tm with scratchLen := 16 + footprint 7 8 })
      (fun c m => decide (((m.wt c.w c.t).slab 255).st = .empty ∧ (c.g.kr 1).toNat % 16 = 0 ∧
        (c.g.kr 1).toNat + footprint 7 8 ≤ ((look m.teams c.g.team).map (·.scratchLen)).getD 0)) &&
    wit { srcForm 12 [] [1] with nonIdem := true, region := true, once := true, touch := [1] } g1
      (inWT fun wt => { wt with claims := [(0, 2)] })
      (fun c m => decide ((c.g.kr 1).toNat % 2 ^ 20 + footprint 0 16 ≤ 2048 * 128 ∧ ∀ i ∈ slotsOf 0 (footprint 0 16), look (m.wt c.w c.t).claims i = some c.g.team)) &&
    wit { srcForm 12 [] [] with nonIdem := true, region := true, once := true, touch := [1] } g1 (inWT fun wt => wt.setSlab 255 { st := .ready, owner := 0xFF })
      (fun c m => let e := (m.wt c.w c.t).slab 255
        decide (e.st = .ready ∧ e.owner = 0xFF ∧ (m.wt c.w c.t).passReads e = false)) &&
    wit { regForm 12 252 (Sz.regs .b16) (one 3) with touch := [1, 4] } g1 (inWT fun wt => wt.setSlab 255 { st := .ready, size := 16 })
      (fun c m => let e := (m.wt c.w c.t).slab 255
        decide (e.st = .ready) && c.ex.all fun x => match slabLane .read e 16 x.1 x.2 3 0 with
          | .inr o => !m.windowAhead c true 16 x.2 (.inr o)
          | .inl _ => false) &&
    wit { srcForm 12 (one 3 ++ DataReg.vecs .b1 (.vec 4)) [] with touch := [1, 4] } g1 (inWT fun wt => wt.setSlab 0 { st := .ready, size := 16 })
      (fun c m => let e := (m.wt c.w c.t).slab 0
        decide (e.st = .ready) && c.ex.all fun x => match slabLane .write e 1 x.1 x.2 3 15 with
          | .inr o => !m.windowAhead c false 1 x.2 (.inr o)
          | .inl _ => false) &&
    wit { regForm 8 252 4 [] with touch := [1] } g1 id (fun _ _ => true) := by decide +kernel

theorem wit_CrossLaneCompletes :
    (∀ f ∈ [srcForm 8 [], regForm 8 255 1 [], srcForm 8 (one 255), regForm 8 255 1 (one 254 ++ (Src.imm 31).vecs), regForm 8 255 1 (one 254),
      regForm 8 255 1 (one 254 ++ one 253)], IssuesSeq h0 f (stOf (mOf g2)) (cOf h0 g2)) := by decide +kernel

theorem wit_SpawnAndMeetComplete :
    wit { srcForm 12 [(254, 2), (248, 8)] with nonIdem := true, region := true, touch := [5] } g1 id
      (fun c m => (m.wt c.w c.t).creates ((m.wt c.w c.t).needOf c.g.team c.g.k (c.ex.length * entryBytes 8))) &&
    wit { len := 12, nonIdem := true, region := true, once := true, touch := [5] } g1 id
      (fun c _ => decide (c.g.pc.setWidth 64 + (0xFFFF0000 : W32).signExtend 64 = 0)) &&
    wit { len := 12, nonIdem := true, region := true, once := true, touch := [5] } g2 id
      (fun c m => decide ((c.ex.map fun (_, th) => th.meet).eraseDups = [0]) && (m.wt c.w c.t).freeMeets.head?.isSome) := by decide +kernel

theorem wit_BarriersComplete :
    let f : Form := { len := 8, waits := true, nonIdem := true, region := true, once := true, touch := [1] }
    wit f g1 id (fun c m => decide (c.g.wait = .none) && !c.again 15 && (m.arriveBar c false 15).barDone false c.g.team 15 (m.barPhase false c.g.team 15)) &&
    wit f g1 id (fun c m => !c.again 0 && (m.arriveBar c true 0).barDone true c.g.team 0 (m.barPhase true c.g.team 0)) &&
    wit f { g1 with wait := .arrived false 15 0 } (inTeam fun tm => { tm with barriers := [(15, { count := 1 })] })
      (fun c m => decide (c.g.wait = .arrived false 15 0) && m.barDone false c.g.team 15 0) &&
    wit { regForm 8 255 1 [] with waits := true, nonIdem := true, region := true, once := true, touch := [1] } g1 id (fun c _ => !c.again 15) &&
    wit { srcForm 8 (one 3) with waits := true, once := true, touch := [1] } (grp [] [(0, thr [(3, 0xFFFFFFFF)])]) id (fun c m =>
      decide (∀ x ∈ c.ex, 1 ≤ (m.barCount false c.g.team 15 - x.2.xr 3).toNat ∧ (m.barCount false c.g.team 15 - x.2.xr 3).toNat < 2 ^ 31)) := by
  decide +kernel

theorem wit_AllotmentCompletes :
    let f : Form := { len := 8, waits := true, waitsAll := true, nonIdem := true, region := true, once := true, touch := [1] }
    wit f { g1 with allot := 8 } id (fun c m => decide (c.g.wait = .none ∧ c.g.allot + 248 ≤ 256 ∧ 248 ≤ m.freeRows c.w c.t ∧
      ((m.wt c.w c.t).insReq (.grow c.slot 248 (m.tile c.t).cycle) (m.wt c.w c.t).growq).head? = some (.grow c.slot 248 (m.tile c.t).cycle))) &&
    wit f { g1 with wait := .request .grow true } id (fun c _ => decide (c.g.wait = .request .grow true)) &&
    wit f g1 id (fun c _ => decide (248 + 8 ≤ c.g.allot)) &&
    (let m := inWT (fun wt => { wt with growq := [.grow 0 8 7] }) (mOf { g1 with allot := 8 })
     decide ((m.tile 0).latch = some 0 ∧ 1 ≤ (m.wt 0 0).restored ∧ (m.wt 0 0).growq = [.grow 0 8 7] ∧ 8 ≤ m.freeRows 0 0 ∧ (look (m.wt 0 0).groups 0).isSome = true)) := by
  decide +kernel

theorem wit_DrawsComplete :
    (∀ f ∈ [{ regForm 8 255 1 [] .exOnly with nonIdem := true, region := true }, { regForm 8 255 1 (Opd64.vecs (.pair 254)) .exOnly with uni := [] },
      { len := 8, vec := [(254, 2)] }, { len := 8, vec := [(255, 1)] }, { len := 8, uni := [63] }], IssuesSeq h0 f (stOf (mOf g1)) (cOf h0 g1)) := by
  decide +kernel

/-- The one launch belongs to the handler queue. -/
def handles : M → M := inLaunch fun l => { l with handler := true }

theorem wit_SystemCompletes :
    let hd (c : Ctx) (m : M) : Bool := ((m.launchOf c.g.team).map (·.2.handler)) == some true
    let rf : Form := { srcForm 8 (one 255) with waits := true }
    let tok (p : Bool) (m : M) : M := inWT (fun wt => { wt with parked := if p then [(5, { token := 5, team := 2, ths := [] })] else [] })
      (inWorld (fun w => { w with tokens := [(5, { tile := 0, launch := 3 })] }) (handles m))
    let g5 : Machine.Group := grp [] [(0, thr [(255, 5)])]
    let gone (c : Ctx) (m : M) : Bool := c.ex.all fun x => (look (m.world 0).tokens (x.2.xr 255).toNat).isSome &&
      (look (m.wt 0 0).parked (x.2.xr 255).toNat).isNone
    let waits (c : Ctx) : Bool := match c.g.wait with
      | .ended _ => true
      | _ => false
    wit rf g5 (tok true) (fun c m => hd c m && !waits c && !gone c m) && wit rf g5 (tok false) (fun c m => hd c m && !waits c && gone c m) &&
    wit rf { g5 with wait := .ended [(0, 5)] } (tok false) (fun c m => waits c && gone c m) &&
    wit { len := 8, nonIdem := true } g1 id (fun _ _ => true) &&
    wit { len := 8, waits := true, nonIdem := true, region := true } g1 id (fun c m => decide (m.partOf c.t = some 0 ∧ (m.part 0).latched = some c.w)) &&
    wit { len := 8, waits := true } g1 id (fun _ _ => true) &&
    wit (wideForm 12 (.uni 63) [] []) g1 id (fun _ _ => true) &&
    wit { srcForm 12 (Opd64.vecs (.pair 254)) [] with nonIdem := true, region := true, once := true } g1 handles hd &&
    wit { wideForm 8 (.uni 63) [] [0] with touch := [7] } g1 id (fun _ _ => true) &&
    wit { regForm 8 240 16 [] with uni := [63], once := true } g1 handles (fun c m => hd c m &&
      decide (((m.world c.w).tqtail - (m.world c.w).tqhead).toNat ≤ ((c.g.kr 63).extractLsb' 0 11 - (m.world c.w).tqhead).toNat)) &&
    wit { regForm 8 240 16 [] with uni := [63], once := true } g1 (fun m => inWorld (fun w => { w with tqtail := 1024 }) (handles m)) (fun c m => hd c m &&
      decide (((c.g.kr 63).extractLsb' 0 11 - (m.world c.w).tqhead).toNat < ((m.world c.w).tqtail - (m.world c.w).tqhead).toNat) &&
      (m.fieldRead ((m.world c.w).slotKey 0) 64 c.w 0 0 0).1.isSome) := by decide +kernel

theorem wit_TrapTaken :
    wit { len := 8, waits := true, nonIdem := true, region := true } g2 id (fun c m => m.hasRoom c.w c.t c.slot ((m.wt c.w c.t).roomFor c.g c.ex.length) &&
      !c.g.anyLL && c.g.late.isEmpty && decide (5 ≤ (m.wt c.w c.t).restored ∧ (∀ x ∈ c.ex, x.1 < 32) ∧ (c.g.lanes.map (·.1)).Nodup) &&
      (look (m.wt c.w c.t).parked (m.world c.w).nextTok).isNone) := by
  decide +kernel

/-- A leaf for the page at va in the memory of module 1, which can be reached. -/
def mappedFar (va : Nat) (m : M) : M :=
  let m1 : M := { m with hearth := { m.hearth with modid := some 0, linkUp := [47], whmask := [(1, 1#64 <<< 47)] } }
  (inWorld (fun w => { w with peers := [(1, 1#64 <<< 63)] }) m1).tlbPut 0 0 va
    { level := 3, frame := 0, homek := 2, homeid := 1, nc := false, fp := false, x := true, ro := false, key := 0 }

theorem wit_FabricCompletes :
    wit (regForm 8 255 1 (one 254)) g1 id (fun _ _ => true) &&
    wit (sendForm 252 .b16 []) g1 (inWT fun wt => { wt with routes := [(63, { v := true })] }) (fun c m => let r := mget {} (m.wt c.w c.t).routes 63
      decide (m.det c.g.team = false ∧ r.v = true ∧ m.current (m.worldPart c.w) r.dest = true ∧
        m.heldAtSource (m.worldPart c.w) .message (some 63) c.t (keyOfName r.dest) = false)) &&
    ([false, true].all fun stop => wit (sendForm 255 .b4 [63]) (grp [(63, 0x80)] [(0, thr [])]) (fun m =>
        { inPart (fun p => { p with tiles := [0, 1] }) m with
          stops := if stop then [(linkKey 1 (sideOf 1 0) (vcOf .message none (0, 0) (1, 1)), true)] else [] }) (fun c m =>
      let d := (c.g.kr 63).extractLsb' 0 32
      !m.det c.g.team && m.current (m.worldPart c.w) d && m.heldAtSource (m.worldPart c.w) .message none c.t (keyOfName d) == stop)) &&
    wit { len := 12, vec := (252, Sz.regs .b16) :: [(251, 1)], nonIdem := true, once := true } g1 id (fun c m => !m.det c.g.team) &&
    wit { memForm 12 (.uni 1) [] (DataReg.vecs .b8 (.vec 254)) [] with nonIdem := true } g3 id (fun c m => decide (5 ≤ (m.wt c.w c.t).restored)) &&
    wit { memForm 12 (.uni 1) (DataReg.vecs .b4 (.vec 2)) [] [] with nonIdem := true, region := true } g3 (mappedFar 0x20000) (fun c m =>
      let r := m.checkAll c .write 4 2 (c.ex.map fun (i, th) =>
        { wantAt c.g i th (isStack (.uni 1)) (effAddr c.g th (.uni 1) 0).toNat 4 with data := dataBytes c.g th (.vec 2) .b4 })
      decide (5 ≤ (m.wt c.w c.t).restored ∧ r.miss = [] ∧ r.bad = [] ∧ r.go.length = 1)) &&
    wit { memForm 12 (.uni 1) (DataReg.vecs .b8 (.vec 4) ++ DataReg.vecs .b8 (.vec 6)) (DataReg.vecs .b8 (.vec 2)) [] with nonIdem := true } g3 id (fun c m =>
      decide (5 ≤ (m.wt c.w c.t).restored ∧ m.det c.g.team = false)) := by decide +kernel

theorem wit_ClaimsComplete :
    wit { engineForm 8 [] 1 with nonIdem := true, region := true, acc := [] } g1 id (fun c m =>
      decide (∀ k ∈ rangeKeys (.slots 0 127), look (m.wt c.w c.t).claims k = none)) &&
    wit { engineForm 8 [] 1 with nonIdem := true, region := true, acc := rangeTiles (.tiles 63 0) } g1 (inWT fun wt => { wt with claims := [(191, 2)] })
      (fun c m => decide (c.g.wait = .none ∧ ∀ k ∈ rangeKeys (.tiles 63 0), look (m.wt c.w c.t).claims k = some c.g.team ∧
        (k < 128 → (m.wt c.w c.t).slabOn k = false) ∧ (m.wt c.w c.t).busyKey k = false)) &&
    (let m := inWT (fun wt => { wt with claims := [(0, 2), (1, 9)], rels := [(0, [0, 1])] }) (mOf g1)
     decide ((m.tile 0).latch = some 0 ∧ (m.wt 0 0).rels.find? (·.1 == 0) = some (0, [0, 1]) ∧ ([0, 1].all (fun k => !(m.wt 0 0).busyKey k)) = true ∧
       (look (m.wt 0 0).groups 0).isSome = true)) := by decide +kernel

/-- The team holds tiles 62 and 63, of which 63 is finished with format 1; slots 0 and 1 too. -/
def holding : M → M :=
  inWT fun wt => { wt with claims := [(0, 2), (1, 2), (128, 2), (190, 2), (191, 2)], accs := [(63, { fin := true, afmt := 1, pres := 1 })] }

theorem wit_TileOperationsAccepted :
    wit { anvilForm 8 [] [] [] [62, 63] 3 with once := true } g1 holding
      (fun c m => decide (c.g.wait = .none ∧ (m.wt c.w c.t).anvilq = [] ∧ m.anvilTakes c.w c.t 0 = true) &&
        [62, 63].all fun t => decide (look (m.wt c.w c.t).claims (128 + t) = some c.g.team)) &&
    wit (anvilForm 8 [(252, 4)] [] [] [63] 3) g1 holding (fun c m => decide (look (m.wt c.w c.t).claims (128 + 63) = some c.g.team)) &&
    wit (anvilForm 8 [(252, 4)] [(252, 4)] [] [62] 3) g1 holding (fun c m => decide (((m.wt c.w c.t).ahead.accTile 62).pres = 0)) &&
    wit (anvilForm 8 [(252, 4)] [(252, 4)] [] [63] 3) g1 holding (fun c m => decide (((m.wt c.w c.t).ahead.accTile 63).afmt = 1)) &&
    wit { anvilForm 8 (one 255) (one 255) [] [62] 3 with once := true } g1 holding (fun c m => decide (look (m.wt c.w c.t).claims (128 + 62) = some c.g.team)) &&
    wit { anvilForm 8 [] [] [] [62, 63] 3 with nonIdem := true, region := true, once := true } g1 holding (fun c m => let a := (m.wt c.w c.t).ahead
      decide ((a.accTile 63).fin = true ∧ (a.accTile 63).afmt ≠ 0 ∧ (a.accTile 62).forbids (a.accTile 63).afmt = false ∧ (0 + 1) * 2 ^ 5 ≤ 32)) &&
    wit { anvilForm 8 [] [] [] [63] 3 with once := true } g1 holding (fun c m => decide (c.g.wait = .none ∧ m.anvilTakes c.w c.t 0 = true)) := by
  decide +kernel

/-- The lanes of two quarters, with tile 62 and 63, A slot 0 and B slot 1; x5 holds the format word. -/
def gq (fw : W32) : Machine.Group :=
  grp [(1, 127)] [(0, thr [(2, 0x3E000100), (5, fw)]), (8, thr [(2, 0x3F000100), (5, fw)])]

theorem wit_OperandsAndProductsAccepted :
    let pw (tern : Bool) (fw : W32) (m : M) : Bool :=
      let c := cOf h0 (gq fw)
      let qs : List Quarter := (activeQuarters c.ex).map fun (q, th) => quarterOf q th 1 2 6 0
      decide (qs.map (·.tile) = [62, 63] ∧ c.g.wait = .none ∧ (m.wt 0 0).anvilq = [] ∧ m.anvilTakes 0 0 (occupancy tern fw qs) = true ∧
        (m.wt 0 0).slabsReady (qs.flatMap fun q => q.slots fw) = true ∧ (mmaCheck tern .ex (m.wt 0 0) (m.wt 0 0).ahead c fw 5 6 qs).isNone = true)
    let regs : List (Nat × Nat) := one 1 ++ one 2 ++ [(6, 2)] ++ one 5
    let hold : M → M := inWT fun wt => { wt with claims := [(0, 2), (1, 2), (190, 2), (191, 2)] }
    wit (anvilForm 8 [(8, 4)] [(8, 4)] [1] [] 3) (gq 0) hold (fun c m => decide ((m.wt c.w c.t).slabsReady [0] = true ∧
      ofillSlots (m.wt c.w c.t) c.g.team 0 (16 * (((c.g.kr 1).extractLsb' 0 8).toNat + (c.ex.map (·.1)).foldl max 0) + 16) = some [0, 1] ∧
        (m.wt c.w c.t).anvil = [])) &&
    wit { anvilForm 16 regs regs [] [62, 63] 3 with mark := .all, nonIdem := true, touch := [3] } (gq 0x33) hold (fun _ m => pw false 0x33 m) &&
    wit { anvilForm 16 regs regs [] [62, 63] 3 with mark := .exOnly, nonIdem := true, touch := [3] } (gq 0x6CA) hold (fun _ m => pw true 0x6CA m) := by
  decide +kernel

theorem wit_AnvilStepsHappen :
    (let m := inWT (fun wt => { wt with anvilq := [{ slot := 0, group := 1, occ := 64 }] }) (mOf { g1 with wait := .request .engine false })
     decide ((m.tile 0).latch = some 0 ∧ (m.wt 0 0).anvilq = [{ slot := 0, group := 1, occ := 64 }] ∧
       (look (m.wt 0 0).groups 0).map (fun g => (g.uid, g.wait)) = some (1, .request .engine false) ∧ m.anvilTakes 0 0 64 = true)) &&
    (let q : Quarter := { q := 0, tile := 62, a := 0, b := 1, scale := 0, aspan := 0, bspan := 0, k := 0 }
     [[q], [q, { q with q := 1, tile := 63 }]].all fun qs =>
       let op : AnvilOp := { id := 5, slot := 0, group := 1, op := 4, fin := 0, slots := [0, 1], tiles := [62, 63], work := .mma false .ex 0x33 qs [] }
       let m := inWT (fun wt => { wt with anvil := [op] }) (mOf g1)
       decide ((m.tile 0).latch = some 0 ∧ (m.wt 0 0).anvil = [op] ∧ op.work = .mma false .ex 0x33 (q :: qs.drop 1) [] ∧ op.fin ≤ (m.tile 0).cycle)) := by
  decide +kernel

theorem wit_EngineInstructionsComplete :
    let eng (len : Nat) (us : List Nat) : Form := { engineForm len us 1 with nonIdem := true, region := true }
    wit (eng 12 [1]) { g3 with wait := .request .engine true } id (fun c _ => decide (c.g.wait = .request .engine true)) &&
    wit (eng 12 [1]) g3 (mapped 0x20000) (fun c m =>
      let node := (c.g.kr 1 + (64 : W32).signExtend 64).toNat
      decide (c.g.wait = .none ∧ c.ex.head?.isSome = true ∧ m.det c.g.team = false ∧ node % 64 = 0) && match m.placeOf c node 8 .write with
        | .miss => false
        | .bad code _ => decide (code ≠ .translation)
        | _ => true) &&
    wit (eng 12 [1]) (grp [(1, 0xFF000000000000)] [(0, thr [])]) (fun m => inLaunch (fun l => { l with lr := { l.lr with det := true } })
        (inTeam (fun tm => { tm with scratchLen := 524288 }) m)) (fun c m =>
      m.det c.g.team && m.inTeamWindow c.g.team (c.g.kr 1 + (0x7FFC0 : W32).signExtend 64).toNat) &&
    wit (eng 8 []) { g1 with wait := .request .engine true } id (fun c _ => decide (c.g.wait = .request .engine true)) &&
    ([false, true].all fun some' => wit (eng 8 []) g1 (fun m => if some' then { m with acc := [acc 8 9 .store .cached none] } else m) (fun c m =>
      decide (c.g.wait = .none) && ((m.acc.filter fun x => x.group == c.g.uid && !x.kind.isLoad).map (·.id) != []) == some')) &&
    wit { eng 8 [63] with vec := [], src := [] } g1 id (fun _ _ => true) &&
    wit { engineForm 8 [] 1 with nonIdem := true, sem := [63] } g1 id (fun _ _ => true) &&
    wit { eng 8 [] with sem := [63] } g1 id (fun _ _ => true) &&
    wit { engineForm 8 [] 1 with vec := Opd64.vecs (.pair 254), sem := [0] } g1 id (fun _ _ => true) := by decide +kernel

theorem wit_PilotServesRequests :
    let m (r : PilotReq) (k : Chain) : M := inTile (fun tl => { tl with cycle := 8 })
      (mapped 0x20000 (inWT (fun wt => (WT.setChain { wt with pilotq := [r] } 15 k)) (mOf { g1 with wait := .request .engine false })))
    let adv : PilotReq := { slot := 0, group := 1, lane := 0, ch := 15, node := none, at' := 7 }
    let link : PilotReq := { adv with node := some 0x20040 }
    let there (m : M) (r : PilotReq) : Prop := m.rowWorld 0 1 = some 0 ∧ (m.wt 0 0).pilotq = [r] ∧
      (look (m.wt 0 0).groups 0).map (fun g => (g.uid, g.team)) = some (1, 2) ∧ (m.tile 0).served = false ∧ r.at' < (m.tile 0).cycle
    let c : Ctx := { t := 0, w := 0, slot := 0, g := { g1 with wait := .request .engine false }, ex := [(0, thr [])] }
    let placed (m : M) (a : Nat) : Bool := match ((m.setWT 0 0 { m.wt 0 0 with pilotq := [] }).setTile 0 { m.tile 0 with served := true }).linkPlace
        c (thr []) [] a with
      | some (.inr _) => true
      | _ => false
    let refused (m : M) (a : Nat) : Bool := match ((m.setWT 0 0 { m.wt 0 0 with pilotq := [] }).setTile 0 { m.tile 0 with served := true }).linkPlace
        c (thr []) [] a with
      | some (.inl _) => true
      | _ => false
    (∀ o ∈ [none, some 2, some 7], let m := m adv { owner := o, ltail := 64 }
      there m adv ∧ ((m.wt 0 0).chain 15).owner = o) ∧
    (let r := { link with node := some 0xFF000000000000 }
     there (m r {}) r ∧ (((m r {}).wt 0 0).chain 15).owner = none ∧ refused (m r {}) 0xFF000000000000 = true) ∧
    (∀ o ∈ [none, some 2, some 7], let m := m link { owner := o, ltail := 0x20000 }
      there m link ∧ ((m.wt 0 0).chain 15).owner = o ∧ ((m.wt 0 0).chain 15).ltail ≠ 0 ∧ placed m 0x20040 = true ∧ placed m 0x20000 = true) := by
  decide +kernel

/-- A chain of team 2 on channel 15 with the nodes ns. -/
def chained (ns : List NodeSt) (f : Chain → Chain) : M → M := inWT fun wt => wt.setChain 15 (f { owner := some 2, nodes := ns, atail := 0x20000 })

/-- A node that the pilot has reached. -/
def node (k : Nat) (f : NodeRec → NodeRec) : NodeSt := { addr := 0x20000, uid := 77, nd := f { kind := k, next := 0x20040 }, descs := [] }

/-- The first line of field memory holds bytes, and the page at 0x20000 shows it. -/
def lined (bs : List Byte) (m : M) : M := ((mapped 0x20000 m).fieldWrite 0 bs 0 0 0 0).getD m

/-- The dwords of a COND node on condition word 15, with a sub-chain. -/
def condBytes : List Byte := [0#64, 0xF2#64, 0#64, 0x40#64, 0#64, 0#64, 0#64, 0#64].flatMap fun w => natBytes 8 w.toNat

/-- One Waiting thread. -/
def waiting : Waiting := { th := thr [], pc := 0x10000, allot := 8, l := 0, team := 2, urec := 0, born := 9 }

theorem wit_NodesAct :
    let works (m : M) : Bool := m.pilotWorld 0 == some 0 && ((m.wt 0 0).chain 15).owner == some 2
    let first (m : M) (k : Nat) : Bool := m.pilotWorld 0 == some 0 && (((m.wt 0 0).chain 15).nodes.head?).map (·.nd.kind) == some k
    let acted (m : M) : M := m.setWT 0 0 ((m.wt 0 0).setChain 15 { ((m.wt 0 0).chain 15).updNode 77 (fun n => { n with joinMade := true, dispatched := true })
      with seq := ((m.wt 0 0).chain 15).seq + 1 })
    let signal (a : W64) (f : NodeSt → NodeSt) : M := inTeam (fun tm => { tm with scratchLen := 8 })
      (mapped 0x20000 (chained [f (node 5 fun n => { n with a := a, b := 63, irq := true })] id (mOf g1)))
    ([condBytes, List.replicate 64 0xFF#8].map fun bs => let m := lined bs (chained [] (fun c => { c with walk := 0x20000 }) (mOf g1))
     works m && ((m.wt 0 0).chain 15).mayReach && (match (m.readNode 0 0 2 [] 0x20000).1 with
       | .node nd ds => some (nd.kind, ds.length) == some (2, 0)
       | .bad .illegalEncoding _ => bs == List.replicate 64 0xFF#8
       | _ => false)) == [true, true] &&
    (let m := chained [node 1 fun n => { n with count := 33, regs := 8 }] id (mOf g1)
     works m && first m 1 && ((m.wt 0 0).chain 15).nodes.all fun n => decide (((m.wt 0 0).chain 15).halted = false ∧ n.dispatched = false ∧
       n.nd.nin ≤ n.begun.length ∧ (∀ k ∈ m.copies, k.node ≠ n.uid) ∧ ∀ d ∈ n.descs, ((m.wt 0 0).slab d.slab).st = .ready)) &&
    (let m := inWT (fun wt => wt.setSlab 3 { st := .ready }) (chained [{ node 1 (fun n => { n with count := 1, regs := 8 }) with
       dispatched := true, spawned := 1, descs := [{ slab := 3 }] }] id (mOf g1))
     works m && first m 1 && ((m.wt 0 0).chain 15).nodes.all fun n => decide (n.dispatched = true ∧ n.finishing = false ∧ n.nd.count ≤ n.spawned ∧
       n.live = 0 ∧ (∀ x ∈ m.acc, x.id ∉ n.stores) ∧ ((m.wt 0 0).chain 15).halted = false ∧ n.descs.length = 1 ∧
       ∀ d ∈ n.descs, ((m.wt 0 0).slab d.slab).st = .ready ∧ (m.wt 0 0).passReads ((m.wt 0 0).slab d.slab) = false)) &&
    ([2, 3].all fun k => [0, 4].all fun d =>
     let m := chained [node k fun n => { n with b := 0x40 }] (fun c => { c with ret := List.replicate d (0, {}) }) (mOf g1)
     first m k && ((m.wt 0 0).chain 15).nodes.all fun n => decide (((m.wt 0 0).chain 15).halted = false ∧
       nodeCond (m.wt 0 0) n.nd = true ∧ n.nd.b ≠ 0 ∧ ((m.wt 0 0).chain 15).ret.length = d)) &&
    ([2, 3].all fun k => let m := chained [node k fun n => { n with a := 1, b := 0x40 }] id (mOf g1)
     first m k && ((m.wt 0 0).chain 15).nodes.all fun n => !nodeCond (m.wt 0 0) n.nd) &&
    (let m := chained [node 4 fun n => { n with a := 1 }] id (mOf g1)
     first m 4 && ((m.wt 0 0).chain 15).nodes.all fun n => decide (n.joinMade = false ∧ ((m.wt 0 0).chain 15).halted = false)) &&
    ([(0xFF000000000000#64, 0), (0x20000, 0), (0xFF000000000008, 1)].all fun (a, k) => let m := signal a id
     works m && first m 5 && !m.chainOpen 0 0 15 && match ((acted m).signalStore 0 0 2 15 a.toNat 1 (some 63) []).1 with
       | .done 0 => k == 0
       | .bad _ _ => k == 1
       | _ => false) &&
    (let m := inLaunch (fun l => { l with lr := { l.lr with det := true } }) (signal 0x20000 id)
     works m && first m 5 && match ((acted m).signalStore 0 0 2 15 0x20000 1 (some 63) []).1 with
       | .staged => true
       | _ => false) &&
    (let m : M := { signal 0x20000 id with expiry := [(0, 1000)] }
     works m && first m 5 && match ((acted m).signalStore 0 0 2 15 0x20000 1 (some 63) []).1 with
       | .done w => w != 0
       | _ => false) &&
    (let m := signal 0x20000 fun n => { n with joinMade := true }
     works m && first m 5 && !m.chainOpen 0 0 15) &&
    (let m := chained [{ node 1 (fun n => { n with count := 33, regs := 8 }) with dispatched := true, spawned := 32 }] id (mOf g1)
     decide ((m.tile 0).latch = some 0 ∧ 5 ≤ (m.wt 0 0).restored) && match ((m.wt 0 0).chains.filterMap fun (ch, c) =>
         (c.nodes.find? fun n => n.dispatched && n.nd.kind == 1 && decide (n.spawned < n.nd.count)).bind
           fun n => c.owner.bind fun team => (look m.teams team).map fun tm => (ch, (m.wt 0 0).nodeNeed team tm n)).find?
             (fun (_, need) => (m.wt 0 0).creates need) with
       | some (ch, _) => ch == 15
       | none => false) := by
  decide +kernel

/-- Semaphore 63 with its queue. -/
def asked (c : W32) (e : Bool) (q : List SemReq) : M → M := inWT fun wt => wt.setSem 63 { count := c, err := e, queue := q }

theorem wit_SemaphoreRequestsMet :
    ([(false, 1), (true, 0)].all fun (e, n) => let m := asked (BitVec.ofNat 32 n) e [.sacq 0 5 1 false] (mOf { g1 with ops := [pend 5 false 0] })
     decide (m.rowWorld 0 1 = some 0 ∧ ((m.wt 0 0).sem 63).queue = [.sacq 0 5 1 false] ∧ ((m.wt 0 0).sem 63).err = e ∧
       (e = true ∨ ((m.wt 0 0).sem 63).count ≠ 0))) &&
    ([false, true].all fun e => let m := asked 3 e [.join 15 3 false] (chained [node 4 fun n => { n with a := 3 }] id (mOf g1))
     decide (m.rowWorld 0 1 = some 0 ∧ ((m.wt 0 0).sem 63).queue = [.join 15 3 false] ∧ ((m.wt 0 0).sem 63).err = e ∧
       3 ≤ ((m.wt 0 0).sem 63).count.toNat ∧ ((m.wt 0 0).chain 15).nodes.length = 1)) := by decide +kernel

/-- A copy of one unit of a tensor at 0x20000, whose page's leaf it has, or at 0x90000, whose page has none. -/
def cpy (out slip rel moved : Bool) (at' : Nat) : Copy :=
  { id := 50, world := 0, tile := 0, team := 2, ch := 15, node := 77, out := out, slip := slip, moved := moved, size := 4,
    desc := { tensor := 1, slab := 0, org := [0], ext := [1], rel := rel },
    tn := { base := at', fmt := 0, ndim := 1, valid := true, shape := [1], stride := [4] },
    leaves := [(2, { level := 3, frame := 0, homek := 0, homeid := 0, nc := false, fp := true, x := true, ro := false, key := 0 })],
    bads := [(9, (Code.num .translation |>.toNat, 0))] }

/-- The copy under way; the first line of field memory holds bytes. -/
def copying (k : Copy) (m : M) : M := { ((mapped 0x20000 m).fieldWrite 0 condBytes 0 0 1 0).getD m with copies := [k] }

theorem wit_CopiesMove :
    let there (k : Copy) (m : M) : Bool := m.copy k.id == some k && k.translated && !m.copyWaits k
    let leased (m : M) : M := { m with expiry := [(0, 1000)] }
    ([false, true].all fun slip => let k := cpy false slip false false 0x20000
     let m := copying k (mOf g1)
     there k m && !(m.copyIn k).isEmpty && (m.copyIn k).all fun u => u.2.all (·.isSome)) &&
    ([false, true].all fun slip => let k := cpy true slip false true 0x20000
     let m := copying k (mOf g1)
     there k m && !m.piecesOpen k) &&
    ([false, true].all fun slip => [(false, false), (true, false), (false, true), (true, true)].all fun (rel, lease) =>
     let k := cpy true slip rel false 0x20000
     let m := if lease then leased (copying k (mOf g1)) else copying k (mOf g1)
     there k m && !m.piecesOpen k && (m.linesWrite k (byLine (m.copyOut k))).any fun r => (r.1 != 0) == lease) &&
    ([false, true].all fun slip => let k := cpy false slip false false 0x90000
     let m := copying k (mOf g1)
     m.copy k.id == some k && m.copyStuck k) &&
    (let k := { cpy false true false false 0x20000 with retried := [5] }
     let m : M := { copying k (mOf g1) with acc := [{ acc 8 50 .load (.remote 1) none with group := 0 }] }
     m.copy k.id == some k && m.piecesFly k) &&
    (let n : NodeSt := { node 1 (fun n => { n with count := 1, regs := 8, nin := 1 }) with descs := [{ tensor := 1, slab := 0, srck := true, ext := [1], org := [0] }] }
     let m := chained [n] id (mOf g1)
     decide (m.pilotWorld 0 = some 0 ∧ ((m.wt 0 0).chain 15).halted = false ∧ ((m.wt 0 0).chain 15).owner = some 2 ∧
       ((m.wt 0 0).chain 15).canBegin (m.wt 0 0) 0 = some n ∧ (n.descs[0]?).map (·.srck) = some true)) := by decide +kernel

/-- One access under way. -/
def under (a : Access) (m : M) : M := { m with acc := [a] }

theorem wit_AccessesPerform :
    let home (a : Access) (m : M) : Bool := m.access 8 == some a && a.phase == .home 0 && !m.repairing a.line
    let spad (a : Access) (m : M) : Bool := m.access 8 == some a && a.phase == .scr 0 && m.rowWorld 0 4 == some a.world
    let reserving (l : Nat) : Machine.Group := grp [] [(0, { thr [] with resv := some l })]
    let clean (m : M) : M := lined condBytes m
    ([(AKind.load), .store, .atom .add 1 0, .stc].all fun k => [Phase.home 0, .scr 0].all fun ph =>
     let a := acc 8 9 k ph none
     let m := under a (mOf g1)
     !m.requestHeld a && (if ph == .home 0 then home a m else spad a m) && !m.ownEarlier a && !m.heldBack (m.mates a)) &&
    (let a := acc 8 9 .store (.home 0) none
     ((under a (clean (mOf g1))).fieldWrite (fieldKey 0 a.pa) a.data a.world a.key a.tid a.ver).isSome) &&
    (let a := acc 8 9 .store (.home 0) none
     let m : M := { under a (clean (mOf g1)) with lines := [(0, none)] }
     home a m && (m.fieldWrite (fieldKey 0 a.pa) a.data a.world a.key a.tid a.ver).isNone) &&
    (let a := acc 8 9 .stc (.home 0) none
     let m := under a (clean (mOf (reserving a.line)))
     home a m && m.reserves a a.line && (m.fieldWrite (fieldKey 0 a.pa) a.data 0 0 0 0).isSome &&
       !(under a (mOf g1)).reserves a a.line) &&
    (let a := acc 8 9 .stc (.scr 0) none
     let m := under a (mOf (reserving (scratchLine 0 0 a.pa)))
     spad a m && m.reserves a (scratchLine a.world 0 a.pa) && !(under a (mOf g1)).reserves a (scratchLine a.world 0 a.pa)) &&
    (let m := clean (mOf g1)
     let r := m.atomRead 0 4 0 0 0 0
     (m.lineFault 0 0 0 0 0).isNone && match r.1 with
     | some old => !atomSkips .add 4 (BitVec.ofNat 64 (bytesNat old)) 0 &&
         (r.2.fieldWrite 0 (natBytes 4 (atomNew .add 4 (BitVec.ofNat 64 (bytesNat old)) 1 0).toNat) 0 0 0 0).isSome
     | none => false) &&
    ([(AKind.store, 5), (.load, 0), (.store, 0)].all fun (k, w) => let a := acc 8 9 k (.done false w) none
     decide ((under a (mOf g1)).access 8 = some a ∧ (under a (mOf g1)).responseHeld a = false ∧ a.phase = .done false w)) &&
    ([(AKind.store, 5), (.store, 0)].all fun (k, w) => let a := acc 8 9 k (.done true w) none
     let m := under a (mOf g1)
     decide (m.access 8 = some a ∧ (w ≠ 0 ∨ a.complete = true) ∧ m.counting a = true)) := by decide +kernel

theorem wit_OutsideAccessesComplete :
    let open' (ok : Bool) : M := (mOf g1).setPort 15 { (mOf g1).port 15 with atomok := ok }
    let at' (a : Access) (m : M) : Bool := m.access 8 == some a && a.phase == .host 15 && !m.heldBack (m.mates a)
    ([AKind.load, .store].all fun k => let a := acc 8 9 k (.host 15) none
     let m := under a (mOf g1)
     at' a m && !m.ownEarlier a && !m.between 15 a.pa a.size (·.sameOp a) && !m.ecc.contains a.line && ({ m with ecc := [a.line] } : M).ecc.contains a.line) &&
    ([true, false].all fun fb => [true, false].all fun ok => [none, some [1#8, 0, 0, 0]].all fun fell =>
     let a := { acc 8 9 (.hatom .add fb 1 0) (.host 15) none with fell := fell }
     let m := under a (open' ok)
     at' a m && !m.heldBack [a] && !m.fallsBack 15 a && !m.between 15 a.pa a.size (·.sameOp a) && !m.ecc.contains a.line && (m.port 15).atomok == ok) &&
    decide ((acc 8 9 (.hatom .cas true 1 0) (.host 15) none).fell = none) &&
    ([AKind.load, .store].all fun k => let a := acc 8 9 k (.remote 1) none
     let m := under a (mOf g1)
     decide (m.access 8 = some a ∧ a.phase = .remote 1 ∧ m.heldBack (if k == .load then (m.mates a).filter (·.pa == a.pa) else [a]) = false ∧
       m.tileClock a.tile < a.start + 2 ^ 22 ∧ listed 0x01 = true ∧
       ([0, 0, 0, 0] : List Byte).length = a.size)) := by decide +kernel

/-- A message to the tile itself. -/
def flight : Flight := { id := 60, world := 0, src := 0, dest := 0, route := none, droute := 63, msg := { mask := 1, sz := .b4, data := [(0, [1, 0, 0, 0])] } }

theorem wit_OperationsComplete :
    (let g := { g1 with ops := [pend 5 true 0] }
     let m := under (acc 8 5 .load (.done true 0) (some (.data [1, 0, 0, 0]))) (mOf g)
     decide (m.opWorld 0 0 5 = some 0 ∧ look (m.wt 0 0).groups 0 = some g ∧ g.ops.find? (·.id == 5) = some (pend 5 true 0) ∧
       (m.accOf g 5).length = 1 ∧ ∀ a ∈ m.accOf g 5, a.phase = .done true 0 ∧ m.responseHeld a = false)) &&
    (let g := { g1 with ops := [pend 5 true 40] }
     let m := inTile (fun t => { t with cycle := 40 }) (mOf g)
     decide (m.opWorld 0 0 5 = some 0 ∧ look (m.wt 0 0).groups 0 = some g ∧ g.ops.find? (·.id == 5) = some (pend 5 true 40) ∧
       (pend 5 true 40).since ≤ (m.tile 0).cycle)) &&
    (let g := { g1 with wait := .fence [8] .system }
     let m := mOf g
     decide ((m.tile 0).latch = some 0 ∧ look (m.wt 0 0).groups 0 = some g ∧ m.fenceOver 0 g [8] .system = true)) &&
    (let m : M := { mOf g1 with flights := [flight] }
     decide (m.flights.find? (·.id == flight.id) = some flight ∧ (m.tile flight.dest).latch = some flight.world ∧
       m.heldOnWay (m.worldPart flight.world) .message flight.route flight.src flight.dest = false ∧ (mget [] (m.wt flight.world flight.dest).bufs 63).length < 2 ∧
       ∀ x ∈ m.flights, x.id < flight.id → m.ordered x flight = false)) := by decide +kernel

/-- Two tables of world 0 that map all of the first level-1 region to field 0: the root's first entry names the table
at 0x10000, whose first entry is a leaf. -/
def tabled (m : M) : M :=
  let m1 : M := { m with frames := [(0, 0), (1, 0)] }
  ((m1.fieldWrite 0 (natBytes 8 0x10001) 0 0 0 0).bind fun m2 => m2.fieldWrite 0x10000 (natBytes 8 0x1A) 0 0 0 0).getD m

/-- A walk that asks for the page of 0x20000. -/
def walking : M → M := fun m => { m with walks := [{ id := 70, field := 0, world := 0, tile := 0, page := 2 }] }

theorem wit_WalksAndLeasesEnd :
    let asked (m : M) : Bool := (m.walks.find? (·.id == 70)).isSome &&
      decide ((m.walks.filter fun j => j.field == 0 && decide (j.id < 70)).length < 32) && !m.walkWaits 0 (2 * 65536) 4 (m.world 0).rootTable 0
    (let m := walking (mOf g1)
     asked m && match m.walk 0 (2 * 65536) .read with
       | .fault _ _ => true
       | .leaf _ => false) &&
    (let m := walking (tabled (mOf g1))
     asked m && match m.walk 0 (2 * 65536) .read with
       | .fault _ _ => false
       | .leaf l => l.level == 1 && l.fp) &&
    (let m := inTile (fun t => { t with l1 := [(5, { data := [], world := 0, tid := 0, ver := 0, start := 0, len := 9 })] }) (mOf g1)
     decide ((look (m.tile 0).l1 5).isSome = true)) &&
    (let m : M := { mOf g1 with hot := [(5, 100)] }
     decide (look m.hot 5 = some 100)) &&
    (let m := under { acc 8 9 .store .cached none with va := 320, stack := true, data := [1] }
       (inWT (fun wt => { wt with stackc := [(320, 1)], stackd := [(320, (0, 0))] }) (mOf g1))
     let mine := m.acc.filter fun a => a.phase == .cached && a.world == 0 && a.tile == 0 && a.va / 64 == 5
     decide (m.rowWorld 0 5 = some 0 ∧ 5 ∈ (m.wt 0 0).dirtyLines ∧ mine.length = 1 ∧ m.heldBack mine = false ∧
       ∀ a ∈ mine, m.repairing a.line = false ∧ m.requestHeld a = false)) := by
  decide +kernel

theorem wit_LandingSteps :
    let bn (timed out : Bool) (n : Nat) : Bin :=
      { pc := 0x10000, urec := 0, team := 2, timer := 0, timed := timed, ths := List.replicate n { waiting with out := out } }
    let asks (b : Bin) (f : WT → WT) : M := inWT (fun wt => f { wt with bins := [(0, b)], urecs := [(0, { team := 2, k := [] })], growq := [.form 0 7], used := 16 }) (mOf g1)
    let back (m : M) : List Waiting := (m.forming 0 0).filter (·.out)
    (let m := inWT (fun wt => { wt with bins := [(0, bn false false 1)] }) (mOf g1)
     decide ((m.tile 0).latch = some 0 ∧ look (m.wt 0 0).bins 0 = some (bn false false 1) ∧ (bn false false 1).closed = false ∧ (bn false false 1).timer = 0)) &&
    ([1, 32].all fun n => let b := bn true false n
     let m := asks b id
     decide ((m.tile 0).latch = some 0 ∧ 5 ≤ (m.wt 0 0).restored ∧ b.chosen ≠ [] ∧ (m.wt 0 0).growq = [.form 0 7] ∧ b.rows ≤ m.freeRows 0 0 ∧
       (∀ e ∈ b.chosen, e.out = false) ∧ (m.pickSlot 0 0).isSome = true ∧ (look (m.wt 0 0).urecs 0).isSome = true ∧ (look m.teams 2).isSome = true) &&
       (m.form 0 0 0).isSome) &&
    (let m := inWT (fun wt => { wt with bins := [(0, bn false false 1)], lwant := 65536 }) (mOf g1)
     decide (m.rowWorld 0 5 = some 0 ∧ ((m.wt 0 0).entries.filter fun e => !e.out && !(m.forming 0 0).contains e) ≠ [] ∧
       65536 < (m.wt 0 0).landIn + (m.wt 0 0).lwant)) &&
    (let m := asks (bn true true 1) fun wt => { wt with parked := [(1, { token := 1, team := 2, ths := List.replicate 61 { waiting with l := 255, born := 10 } })] }
     decide (m.rowWorld 0 5 = some 0 ∧ ((m.wt 0 0).entries.filter fun e => !e.out && !(m.forming 0 0).contains e) ≠ [] ∧ back m ≠ [] ∧
       ¬ ((m.wt 0 0).moveOldest (back m).length false (back m)).landIn ≤ 65536)) &&
    (let m := asks (bn true true 1) id
     decide (m.rowWorld 0 5 = some 0 ∧ back m ≠ [] ∧ ((m.wt 0 0).moveOldest (back m).length false (back m)).landIn ≤ 65536)) &&
    (let g := grp [] [(0, { thr [] with meet := 0x0500000000010000 })]
     let m := inWT (fun wt => { wt with meets := [(5, { m := 0x10000, n := 1, parent := 0, team := 2 })] }) (mOf g)
     decide (m.mayIssue 0 0 0 g = true ∧ m.hasIssued 0 0 = false ∧ g.faultAtMeet = false ∧ g.arriving ≠ [] ∧ 5 ≤ (m.wt 0 0).restored ∧ g.anyLL = false ∧ (g.inPlace (m.wt 0 0)).isSome = true)) &&
    (let g := grp [] [(0, { thr [] with meet := 0x0500000000010000 }), (1, thr [])]
     let m := inWT (fun wt => { wt with meets := [(5, { m := 0x10000, n := 2, parent := 0, team := 2 })] }) (mOf g)
     decide (m.mayIssue 0 0 0 g = true ∧ m.hasIssued 0 0 = false ∧ g.faultAtMeet = false ∧ g.arriving ≠ [] ∧ 5 ≤ (m.wt 0 0).restored ∧ g.anyLL = false ∧
       (g.inPlace (m.wt 0 0)).isNone = true ∧ m.hasRoom 0 0 0 ((m.wt 0 0).roomFor g g.arriving.length) = true)) &&
    (let g := { g1 with late := [{ op := 5, pc := 0x10000, fault := { lane := 0, code := .translation } }] }
     let m := mOf g
     decide ((m.tile 0).out = none ∧ m.mayIssue 0 0 0 g = true ∧ g.late ≠ [] ∧ g.wait.begun = false ∧ g.settleDue false = true ∧ g.anyLL = false ∧
       5 ≤ (m.wt 0 0).restored ∧ m.hasRoom 0 0 0 ((m.wt 0 0).roomFor g g.settled.length) = true)) &&
    (let g := { g1 with late := [{ op := 5, pc := 0x10000, fault := { lane := 0, code := .translation } }] }
     let m := inTile (fun t => { t with out := some 0, spill := 4 }) (mOf g)
     decide ((m.tile 0).out = some 0 ∧ look (m.wt 0 0).groups 0 = some g ∧ (m.tile 0).spill < 5 ∧ m.drained g = true ∧ g.anyLL = false ∧
       m.hasRoom 0 0 0 ((m.wt 0 0).roomFor g g.settled.length) = true)) := by decide +kernel

/-- The 64 bytes of a launch of one team of one thread. -/
def launchBytes : List Byte :=
  [0x10000#64, 0#64, 0#64, 0#64, 0x0011000100000001#64, 0x0000000000000008#64, 0#64, 0#64].flatMap fun w => natBytes 8 w.toNat

/-- Work queue 0, enabled, with a held record; world 0 runs. -/
def queued (n : Nat) (r : LRec) (m : M) : M :=
  (inWorld (fun w => { w with st := .run }) m).setWQ 0 { en := true, nextseq := 2, held := List.replicate n (1, r) }

theorem wit_LaunchesRun :
    let one' := parseLaunch launchBytes
    (let m := queued 4 one' (mOf g1)
     decide (m.hears 0 = true ∧ launchBytes.length = 64 ∧ (m.wq 0).en = true ∧ (m.world (m.wq 0).world).st = .run ∧ (m.wq 0).pend < 5)) &&
    decide (5 ≤ ((queued 5 one' (mOf g1)).wq 0).pend ∧ (queued 5 one' (mOf g1)).wordWaits 0 = false) &&
    decide (((mOf g1).wq 8191).en = false ∧ (mOf g1).hears (8191 / 4) = true ∧ (0x3 : W64).getLsbD 0 = true ∧ (2 : W64).getLsbD 0 = false) &&
    (let m := queued 1 one' (mOf g1)
     decide ((m.world 0).part = some 0 ∧ (m.wq 0).running = false ∧ (m.world 0).stopped = false ∧ m.wordWaits 0 = false ∧
       (m.part 0).quiesce = 0 ∧ m.hearth.snapstat ≠ 1 ∧ one'.badFields = false ∧
       m.noRectangle (m.part 0) one' = false ∧ one'.coop = false)) &&
    decide (({ one' with teams := 0 } : LRec).badFields = true) &&
    decide ((mOf g1).noRectangle ((mOf g1).part 0) { one' with w := 2 } = true ∧ ({ one' with w := 2, teams := 2 } : LRec).badFields = false) &&
    decide ((mOf g1).arranged ((mOf g1).part 0) { one' with coop := true, teams := 200, threads := 6144 } 200 [] = false) &&
    (let la : Launch := { wq := 0, seq := 1, world := 0, part := 0, lr := { one' with teams := 1 } }
     let m := (mOf g1).setLaunch 3 la
     decide (look m.launches 3 = some la ∧ la.ending = false ∧ (m.world 0).stopped = false ∧
       (m.part 0).quiesce = 0 ∧ la.dealt = [0] ∧
       (∀ x ∈ m.launches, ¬ (x.2.world = 0 ∧ x.2.part = 0 ∧ x.2.coopWaits = true))) && (m.placeNext 3).isSome) &&
    (let la : Launch := { wq := 0, seq := 1, world := 0, part := 0, lr := { one' with teams := 2 } }
     let m := (mOf g1).setLaunch 3 la
     decide (look m.launches 3 = some la ∧ la.dealt = [0, 1]) && la.dealt.all fun k => (m.freeVal.2.placeCluster 3 k).isSome) &&
    (let la : Launch := { wq := 0, seq := 1, world := 0, part := 0, lr := { one' with teams := 1, coop := true } }
     let m := (mOf g1).setLaunch 3 la
     decide ((m.launches.find? fun (_, l) => l.world == 0 && l.part == 0 && l.coopWaits) = some (3, la)) && (m.placeAll 3 la.lr.clusters).isSome) &&
    (let m := inLaunch (fun l => { l with endedTeams := 1 }) (mOf g1)
     match look m.launches 3 with
     | some la => m.allDone 3 la && !(m.world la.world).stopped && !m.wordWaits la.wq
     | none => false) := by decide +kernel

/-- A record for the trap queue. -/
def rec' (k : Nat) : PendRec := { id := 80, fr := { code := .translation, kind := k } }

theorem wit_LaunchesEnd :
    let free (m : M) : Bool := decide ((m.world 0).stopping = none) && !m.repairing ((m.world 0).slotKey (m.world 0).tqtail.toNat / 64)
    (let m := inLaunch (fun l => { l with lr := { l.lr with det := true }, staged := [(0, [])] }) (mOf g1)
     match look m.launches 3 with
     | some la => la.lr.det && !la.ending && !(m.world 0).stopped && (m.part 0).quiesce == 0 && (look la.staged la.released).isSome &&
         ((m.teamsOf 3).find? fun (_, tm) => tm.index == la.released).isSome
     | none => false) &&
    (let m := inLaunch (fun l => { l with stall := l.lr.stallCycles, lr := { l.lr with teams := 2 } }) (inWT (fun wt => { wt with groups := [(0, { g1 with wait := .pend .barrier })] }) (mOf g1))
     match look m.launches 3 with
     | some la => decide (la.lr.stallCycles ≤ la.stall) && m.stalled 3 la
     | none => false) &&
    (let m := inLaunch (fun l => { l with ending := true, status := 5 }) (mOf g1)
     decide (∃ x ∈ m.teamsOf 3, m.teamOver x.1 x.2 = false)) &&
    (let m := inLaunch (fun l => { l with ending := true, status := 5, staged := [(0, [])] }) (mOf g1)
     decide ((look m.launches 3).map (fun l => (l.ending, l.staged)) = some (true, [(0, [])]))) &&
    (let m := inWorld (fun w => { w with st := .run, recs := [rec' 1], tqbase := 1, tqtail := 1024 }) (mOf g1)
     free m && decide ((m.world 0).recs.find? (m.world 0).takes = some (rec' 1) ∧ (rec' 1).fr.isFatal = true ∧ 1024 ≤ (m.world 0).occ)) &&
    (let m := inWorld (fun w => { w with st := .run, recs := [rec' 1] }) (mOf g1)
     free m && decide ((m.world 0).recs.find? (m.world 0).takes = some (rec' 1) ∧ (rec' 1).fr.isFatal = true ∧ (m.world 0).tqbase.getLsbD 0 = false)) &&
    (let m := inWorld (fun w => { w with st := .run, recs := [rec' 0], tqbase := 1, tqtail := 1022 }) (mOf g1)
     free m && decide ((m.world 0).recs.find? (m.world 0).takes = some (rec' 0) ∧ (m.world 0).tqbase.getLsbD 0 = true ∧ (m.world 0).occ < 1023) &&
     (m.fieldWrite ((m.world 0).slotKey (m.world 0).tqtail.toNat) ({ (rec' 0).fr with resv := (rec' 0).fr.isFatal && (m.world 0).occ == 1023 } : FRec).bytes
       0 0 0 0).isSome) &&
    (let m := mapped 0x20000 (mOf g1)
     decide ((m.tile 0).latch = some 0 ∧ 0x2FFFC < 2 ^ 56) && match (m.fetchBlock 0 0 (0x2FFFC / 32 * 32)).1 with
       | .got _ => true
       | _ => false) &&
    (let m := mOf g1
     decide ((m.tile 0).latch = some 0 ∧ 0xFEFFFFFFFFFFFC < 2 ^ 56) && (m.ask 0 0 (0xFEFFFFFFFFFFFC / 32 * 32)).isSome &&
       match (m.fetchBlock 0 0 (0xFEFFFFFFFFFFFC / 32 * 32)).1 with
       | .miss => true
       | _ => false) &&
    (let m := under { acc 8 9 .store .cached none with stack := true, data := [1, 0, 0, 0] } 
       (mapped 0x20000 (inWT (fun wt => { wt with stackc := [(0x20000, 1)], stackd := [(0x20000, (0, 0))] }) (mOf g1)))
     let r := m.fetchBlock 0 0 0x20000
     match r.1 with
     | .later => (r.2.wt 0 0).flush != (m.wt 0 0).flush
     | _ => false) := by decide +kernel

/-- A quantum entry for world w with a slice of 16. -/
def entryFor (w : W64) : W64 := 0x8000#64 ||| w ||| 0x0000001000000000#64

theorem wit_CyclesAndSlices :
    let runs (m : M) : Bool := tileOk 0 && (m.partOf 0).all (fun q => !m.hearth.frozen.contains q) && (m.tile 0).phase != .swapping &&
      (m.field (fieldOf 0)).pst == 0 && (m.pickOn 0).isNone
    let slice (y : Bool) (q : AMap W64) : M := inPart (fun p => { p with yielded := y, worlds := [0, 2047], quantum := q }) (mOf g1)
    (let m := inTile (fun t => { t with latch := none }) (mOf g1)
     runs m && decide (m.partOf 0 = some 0 ∧ (m.tile 0).latch = none)) &&
    (runs (mOf g1) && decide (((mOf g1).tile 0).latch = some 0)) &&
    ([false, true].all fun y => let m := slice y []
     decide ((m.part 0).latched = some 0 ∧ (m.part 0).sw = none ∧ (m.part 0).quiesce = 0 ∧ (m.part 0).left = 0 ∧ (m.part 0).yielded = y ∧
       m.nextEntry (m.part 0) = none)) &&
    ([false, true].all fun y => [(0, 0#64), (15, 2047#64)].all fun (i, w) => let m := slice y [(i, entryFor w)]
     decide ((m.part 0).yielded = y ∧ (m.part 0).left = 0 ∧ m.nextEntry (m.part 0) = some i ∧ qWorld (mget 0 (m.part 0).quantum i) = w.toNat)) &&
    (let m := inPart (fun p => { p with latched := none, quantum := [(15, entryFor 0)] }) (mOf g1)
     decide ((m.part 0).used = true ∧ (m.part 0).latched = none ∧ (m.part 0).sw = none ∧ (m.part 0).quiesce = 0 ∧ m.hearth.frozen.contains 0 = false ∧
       (∀ t ∈ (m.part 0).tiles, (m.tile t).quench = false) ∧ (List.range 16).find? (m.eligible (m.part 0)) = some 15 ∧ (m.world 0).quench = false)) := by
  decide +kernel

/-- Partition 0 in a switch to a world, or to none. -/
def switching (d : Option Nat) (s : Bool) : M → M := inPart fun p => { p with worlds := [0, 1], sw := some { dst := d, swapping := s } }

/-- The first line of a row of the world's context block fails its tag. -/
def badLine (w row : Nat) (m : M) : M :=
  match m.ctxBlock w 0 with
  | some b => { m with lines := ((ctxParts row).take 1).map fun x => ((b + x.1) / 64, none) }
  | none => m

theorem wit_SwitchHappens :
    let saved (m : M) (row : Nat) : M :=
      let m1 := m.setTile 0 { m.tile 0 with spill := row, out := if row = 7 then none else (m.tile 0).out }
      (m.tile 0).out.elim m1 fun a => m1.saveRow a 0 row
    (let m := switching (some 1) false (mOf g1)
     decide (m.partOf 0 = some 0 ∧ (m.part 0).sw = some { dst := some 1 } ∧ (m.tile 0).phase = .running)) &&
    ([none, some 1].all fun d => let m := inTile (fun t => { t with phase := .draining, shadow := some 1, spill := 7 }) (switching d false (mOf g1))
     decide ((m.part 0).sw = some { dst := d } ∧ (m.tile 0).phase = .draining ∧ (m.wt 0 0).anvil = [] ∧ (∀ f ∈ m.flights, f.src ≠ 0) ∧
       m.windowOpen 0 = false ∧ (m.tile 0).out = none ∧ 7 ≤ (m.tile 0).spill ∧ (d = none ∨ (m.tile 0).shadow = d))) &&
    (let m := inTile (fun t => { t with phase := .quiet }) (switching (some 1) false (mOf g1))
     decide ((m.part 0).sw = some { dst := some 1 } ∧ ∀ t ∈ (m.part 0).tiles, (m.tile t).phase = .quiet)) &&
    (let m := inTile (fun t => { t with phase := .swapping }) (switching (some 1) true (mOf g1))
     decide ((m.tile 0).phase = .swapping ∧ (m.world 1).stopped = false ∧ 1 ∈ (m.part 0).worlds ∧ (m.wt 1 0).dbg.held = none)) &&
    (let m := inTile (fun t => { t with phase := .swapping }) (switching none true (mOf g1))
     decide ((m.tile 0).phase = .swapping ∧ (m.part 0).sw = some { dst := none, swapping := true })) &&
    ([1, 7].all fun row => let m := inTile (fun t => { t with spill := row - 1, out := some 0, latch := none }) (mOf g1)
     decide (row = (m.tile 0).spill + 1 ∧ (m.tile 0).out = some 0 ∧ m.maySave 0 0 row = true ∧ m.ctxWaits 0 0 row = false ∧ (m.tile 0).latch = none)) &&
    ([1, 7].all fun row => [none, some 1].all fun o => let m := inTile (fun t => { t with spill := row - 1, out := o }) (mOf g1)
     decide (row = (m.tile 0).spill + 1 ∧ (m.tile 0).out = o ∧ (m.tile 0).latch = some 0 ∧ (o.all fun a => m.maySave a 0 row && !m.ctxWaits a 0 row) = true ∧
       (saved m row).ctxBad 0 0 row = false)) &&
    (let m := badLine 0 1 (inTile (fun t => { t with spill := 0 }) (inWorld (fun w => { w with ctx := 1 }) (inWT (fun wt => { wt with ctx := true }) (mOf g1))))
     decide ((m.tile 0).latch = some 0 ∧ (m.tile 0).out = none ∧ (saved m 1).ctxBad 0 0 1 = true)) &&
    ([false, true].all fun bad => let m0 := switching (some 1) false ((mOf g1).setWT 1 0 { (mOf g1).wt 1 0 with ctx := true })
     let m1 := m0.setWorld 1 { m0.world 1 with ctx := 1 }
     let m := if bad then badLine 1 6 m1 else m1
     decide (m.preloadOf 0 = some 1 ∧ (m.tile 0).shadow ≠ some 1 ∧ (m.tile 0).out = none ∧ (m.tile 0).phase ≠ .swapping ∧ m.ctxBad 1 0 6 = bad)) &&
    decide (((inTile (fun t => { t with quench := true }) (mOf g1)).tile 0).quench = true) &&
    (let m := under (acc 8 9 .store (.done true 0) none) (inWorld (fun w => { w with quench := true }) (mOf g1))
     decide ((m.world 0).quench = true ∧ (m.world 0).stopping = none ∧ ∀ a ∈ m.acc, a.world = 0 → a.settled = true)) := by decide +kernel

theorem wit_DebugActs :
    let mine (m : M) (n : W32) : Option (Nat × Team) :=
      m.teams.find? fun x => x.2.world == 0 && x.2.tile == 0 && BitVec.ofNat 32 x.2.index == n && !x.2.ended
    decide ((mOf g1).dbgTile 0 = some 0 ∧ ((mOf g1).wt 0 0).dbg.dumpBusy = false ∧ (mOf g1).hears 0 = true) &&
    (let m := inWorld (fun w => { w with sec := 1 }) (mOf g1)
     decide (m.responds = true ∧ (m.port 15).dsel.toNat = 0 ∧ (m.world 0).sec.getLsbD 0 = true ∧ m.dbgTile 0 = some 0)) &&
    (let m := inWT (fun wt => { wt with dbg := { stop := 0xF } }) (mOf g1)
     decide (((m.teams.filter fun (_, tm) => tm.world == 0 && BitVec.ofNat 32 tm.index == 0 && !tm.ended).map fun x => x.2.tile).eraseDups = [0] ∧
       (m.wt 0 0).dbg.stop = 0xF ∧ (m.wt 0 0).dbg.stepping = none ∧ (m.tile 0).latch = some 0)) &&
    (let m := inWT (fun wt => { wt with dbg := { stepping := some 7, idle := 65536 } }) (mOf g1)
     decide (m.stepTiles 0 7 = [0] ∧ m.pickOn 0 = none) && (mine m 7).isNone) &&
    ([0, 1].all fun b => let m := inWT (fun wt => { wt with dbg := { stepping := some 0, base := b, idle := 65536 } }) (mOf g1)
     decide (m.stepTiles 0 0 = [0] ∧ m.pickOn 0 = none ∧ (m.tile 0).latch = some 0 ∧ 65536 ≤ (m.wt 0 0).dbg.idle) &&
       (mine m 0).any fun x => (x.2.phases != b) == (b == 1)) &&
    (let m : M := { mOf g1 with dumps := [{ world := 0, tile := 0, buf := 0, data := [] }] }
     decide ((m.dumps.find? (·.world == 0)).map (·.tile) = some 0)) := by decide +kernel

theorem wit_RegistersWritten :
    decide ((mOf g1).hears 2047 = true ∧ ((mOf g1).world 2047).st = .unlocked ∧ (mOf g1).responds = true ∧ (127 % 2 = 1 ∧ 126 % 2 = 0 ∧ 127 < 128)) &&
    decide ((0 : W64).getLsbD 32 = false ∧ 63 ∉ ((mOf g1).world 0).msixPend) &&
    decide (63 ∈ ((inWorld (fun w => { w with msixPend := [63] }) (mOf g1)).world 0).msixPend) &&
    decide (writable 0x4010 false = false ∧ submits 0x4010 false = false ∧ writable 0x0B0 true = false ∧ submits 0x0B0 true = false) &&
    decide ((mOf g1).hearth.off = false) := by decide +kernel

theorem wit_WindowWritesAct :
    (let m : M := { mOf g1 with frames := [(0, 0)] }
     decide (m.hears 0 = true ∧ (m.world 0).occ = 0 ∧ (1 : W64).getLsbD 0 = true ∧ devOk 0 65536 = true ∧ m.owns 0 0 = true)) &&
    decide (verdictOf 0 ≠ none ∧ verdictOf 1 ≠ none ∧ verdictOf 2 ≠ none) &&
    ([0, 3].all fun n => let m := inPart (fun p => { p with quiesce := n }) (mOf g1)
     decide (m.hears 0 = true ∧ (m.world 0).part = some 0 ∧ (m.part 0).quiesce = n)) &&
    (let m := inWorld (fun w => { w with st := .locked }) (mOf g1)
     let v : W64 := 0x8000000000
     decide ((m.world 0).st = .locked ∧ v.extractLsb' 40 24 = 0#24 ∧ v.getLsbD 32 = false ∧ m.current (m.worldPart 0) (v.extractLsb' 0 32) = true ∧
       m.tileAt 0 0 = some 0)) &&
    decide (((mOf g1).world 0).st = .unlocked ∧ (mOf g1).responds = true ∧ (mOf g1).hearth.modid = none ∧ ((mOf g1).port 0).dsel.toNat = 0) &&
    decide (((mOf g1).world 0).inv = false) &&
    (let m := inWorld (fun w => { w with inv := true, invWait := [8] }) (under (acc 8 9 .load (.done true 0) none) (mOf g1))
     decide ((m.world 0).inv = true ∧ (∀ a ∈ m.acc, a.id ∈ (m.world 0).invWait → a.phase = .done true 0) ∧
       (∀ k ∈ m.walks, k.id ∉ (m.world 0).invWait) ∧ (∀ k ∈ m.copies, k.id ∉ (m.world 0).invWait) ∧
       ∀ st ∈ m.stagedOf 0, st.id ∉ (m.world 0).invWait)) := by decide +kernel

/-- World 0 ready to start: its root, one context block and its tensor table in frames it owns. -/
def ready (m : M) : M :=
  let m1 : M := { m with frames := (List.range 256).map fun i => (i, 0) }
  inWorld (fun w => { w with st := .locked, keys := [0], mac := true, root := 0, ctx := 0x10001, ttb := 0x800000, stkn := 1,
                             sess := { opened := true, secured := true, period := 255, ide := true } }) m1

theorem wit_TrustMessagesAct :
    (let m := inWorld (fun w => { w with sess := { opened := true, secured := true, ide := true } }) (mOf g1)
     decide (m.hears 0 = true ∧ (m.world 0).tdispWait = [] ∧ (m.world 0).stopping = none ∧ (m.world 0).part = some 0 ∧ (m.part 0).quiesce = 0 ∧
       (m.world 0).st = .unlocked ∧
       (m.world 0).sess.ide = true ∧ (m.world 0).sess.secured = true ∧ (m.world 0).sess.opened = true)) &&
    ([none, some { code := .machineCheck }].all fun (fr : Option FRec) =>
     let m0 := inWorld (fun w => { w with quench := true, stopping := some fr }) (mOf g1)
     let m := under (acc 8 9 .store (.done true 0) none) m0
     decide ((m.world 0).quench = true ∧ (m.world 0).stopping = some fr ∧ ∀ a ∈ m.acc, a.world = 0 → a.settled = true)) &&
    decide (((mOf g1).world 0).sess.opened = false) &&
    (let m := inWorld (fun w => { w with st := .error, quench := true }) (mOf g1)
     decide ((m.world 0).st = .error ∧ (m.world 0).quench = true ∧ (m.world 0).tdispWait = [])) &&
    (let m := inWorld (fun w => { w with st := .locked, sess := { opened := true, secured := true, ide := true } }) (mOf g1)
     decide ((m.world 0).st = .locked ∧ (m.world 0).sess.secured = true ∧ m.mayStart 0 = false)) &&
    (let m := ready (mOf g1)
     decide ((m.world 0).st = .locked ∧ m.mayStart 0 = true ∧ (m.world 0).part = some 0)) &&
    ([Tdisp.unlocked, .run, .error, .locked].all fun x => let m := inWorld (fun w => { w with st := x, sess := { opened := true } }) (mOf g1)
     decide (m.hears 0 = true ∧ (m.world 0).sess.opened = true ∧ (m.world 0).st = x ∧ (m.world 0).stopping = none ∧ (m.world 0).quench = false)) &&
    (let m := inPart (fun p => { p with quiesce := 3 }) (mOf g1)
     decide (m.hears 0 = true ∧ (m.world 0).part = some 0 ∧ (m.part 0).quiesce ≠ 0)) &&
    (let m := inWorld (fun w => { w with st := .run, sess := { opened := true, secured := true, ide := true } }) (mOf g1)
     decide (m.hears 0 = true ∧ (m.world 0).sess.opened = true ∧ (m.world 0).st = .run ∧ (m.world 0).sess.ide = true)) := by decide +kernel

/-- The hearth holds one command, whose items stand in host memory at 0 of port 0. -/
def hcmd (code arg p w : Nat) (es : List W64) (m : M) : M :=
  { m with
    hmem := Memory.writeL m.hmem 0 (es.flatMap fun e => natBytes 8 e.toNat)
    hearth := { m.hearth with cmds := [{ port := 0, seq := 1, code := code, part := p, world := w, arg := arg, buf := 0, nitem := es.length, bad := false }] } }

/-- The 64 bytes of a command with a code. -/
def cmdBytes (code : W64) : List Byte := [code, 0#64, 0#64, 0#64, 0#64, 0#64, 0#64, 0#64].flatMap fun w => natBytes 8 w.toNat

theorem wit_CommandsAct :
    decide ((mOf g1).booted = true ∧ (cmdBytes 2).length = 64 ∧ (mOf g1).hearth.cmds.length < 8 ∧ (parseCmd 15 0 (cmdBytes 2)).bad = false ∧
      (parseCmd 15 0 (cmdBytes 12)).bad = true) &&
    (let c : HCmd := { port := 0, seq := 0, code := 2, part := 0, world := 0, arg := 0, buf := 0, nitem := 0, bad := false }
     decide (8 ≤ (List.replicate 8 c).length)) &&
    (let m := hcmd 1 0 127 0 [0x80] (mOf g1)
     match m.cmd 0 1 with
     | some c => ((m.items c).all fun e => itemTileOk e && e.extractLsb' 32 32 == 0#32) && decide ((m.part 127).used = false ∧
         State.reset.nv.log.length < 16384 ∧ m.hearth.needService = false ∧ m.partOf 1 = none ∧
         m.shapeOk 127 (sortNat ((m.items c).map itemTile).eraseDups) = true)
     | none => false) &&
    (let m := hcmd 1 0 127 0 [0x80, 1] (mOf g1)
     match m.cmd 0 1 with
     | some c => !((m.items c).all fun e => itemTileOk e && e.extractLsb' 32 32 == 0#32)
     | none => false) &&
    (let m := hcmd 2 0 0 0 [] (inPart (fun p => { p with worlds := [] }) (mOf g1))
     decide ((m.cmd 0 2).isSome = true ∧ (m.part 0).used = true ∧ (m.part 0).worlds = [])) &&
    (let m := hcmd 2 0 0 0 [] (mOf g1)
     decide ((m.cmd 0 2).isSome = true ∧ (m.part 0).worlds ≠ [])) &&
    (let m := hcmd 3 0 0 2047 [] (mOf g1)
     decide ((m.cmd 0 3).isSome = true ∧ (m.part 0).used = true ∧ (m.world 2047).part = none ∧ (m.world 2047).st = .unlocked ∧ (m.part 0).worlds.length < 16)) &&
    (let m := hcmd 3 0 127 2047 [] (mOf g1)
     decide ((m.cmd 0 3).isSome = true ∧ (m.part 127).used = false)) &&
    (let m := hcmd 4 0 0 0 [] (mOf g1)
     decide ((m.cmd 0 4).isSome = true ∧ (m.world 0).part = some 0 ∧ (m.world 0).st = .unlocked)) &&
    (let m := hcmd 4 0 0 9 [] (mOf g1)
     decide ((m.cmd 0 4).isSome = true ∧ (m.world 9).part = none)) &&
    (let m := hcmd 9 0 0 0 [] (inWorld (fun w => { w with st := .run }) (mOf g1))
     decide ((m.cmd 0 9).isSome = true ∧ (m.world 0).st = .run)) &&
    decide (((hcmd 9 0 0 0 [] (mOf g1)).cmd 0 9).isSome = true ∧ ((mOf g1).world 0).st ≠ .run) &&
    (let m := hcmd 7 15 0 0 [entryFor 0] (mOf g1)
     match m.cmd 0 7 with
     | some c => let e := ((m.items c).headD 0) &&& 0x000FFFFF0000C7FF#64
       qEn e && decide (16 ≤ qSlice e) && (m.part 0).worlds.contains (qWorld e) &&
         (List.range 16).all fun j => j == c.arg || !qEn (mget 0 (m.part 0).quantum j)
     | none => false) &&
    (let m := hcmd 7 0 0 0 [entryFor 5] (mOf g1)
     match m.cmd 0 7 with
     | some c => !(m.part 0).worlds.contains (qWorld (((m.items c).headD 0) &&& 0x000FFFFF0000C7FF#64))
     | none => false) &&
    (let m := hcmd 5 0 0 0 [0xFFFFF0000] (mOf g1)
     match m.cmd 0 5 with
     | some c => decide ((m.items c).all itemFrameOk = true ∧ ∀ f ∈ (m.items c).map itemFrame, look m.frames f = none ∧ (m.field (f / 2 ^ 20)).pst < 2 ∧
         fieldOf 0 = f / 2 ^ 20)
     | none => false) &&
    (let m := hcmd 5 0 0 0 [0x100000000000000] (mOf g1)
     match m.cmd 0 5 with
     | some c => decide ((m.items c).all itemFrameOk = true ∧ ¬ ∃ t ∈ (m.part 0).tiles, fieldOf t = 1)
     | none => false) &&
    ([Tdisp.unlocked, .locked].all fun x => let m := inWorld (fun w => { w with st := x }) (hcmd 6 0 0 0 [0] { mOf g1 with frames := [(0, 0)] })
     match m.cmd 0 6 with
     | some c => decide ((m.items c).all itemFrameOk = true ∧ (m.items c).map itemFrame = [0] ∧ look m.frames 0 = some 0 ∧ (m.world 0).st = x)
     | none => false) := by decide +kernel

theorem wit_ReshapeAndPowerAct :
    ([0, 1, 2, 3].all fun k => let m := inWorld (fun w => { w with ctx := 1 }) (hcmd 8 k 0 0 [0x8000000000000000] (mOf g1))
     match m.cmd 0 8 with
     | some c => c.arg == k && !c.started && (m.items c).all itemMapOk && m.reshapeOk c.part k (m.items c) && (m.part c.part).quiesce == 0
     | none => false) &&
    ([0, 1, 2, 3].all fun k => let m := hcmd 8 k 0 0 [0x80] (mOf g1)
     match m.cmd 0 8 with
     | some c => (m.items c).all itemMapOk && !m.reshapeOk c.part k (m.items c)
     | none => false) &&
    (let m := inTile (fun t => { t with latch := none }) (inPart (fun p => { p with latched := none, quiesce := 1 }) (hcmd 8 0 0 0 [0x8000000000000000] (mOf g1)))
     decide (m.atRest 0 = true ∧ m.farOff 1 (some 0) = [])) &&
    (let m := inWorld (fun w => { w with sec := 1 }) (hcmd 10 0 0 0 [0] (mOf g1))
     decide ((m.cmd 0 10).isSome = true ∧ (m.part 0).quiesce = 0 ∧ (m.part 0).used = true ∧ ∀ w ∈ (m.part 0).worlds, (m.world w).sec.getLsbD 0 = true)) &&
    (let m := hcmd 10 0 0 0 [0] (mOf g1)
     decide ((m.cmd 0 10).isSome = true ∧ ∃ w ∈ (m.part 0).worlds, (m.world w).sec.getLsbD 0 = false)) &&
    (let m := hcmd 11 0 0 0 [0x4F00000000000000, 0x0100000000000001] (mOf g1)
     match m.cmd 0 11 with
     | some c => (m.items c).all fun e => decide (powerField e < 80) && e.extractLsb' 2 54 == 0#54 && !(m.field (powerField e)).moving && !m.powerNo e
     | none => false) &&
    (let m := hcmd 11 0 0 0 [1] (mOf g1)
     match m.cmd 0 11 with
     | some c => (m.items c).any m.powerNo
     | none => false) &&
    (let m : M := { mOf g1 with hearth := { (mOf g1).hearth with wakes := [79] } }
     decide (m.hearth.wakes = [79] ∧ (m.fields.filter fun (_, fd) => fd.token).length < 6)) &&
    decide ((((mOf g1).setField 79 { token := true }).field 79).token = true) &&
    ([(0, 1), (3, 0), (1, 3)].all fun (p, t) => let m := (mOf g1).setField 79 { pst := p, target := t, moving := true }
     decide ((m.field 79).moving = true ∧ (m.field 79).token = false ∧ 79 ∉ m.hearth.wakes ∧ (m.field 79).pst = p ∧ (m.field 79).target = t)) := by
  decide +kernel

theorem wit_LinksAndRequestsAct :
    decide (linkOk 0 1 63 = true) &&
    (let pk : Packet := { dest := 0, ptag := 127, wtag := 0, port := 3, cls := 2 }
     decide (tileOk 0 = true ∧ pk.port.toNat < 4 ∧ pk.cls ≠ 3 ∧ (mOf g1).partOf 0 = some 0 ∧ pk.ptag ≠ BitVec.ofNat 7 0)) &&
    (let m : M := { mOf g1 with hearth := { (mOf g1).hearth with linkUp := [47] } }
     decide (47 ∈ m.hearth.linkUp ∧ 0 ∉ m.hearth.linkUp)) &&
    (let m := mappedFar 0 (mOf g1)
     [(some AtomOp.add, false, 8, []), (none, false, 3, []), (none, true, 2, [1#8, 2])].all fun (op, wr, n, bs) =>
     let r : RemoteReq := { dst := 0, part := 127, src := 1, world := 0, rworld := 0, va := 0xFFFFFFFFFFFFF8, size := n, op := op, write := wr, ferry := false,
                            b := 0, c := 0, data := bs }
     decide (r.src < 64 ∧ (m.linkTo r.part.toNat r.src).isSome = true ∧ m.hearth.modid = some r.dst ∧ r.va.toNat < 2 ^ 56 ∧
       (r.write = true → r.data.length = r.size) ∧ (r.write = false → r.op = none ∨ r.size = 4 ∨ r.size = 8) ∧ m.remoteWaits r = false)) := by decide +kernel

theorem wit_ErrorsAndResetAct :
    decide (((mOf g1).tile 0).latch = some 0 ∧ ((mOf g1).field 0).pst < 2 ∧ (mOf g1).booted = true) &&
    decide (38000 < (38001 : W32).toNat ∧ 95 < (96 : BitVec 8).toNat) &&
    decide (State.reset.nv.image = some 0 ∧ State.reset.nv.minSvn ≤ 0) &&
    (let h : Hearth := { (mOf g1).hearth with fwst := 1 }
     decide (h.off = false ∧ (1 : W64).getLsbD 0 = true ∧ h.fwst = 1)) := by decide +kernel

theorem wit_ExclusionsAndSnapshots :
    (let e : W64 := 0x80
     decide ((mOf g1).booted = true ∧ e ∉ State.reset.nv.log ∧ e ∉ State.reset.nv.fuse ∧ State.reset.nv.log.length < 16384 ∧
       (mOf g1).partOf (exTile e) = none ∧ (mOf g1).farOff 1 none = [] ∧ ((mOf g1).partOf (exTile 0)).isSome = true)) &&
    decide (16384 ≤ (List.replicate 16384 (0 : W64)).length) &&
    ([(1#64, false), (5, true), (3, false), (7, true)].all fun (v, op) => [false, true].all fun cut =>
     let m : M := if cut then mOf g1 else { mOf g1 with parts := [] }
     let go := m.setPort 15 { m.port 15 with snapctl := keep v 12 44 ||| keep v 1 2 }
     let places : M := { go with hearth := { m.hearth with snapAt := go.snapPlaces } }
     decide (m.responds = true ∧ v.getLsbD 0 = true ∧ v.getLsbD 2 = op ∧ m.booted = true ∧ m.hearth.snapstat ≠ 1) &&
       (go.snapPlaces.length == if v.getLsbD 1 then 80 else 0) && (!v.getLsbD 1 || places.mayRestore == !cut)) &&
    (let m := inTile (fun t => { t with latch := none }) (inPart (fun p => { p with latched := none, quiesce := 3 })
       { mOf g1 with hearth := { (mOf g1).hearth with snapstat := 1 } })
     decide (m.hearth.snapstat = 1 ∧ m.hearth.snapRestore = false ∧ ((m.parts.filter fun (_, p) => p.used).map (·.1)).all m.atRest = true)) &&
    ([0, 9].all fun d => let im : Image := { (mOf g1).image with places := [(15, 4096)], domain := d }
     let m : M := { mOf g1 with hearth := { (mOf g1).hearth with snapstat := 1, snapRestore := true, images := [im], snapAt := [(15, 4096)], domain := 9 } }
     decide (m.hearth.snapstat = 1 ∧ m.hearth.snapRestore = true ∧ im ∈ m.hearth.images ∧ im.places = m.hearth.snapAt ∧
       (∀ x ∈ m.hearth.images, x.places = m.hearth.snapAt → x = im) ∧ (im.domain = m.hearth.domain ↔ d = 9))) &&
    (let m : M := { mOf g1 with hearth := { (mOf g1).hearth with snapstat := 1, snapRestore := true, snapAt := [(15, 4096)] } }
     decide (m.hearth.snapstat = 1 ∧ m.hearth.snapRestore = true ∧ ∀ x ∈ m.hearth.images, x.places ≠ m.hearth.snapAt)) := by decide +kernel

/-- The LD of the manual's example that stands in a fetch block, as withFetchWord leaves it. -/
def placed : M := (State.reset.withFetchWord 96 0x000000008800000004051E41).m

theorem wit_StepRunsDecoded :
    let block (m : M) (g : Machine.Group) : Option FetchBlock := look (m.tile 0).fetch (blockKey 0 g.pc.toNat)
    let stands (full : Bool) (m : M) (g : Machine.Group) : Bool := m.pick == some (0, 0) && !(m.tile 0).tried.contains 0 && (m.tile 0).latch == some 0 &&
      (m.mark 0 0).mayIssue 0 0 0 g && !g.asleep && (block m g).isSome && (((m.mark 0 0).tile 0).setUsed 0 == full)
    (let m := placed
     m.agenda == [] && match look (m.wt 0 0).groups 0 with
       | some g => stands false m g && (block m g).any fun b => b.fault.isNone && match decode ((b.bytes g.team).drop (g.pc.toNat % 32)) with
             | .ok i n => n == 12 && !isTry i && !isOrdered i
             | _ => false
       | none => false) &&
    (let m : M := (State.reset.withFetchWord 64 (bytesNat ((encodeBytes (.stry h0 1 63)).getD []))).m
     match look (m.wt 0 0).groups 0 with
     | some g => stands false { m with agenda := [] } g && (block m g).any fun b => match decode ((b.bytes g.team).drop (g.pc.toNat % 32)) with
           | .ok i _ => isTry i && (({ m with agenda := [] } : M).mark 0 0 |>.keepBack 0 0 0 192 i).isSome
           | _ => false
     | none => false) &&
    ([([0xFF, 0xFF, 0xFF, 0xFF, 0xFF, 0xFF, 0xFF, 0xFF], none), ([], none), ([], some (Code.translation, 5))].all fun (bs, f) =>
     let m := inTile (fun t => { t with fetch := [(blockKey 0 0x10000, { data := bs, fault := f })] }) { placed with agenda := [.go] }
     [false, true].all fun full => let m1 : M := { m with agenda := [] }
       let m2 := if full then inTile (fun t => { t with lost := [0] }) m1 else m1
       match look (m2.wt 0 0).groups 0 with
       | some g => stands full m2 g
       | none => false) &&
    (let m := inTile (fun t => { t with lost := [0] }) placed
     match look (m.wt 0 0).groups 0 with
     | some g => stands true m g
     | none => false) &&
    (match decode [0xFF, 0xFF, 0xFF, 0xFF, 0xFF, 0xFF, 0xFF, 0xFF], decode [] with
       | .illegal, .boundary => true
       | _, _ => false) &&
    isEvent (.cycleCharge 0) &&
    ([false, true].all fun half => let a := { acc 8 9 (.hatom .add false 1 0) (.host 15) none with homek := 1, homeid := 15 }
     let b := { a with id := 9, lane := 1, phase := .done true 0, res := some (.data [0, 0, 0, 0]) }
     let m : M := { mOf g1 with acc := if half then [a, b] else [a] }
     m.between 15 a.pa 4 (fun _ => false) == half) := by decide +kernel

theorem wit_DecodeEncodeAgree :
    Instr.wf (.add { h0 with pg := 2, pn := true, ac := .lg } 255 254 (.imm 255)) = true ∧
    (encodeBytes (.add { h0 with pg := 2, pn := true, ac := .lg } 255 254 (.imm 255))).isSome = true := by decide +kernel

theorem wit_IssueChecks_form : ∃ body, ∀ s, exec (.movVector h0 255 254) s = issue h0 (regForm 8 255 1 (one 254)) s body := ⟨_, fun _ => rfl⟩

theorem wit_IssueChecks :
    let f := regForm 8 255 1 (one 254)
    (let g := { g1 with allot := 248 }
     let h := { h0 with ac := .lg }
     decide (Ready h f (stOf (mOf g)) (cOf h g) ∧ ¬ InAllot f g ∧ (∃ x ∈ f.vec, g.allot < x.1 + x.2))) &&
    (let h := { h0 with pn := true }
     decide (Ready h f (stOf (mOf g1)) (cOf h g1) ∧ (∀ x ∈ f.vec, x.1 + x.2 ≤ g1.allot) ∧ (cOf h g1).ex = [] ∧ pastEnd g1.pc f.len = false)) &&
    (let h := { h0 with ac := .lg }
     decide (Ready h f (stOf (mOf g1)) (cOf h g1) ∧ InAllot f g1 ∧ ¬ ClassOk h f)) &&
    ([true, false].all fun ll =>
     let g := { g1 with wins := [{ op := 5, lanes := [0], left := 3, obj := { vec := [(254, 1)] } }], ops := if ll then [pend 5 true 0] else [] }
     decide (Ready h0 f (stOf (mOf g)) (cOf h0 g) ∧ InAllot f g ∧ ClassOk h0 f ∧ (g.violators f (cOf h0 g).ex).isEmpty = false ∧
       ((∃ p ∈ g.ops, p.ll = true) ↔ ll = true))) &&
    ([true, false].all fun all =>
     let f : Form := { len := 8, waits := true, waitsAll := all, nonIdem := true, region := true }
     let g := { g2 with ops := [{ pend 5 true 0 with lanes := if all then [1] else [0] }] }
     let h := { h0 with pg := 0, pn := true }
     decide (Ready h f (stOf (mOf g)) (cOf h g) ∧ InAllot f g ∧ (g.violators f (cOf h g).ex).isEmpty = true ∧ f.waits = true ∧
       (cOf h g).ex.map (·.1) = [0] ∧ (g.ops.any fun p => p.ll && (f.waitsAll || (cOf h g).ex.any fun x => p.lanes.contains x.1)) = true)) &&
    (let f : Form := { len := 8, nonIdem := true }
     let g := { g1 with ops := [{ pend 5 true 0 with late := true }] }
     decide (Ready h0 f (stOf (mOf g)) (cOf h0 g) ∧ InAllot f g ∧ (g.violators f (cOf h0 g).ex).isEmpty = true ∧ f.nonIdem = true ∧
       (g.ops.any fun p => p.late && (cOf h0 g).ex.any fun x => p.lanes.contains x.1) = true)) := by
  decide +kernel

theorem wit_TransfersOutOfRange :
    (let g := grp [(0, 2), (62, 0x0100000000000000)] [(0, thr [])]
     let m := mOf g
     decide (Issues h0 (srcForm 8 [] [0]) (stOf m) (cOf h0 g) ∧ (g.kr 0).extractLsb' 0 2 ≠ 0#2 ∧
       Issues h0 (srcForm 8 [] [62]) (stOf m) (cOf h0 g) ∧ (g.kr 62).extractLsb' 0 2 = 0#2 ∧ (g.kr 62).extractLsb' 56 8 ≠ 0#8 ∧
       Issues h0 (srcForm 12 [] [62, 63]) (stOf m) (cOf h0 g) ∧ g.kr 63 &&& 15#64 = 0)) &&
    (let h := { h0 with pg := 0 }
     decide (Issues h { len := 12, waits := true, waitsAll := true, touch := [5] } (stOf (mOf g2)) (cOf h g2) ∧
       divergent g2 (cOf h g2).ex (g2.pc.setWidth 64 + (2 : W32).signExtend 64) = true ∧
       Issues h0 { len := 12 } (stOf (mOf g1)) (cOf h0 g1) ∧ divergent g1 (cOf h0 g1).ex (g1.pc.setWidth 64 + (2 : W32).signExtend 64) = false)) &&
    (let g := { g1 with pc := 0xFFFFFFFFFFFFFC }
     decide (Issues h0 (regForm 8 255 1 (one 254)) (stOf (mOf g)) (cOf h0 g) ∧ pastEnd g.pc 8 = true)) := by decide +kernel

/-- The last world stands on the last tile, every row restored. -/
def m2 (m : M) : M := (m.setTile 8191 { m.tile 8191 with latch := some 2047, out := none }).setWT 2047 8191 { m.wt 2047 8191 with restored := 10 }

theorem wit_StoredBytes :
    (let m := lined condBytes (mOf g1)
     decide (60 % 64 + ([1, 2, 3, 4] : List Byte).length ≤ 64 ∧ m.view 0 0 0 0 0 = .plain) && (m.fieldWrite 60 [1, 2, 3, 4] 0 0 0 0).isSome) &&
    (let a := { acc 8 9 .store (.home 0) none with data := [1, 2, 3, 4] }
     let m := under a (lined condBytes (mOf g1))
     decide (m.access 8 = some a ∧ m.ownEarlier a = false ∧ m.view (fieldKey 0 a.pa / 64) a.world a.key a.tid a.ver = .plain ∧
       fieldKey 0 a.pa % 64 + a.data.length ≤ 64 ∧ m.repairing a.line = false ∧ m.ecc.contains (fieldKey 0 a.pa / 64) = false)) &&
    (let a := { acc 8 9 .store (.scr 8191) none with world := 2047, data := [1, 2, 3, 4] }
     let m := under a (m2 (mOf g1))
     decide (m.access 8 = some a ∧ a.phase = .scr 8191 ∧ m.ownEarlier a = false ∧ m.rowWorld 8191 4 = some 2047)) &&
    (let m := mapped 0x20000 (mOf g3)
     let c := cOf h0 g3
     let mm := opB (.uni 1) .b4
     let r := m.checkAll c .write 4 0 (c.ex.map fun (l, th) => { wantOf c.g l th mm with data := dataBytes c.g th (.vec 2) .b4 })
     decide (IssuesSeq h0 (memForm 12 mm.base (DataReg.vecs .b4 (.vec 2)) [] (DataReg.unis (.vec 2))) (stOf m) c ∧ 5 ≤ (m.wt 0 0).restored ∧
       r.miss = [] ∧ r.bad = [] ∧ r.go.length = 1)) &&
    (let a := { acc 8 9 .store (.host 15) none with data := [1, 2, 3, 4] }
     decide ((under a (mOf g1)).access 8 = some a ∧ a.phase = .host 15 ∧ (under a (mOf g1)).ownEarlier a = false)) := by decide +kernel

theorem wit_FaultsAndVerdicts :
    (let m := mOf g2
     decide (look (m.wt 0 0).groups 0 = some g2 ∧ look (m.wt 0 0).parked 1 = none ∧ (m.launchOf 2).isSome = true ∧ g2.late = [] ∧ (g2.lanes.map (·.1)).Nodup ∧ g2.anyLL = false ∧
       5 ≤ (m.wt 0 0).restored ∧ (∀ x ∈ g2.lanes, x.1 < 32) ∧ m.hasRoom 0 0 0 ((m.wt 0 0).roomFor g2 1) = true ∧ Code.cls .translation = .replayable ∧ Code.cls .regAllot = .fatal) &&
       (m.launchOf 2).any fun x => decide (look m.launches x.1 = some x.2 ∧ x.2.ending = false)) &&
    (let m := inWorld (fun w => { w with tokens := [(1, { tile := 0, launch := 3 })] }) (mOf g1)
     decide ((look (m.world 0).tokens 1).isSome = true ∧ (look (m.world 0).tokens 2).isNone = true ∧ (look m.launches 3).isSome = true)) := by
  decide +kernel
theorem wit_LogKept : (match step State.reset with
    | .next t => decide (State.reset.nv.log.length ≤ 16384 ∧ t.nv.log.length ≤ 16384)
    | _ => false) = true := by decide +kernel

end Sys2Proof.Tests
end

/-! PROOFS. A control transfer out of its range, and a sequential advance past the last address (R18). -/

namespace Sys2Proof

open Machine

/-! ## Faults of the whole instruction -/

/-- A fault in each executing lane leaves no lane in which the instruction completed. -/
theorem filter_unfaulted_whole (ls : List (Nat × Thread)) (code : Code) (addr d : Nat) :
    ls.filter (fun x => !((whole ls code addr d).any (·.lane == x.1))) = [] := by
  rw [List.filter_eq_nil_iff]
  intro x hx
  have hmem : (whole ls code addr d).any (·.lane == x.1) = true :=
    List.any_eq_true.2 ⟨_, List.mem_map_of_mem hx, beq_self_eq_true x.1⟩
  simp [hmem]

/-- The end of an instruction that faults in each executing lane: its effect is discarded, the faults are taken. -/
theorem endRes_trap_whole (c : Ctx) (f : Form) (m m2 : M) (code : Code) (addr d : Nat) :
    endRes c f m (.trap m2 (whole c.ex code addr d)) =
      m.trapOr c (whole c.ex code addr d) (m.quit c.w c.t c.slot c.g) := by
  have hok := filter_unfaulted_whole c.ex code addr d
  simp only [endRes, hok, List.isEmpty_nil, if_true]

theorem whole_ne_nil {ls : List (Nat × Thread)} (hx : ls.isEmpty = false) (code : Code) (addr d : Nat) :
    whole ls code addr d ≠ [] := by
  cases ls with
  | nil => cases hx
  | cons x xs => exact List.cons_ne_nil _ _

/-! ## The faults of a bad target -/

theorem badTarget_of_misaligned (ls : List (Nat × Thread)) {target : W64} (h : target.extractLsb' 0 2 ≠ 0#2) :
    badTarget ls target = whole ls .alignment (target.extractLsb' 0 56).toNat 0 := if_pos h

theorem badTarget_of_beyond (ls : List (Nat × Thread)) {target : W64} (h : target.extractLsb' 0 2 = 0#2)
    (hb : target.extractLsb' 56 8 ≠ 0#8) :
    badTarget ls target = whole ls .translation (target.extractLsb' 0 56).toNat detailFetch :=
  (if_neg (not_not_intro h)).trans (if_pos hb)

theorem transfer_of_badTarget {c : Ctx} {target : W64} (hne : badTarget c.ex target ≠ []) (m : M) (eff : M → M) :
    transfer c m target eff = .trap m (badTarget c.ex target) := by
  unfold transfer
  split
  · next hnil => exact absurd hnil hne
  · rfl

/-- With an aligned stack pointer CALL and CALLX fault as their transfer does (R27). -/
theorem callTo_of_badTarget {c : Ctx} {target : W64} (hsp : c.g.kr 63 &&& 15#64 = 0)
    (hne : badTarget c.ex target ≠ []) (m : M) (len : Nat) :
    callTo c m len target = .trap m (badTarget c.ex target) :=
  (if_neg (not_not_intro hsp)).trans (transfer_of_badTarget hne m _)

/-! ## BR -/

/-- The form of a BR by its vote: a divergent one waits for the group's pending operations and touches the landing. -/
def brForm (div : Bool) : Form := { len := 12, waits := div, waitsAll := div, touch := if div then [5] else [] }

/-- BR's own effect. -/
def brBody (live : BitVec 8) (imm : W32) (c : Ctx) (m : M) : Res :=
  match badTarget c.ex (relTarget c.g.pc imm) with
  | [] =>
    if divergent c.g c.ex (relTarget c.g.pc imm) then
      divergeTo c live.toNat m ((relTarget c.g.pc imm).extractLsb' 0 56) (nextPc c.g.pc 12)
    else .jump m ((relTarget c.g.pc imm).extractLsb' 0 56)
  | fs => .trap m fs

theorem exec_br {h : Hdr} {s : State} {c : Ctx} (hc : ctxOf h s = some c) (live : BitVec 8) (imm : W32) :
    exec (.br h live imm) s =
      issue h (brForm (divergent c.g c.ex (relTarget c.g.pc imm))) s (brBody live imm) := by
  obtain ⟨hg, hex⟩ := ctx_some hc
  change execBr h live imm s = _
  unfold execBr
  rw [hg, hex]
  rfl

theorem brBody_of_badTarget {c : Ctx} {imm : W32} (hne : badTarget c.ex (relTarget c.g.pc imm) ≠ []) (m : M)
    (live : BitVec 8) : brBody live imm c m = .trap m (badTarget c.ex (relTarget c.g.pc imm)) := by
  unfold brBody
  split
  · next hnil => exact absurd hnil hne
  · rfl

/-! ## Instructions -/

/-- What follows when every executing lane takes the fault and nothing of the instruction takes effect (R18, R316). -/
def faulted (s : State) (c : Ctx) (code : Code) (addr d : Nat) : State :=
  { s with m := s.m.trapOr c (whole c.ex code addr d) (s.m.quit c.w c.t c.slot c.g) }

/-- Wherever the instruction issues with a target out of range it takes the fault of R18 in every executing lane. -/
def FaultsOutOfRange (i : Instr) (h : Hdr) (f : Form) (p : Ctx → Prop) (target : Ctx → W64) : Prop :=
  ∀ s c, Issues h f s c → p c →
    ((target c).extractLsb' 0 2 ≠ 0#2 → ∃ addr d, exec i s = .next (faulted s c .alignment addr d)) ∧
    ((target c).extractLsb' 0 2 = 0#2 → (target c).extractLsb' 56 8 ≠ 0#8 →
      ∃ addr d, exec i s = .next (faulted s c .translation addr d))

/-- An instruction whose body is a fault in every executing lane takes it there. -/
theorem issue_of_trap_whole {h : Hdr} {f : Form} {s : State} {c : Ctx} {body : Ctx → M → Res} {code : Code}
    {addr d : Nat} (hi : Issues h f s c) (hb : ∀ m, body c m = .trap m (whole c.ex code addr d)) :
    issue h f s body = .next (faulted s c code addr d) := by
  rw [issue_of body hi, hb, endRes_trap_whole]
  rfl

/-- An instruction whose body faults on a bad target faults out of range. -/
theorem faultsOutOfRange_of {i : Instr} {h : Hdr} {f : Form} {p : Ctx → Prop} {target : Ctx → W64}
    {body : Ctx → M → Res} (he : ∀ s c, Issues h f s c → p c → exec i s = issue h f s body)
    (hb : ∀ c m, p c → badTarget c.ex (target c) ≠ [] → body c m = .trap m (badTarget c.ex (target c))) :
    FaultsOutOfRange i h f p target := by
  intro s c hi hp
  have ⟨_, hex, _⟩ := hi
  have hfault : ∀ {code addr d}, badTarget c.ex (target c) = whole c.ex code addr d →
      exec i s = .next (faulted s c code addr d) := by
    intro code addr d hbad
    have hne : badTarget c.ex (target c) ≠ [] := hbad ▸ whole_ne_nil hex code addr d
    exact (he s c hi hp).trans (issue_of_trap_whole hi fun m => hbad ▸ hb c m hp hne)
  exact ⟨fun hmis => ⟨_, _, hfault (badTarget_of_misaligned c.ex hmis)⟩,
    fun hal hbey => ⟨_, _, hfault (badTarget_of_beyond c.ex hal hbey)⟩⟩

/-- BR, for either vote. -/
theorem br_faultsOutOfRange (h : Hdr) (live : BitVec 8) (imm : W32) (div : Bool) :
    FaultsOutOfRange (.br h live imm) h (brForm div)
      (fun c => divergent c.g c.ex (relTarget c.g.pc imm) = div) (fun c => relTarget c.g.pc imm) :=
  faultsOutOfRange_of (fun _ _ ⟨⟨hc, _⟩, _⟩ hdiv => hdiv ▸ exec_br hc live imm)
    fun _ m _ hne => brBody_of_badTarget hne m live

@[simp] theorem recOf_pc (m : M) (t slot : Nat) (g : Group) (r : Report) (token kind : Nat) :
    (m.recOf t slot g r token kind).pc = r.pc := rfl

@[simp] theorem recOf_code (m : M) (t slot : Nat) (g : Group) (r : Report) (token kind : Nat) :
    (m.recOf t slot g r token kind).code = r.code := rfl

/-- A completed instruction whose sequential advance leaves the address space is rejected: its effect is discarded. -/
theorem issue_of_done_pastEnd {h : Hdr} {f : Form} {s : State} {c : Ctx} {body : Ctx → M → Res} {m2 : M}
    (hi : Issues h f s c) (hb : body c (counted c f s.m) = .done m2) (hp : pastEnd c.g.pc f.len = true) :
    issue h f s body = .next { s with m := s.m.reject c c.ex .translation 0 detailFetch } := by
  have hend := issue_of body hi
  change _ = Host.Outcome.next { s with m := endRes c f s.m (body c (counted c f s.m)) } at hend
  rw [hend, hb]
  simp only [endRes, hp, if_true]
  rfl

/-- Settles O58: each transfer's body is the faults of its bad target, which stand in every executing lane. -/
theorem transfersOutOfRange : Obligations.TransfersOutOfRange := by
  intro h live imm a
  refine ⟨br_faultsOutOfRange h live imm false, br_faultsOutOfRange h live imm true, ?brx, ?call, ?callx, ?ret,
    ?sequential, ?record⟩
  case brx => exact faultsOutOfRange_of (fun _ _ _ _ => rfl) fun _ m _ hne => transfer_of_badTarget hne m _
  case call => exact faultsOutOfRange_of (fun _ _ _ _ => rfl) fun _ m hsp hne => callTo_of_badTarget hsp hne m 12
  case callx => exact faultsOutOfRange_of (fun _ _ _ _ => rfl) fun _ m hsp hne => callTo_of_badTarget hsp hne m 8
  case ret => exact faultsOutOfRange_of (fun _ _ _ _ => rfl) fun _ m _ hne => transfer_of_badTarget hne m _
  case sequential =>
    intro i f body s c m2 he hi hb hp
    exact ⟨0, detailFetch, he.trans (issue_of_done_pastEnd hi hb hp)⟩
  case record => exact fun _ _ _ _ _ _ _ => ⟨recOf_pc .., recOf_code ..⟩

end Sys2Proof

/-! PROOFS. Instructions that write vector registers of their executing lanes, and integer arithmetic (R68 to R73). -/

namespace Sys2Proof

open Machine

/-! ## Register writes -/

/-- An instruction whose body changes the threads of its executing lanes alone. -/
theorem writes_of_onLanes {i : Instr} {h : Hdr} {f : Form} {v : Thread → Thread}
    (he : ∀ s, exec i s = issue h f s fun c m => .done (m.onLanes c fun _ => v)) :
    Writes i h f fun c => onEx c v :=
  writes_of _ he fun _ _ _ => rfl

/-- An instruction that sets a vector register writes any value that the model's operation equals in each thread. -/
theorem writes_of_setReg {i : Instr} {h : Hdr} {f : Form} {d : BitVec 8} {op val : Thread → W32}
    (hval : ∀ th, op th = val th) (he : ∀ s, exec i s = setReg h f d s op) :
    Writes i h f fun c => onEx c fun th => th.setX d.toNat (val th) := by
  obtain rfl : op = val := funext hval
  exact writes_of_onLanes he

/-! ## Integer arithmetic -/

/-- The 64-bit product of MULW, of operands extended as its form says (R71). -/
theorem mulwV_eq (u : Bool) (x y : W32) :
    mulwV u x y = if u then x.setWidth 64 * y.setWidth 64 else x.signExtend 64 * y.signExtend 64 := by
  cases u with
  | true => exact mulwV_true x y
  | false => exact mulwV_false x y

theorem mulw_writes (h : Hdr) (u : Bool) (d a : BitVec 8) (t : Src) :
    Writes (.mulw h u d a t) h (regForm 8 d 2 (one a ++ t.vecs) .exOnly) fun c => onEx c fun th =>
      th.setPair d.toNat (if u then (th.xr a.toNat).setWidth 64 * (srcV th t).setWidth 64
        else (th.xr a.toNat).signExtend 64 * (srcV th t).signExtend 64) := by
  simp only [← mulwV_eq]
  exact writes_of_onLanes fun _ => rfl

/-- Settles O1: each instruction sets a register or a pair, and the law of its operation gives the value of Table 4-2. -/
theorem integerArithmeticCompletes : Obligations.IntegerArithmeticCompletes := by
  intro h d a b t imm u sat f2 m2 f1 two
  refine ⟨?add, ?sub, ?mul, ?mulh, ?mulhu, ?div, ?divu, ?rem, ?remu, ?min, ?max, ?minu, ?maxu, ?addsat, ?subsat,
    ?addi, mulw_writes h u d a t, ?mad, ?abs, ?neg⟩
  case add | sub | min | max | minu | maxu | addsat | subsat | addi | mad => exact writes_of_onLanes fun _ => rfl
  case mul => exact writes_of_setReg (fun _ => mulV_eq ..) fun _ => rfl
  case mulh => exact writes_of_setReg (fun _ => mulhV_eq ..) fun _ => rfl
  case mulhu => exact writes_of_setReg (fun _ => mulhuV_eq ..) fun _ => rfl
  case div => exact writes_of_setReg (fun _ => divS_eq ..) fun _ => rfl
  case divu => exact writes_of_setReg (fun _ => divU_eq ..) fun _ => rfl
  case rem => exact writes_of_setReg (fun _ => remS_eq ..) fun _ => rfl
  case remu => exact writes_of_setReg (fun _ => remU_eq ..) fun _ => rfl
  case abs => exact writes_of_setReg (fun _ => absV_eq ..) fun _ => rfl
  case neg => exact writes_of_setReg (fun _ => negV_eq ..) fun _ => rfl

end Sys2Proof

/-! PROOFS. Slabs: HBIND and its release, the slab loads and stores, and SLABQ (R178 to R180, R223 to R226). -/

namespace Sys2Proof

open Machine

/-- An instruction that completes with its effect wherever a lane executes it and its own conditions hold. -/
theorem does_of_done {i : Instr} {h : Hdr} {f : Form} {p : Ctx → M → Prop} {e : Ctx → M → M} (body : Ctx → M → Res)
    (he : ∀ s, exec i s = issue h f s body)
    (hb : ∀ c m, c.ex.isEmpty = false → p c m → body c m = .done (e c m)) : Does i h f p e :=
  does_of body (fun s _ _ _ => he s) fun _ c ⟨⟨_, hex, _⟩, _⟩ hp => hb c _ hex hp

/-! ## Slab accesses -/

/-- The entry of the group's tile that an instruction names (R178). -/
abbrev slabAt (c : Ctx) (m : M) (slab : BitVec 8) : Slab := (m.wt c.w c.t).slab slab.toNat

/-- Every executing lane reaches a scratch byte of the slab, where no access of its thread is still to perform (R28,
R198, R224). -/
def LanesReach (c : Ctx) (m : M) (load : Bool) (k : TKind) (e : Slab) (size : Nat) (a : BitVec 8) (off : BitVec 24) : Prop :=
  ∀ x ∈ c.ex, ∃ o, slabLane k e size x.1 x.2 a off = .inr o ∧ m.windowAhead c load size x.2 (.inr o) = false

section

variable {c : Ctx} {m : M} {load : Bool} {k : TKind} {e : Slab} {size : Nat} {a : BitVec 8} {off : BitVec 24}

theorem LanesReach.windowAhead_eq_false (hr : LanesReach c m load k e size a off) :
    (c.ex.any fun x => m.windowAhead c load size x.2 (slabLane k e size x.1 x.2 a off)) = false := by
  refine List.any_eq_false.2 fun x hx => ?_
  obtain ⟨o, ho, hahead⟩ := hr x hx
  simp only [ho, hahead, Bool.false_eq_true, not_false_eq_true]

theorem LanesReach.faults_eq_nil (hr : LanesReach c m load k e size a off) :
    (c.ex.filterMap fun x => (slabLane k e size x.1 x.2 a off).getLeft?) = [] := by
  refine List.filterMap_eq_nil_iff.2 fun x hx => ?_
  obtain ⟨o, ho, -⟩ := hr x hx
  rw [ho]
  rfl

end

/-- What an LDSL of a lane that reaches a scratch byte loads (R86, R224). -/
def slabLoad (wt : WT) (e : Slab) (sx : Bool) (sz : Sz) (a : BitVec 8) (off : BitVec 24) (x : Nat × Thread) :
    Option (Nat × List W32) :=
  match slabLane .read e sz.bytes x.1 x.2 a off with
  | .inl _ => none
  | .inr o => some (x.1, (List.range sz.regs).map fun i =>
      (placeVec { idx := 0 } 0 sx sz (Memory.readN wt.scratch o sz.bytes)).xr i)

/-- With an executing lane, and each reaching a scratch byte, some lane loads. -/
theorem LanesReach.slabLoads_isEmpty {c : Ctx} {m : M} {load : Bool} {e : Slab} {sz : Sz} {a : BitVec 8} {off : BitVec 24}
    (hr : LanesReach c m load .read e sz.bytes a off) (hex : c.ex.isEmpty = false) (wt : WT) (sx : Bool) :
    (c.ex.filterMap (slabLoad wt e sx sz a off)).isEmpty = false := by
  rw [List.isEmpty_eq_false_iff_exists_mem] at hex ⊢
  obtain ⟨x, hx⟩ := hex
  obtain ⟨o, ho, -⟩ := hr x hx
  have hload : (slabLoad wt e sx sz a off x).isSome = true := by rw [slabLoad, ho]; rfl
  exact ⟨_, List.mem_filterMap.2 ⟨x, hx, Option.eq_some_of_isSome hload⟩⟩

/-- The pending load that LDSL leaves (R55, R224). -/
def slabPend (c : Ctx) (d : BitVec 8) (m : M) (vals : AMap (List W32)) : Pend :=
  { id := m.uid, pc := c.g.pc, len := 12, ll := true, late := false, nonIdem := false, dest := .quad d vals,
    lanes := vals.map (·.1) }

theorem ldsl_does (h : Hdr) (d : BitVec 8) (sx : Bool) (sz : Sz) (slab a : BitVec 8) (off : BitVec 24) :
    Does (.ldsl h d sx sz slab a off) h { regForm 12 d sz.regs (one a) with touch := [1, 4] }
      (fun c m => (slabAt c m slab).st = .ready ∧ LanesReach c m true .read (slabAt c m slab) sz.bytes a off)
      (fun c m => ({ m with uid := m.uid + 1 } : M).beginLL c h
        (slabPend c d m (c.ex.filterMap (slabLoad (m.wt c.w c.t) (slabAt c m slab) sx sz a off)))
        { vec := [(d.toNat, sz.regs)] }) := by
  refine does_of_done _ (fun _ => rfl) fun c m hex ⟨hst, hreach⟩ => ?_
  have hsome := hreach.slabLoads_isEmpty hex (m.wt c.w c.t) sx
  simp only [List.any_map, List.filterMap_map]
  refine (if_neg (not_not_intro hst)).trans ?_
  refine (if_neg (Bool.eq_false_iff.1 hreach.windowAhead_eq_false)).trans ?_
  refine (if_pos (List.isEmpty_iff.2 hreach.faults_eq_nil)).trans ?_
  exact congrArg Res.done (if_neg (Bool.eq_false_iff.1 hsome))

/-- What an STSL of a lane stores (R86, R224). -/
def slabStore (c : Ctx) (e : Slab) (sz : Sz) (a : BitVec 8) (off : BitVec 24) (b : DataReg) (m : M) (x : Nat × Thread) : M :=
  match slabLane .write e sz.bytes x.1 x.2 a off with
  | .inl _ => m
  | .inr o => m.scratchWrite c.w c.t o (dataBytes c.g x.2 b sz)

theorem stsl_does (h : Hdr) (sz : Sz) (slab a : BitVec 8) (off : BitVec 24) (b : DataReg) :
    Does (.stsl h sz slab a off b) h { srcForm 12 (one a ++ b.vecs sz) b.unis with touch := [1, 4] }
      (fun c m => (slabAt c m slab).st = .ready ∧ LanesReach c m false .write (slabAt c m slab) sz.bytes a off)
      (fun c m => c.ex.foldl (slabStore c (slabAt c m slab) sz a off b) m) := by
  refine does_of_done _ (fun _ => rfl) fun c m _ ⟨hst, hreach⟩ => ?_
  simp only [List.any_map, List.filterMap_map, List.foldl_map]
  refine (if_neg (not_not_intro hst)).trans ?_
  refine (if_neg (Bool.eq_false_iff.1 hreach.windowAhead_eq_false)).trans ?_
  exact if_pos (List.isEmpty_iff.2 hreach.faults_eq_nil)

/-! ## The slab table -/

/-- The form of HBIND and HBIND.rel. -/
def hbindForm (us : List Nat) : Form :=
  { srcForm 12 [] us with nonIdem := true, region := true, once := true, touch := [1] }

/-- A number of the team of the group (R225). -/
def teamNum (c : Ctx) (m : M) (f : Team → Nat) : Nat := ((look m.teams c.g.team).map f).getD 0

/-- The footprint lies in operand slots the team has claimed, or in the team's scratch (R225). -/
def HbindInside (c : Ctx) (m : M) (loc : Bool) (base fp : Nat) : Prop :=
  if loc then base + fp ≤ 2048 * 128 ∧ ∀ i ∈ slotsOf base fp, look (m.wt c.w c.t).claims i = some c.g.team
  else base + fp ≤ teamNum c m (·.scratchLen)

theorem hbindInside_iff (c : Ctx) (m : M) (loc : Bool) (base fp : Nat) :
    (if loc then
        decide (base + fp ≤ 2048 * 128) && (slotsOf base fp).all fun i => look (m.wt c.w c.t).claims i == some c.g.team
      else decide (base + fp ≤ teamNum c m (·.scratchLen))) = true ↔ HbindInside c m loc base fp := by
  cases loc with
  | false => exact decide_eq_true_iff
  | true => simp [HbindInside]

/-- The entry that HBIND makes (R225). -/
def hbound (c : Ctx) (m : M) (loc : Bool) (fmt : BitVec 4) (span : BitVec 3) (size : BitVec 20) (base : Nat) : Slab :=
  { st := .ready, owner := 0xFF, loc := loc, fmt := fmt, span := span, size := size,
    offset := BitVec.ofNat 20 (if loc then base else teamNum c m (·.scratch) + base) }

theorem hbind_does (h : Hdr) (slab : BitVec 8) (ka : BitVec 6) (loc : Bool) (fmt : BitVec 4) (span : BitVec 3)
    (size : BitVec 20) :
    Does (.hbind h slab ka loc fmt span size) h (hbindForm [ka.toNat])
      (fun c m => (slabAt c m slab).st = .empty ∧ (c.g.kr ka.toNat).toNat % 2 ^ 20 % 16 = 0 ∧
        HbindInside c m loc ((c.g.kr ka.toNat).toNat % 2 ^ 20) (footprint span.toNat size.toNat))
      (fun c m =>
        let e := hbound c m loc fmt span size ((c.g.kr ka.toNat).toNat % 2 ^ 20)
        m.setWT c.w c.t { (m.wt c.w c.t).setSlab slab.toNat e with
          spans := e.slots.foldl (fun sp i => mset 0 sp i span.toNat) (m.wt c.w c.t).spans }) := by
  refine does_of_done _ (fun _ => rfl) fun c m _ ⟨hst, halign, hinside⟩ => ?_
  have hfits := congrArg not ((hbindInside_iff ..).2 hinside)
  simp only [BitVec.extractLsb'_toNat, Nat.shiftRight_zero]
  refine (if_neg (not_not_intro hst)).trans (if_neg (Bool.eq_false_iff.1 (Bool.or_eq_false_iff.2 ⟨?_, hfits⟩)))
  exact decide_eq_false (not_not_intro halign)

theorem hbindRel_does (h : Hdr) (slab : BitVec 8) :
    Does (.hbindRel h slab) h (hbindForm [])
      (fun c m => (slabAt c m slab).st = .ready ∧ (slabAt c m slab).owner = 0xFF ∧
        (m.wt c.w c.t).passReads (slabAt c m slab) = false)
      (fun c m => m.setWT c.w c.t ((m.wt c.w c.t).setSlab slab.toNat { slabAt c m slab with st := .empty })) := by
  refine does_of_done _ (fun _ => rfl) fun c m _ ⟨hst, hown, hfree⟩ => ?_
  refine (if_neg (by rw [hst]; decide)).trans ?_
  refine (if_neg (by rw [hst, hown]; decide)).trans ?_
  exact if_neg (Bool.eq_false_iff.1 hfree)

theorem slabq_does (h : Hdr) (d slab : BitVec 8) :
    Does (.slabq h d slab) h { regForm 8 d 4 [] with touch := [1] } (fun _ _ => True)
      (fun c m => m.onLanes c fun _ th => th.setXs d.toNat (slabAt c m slab).words) :=
  does_of_done _ (fun _ => rfl) fun _ _ _ _ => rfl

/-- Settles O15: the conditions of each instruction leave it the one branch in which it completes. -/
theorem slabsComplete : Obligations.SlabsComplete := by
  intro h d slab a ka sx loc sz off b fmt span size entry reg base fp team new
  exact ⟨hbind_does h slab ka loc fmt span size, hbindRel_does h slab, ldsl_does h d sx sz slab a off,
    stsl_does h sz slab a off b, slabq_does h d slab⟩

end Sys2Proof

/-! PROOFS. Decoding gives back what encoding lays down: bytes, fields, operand codes, and each instruction (R48 to R59). -/

namespace Sys2Proof

/-! ## Bytes of a word -/

theorem leBytes_length (n v : Nat) : (leBytes n v).length = n := by
  induction n generalizing v with
  | zero => rfl
  | succ n ih => simp [leBytes, ih]

theorem leNat_leBytes (n v : Nat) : leNat (leBytes n v) = v % 256 ^ n := by
  induction n generalizing v with
  | zero => exact (Nat.mod_one v).symm
  | succ n ih =>
    rw [pow_succ' 256 n, Nat.mod_mul, ← ih, leBytes, leNat, BitVec.toNat_ofNat]

theorem take_leBytes {k n : Nat} (v : Nat) (h : k ≤ n) : (leBytes n v).take k = leBytes k v := by
  induction k generalizing n v with
  | zero => rfl
  | succ k ih =>
    cases n with
    | zero => exact absurd h (Nat.not_succ_le_zero k)
    | succ n => exact congrArg _ (ih _ (Nat.le_of_succ_le_succ h))

/-! ## Fields of a word -/

theorem extractLsb'_append_above {v w : Nat} (hi : BitVec v) (lo : BitVec w) (s n : Nat) :
    (hi ++ lo).extractLsb' (s + w) n = hi.extractLsb' s n := by
  rw [BitVec.extractLsb'_append_eq_of_le (Nat.le_add_left ..), Nat.add_sub_cancel]

/-- Fields are read back from the word that holds them: each lies above the fields on its right, and is the rest. -/
theorem Fields.unpack_pack (f : Fields) : Fields.unpack f.pack = f := by
  obtain ⟨md, sub, ac, c, b, a, d, la, pn, pg, op, len, x0, x1⟩ := f
  unfold Fields.unpack Fields.pack
  simp only [Fields.mk.injEq]
  refine ⟨?md, ?sub, ?ac, ?c, ?b, ?a, ?d, ?la, ?pn, ?pg, ?op, ?len, ?x0, ?x1⟩
  case len => exact BitVec.extractLsb'_append_eq_right
  all_goals refine (extractLsb'_append_above _ _ _ _).trans ?_
  case op => exact BitVec.extractLsb'_append_eq_right
  all_goals refine (extractLsb'_append_above _ _ _ _).trans ?_
  case pg => exact BitVec.extractLsb'_append_eq_right
  all_goals refine (extractLsb'_append_above _ _ _ _).trans ?_
  case pn => exact BitVec.extractLsb'_append_eq_right
  all_goals refine (extractLsb'_append_above _ _ _ _).trans ?_
  case la => exact BitVec.extractLsb'_append_eq_right
  all_goals refine (extractLsb'_append_above _ _ _ _).trans ?_
  case d => exact BitVec.extractLsb'_append_eq_right
  all_goals refine (extractLsb'_append_above _ _ _ _).trans ?_
  case a => exact BitVec.extractLsb'_append_eq_right
  all_goals refine (extractLsb'_append_above _ _ _ _).trans ?_
  case b => exact BitVec.extractLsb'_append_eq_right
  all_goals refine (extractLsb'_append_above _ _ _ _).trans ?_
  case c => exact BitVec.extractLsb'_append_eq_right
  all_goals refine (extractLsb'_append_above _ _ _ _).trans ?_
  case ac => exact BitVec.extractLsb'_append_eq_right
  all_goals refine (extractLsb'_append_above _ _ _ _).trans ?_
  case sub => exact BitVec.extractLsb'_append_eq_right
  all_goals refine (extractLsb'_append_above _ _ _ _).trans ?_
  case md => exact BitVec.extractLsb'_append_eq_right
  all_goals refine (extractLsb'_append_above _ _ _ _).trans ?_
  case x0 => exact BitVec.extractLsb'_append_eq_right
  case x1 => exact BitVec.extractLsb'_append_eq_left

theorem toNat_append_lt {v w k : Nat} {hi : BitVec v} (lo : BitVec w) (h : hi.toNat < 2 ^ k) :
    (hi ++ lo).toNat < 2 ^ (k + w) := by
  rw [BitVec.toNat_append, ← Nat.shiftLeft_add_eq_or_of_lt lo.isLt, Nat.shiftLeft_eq, Nat.pow_add]
  have := lo.isLt
  nlinarith

/-- The base word takes the low 64 bits (R49). -/
theorem Fields.pack_lt {f : Fields} {k : Nat} (h : (f.x1 ++ f.x0).toNat < 2 ^ k) : f.pack.toNat < 2 ^ (k + 64) :=
  toNat_append_lt f.len <| toNat_append_lt f.op <| toNat_append_lt f.pg <| toNat_append_lt f.pn <|
    toNat_append_lt f.la <| toNat_append_lt f.d <| toNat_append_lt f.a <| toNat_append_lt f.b <|
    toNat_append_lt f.c <| toNat_append_lt f.ac <| toNat_append_lt f.sub <| toNat_append_lt f.md h

/-- The extension words that the length lacks are zero (R52). -/
def Fields.Fits (f : Fields) : Prop := (f.len = 0 → f.x0 = 0) ∧ (f.len ≠ 2 → f.x1 = 0)

theorem Fields.Fits.pack_lt {f : Fields} (hf : f.Fits) (hlen : f.len ≠ 3) : f.pack.toNat < 256 ^ lenBytes f.len := by
  obtain ⟨hx0, hx1⟩ := hf
  obtain hl | hl | hl : f.len = 0 ∨ f.len = 1 ∨ f.len = 2 := by revert hlen; generalize f.len = l; revert l; decide
  · have hext : (f.x1 ++ f.x0).toNat < 2 ^ 0 := by rw [hx0 hl, hx1 (by rw [hl]; decide)]; decide
    have hsize : 256 ^ lenBytes f.len = 2 ^ (0 + 64) := by rw [hl]; rfl
    exact hsize ▸ Fields.pack_lt hext
  · have hext : (f.x1 ++ f.x0).toNat < 2 ^ 32 := by
      rw [hx1 (by rw [hl]; decide)]
      exact toNat_append_lt (k := 0) f.x0 (by decide)
    have hsize : 256 ^ lenBytes f.len = 2 ^ (32 + 64) := by rw [hl]; rfl
    exact hsize ▸ Fields.pack_lt hext
  · have hsize : 256 ^ lenBytes f.len = 2 ^ 128 := by rw [hl]; rfl
    exact hsize ▸ f.pack.isLt

theorem ofNat_pack {f : Fields} {n : Nat} (hf : f.pack.toNat < 256 ^ n) :
    BitVec.ofNat 128 (leNat (leBytes n f.pack.toNat)) = f.pack := by
  rw [leNat_leBytes, Nat.mod_eq_of_lt hf, BitVec.ofNat_toNat, BitVec.setWidth_eq]

/-- The length and the opcode lie in the first two bytes (R48). -/
theorem head_unpack (w : BitVec 128) :
    let f := Fields.unpack (BitVec.ofNat 128 (w.toNat % 256 ^ 2))
    f.op = (Fields.unpack w).op ∧ f.len = (Fields.unpack w).len := by
  have hlt : w.toNat % 256 ^ 2 < 2 ^ 128 := Nat.lt_of_le_of_lt (Nat.mod_le ..) w.isLt
  refine ⟨BitVec.eq_of_toNat_eq ?_, BitVec.eq_of_toNat_eq ?_⟩ <;>
    simp only [Fields.unpack, BitVec.extractLsb'_toNat, BitVec.toNat_ofNat, Nat.mod_eq_of_lt hlt,
      Nat.shiftRight_eq_div_pow] <;> omega

theorem not_headBad_of_decodeFields {f : Fields} {i : Instr} (h : decodeFields f = some i) :
    headBad f.op.toNat f.len = false := by
  by_cases hop : f.op.toNat = 0
  · by_contra hbad
    have hlen : f.len = 3#2 := by simpa [headBad, hop] using hbad
    have hnone : decodeFields f = none := by simp [decodeFields, hop, decNop, hlen]
    exact Option.some_ne_none i (h.symm.trans hnone)
  · by_contra hbad
    have hnone : decodeFields f = none := by simp [decodeFields, hop, hbad]
    exact Option.some_ne_none i (h.symm.trans hnone)

theorem len_ne_three_of_decodeFields {f : Fields} {i : Instr} (h : decodeFields f = some i) : f.len ≠ 3 := by
  intro hlen
  have hbad := not_headBad_of_decodeFields h
  rw [hlen] at hbad
  unfold headBad lenOfOp at hbad
  split_ifs at hbad <;> simp_all

/-- Bytes whose word decodes, decode so whatever follows them in their block (R48, R58). -/
theorem decode_pack_append {f : Fields} {i : Instr} (hf : f.Fits) (h : decodeFields f = some i) (after : List Byte) :
    decode (leBytes (lenBytes f.len) f.pack.toNat ++ after) = .ok i (lenBytes f.len) := by
  have hlt := hf.pack_lt (len_ne_three_of_decodeFields h)
  have hlen := leBytes_length (lenBytes f.len) f.pack.toNat
  have htwo : 2 ≤ lenBytes f.len := by unfold lenBytes; omega
  have hhead : leNat ((leBytes (lenBytes f.len) f.pack.toNat ++ after).take 2) = f.pack.toNat % 256 ^ 2 := by
    rw [List.take_append_of_le_length (by omega), take_leBytes _ htwo, leNat_leBytes]
  obtain ⟨hop, hl⟩ := head_unpack f.pack
  rw [Fields.unpack_pack] at hop hl
  have hword : (leBytes (lenBytes f.len) f.pack.toNat ++ after).take (lenBytes f.len) =
      leBytes (lenBytes f.len) f.pack.toNat := by
    rw [List.take_append_of_le_length (by omega), take_leBytes _ (Nat.le_refl _)]
  have hroom : ¬ (leBytes (lenBytes f.len) f.pack.toNat ++ after).length < lenBytes f.len := by
    rw [List.length_append, hlen]; omega
  unfold decode
  simp only [hhead, hop, hl, not_headBad_of_decodeFields h, hroom, hword, ofNat_pack hlt, Fields.unpack_pack, h,
    Bool.false_eq_true, if_false]

/-! ## Codes and operand fields are read back -/

@[simp] theorem AccClass.ofCode_code (v : AccClass) : AccClass.ofCode v.code = some v := by cases v <;> rfl
@[simp] theorem Rm.ofCode_code (v : Rm) : Rm.ofCode v.code = v := by cases v <;> rfl
@[simp] theorem Fmt.ofCode_code (v : Fmt) : Fmt.ofCode v.code = some v := by cases v <;> rfl
@[simp] theorem Sz.ofCode_code (v : Sz) : Sz.ofCode v.code = some v := by cases v <;> rfl
@[simp] theorem Lc.ofCode_code (v : Lc) : Lc.ofCode v.code = some v := by cases v <;> rfl
@[simp] theorem Hint.ofCode_code (v : Hint) : Hint.ofCode v.code = some v := by cases v <;> rfl
@[simp] theorem Scope.ofCode_code (v : Scope) : Scope.ofCode v.code = some v := by cases v <;> rfl
@[simp] theorem Cond.ofCode_code (v : Cond) : Cond.ofCode v.code = some v := by cases v <;> rfl
@[simp] theorem FCond.ofCode_code (v : FCond) : FCond.ofCode v.code = some v := by cases v <;> rfl
@[simp] theorem SgnOp.ofCode_code (v : SgnOp) : SgnOp.ofCode v.code = some v := by cases v <;> rfl
@[simp] theorem FillKind.ofCode_code (v : FillKind) : FillKind.ofCode v.code = some v := by cases v <;> rfl
@[simp] theorem AtomOp.ofCode_code (v : AtomOp) : AtomOp.ofCode v.code = some v := by cases v <;> rfl
@[simp] theorem HostAtomOp.ofCode_code (v : HostAtomOp) : HostAtomOp.ofCode v.code = some v := by cases v <;> rfl
@[simp] theorem RedOp.ofCode_code (v : RedOp) : RedOp.ofCode v.code = some v := by cases v <;> rfl
@[simp] theorem KeyTy.ofCode_code (v : KeyTy) : KeyTy.ofCode v.code = some v := by cases v <;> rfl
@[simp] theorem ShflOp.ofCode_code (v : ShflOp) : ShflOp.ofCode v.code = some v := by cases v <;> rfl
@[simp] theorem FenceDir.ofCode_code (v : FenceDir) : FenceDir.ofCode v.code = some v := by cases v <;> rfl
@[simp] theorem Verdict.ofCode_code (v : Verdict) : Verdict.ofCode v.code = some v := by cases v <;> rfl
@[simp] theorem Af.ofCode_code (v : Af) : Af.ofCode v.code = some v := by cases v <;> rfl
@[simp] theorem Ty.ofCode_code (v : Ty) : Ty.ofCode v.code = some v := by cases v <;> rfl

@[simp] theorem chk_true : chk true = some () := rfl

@[simp] theorem narrow_setWidth {n m : Nat} (v : BitVec n) (h : n ≤ m) : narrow n (v.setWidth m) = some v := by
  have hv : (v.setWidth m).toNat = v.toNat := BitVec.toNat_setWidth_of_le h
  rw [narrow, if_pos (hv ▸ v.isLt)]
  exact congrArg some (BitVec.eq_of_toNat_eq (by simp [hv]))

@[simp] theorem narrow_zero {n m : Nat} : narrow n (0#m) = some 0#n := by simp [narrow]

theorem pairF_of {v : BitVec 8} (h : pairOk v = true) : pairF v = some v := if_pos h
theorem quadF_of {v : BitVec 8} (h : quadOk v = true) : quadF v = some v := if_pos h

@[simp] theorem opdF_field {uf : Bool} {o : Opd64} (h : o.ok uf = true) : opdF uf o.field = some o := by
  cases o with
  | pair r =>
    obtain ⟨huf, hr⟩ : uf = false ∧ pairOk r = true := by simpa [Opd64.ok] using h
    simp [opdF, huf, Opd64.field, pairF_of hr]
  | uni k =>
    obtain rfl : uf = true := h
    simp [opdF, Opd64.field]

theorem opdF_base {o : Opd64} (h : o.baseOk = true) : opdF o.isUni o.field = some o := opdF_field h

theorem datF_field {sz : Sz} {d : DataReg} (h : d.ok sz = true) : datF d.isUni sz d.field = some d := by
  cases d with
  | vec r => exact if_pos h
  | uni k =>
    have hsz : sz ≠ .b16 := by simpa [DataReg.ok] using h
    simp [datF, DataReg.isUni, DataReg.field, hsz]

theorem srcF_put (s : Src) : srcF s.ci s.fb s.fc = some s := by cases s <;> rfl

theorem thirdF_put (t : Src) : thirdF t.ci t.third = t := by cases t <;> rfl

theorem src64F_put {uf : Bool} {s : Src64} (h : s.ok uf = true) : src64F s.ci uf s.fb s.fc = some s := by
  cases s with
  | opd o => simp [src64F, Src64.ci, Src64.fc, Src64.fb, opdF_field (show o.ok uf = true from h)]
  | imm i => rfl

/-! ## Fields within SUB, MOD and the extensions -/

@[simp] theorem ciSub_msb (ci : Bool) (low : BitVec 5) : (ciSub ci low).msb = ci := by
  revert low; cases ci <;> decide

@[simp] theorem ciSub_low (ci : Bool) (low : BitVec 5) : (ciSub ci low).extractLsb' 0 5 = low :=
  BitVec.extractLsb'_append_eq_right

@[simp] theorem wideSub_msb (ci uf : Bool) (low : BitVec 4) : (wideSub ci uf low).msb = ci := by
  revert low; cases ci <;> cases uf <;> decide

@[simp] theorem wideSub_uf (ci uf : Bool) (low : BitVec 4) : (wideSub ci uf low)[4] = uf := by
  revert low; cases ci <;> cases uf <;> decide

@[simp] theorem wideSub_low (ci uf : Bool) (low : BitVec 4) : (wideSub ci uf low).extractLsb' 0 4 = low :=
  BitVec.extractLsb'_append_eq_right

/-! ## The header -/

section

variable (h : Hdr) (len : BitVec 2) (op : BitVec 8) (f : Fields)

@[simp] theorem Hdr.put_md : (h.put len op f).md = f.md := rfl
@[simp] theorem Hdr.put_sub : (h.put len op f).sub = f.sub := rfl
@[simp] theorem Hdr.put_a : (h.put len op f).a = f.a := rfl
@[simp] theorem Hdr.put_b : (h.put len op f).b = f.b := rfl
@[simp] theorem Hdr.put_c : (h.put len op f).c = f.c := rfl
@[simp] theorem Hdr.put_d : (h.put len op f).d = f.d := rfl
@[simp] theorem Hdr.put_x0 : (h.put len op f).x0 = f.x0 := rfl
@[simp] theorem Hdr.put_x1 : (h.put len op f).x1 = f.x1 := rfl
@[simp] theorem Hdr.put_op : (h.put len op f).op = op := rfl
@[simp] theorem Hdr.put_len : (h.put len op f).len = len := rfl

end

@[simp] theorem Hdr.hdr_put_ll (h : Hdr) (len : BitVec 2) (op : BitVec 8) (f : Fields) :
    (h.put len op f).hdr true = some h := by
  obtain ⟨pg, pn, ac, la⟩ := h
  cases pn <;> simp [Fields.hdr, Hdr.put]

@[simp] theorem Hdr.hdr_put {h : Hdr} (hla : h.noLa = true) (len : BitVec 2) (op : BitVec 8) (f : Fields) :
    (h.put len op f).hdr false = some h := by
  obtain ⟨pg, pn, ac, la⟩ := h
  obtain rfl : la = 0#4 := by simpa [Hdr.noLa] using hla
  cases pn <;> simp [Fields.hdr, Hdr.put]

@[simp] theorem memMod_ub (ub ud sx : Bool) (sz : Sz) : (memMod ub ud sx sz)[5] = ub := by
  cases ub <;> cases ud <;> cases sx <;> cases sz <;> rfl

@[simp] theorem memMod_ud (ub ud sx : Bool) (sz : Sz) : (memMod ub ud sx sz)[4] = ud := by
  cases ub <;> cases ud <;> cases sx <;> cases sz <;> rfl

@[simp] theorem memMod_sx (ub ud sx : Bool) (sz : Sz) : (memMod ub ud sx sz)[3] = sx := by
  cases ub <;> cases ud <;> cases sx <;> cases sz <;> rfl

@[simp] theorem memMod_sz (ub ud sx : Bool) (sz : Sz) : (memMod ub ud sx sz).extractLsb' 0 3 = sz.code :=
  BitVec.extractLsb'_append_eq_right

@[simp] theorem fMod_rm (rm : Rm) (sat : Bool) (fmt : BitVec 3) : (fMod rm sat fmt).extractLsb' 0 2 = rm.code :=
  BitVec.extractLsb'_append_eq_right

@[simp] theorem fMod_sat (rm : Rm) (sat : Bool) (fmt : BitVec 3) : (fMod rm sat fmt)[2] = sat := by
  revert fmt; cases rm <;> cases sat <;> decide

@[simp] theorem fMod_fmt (rm : Rm) (sat : Bool) (fmt : BitVec 3) : (fMod rm sat fmt).extractLsb' 3 3 = fmt := by
  revert fmt; cases rm <;> cases sat <;> decide

@[simp] theorem fMod_low (rm : Rm) (sat : Bool) (fmt : BitVec 3) :
    (fMod rm sat fmt).extractLsb' 0 3 = BitVec.ofBool sat ++ rm.code := by
  revert fmt; cases rm <;> cases sat <;> decide

@[simp] theorem ext_off (hi : BitVec 8) (off : BitVec 24) : (hi ++ off : BitVec 32).extractLsb' 0 24 = off :=
  BitVec.extractLsb'_append_eq_right

@[simp] theorem ext_high (hi : BitVec 8) (off : BitVec 24) : (hi ++ off : BitVec 32).extractLsb' 24 8 = hi :=
  BitVec.extractLsb'_append_eq_left

section

variable (x : MemX) (off : BitVec 24)

@[simp] theorem memExt_lc : (memExt x off).extractLsb' 30 2 = x.lc.code := by
  obtain ⟨lc, hint, scope⟩ := x
  refine (extractLsb'_append_above _ _ 6 _).trans ?_
  cases lc <;> cases hint <;> cases scope <;> rfl

@[simp] theorem memExt_hint : (memExt x off).extractLsb' 28 2 = x.hint.code := by
  obtain ⟨lc, hint, scope⟩ := x
  refine (extractLsb'_append_above _ _ 4 _).trans ?_
  cases lc <;> cases hint <;> cases scope <;> rfl

@[simp] theorem memExt_zero : (memExt x off).extractLsb' 27 1 = 0#1 := by
  obtain ⟨lc, hint, scope⟩ := x
  refine (extractLsb'_append_above _ _ 3 _).trans ?_
  cases lc <;> cases hint <;> cases scope <;> rfl

@[simp] theorem memExt_scope : (memExt x off).extractLsb' 24 3 = x.scope.code := by
  obtain ⟨lc, hint, scope⟩ := x
  refine (extractLsb'_append_above _ _ 0 _).trans ?_
  cases lc <;> cases hint <;> cases scope <;> rfl

@[simp] theorem memExt_off : (memExt x off).extractLsb' 0 24 = off := BitVec.extractLsb'_append_eq_right

/-- MEMX and the offset are read back from the extension (R53). -/
theorem memx_of_x0 {f : Fields} {x : MemX} {off : BitVec 24} (hf : f.x0 = memExt x off) : f.memx = some x := by
  simp [Fields.memx, hf]

end

/-- A memory operand is read back from MOD, A and the extension (R22, R53). -/
theorem encMem_mem {m : Mem} (hbase : m.base.baseOk = true) (op : BitVec 8) (h : Hdr) (ud sx : Bool) (sub : BitVec 6)
    (d b c : BitVec 8) : (encMem op h ud sx sub m d b c).mem = some m := by
  have hx : (encMem op h ud sx sub m d b c).memx = some m.x := memx_of_x0 rfl
  have hoff : (encMem op h ud sx sub m d b c).off = m.off := memExt_off ..
  have hsz : (encMem op h ud sx sub m d b c).szF = some m.sz := by simp [Fields.szF, encMem]
  have hop : opdF (encMem op h ud sx sub m d b c).ub (encMem op h ud sx sub m d b c).a = some m.base := by
    simp [Fields.ub, encMem, opdF_base hbase]
  simp [Fields.mem, hsz, hop, hx, hoff]

@[simp] theorem encMem_ud (op : BitVec 8) (h : Hdr) (ud sx : Bool) (sub : BitVec 6) (m : Mem) (d b c : BitVec 8) :
    (encMem op h ud sx sub m d b c).ud = ud := by simp [Fields.ud, encMem]

@[simp] theorem encMem_sx (op : BitVec 8) (h : Hdr) (ud sx : Bool) (sub : BitVec 6) (m : Mem) (d b c : BitVec 8) :
    (encMem op h ud sx sub m d b c).sx = sx := by simp [Fields.sx, encMem]

/-! ## The decoders of several instructions -/

section

variable {h : Hdr} (hla : h.noLa = true) (op : BitVec 8)
include hla

theorem decTwo_encTwo (k : Hdr → BitVec 8 → BitVec 8 → Src → Instr) (d a : BitVec 8) (s : Src) :
    decTwo (encTwo op h d a s) k = some (k h d a s) := by
  simp [decTwo, encTwo, hla, Fields.sub5, srcF_put]

theorem decTwoU_encTwoU (k : Hdr → Bool → BitVec 8 → BitVec 8 → Src → Instr) (u : Bool) (d a : BitVec 8) (s : Src) :
    decTwoU (encTwoU op h u d a s) k = some (k h u d a s) := by
  cases u <;> simp [decTwoU, encTwoU, hla, Fields.sub5, srcF_put, narrow]

theorem decThree_encThree (k : Hdr → BitVec 8 → BitVec 8 → BitVec 8 → Src → Instr) (d a b : BitVec 8) (t : Src) :
    decThree (encThree op h d a b t) k = some (k h d a b t) := by
  simp [decThree, encThree, hla, Fields.sub5, thirdF_put]

theorem decOne_encOne (k : Hdr → BitVec 8 → BitVec 8 → Instr) (d a : BitVec 8) :
    decOne (encOne op h d a) k = some (k h d a) := by
  simp [decOne, encOne, hla]

theorem decOneSat_encOneSat (k : Hdr → Bool → BitVec 8 → BitVec 8 → Instr) (sat : Bool) (d a : BitVec 8) :
    decOneSat (encOneSat op h sat d a) k = some (k h sat d a) := by
  cases sat <;> simp [decOneSat, encOneSat, hla]

theorem decBare_put (k : Hdr → Instr) (len : BitVec 2) (x : BitVec 32) :
    decBare (h.put len op { x0 := x }) k = some (k h) := by
  simp [decBare, hla]

theorem decWide_encWide {d a : Opd64} {s : Src64} (hd : d.ok a.isUni = true) (ha : a.baseOk = true)
    (hs : s.ok a.isUni = true) (low : BitVec 4) {i : Instr} (k : Hdr → BitVec 4 → Opd64 → Opd64 → Src64 → Option Instr)
    (hk : k h low d a s = some i) : decWide (encWide op h low d a s) k = some i := by
  simp [hk, decWide, encWide, hla, opdF_field hd, opdF_base ha, src64F_put hs]

theorem decF_encF {okFmt : Fmt → Bool} {bu cu : Bool} {g : FCfg} (hg : okFmt g.fmt = true) (k : Hdr → FCfg → Instr)
    (d a b c : BitVec 8) (hb : (bu || b == 0#8) = true) (hc : (cu || c == 0#8) = true) :
    decF (encF op h g d a b c) okFmt bu cu k = some (k h g) := by
  simp [decF, encF, hla, Fields.fmt, Fields.rm, Fields.sat, hg, hb, hc]

theorem decFx_encFx {okFmt : Fmt → Bool} {bu : Bool} {fm : Fmt} (hg : okFmt fm = true) (k : Hdr → Fmt → Option Instr)
    (sub : BitVec 6) (d a b : BitVec 8) (hb : (bu || b == 0#8) = true) :
    decFx (encFx op h sub fm d a b) okFmt bu k = k h fm := by
  simp [decFx, encFx, hla, Fields.fmt, hg, hb, Rm.code]

end

theorem decL_encL {h : Hdr} {ll bu : Bool} (hla : ll = true ∨ h.noLa = true) (op : BitVec 8) (k : Hdr → Rm → Instr)
    (rm : Rm) (d a b : BitVec 8) (hb : (bu || b == 0#8) = true) :
    decL (encL op h rm d a b) ll bu k = some (k h rm) := by
  have hhdr : (encL op h rm d a b).hdr ll = some h := by
    cases ll with
    | true => exact h.hdr_put_ll ..
    | false => exact Hdr.hdr_put (hla.resolve_left Bool.false_ne_true) ..
  have hmod : (fMod rm false 0#3).extractLsb' 2 4 = 0#4 := by cases rm <;> rfl
  simp only [decL, hhdr]
  simp [encL, hmod, hb, Fields.rm]

/-- The instruction's word, if it has one, decodes to it, and its length holds every extension word it uses. -/
def Instr.RoundTrips (i : Instr) : Prop := ∀ f, encode i = some f → decodeFields f = some i ∧ f.Fits

section

variable {i : Instr} {h : Hdr} {op : BitVec 8} {f : Fields}

theorem roundTrips_base (he : encode i = some (h.put 0 op f)) (hx0 : f.x0 = 0) (hx1 : f.x1 = 0)
    (hd : decodeFields (h.put 0 op f) = some i) : i.RoundTrips := by
  intro g hg
  obtain rfl := Option.some.inj (he.symm.trans hg)
  exact ⟨hd, fun _ => hx0, fun _ => hx1⟩

theorem roundTrips_ext (he : encode i = some (h.put 1 op f)) (hx1 : f.x1 = 0)
    (hd : decodeFields (h.put 1 op f) = some i) : i.RoundTrips := by
  intro g hg
  obtain rfl := Option.some.inj (he.symm.trans hg)
  exact ⟨hd, fun hlen => absurd (show 1#2 = 0 from hlen) (by decide), fun _ => hx1⟩

theorem roundTrips_ext2 (he : encode i = some (h.put 2 op f)) (hd : decodeFields (h.put 2 op f) = some i) :
    i.RoundTrips := by
  intro g hg
  obtain rfl := Option.some.inj (he.symm.trans hg)
  exact ⟨hd, fun hlen => absurd (show 2#2 = 0 from hlen) (by decide), fun hlen => absurd rfl hlen⟩

theorem roundTrips_none (he : encode i = none) : i.RoundTrips :=
  fun _ hf => absurd (he.symm.trans hf) (Option.some_ne_none _).symm

end

/-! ## The decoder's parts -/

/-- The opcode lies between the two given, and the word has the length that it requires. -/
def Fields.inPart (lo hi : Nat) (f : Fields) : Bool :=
  decide (lo ≤ f.op.toNat) && decide (f.op.toNat < hi) && !headBad f.op.toNat f.len

theorem Fields.inPart_iff {lo hi : Nat} {f : Fields} :
    f.inPart lo hi = true ↔ (lo ≤ f.op.toNat ∧ f.op.toNat < hi) ∧ headBad f.op.toNat f.len = false := by
  simp [Fields.inPart]

section

variable {f : Fields}

theorem decodeFields_of_head (hop : 0 < f.op.toNat) (hhead : headBad f.op.toNat f.len = false) :
    decodeFields f =
      if f.op.toNat < 0x15 then decArith f
      else if f.op.toNat < 0x28 then decLogic f
      else if f.op.toNat < 0x30 then decMove f
      else if f.op.toNat < 0x40 then decAddr f
      else if f.op.toNat < 0x70 then decFloat f
      else if f.op.toNat < 0x90 then decControl f
      else if f.op.toNat < 0x9C then decMem f
      else if f.op.toNat < 0xB0 then decFence f
      else if f.op.toNat < 0xD0 then decPar f
      else if f.op.toNat < 0xF0 then decEngine f
      else if f.op.toNat < 0xF9 then decSystem f
      else decFabric f :=
  (if_neg hop.ne').trans (if_neg (Bool.eq_false_iff.1 hhead))

theorem decodeFields_eq_decArith (hf : f.inPart 0x1 0x15 = true) : decodeFields f = decArith f := by
  obtain ⟨⟨hlo, hhi⟩, hhead⟩ := Fields.inPart_iff.1 hf
  refine (decodeFields_of_head (by omega) hhead).trans ?_
  exact if_pos hhi

theorem decodeFields_eq_decLogic (hf : f.inPart 0x15 0x28 = true) : decodeFields f = decLogic f := by
  obtain ⟨⟨hlo, hhi⟩, hhead⟩ := Fields.inPart_iff.1 hf
  refine (decodeFields_of_head (by omega) hhead).trans ?_
  refine (if_neg (by omega)).trans ?_
  exact if_pos hhi

theorem decodeFields_eq_decMove (hf : f.inPart 0x28 0x30 = true) : decodeFields f = decMove f := by
  obtain ⟨⟨hlo, hhi⟩, hhead⟩ := Fields.inPart_iff.1 hf
  refine (decodeFields_of_head (by omega) hhead).trans ?_
  iterate 2 refine (if_neg (by omega)).trans ?_
  exact if_pos hhi

theorem decodeFields_eq_decAddr (hf : f.inPart 0x30 0x40 = true) : decodeFields f = decAddr f := by
  obtain ⟨⟨hlo, hhi⟩, hhead⟩ := Fields.inPart_iff.1 hf
  refine (decodeFields_of_head (by omega) hhead).trans ?_
  iterate 3 refine (if_neg (by omega)).trans ?_
  exact if_pos hhi

theorem decodeFields_eq_decFloat (hf : f.inPart 0x40 0x70 = true) : decodeFields f = decFloat f := by
  obtain ⟨⟨hlo, hhi⟩, hhead⟩ := Fields.inPart_iff.1 hf
  refine (decodeFields_of_head (by omega) hhead).trans ?_
  iterate 4 refine (if_neg (by omega)).trans ?_
  exact if_pos hhi

theorem decodeFields_eq_decControl (hf : f.inPart 0x70 0x90 = true) : decodeFields f = decControl f := by
  obtain ⟨⟨hlo, hhi⟩, hhead⟩ := Fields.inPart_iff.1 hf
  refine (decodeFields_of_head (by omega) hhead).trans ?_
  iterate 5 refine (if_neg (by omega)).trans ?_
  exact if_pos hhi

theorem decodeFields_eq_decMem (hf : f.inPart 0x90 0x9c = true) : decodeFields f = decMem f := by
  obtain ⟨⟨hlo, hhi⟩, hhead⟩ := Fields.inPart_iff.1 hf
  refine (decodeFields_of_head (by omega) hhead).trans ?_
  iterate 6 refine (if_neg (by omega)).trans ?_
  exact if_pos hhi

theorem decodeFields_eq_decFence (hf : f.inPart 0x9c 0xb0 = true) : decodeFields f = decFence f := by
  obtain ⟨⟨hlo, hhi⟩, hhead⟩ := Fields.inPart_iff.1 hf
  refine (decodeFields_of_head (by omega) hhead).trans ?_
  iterate 7 refine (if_neg (by omega)).trans ?_
  exact if_pos hhi

theorem decodeFields_eq_decPar (hf : f.inPart 0xb0 0xd0 = true) : decodeFields f = decPar f := by
  obtain ⟨⟨hlo, hhi⟩, hhead⟩ := Fields.inPart_iff.1 hf
  refine (decodeFields_of_head (by omega) hhead).trans ?_
  iterate 8 refine (if_neg (by omega)).trans ?_
  exact if_pos hhi

theorem decodeFields_eq_decEngine (hf : f.inPart 0xd0 0xf0 = true) : decodeFields f = decEngine f := by
  obtain ⟨⟨hlo, hhi⟩, hhead⟩ := Fields.inPart_iff.1 hf
  refine (decodeFields_of_head (by omega) hhead).trans ?_
  iterate 9 refine (if_neg (by omega)).trans ?_
  exact if_pos hhi

theorem decodeFields_eq_decSystem (hf : f.inPart 0xf0 0xf9 = true) : decodeFields f = decSystem f := by
  obtain ⟨⟨hlo, hhi⟩, hhead⟩ := Fields.inPart_iff.1 hf
  refine (decodeFields_of_head (by omega) hhead).trans ?_
  iterate 10 refine (if_neg (by omega)).trans ?_
  exact if_pos hhi

theorem decodeFields_eq_decFabric (hf : f.inPart 0xf9 0x100 = true) : decodeFields f = decFabric f := by
  obtain ⟨⟨hlo, hhi⟩, hhead⟩ := Fields.inPart_iff.1 hf
  refine (decodeFields_of_head (by omega) hhead).trans ?_
  iterate 10 refine (if_neg (by omega)).trans ?_
  exact if_neg (by omega)

end

theorem halves_append (v : W64) : v.extractLsb' 32 32 ++ v.extractLsb' 0 32 = v := by
  rw [BitVec.extractLsb'_append_extractLsb'_eq_extractLsb' (by decide)]
  exact BitVec.extractLsb'_eq_self

section

variable (op : BitVec 8) (h : Hdr) (ud sx : Bool) (sub : BitVec 6) (m : Mem) (d b c : BitVec 8)

@[simp] theorem encMem_sub : (encMem op h ud sx sub m d b c).sub = sub := rfl
@[simp] theorem encMem_b : (encMem op h ud sx sub m d b c).b = b := rfl
@[simp] theorem encMem_c : (encMem op h ud sx sub m d b c).c = c := rfl
@[simp] theorem encMem_d : (encMem op h ud sx sub m d b c).d = d := rfl
@[simp] theorem encMem_op : (encMem op h ud sx sub m d b c).op = op := rfl
@[simp] theorem encMem_hdr_ll : (encMem op h ud sx sub m d b c).hdr true = some h := h.hdr_put_ll ..

end

@[simp] theorem encMem_hdr {h : Hdr} (hla : h.noLa = true) (op : BitVec 8) (ud sx : Bool) (sub : BitVec 6) (m : Mem)
    (d b c : BitVec 8) : (encMem op h ud sx sub m d b c).hdr false = some h := Hdr.hdr_put hla ..

@[simp] theorem idxSub_sidx (sidx : Bool) (sh : BitVec 3) : (idxSub sidx sh)[3] = sidx := by
  revert sh; cases sidx <;> decide

@[simp] theorem idxSub_sh (sidx : Bool) (sh : BitVec 3) : (idxSub sidx sh).extractLsb' 0 3 = sh :=
  BitVec.extractLsb'_append_eq_right

@[simp] theorem idxSub_high (sidx : Bool) (sh : BitVec 3) : (idxSub sidx sh).extractLsb' 4 2 = 0#2 := by
  revert sh; cases sidx <;> decide

@[simp] theorem wideSub_w (ci uf w : Bool) (sh : BitVec 3) : (wideSub ci uf (BitVec.ofBool w ++ sh))[3] = w := by
  revert sh; cases ci <;> cases uf <;> cases w <;> decide

@[simp] theorem wideSub_sh (ci uf w : Bool) (sh : BitVec 3) :
    (wideSub ci uf (BitVec.ofBool w ++ sh)).extractLsb' 0 3 = sh := by
  revert sh; cases ci <;> cases uf <;> cases w <;> decide

section

variable (mg : Bool) (de se : BitVec 2)

@[simp] theorem cvtC_se : (0#3 ++ BitVec.ofBool mg ++ de ++ se : BitVec 8).extractLsb' 0 2 = se := by
  revert de se; cases mg <;> decide

@[simp] theorem cvtC_de : (0#3 ++ BitVec.ofBool mg ++ de ++ se : BitVec 8).extractLsb' 2 2 = de := by
  revert de se; cases mg <;> decide

@[simp] theorem cvtC_mg : (0#3 ++ BitVec.ofBool mg ++ de ++ se : BitVec 8)[4] = mg := by
  revert de se; cases mg <;> decide

@[simp] theorem cvtC_high : (0#3 ++ BitVec.ofBool mg ++ de ++ se : BitVec 8).extractLsb' 5 3 = 0#3 := by
  revert de se; cases mg <;> decide

end

@[simp] theorem cvtB_high (s d : BitVec 4) :
    (s ++ d : BitVec 8).extractLsb' 4 4 = s := BitVec.extractLsb'_append_eq_left
@[simp] theorem cvtB_low (s d : BitVec 4) :
    (s ++ d : BitVec 8).extractLsb' 0 4 = d := BitVec.extractLsb'_append_eq_right

@[simp] theorem narrow_two_flags (a b : Bool) :
    narrow 2 (0#4 ++ BitVec.ofBool a ++ BitVec.ofBool b : BitVec 6) = some (BitVec.ofBool a ++ BitVec.ofBool b) := by
  cases a <;> cases b <;> rfl

@[simp] theorem two_flags_low (a b : Bool) :
    (BitVec.ofBool a ++ BitVec.ofBool b)[0] = b := by cases a <;> cases b <;> rfl
@[simp] theorem two_flags_high (a b : Bool) :
    (BitVec.ofBool a ++ BitVec.ofBool b)[1] = a := by cases a <;> cases b <;> rfl

@[simp] theorem baseMod_ub (ub : Bool) : (BitVec.ofBool ub ++ 0#5 : BitVec 6)[5] = ub := by cases ub <;> rfl
@[simp] theorem baseMod_low (ub : Bool) :
    (BitVec.ofBool ub ++ 0#5 : BitVec 6).extractLsb' 0 5 = 0#5 := by cases ub <;> rfl

@[simp] theorem ofBool_beq_one (b : Bool) : (BitVec.ofBool b == 1#1) = b := by cases b <;> rfl

theorem addi_decodes {h : Hdr} (hla : h.noLa = true) (d a : BitVec 8) (imm : W32) :
    decodeFields (h.put 1 0x02 { d := d, a := a, x0 := imm }) = some (.addi h d a imm) := by
  refine (decodeFields_eq_decArith rfl).trans ?_
  simp [decArith, hla]

theorem bfe_decodes {h : Hdr} (hla : h.noLa = true) (sg : Bool) {p : BitVec 5} {l : BitVec 6} (hl : l.toNat ≤ 32)
    (hp : p.toNat + l.toNat ≤ 32) (d a : BitVec 8) :
    decodeFields (h.put 0 0x23 { md := l, sub := ciSub sg p, d := d, a := a }) = some (.bfe h sg p l d a) := by
  refine (decodeFields_eq_decLogic rfl).trans ?_
  simp [decLogic, hla, Fields.sub5, hl, hp]

theorem bfi_decodes {h : Hdr} (hla : h.noLa = true) {p : BitVec 5} {l : BitVec 6} (hl : l.toNat ≤ 32)
    (hp : p.toNat + l.toNat ≤ 32) (d a b : BitVec 8) :
    decodeFields (h.put 0 0x24 { md := l, sub := ciSub false p, d := d, a := a, b := b }) =
      some (.bfi h p l d a b) := by
  refine (decodeFields_eq_decLogic rfl).trans ?_
  simp [decLogic, hla, Fields.sub5, hl, hp]

theorem bytep_decodes {h : Hdr} (hla : h.noLa = true) (fk : FillKind) (d a b : BitVec 8) (t : Src) :
    decodeFields (h.put 0 0x25 { sub := ciSub t.ci fk.code, d := d, a := a, b := b, c := t.third }) =
      some (.bytep h fk d a b t) := by
  refine (decodeFields_eq_decLogic rfl).trans ?_
  simp [decLogic, hla, Fields.sub5, thirdF_put]

theorem movVector_decodes {h : Hdr} (hla : h.noLa = true) (d a : BitVec 8) :
    decodeFields (encOne 0x28 h d a) = some (.movVector h d a) := by
  refine (decodeFields_eq_decMove rfl).trans ?_
  simp [decMove, encOne, hla]

theorem movPairFromUniform_decodes {h : Hdr} (hla : h.noLa = true) {d : BitVec 8} (hd : pairOk d = true)
    (a : BitVec 6) :
    decodeFields (h.put 0 0x28 { sub := 1, d := d, a := a.setWidth 8 }) = some (.movPairFromUniform h d a) := by
  refine (decodeFields_eq_decMove rfl).trans ?_
  simp [decMove, hla, pairF_of hd]

theorem movUniformFromPair_decodes {h : Hdr} (hla : h.noLa = true) (d : BitVec 6) {a : BitVec 8}
    (ha : pairOk a = true) :
    decodeFields (h.put 0 0x28 { sub := 2, d := d.setWidth 8, a := a }) = some (.movUniformFromPair h d a) := by
  refine (decodeFields_eq_decMove rfl).trans ?_
  simp [decMove, hla, pairF_of ha]

theorem movUniform_decodes {h : Hdr} (hla : h.noLa = true) (d a : BitVec 6) :
    decodeFields (h.put 0 0x28 { sub := 3, d := d.setWidth 8, a := a.setWidth 8 }) = some (.movUniform h d a) := by
  refine (decodeFields_eq_decMove rfl).trans ?_
  simp [decMove, hla]

theorem moviVector_decodes {h : Hdr} (hla : h.noLa = true) (d : BitVec 8) (imm : W32) :
    decodeFields (h.put 1 0x29 { d := d, x0 := imm }) = some (.moviVector h d imm) := by
  refine (decodeFields_eq_decMove rfl).trans ?_
  simp [decMove, hla]

theorem moviUniform_decodes {h : Hdr} (hla : h.noLa = true) (d : BitVec 6) (imm : W32) :
    decodeFields (h.put 1 0x29 { sub := 1, d := d.setWidth 8, x0 := imm }) = some (.moviUniform h d imm) := by
  refine (decodeFields_eq_decMove rfl).trans ?_
  simp [decMove, hla]

theorem movqPair_decodes {h : Hdr} (hla : h.noLa = true) {d : BitVec 8} (hd : pairOk d = true) (imm : W64) :
    decodeFields (h.put 2 0x2A { d := d, x0 := imm.extractLsb' 0 32, x1 := imm.extractLsb' 32 32 }) =
      some (.movqPair h d imm) := by
  refine (decodeFields_eq_decMove rfl).trans ?_
  simp [decMove, hla, pairF_of hd, halves_append]

theorem movqUniform_decodes {h : Hdr} (hla : h.noLa = true) (d : BitVec 6) (imm : W64) :
    decodeFields (h.put 2 0x2A { sub := 1, d := d.setWidth 8, x0 := imm.extractLsb' 0 32,
                                 x1 := imm.extractLsb' 32 32 }) =
      some (.movqUniform h d imm) := by
  refine (decodeFields_eq_decMove rfl).trans ?_
  simp [decMove, hla, halves_append]

theorem sel_decodes {h : Hdr} (hla : h.noLa = true) (d a : BitVec 8) (p : BitVec 3) (t : Src) :
    decodeFields (h.put 0 0x2B { sub := ciSub t.ci 0, d := d, a := a, b := p.setWidth 8, c := t.third }) =
      some (.sel h d a p t) := by
  refine (decodeFields_eq_decMove rfl).trans ?_
  simp [decMove, hla, Fields.sub5, thirdF_put]

theorem cmp_decodes {h : Hdr} (hla : h.noLa = true) (cd : Cond) (pd : BitVec 3) (a : BitVec 8) (s : Src) :
    decodeFields (h.put 0 0x2C { sub := ciSub s.ci (cd.code.setWidth 5), d := pd.setWidth 8, a := a, b := s.fb,
                                 c := s.fc }) =
      some (.cmp h cd pd a s) := by
  refine (decodeFields_eq_decMove rfl).trans ?_
  simp [decMove, hla, Fields.sub5, srcF_put]

theorem cmpi_decodes {h : Hdr} (hla : h.noLa = true) (cd : Cond) (pd : BitVec 3) (a : BitVec 8) (imm : W32) :
    decodeFields (h.put 1 0x2D { sub := cd.code.setWidth 6, d := pd.setWidth 8, a := a, x0 := imm }) =
      some (.cmpi h cd pd a imm) := by
  refine (decodeFields_eq_decMove rfl).trans ?_
  simp [decMove, hla]

theorem plop_decodes {h : Hdr} (hla : h.noLa = true) (pd pa pb : BitVec 3) (tt : BitVec 4) :
    decodeFields (h.put 0 0x2E { sub := tt.setWidth 6, d := pd.setWidth 8, a := pa.setWidth 8, b := pb.setWidth 8 }) =
      some (.plop h pd pa pb tt) := by
  refine (decodeFields_eq_decMove rfl).trans ?_
  simp [decMove, hla]

theorem pmovToRegister_decodes {h : Hdr} (hla : h.noLa = true) (d : BitVec 8) :
    decodeFields (h.put 0 0x2F { d := d }) = some (.pmovToRegister h d) := by
  refine (decodeFields_eq_decMove rfl).trans ?_
  simp [decMove, hla]

theorem pmovFromRegister_decodes {h : Hdr} (hla : h.noLa = true) (a : BitVec 8) :
    decodeFields (h.put 0 0x2F { sub := 1, a := a }) = some (.pmovFromRegister h a) := by
  refine (decodeFields_eq_decMove rfl).trans ?_
  simp [decMove, hla]

theorem cmp64_decodes {h : Hdr} (hla : h.noLa = true) {uf : Bool} {a : Opd64} {s : Src64} (ha : a.ok uf = true)
    (hs : s.ok uf = true) (cd : Cond) (pd : BitVec 3) :
    decodeFields (h.put 0 0x34 { sub := wideSub s.ci uf cd.code, d := pd.setWidth 8, a := a.field, b := s.fb,
                                 c := s.fc }) =
      some (.cmp64 h uf cd pd a s) := by
  refine (decodeFields_eq_decAddr rfl).trans ?_
  simp [decAddr, hla, opdF_field ha, src64F_put hs]

theorem lea_decodes {h : Hdr} (hla : h.noLa = true) {sh : BitVec 3} {d a b : Opd64} (hsh : sh.toNat ≤ 4)
    (hd : d.ok a.isUni = true) (ha : a.baseOk = true)
    (hb : b.ok a.isUni = true) (w : Bool) (imm : W32) :
    decodeFields (h.put 1 0x35 { sub := wideSub false a.isUni (BitVec.ofBool w ++ sh), d := d.field, a := a.field,
                                 b := b.field, x0 := imm }) =
      some (.lea h w sh d a b imm) := by
  refine (decodeFields_eq_decAddr rfl).trans ?_
  simp [decAddr, hla, opdF_field hd, opdF_base ha, opdF_field hb, hsh]

theorem frnd_decodes {h : Hdr} (hla : h.noLa = true) {g : Fmt} (hg : g.scalar = true) (rm : Rm) (d a : BitVec 8) :
    decodeFields (h.put 0 0x4A { md := fMod rm false g.code, d := d, a := a }) = some (.frnd h rm g d a) := by
  refine (decodeFields_eq_decFloat rfl).trans ?_
  simp [decFloat, hla, Fields.fmt, Fields.rm, Fields.sat, hg]

theorem cvt_decodes {h : Hdr} (hla : h.noLa = true) {sat mg : Bool} {st dt : Ty} {se de : BitVec 2}
    (hse : se.toNat < 32 / st.width) (hde : de.toNat < 32 / dt.width)
    (hmg : (!mg || !dt.width == 32) = true) (hsat : (!sat || !dt.isInt) = true) (rm : Rm) (d a : BitVec 8) :
    decodeFields (h.put 0 0x51 { md := fMod rm sat 0, d := d, a := a, b := st.code ++ dt.code,
                                 c := 0#3 ++ BitVec.ofBool mg ++ de ++ se }) =
      some (.cvt h rm sat st dt se de mg d a) := by
  refine (decodeFields_eq_decFloat rfl).trans ?_
  simp [decFloat, -BitVec.extractLsb'_toNat, hla, Fields.rm, Fields.sat, hse, hde, hmg, hsat]

theorem dot4_decodes {h : Hdr} (hla : h.noLa = true) (ua ub : Bool) (d a b c : BitVec 8) :
    decodeFields (h.put 0 0x58 { sub := 0#4 ++ BitVec.ofBool ub ++ BitVec.ofBool ua, d := d, a := a, b := b, c := c }) =
      some (.dot4 h ua ub d a b c) := by
  refine (decodeFields_eq_decFloat rfl).trans ?_
  simp [decFloat, hla]

theorem br_decodes {h : Hdr} (hla : h.noLa = true) (live : BitVec 8) (t : W32) :
    decodeFields (h.put 1 0x70 { c := live, x0 := t }) = some (.br h live t) := by
  refine (decodeFields_eq_decControl rfl).trans ?_
  simp [decControl, hla]

theorem brx_decodes {h : Hdr} (hla : h.noLa = true) (a : BitVec 6) :
    decodeFields (h.put 0 0x71 { a := a.setWidth 8 }) = some (.brx h a) := by
  refine (decodeFields_eq_decControl rfl).trans ?_
  simp [decControl, hla]

theorem callx_decodes {h : Hdr} (hla : h.noLa = true) (a : BitVec 6) :
    decodeFields (h.put 0 0x73 { a := a.setWidth 8 }) = some (.callx h a) := by
  refine (decodeFields_eq_decControl rfl).trans ?_
  simp [decControl, hla]

theorem ld_decodes {h : Hdr} {m : Mem} (hbase : m.base.baseOk = true) {d : DataReg} {sx : Bool}
    (hd : d.ok m.sz = true) (hsx : sxOk sx m.sz = true) :
    decodeFields (encMem 0x90 h d.isUni sx 0 m d.field 0 0) = some (.ld h d sx m) := by
  refine (decodeFields_eq_decMem rfl).trans ?_
  simp [decMem, encMem_mem hbase, datF_field hd, hsx]

theorem st_decodes {h : Hdr} (hla : h.noLa = true) {m : Mem} (hbase : m.base.baseOk = true) {b : DataReg}
    (hb : b.ok m.sz = true) :
    decodeFields (encMem 0x91 h b.isUni false 0 m 0 b.field 0) = some (.st h m b) := by
  refine (decodeFields_eq_decMem rfl).trans ?_
  simp [decMem, hla, encMem_mem hbase, datF_field hb]

theorem pref_decodes {h : Hdr} (hla : h.noLa = true) {base : Opd64} (hbase : base.baseOk = true) (off : BitVec 24)
    (lc : Lc) (hint : Hint) :
    decodeFields (h.put 1 0x92 { md := BitVec.ofBool base.isUni ++ 0#5, a := base.field, x0 := memExt ⟨lc, hint,
                                 .group⟩ off }) =
      some (.pref h base off lc hint) := by
  refine (decodeFields_eq_decMem rfl).trans ?_
  simp [decMem, hla, Fields.ub, opdF_base hbase, Fields.memx, Fields.off]

theorem ldg_decodes {h : Hdr} {m : Mem} (hbase : m.base.baseOk = true) {d : BitVec 8} {sx : Bool} {sh : BitVec 3}
    (hd : (DataReg.vec d).ok m.sz = true)
    (hsx : sxOk sx m.sz = true) (hsh : sh.toNat ≤ 4) (sidx : Bool) (c : BitVec 8) :
    decodeFields (encMem 0x93 h false sx (idxSub sidx sh) m d 0 c) = some (.ldg h d sx sidx sh c m) := by
  refine (decodeFields_eq_decMem rfl).trans ?_
  simp [decMem, encMem_mem hbase, hd, hsx, hsh]

theorem stg_decodes {h : Hdr} (hla : h.noLa = true) {m : Mem} (hbase : m.base.baseOk = true) {b : DataReg}
    {sh : BitVec 3} (hb : b.ok m.sz = true) (hsh : sh.toNat ≤ 4) (sidx : Bool) (c : BitVec 8) :
    decodeFields (encMem 0x94 h b.isUni false (idxSub sidx sh) m 0 b.field c) = some (.stg h m sidx sh c b) := by
  refine (decodeFields_eq_decMem rfl).trans ?_
  simp [decMem, hla, encMem_mem hbase, datF_field hb, hsh]

theorem ldsl_decodes {h : Hdr} {d : BitVec 8} {sx : Bool} {sz : Sz} (hd : (DataReg.vec d).ok sz = true)
    (hsx : sxOk sx sz = true)
    (slab a : BitVec 8) (off : BitVec 24) :
    decodeFields (h.put 1 0x95 { md := memMod false false sx sz, d := d, a := a, c := slab, x0 := 0#8 ++ off }) =
      some (.ldsl h d sx sz slab a off) := by
  refine (decodeFields_eq_decMem rfl).trans ?_
  simp [decMem, Fields.szF, Fields.ub, Fields.ud, Fields.sx, Fields.off, hd, hsx]

theorem stsl_decodes {h : Hdr} (hla : h.noLa = true) {sz : Sz} {b : DataReg} (hb : b.ok sz = true)
    (slab a : BitVec 8) (off : BitVec 24) :
    decodeFields (h.put 1 0x96 { md := memMod false b.isUni false sz, a := a, b := b.field, c := slab,
                                 x0 := 0#8 ++ off }) =
      some (.stsl h sz slab a off b) := by
  refine (decodeFields_eq_decMem rfl).trans ?_
  simp [decMem, hla, Fields.szF, Fields.ub, Fields.ud, Fields.sx, Fields.off, datF_field hb]

theorem ldt_decodes {h : Hdr} (fl : Bool) (d : BitVec 8) (hb : BitVec 4) (a : BitVec 8) (o0 : BitVec 24)
    (o : BitVec 32) (x : MemX) :
    decodeFields (h.put 2 0x97 { sub := (BitVec.ofBool fl).setWidth 6, d := d, a := a, b := hb.setWidth 8,
                                 x0 := memExt x o0, x1 := o }) =
      some (.ldt h fl d hb a o0 o x) := by
  refine (decodeFields_eq_decMem rfl).trans ?_
  simp [decMem, Fields.memx, Fields.off]

theorem stt_decodes {h : Hdr} (hla : h.noLa = true) (fl : Bool) (hb : BitVec 4) (a c : BitVec 8) (o0 : BitVec 24)
    (o : BitVec 32) (x : MemX) :
    decodeFields (h.put 2 0x98 { sub := (BitVec.ofBool fl).setWidth 6, a := a, b := hb.setWidth 8, c := c,
                                 x0 := memExt x o0, x1 := o }) =
      some (.stt h fl hb a c o0 o x) := by
  refine (decodeFields_eq_decMem rfl).trans ?_
  simp [decMem, hla, Fields.memx, Fields.off]

theorem datF_same {ud : Bool} {sz : Sz} {b : DataReg} (hub : b.isUni = ud) (hb : b.ok sz = true) :
    datF ud sz b.field = some b := hub ▸ datF_field hb

theorem datF_cas {cas ud : Bool} {sz : Sz} {c : DataReg}
    (hc : casOk cas sz ud c = true) : datF ud sz c.field = some c := by
  obtain ⟨⟨hud, hok⟩, -⟩ := by simpa only [casOk, Bool.and_eq_true, beq_iff_eq] using hc
  exact datF_same hud hok

/-- Where the operation takes no compare value its field is zero (R227). -/
theorem casOk_field {cas ud : Bool} {sz : Sz} {c : DataReg} (hc : casOk cas sz ud c = true) :
    (cas || c.field == 0#8) = true := by
  cases cas with
  | true => rfl
  | false =>
    obtain ⟨-, rfl⟩ := by simpa only [casOk, Bool.and_eq_true, Bool.false_or, beq_iff_eq] using hc
    cases ud <;> rfl

theorem append_msb {v w : Nat} (hi : BitVec (v + 1)) (lo : BitVec w) : (hi ++ lo).msb = hi.msb := by
  simp [BitVec.msb_append]

section

variable (loc : Bool) (fmt : BitVec 4) (span : BitVec 3) (size : BitVec 20)

@[simp] theorem hbindExt_loc : (BitVec.ofBool loc ++ fmt ++ span ++ 0#4 ++ size : BitVec 32).msb = loc := by
  refine (append_msb _ _).trans ((append_msb _ _).trans ((append_msb _ _).trans ((append_msb _ _).trans ?_)))
  cases loc <;> rfl

@[simp] theorem hbindExt_fmt :
    (BitVec.ofBool loc ++ fmt ++ span ++ 0#4 ++ size : BitVec 32).extractLsb' 27 4 = fmt := by
  refine (extractLsb'_append_above _ _ 7 _).trans ((extractLsb'_append_above _ _ 3 _).trans ?_)
  exact (extractLsb'_append_above _ _ 0 _).trans BitVec.extractLsb'_append_eq_right

@[simp] theorem hbindExt_span :
    (BitVec.ofBool loc ++ fmt ++ span ++ 0#4 ++ size : BitVec 32).extractLsb' 24 3 = span := by
  refine (extractLsb'_append_above _ _ 4 _).trans ((extractLsb'_append_above _ _ 0 _).trans ?_)
  exact BitVec.extractLsb'_append_eq_right

@[simp] theorem hbindExt_zero :
    (BitVec.ofBool loc ++ fmt ++ span ++ 0#4 ++ size : BitVec 32).extractLsb' 20 4 = 0#4 :=
  (extractLsb'_append_above _ _ 0 _).trans BitVec.extractLsb'_append_eq_right

@[simp] theorem hbindExt_size :
    (BitVec.ofBool loc ++ fmt ++ span ++ 0#4 ++ size : BitVec 32).extractLsb' 0 20 = size :=
  BitVec.extractLsb'_append_eq_right

end

/-- LSCAN's SUB is never that of LSCAN.rank (Table 8-1). -/
theorem scanSub_ne_rank (ex : Bool) (op : RedOp) : ¬ (0#1 ++ BitVec.ofBool ex ++ op.code : BitVec 6) = 11#6 := by
  cases ex <;> cases op <;> decide

theorem narrow_scanSub (ex : Bool) (op : RedOp) :
    narrow 5 (0#1 ++ BitVec.ofBool ex ++ op.code : BitVec 6) = some (BitVec.ofBool ex ++ op.code) := by
  cases ex <;> cases op <;> rfl

theorem narrow_hostSub (fb : Bool) (op : HostAtomOp) :
    narrow 5 (0#1 ++ BitVec.ofBool fb ++ op.code : BitVec 6) = some (BitVec.ofBool fb ++ op.code) := by
  cases fb <;> cases op <;> rfl

@[simp] theorem flagSub_low (b : Bool) (v : BitVec 4) : (BitVec.ofBool b ++ v).extractLsb' 0 4 = v :=
  BitVec.extractLsb'_append_eq_right

@[simp] theorem flagSub_msb (b : Bool) (v : BitVec 4) : (BitVec.ofBool b ++ v).msb = b := by
  revert v; cases b <;> decide

@[simp] theorem narrow_two_one : narrow 2 1#6 = some 1#2 := rfl
@[simp] theorem narrow_two_two : narrow 2 2#6 = some 2#2 := rfl
@[simp] theorem narrow_two_three : narrow 2 3#6 = some 3#2 := rfl
@[simp] theorem narrow_four_twelve : narrow 4 12#6 = some 12#4 := rfl
@[simp] theorem narrow_one_one : narrow 1 1#6 = some 1#1 := rfl

section

variable (n : BitVec 4) (kt : KeyTy)

theorem selSub_key : (n ++ kt.code : BitVec 6).extractLsb' 0 2 = kt.code := BitVec.extractLsb'_append_eq_right
theorem selSub_zero : (n ++ kt.code : BitVec 6).extractLsb' 2 2 = n.extractLsb' 0 2 := extractLsb'_append_above _ _ 0 _
theorem selSub_msb : (n ++ kt.code : BitVec 6).msb = n.msb := by revert n; cases kt <;> decide
theorem selSub_flag : (n ++ kt.code : BitVec 6)[4] = n[2] := by revert n; cases kt <;> decide

end

section

variable {h : Hdr} {r : ClaimRange} (op : BitVec 8)

theorem encClaim_op : (encClaim op h r).op = op := by cases r <;> rfl

theorem encClaim_rest : (encClaim op h r).md = 0 ∧ (encClaim op h r).d = 0 ∧ (encClaim op h r).b = 0 := by
  cases r <;> exact ⟨rfl, rfl, rfl⟩

theorem encClaim_hdr (hla : h.noLa = true) : (encClaim op h r).hdr false = some h := by
  cases r <;> exact Hdr.hdr_put hla ..

theorem encClaim_range (hr : r.ok = true) : claimF (encClaim op h r) = some r := by
  cases r <;> simp [claimF, encClaim, hr]

end

section

variable (p : BitVec 3) (hf : Bool)

@[simp] theorem narrow_partSub :
    narrow 4 (0#2 ++ p ++ BitVec.ofBool hf : BitVec 6) = some (p ++ BitVec.ofBool hf) := by
  revert p; cases hf <;> decide

@[simp] theorem part_flag : (p ++ BitVec.ofBool hf)[0] = hf := by revert p; cases hf <;> decide

@[simp] theorem part_high : (p ++ BitVec.ofBool hf).extractLsb' 1 3 = p := BitVec.extractLsb'_append_eq_left

variable (af : Af)

@[simp] theorem writeSub_flag : (af.code ++ p ++ BitVec.ofBool hf : BitVec 6)[0] = hf := by
  revert p; cases hf <;> cases af <;> decide

@[simp] theorem writeSub_part : (af.code ++ p ++ BitVec.ofBool hf : BitVec 6).extractLsb' 1 3 = p := by
  revert p; cases hf <;> cases af <;> decide

@[simp] theorem writeSub_af : (af.code ++ p ++ BitVec.ofBool hf : BitVec 6).extractLsb' 4 2 = af.code := by
  revert p; cases hf <;> cases af <;> decide

end

section

variable (sz : Sz)

@[simp] theorem msgMod_sz : (0#3 ++ sz.code : BitVec 6).extractLsb' 0 3 = sz.code := BitVec.extractLsb'_append_eq_right
@[simp] theorem msgMod_ub : (0#3 ++ sz.code : BitVec 6)[5] = false := by cases sz <;> rfl
@[simp] theorem msgMod_ud : (0#3 ++ sz.code : BitVec 6)[4] = false := by cases sz <;> rfl
@[simp] theorem msgMod_sx : (0#3 ++ sz.code : BitVec 6)[3] = false := by cases sz <;> rfl

end

theorem atom_decodes {h : Hdr} {m : Mem} (hbase : m.base.baseOk = true) {op : AtomOp} {d b c : DataReg}
    (hx : m.x.plain = true) (hsz : m.sz.is48 = true)
    (hfadd : (!op == .fadd || !m.sz == .b8) = true) (hd : d.ok m.sz = true) (hb : b.ok m.sz = true)
    (hub : b.isUni = d.isUni) (hc : casOk (op == .cas) m.sz d.isUni c = true) :
    decodeFields (encMem 0x99 h d.isUni false op.code m d.field b.field c.field) = some (.atom h op d m b c) := by
  refine (decodeFields_eq_decMem rfl).trans ?_
  simp [decMem, encMem_mem hbase, hx, hsz, hfadd, datF_field hd, datF_same hub hb, datF_cas hc, casOk_field hc]

theorem ldl_decodes {h : Hdr} {m : Mem} (hbase : m.base.baseOk = true) {d : DataReg} (hx : m.x.plain = true)
    (hsz : m.sz.is48 = true) (hd : d.ok m.sz = true) :
    decodeFields (encMem 0x9A h d.isUni false 0 m d.field 0 0) = some (.ldl h d m) := by
  refine (decodeFields_eq_decMem rfl).trans ?_
  simp [decMem, encMem_mem hbase, hx, hsz, datF_field hd]

theorem stc_decodes {h : Hdr} (hla : h.noLa = true) {m : Mem} (hbase : m.base.baseOk = true) {b : DataReg}
    (hx : m.x.plain = true) (hsz : m.sz.is48 = true) (hb : b.ok m.sz = true) (d : BitVec 8) :
    decodeFields (encMem 0x9B h b.isUni false 0 m d b.field 0) = some (.stc h d m b) := by
  refine (decodeFields_eq_decMem rfl).trans ?_
  simp [decMem, hla, encMem_mem hbase, hx, hsz, datF_field hb]

theorem funtag_decodes {h : Hdr} (hla : h.noLa = true) {c : BitVec 3} (hc : (c != 0#3) = true) :
    decodeFields (h.put 0 0x9F { d := c.setWidth 8 }) = some (.funtag h c) := by
  refine (decodeFields_eq_decFence rfl).trans ?_
  simp [decFence, hla, hc]

theorem ftag_handle_decodes {h : Hdr} (hla : h.noLa = true) {c : BitVec 3} (hc : (c != 0#3) = true) (hd : BitVec 4) :
    decodeFields (h.put 1 0x9E { d := c.setWidth 8, a := hd.setWidth 8 }) = some (.ftag h c (.handle hd)) := by
  refine (decodeFields_eq_decFence rfl).trans ?_
  simp [decFence, hla, hc]

theorem ftag_range_decodes {h : Hdr} (hla : h.noLa = true) {c : BitVec 3} (hc : (c != 0#3) = true) (k : BitVec 6)
    (g : BitVec 15) :
    decodeFields (h.put 1 0x9E { sub := 1, d := c.setWidth 8, a := k.setWidth 8, x0 := g.setWidth 32 }) =
      some (.ftag h c (.range k g)) := by
  refine (decodeFields_eq_decFence rfl).trans ?_
  simp [decFence, hla, hc]

theorem cflush_decodes {h : Hdr} (hla : h.noLa = true) {base : Opd64} (hbase : base.baseOk = true) (off : BitVec 24)
    (n : BitVec 8) :
    decodeFields (h.put 1 0xA0 { md := BitVec.ofBool base.isUni ++ 0#5, a := base.field, c := n, x0 := 0#8 ++ off }) =
      some (.cflush h base off n) := by
  refine (decodeFields_eq_decFence rfl).trans ?_
  simp [decFence, hla, Fields.ub, Fields.off, opdF_base hbase]

theorem cinv_decodes {h : Hdr} (hla : h.noLa = true) {base : Opd64} (hbase : base.baseOk = true) (off : BitVec 24)
    (n : BitVec 8) :
    decodeFields (h.put 1 0xA1 { md := BitVec.ofBool base.isUni ++ 0#5, a := base.field, c := n, x0 := 0#8 ++ off }) =
      some (.cinv h base off n) := by
  refine (decodeFields_eq_decFence rfl).trans ?_
  simp [decFence, hla, Fields.ub, Fields.off, opdF_base hbase]

theorem enter_decodes {h : Hdr} (hla : h.noLa = true) {n : BitVec 24} (hal : (n.toNat % 16 == 0) = true)
    (hlo : 16 ≤ n.toNat) (hhi : n.toNat ≤ 8388592) :
    decodeFields (h.put 1 0xA2 { x0 := 0#8 ++ n }) = some (.enter h n) := by
  refine (decodeFields_eq_decFence rfl).trans ?_
  simp [decFence, -BitVec.extractLsb'_toNat, hla, Fields.off, beq_iff_eq.1 hal, hlo, hhi]

theorem leave_decodes {h : Hdr} (hla : h.noLa = true) {n : BitVec 24} (hal : (n.toNat % 16 == 0) = true)
    (hlo : 16 ≤ n.toNat) (hhi : n.toNat ≤ 8388592) :
    decodeFields (h.put 1 0xA3 { x0 := 0#8 ++ n }) = some (.leave h n) := by
  refine (decodeFields_eq_decFence rfl).trans ?_
  simp [decFence, -BitVec.extractLsb'_toNat, hla, Fields.off, beq_iff_eq.1 hal, hlo, hhi]

theorem topen_decodes {h : Hdr} (hla : h.noLa = true) (w : Bool) (d : BitVec 4) (b : BitVec 6) :
    decodeFields (h.put 1 0xA4 { sub := 0#4 ++ BitVec.ofBool w ++ 0#1, d := d.setWidth 8, b := b.setWidth 8 }) =
      some (.topen h w d b) := by
  refine (decodeFields_eq_decFence rfl).trans ?_
  cases w <;>
    simp [decFence, hla, Fields.off]

theorem topenNew_decodes {h : Hdr} (hla : h.noLa = true) (w : Bool) (d : BitVec 4) (b a : BitVec 6) (off : BitVec 24) :
    decodeFields (h.put 1 0xA4 { sub := 0#4 ++ BitVec.ofBool w ++ 1#1, d := d.setWidth 8, a := a.setWidth 8,
                                 b := b.setWidth 8, x0 := 0#8 ++ off }) =
      some (.topenNew h w d b a off) := by
  refine (decodeFields_eq_decFence rfl).trans ?_
  cases w <;>
    simp [decFence, hla, Fields.off]

theorem tclose_decodes {h : Hdr} (hla : h.noLa = true) (fr : Bool) (a : BitVec 4) :
    decodeFields (h.put 0 0xA5 { sub := (BitVec.ofBool fr).setWidth 6, a := a.setWidth 8 }) =
      some (.tclose h fr a) := by
  refine (decodeFields_eq_decFence rfl).trans ?_
  simp [decFence, hla]

theorem hbind_decodes {h : Hdr} (hla : h.noLa = true) {fmt : BitVec 4} {span : BitVec 3} {size : BitVec 20}
    (hfmt : fmt.toNat ≤ 12) (hlo : 1 ≤ size.toNat)
    (hhi : size.toNat ≤ 524288) (hspan : (size.toNat % spanBytes span.toNat == 0) = true) (slab : BitVec 8)
        (a : BitVec 6) (loc : Bool) :
    decodeFields (h.put 1 0xA6 { a := a.setWidth 8, c := slab,
                                 x0 := BitVec.ofBool loc ++ fmt ++ span ++ 0#4 ++ size }) =
      some (.hbind h slab a loc fmt span size) := by
  refine (decodeFields_eq_decFence rfl).trans ?_
  simp [decFence, -BitVec.extractLsb'_toNat, hla, hfmt, hlo, hhi, beq_iff_eq.1 hspan]

theorem hbindRel_decodes {h : Hdr} (hla : h.noLa = true) (slab : BitVec 8) :
    decodeFields (h.put 1 0xA6 { sub := 1, c := slab }) = some (.hbindRel h slab) := by
  refine (decodeFields_eq_decFence rfl).trans ?_
  simp [decFence, hla]

theorem slabq_decodes {h : Hdr} (hla : h.noLa = true) {d : BitVec 8} (hd : quadOk d = true) (slab : BitVec 8) :
    decodeFields (h.put 0 0xA7 { d := d, c := slab }) = some (.slabq h d slab) := by
  refine (decodeFields_eq_decFence rfl).trans ?_
  simp [decFence, hla, quadF_of hd]

theorem spawn_decodes {h : Hdr} (hla : h.noLa = true) {live a b : BitVec 8} (ha : pairOk a = true)
    (hb : (if live == 0#8 then b == 0#8 else decide (b.toNat + live.toNat ≤ 256)) = true) (t : W32) :
    decodeFields (h.put 1 0xB0 { a := a, b := b, c := live, x0 := t }) = some (.spawn h live a b t) := by
  refine (decodeFields_eq_decPar rfl).trans ?_
  by_cases hl : live = 0#8 <;>
    simp [decPar, hla, pairF_of ha, hl, by simpa [hl] using hb]

theorem vote_some_decodes {h : Hdr} (hla : h.noLa = true) (pd pa : BitVec 3) :
    decodeFields (h.put 0 0xB2 { d := pd.setWidth 8, a := pa.setWidth 8 }) = some (.vote h (.some pd pa)) := by
  refine (decodeFields_eq_decPar rfl).trans ?_
  simp [decPar, hla]

theorem vote_every_decodes {h : Hdr} (hla : h.noLa = true) (pd pa : BitVec 3) :
    decodeFields (h.put 0 0xB2 { sub := 1, d := pd.setWidth 8, a := pa.setWidth 8 }) =
      some (.vote h (.every pd pa)) := by
  refine (decodeFields_eq_decPar rfl).trans ?_
  simp [decPar, hla]

theorem vote_mask_decodes {h : Hdr} (hla : h.noLa = true) (d : BitVec 8) (pa : BitVec 3) :
    decodeFields (h.put 0 0xB2 { sub := 2, d := d, a := pa.setWidth 8 }) = some (.vote h (.mask d pa)) := by
  refine (decodeFields_eq_decPar rfl).trans ?_
  simp [decPar, hla]

theorem vote_alike_decodes {h : Hdr} (hla : h.noLa = true) (pd : BitVec 3) (a : BitVec 8) :
    decodeFields (h.put 0 0xB2 { sub := 3, d := pd.setWidth 8, a := a }) = some (.vote h (.alike pd a)) := by
  refine (decodeFields_eq_decPar rfl).trans ?_
  simp [decPar, hla]

theorem shfl_decodes {h : Hdr} (hla : h.noLa = true) {wc : BitVec 3} (hwc : wc.toNat ≤ 5) (op : ShflOp)
    (d a : BitVec 8) (s : Src) :
    decodeFields (h.put 0 0xB3 { md := wc.setWidth 6, sub := ciSub s.ci op.code, d := d, a := a, b := s.fb,
                                 c := s.fc }) =
      some (.shfl h op wc d a s) := by
  refine (decodeFields_eq_decPar rfl).trans ?_
  simp [decPar, hla, Fields.sub5, srcF_put, hwc]

theorem lreduce_decodes {h : Hdr} (hla : h.noLa = true) (op : RedOp) (d a : BitVec 8) :
    decodeFields (h.put 0 0xB4 { sub := op.code.setWidth 6, d := d, a := a }) = some (.lreduce h op d a) := by
  refine (decodeFields_eq_decPar rfl).trans ?_
  simp [decPar, hla]

theorem lscan_decodes {h : Hdr} (hla : h.noLa = true) (op : RedOp) (ex : Bool) (d a : BitVec 8) :
    decodeFields (h.put 0 0xB5 { sub := 0#1 ++ BitVec.ofBool ex ++ op.code, d := d, a := a }) =
      some (.lscan h op ex d a) := by
  refine (decodeFields_eq_decPar rfl).trans ?_
  simp [decPar, hla, scanSub_ne_rank, narrow_scanSub]

theorem lscanRank_decodes {h : Hdr} (hla : h.noLa = true) (kt : KeyTy) (d a b : BitVec 8) :
    decodeFields (h.put 0 0xB5 { md := kt.code.setWidth 6, sub := 11, d := d, a := a, b := b }) =
      some (.lscanRank h kt d a b) := by
  refine (decodeFields_eq_decPar rfl).trans ?_
  simp [decPar, hla]

theorem selmax_none_decodes {h : Hdr} (hla : h.noLa = true) (kt : KeyTy) (d a b : BitVec 8) :
    decodeFields (h.put 0 0xB6 { sub := 0#4 ++ kt.code, d := d, a := a, b := b }) = some (.selmax h kt d a b none) := by
  refine (decodeFields_eq_decPar rfl).trans ?_
  simp [decPar, hla, selSub_key, selSub_zero, selSub_msb, selSub_flag]

theorem selmax_some_decodes {h : Hdr} (hla : h.noLa = true) (kt : KeyTy) (d a b : BitVec 8) (p : BitVec 3) :
    decodeFields (h.put 0 0xB6 { sub := 4#4 ++ kt.code, d := d, a := a, b := b, c := p.setWidth 8 }) =
      some (.selmax h kt d a b (some p)) := by
  refine (decodeFields_eq_decPar rfl).trans ?_
  simp [decPar, hla, selSub_key, selSub_zero, selSub_msb, selSub_flag, (by decide : (4#4).msb = false)]

theorem selmin_none_decodes {h : Hdr} (hla : h.noLa = true) (kt : KeyTy) (d a b : BitVec 8) :
    decodeFields (h.put 0 0xB7 { sub := 0#4 ++ kt.code, d := d, a := a, b := b }) = some (.selmin h kt d a b none) := by
  refine (decodeFields_eq_decPar rfl).trans ?_
  simp [decPar, hla, selSub_key, selSub_zero, selSub_msb, selSub_flag]

theorem selmin_some_decodes {h : Hdr} (hla : h.noLa = true) (kt : KeyTy) (d a b : BitVec 8) (p : BitVec 3) :
    decodeFields (h.put 0 0xB7 { sub := 4#4 ++ kt.code, d := d, a := a, b := b, c := p.setWidth 8 }) =
      some (.selmin h kt d a b (some p)) := by
  refine (decodeFields_eq_decPar rfl).trans ?_
  simp [decPar, hla, selSub_key, selSub_zero, selSub_msb, selSub_flag, (by decide : (4#4).msb = false)]

theorem barT_decodes {h : Hdr} (hla : h.noLa = true) (n : BitVec 4) :
    decodeFields (h.put 0 0xB8 { sub := n.setWidth 6 }) = some (.barT h n) := by
  refine (decodeFields_eq_decPar rfl).trans ?_
  simp [decPar, hla]

theorem barC_decodes {h : Hdr} (hla : h.noLa = true) (n : BitVec 4) :
    decodeFields (h.put 0 0xB9 { sub := n.setWidth 6 }) = some (.barC h n) := by
  refine (decodeFields_eq_decPar rfl).trans ?_
  simp [decPar, hla]

theorem arrive_decodes {h : Hdr} (hla : h.noLa = true) (cl : Bool) (n : BitVec 4) (d : BitVec 8) :
    decodeFields (h.put 0 0xBA { sub := wideSub false cl n, d := d }) = some (.arrive h cl n d) := by
  refine (decodeFields_eq_decPar rfl).trans ?_
  simp [decPar, hla]

theorem await_decodes {h : Hdr} (hla : h.noLa = true) (cl : Bool) (n : BitVec 4) (a : BitVec 8) :
    decodeFields (h.put 0 0xBB { sub := wideSub false cl n, a := a }) = some (.await h cl n a) := by
  refine (decodeFields_eq_decPar rfl).trans ?_
  simp [decPar, hla]

theorem grow_decodes {h : Hdr} (hla : h.noLa = true) {n : BitVec 8} (hal : (n.toNat % 8 == 0) = true)
    (hlo : 8 ≤ n.toNat) (hhi : n.toNat ≤ 248) :
    decodeFields (h.put 0 0xBC { c := n }) = some (.grow h n) := by
  refine (decodeFields_eq_decPar rfl).trans ?_
  simp [decPar, hla, beq_iff_eq.1 hal, hlo, hhi]

theorem shrink_decodes {h : Hdr} (hla : h.noLa = true) {n : BitVec 8} (hal : (n.toNat % 8 == 0) = true)
    (hlo : 8 ≤ n.toNat) (hhi : n.toNat ≤ 248) :
    decodeFields (h.put 0 0xBD { c := n }) = some (.shrink h n) := by
  refine (decodeFields_eq_decPar rfl).trans ?_
  simp [decPar, hla, beq_iff_eq.1 hal, hlo, hhi]

theorem rng_decodes {h : Hdr} (hla : h.noLa = true) (d : BitVec 8) :
    decodeFields (h.put 0 0xBE { d := d }) = some (.rng h d) := by
  refine (decodeFields_eq_decPar rfl).trans ?_
  simp [decPar, hla]

theorem rngk_decodes {h : Hdr} (hla : h.noLa = true) {a : Opd64} (ha : a.baseOk = true) (d : BitVec 8) :
    decodeFields (h.put 0 0xBF { sub := (BitVec.ofBool a.isUni).setWidth 6, d := d, a := a.field }) =
      some (.rngk h d a) := by
  refine (decodeFields_eq_decPar rfl).trans ?_
  simp [decPar, hla, opdF_base ha]

theorem movs_uni_decodes {h : Hdr} (hla : h.noLa = true) (k : BitVec 6) (sel : BitVec 4) :
    decodeFields (h.put 0 0xC0 { sub := 1, d := k.setWidth 8, c := sel.setWidth 8 }) = some (.movs h (.uni k) sel) := by
  refine (decodeFields_eq_decPar rfl).trans ?_
  simp [decPar, hla, narrow_one_one]

theorem movs_vec_decodes {h : Hdr} (hla : h.noLa = true) {r : BitVec 8} {sel : BitVec 4} (hr :
    (!sel64 sel || pairOk r) = true) :
    decodeFields (h.put 0 0xC0 { d := r, c := sel.setWidth 8 }) = some (.movs h (.vec r) sel) := by
  refine (decodeFields_eq_decPar rfl).trans ?_
  simp [decPar, hla, hr]

theorem chainLink_decodes {h : Hdr} (hla : h.noLa = true) (ch : BitVec 4) (a : BitVec 6) (off : W32) :
    decodeFields (h.put 1 0xD0 { sub := ch.setWidth 6, a := a.setWidth 8, x0 := off }) =
      some (.chainLink h ch a off) := by
  refine (decodeFields_eq_decEngine rfl).trans ?_
  simp [decEngine, hla]

theorem chainAdv_decodes {h : Hdr} (hla : h.noLa = true) (ch : BitVec 4) :
    decodeFields (h.put 0 0xD1 { sub := ch.setWidth 6 }) = some (.chainAdv h ch) := by
  refine (decodeFields_eq_decEngine rfl).trans ?_
  simp [decEngine, hla]

theorem condw_decodes {h : Hdr} (hla : h.noLa = true) {a : Opd64} (ha : a.baseOk = true) (add : Bool) (cw : BitVec 4) :
    decodeFields (h.put 0 0xD2 { sub := 0#4 ++ BitVec.ofBool add ++ BitVec.ofBool a.isUni, d := cw.setWidth 8,
                                 a := a.field }) =
      some (.condw h add cw a) := by
  refine (decodeFields_eq_decEngine rfl).trans ?_
  simp [decEngine, hla, opdF_base ha]

theorem sacq_decodes {h : Hdr} (s : BitVec 6) :
    decodeFields (h.put 0 0xD3 { d := s.setWidth 8 }) = some (.sacq h s) := by
  refine (decodeFields_eq_decEngine rfl).trans ?_
  simp [decEngine, Hdr.hdr_put_ll]

theorem stry_decodes {h : Hdr} (hla : h.noLa = true) (p : BitVec 3) (s : BitVec 6) :
    decodeFields (h.put 0 0xD4 { d := p.setWidth 8, a := s.setWidth 8 }) = some (.stry h p s) := by
  refine (decodeFields_eq_decEngine rfl).trans ?_
  simp [decEngine, hla]

theorem sqry_decodes {h : Hdr} (hla : h.noLa = true) {d : Opd64} (hd : d.baseOk = true) (s : BitVec 6) :
    decodeFields (h.put 0 0xD5 { sub := (BitVec.ofBool d.isUni).setWidth 6, d := d.field, a := s.setWidth 8 }) =
      some (.sqry h d s) := by
  refine (decodeFields_eq_decEngine rfl).trans ?_
  simp [decEngine, hla, opdF_base hd]

theorem claim_decodes {h : Hdr} (hla : h.noLa = true) {r : ClaimRange} (hr : r.ok = true) :
    decodeFields (encClaim 0xD6 h r) = some (.claim h r) := by
  refine (decodeFields_eq_decEngine (by cases r <;> rfl)).trans ?_
  simp [decEngine, encClaim_op, encClaim_hdr _ hla, encClaim_range _ hr, encClaim_rest]

theorem release_decodes {h : Hdr} (hla : h.noLa = true) {r : ClaimRange} (hr : r.ok = true) :
    decodeFields (encClaim 0xD7 h r) = some (.release h r) := by
  refine (decodeFields_eq_decEngine (by cases r <;> rfl)).trans ?_
  simp [decEngine, encClaim_op, encClaim_hdr _ hla, encClaim_range _ hr, encClaim_rest]

theorem ofill_decodes {h : Hdr} (hla : h.noLa = true) {a : BitVec 8} (ha : quadOk a = true) (span : BitVec 3)
    (d : BitVec 7) (b : BitVec 6) :
    decodeFields (h.put 0 0xD8 { sub := span.setWidth 6, d := d.setWidth 8, b := b.setWidth 8, a := a }) =
      some (.ofill h span d b a) := by
  refine (decodeFields_eq_decEngine rfl).trans ?_
  simp [decEngine, hla, quadF_of ha]

theorem mma_decodes {h : Hdr} {b : BitVec 8} (hb : pairOk b = true) (d a c k : BitVec 8) :
    decodeFields (h.put 2 0xD9 { d := d, a := a, b := b, c := c, x0 := k.setWidth 32 }) = some (.mma h d a b c k) := by
  refine (decodeFields_eq_decEngine rfl).trans ?_
  simp [decEngine, pairF_of hb]

theorem mmat_decodes {h : Hdr} {b : BitVec 8} (hb : pairOk b = true) (d a c k : BitVec 8) :
    decodeFields (h.put 2 0xDA { d := d, a := a, b := b, c := c, x0 := k.setWidth 32 }) = some (.mmat h d a b c k) := by
  refine (decodeFields_eq_decEngine rfl).trans ?_
  simp [decEngine, pairF_of hb]

theorem accz_decodes {h : Hdr} (hla : h.noLa = true) {a : BitVec 6} {n : BitVec 8} (hn : a.toNat + n.toNat + 1 ≤ 64) :
    decodeFields (h.put 0 0xDB { a := a.setWidth 8, c := n }) = some (.accz h a n) := by
  refine (decodeFields_eq_decEngine rfl).trans ?_
  simp [decEngine, hla, Nat.succ_le_iff.1 hn]

theorem accrd_decodes {h : Hdr} {p : BitVec 3} {d : BitVec 8} (hp : p.toNat ≤ 5) (hd : quadOk d = true) (hf : Bool)
    (a : BitVec 6) :
    decodeFields (h.put 0 0xDC { sub := 0#2 ++ p ++ BitVec.ofBool hf, d := d, a := a.setWidth 8 }) =
      some (.accrd h p hf d a) := by
  refine (decodeFields_eq_decEngine rfl).trans ?_
  simp [decEngine, -BitVec.extractLsb'_toNat, quadF_of hd, hp]

theorem accrdSt_decodes {h : Hdr} {d : BitVec 8} (hd : quadOk d = true) (a : BitVec 6) :
    decodeFields (h.put 0 0xDC { sub := 12, d := d, a := a.setWidth 8 }) = some (.accrdSt h d a) := by
  refine (decodeFields_eq_decEngine rfl).trans ?_
  simp [decEngine, quadF_of hd]

theorem accwr_decodes {h : Hdr} (hla : h.noLa = true) {p : BitVec 3} {a : BitVec 8} (hp : p.toNat ≤ 5)
    (ha : quadOk a = true) (af : Af) (hf : Bool) (d : BitVec 6) :
    decodeFields (h.put 0 0xDD { sub := af.code ++ p ++ BitVec.ofBool hf, d := d.setWidth 8, a := a }) =
      some (.accwr h af p hf d a) := by
  refine (decodeFields_eq_decEngine rfl).trans ?_
  simp [decEngine, -BitVec.extractLsb'_toNat, hla, quadF_of ha, hp]

theorem accwrSt_decodes {h : Hdr} (hla : h.noLa = true) (d : BitVec 6) (a : BitVec 8) :
    decodeFields (h.put 0 0xDD { sub := 12, d := d.setWidth 8, a := a }) = some (.accwrSt h d a) := by
  refine (decodeFields_eq_decEngine rfl).trans ?_
  simp [decEngine, hla]

theorem treeadd_decodes {h : Hdr} (hla : h.noLa = true) (d a : BitVec 6) (l : BitVec 3) (c : BitVec 8) :
    decodeFields (h.put 0 0xDE { sub := l.setWidth 6, d := d.setWidth 8, a := a.setWidth 8, c := c }) =
      some (.treeadd h d a l c) := by
  refine (decodeFields_eq_decEngine rfl).trans ?_
  simp [decEngine, hla]

theorem accfin_decodes {h : Hdr} (hla : h.noLa = true) (a : BitVec 6) :
    decodeFields (h.put 0 0xDF { a := a.setWidth 8 }) = some (.accfin h a) := by
  refine (decodeFields_eq_decEngine rfl).trans ?_
  simp [decEngine, hla]

theorem trap_decodes {h : Hdr} (hla : h.noLa = true) {code : BitVec 8} (hc : 128 ≤ code.toNat) :
    decodeFields (h.put 0 0xF0 { c := code }) = some (.trap h code) := by
  refine (decodeFields_eq_decSystem rfl).trans ?_
  simp [decSystem, hla, hc]

theorem rfe_decodes {h : Hdr} (hla : h.noLa = true) (v : Verdict) (a : BitVec 8) :
    decodeFields (h.put 0 0xF1 { sub := v.code, a := a }) = some (.rfe h v a) := by
  refine (decodeFields_eq_decSystem rfl).trans ?_
  simp [decSystem, hla]

theorem mfsr_decodes {h : Hdr} (hla : h.noLa = true) {d : Opd64} {sr : BitVec 16} (hd : d.baseOk = true)
    (hsr : srRead sr = true) :
    decodeFields (h.put 1 0xF5 { md := (BitVec.ofBool d.isUni).setWidth 6, d := d.field, x0 := sr.setWidth 32 }) =
      some (.mfsr h d sr) := by
  refine (decodeFields_eq_decSystem rfl).trans ?_
  simp [decSystem, hla, opdF_base hd, hsr]

theorem mtsr_decodes {h : Hdr} (hla : h.noLa = true) {a : Opd64} {sr : BitVec 16} (ha : a.baseOk = true)
    (hsr : srWrite sr = true) :
    decodeFields (h.put 1 0xF5 { md := (BitVec.ofBool a.isUni).setWidth 6, sub := 1, a := a.field,
                                 x0 := sr.setWidth 32 }) =
      some (.mtsr h sr a) := by
  refine (decodeFields_eq_decSystem rfl).trans ?_
  simp [decSystem, hla, opdF_base ha, hsr]

theorem faultq_decodes {h : Hdr} (hla : h.noLa = true) {d : BitVec 8} (hd : (d.toNat % 16 == 0) = true) (a : BitVec 6) :
    decodeFields (h.put 0 0xF6 { d := d, a := a.setWidth 8 }) = some (.faultq h d a) := by
  refine (decodeFields_eq_decSystem rfl).trans ?_
  simp [decSystem, hla, beq_iff_eq.1 hd]

theorem acct_decodes {h : Hdr} (hla : h.noLa = true) {d : Opd64} (hd : d.baseOk = true) (a : BitVec 6) :
    decodeFields (h.put 0 0xF7 { md := (BitVec.ofBool d.isUni).setWidth 6, d := d.field, a := a.setWidth 8 }) =
      some (.acct h d a) := by
  refine (decodeFields_eq_decSystem rfl).trans ?_
  simp [decSystem, hla, opdF_base hd]

theorem lrec_decodes {h : Hdr} (hla : h.noLa = true) {d : Opd64} (hd : d.baseOk = true) (a : BitVec 6) :
    decodeFields (h.put 0 0xF8 { md := (BitVec.ofBool d.isUni).setWidth 6, d := d.field, a := a.setWidth 8 }) =
      some (.lrec h d a) := by
  refine (decodeFields_eq_decSystem rfl).trans ?_
  simp [decSystem, hla, opdF_base hd]

theorem send_decodes {h : Hdr} (hla : h.noLa = true) {sz : Sz} {a : BitVec 8} (hsz : sz.isMsg = true) (ha :
    (DataReg.vec a).ok sz = true) (r : BitVec 6) :
    decodeFields (h.put 1 0xF9 { md := 0#3 ++ sz.code, a := a, c := r.setWidth 8 }) = some (.send h sz r a) := by
  refine (decodeFields_eq_decFabric rfl).trans ?_
  simp [decFabric, hla, Fields.szF, Fields.ub, Fields.ud, Fields.sx, hsz, ha]

theorem sendTo_decodes {h : Hdr} (hla : h.noLa = true) {sz : Sz} {a : BitVec 8} (hsz : sz.isMsg = true) (ha :
    (DataReg.vec a).ok sz = true) (b dr : BitVec 6) :
    decodeFields (h.put 1 0xF9 { md := 0#3 ++ sz.code, sub := 1, a := a, b := b.setWidth 8, c := dr.setWidth 8 }) =
      some (.sendTo h sz b dr a) := by
  refine (decodeFields_eq_decFabric rfl).trans ?_
  simp [decFabric, hla, Fields.szF, Fields.ub, Fields.ud, Fields.sx, hsz, ha]

theorem recv_none_decodes {h : Hdr} {sz : Sz} {a : BitVec 8} (hsz : sz.isMsg = true) (ha :
    (DataReg.vec a).ok sz = true) (r : BitVec 6) :
    decodeFields (h.put 1 0xFA { md := 0#3 ++ sz.code, d := a, c := r.setWidth 8 }) = some (.recv h sz a r none) := by
  refine (decodeFields_eq_decFabric rfl).trans ?_
  simp [decFabric, Fields.szF, Fields.ub, Fields.ud, Fields.sx, hsz, ha]

theorem recv_some_decodes {h : Hdr} {sz : Sz} {a : BitVec 8} (hsz : sz.isMsg = true) (ha :
    (DataReg.vec a).ok sz = true) (r : BitVec 6) (b : BitVec 8) :
    decodeFields (h.put 1 0xFA { md := 0#3 ++ sz.code, sub := 1, d := a, b := b, c := r.setWidth 8 }) =
      some (.recv h sz a r (some b)) := by
  refine (decodeFields_eq_decFabric rfl).trans ?_
  simp [decFabric, Fields.szF, Fields.ub, Fields.ud, Fields.sx, hsz, ha]

theorem rld_decodes {h : Hdr} {base : Opd64} (hbase : base.baseOk = true) {d : DataReg} {sx : Bool} {sz : Sz}
    (hd : d.ok sz = true) (hsx : sxOk sx sz = true) (off : BitVec 24) :
    decodeFields (encMem 0xFB h d.isUni sx 0 ⟨base, off, .zero, sz⟩ d.field 0 0) = some (.rld h d sx base off sz) := by
  refine (decodeFields_eq_decFabric rfl).trans ?_
  simp [decFabric, encMem_mem (m := ⟨base, off, .zero, sz⟩) hbase, datF_field hd, hsx]

theorem rst_decodes {h : Hdr} (hla : h.noLa = true) {base : Opd64} (hbase : base.baseOk = true) {b : DataReg}
    {sz : Sz} (hb : b.ok sz = true) (off : BitVec 24) :
    decodeFields (encMem 0xFC h b.isUni false 0 ⟨base, off, .zero, sz⟩ 0 b.field 0) = some (.rst h base off sz b) := by
  refine (decodeFields_eq_decFabric rfl).trans ?_
  simp [decFabric, hla, encMem_mem (m := ⟨base, off, .zero, sz⟩) hbase, datF_field hb]

theorem ratom_decodes {h : Hdr} {base : Opd64} (hbase : base.baseOk = true) {op : AtomOp} {d b c : DataReg}
    {sz : Sz} (hsz : sz.is48 = true)
    (hfadd : (!op == .fadd || !sz == .b8) = true) (hd : d.ok sz = true) (hb : b.ok sz = true) (hub : b.isUni = d.isUni)
    (hc : casOk (op == .cas) sz d.isUni c = true) (off : BitVec 24) :
    decodeFields (encMem 0xFD h d.isUni false op.code ⟨base, off, .zero, sz⟩ d.field b.field c.field) =
      some (.ratom h op d base off sz b c) := by
  refine (decodeFields_eq_decFabric rfl).trans ?_
  simp [decFabric, encMem_mem (m := ⟨base, off, .zero, sz⟩) hbase, hsz, hfadd, datF_field hd, datF_same hub hb,
      datF_cas hc, casOk_field hc]

theorem hatom_decodes {h : Hdr} {base : Opd64} (hbase : base.baseOk = true) {op : HostAtomOp} {d b c : DataReg}
    {sz : Sz} (hsz : sz.is48 = true)
    (hd : d.ok sz = true) (hb : b.ok sz = true) (hub : b.isUni = d.isUni) (hc : casOk (op == .cas) sz d.isUni c = true)
    (fb : Bool) (off : BitVec 24) :
    decodeFields (encMem 0xFE h d.isUni false (0#1 ++ BitVec.ofBool fb ++ op.code) ⟨base, off, .zero,
        sz⟩ d.field b.field c.field) =
      some (.hatom h op fb d base off sz b c) := by
  refine (decodeFields_eq_decFabric rfl).trans ?_
  simp [decFabric, encMem_mem (m := ⟨base, off, .zero, sz⟩) hbase, hsz, datF_field hd, datF_same hub hb, datF_cas hc,
      casOk_field hc, narrow_hostSub]

theorem genqIdx_decodes {h : Hdr} (hla : h.noLa = true) (d a : BitVec 8) :
    decodeFields (h.put 0 0xFF { d := d, a := a }) = some (.genqIdx h d a) := by
  refine (decodeFields_eq_decFabric rfl).trans ?_
  simp [decFabric, hla]

theorem genqFix_decodes {h : Hdr} (hla : h.noLa = true) (d a : BitVec 8) :
    decodeFields (h.put 0 0xFF { sub := 1, d := d, a := a }) = some (.genqFix h d a) := by
  refine (decodeFields_eq_decFabric rfl).trans ?_
  simp [decFabric, hla, narrow_one_one]

section

variable (op : BitVec 8) (h : Hdr) (g : FCfg) (sub : BitVec 6) (fm : Fmt) (rm : Rm) (d a b c : BitVec 8)

@[simp] theorem encF_op : (encF op h g d a b c).op = op := rfl
@[simp] theorem encF_d : (encF op h g d a b c).d = d := rfl
@[simp] theorem encF_a : (encF op h g d a b c).a = a := rfl
@[simp] theorem encF_b : (encF op h g d a b c).b = b := rfl
@[simp] theorem encF_c : (encF op h g d a b c).c = c := rfl
@[simp] theorem encFx_op : (encFx op h sub fm d a b).op = op := rfl
@[simp] theorem encFx_d : (encFx op h sub fm d a b).d = d := rfl
@[simp] theorem encFx_a : (encFx op h sub fm d a b).a = a := rfl
@[simp] theorem encFx_b : (encFx op h sub fm d a b).b = b := rfl
@[simp] theorem encFx_sub : (encFx op h sub fm d a b).sub = sub := rfl
@[simp] theorem encL_op : (encL op h rm d a b).op = op := rfl
@[simp] theorem encL_d : (encL op h rm d a b).d = d := rfl
@[simp] theorem encL_a : (encL op h rm d a b).a = a := rfl
@[simp] theorem encL_b : (encL op h rm d a b).b = b := rfl

end

theorem fadd_decodes {h : Hdr} (hla : h.noLa = true) {g : FCfg} (hg : g.fmt.scalar = true) (d a b : BitVec 8) :
    decodeFields (encF 0x40 h g d a b 0) = some (.fadd h g d a b) := by
  refine (decodeFields_eq_decFloat rfl).trans ?_
  simp [decFloat, decF_encF hla _ (okFmt := Fmt.scalar) hg]

theorem fsub_decodes {h : Hdr} (hla : h.noLa = true) {g : FCfg} (hg : g.fmt.scalar = true) (d a b : BitVec 8) :
    decodeFields (encF 0x41 h g d a b 0) = some (.fsub h g d a b) := by
  refine (decodeFields_eq_decFloat rfl).trans ?_
  simp [decFloat, decF_encF hla _ (okFmt := Fmt.scalar) hg]

theorem fmul_decodes {h : Hdr} (hla : h.noLa = true) {g : FCfg} (hg : g.fmt.scalar = true) (d a b : BitVec 8) :
    decodeFields (encF 0x42 h g d a b 0) = some (.fmul h g d a b) := by
  refine (decodeFields_eq_decFloat rfl).trans ?_
  simp [decFloat, decF_encF hla _ (okFmt := Fmt.scalar) hg]

theorem fma_decodes {h : Hdr} (hla : h.noLa = true) {g : FCfg} (hg : g.fmt.scalar = true) (d a b c : BitVec 8) :
    decodeFields (encF 0x43 h g d a b c) = some (.fma h g d a b c) := by
  refine (decodeFields_eq_decFloat rfl).trans ?_
  simp [decFloat, decF_encF hla _ (okFmt := Fmt.scalar) hg]

theorem fnma_decodes {h : Hdr} (hla : h.noLa = true) {g : FCfg} (hg : g.fmt.scalar = true) (d a b c : BitVec 8) :
    decodeFields (encF 0x44 h g d a b c) = some (.fnma h g d a b c) := by
  refine (decodeFields_eq_decFloat rfl).trans ?_
  simp [decFloat, decF_encF hla _ (okFmt := Fmt.scalar) hg]

theorem hadd2_decodes {h : Hdr} (hla : h.noLa = true) {g : FCfg} (hg : g.fmt.packed = true) (d a b : BitVec 8) :
    decodeFields (encF 0x52 h g d a b 0) = some (.hadd2 h g d a b) := by
  refine (decodeFields_eq_decFloat rfl).trans ?_
  simp [decFloat, decF_encF hla _ (okFmt := Fmt.packed) hg]

theorem hmul2_decodes {h : Hdr} (hla : h.noLa = true) {g : FCfg} (hg : g.fmt.packed = true) (d a b : BitVec 8) :
    decodeFields (encF 0x53 h g d a b 0) = some (.hmul2 h g d a b) := by
  refine (decodeFields_eq_decFloat rfl).trans ?_
  simp [decFloat, decF_encF hla _ (okFmt := Fmt.packed) hg]

theorem hfma2_decodes {h : Hdr} (hla : h.noLa = true) {g : FCfg} (hg : g.fmt.packed = true) (d a b c : BitVec 8) :
    decodeFields (encF 0x54 h g d a b c) = some (.hfma2 h g d a b c) := by
  refine (decodeFields_eq_decFloat rfl).trans ?_
  simp [decFloat, decF_encF hla _ (okFmt := Fmt.packed) hg]

theorem fdot2_decodes {h : Hdr} (hla : h.noLa = true) {g : FCfg} (hg : g.fmt.packed = true) (d a b c : BitVec 8) :
    decodeFields (encF 0x57 h g d a b c) = some (.fdot2 h g d a b c) := by
  refine (decodeFields_eq_decFloat rfl).trans ?_
  simp [decFloat, decF_encF hla _ (okFmt := Fmt.packed) hg]

theorem fmin_decodes {h : Hdr} (hla : h.noLa = true) {g : Fmt} (hg : g.scalar = true) (d a b : BitVec 8) :
    decodeFields (encFx 0x45 h 0 g d a b) = some (.fmin h g d a b) := by
  refine (decodeFields_eq_decFloat rfl).trans ?_
  simp [decFloat, decFx_encFx hla _ (okFmt := Fmt.scalar) hg]

theorem fmax_decodes {h : Hdr} (hla : h.noLa = true) {g : Fmt} (hg : g.scalar = true) (d a b : BitVec 8) :
    decodeFields (encFx 0x46 h 0 g d a b) = some (.fmax h g d a b) := by
  refine (decodeFields_eq_decFloat rfl).trans ?_
  simp [decFloat, decFx_encFx hla _ (okFmt := Fmt.scalar) hg]

theorem hmin2_decodes {h : Hdr} (hla : h.noLa = true) {g : Fmt} (hg : g.packed = true) (d a b : BitVec 8) :
    decodeFields (encFx 0x55 h 0 g d a b) = some (.hmin2 h g d a b) := by
  refine (decodeFields_eq_decFloat rfl).trans ?_
  simp [decFloat, decFx_encFx hla _ (okFmt := Fmt.packed) hg]

theorem hmax2_decodes {h : Hdr} (hla : h.noLa = true) {g : Fmt} (hg : g.packed = true) (d a b : BitVec 8) :
    decodeFields (encFx 0x56 h 0 g d a b) = some (.hmax2 h g d a b) := by
  refine (decodeFields_eq_decFloat rfl).trans ?_
  simp [decFloat, decFx_encFx hla _ (okFmt := Fmt.packed) hg]

theorem fsgn_decodes {h : Hdr} (hla : h.noLa = true) {g : Fmt} (hg : g.scalar = true) (op : SgnOp) (d a b : BitVec 8) :
    decodeFields (encFx 0x47 h op.code g d a b) = some (.fsgn h op g d a b) := by
  refine (decodeFields_eq_decFloat rfl).trans ?_
  simp [decFloat, decFx_encFx hla _ (okFmt := Fmt.scalar) hg]

theorem fcmp_decodes {h : Hdr} (hla : h.noLa = true) {g : Fmt} (hg : g.scalar = true) (cd : FCond) (pd : BitVec 3)
    (a b : BitVec 8) :
    decodeFields (encFx 0x48 h (cd.code.setWidth 6) g (pd.setWidth 8) a b) = some (.fcmp h cd g pd a b) := by
  refine (decodeFields_eq_decFloat rfl).trans ?_
  simp [decFloat, decFx_encFx hla _ (okFmt := Fmt.scalar) hg]

theorem fclass_decodes {h : Hdr} (hla : h.noLa = true) (g : Fmt) (d a : BitVec 8) :
    decodeFields (encFx 0x49 h 0 g d a 0) = some (.fclass h g d a) := by
  refine (decodeFields_eq_decFloat rfl).trans ?_
  simp [decFloat, decFx_encFx (okFmt := fun _ => true) hla _ rfl]

theorem frcp_decodes {h : Hdr} (hla : h.noLa = true) (rm : Rm) (d a : BitVec 8) :
    decodeFields (encL 0x4B h rm d a 0) = some (.frcp h rm d a) := by
  refine (decodeFields_eq_decFloat rfl).trans ?_
  simp [decFloat, decL_encL (ll := false) (.inr hla)]

theorem frsq_decodes {h : Hdr} (hla : h.noLa = true) (rm : Rm) (d a : BitVec 8) :
    decodeFields (encL 0x4C h rm d a 0) = some (.frsq h rm d a) := by
  refine (decodeFields_eq_decFloat rfl).trans ?_
  simp [decFloat, decL_encL (ll := false) (.inr hla)]

theorem fsqrt_decodes (h : Hdr) (rm : Rm) (d a : BitVec 8) :
    decodeFields (encL 0x4D h rm d a 0) = some (.fsqrt h rm d a) := by
  refine (decodeFields_eq_decFloat rfl).trans ?_
  simp [decFloat, decL_encL (ll := true) (.inl rfl)]

theorem fexp2_decodes (h : Hdr) (rm : Rm) (d a : BitVec 8) :
    decodeFields (encL 0x4F h rm d a 0) = some (.fexp2 h rm d a) := by
  refine (decodeFields_eq_decFloat rfl).trans ?_
  simp [decFloat, decL_encL (ll := true) (.inl rfl)]

theorem flog2_decodes (h : Hdr) (rm : Rm) (d a : BitVec 8) :
    decodeFields (encL 0x50 h rm d a 0) = some (.flog2 h rm d a) := by
  refine (decodeFields_eq_decFloat rfl).trans ?_
  simp [decFloat, decL_encL (ll := true) (.inl rfl)]

theorem fdiv_decodes (h : Hdr) (rm : Rm) (d a b : BitVec 8) :
    decodeFields (encL 0x4E h rm d a b) = some (.fdiv h rm d a b) := by
  refine (decodeFields_eq_decFloat rfl).trans ?_
  simp [decFloat, decL_encL (ll := true) (.inl rfl)]

/-! ## FENCE -/

theorem itemF_put (it : Item) : itemF it.field it.kind = some it := by
  cases it with
  | handle h => simp [itemF, Item.field, Item.kind]
  | range k g =>
    have hmsb : (1#1 ++ g : BitVec 16).msb = true := (append_msb _ _).trans rfl
    have hlow : (1#1 ++ g : BitVec 16).extractLsb' 0 15 = g := BitVec.extractLsb'_append_eq_right
    simp [itemF, Item.field, Item.kind, hmsb, hlow]

@[simp] theorem itemExt_low (hi lo : BitVec 16) : (hi ++ lo : BitVec 32).extractLsb' 0 16 = lo :=
  BitVec.extractLsb'_append_eq_right

@[simp] theorem itemExt_high (hi lo : BitVec 16) : (hi ++ lo : BitVec 32).extractLsb' 16 16 = hi :=
  BitVec.extractLsb'_append_eq_left

/-- SUB of a fence: its direction, and the number of items after the first (R230). -/
theorem fenceSub (n : BitVec 2) (dir : FenceDir) :
    let sub : BitVec 6 := 0#2 ++ n ++ dir.code
    sub.extractLsb' 0 2 = dir.code ∧ sub.extractLsb' 2 2 = n ∧ sub.extractLsb' 4 2 = 0#2 := by
  revert n; cases dir <;> decide

theorem narrow_fenceMod (sc : Scope) : narrow 3 (0#3 ++ sc.code : BitVec 6) = some sc.code := by cases sc <;> rfl

/-- What FENCE's word holds beside its header. -/
structure FenceWord (dir : FenceDir) (sc : Scope) (i0 : Item) (n : BitVec 2) (f : Fields) : Prop where
  sub : f.sub = 0#2 ++ n ++ dir.code
  md : f.md = 0#3 ++ sc.code
  item : itemF f.d (f.x0.extractLsb' 0 16) = some i0

theorem fence_decodes {h : Hdr} (hla : h.noLa = true) {dir : FenceDir} {sc : Scope} {i0 : Item} {n : BitVec 2}
    {rest : List Item} {f : Fields} (hw : FenceWord dir sc i0 n f) (hrest : fenceRest n
        (h.put 2#2 0x9C#8 f) = some rest) :
    decodeFields (h.put 2 0x9C f) = some (.fence h dir sc i0 rest) := by
  obtain ⟨hlow, hmid, hhigh⟩ := fenceSub n dir
  obtain ⟨hsub, hmd, hitem⟩ := hw
  refine (decodeFields_eq_decFence rfl).trans ?_
  simp [decFence, hla, hsub, hlow, hmid, hhigh, hmd, narrow_fenceMod, hitem, hrest]

theorem fence_roundTrips {h : Hdr} (hla : h.noLa = true) (dir : FenceDir) (sc : Scope) (i0 : Item) {rest : List Item}
    (hlen : rest.length ≤ 3) : (Instr.fence h dir sc i0 rest).RoundTrips := by
  match rest with
  | [] => exact roundTrips_ext2 rfl (fence_decodes hla ⟨rfl, rfl, by simp [itemF_put]⟩ (by simp [fenceRest]))
  | [i1] =>
    exact roundTrips_ext2 rfl (fence_decodes hla ⟨rfl, rfl, by simp [itemF_put]⟩ (by simp [fenceRest, itemF_put]))
  | [i1, i2] =>
    exact roundTrips_ext2 rfl (fence_decodes hla ⟨rfl, rfl, by simp [itemF_put]⟩ (by simp [fenceRest, itemF_put]))
  | [i1, i2, i3] =>
    exact roundTrips_ext2 rfl (fence_decodes hla ⟨rfl, rfl, by simp [itemF_put]⟩ (by simp [fenceRest, itemF_put]))
  | _ :: _ :: _ :: _ :: _ => exact absurd hlen (by simp)

/-! ## The other instructions whose word depends on an operand's kind -/

theorem ftag_roundTrips {h : Hdr} (hla : h.noLa = true) {c : BitVec 3} (hc : (c != 0#3) = true) (it : Item) :
    (Instr.ftag h c it).RoundTrips := by
  cases it with
  | handle hd => exact roundTrips_ext rfl rfl (ftag_handle_decodes hla hc hd)
  | range k g => exact roundTrips_ext rfl rfl (ftag_range_decodes hla hc k g)

theorem vote_roundTrips {h : Hdr} (hla : h.noLa = true) (op : VoteOp) : (Instr.vote h op).RoundTrips := by
  cases op with
  | some pd pa => exact roundTrips_base rfl rfl rfl (vote_some_decodes hla pd pa)
  | every pd pa => exact roundTrips_base rfl rfl rfl (vote_every_decodes hla pd pa)
  | mask d pa => exact roundTrips_base rfl rfl rfl (vote_mask_decodes hla d pa)
  | alike pd a => exact roundTrips_base rfl rfl rfl (vote_alike_decodes hla pd a)

theorem selmax_roundTrips {h : Hdr} (hla : h.noLa = true) (kt : KeyTy) (d a b : BitVec 8) (pc : Option (BitVec 3)) :
    (Instr.selmax h kt d a b pc).RoundTrips := by
  cases pc with
  | none => exact roundTrips_base rfl rfl rfl (selmax_none_decodes hla kt d a b)
  | some p => exact roundTrips_base rfl rfl rfl (selmax_some_decodes hla kt d a b p)

theorem selmin_roundTrips {h : Hdr} (hla : h.noLa = true) (kt : KeyTy) (d a b : BitVec 8) (pc : Option (BitVec 3)) :
    (Instr.selmin h kt d a b pc).RoundTrips := by
  cases pc with
  | none => exact roundTrips_base rfl rfl rfl (selmin_none_decodes hla kt d a b)
  | some p => exact roundTrips_base rfl rfl rfl (selmin_some_decodes hla kt d a b p)

theorem movs_roundTrips {h : Hdr} (hla : h.noLa = true) {d : DataReg} {sel : BitVec 4}
    (hd : (match d with | .vec r => !sel64 sel || pairOk r | .uni _ => true) = true) :
        (Instr.movs h d sel).RoundTrips := by
  cases d with
  | vec r => exact roundTrips_base rfl rfl rfl (movs_vec_decodes hla hd)
  | uni k => exact roundTrips_base rfl rfl rfl (movs_uni_decodes hla k sel)

theorem claim_roundTrips {h : Hdr} (hla : h.noLa = true) {r : ClaimRange} (hr : r.ok = true) :
    (Instr.claim h r).RoundTrips := by
  cases r with
  | slots a n => exact roundTrips_base rfl rfl rfl (claim_decodes hla hr)
  | tiles a n => exact roundTrips_base rfl rfl rfl (claim_decodes hla hr)

theorem release_roundTrips {h : Hdr} (hla : h.noLa = true) {r : ClaimRange} (hr : r.ok = true) :
    (Instr.release h r).RoundTrips := by
  cases r with
  | slots a n => exact roundTrips_base rfl rfl rfl (release_decodes hla hr)
  | tiles a n => exact roundTrips_base rfl rfl rfl (release_decodes hla hr)

theorem recv_roundTrips {h : Hdr} {sz : Sz} {d : BitVec 8} (hsz : sz.isMsg = true) (hd : (DataReg.vec d).ok sz = true)
    (r : BitVec 6) (m : Option (BitVec 8)) : (Instr.recv h sz d r m).RoundTrips := by
  cases m with
  | none => exact roundTrips_ext rfl rfl (recv_none_decodes hsz hd r)
  | some b => exact roundTrips_ext rfl rfl (recv_some_decodes hsz hd r b)

theorem add64_decodes {h : Hdr} (hla : h.noLa = true) {d a : Opd64} {s : Src64} (hd : d.ok a.isUni = true)
    (ha : a.baseOk = true) (hs : s.ok a.isUni = true) :
    decodeFields (encWide 0x30 h 0 d a s) = some (.add64 h d a s) :=
  (decodeFields_eq_decAddr rfl).trans
    (decWide_encWide hla 0x30 hd ha hs 0 (fun h l d a s => if l = 0#4 then some (.add64 h d a s) else none) rfl)

theorem sub64_decodes {h : Hdr} (hla : h.noLa = true) {d a : Opd64} {s : Src64} (hd : d.ok a.isUni = true)
    (ha : a.baseOk = true) (hs : s.ok a.isUni = true) :
    decodeFields (encWide 0x31 h 0 d a s) = some (.sub64 h d a s) :=
  (decodeFields_eq_decAddr rfl).trans
    (decWide_encWide hla 0x31 hd ha hs 0 (fun h l d a s => if l = 0#4 then some (.sub64 h d a s) else none) rfl)

theorem shl64_decodes {h : Hdr} (hla : h.noLa = true) {d a : Opd64} {s : Src64} (hd : d.ok a.isUni = true)
    (ha : a.baseOk = true) (hs : s.ok a.isUni = true) :
    decodeFields (encWide 0x32 h 0 d a s) = some (.shl64 h d a s) :=
  (decodeFields_eq_decAddr rfl).trans
    (decWide_encWide hla 0x32 hd ha hs 0 (fun h l d a s => if l = 0#4 then some (.shl64 h d a s) else none) rfl)

theorem shr64_decodes {h : Hdr} (hla : h.noLa = true) {d a : Opd64} {s : Src64} (hd : d.ok a.isUni = true)
    (ha : a.baseOk = true) (hs : s.ok a.isUni = true) (ar : Bool) :
    decodeFields (encWide 0x33 h (if ar then 1#4 else 0#4) d a s) = some (.shr64 h ar d a s) := by
  refine (decodeFields_eq_decAddr rfl).trans (decWide_encWide hla 0x33 hd ha hs _ (fun h l d a s =>
    if l = 0#4 then some (.shr64 h false d a s) else if l = 1#4 then some (.shr64 h true d a s) else none) ?_)
  cases ar <;> rfl

theorem nop_roundTrips {i : Instr} {len : BitVec 2} (he : encode i = some { len := len })
    (hd : decodeFields { len := len } = some i) : i.RoundTrips := by
  intro f hf
  obtain rfl := Option.some.inj (he.symm.trans hf)
  exact ⟨hd, fun _ => rfl, fun _ => rfl⟩

/-! ## Every instruction -/

theorem roundTrips_of_wf {i : Instr} (hwf : i.wf = true) : i.RoundTrips := by
  cases i
  case nop64 | nop96 | nop128 => exact nop_roundTrips rfl (by decide)
  case add | sub | mul | mulh | mulhu | div | divu | rem | remu | min | max | minu | maxu | and | or | xor | andn | orn
      | shl | shr | sar | rotl | sext | zext => exact roundTrips_base rfl rfl rfl (decTwo_encTwo hwf ..)
  case addsat | subsat => exact roundTrips_base rfl rfl rfl (decTwoU_encTwoU hwf ..)
  case mad | funnel => exact roundTrips_base rfl rfl rfl (decThree_encThree hwf ..)
  case abs | neg => exact roundTrips_base rfl rfl rfl (decOneSat_encOneSat hwf ..)
  case clz | ctz | popc | brev => exact roundTrips_base rfl rfl rfl (decOne_encOne hwf ..)
  case ret | exit | region | yield | bkpt => exact roundTrips_base rfl rfl rfl (decBare_put hwf ..)
  case call | meet => exact roundTrips_ext rfl rfl (decBare_put hwf ..)
  case fenceAll => exact roundTrips_base rfl rfl rfl (decBare_put hwf ..)
  case mulw h u d a s =>
    obtain ⟨hla, hd⟩ := Bool.and_eq_true_iff.1 hwf
    exact roundTrips_base rfl rfl rfl ((if_pos hd).trans (decTwoU_encTwoU hla ..))
  case add64 h d a s =>
    replace hwf : (_ && _) = true := hwf
    simp only [Bool.and_eq_true] at hwf
    obtain ⟨⟨⟨hla, hd⟩, ha⟩, hs⟩ := hwf
    exact roundTrips_base rfl rfl rfl (add64_decodes hla hd ha hs)
  case sub64 h d a s =>
    replace hwf : (_ && _) = true := hwf
    simp only [Bool.and_eq_true] at hwf
    obtain ⟨⟨⟨hla, hd⟩, ha⟩, hs⟩ := hwf
    exact roundTrips_base rfl rfl rfl (sub64_decodes hla hd ha hs)
  case shl64 h d a s =>
    replace hwf : (_ && _) = true := hwf
    simp only [Bool.and_eq_true] at hwf
    obtain ⟨⟨⟨hla, hd⟩, ha⟩, hs⟩ := hwf
    exact roundTrips_base rfl rfl rfl (shl64_decodes hla hd ha hs)
  case shr64 h ar d a s =>
    replace hwf : (_ && _) = true := hwf
    simp only [Bool.and_eq_true] at hwf
    obtain ⟨⟨⟨hla, hd⟩, ha⟩, hs⟩ := hwf
    exact roundTrips_base rfl rfl rfl (shr64_decodes hla hd ha hs ar)
  case fadd h g d a b =>
    obtain ⟨hla, hg⟩ := Bool.and_eq_true_iff.1 hwf
    exact roundTrips_base rfl rfl rfl (fadd_decodes hla hg ..)
  case fsub h g d a b =>
    obtain ⟨hla, hg⟩ := Bool.and_eq_true_iff.1 hwf
    exact roundTrips_base rfl rfl rfl (fsub_decodes hla hg ..)
  case fmul h g d a b =>
    obtain ⟨hla, hg⟩ := Bool.and_eq_true_iff.1 hwf
    exact roundTrips_base rfl rfl rfl (fmul_decodes hla hg ..)
  case hadd2 h g d a b =>
    obtain ⟨hla, hg⟩ := Bool.and_eq_true_iff.1 hwf
    exact roundTrips_base rfl rfl rfl (hadd2_decodes hla hg ..)
  case hmul2 h g d a b =>
    obtain ⟨hla, hg⟩ := Bool.and_eq_true_iff.1 hwf
    exact roundTrips_base rfl rfl rfl (hmul2_decodes hla hg ..)
  case fma h g d a b c =>
    obtain ⟨hla, hg⟩ := Bool.and_eq_true_iff.1 hwf
    exact roundTrips_base rfl rfl rfl (fma_decodes hla hg ..)
  case fnma h g d a b c =>
    obtain ⟨hla, hg⟩ := Bool.and_eq_true_iff.1 hwf
    exact roundTrips_base rfl rfl rfl (fnma_decodes hla hg ..)
  case hfma2 h g d a b c =>
    obtain ⟨hla, hg⟩ := Bool.and_eq_true_iff.1 hwf
    exact roundTrips_base rfl rfl rfl (hfma2_decodes hla hg ..)
  case fdot2 h g d a b c =>
    obtain ⟨hla, hg⟩ := Bool.and_eq_true_iff.1 hwf
    exact roundTrips_base rfl rfl rfl (fdot2_decodes hla hg ..)
  case fmin h g d a b =>
    obtain ⟨hla, hg⟩ := Bool.and_eq_true_iff.1 hwf
    exact roundTrips_base rfl rfl rfl (fmin_decodes hla hg ..)
  case fmax h g d a b =>
    obtain ⟨hla, hg⟩ := Bool.and_eq_true_iff.1 hwf
    exact roundTrips_base rfl rfl rfl (fmax_decodes hla hg ..)
  case hmin2 h g d a b =>
    obtain ⟨hla, hg⟩ := Bool.and_eq_true_iff.1 hwf
    exact roundTrips_base rfl rfl rfl (hmin2_decodes hla hg ..)
  case hmax2 h g d a b =>
    obtain ⟨hla, hg⟩ := Bool.and_eq_true_iff.1 hwf
    exact roundTrips_base rfl rfl rfl (hmax2_decodes hla hg ..)
  case fsgn h op g d a b =>
    obtain ⟨hla, hg⟩ := Bool.and_eq_true_iff.1 hwf
    exact roundTrips_base rfl rfl rfl (fsgn_decodes hla hg ..)
  case fcmp h cd g pd a b =>
    obtain ⟨hla, hg⟩ := Bool.and_eq_true_iff.1 hwf
    exact roundTrips_base rfl rfl rfl (fcmp_decodes hla hg ..)
  case fclass h g d a => exact roundTrips_base rfl rfl rfl (fclass_decodes hwf ..)
  case frcp h rm d a => exact roundTrips_base rfl rfl rfl (frcp_decodes hwf ..)
  case frsq h rm d a => exact roundTrips_base rfl rfl rfl (frsq_decodes hwf ..)
  case fsqrt h rm d a => exact roundTrips_base rfl rfl rfl (fsqrt_decodes ..)
  case fexp2 h rm d a => exact roundTrips_base rfl rfl rfl (fexp2_decodes ..)
  case flog2 h rm d a => exact roundTrips_base rfl rfl rfl (flog2_decodes ..)
  case fdiv h rm d a b => exact roundTrips_base rfl rfl rfl (fdiv_decodes ..)
  case bytep => exact roundTrips_base rfl rfl rfl (bytep_decodes hwf ..)
  case movVector => exact roundTrips_base rfl rfl rfl (movVector_decodes hwf ..)
  case movUniform => exact roundTrips_base rfl rfl rfl (movUniform_decodes hwf ..)
  case sel => exact roundTrips_base rfl rfl rfl (sel_decodes hwf ..)
  case cmp => exact roundTrips_base rfl rfl rfl (cmp_decodes hwf ..)
  case plop => exact roundTrips_base rfl rfl rfl (plop_decodes hwf ..)
  case pmovToRegister => exact roundTrips_base rfl rfl rfl (pmovToRegister_decodes hwf ..)
  case pmovFromRegister => exact roundTrips_base rfl rfl rfl (pmovFromRegister_decodes hwf ..)
  case dot4 => exact roundTrips_base rfl rfl rfl (dot4_decodes hwf ..)
  case brx => exact roundTrips_base rfl rfl rfl (brx_decodes hwf ..)
  case callx => exact roundTrips_base rfl rfl rfl (callx_decodes hwf ..)
  case tclose => exact roundTrips_base rfl rfl rfl (tclose_decodes hwf ..)
  case lreduce => exact roundTrips_base rfl rfl rfl (lreduce_decodes hwf ..)
  case lscan => exact roundTrips_base rfl rfl rfl (lscan_decodes hwf ..)
  case lscanRank => exact roundTrips_base rfl rfl rfl (lscanRank_decodes hwf ..)
  case barT => exact roundTrips_base rfl rfl rfl (barT_decodes hwf ..)
  case barC => exact roundTrips_base rfl rfl rfl (barC_decodes hwf ..)
  case arrive => exact roundTrips_base rfl rfl rfl (arrive_decodes hwf ..)
  case await => exact roundTrips_base rfl rfl rfl (await_decodes hwf ..)
  case rng => exact roundTrips_base rfl rfl rfl (rng_decodes hwf ..)
  case chainAdv => exact roundTrips_base rfl rfl rfl (chainAdv_decodes hwf ..)
  case stry => exact roundTrips_base rfl rfl rfl (stry_decodes hwf ..)
  case accwrSt => exact roundTrips_base rfl rfl rfl (accwrSt_decodes hwf ..)
  case treeadd => exact roundTrips_base rfl rfl rfl (treeadd_decodes hwf ..)
  case accfin => exact roundTrips_base rfl rfl rfl (accfin_decodes hwf ..)
  case rfe => exact roundTrips_base rfl rfl rfl (rfe_decodes hwf ..)
  case genqIdx => exact roundTrips_base rfl rfl rfl (genqIdx_decodes hwf ..)
  case genqFix => exact roundTrips_base rfl rfl rfl (genqFix_decodes hwf ..)
  case addi => exact roundTrips_ext rfl rfl (addi_decodes hwf ..)
  case moviVector => exact roundTrips_ext rfl rfl (moviVector_decodes hwf ..)
  case moviUniform => exact roundTrips_ext rfl rfl (moviUniform_decodes hwf ..)
  case cmpi => exact roundTrips_ext rfl rfl (cmpi_decodes hwf ..)
  case br => exact roundTrips_ext rfl rfl (br_decodes hwf ..)
  case topen => exact roundTrips_ext rfl rfl (topen_decodes hwf ..)
  case topenNew => exact roundTrips_ext rfl rfl (topenNew_decodes hwf ..)
  case hbindRel => exact roundTrips_ext rfl rfl (hbindRel_decodes hwf ..)
  case chainLink => exact roundTrips_ext rfl rfl (chainLink_decodes hwf ..)
  case movqUniform => exact roundTrips_ext2 rfl (movqUniform_decodes hwf ..)
  case stt => exact roundTrips_ext2 rfl (stt_decodes hwf ..)
  case ldt => exact roundTrips_ext2 rfl (ldt_decodes ..)
  case sacq => exact roundTrips_base rfl rfl rfl (sacq_decodes ..)
  case mma => exact roundTrips_ext2 rfl (mma_decodes hwf ..)
  case mmat => exact roundTrips_ext2 rfl (mmat_decodes hwf ..)
  case accrdSt => exact roundTrips_base rfl rfl rfl (accrdSt_decodes hwf ..)
  case vote h op => exact vote_roundTrips hwf op
  case selmax => exact selmax_roundTrips hwf _ _ _ _ _
  case selmin => exact selmin_roundTrips hwf _ _ _ _ _
  case bfe h sg p l d a =>
    replace hwf : (_ && _) = true := hwf
    simp only [Bool.and_eq_true, decide_eq_true_eq] at hwf
    obtain ⟨⟨hla, hl⟩, hp⟩ := hwf
    exact roundTrips_base rfl rfl rfl (bfe_decodes hla _ hl hp ..)
  case bfi h p l d a b =>
    replace hwf : (_ && _) = true := hwf
    simp only [Bool.and_eq_true, decide_eq_true_eq] at hwf
    obtain ⟨⟨hla, hl⟩, hp⟩ := hwf
    exact roundTrips_base rfl rfl rfl (bfi_decodes hla hl hp ..)
  case movPairFromUniform h d a =>
    obtain ⟨hla, hd⟩ := Bool.and_eq_true_iff.1 hwf
    exact roundTrips_base rfl rfl rfl (movPairFromUniform_decodes hla hd ..)
  case movUniformFromPair h d a =>
    obtain ⟨hla, ha⟩ := Bool.and_eq_true_iff.1 hwf
    exact roundTrips_base rfl rfl rfl (movUniformFromPair_decodes hla _ ha ..)
  case movqPair h d imm =>
    obtain ⟨hla, hd⟩ := Bool.and_eq_true_iff.1 hwf
    exact roundTrips_ext2 rfl (movqPair_decodes hla hd ..)
  case cmp64 h uf cd pd a s =>
    replace hwf : (_ && _) = true := hwf
    simp only [Bool.and_eq_true] at hwf
    obtain ⟨⟨hla, ha⟩, hs⟩ := hwf
    exact roundTrips_base rfl rfl rfl (cmp64_decodes hla ha hs ..)
  case lea h w sh d a b imm =>
    replace hwf : (_ && _) = true := hwf
    simp only [Bool.and_eq_true, decide_eq_true_eq] at hwf
    obtain ⟨⟨⟨⟨hla, hsh⟩, hd⟩, ha⟩, hb⟩ := hwf
    exact roundTrips_ext rfl rfl (lea_decodes hla hsh hd ha hb ..)
  case frnd h rm g d a =>
    obtain ⟨hla, hg⟩ := Bool.and_eq_true_iff.1 hwf
    exact roundTrips_base rfl rfl rfl (frnd_decodes hla hg ..)
  case cvt h rm sat st dt se de mg d a =>
    replace hwf : (_ && _) = true := hwf
    simp only [Bool.and_eq_true, decide_eq_true_eq, Bool.not_and] at hwf
    obtain ⟨⟨⟨⟨hla, hse⟩, hde⟩, hmg⟩, hsat⟩ := hwf
    exact roundTrips_base rfl rfl rfl (cvt_decodes hla hse hde hmg hsat ..)
  case ld h d sx m =>
    replace hwf : (_ && _) = true := hwf
    simp only [Bool.and_eq_true] at hwf
    obtain ⟨⟨hbase, hd⟩, hsx⟩ := hwf
    exact roundTrips_ext rfl rfl (ld_decodes hbase hd hsx)
  case st h m b =>
    replace hwf : (_ && _) = true := hwf
    simp only [Bool.and_eq_true] at hwf
    obtain ⟨⟨hla, hbase⟩, hb⟩ := hwf
    exact roundTrips_ext rfl rfl (st_decodes hla hbase hb)
  case pref h base off lc hint =>
    obtain ⟨hla, hbase⟩ := Bool.and_eq_true_iff.1 hwf
    exact roundTrips_ext rfl rfl (pref_decodes hla hbase ..)
  case ldg h d sx sidx sh c m =>
    replace hwf : (_ && _) = true := hwf
    simp only [Bool.and_eq_true, decide_eq_true_eq] at hwf
    obtain ⟨⟨⟨hbase, hd⟩, hsx⟩, hsh⟩ := hwf
    exact roundTrips_ext rfl rfl (ldg_decodes hbase hd hsx hsh ..)
  case stg h m sidx sh c b =>
    replace hwf : (_ && _) = true := hwf
    simp only [Bool.and_eq_true, decide_eq_true_eq] at hwf
    obtain ⟨⟨⟨hla, hbase⟩, hb⟩, hsh⟩ := hwf
    exact roundTrips_ext rfl rfl (stg_decodes hla hbase hb hsh ..)
  case ldsl h d sx sz slab a off =>
    obtain ⟨hd, hsx⟩ := Bool.and_eq_true_iff.1 hwf
    exact roundTrips_ext rfl rfl (ldsl_decodes hd hsx ..)
  case stsl h sz slab a off b =>
    obtain ⟨hla, hb⟩ := Bool.and_eq_true_iff.1 hwf
    exact roundTrips_ext rfl rfl (stsl_decodes hla hb ..)
  case atom h op d m b c =>
    replace hwf : (_ && _) = true := hwf
    simp only [Bool.and_eq_true, Bool.not_and, beq_iff_eq] at hwf
    obtain ⟨⟨⟨⟨⟨⟨⟨hbase, hx⟩, hsz⟩, hfadd⟩, hd⟩, hb⟩, hub⟩, hc⟩ := hwf
    exact roundTrips_ext rfl rfl (atom_decodes hbase hx hsz hfadd hd hb hub hc)
  case ldl h d m =>
    replace hwf : (_ && _) = true := hwf
    simp only [Bool.and_eq_true] at hwf
    obtain ⟨⟨⟨hbase, hx⟩, hsz⟩, hd⟩ := hwf
    exact roundTrips_ext rfl rfl (ldl_decodes hbase hx hsz hd)
  case stc h d m b =>
    replace hwf : (_ && _) = true := hwf
    simp only [Bool.and_eq_true] at hwf
    obtain ⟨⟨⟨⟨hla, hbase⟩, hx⟩, hsz⟩, hb⟩ := hwf
    exact roundTrips_ext rfl rfl (stc_decodes hla hbase hx hsz hb ..)
  case fence h dir scope i0 rest =>
    replace hwf : (_ && _) = true := hwf
    simp only [Bool.and_eq_true, decide_eq_true_eq] at hwf
    obtain ⟨hla, hlen⟩ := hwf
    exact fence_roundTrips hla dir scope i0 hlen
  case ftag h c it =>
    obtain ⟨hla, hc⟩ := Bool.and_eq_true_iff.1 hwf
    exact ftag_roundTrips hla hc it
  case funtag h c =>
    obtain ⟨hla, hc⟩ := Bool.and_eq_true_iff.1 hwf
    exact roundTrips_base rfl rfl rfl (funtag_decodes hla hc)
  case cflush h base off n =>
    obtain ⟨hla, hbase⟩ := Bool.and_eq_true_iff.1 hwf
    exact roundTrips_ext rfl rfl (cflush_decodes hla hbase ..)
  case cinv h base off n =>
    obtain ⟨hla, hbase⟩ := Bool.and_eq_true_iff.1 hwf
    exact roundTrips_ext rfl rfl (cinv_decodes hla hbase ..)
  case enter h n =>
    replace hwf : (_ && _) = true := hwf
    simp only [Bool.and_eq_true, decide_eq_true_eq] at hwf
    obtain ⟨⟨⟨hla, hal⟩, hlo⟩, hhi⟩ := hwf
    exact roundTrips_ext rfl rfl (enter_decodes hla hal hlo hhi)
  case leave h n =>
    replace hwf : (_ && _) = true := hwf
    simp only [Bool.and_eq_true, decide_eq_true_eq] at hwf
    obtain ⟨⟨⟨hla, hal⟩, hlo⟩, hhi⟩ := hwf
    exact roundTrips_ext rfl rfl (leave_decodes hla hal hlo hhi)
  case hbind h slab a loc fmt span size =>
    replace hwf : (_ && _) = true := hwf
    simp only [Bool.and_eq_true, decide_eq_true_eq] at hwf
    obtain ⟨⟨⟨⟨hla, hfmt⟩, hlo⟩, hhi⟩, hspan⟩ := hwf
    exact roundTrips_ext rfl rfl (hbind_decodes hla hfmt hlo hhi hspan ..)
  case slabq h d slab =>
    obtain ⟨hla, hd⟩ := Bool.and_eq_true_iff.1 hwf
    exact roundTrips_base rfl rfl rfl (slabq_decodes hla hd ..)
  case spawn h live a b t =>
    replace hwf : (_ && _) = true := hwf
    simp only [Bool.and_eq_true] at hwf
    obtain ⟨⟨hla, ha⟩, hb⟩ := hwf
    exact roundTrips_ext rfl rfl (spawn_decodes hla ha hb ..)
  case shfl h op wc d a s =>
    replace hwf : (_ && _) = true := hwf
    simp only [Bool.and_eq_true, decide_eq_true_eq] at hwf
    obtain ⟨hla, hwc⟩ := hwf
    exact roundTrips_base rfl rfl rfl (shfl_decodes hla hwc ..)
  case grow h n =>
    replace hwf : (_ && _) = true := hwf
    simp only [Bool.and_eq_true, decide_eq_true_eq] at hwf
    obtain ⟨⟨⟨hla, hal⟩, hlo⟩, hhi⟩ := hwf
    exact roundTrips_base rfl rfl rfl (grow_decodes hla hal hlo hhi)
  case shrink h n =>
    replace hwf : (_ && _) = true := hwf
    simp only [Bool.and_eq_true, decide_eq_true_eq] at hwf
    obtain ⟨⟨⟨hla, hal⟩, hlo⟩, hhi⟩ := hwf
    exact roundTrips_base rfl rfl rfl (shrink_decodes hla hal hlo hhi)
  case rngk h d a =>
    obtain ⟨hla, ha⟩ := Bool.and_eq_true_iff.1 hwf
    exact roundTrips_base rfl rfl rfl (rngk_decodes hla ha ..)
  case movs h d sel =>
    obtain ⟨hla, hd⟩ := Bool.and_eq_true_iff.1 hwf
    exact movs_roundTrips hla hd
  case condw h add cw a =>
    obtain ⟨hla, ha⟩ := Bool.and_eq_true_iff.1 hwf
    exact roundTrips_base rfl rfl rfl (condw_decodes hla ha ..)
  case sqry h d s =>
    obtain ⟨hla, hd⟩ := Bool.and_eq_true_iff.1 hwf
    exact roundTrips_base rfl rfl rfl (sqry_decodes hla hd ..)
  case claim h r =>
    obtain ⟨hla, hr⟩ := Bool.and_eq_true_iff.1 hwf
    exact claim_roundTrips hla hr
  case release h r =>
    obtain ⟨hla, hr⟩ := Bool.and_eq_true_iff.1 hwf
    exact release_roundTrips hla hr
  case ofill h span d b a =>
    obtain ⟨hla, ha⟩ := Bool.and_eq_true_iff.1 hwf
    exact roundTrips_base rfl rfl rfl (ofill_decodes hla ha ..)
  case accz h a n =>
    replace hwf : (_ && _) = true := hwf
    simp only [Bool.and_eq_true, decide_eq_true_eq] at hwf
    obtain ⟨hla, hn⟩ := hwf
    exact roundTrips_base rfl rfl rfl (accz_decodes hla hn)
  case accrd h p hf d a =>
    replace hwf : (_ && _) = true := hwf
    simp only [Bool.and_eq_true, decide_eq_true_eq] at hwf
    obtain ⟨hp, hd⟩ := hwf
    exact roundTrips_base rfl rfl rfl (accrd_decodes hp hd ..)
  case accwr h af p hf d a =>
    replace hwf : (_ && _) = true := hwf
    simp only [Bool.and_eq_true, decide_eq_true_eq] at hwf
    obtain ⟨⟨hla, hp⟩, ha⟩ := hwf
    exact roundTrips_base rfl rfl rfl (accwr_decodes hla hp ha ..)
  case trap h code =>
    obtain ⟨hla, hc⟩ := Bool.and_eq_true_iff.1 hwf
    exact roundTrips_base rfl rfl rfl (trap_decodes hla (of_decide_eq_true hc))
  case mfsr h d sr =>
    replace hwf : (_ && _) = true := hwf
    simp only [Bool.and_eq_true] at hwf
    obtain ⟨⟨hla, hd⟩, hsr⟩ := hwf
    exact roundTrips_ext rfl rfl (mfsr_decodes hla hd hsr)
  case mtsr h sr a =>
    replace hwf : (_ && _) = true := hwf
    simp only [Bool.and_eq_true] at hwf
    obtain ⟨⟨hla, ha⟩, hsr⟩ := hwf
    exact roundTrips_ext rfl rfl (mtsr_decodes hla ha hsr)
  case faultq h d a =>
    obtain ⟨hla, hd⟩ := Bool.and_eq_true_iff.1 hwf
    exact roundTrips_base rfl rfl rfl (faultq_decodes hla hd ..)
  case acct h d a =>
    obtain ⟨hla, hd⟩ := Bool.and_eq_true_iff.1 hwf
    exact roundTrips_base rfl rfl rfl (acct_decodes hla hd ..)
  case lrec h d a =>
    obtain ⟨hla, hd⟩ := Bool.and_eq_true_iff.1 hwf
    exact roundTrips_base rfl rfl rfl (lrec_decodes hla hd ..)
  case send h sz r a =>
    replace hwf : (_ && _) = true := hwf
    simp only [Bool.and_eq_true] at hwf
    obtain ⟨⟨hla, hsz⟩, ha⟩ := hwf
    exact roundTrips_ext rfl rfl (send_decodes hla hsz ha ..)
  case sendTo h sz b dr a =>
    replace hwf : (_ && _) = true := hwf
    simp only [Bool.and_eq_true] at hwf
    obtain ⟨⟨hla, hsz⟩, ha⟩ := hwf
    exact roundTrips_ext rfl rfl (sendTo_decodes hla hsz ha ..)
  case recv h sz d r m =>
    replace hwf : (_ && _) = true := hwf
    simp only [Bool.and_eq_true] at hwf
    obtain ⟨hsz, hd⟩ := hwf
    exact recv_roundTrips hsz hd r m
  case rld h d sx base off sz =>
    replace hwf : (_ && _) = true := hwf
    simp only [Bool.and_eq_true] at hwf
    obtain ⟨⟨hbase, hd⟩, hsx⟩ := hwf
    exact roundTrips_ext rfl rfl (rld_decodes hbase hd hsx ..)
  case rst h base off sz b =>
    replace hwf : (_ && _) = true := hwf
    simp only [Bool.and_eq_true] at hwf
    obtain ⟨⟨hla, hbase⟩, hb⟩ := hwf
    exact roundTrips_ext rfl rfl (rst_decodes hla hbase hb ..)
  case ratom h op d base off sz b c =>
    replace hwf : (_ && _) = true := hwf
    simp only [Bool.and_eq_true, Bool.not_and, beq_iff_eq] at hwf
    obtain ⟨⟨⟨⟨⟨⟨hbase, hsz⟩, hfadd⟩, hd⟩, hb⟩, hub⟩, hc⟩ := hwf
    exact roundTrips_ext rfl rfl (ratom_decodes hbase hsz hfadd hd hb hub hc off)
  case hatom h op fb d base off sz b c =>
    replace hwf : (_ && _) = true := hwf
    simp only [Bool.and_eq_true, beq_iff_eq] at hwf
    obtain ⟨⟨⟨⟨⟨hbase, hsz⟩, hd⟩, hb⟩, hub⟩, hc⟩ := hwf
    exact roundTrips_ext rfl rfl (hatom_decodes hbase hsz hd hb hub hc fb off)
  all_goals exact roundTrips_none rfl

/-- Settles O53: the word of an instruction is unpacked into the fields it was packed from, whatever follows it, and the
decoder of its opcode gives the operands back from those. -/
theorem decodeEncodeAgree : Obligations.DecodeEncodeAgree := by
  intro i bs after hwf hbytes
  obtain ⟨f, hf, rfl⟩ := Option.map_eq_some_iff.1 hbytes
  obtain ⟨hdec, hfit⟩ := roundTrips_of_wf hwf f hf
  rw [decode_pack_append hfit hdec, leBytes_length]

end Sys2Proof

/-! PROOFS. Every step answers a next state and keeps the nonvolatile memory (O54, O56). -/

namespace Sys2Proof

open Machine

/-! ## Instructions issue, events happen -/

/-- A constructor that stands for an instruction of a group: it has a word and its meaning is an issue. -/
def IsInstruction (i : Instr) : Prop := (encode i).isSome = true ∧ ∀ s, ∃ h f body, exec i s = issue h f s body

/-- A constructor that stands for an event: it has no word, happens in every state and keeps the nonvolatile memory. -/
def IsOccurrence (i : Instr) : Prop := encode i = none ∧ ∀ s, ∃ t, exec i s = .next t ∧ nvKeeps s.nv t.nv

theorem nvKeeps_refl (n : Nv) : nvKeeps n n := ⟨rfl, List.prefix_refl _, Nat.le_max_left _ _, BitVec.le_refl _⟩

/-- The log takes one more entry while it has room. -/
theorem nvKeeps_log {n : Nv} (e : W64) (hroom : n.log.length < 16384) : nvKeeps n { n with log := n.log ++ [e] } :=
  ⟨rfl, List.prefix_append _ _, by simp; omega, BitVec.le_refl _⟩

theorem nvKeeps_minSvn {n : Nv} {x : BitVec 8} (img : Option (BitVec 8)) (hx : n.minSvn ≤ x) :
    nvKeeps n { n with image := img, minSvn := x } :=
  ⟨rfl, List.prefix_refl _, Nat.le_max_left _ _, hx⟩

theorem logExclusion_keeps (s : State) (e : W64) : nvKeeps s.nv (s.logExclusion e).nv := by
  unfold State.logExclusion
  split_ifs with _ _ hfull
  · exact nvKeeps_refl _
  · exact nvKeeps_refl _
  · exact nvKeeps_refl _
  · exact nvKeeps_log e (Nat.lt_of_not_le hfull)

theorem loadFirmware_keeps (s : State) (p : Nat) (v : W64) : nvKeeps s.nv (s.loadFirmware p v).nv := by
  unfold State.loadFirmware
  extract_lets _ q
  have hq : q.nv = s.nv := by unfold q; split_ifs <;> rfl
  rw [← hq]
  split
  · exact nvKeeps_refl _
  · split
    · exact nvKeeps_refl _
    · next x hx =>
      dsimp only; split_ifs
      · exact nvKeeps_minSvn _ (by simpa using (Option.filter_eq_some_iff.1 hx).2)
      · exact nvKeeps_refl _

theorem instruction_or_occurrence (i : Instr) : IsInstruction i ∨ IsOccurrence i := by
  cases i
  case ftag h c it => exact .inl ⟨by cases it <;> rfl, fun _ => ⟨_, _, _, rfl⟩⟩
  case vote h op => exact .inl ⟨by cases op <;> rfl, fun _ => by cases op <;> exact ⟨_, _, _, rfl⟩⟩
  case selmax h kt d a b pc => exact .inl ⟨by cases pc <;> rfl, fun _ => ⟨_, _, _, rfl⟩⟩
  case selmin h kt d a b pc => exact .inl ⟨by cases pc <;> rfl, fun _ => ⟨_, _, _, rfl⟩⟩
  case recv h sz d r m => exact .inl ⟨by cases m <;> rfl, fun _ => ⟨_, _, _, rfl⟩⟩
  case exclusionLogged e => exact .inr ⟨rfl, fun s => ⟨_, rfl, logExclusion_keeps s e⟩⟩
  case firmwareLoad p v => exact .inr ⟨rfl, fun s => ⟨_, rfl, loadFirmware_keeps s p v⟩⟩
  case moduleReset | thermalTrip => exact .inr ⟨rfl, fun _ => ⟨_, rfl, nvKeeps_refl _⟩⟩
  case nop64 | nop96 | nop128 | add | addi | sub | mul | mulh | mulhu | mulw | mad | div | divu | rem
      | remu | abs | neg | min | max | minu | maxu | addsat | subsat | and | or | xor | andn | orn | shl
      | shr | sar | rotl | funnel | clz | ctz | popc | brev | bfe | bfi | bytep | sext | zext | movVector
      | movPairFromUniform | movUniformFromPair | movUniform | moviVector | moviUniform | movqPair
      | movqUniform | sel | cmp | cmpi | plop | pmovToRegister | pmovFromRegister | add64 | sub64 | shl64
      | shr64 | cmp64 | lea | fadd | fsub | fmul | fma | fnma | fmin | fmax | fsgn | fcmp | fclass | frnd
      | frcp | frsq | fsqrt | fdiv | fexp2 | flog2 | cvt | hadd2 | hmul2 | hfma2 | hmin2 | hmax2 | fdot2
      | dot4 | br | brx | call | callx | ret | exit | ld | st | pref | ldg | stg | ldsl | stsl | ldt
      | stt | atom | ldl | stc | fence | fenceAll | funtag | cflush | cinv | enter | leave | topen
      | topenNew | tclose | hbind | hbindRel | slabq | spawn | meet | shfl | lreduce | lscan | lscanRank
      | barT | barC | arrive | await | grow | shrink | rng | rngk | movs | chainLink | chainAdv | condw
      | sacq | stry | sqry | claim | release | ofill | mma | mmat | accz | accrd | accrdSt | accwr
      | accwrSt | treeadd | accfin | trap | rfe | region | yield | bkpt | mfsr | mtsr | faultq | acct
      | lrec | send | sendTo | rld | rst | ratom | hatom | genqIdx | genqFix =>
    exact .inl ⟨rfl, fun _ => ⟨_, _, _, rfl⟩⟩
  case fenceEnd | growGrant | pilotRequestService | semaphoreRequestMet | claimReleaseFree | anvilAccept
      | anvilPassComplete | accrdWriteback | meetingArrival | binTimerExpiry | groupFormation
      | landingOverflowMove | landingAdmission | submission | wqctlWrite | launchStart | clusterPlacement
      | launchComplete | gridStall | ticketRelease | homeRead | homeWrite | homeAtomic
      | longLatencyComplete | storeAck | writeCompletionExpiry | leaseExpiry | hotExpiry | nodeReached
      | inputCopyStart | nodeDispatch | kernelNodeFinish | condNode | whileNode | joinNode | signalNode
      | inputCopyComplete | outputCopyComplete | slipwayHandoff | slipwayRetryExpiry | slipwayComplete
      | fetchComplete | walkComplete | faultSettle | trapRecordWrite | launchFatalEnd | sliceEnd
      | firstSwitch | stopOrder | tileQuiet | swapOrder | tileSwap | spillResource | shadowPreload
      | debugStop | debugStep | stepEnd | stepIdleTimeout | debugDump | dumpComplete | debugLcen
      | tqbaseWrite | tqheadWrite | resolveWrite | routeWrite | modidWrite | peerWrite
      | translationInvalidation | invalidationComplete | registerWrite | cut | dissolve | bindWorld
      | unbindWorld | grant | reclaim | quantum | reshapeGrow | reshapeShrink | reshapeCompact
      | reshapeMigrate | evict | freeze | power | inrushTokenGrant | inrushTokenReturn
      | fieldTransitionComplete | powerAlert | snapshot | restore | snapshotComplete | treeNodeRepair
      | packetArrival | linkStop | linkGo | messageArrival | hostCompletion | atomicPointService
      | remoteRequest | remoteResponse | remoteTimeout | wharfLinkDown | wharfLinkUp | lockInterface
      | startInterface | stopInterface | getTdispVersion | getTdispCapabilities
      | getDeviceInterfaceReport | getDeviceInterfaceState | getVersion | getCapabilities
      | negotiateAlgorithms | getDigests | getCertificate | challenge | getMeasurements | keyExchange
      | finish | heartbeat | keyUpdate | endSession | vendorDefinedKeyInstall | ideKm
      | ideIntegrityFailure | heartbeatLost | cycleCharge | stackCacheWriteback | hostCompletionTimeout
      | commandSubmission | tileStateError | quenchComplete | tableChangeComplete =>
    exact .inr ⟨rfl, fun _ => ⟨_, rfl, nvKeeps_refl _⟩⟩

theorem issue_keeps {h : Hdr} {f : Form} {s t : State} {body : Ctx → M → Res} (hi : issue h f s body = .next t) :
    t.nv = s.nv := by
  unfold issue at hi
  split at hi
  · simp at hi
  · simp only [Host.Outcome.next.injEq] at hi; rw [← hi]

theorem exec_keeps {i : Instr} {s t : State} (hi : exec i s = .next t) : nvKeeps s.nv t.nv := by
  rcases instruction_or_occurrence i with ⟨-, h⟩ | ⟨-, h⟩
  · obtain ⟨h, f, body, he⟩ := h s
    rw [he] at hi; rw [issue_keeps hi]; exact nvKeeps_refl _
  · obtain ⟨t', ht, hk⟩ := h s
    obtain rfl : t' = t := by simpa using ht.symm.trans hi
    exact hk

theorem nvFits_of_keeps {a b : Nv} (hk : nvKeeps a b) (ha : nvFits a) : nvFits b := by
  unfold nvFits at *; have := hk.2.2.1; omega

/-- Settles O54: only an exclusion writes the log and only a firmware load the minimum version; every other constructor is
the issue of an instruction or an event of the machine. -/
theorem logKept : Obligations.LogKept := by
  intro s t hst
  have hk : nvKeeps s.nv t.nv := by
    unfold step at hst
    split at hst
    · next i m _ => exact exec_keeps (s := { s with m := m }) hst
    · simp only [Host.Outcome.next.injEq] at hst; rw [← hst]; exact nvKeeps_refl _
  exact ⟨hk, nvFits_of_keeps hk⟩

/-! ## Every step goes on -/

theorem occurrence_of_wordless {i : Instr} (hn : encode i = none) : IsOccurrence i := by
  rcases instruction_or_occurrence i with ⟨h, -⟩ | h
  · rw [hn] at h; exact absurd h (by decide)
  · exact h

/-- A move that goes on: an event, or anything with a group that has its turn. -/
def Machine.Move.Runs : Move → Prop
  | .run i m => encode i = none ∨ m.curG.isSome = true
  | .quiet _ => True

theorem issue_goes (h : Hdr) (f : Form) {s : State} (body : Ctx → M → Res) (hc : s.m.curG.isSome = true) :
    Goes (issue h f s body) := by
  unfold issue
  split
  · next hn => rw [hn] at hc; simp at hc
  · exact ⟨_, rfl⟩

theorem exec_goes {i : Instr} {s : State} (hr : (Move.run i s.m).Runs) : Goes (exec i s) := by
  rcases instruction_or_occurrence i with ⟨hw, h⟩ | ⟨-, h⟩
  · rcases hr with hn | hc
    · rw [hn] at hw; exact absurd hw (by decide)
    · obtain ⟨h, f, body, he⟩ := h s
      rw [he]; exact issue_goes h f body hc
  · obtain ⟨t, ht, -⟩ := h s
    exact ⟨t, ht⟩

/-- Every move of an option goes on. -/
def AllRun (o : Option Move) : Prop := ∀ mv ∈ o, mv.Runs

theorem allRun_orElse {a b : Option Move} (ha : AllRun a) (hb : AllRun b) : AllRun (a <|> b) := by
  cases a with
  | none => simpa using hb
  | some x => simpa using ha

theorem allRun_findSome {α : Type} (l : List α) {f : α → Option Move} (hf : ∀ a, AllRun (f a)) : AllRun (l.findSome? f) := by
  intro mv hmv
  obtain ⟨a, -, ha⟩ := List.exists_of_findSome?_eq_some hmv
  exact hf a mv ha

theorem allRun_bind {α : Type} (o : Option α) {f : α → Option Move} (hf : ∀ a, AllRun (f a)) : AllRun (o.bind f) := by
  cases o with
  | none => intro mv hmv; simp at hmv
  | some a => exact hf a

theorem allRun_none : AllRun none := by intro mv hmv; simp at hmv

theorem allRun_try (m : M) (r : Option M) {i : Instr} (hi : encode i = none) : AllRun (m.try r i) := by
  unfold M.try
  split_ifs
  · intro mv hmv; obtain rfl : Move.run i m = mv := by simpa using hmv
    exact .inl hi
  · exact allRun_none

theorem allRun_now (r : Option M) : AllRun (now r) := by
  intro mv hmv
  obtain ⟨m, -, rfl⟩ := Option.map_eq_some_iff.1 hmv
  trivial

/-! A chain of events that are due: each is tried with a constructor that has no word, or is applied at once. -/

theorem dueHome_runs (m : M) : AllRun m.dueHome := by
  unfold M.dueHome
  refine allRun_orElse (allRun_findSome _ fun a => ?_) (allRun_findSome _ fun k => allRun_try _ _ rfl)
  apply_rules [allRun_orElse, allRun_try]

theorem dueGroup_runs (m : M) (w t slot : Nat) (g : Group) : AllRun (m.dueGroup w t slot g) := by
  unfold M.dueGroup
  extract_lets fetch fetched
  have hfetch : ∀ va, AllRun (fetch va) := by
    intro va; unfold fetch; split_ifs
    · exact allRun_try _ _ rfl
    · exact allRun_none
  have hfetched : AllRun fetched := by
    unfold fetched; split
    · exact hfetch _
    · split_ifs
      · exact hfetch _
      · exact allRun_none
  have hsettle : AllRun (if (m.tile t).out = some w then now (m.settles t slot) else none) := by
    split_ifs
    · exact allRun_now _
    · exact allRun_none
  have hops : AllRun (g.ops.findSome? fun (p : Pend) => m.try (m.opCompletes t slot p.id) (.longLatencyComplete t slot p.id)
      <|> m.try (m.accrdDone t slot p.id) (.accrdWriteback t slot p.id)) :=
    allRun_findSome _ fun p => allRun_orElse (allRun_try _ _ rfl) (allRun_try _ _ rfl)
  apply_rules [allRun_orElse, allRun_try]

theorem dueGroups_runs (m : M) : AllRun m.dueGroups :=
  allRun_findSome _ fun _ => allRun_findSome _ fun _ => dueGroup_runs _ _ _ _ _

theorem dueUnits_runs (m : M) (t : Nat) : AllRun (m.dueUnits t) := by
  unfold M.dueUnits
  apply_rules [allRun_orElse, allRun_findSome, allRun_try, allRun_now] <;> exact fun _ => allRun_try _ _ rfl

theorem dueChains_runs (m : M) (t : Nat) : AllRun (m.dueChains t) := by
  refine allRun_findSome _ fun ch => ?_
  have hin : AllRun ([0, 1, 2, 3].findSome? fun (i : Nat) => m.try (m.inputStart t ch i) (.inputCopyStart t ch i)) :=
    allRun_findSome _ fun i => allRun_try _ _ rfl
  apply_rules [allRun_orElse, allRun_try]

theorem dueCopies_runs (m : M) : AllRun m.dueCopies := by
  refine allRun_orElse (allRun_findSome _ fun k => ?_) (allRun_findSome _ fun f => allRun_try _ _ rfl)
  apply_rules [allRun_orElse, allRun_try]

theorem dueWorld_runs (m : M) (w : Nat) : AllRun (m.dueWorld w) := by
  unfold M.dueWorld; apply_rules [allRun_orElse, allRun_try]

theorem dueLaunch_runs (m : M) : AllRun m.dueLaunch := by
  refine allRun_orElse (allRun_findSome _ fun l => ?_) (allRun_findSome _ fun q => allRun_try _ _ rfl)
  apply_rules [allRun_orElse, allRun_try]

theorem dueStack_runs (m : M) (t : Nat) : AllRun (m.dueStack t) :=
  allRun_bind _ fun _ => allRun_findSome _ fun _ => allRun_now _

theorem dueTile_runs (m : M) (t : Nat) : AllRun (m.dueTile t) := by
  unfold M.dueTile; apply_rules [allRun_orElse, dueStack_runs, allRun_try, allRun_now]

theorem duePart_runs (m : M) (p : Nat) : AllRun (m.duePart p) := by
  unfold M.duePart; apply_rules [allRun_orElse, allRun_try]

theorem dueCmd_runs (m : M) (i : Nat) : AllRun (m.dueCmd i) := by
  unfold M.dueCmd; apply_rules [allRun_orElse, allRun_try]

theorem dueHearth_runs (m : M) : AllRun m.dueHearth := by
  refine allRun_orElse (allRun_findSome _ fun i => dueCmd_runs m i) (allRun_orElse (allRun_findSome _ fun e => allRun_try _ _ rfl)
    (allRun_findSome _ fun f => ?_))
  apply_rules [allRun_orElse, allRun_try]

theorem dueRepair_runs (m : M) : AllRun m.dueRepair := allRun_findSome _ fun _ => allRun_now _

theorem dueWaits_runs (m : M) : AllRun m.dueWaits := allRun_findSome _ fun _ => allRun_try _ _ rfl

theorem due_runs (m : M) : AllRun m.due :=
  allRun_orElse (dueHome_runs m) <| allRun_orElse (dueGroups_runs m) <| allRun_orElse (allRun_findSome _ (dueUnits_runs m)) <|
  allRun_orElse (allRun_findSome _ (dueChains_runs m)) <| allRun_orElse (dueCopies_runs m) <|
  allRun_orElse (allRun_findSome _ (dueWorld_runs m)) <| allRun_orElse (dueLaunch_runs m) <|
  allRun_orElse (allRun_findSome _ (dueTile_runs m)) <| allRun_orElse (allRun_findSome _ (duePart_runs m)) <|
  allRun_orElse (dueHearth_runs m) <| allRun_orElse (dueRepair_runs m) (dueWaits_runs m)

/-! The turn of a group: whatever the decoder finds, the group is there to issue it. -/

theorem fetch_runs {m : M} (t w slot : Nat) (g : Group) (fresh : Bool) (hc : m.curG.isSome = true) :
    (m.fetch t w slot g fresh).Runs := by
  unfold M.fetch
  extract_lets full c pc
  split
  · trivial
  · split
    · split <;> trivial
    · split
      · trivial
      · split
        · split
          · trivial
          · split
            · split
              · trivial
              · exact .inr hc
            · exact .inr hc
        · trivial
        · trivial

/-- A marked group is the current one. -/
theorem mark_curG {m : M} {t w slot : Nat} {g : Group} (hl : (m.tile t).latch = some w)
    (hg : look (m.wt w t).groups slot = some g) : (m.mark t slot).curG.isSome = true := by
  have htile : ((m.mark t slot).tile t).latch = some w := by
    show ((m.setTile t { m.tile t with tried := slot :: (m.tile t).tried }).tile t).latch = some w
    rw [M.tile_setTile_self]; exact hl
  have hgroup : look ((m.mark t slot).wt w t).groups slot = some g := hg
  unfold M.curG
  rw [show (m.mark t slot).cur = some (t, slot) from rfl]
  simp only [htile, hgroup, Option.map_some, Option.isSome_some]

theorem takeLater_latch (m : M) (t at' : Nat) : ((m.takeLater t at').tile t).latch = (m.tile t).latch := by
  unfold M.takeLater; simp

theorem takeLater_wt (m : M) (t at' w k : Nat) : (m.takeLater t at').wt w k = m.wt w k := rfl

theorem groupTurn_runs (m : M) (t at' : Nat) : (m.groupTurn t at').Runs := by
  unfold M.groupTurn
  extract_lets slot
  split
  · trivial
  · next w hl =>
    split
    · trivial
    · next g hg =>
      split_ifs
      · exact fetch_runs _ _ _ _ _ (mark_curG ((takeLater_latch m t at').trans hl) hg)
      · exact fetch_runs _ _ _ _ _ (mark_curG hl hg)

theorem goOn_runs (m : M) : m.goOn.Runs := by
  unfold M.goOn
  split
  · exact groupTurn_runs _ _ _
  · split
    · next mv hmv => exact due_runs m mv hmv
    · split
      · exact .inl rfl
      · trivial

theorem hostTurn_runs (m : M) (p a : Nat) (bs : List Byte) (rest : List Turn) : (m.hostTurn p a bs rest).Runs := by
  unfold M.hostTurn
  extract_lets host
  split
  · trivial
  · split
    · exact goOn_runs m
    · trivial

theorem encode_none_of_isEvent {i : Instr} (hi : isEvent i = true) : encode i = none := by
  have := (Bool.and_eq_true_iff.1 hi).2
  simpa using this

theorem move_runs (m : M) : m.move.Runs := by
  unfold M.move
  split
  case h_1 i rest _ =>
    split_ifs with hi
    · exact .inl (encode_none_of_isEvent hi)
    · trivial
  case h_2 => exact goOn_runs _
  case h_4 => exact hostTurn_runs _ _ _ _ _
  case h_10 => exact goOn_runs _
  all_goals trivial

/-- Settles O56: a move is an event, which always happens, or the instruction of a group that has its turn. -/
theorem stepsGoOn : Obligations.StepsGoOn := by
  intro s
  have hr := move_runs s.m
  unfold step
  split
  · next i m hm => exact exec_goes (s := { s with m := m }) (hm ▸ hr)
  · exact ⟨_, rfl⟩

end Sys2Proof

/-! PROOFS. Instructions that write registers, begin long operations or transfer control (O2 to O7). -/

namespace Sys2Proof

open Machine

/-! ## Logic, shifts and bit fields -/

/-- Settles O2: each instruction sets a register with the value that the law of its operation gives. -/
theorem logicCompletes : Obligations.LogicCompletes := by
  intro h d a b t fk pos len sg two un three
  refine ⟨?and, ?or, ?xor, ?andn, ?orn, ?shl, ?shr, ?sar, ?rotl, ?funnel, ?clz, ?ctz, ?popc, ?brev, ?bfe, ?bfi, ?bytep,
    ?sext, ?zext⟩
  case and | or | xor | andn | orn | popc | bfe | bfi | bytep => exact writes_of_onLanes fun _ => rfl
  case shl => exact writes_of_setReg (fun _ => shlV_eq ..) fun _ => rfl
  case shr => exact writes_of_setReg (fun _ => shrV_eq ..) fun _ => rfl
  case sar => exact writes_of_setReg (fun _ => sarV_eq ..) fun _ => rfl
  case rotl => exact writes_of_setReg (fun _ => rotlV_eq ..) fun _ => rfl
  case funnel => exact writes_of_setReg (fun _ => funnelV_eq ..) fun _ => rfl
  case clz => exact writes_of_setReg (fun _ => clzV_eq ..) fun _ => rfl
  case ctz => exact writes_of_setReg (fun _ => ctzV_eq ..) fun _ => rfl
  case brev => exact writes_of_setReg (fun _ => brevV_eq ..) fun _ => rfl
  case sext => exact writes_of_setReg (fun _ => sextV_eq ..) fun _ => rfl
  case zext => exact writes_of_setReg (fun _ => zextV_eq ..) fun _ => rfl

/-! ## Uniform and 64-bit destinations -/

/-- An instruction that changes the threads of its executing lanes, with what the group held. -/
theorem writes_of_lanesOf {i : Instr} {h : Hdr} {f : Form} {v : Group → Thread → Thread}
    (he : ∀ s, exec i s = issue h f s fun c m => .done (m.onLanes c fun _ => v c.g)) :
    Writes i h f fun c => onEx c (v c.g) :=
  writes_of _ he fun _ _ _ => rfl

/-- An instruction that writes a uniform register with the value of its lowest lane. -/
theorem writes_of_setUni {i : Instr} {h : Hdr} {f : Form} {k : Nat} {v : Ctx → Thread → W64}
    (he : ∀ s, exec i s = issue h f s fun c m => .done (m.setUni c k (v c))) :
    Writes i h f fun c => uniEx c k (v c) :=
  writes_of _ he fun _ _ hex => congrArg Res.done (setUni_eq hex _ _ _)

/-- An instruction that writes a 64-bit operand with any value that the model's operation equals. -/
theorem writes_of_setOpd {i : Instr} {h : Hdr} {f : Form} {d : Opd64} {v val : Ctx → Thread → W64}
    (hval : ∀ c th, v c th = val c th) (he : ∀ s, exec i s = issue h f s fun c m => .done (m.setOpd c d (v c))) :
    Writes i h f fun c => opdEx c d (val c) := by
  obtain rfl : v = val := funext fun c => funext (hval c)
  exact writes_of _ he fun _ _ hex => congrArg Res.done (setOpd_eq hex _ _ _)

/-- Settles O4: each instruction writes its 64-bit operand with the value that the law of its operation gives. -/
theorem wideCompletes : Obligations.WideCompletes := by
  intro h d a b t ar uf w cd p sh imm two
  refine ⟨?add, ?sub, ?shl, ?shr, ?cmp, ?lea⟩
  case add | sub | lea => exact writes_of_setOpd (fun _ _ => rfl) fun _ => rfl
  case shl => exact writes_of_setOpd (fun _ _ => shl64V_eq ..) fun _ => rfl
  case shr => exact writes_of_setOpd (fun _ _ => shr64V_eq ..) fun _ => rfl
  case cmp => exact writes_of_lanesOf (v := fun g th => th.setP p (condV cd (opdV g th a) (src64V g th t))) fun _ => rfl

/-! ## Moves, selects, compares and predicates -/

theorem nop_writes {i : Instr} (len : Nat) (he : ∀ s, exec i s = nop len s) :
    Writes i always { len := len, counted := false, once := true } fun _ g => g :=
  writes_of_none _ he fun _ _ _ => rfl

theorem plop_writes (h : Hdr) (p pa pb : BitVec 3) (tt : BitVec 4) :
    Writes (.plop h p pa pb tt) h (srcForm 8 []) fun c => onEx c fun th =>
      th.setP p (tt.getLsbD (2 * (th.pr pa).toNat + (th.pr pb).toNat)) := by
  simp only [← plopV_eq]
  exact writes_of_onLanes fun _ => rfl

/-- Settles O3: NOP leaves the group, and each of the others sets one register or predicate. -/
theorem movesCompletes : Obligations.MovesCompletes := by
  intro h d a kd ka p pa pb t imm w cd tt
  refine ⟨nop_writes 8 fun _ => rfl, nop_writes 12 fun _ => rfl, nop_writes 16 fun _ => rfl, ?mov, ?movPair, ?movUniPair, ?movUni,
    ?movi, ?moviUni, ?movq, ?movqUni, ?sel, ?cmp, ?cmpi, plop_writes h p pa pb tt, ?pmovTo, ?pmovFrom⟩
  case mov | movi | movq | sel | cmp | cmpi | pmovTo | pmovFrom => exact writes_of_onLanes fun _ => rfl
  case movPair => exact writes_of_lanesOf (v := fun g th => th.setPair d.toNat (g.kr ka.toNat)) fun _ => rfl
  case movUniPair | movUni | moviUni | movqUni => exact writes_of_setUni fun _ => rfl

/-! ## Floating point -/

/-- Settles O5: each instruction sets a register or a predicate with the value of its operation. -/
theorem floatCompletes : Obligations.FloatCompletes := by
  intro h f fm d a b e op cd p rm sat merge ua ub st dt se de x two three un
  refine ⟨?_, ?_, ?_, ?_, ?_, ?_, ?_, ?_, ?_, ?_, ?_, ?_, ?_, ?_, ?_, ?_, ?_, ?_, ?_, ?_, ?_⟩ <;>
    exact writes_of_onLanes fun _ => rfl

/-- A long-latency instruction begins its operation, whose values wait for its end (R54, R55, R93). -/
theorem longOp_does {i : Instr} {h : Hdr} {d : BitVec 8} {srcs : List (Nat × Nat)} {v : Thread → W32}
    (he : ∀ s, exec i s = longOp h d srcs s v) :
    Does i h (regForm 8 d 1 srcs) (fun _ _ => True) fun c m =>
      ({ m with uid := m.uid + 1 } : M).beginLL c h
        { id := m.uid, pc := c.g.pc, len := 8, ll := true, late := false, nonIdem := false,
          dest := .vals d (c.ex.map fun (l, th) => (l, v th)), lanes := c.ex.map (·.1) } { vec := one d } :=
  does_of_done _ he fun _ _ _ _ => rfl

/-- Settles O6: each of the four begins its operation at issue. -/
theorem longFloatBegins : Obligations.LongFloatBegins := by
  intro h d a b rm begin x un
  refine ⟨?sqrt, ?exp2, ?log2, ?div⟩
  case sqrt => exact longOp_does (v := fun th => BitVec.ofNat 32 (fSqrt rm (x th a))) fun _ => rfl
  case exp2 => exact longOp_does (v := fun th => BitVec.ofNat 32 (fExp2 rm (x th a))) fun _ => rfl
  case log2 => exact longOp_does (v := fun th => BitVec.ofNat 32 (fLog2 rm (x th a))) fun _ => rfl
  case div => exact longOp_does (v := fun th => BitVec.ofNat 32 (fDiv rm (x th a) (x th b))) fun _ => rfl

open Machine

/-! ## Transfers of control -/

theorem badTarget_eq_nil (ls : List (Nat × Thread)) {target : W64} (h2 : target.extractLsb' 0 2 = 0#2)
    (h56 : target.extractLsb' 56 8 = 0#8) : badTarget ls target = [] :=
  (if_neg (not_not_intro h2)).trans (if_neg (not_not_intro h56))

/-- A transfer to a good target goes there after its effect. -/
theorem transfer_of_good {c : Ctx} {target : W64} (h2 : target.extractLsb' 0 2 = 0#2) (h56 : target.extractLsb' 56 8 = 0#8)
    (m : M) (eff : M → M) : transfer c m target eff = .jump (eff m) (target.extractLsb' 0 56) := by
  unfold transfer; rw [badTarget_eq_nil c.ex h2 h56]

theorem callTo_of_good {c : Ctx} {target : W64} (hsp : c.g.kr 63 &&& 15#64 = 0) (h2 : target.extractLsb' 0 2 = 0#2)
    (h56 : target.extractLsb' 56 8 = 0#8) (m : M) (len : Nat) :
    callTo c m len target = .jump
      (m.updGroup c.w c.t c.slot fun g => g.setK 62 ((nextPc c.g.pc len).setWidth 64)) (target.extractLsb' 0 56) :=
  (if_neg (not_not_intro hsp)).trans (transfer_of_good h2 h56 m _)

/-- A vote in which every active lane takes part, or whose two addresses are one, does not diverge (R120). -/
theorem not_divergent {g : Group} {ex : List (Nat × Thread)} {target : W64}
    (h : ex.length = g.lanes.length ∨ target = relTarget g.pc 12) : divergent g ex target = false := by
  unfold divergent
  rcases h with h | h
  · simp [h]
  · simp [h]

theorem brBody_of_together {c : Ctx} {imm : W32} (hd : divergent c.g c.ex (relTarget c.g.pc imm) = false)
    (h2 : (relTarget c.g.pc imm).extractLsb' 0 2 = 0#2) (h56 : (relTarget c.g.pc imm).extractLsb' 56 8 = 0#8) (m : M)
    (live : BitVec 8) : brBody live imm c m = .jump m ((relTarget c.g.pc imm).extractLsb' 0 56) := by
  unfold brBody; rw [badTarget_eq_nil c.ex h2 h56, hd]; rfl

theorem br_jumps (h : Hdr) (live : BitVec 8) (imm : W32) :
    Jumps (.br h live imm) h { len := 12 } (fun c => c.ex.length = c.g.lanes.length ∨ relTarget c.g.pc imm = relTarget c.g.pc 12)
      (fun c => relTarget c.g.pc imm) fun _ g => g := by
  refine jumps_of_none (brBody live imm) rfl (fun s c ⟨⟨hc, _⟩, _⟩ hp => ?_) fun c m _ hp h2 h56 =>
    brBody_of_together (not_divergent hp) h2 h56 m live
  rw [exec_br hc, not_divergent hp]; rfl

/-- Settles O7: with a good target, and for a BR no divergence, the body of each transfer is its jump. -/
theorem transfersComplete : Obligations.TransfersComplete := by
  intro h live imm a rel link
  refine ⟨br_jumps h live imm, ?brx, ?call, ?callx, ?ret⟩
  case brx => exact jumps_of_none _ rfl (fun _ _ _ _ => rfl) fun _ m _ _ h2 h56 => transfer_of_good h2 h56 m _
  case call => exact jumps_of _ rfl (fun _ _ _ _ => rfl) fun _ m _ hsp h2 h56 => callTo_of_good hsp h2 h56 m 12
  case callx => exact jumps_of _ rfl (fun _ _ _ _ => rfl) fun _ m _ hsp h2 h56 => callTo_of_good hsp h2 h56 m 8
  case ret => exact jumps_of_none _ rfl (fun _ _ _ _ => rfl) fun _ m _ _ h2 h56 => transfer_of_good h2 h56 m _

end Sys2Proof

/-! PROOFS. The turn of a group, the words of the manual and reset (O51, O52, O55), and the checks before an instruction's effect (O57). -/

namespace Sys2Proof

open Machine

/-! ## Tier 1 -/

/-- Settles O52: each word is read by the decoder's table. -/
theorem wordsDecode : Obligations.WordsDecode := by
  refine ⟨?_, ?_, ?_, ?_, ?_, ?_, ?_, ?_⟩ <;> decide

/-- Settles O55: the state of reset lists nothing, so that every entry reads as its default. -/
theorem resetState : Obligations.ResetState := by
  refine ⟨fun _ => rfl, rfl, fun _ => rfl, fun _ => ⟨rfl, rfl⟩, fun _ => rfl, rfl, rfl, rfl, rfl, rfl, ?log, ?reg, ?p7, ?pred⟩
  case log => exact Nat.zero_le _
  case reg => intro th r hx; unfold Thread.xr; rw [hx]; rfl
  case p7 => intro th; rfl
  case pred => intro th p hp hne; unfold Thread.pr; rw [hp]; simpa using hne

/-! ## The turn of a group -/

section

variable {m : M} {t w slot : Nat} {g : Group} {fresh : Bool} {b : FetchBlock}

/-- The group may issue and its block is there. -/
def BlockThere (m : M) (t w slot : Nat) (g : Group) (b : FetchBlock) : Prop :=
  m.mayIssue t w slot g = true ∧ g.asleep = false ∧ look (m.tile t).fetch (blockKey w g.pc.toNat) = some b

/-- The two issue slots of the set are used. -/
def setFull (m : M) (t slot : Nat) (fresh : Bool) : Bool := fresh && (m.tile t).setUsed (issueSet slot)

/-- The effect of the instruction may have to come after those of lower slots. -/
def mayKeepBack (m : M) (t w slot : Nat) (fresh : Bool) (i : Instr) : Bool :=
  fresh && (isTry i || (isOrdered i && m.lowerLeft w t slot))

/-- With its block there, a group's turn is what the block gives. -/
theorem fetch_of_block (hb : BlockThere m t w slot g b) :
    m.fetch t w slot g fresh =
      let c : Ctx := { t := t, w := w, slot := slot, g := g, ex := g.lanes }
      match b.fault with
      | some (code, detail) => .quiet (if setFull m t slot fresh then m else m.badFetch c false code g.pc.toNat detail
          (m.setTile t { m.tile t with fetch := del (m.tile t).fetch (blockKey w g.pc.toNat) }))
      | none =>
        match decode ((b.bytes g.team).drop (g.pc.toNat % 32)) with
        | .ok i _ =>
          if setFull m t slot fresh then .quiet (m.collect t w slot i)
          else if mayKeepBack m t w slot fresh i then
            match m.keepBack t w slot (if isTry i then slot + 192 else slot) i with
            | some m1 => .quiet m1
            | none => .run i m
          else .run i m
        | .illegal => .quiet (if setFull m t slot fresh then m else m.badFetch c false .illegalEncoding g.pc.toNat 0 m)
        | .boundary => .quiet (if setFull m t slot fresh then m else
            m.badFetch c (((b.bytes g.team).drop (g.pc.toNat % 32)).headD 0 == 0) .fetchBoundary g.pc.toNat 0 m) := by
  obtain ⟨hmay, hasl, hlook⟩ := hb
  unfold M.fetch
  simp only [hmay, hasl, hlook, Bool.not_true, Bool.or_self, Bool.false_eq_true, if_false]
  rfl

end

/-- The state in which a group that has its turn reads its instruction (R164). -/
def markedAt (m : M) (t turn' : Nat) : M :=
  if !(m.tile t).tried.contains (turn' % 192) then m.mark t (turn' % 192) else (m.takeLater t turn').mark t (turn' % 192)

theorem groupTurn_of_group {m : M} {t w turn' : Nat} {g : Group} (hl : (m.tile t).latch = some w)
    (hg : look (m.wt w t).groups (turn' % 192) = some g) :
    m.groupTurn t turn' = (markedAt m t turn').fetch t w (turn' % 192) g (!(m.tile t).tried.contains (turn' % 192)) := by
  unfold M.groupTurn markedAt
  simp only [hl, hg]
  cases (m.tile t).tried.contains (turn' % 192) <;> rfl

/-- The agenda lets the machine go on by itself, and a group has the turn. -/
theorem move_of_pick {m : M} {rest : List Turn} {t turn' : Nat} (ha : m.agenda = .go :: rest ∨ (m.agenda = [] ∧ rest = []))
    (hp : ({ m with agenda := rest } : M).pick = some (t, turn')) :
    m.move = ({ m with agenda := rest } : M).groupTurn t turn' := by
  have hgo : ({ m with agenda := rest } : M).goOn = ({ m with agenda := rest } : M).groupTurn t turn' := by
    unfold M.goOn; rw [hp]
  rcases ha with ha | ⟨ha, rfl⟩
  · unfold M.move; rw [ha]; exact hgo
  · have hm : ({ m with agenda := [] } : M) = m := by rw [← ha]
    rw [hm] at hgo ⊢
    unfold M.move; rw [ha]; exact hgo

theorem markedAt_fetch (m : M) (t turn' : Nat) : ((markedAt m t turn').tile t).fetch = (m.tile t).fetch := by
  unfold markedAt
  split <;> simp [M.mark, M.takeLater, M.tile]

theorem step_of_run {s : State} {i : Instr} {m : M} (h : s.m.move = .run i m) : step s = exec i { s with m := m } := by
  unfold step; rw [h]

theorem step_of_quiet {s : State} {m : M} (h : s.m.move = .quiet m) : step s = .next { s with m := m } := by
  unfold step; rw [h]

/-- A write of the host that waits goes behind an event that is to come (R210). -/
theorem hostTurn_waits {m : M} {p a : Nat} {bs : List Byte} (i : Instr) (rest : List Turn)
    (hb : m.between p a bs.length (fun _ => false) = true) :
    m.hostTurn p a bs (.ev i :: rest) = .quiet { m with agenda := .ev i :: (rest ++ [.host p a bs]) } := by
  unfold M.hostTurn; rw [hb]; rfl

theorem hostTurn_writes {m : M} {p a : Nat} {bs : List Byte} (rest : List Turn)
    (hb : m.between p a bs.length (fun _ => false) = false) :
    m.hostTurn p a bs rest = .quiet { m with agenda := rest, hmem := Memory.writeL m.hmem (hostKey p a) bs } := by
  unfold M.hostTurn; rw [hb]; rfl

/-- Settles O51: the turn of a group whose block is there goes by what its bytes decode to; everything else is the agenda's. -/
theorem stepRunsDecoded : Obligations.StepRunsDecoded := by
  intro s t w turn' g b i n rest slot m0 turn first marked c ready dropped full bytes reads waits later
  have hmove : ready → s.m.move = marked.fetch t w slot g first ∧ BlockThere marked t w slot g b := by
    rintro ⟨⟨ha, hp⟩, hl, hg, hmay, hasl, hb⟩
    exact ⟨(move_of_pick ha hp).trans (groupTurn_of_group hl hg), hmay, hasl,
      (congrArg (look · _) (markedAt_fetch m0 t turn')).trans hb⟩
  have hkeep : mayKeepBack marked t w slot first i = true ↔ waits := by
    simp only [mayKeepBack, Bool.and_eq_true, Bool.or_eq_true, waits]
  have hread : ∀ d, reads d → ∃ hb : BlockThere marked t w slot g b, s.m.move = marked.fetch t w slot g first ∧ b.fault = none ∧
      decode ((b.bytes g.team).drop (g.pc.toNat % 32)) = d := by
    rintro d ⟨hr, hf, hd⟩
    exact ⟨(hmove hr).2, (hmove hr).1, hf, hd⟩
  refine ⟨?run, ?keep, ?collect, ?illegal, ?boundary, ?fault, ?full, ?event, ?read, ?host, ?hostWaits⟩
  case run =>
    intro hr hfull hk
    obtain ⟨hb, hm, hf, hd⟩ := hread _ hr
    refine step_of_run (hm.trans ?_)
    rw [fetch_of_block hb, hf, hd]
    simp only [show setFull marked t slot first = false from hfull, Bool.false_eq_true, if_false, hkeep]
    by_cases hw : waits
    · rw [if_pos hw, show marked.keepBack t w slot later i = none from hk.resolve_left (not_not_intro hw)]
    · rw [if_neg hw]
  case keep =>
    intro m1 hr hfull hw hk
    obtain ⟨hb, hm, hf, hd⟩ := hread _ hr
    refine step_of_quiet (hm.trans ?_)
    rw [fetch_of_block hb, hf, hd]
    simp only [show setFull marked t slot first = false from hfull, Bool.false_eq_true, if_false, hkeep, if_pos hw]
    rw [show marked.keepBack t w slot later i = some m1 from hk]
  case collect =>
    intro hr hfull
    obtain ⟨hb, hm, hf, hd⟩ := hread _ hr
    refine step_of_quiet (hm.trans ?_)
    rw [fetch_of_block hb, hf, hd]
    exact if_pos hfull
  case illegal =>
    intro hr hfull
    obtain ⟨hb, hm, hf, hd⟩ := hread _ hr
    refine step_of_quiet (hm.trans ?_)
    rw [fetch_of_block hb, hf, hd]
    exact congrArg Move.quiet (if_neg (Bool.eq_false_iff.1 hfull))
  case boundary =>
    intro hr hfull
    obtain ⟨hb, hm, hf, hd⟩ := hread _ hr
    refine step_of_quiet (hm.trans ?_)
    rw [fetch_of_block hb, hf, hd]
    exact congrArg Move.quiet (if_neg (Bool.eq_false_iff.1 hfull))
  case fault =>
    intro code d hr hf hfull
    obtain ⟨hm, hb⟩ := hmove hr
    refine step_of_quiet (hm.trans ?_)
    rw [fetch_of_block hb, hf]
    exact congrArg Move.quiet (if_neg (Bool.eq_false_iff.1 hfull))
  case full =>
    intro x hr hfull
    have hq : ∀ a b : M, (if setFull marked t slot first then a else b) = a := fun _ _ => if_pos hfull
    rcases hr with hr | hr | ⟨hr, hf⟩
    · obtain ⟨hb, hm, hf, hd⟩ := hread _ hr
      refine step_of_quiet (hm.trans ?_)
      rw [fetch_of_block hb, hf, hd]; exact congrArg Move.quiet (hq _ _)
    · obtain ⟨hb, hm, hf, hd⟩ := hread _ hr
      refine step_of_quiet (hm.trans ?_)
      rw [fetch_of_block hb, hf, hd]; exact congrArg Move.quiet (hq _ _)
    · obtain ⟨hm, hb⟩ := hmove hr
      refine step_of_quiet (hm.trans ?_)
      rw [fetch_of_block hb, hf]; exact congrArg Move.quiet (hq _ _)
  case event =>
    intro ha he
    refine step_of_run ?_
    unfold M.move; rw [ha]; exact if_pos he
  case read =>
    intro a ha
    refine step_of_quiet ?_
    unfold M.move; rw [ha]
  case host =>
    intro p a bs ha hb
    refine step_of_quiet ?_
    unfold M.move; rw [ha]; exact hostTurn_writes rest hb
  case hostWaits =>
    intro p a bs ha hb
    refine step_of_quiet ?_
    unfold M.move; rw [ha]; exact hostTurn_waits i rest hb

open Machine

/-! ## The checks before an instruction's own effect -/

section

variable {h : Hdr} {f : Form} {s : State} {c : Ctx}

/-- An instruction whose group has its turn is what its own checks and effect make (R132). -/
theorem issue_of_ctx (body : Ctx → M → Res) (hc : ctxOf h s = some c) :
    issue h f s body = .next { s with m := s.m.issueIn h f c body } := by
  obtain ⟨h1, h2⟩ := ctx_some hc
  have hcc : Ctx.mk c.t c.w c.slot c.g (c.g.lanes.filter (fun (_, th) => guardOk h th)) = c := by rw [← h2]
  unfold issue; rw [h1]; dsimp only; rw [hcc]

/-- What the instruction does once nothing older is in its way: its checks in their order, then its effect. -/
def checked (m : M) (h : Hdr) (f : Form) (c : Ctx) (body : Ctx → M → Res) : M :=
  if f.vec.any (fun (r, n) => c.g.allot < r + n) then
    m.reject c (if c.ex.isEmpty then c.g.lanes else c.ex) .regAllot 0 0
  else if c.ex.isEmpty then
    if pastEnd c.g.pc f.len then m.reject c c.g.lanes .translation 0 0x201
    else (m.updGroup c.w c.t c.slot Group.countWin).finish c { f with region := false } (nextPc c.g.pc f.len)
  else if f.badAllot && !c.g.wait.begun then m.reject c c.ex .regAllot 0 0
  else if h.ac ≠ .ex && (f.mark = .none || f.mark = .exOnly) then m.reject c c.ex .accuracyClass 0 0
  else if !(c.g.violators f c.ex).isEmpty then
    match waitFor? (c.g.ops.filter (·.ll)) with
    | some cause => m.holdC c cause
    | none => m.reject c (c.g.violators f c.ex) .lookaheadViolation 0 0
  else
    match c.llWait f with
    | some cause => m.holdC c cause
    | none => m.effect c f (body c (counted c f m))

theorem issue_of_ready (body : Ctx → M → Res) (hr : Ready h f s c) :
    issue h f s body = .next { s with m := checked s.m h f c body } := by
  rw [issue_of_ctx body hr.1]
  unfold M.issueIn
  rw [hr.2.1, before_of hr]
  rfl

variable {m : M} {body : Ctx → M → Res}

theorem checked_of_allot (ha : ∃ x ∈ f.vec, c.g.allot < x.1 + x.2) :
    checked m h f c body = m.reject c (if c.ex.isEmpty then c.g.lanes else c.ex) .regAllot 0 0 :=
  if_pos (by simpa using ha)

theorem not_isEmpty {α : Type} {l : List α} (hl : l ≠ []) : ¬ l.isEmpty = true := by simpa using hl

/-- Every register it names is allotted (R12). -/
abbrev VecIn (f : Form) (g : Group) : Prop := ¬ f.vec.any (fun (r, n) => decide (g.allot < r + n)) = true

theorem checked_of_none (hv : VecIn f c.g) (hx : c.ex = []) (hp : pastEnd c.g.pc f.len = false) :
    checked m h f c body = (m.updGroup c.w c.t c.slot Group.countWin).finish c { f with region := false } (nextPc c.g.pc f.len) :=
  (if_neg hv).trans ((if_pos (by rw [hx]; rfl)).trans (if_neg (Bool.eq_false_iff.1 hp)))

theorem checked_of_badAllot (hv : VecIn f c.g) (hx : c.ex ≠ []) (hb : (f.badAllot && !c.g.wait.begun) = true) :
    checked m h f c body = m.reject c c.ex .regAllot 0 0 :=
  (if_neg hv).trans ((if_neg (not_isEmpty hx)).trans (if_pos hb))

theorem checked_of_class (ha : InAllot f c.g) (hx : c.ex ≠ []) (hc : ¬ ClassOk h f) :
    checked m h f c body = m.reject c c.ex .accuracyClass 0 0 := by
  refine (if_neg (Bool.eq_false_iff.1 ha.1)).trans ((if_neg (not_isEmpty hx)).trans ((if_neg (Bool.eq_false_iff.1 ha.2)).trans
    (if_pos ?_)))
  obtain ⟨hac, hall⟩ := not_or.1 hc
  cases hm : f.mark
  · simp [hac]
  · simp [hac]
  · exact absurd hm hall

/-- The instruction passes the checks that reject it in its lanes. -/
theorem checked_of_class_ok (ha : InAllot f c.g) (hx : c.ex ≠ []) (hc : ClassOk h f) :
    checked m h f c body =
      if !(c.g.violators f c.ex).isEmpty then
        match waitFor? (c.g.ops.filter (·.ll)) with
        | some cause => m.holdC c cause
        | none => m.reject c (c.g.violators f c.ex) .lookaheadViolation 0 0
      else
        match c.llWait f with
        | some cause => m.holdC c cause
        | none => m.effect c f (body c (counted c f m)) := by
  refine (if_neg (Bool.eq_false_iff.1 ha.1)).trans ((if_neg (not_isEmpty hx)).trans ((if_neg (Bool.eq_false_iff.1 ha.2)).trans
    (if_neg ?_)))
  rcases hc with hc | hc
  · simp [hc]
  · simp [hc]

theorem waitFor_of_mem {ps : List Pend} {p : Pend} (hp : p ∈ ps) : waitFor? ps = some (waitCause ps) :=
  if_neg (not_isEmpty (List.ne_nil_of_mem hp))

theorem waitCause_cases (ps : List Pend) : waitCause ps = .window ∨ waitCause ps = .sema := by
  unfold waitCause; split_ifs
  · exact .inr rfl
  · exact .inl rfl

/-- The operations an instruction waits for once it may have its effect (R57, R306). -/
theorem checked_of_llWait (ha : InAllot f c.g) (hx : c.ex ≠ []) (hc : ClassOk h f) (hn : ¬ (c.g.violators f c.ex).isEmpty = false)
    {p : Pend} (hp : p ∈ c.g.awaits f c.ex ++ if f.nonIdem then c.g.lateOf c.ex else []) :
    checked m h f c body = m.holdC c .window ∨ checked m h f c body = m.holdC c .sema := by
  rw [checked_of_class_ok ha hx hc, if_neg (by simpa using hn)]
  unfold Ctx.llWait
  rw [waitFor_of_mem hp]
  rcases waitCause_cases (c.g.awaits f c.ex ++ if f.nonIdem then c.g.lateOf c.ex else []) with hw | hw
  · exact .inl (by rw [hw])
  · exact .inr (by rw [hw])

end

theorem mem_awaits {g : Group} {f : Form} {ex : List (Nat × Thread)} {p : Pend} (hw : f.waits = true) (hp : p ∈ g.ops)
    (hll : p.ll = true) (hof : f.waitsAll = true ∨ ∃ x ∈ ex, x.1 ∈ p.lanes) : p ∈ g.awaits f ex := by
  unfold Group.awaits Pend.ofAny
  simp only [hw, Bool.not_true, Bool.false_eq_true, if_false, List.mem_filter, hll, Bool.true_and]
  exact ⟨hp, by simpa using hof⟩

theorem mem_lateOf {g : Group} {ex : List (Nat × Thread)} {p : Pend} (hp : p ∈ g.ops) (hl : p.late = true)
    (hof : ∃ x ∈ ex, x.1 ∈ p.lanes) : p ∈ g.lateOf ex := by
  unfold Group.lateOf Pend.ofAny
  simp only [List.mem_filter, hl, Bool.true_and]
  exact ⟨hp, by simpa using hof⟩

/-- Settles O57: the checks of an instruction come in their order, each with its own answer. -/
theorem issueChecks : Obligations.IssueChecks := by
  intro i h f body s c hi rejected waits named pends ofEx hr
  have hchk : ∀ m1, checked s.m h f c body = m1 → exec i s = .next { s with m := m1 } := by
    rintro m1 rfl; exact hi.trans (issue_of_ready body hr)
  refine ⟨?allot, ?badAllot, ?none, ?cls, ?window, ?violation, ?awaits, ?late, ?guard, ?lanes⟩
  case allot => exact fun ha => hchk _ (checked_of_allot ha)
  case badAllot =>
    intro ha hx
    by_cases hv : VecIn f c.g
    · refine hchk _ (checked_of_badAllot hv hx ?_)
      by_contra hb
      exact ha ⟨Bool.eq_false_iff.2 hv, Bool.eq_false_iff.2 hb⟩
    · have hall := checked_of_allot (m := s.m) (h := h) (body := body) (f := f) (c := c) (by simpa using hv)
      rw [if_neg (not_isEmpty hx)] at hall
      exact hchk _ hall
  case none =>
    intro hv hx hp
    have hv' : VecIn f c.g := by simpa using hv
    refine ⟨_, hchk _ (checked_of_none hv' hx hp), ?_⟩
    have hfin := finish_leaves (nv := s.nv) { f with region := false } (nextPc c.g.pc f.len)
      (updGroup_look Group.countWin (ctx_group hr.1))
    exact ⟨hfin.1, rest_trans (rest_updGroup s c _) hfin.2⟩
  case cls => exact fun ha hx hc => hchk _ (checked_of_class ha hx hc)
  case window =>
    rintro ha hx hc hn ⟨p, hp, hll⟩
    refine hchk _ ?_
    have hmem : p ∈ c.g.ops.filter (·.ll) := List.mem_filter.2 ⟨hp, hll⟩
    rw [checked_of_class_ok ha hx hc, if_pos (Bool.not_eq_eq_eq_not.2 hn), waitFor_of_mem hmem]
    unfold waitCause
    refine congrArg (s.m.holdC c) (if_congr ?_ rfl rfl)
    simp only [List.all_eq_true, List.mem_filter, and_imp]
  case violation =>
    intro ha hx hc hn hp
    have hnil : c.g.ops.filter (·.ll) = [] := List.filter_eq_nil_iff.2 fun p hm hll => hp p ⟨hm, hll⟩
    refine hchk _ ?_
    rw [checked_of_class_ok ha hx hc, if_pos (Bool.not_eq_eq_eq_not.2 hn), hnil]
    rfl
  case awaits =>
    rintro ha hx hc hn hw ⟨p, ⟨hp, hll⟩, hof⟩
    have hmem := List.mem_append_left (if f.nonIdem then c.g.lateOf c.ex else []) (mem_awaits hw hp hll hof)
    exact (checked_of_llWait ha hx hc hn hmem).imp (hchk _) (hchk _)
  case late =>
    rintro ha hx hc hn hni ⟨p, hp, hlate, hof⟩
    have hmem : p ∈ c.g.awaits f c.ex ++ if f.nonIdem then c.g.lateOf c.ex else [] := by
      rw [if_pos hni]; exact List.mem_append_right _ (mem_lateOf hp hlate hof)
    exact (checked_of_llWait ha hx hc hn hmem).imp (hchk _) (hchk _)
  case guard => intro th; rfl
  case lanes => intro l th; rw [(ctx_some hr.1).2]; exact List.mem_filter

end Sys2Proof

/-! PROOFS. Cross-lane operations, draws, barriers, allotment, SPAWN and MEET (O16 to O20). -/

namespace Sys2Proof

open Machine

/-! ## Cross-lane operations -/

/-- An instruction that changes the threads of its executing lanes, with what they hold together. -/
theorem writes_of_ctxLanes {i : Instr} {h : Hdr} {f : Form} {v : Ctx → Thread → Thread}
    (he : ∀ s, exec i s = issue h f s fun c m => .done (m.onLanes c fun _ => v c)) :
    Writes i h f fun c => onEx c (v c) :=
  writes_of _ he fun _ _ _ => rfl

/-- The executing lanes whose predicate holds, as a mask (Table 8-4). -/
def voteMask (c : Ctx) (q : BitVec 3) : W32 := laneMask ((c.ex.filter fun (_, u) => u.pr q).map (·.1))

theorem voteMask_writes (h : Hdr) (d : BitVec 8) (q : BitVec 3) :
    Writes (.vote h (.mask d q)) h (regForm 8 d 1 []) fun c => onEx c fun th => th.setX d.toNat (voteMask c q) :=
  writes_of_ctxLanes (v := fun c th => th.setX d.toNat (voteMask c q)) fun _ => rfl

/-- What SELMAX and SELMIN write for a winner (R147). -/
def selected (kt : KeyTy) (d a b : BitVec 8) (pc : Option (BitVec 3)) (w : Int × W64) (th : Thread) : Thread :=
  match pc with
  | some p => (th.setX d.toNat (w.2.extractLsb' 0 32)).setP p (keyIdx kt a b th == w)
  | none => th.setX d.toNat (w.2.extractLsb' 0 32)

theorem select_does {i : Instr} {up : Bool} {h : Hdr} {kt : KeyTy} {d a b : BitVec 8} {pc : Option (BitVec 3)}
    (he : ∀ s, exec i s = select up h kt d a b pc s) :
    Does i h (regForm 8 d 1 (one a ++ one b)) (fun _ _ => True) fun c m =>
      (winner up kt (m.seed c.g.team) (c.ex.map fun (_, th) => keyIdx kt a b th)).elim m fun w =>
        m.onLanes c fun _ => selected kt d a b pc w := by
  refine does_of_done _ he fun c m _ _ => ?_
  dsimp only
  cases winner up kt (m.seed c.g.team) (c.ex.map fun (_, th) => keyIdx kt a b th) with
  | none => rfl
  | some w => rfl

/-- Settles O16: each body sets what it computes from the executing lanes. -/
theorem crossLaneCompletes : Obligations.CrossLaneCompletes := by
  intro h d a b t p q wc sop op excl kt pc ranked chosen
  refine ⟨?some, ?every, ?mask, ?alike, ?shfl, ?reduce, ?scan, ?rank, ?max, ?min⟩
  case some => exact writes_of_ctxLanes (v := fun c th => th.setP p (c.ex.any fun (_, u) => u.pr q)) fun _ => rfl
  case every => exact writes_of_ctxLanes (v := fun c th => th.setP p (c.ex.all fun (_, u) => u.pr q)) fun _ => rfl
  case mask => exact voteMask_writes h d q
  case alike =>
    exact writes_of_ctxLanes (v := fun c th => th.setP p
      (c.ex.all fun (_, u) => some (u.xr a.toNat) == c.ex.head?.map fun (_, v) => v.xr a.toNat)) fun _ => rfl
  case reduce =>
    exact writes_of_ctxLanes (v := fun c th => th.setX d.toNat ((laneTree op (exValue c.ex a)).getD (identity op))) fun _ => rfl
  case max => exact select_does fun _ => rfl
  case min => exact select_does fun _ => rfl
  case shfl | scan | rank => exact does_of_done _ (fun _ => rfl) fun _ _ _ _ => rfl

/-! ## Draws and read-only values -/

theorem movs_uni_does (h : Hdr) (k : BitVec 6) (sel : BitVec 4) :
    Does (.movs h (.uni k) sel) h { len := 8, uni := [k.toNat] } (fun _ _ => True) fun c m =>
      m.updGroup c.w c.t c.slot fun g => (c.ex.head?).elim g fun (l, th) => g.setK k.toNat (m.readOnly c sel.toNat l th) := by
  refine does_of_done _ (fun _ => rfl) fun c m hex _ => ?_
  unfold lowest
  cases hx : c.ex with
  | nil => rw [hx] at hex; cases hex
  | cons x xs => rfl

/-- Settles O20: each body writes the value that its source names. -/
theorem drawsComplete : Obligations.DrawsComplete := by
  intro h d a r k sel key
  refine ⟨?rng, ?rngk, ?movs, movs_uni_does h k sel⟩
  case rng | rngk | movs => exact does_of_done _ (fun _ => rfl) fun _ _ _ _ => rfl

/-! ## Barriers -/

/-- A form whose instruction waits and is once for its group. -/
abbrev barForm : Form := { len := 8, waits := true, nonIdem := true, region := true, once := true, touch := [1] }

theorem barrier_arrives {i : Instr} (h : Hdr) (cl : Bool) (n : BitVec 4) (he : ∀ s, exec i s = barrier h cl n s) :
    Does i h barForm (fun c m => c.g.wait = .none ∧ c.again n.toNat = false ∧
        (m.arriveBar c cl n.toNat).barDone cl c.g.team n.toNat (m.barPhase cl c.g.team n.toNat) = true)
      fun c m => m.arriveBar c cl n.toNat := by
  refine does_of_done _ he fun c m _ ⟨hw, hagain, hdone⟩ => ?_
  simp only [hw]
  exact (if_neg (Bool.eq_false_iff.1 hagain)).trans (if_pos hdone)

theorem barrier_goes_on {i : Instr} (h : Hdr) (cl : Bool) (n : BitVec 4) (he : ∀ s, exec i s = barrier h cl n s) (cl' : Bool)
    (k ph : Nat) :
    Does i h barForm (fun c m => c.g.wait = .arrived cl' k ph ∧ m.barDone cl c.g.team n.toNat ph = true) fun _ m => m := by
  refine does_of_done _ he fun c m _ ⟨hw, hdone⟩ => ?_
  simp only [hw]
  exact if_pos hdone

/-- Settles O18: the conditions leave each barrier instruction the branch in which it goes on. -/
theorem barriersComplete : Obligations.BarriersComplete := by
  intro h n d a cl f both
  refine ⟨⟨barrier_arrives h false n fun _ => rfl, barrier_goes_on h false n fun _ => rfl⟩,
    ⟨barrier_arrives h true n fun _ => rfl, barrier_goes_on h true n fun _ => rfl⟩, ?arrive, ?await⟩
  case arrive => exact does_of_done _ (fun _ => rfl) fun c m _ hagain => if_neg (Bool.eq_false_iff.1 hagain)
  case await =>
    refine does_of_done _ (fun _ => rfl) fun c m _ hahead => if_pos (List.all_eq_true.2 fun x hx => ?_)
    simpa using hahead x hx

/-! ## Register allotment -/

/-- GROW and SHRINK may issue where the allotment they ask for is one, or once their request has begun. -/
theorem issues_allotForm {h : Hdr} {s : State} {c : Ctx} {bad : Bool} (hb : (bad && !c.g.wait.begun) = false)
    (hi : IssuesSeq h (allotForm false) s c) : IssuesSeq h (allotForm bad) s c := by
  obtain ⟨⟨hr, hx, ⟨hall, -⟩, hcls, hrest⟩, hp⟩ := hi
  exact ⟨⟨hr, hx, ⟨hall, hb⟩, hcls, hrest⟩, hp⟩

theorem endRes_of_done {c : Ctx} {f : Form} {m m2 : M} (hp : pastEnd c.g.pc f.len = false) :
    endRes c f m (.done m2) = m2.finish c f (nextPc c.g.pc f.len) :=
  if_neg (Bool.eq_false_iff.1 hp)

/-- An instruction that changes the allotment, in the form in which the model issues it. -/
theorem does_of_allot {i : Instr} {h : Hdr} {p : Ctx → M → Prop} {e : Ctx → M → M} (test : Group → Bool) (body : Ctx → M → Res)
    (he : ∀ s, exec i s = issue h (allotForm (s.m.curTest test)) s body)
    (ht : ∀ c m, p c m → (test c.g && !c.g.wait.begun) = false)
    (hb : ∀ c m, p c m → body c m = .done (e c m)) : Does i h (allotForm false) p e := by
  intro s c hi hp
  have htest : s.m.curTest test = test c.g := by
    unfold M.curTest; rw [(ctx_some hi.1.1.1).1]
  have hi' : IssuesSeq h (allotForm (test c.g)) s c := issues_allotForm (ht c _ hp) hi
  refine ⟨_, ((he s).trans (by rw [htest])).trans (issue_of body hi'.1), ?_⟩
  have hcount : (if (allotForm (test c.g)).counted then s.m.updGroup c.w c.t c.slot Group.countWin else s.m) =
      counted c (allotForm false) s.m := rfl
  rw [hcount, hb c _ hp, endRes_of_done (f := allotForm (test c.g)) hi.2]
  exact finish_after { s with m := e c (counted c (allotForm false) s.m) } c (allotForm (test c.g)) _

/-- An event whose occasion is there. -/
theorem event_of_some {s : State} {f : M → Option M} {m : M} (hf : f s.m = some m) : event s f = .next { s with m := m } := by
  unfold event; rw [hf]; rfl

theorem freeRows_growStuck {m : M} {w t slot k cyc : Nat} {rest : List RowReq} (hq : (m.wt w t).growq = .grow slot k cyc :: rest)
    (hk : k ≤ m.freeRows w t) : m.growStuck w t = none := by
  have hmet : m.headMet w t = true := by unfold M.headMet; rw [hq]; exact decide_eq_true hk
  unfold M.growStuck
  exact if_pos (by simp [hmet])

theorem updGroup_growq (m : M) (w t slot : Nat) (f : Group → Group) :
    ((m.updGroup w t slot f).wt w t).growq = (m.wt w t).growq := by
  unfold M.updGroup; split <;> simp

theorem updGroup_used (m : M) (w t slot : Nat) (f : Group → Group) :
    ((m.updGroup w t slot f).wt w t).used = (m.wt w t).used := by
  unfold M.updGroup; split <;> simp

/-- The first request is granted when its rows are free. -/
theorem growGranted_of_head {m : M} {w t slot k cyc : Nat} {rest : List RowReq} (hl : (m.tile t).latch = some w)
    (hres : 1 ≤ (m.wt w t).restored) (hq : (m.wt w t).growq = .grow slot k cyc :: rest) (hk : k ≤ m.freeRows w t) :
    m.growGranted t = some (((m.setWT w t { m.wt w t with growq := rest }).growNow w t slot k).updGroup w t slot
      fun g => { g with wait := .request .grow true }) := by
  unfold M.growGranted
  have hf : (m.tile t).latch.filter (fun w => 1 ≤ (m.wt w t).restored) = some w := by rw [hl]; simp [hres]
  rw [hf]
  simp only [freeRows_growStuck hq hk, Option.isSome_none, Bool.false_eq_true, if_false, hq, if_pos hk]

/-- Settles O19: GROW, SHRINK and the grant of the first request. -/
theorem allotmentCompletes : Obligations.AllotmentCompletes := by
  intro h n f
  refine ⟨?grow, ?granted, ?shrink, ?grant⟩
  case grow =>
    refine does_of_allot _ _ (fun _ => rfl) (fun c m hp => ?_) fun c m ⟨hw, _, hrows, hhead⟩ => ?_
    · simp [Nat.not_lt.2 hp.2.1]
    · simp only [hw]
      exact if_pos (by simp [hhead, hrows])
  case granted =>
    refine does_of_allot _ _ (fun _ => rfl) (fun c m hw => ?_) fun c m hw => ?_
    · rw [hw]; simp [Wait.begun]
    · simp only [hw]
  case shrink =>
    refine does_of_allot _ _ (fun _ => rfl) (fun c m hp => ?_) fun c m _ => rfl
    simp [Nat.not_lt.2 hp]
  case grant =>
    intro s t w slot k cyc rest g hl hres hq hk hg
    refine ⟨_, event_of_some (f := fun m => m.growGranted t) (growGranted_of_head hl hres hq hk), ?_⟩
    have hgrown : look (((s.m.setWT w t { s.m.wt w t with growq := rest }).growNow w t slot k).wt w t).groups slot =
        some { g with allot := g.allot + k } := by
      unfold M.growNow; exact updGroup_look _ (by simpa using hg)
    refine ⟨?_, ?_, updGroup_look _ hgrown⟩
    · exact (updGroup_growq ..).trans ((updGroup_growq ..).trans (by simp))
    · exact (updGroup_used ..).trans ((updGroup_used ..).trans (by simp))

open Machine

/-! ## SPAWN and MEET -/

/-- The target of an instruction is one that threads may go to (R18). -/
abbrev GoodTarget (c : Ctx) (imm : W32) : Prop :=
  (relTarget c.g.pc imm).extractLsb' 0 2 = 0#2 ∧ (relTarget c.g.pc imm).extractLsb' 56 8 = 0#8

theorem GoodTarget.badTarget_eq_nil {c : Ctx} {imm : W32} (hg : GoodTarget c imm) :
    badTarget c.ex (relTarget c.g.pc imm) = [] :=
  Sys2Proof.badTarget_eq_nil c.ex hg.1 hg.2

/-- Opening records in a world's part of a tile changes its records alone. -/
theorem foldl_meets (rec' : W64 → Meeting) (ps : List (W64 × Nat)) (wt : WT) :
    ps.foldl (fun (wt : WT) (p : W64 × Nat) => { wt with meets := put wt.meets p.2 (rec' p.1) }) wt =
      { wt with meets := ps.foldl (fun ms p => put ms p.2 (rec' p.1)) wt.meets } := by
  induction ps generalizing wt with
  | nil => rfl
  | cons p ps ih => exact ih _

/-- The record that MEET opens for an old value (R140). -/
def meetRec (c : Ctx) (imm : W32) (v : W64) : Meeting :=
  { m := (relTarget c.g.pc imm).extractLsb' 0 56, n := c.ex.countP fun (_, th) => th.meet == v, parent := v, team := c.g.team }

/-- Old values of MEET's lanes, with the records they get. -/
def meetOpened (c : Ctx) (m : M) : List (W64 × Nat) := ((c.ex.map fun (_, th) => th.meet).eraseDups).zip (m.wt c.w c.t).freeMeets

/-- The record number that an old value gets. -/
def meetNoOf (c : Ctx) (m : M) (v : W64) : Nat := (((meetOpened c m).find? fun (u, _) => u == v).map (·.2)).getD 0

theorem meet_opens (h : Hdr) (imm : W32) :
    Does (.meet h imm) h { len := 12, nonIdem := true, region := true, once := true, touch := [5] }
      (fun c m => GoodTarget c imm ∧ relTarget c.g.pc imm ≠ 0 ∧
        ((c.ex.map fun (_, th) => th.meet).eraseDups).length ≤ (m.wt c.w c.t).freeMeets.length)
      (fun c m => (m.setWT c.w c.t { m.wt c.w c.t with
          meets := (meetOpened c m).foldl (fun ms p => put ms p.2 (meetRec c imm p.1)) (m.wt c.w c.t).meets }).onLanes c
        fun _ th => { th with meet := BitVec.ofNat 8 (meetNoOf c m th.meet) ++ (relTarget c.g.pc imm).extractLsb' 0 56 }) := by
  refine does_of_done _ (fun _ => rfl) fun c m _ ⟨hgood, hne, hfree⟩ => ?_
  dsimp only
  rw [hgood.badTarget_eq_nil]
  refine (if_neg hne).trans ((if_neg (Nat.not_lt.2 hfree)).trans ?_)
  rw [← foldl_meets]
  simp only [meetRec, List.countP_eq_length_filter]
  rfl

theorem meet_clears (h : Hdr) (imm : W32) :
    Does (.meet h imm) h { len := 12, nonIdem := true, region := true, once := true, touch := [5] }
      (fun c _ => GoodTarget c imm ∧ relTarget c.g.pc imm = 0) (fun c m => m.onLanes c fun _ th => { th with meet := 0 }) := by
  refine does_of_done _ (fun _ => rfl) fun c m _ ⟨hgood, hzero⟩ => ?_
  dsimp only
  rw [hgood.badTarget_eq_nil]
  exact if_pos hzero

/-- Settles O17: with a good target and room, SPAWN and MEET have the one branch in which they complete. -/
theorem spawnAndMeetComplete : Obligations.SpawnAndMeetComplete := by
  intro h live a b imm target good srcs born olds opened rec'
  refine ⟨?spawn, meet_clears h imm, meet_opens h imm⟩
  refine does_of_done _ (fun _ => rfl) fun c m _ ⟨hgood, hroom⟩ => ?_
  dsimp only
  rw [GoodTarget.badTarget_eq_nil hgood]
  exact if_neg (by simp [hroom])

end Sys2Proof

/-! PROOFS. What the end of a thread leaves, verdicts, and the system instructions (O21). -/

namespace Sys2Proof.Machine

/-! ## What the end of a thread leaves -/

/-- A group without the contents of its threads. -/
def Group.husk (g : Group) : Group × List Nat := ({ g with lanes := [] }, g.lanes.map (·.1))

/-- Two worlds' parts of a tile that differ only in the contents of threads, in the landing, in claims and in chains. -/
structure WT.Settled (a b : WT) : Prop where
  rest : { b with groups := a.groups, growq := a.growq, bins := a.bins, urecs := a.urecs, meets := a.meets, parked := a.parked,
                  claims := a.claims, chains := a.chains } = a
  parked : ∀ i, (look b.parked i).isSome = (look a.parked i).isSome
  groups : ∀ i, (look b.groups i).map Group.husk = (look a.groups i).map Group.husk

theorem WT.Settled.refl (a : WT) : a.Settled a := ⟨rfl, fun _ => rfl, fun _ => rfl⟩

theorem WT.Settled.trans {a b c : WT} (h1 : a.Settled b) (h2 : b.Settled c) : a.Settled c :=
  ⟨by rw [← h1.rest, ← h2.rest], fun i => (h2.parked i).trans (h1.parked i), fun i => (h2.groups i).trans (h1.groups i)⟩

theorem WT.Landed.settled {a b : WT} (h : a.Landed b) : a.Settled b := by
  have hp : b.parked = a.parked := by rw [← h]
  have hc : b.claims = a.claims := by rw [← h]
  have hn : b.chains = a.chains := by rw [← h]
  refine ⟨?_, fun i => by rw [hp], fun i => by rw [WT.landed_groups h]⟩
  conv_rhs => rw [← h]
  rw [hp, hc, hn, WT.landed_groups h]

theorem WT.unclaim_settled (wt : WT) (team : Nat) : wt.Settled (wt.unclaim team) := ⟨rfl, fun _ => rfl, fun _ => rfl⟩

theorem keys_mapV {β γ : Type} (f : Nat → β → γ) (m : AMap β) : (mapV f m).map (·.1) = m.map (·.1) := by
  induction m with
  | nil => rfl
  | cons p m ih => simp only [mapV, List.map_cons, ih]

theorem husk_mapTeam (g : Group) (team : Nat) (f : Thread → Thread) :
    (if g.team = team then { g with lanes := mapV (fun _ th => f th) g.lanes } else g).husk = g.husk := by
  split_ifs
  · simp [Group.husk, keys_mapV]
  · rfl

theorem WT.mapTeam_settled (wt : WT) (team : Nat) (f : Thread → Thread) : wt.Settled (wt.mapTeam team f) := by
  refine ⟨rfl, fun i => ?_, fun i => ?_⟩
  · simp [WT.mapTeam]
  · simp only [WT.mapTeam, look_mapV, Option.map_map]
    exact congrArg (fun F => (look wt.groups i).map F) (funext fun g => husk_mapTeam g team f)

/-- Two machines that differ only in teams, clusters, launches and settled parts of tiles. -/
structure M.Settled (m m' : M) : Prop where
  rest : { m' with wts := m.wts, teams := m.teams, clusters := m.clusters, launches := m.launches } = m
  wts : ∀ k, (mget {} m.wts k).Settled (mget {} m'.wts k)

theorem M.Settled.refl (m : M) : m.Settled m := ⟨rfl, fun _ => .refl _⟩

theorem M.Settled.trans {a b c : M} (h1 : a.Settled b) (h2 : b.Settled c) : a.Settled c :=
  ⟨by rw [← h1.rest, ← h2.rest], fun k => (h1.wts k).trans (h2.wts k)⟩

theorem M.Settled.wt {a b : M} (h : a.Settled b) (w t : Nat) : (a.wt w t).Settled (b.wt w t) := h.wts _

theorem M.setWT_settled {m : M} {w t : Nat} {x : WT} (h : (m.wt w t).Settled x) : m.Settled (m.setWT w t x) := by
  refine ⟨rfl, fun k => ?_⟩
  by_cases hk : k = wtKey w t
  · subst hk; rw [show mget {} (m.setWT w t x).wts (wtKey w t) = x from M.wt_setWT_self m w t x]; exact h
  · rw [show mget {} (m.setWT w t x).wts k = mget {} m.wts k from mget_put_ne _ _ _ hk]; exact .refl _

theorem M.setTeam_settled (m : M) (k : Nat) (v : Team) : m.Settled (m.setTeam k v) := ⟨rfl, fun _ => .refl _⟩

theorem M.updLaunch_settled (m : M) (k : Nat) (f : Launch → Launch) : m.Settled (m.updLaunch k f) := by
  unfold M.updLaunch; split
  · exact ⟨rfl, fun _ => .refl _⟩
  · exact .refl m

theorem M.barCheck_settled (m : M) (team n : Nat) : m.Settled (m.barCheck team n) := by
  unfold M.barCheck
  split
  · exact .refl m
  · next tm _ =>
    dsimp only
    split
    · exact .refl m
    · have hm : ∀ tm1 : Team, m.Settled ((m.setTeam team tm1).setWT tm.world tm.tile
          ((m.wt tm.world tm.tile).mapTeam team fun th => { th with arrived := th.arrived &&& ~~~(1#16 <<< n) })) := fun tm1 =>
        (M.setTeam_settled m team tm1).trans (M.setWT_settled (WT.mapTeam_settled _ _ _))
      split
      · split
        · exact (hm _).trans ⟨rfl, fun _ => .refl _⟩
        · exact hm _
      · exact hm _

theorem M.teamCheck_settled (m : M) (team : Nat) : m.Settled (m.teamCheck team) := by
  unfold M.teamCheck
  split
  · exact .refl m
  · next tm _ =>
    dsimp only
    split
    · exact .refl m
    · exact (M.setTeam_settled m team _).trans ((M.setWT_settled (WT.unclaim_settled _ _)).trans (M.updLaunch_settled _ _ _))

theorem M.settled_foldl {α : Type} (f : M → α → M) (hf : ∀ (m : M) x, m.Settled (f m x)) :
    ∀ (l : List α) (m : M), m.Settled (l.foldl f m) := by
  intro l
  induction l with
  | nil => exact M.Settled.refl
  | cons x xs ih => exact fun m => (hf m x).trans (ih _)

theorem M.endThread_settled (m : M) (w t team : Nat) (th : Thread) : m.Settled (m.endThread w t team th) := by
  unfold M.endThread
  split
  · exact .refl m
  · extract_lets hit bars m1 m2 wt wt1
    have h2 : m.Settled m2 :=
      (M.setTeam_settled m team _).trans (M.settled_foldl (fun m n => m.barCheck team n) (fun m n => M.barCheck_settled m team n) _ _)
    have hwt : (m2.wt w t).Settled wt := (WT.meetLeave_landed _ _ _ _).settled
    have hwt1 : wt.Settled wt1 := by
      unfold wt1; split
      · exact .refl wt
      · exact ⟨rfl, fun _ => rfl, fun _ => rfl⟩
    exact h2.trans ((M.setWT_settled (hwt.trans hwt1)).trans (M.teamCheck_settled _ _))

end Sys2Proof.Machine

namespace Sys2Proof

open Machine

/-! ## Verdicts -/

/-- Entering bins changes the landing alone. -/
theorem enterBins_landed (now : Nat) (bint : Nat → Nat) (ws : List Waiting) (wt : WT) :
    wt.Landed (ws.foldl (fun (wt : WT) e => wt.enterBin now e.th.regpc e.urec e.team (bint e.team) [{ e with pc := e.th.regpc }]) wt) :=
  WT.landed_foldl _ (fun wt e => WT.enterBin_landed wt now e.th.regpc e.urec e.team (bint e.team) [{ e with pc := e.th.regpc }]) ws wt

theorem WT.Landed.parked_eq {a b : WT} (h : a.Landed b) : b.parked = a.parked := by rw [← h]

/-- Whether threads are parked under a token on the tile with this key. -/
def parkedAt (m : M) (k token : Nat) : Bool := (look (mget {} m.wts k).parked token).isSome

theorem parkedAt_of_settled {m m' : M} (h : m.Settled m') (k token : Nat) : parkedAt m' k token = parkedAt m k token :=
  (h.wts k).parked token

theorem parkedAt_setWT_del {m : M} {w t token : Nat} {x : WT} (hx : x.parked = del (m.wt w t).parked token) (k i : Nat) :
    parkedAt (m.setWT w t x) k i = (parkedAt m k i && !(decide (k = wtKey w t) && decide (i = token))) := by
  unfold parkedAt
  by_cases hk : k = wtKey w t
  · subst hk
    rw [show mget {} (m.setWT w t x).wts (wtKey w t) = x from M.wt_setWT_self m w t x, hx, look_del]
    change _ = ((look (m.wt w t).parked i).isSome && _)
    by_cases hi : i = token <;> simp [hi]
  · rw [show mget {} (m.setWT w t x).wts k = mget {} m.wts k from mget_put_ne _ _ _ hk]
    simp [hk]

section

variable {m : M} {w token : Nat} {v : Verdict} {tk : Token}

/-- The threads parked under a token. -/
def parkedThs (wt : WT) (token : Nat) : List Waiting := ((look wt.parked token).map (·.ths)).getD []

/-- The world without the token. -/
def withoutToken (m : M) (w token : Nat) : M := m.setWorld w { m.world w with tokens := del (m.world w).tokens token }

theorem resolve_none (ht : look (m.world w).tokens token = none) : m.resolve w token v = m := by
  unfold M.resolve; dsimp only; rw [ht]

/-- RESUME: the parked threads enter the bins of their REGPC (R307, R347). -/
theorem resolve_resume (ht : look (m.world w).tokens token = some tk) :
    m.resolve w token .resume = (withoutToken m w token).setWT w tk.tile
      ((parkedThs (m.wt w tk.tile) token).foldl
        (fun (wt : WT) e => wt.enterBin (m.tile tk.tile).cycle e.th.regpc e.urec e.team (m.bint e.team) [{ e with pc := e.th.regpc }])
        { m.wt w tk.tile with parked := del (m.wt w tk.tile).parked token }) := by
  unfold M.resolve; dsimp only; rw [ht]; rfl

/-- KILL: the parked threads end (R347). -/
theorem resolve_kill (ht : look (m.world w).tokens token = some tk) :
    m.resolve w token .kill = (parkedThs (m.wt w tk.tile) token).foldl (fun m e => m.endThread w tk.tile e.team e.th)
      ((withoutToken m w token).setWT w tk.tile
        (WT.gcUrecs { m.wt w tk.tile with parked := del (m.wt w tk.tile).parked token })) := by
  unfold M.resolve; dsimp only; rw [ht]; rfl

/-- FATAL: the launch of the token ends (R315, R347). -/
theorem resolve_fatal (ht : look (m.world w).tokens token = some tk) :
    m.resolve w token .fatal = (withoutToken m w token).updLaunch tk.launch fun l => { l with ending := true, status := 5 } := by
  unfold M.resolve; dsimp only; rw [ht]; rfl

theorem endThreads_settled (w t : Nat) (ws : List Waiting) (m : M) :
    m.Settled (ws.foldl (fun m e => m.endThread w t e.team e.th) m) :=
  M.settled_foldl (fun m (e : Waiting) => m.endThread w t e.team e.th) (fun m e => M.endThread_settled m w t e.team e.th) ws m

/-- A verdict that is not fatal leaves nothing parked under its token, and the rest as it was. -/
theorem parkedAt_resolve (ht : look (m.world w).tokens token = some tk) (hv : v ≠ .fatal) (k i : Nat) :
    parkedAt (m.resolve w token v) k i = (parkedAt m k i && !(decide (k = wtKey w tk.tile) && decide (i = token))) := by
  cases v with
  | resume =>
    rw [resolve_resume ht]
    exact parkedAt_setWT_del (m := withoutToken m w token) (WT.Landed.parked_eq (enterBins_landed ..)) k i
  | kill =>
    rw [resolve_kill ht, parkedAt_of_settled (endThreads_settled ..)]
    exact parkedAt_setWT_del (m := withoutToken m w token) rfl k i
  | fatal => exact absurd rfl hv

theorem resolve_fatal_wts : (m.resolve w token .fatal).wts = m.wts := by
  cases ht : look (m.world w).tokens token with
  | none => rw [resolve_none ht]
  | some tk => rw [resolve_fatal ht]; simp [withoutToken]

theorem settled_worlds {m m' : M} (h : m.Settled m') : m'.worlds = m.worlds := by rw [← h.rest]

theorem resolve_tokens (ht : look (m.world w).tokens token = some tk) :
    ((m.resolve w token v).world w).tokens = del (m.world w).tokens token := by
  have hw : ((withoutToken m w token).world w).tokens = del (m.world w).tokens token := by simp [withoutToken]
  refine Eq.trans (congrArg World.tokens ?_) hw
  unfold M.world
  congr 1
  cases v with
  | resume => rw [resolve_resume ht]; rfl
  | kill => rw [resolve_kill ht, settled_worlds (endThreads_settled ..)]; rfl
  | fatal => rw [resolve_fatal ht]; simp

end

/-- Tokens of the executing lanes of an RFE, with their tiles (R347). -/
def rfeTokens (m : M) (w : Nat) (a : BitVec 8) (ls : List (Nat × Thread)) : List (Nat × Nat) :=
  ls.filterMap fun (_, th) => (look (m.world w).tokens (th.xr a.toNat).toNat).map fun tk => (tk.tile, (th.xr a.toNat).toNat)

/-- The verdicts of the executing lanes, in lane order (R347). -/
def rfeResolved (m : M) (w : Nat) (a : BitVec 8) (v : Verdict) (ls : List (Nat × Thread)) : M :=
  ls.foldl (fun m (_, th) => m.resolve w (th.xr a.toNat).toNat v) m

theorem rfeResolved_fatal_wts (m : M) (w : Nat) (a : BitVec 8) (ls : List (Nat × Thread)) :
    (rfeResolved m w a .fatal ls).wts = m.wts := by
  induction ls generalizing m with
  | nil => rfl
  | cons x ls ih => exact (ih _).trans resolve_fatal_wts

/-- What is parked nowhere stays so. -/
theorem parkedAt_rfeResolved {m : M} {w : Nat} {a : BitVec 8} {v : Verdict} (hv : v ≠ .fatal) {k i : Nat} (ls : List (Nat × Thread))
    (hp : parkedAt m k i = false) : parkedAt (rfeResolved m w a v ls) k i = false := by
  induction ls generalizing m with
  | nil => exact hp
  | cons x ls ih =>
    refine ih ?_
    dsimp only
    cases ht : look (m.world w).tokens (x.2.xr a.toNat).toNat with
    | none => rw [resolve_none ht]; exact hp
    | some tk => rw [parkedAt_resolve ht hv, hp]; rfl

/-- After verdicts that are not fatal nothing is parked under their tokens. -/
theorem rfeTokens_resolved {m : M} {w : Nat} {a : BitVec 8} {v : Verdict} (hv : v ≠ .fatal) (ls : List (Nat × Thread)) :
    ∀ x ∈ rfeTokens m w a ls, parkedAt (rfeResolved m w a v ls) (wtKey w x.1) x.2 = false := by
  induction ls generalizing m with
  | nil => intro x hx; cases hx
  | cons y ls ih =>
    intro x hx
    set token := (y.2.xr a.toNat).toNat with htok
    cases ht : look (m.world w).tokens token with
    | none =>
      have hx' : x ∈ rfeTokens m w a ls := by simpa [rfeTokens, ← htok, ht] using hx
      have := ih x hx'
      simpa only [rfeResolved, List.foldl_cons, ← htok, resolve_none ht] using this
    | some tk =>
      have hfirst : parkedAt (rfeResolved (m.resolve w token v) w a v ls) (wtKey w tk.tile) token = false := by
        refine parkedAt_rfeResolved hv ls ?_
        rw [parkedAt_resolve ht hv]; simp
      change parkedAt (rfeResolved (m.resolve w token v) w a v ls) _ _ = false
      have hx' : x = (tk.tile, token) ∨ x ∈ rfeTokens m w a ls := by simpa [rfeTokens, ← htok, ht] using hx
      rcases hx' with rfl | hx'
      · exact hfirst
      · obtain ⟨z, hz, hzx⟩ := List.mem_filterMap.1 hx'
        obtain ⟨tk', htk', rfl⟩ := Option.map_eq_some_iff.1 hzx
        by_cases hsame : (z.2.xr a.toNat).toNat = token
        · rw [hsame, ht] at htk'
          obtain rfl : tk = tk' := by simpa using htk'
          rw [hsame]; exact hfirst
        · refine ih _ (List.mem_filterMap.2 ⟨z, hz, ?_⟩)
          dsimp only
          rw [resolve_tokens ht, look_del_ne _ hsame, htk']
          rfl

open Machine

/-! ## System instructions -/

/-- The group is one of a handler's launch (R344). -/
def InHandler (c : Ctx) (m : M) : Prop := ∃ l, m.launchOf c.g.team = some l ∧ l.2.handler = true

theorem InHandler.handler {c : Ctx} {m : M} (h : InHandler c m) : m.handler c = true := by
  obtain ⟨⟨_, l⟩, hl, hh⟩ := h
  unfold M.handler; rw [hl]; exact hh

/-- RFE's own effect. -/
def rfeBody (v : Verdict) (a : BitVec 8) (c : Ctx) (m : M) : Res :=
  if !m.handler c then .trap m (unprivileged c)
  else if (rfeTokens m c.w a c.ex).any fun x => parkedAt (rfeResolved m c.w a v c.ex) (wtKey c.w x.1) x.2 then
    .hold (rfeResolved m c.w a v c.ex) (.ended (rfeTokens m c.w a c.ex))
  else .done (rfeResolved m c.w a v c.ex)

/-- RFE with its wait for the threads of the tokens. -/
def rfeWhole (v : Verdict) (a : BitVec 8) (c : Ctx) (m : M) : Res :=
  match c.g.wait with
  | .ended toks => if toks.any fun x => parkedAt m (wtKey c.w x.1) x.2 then .hold m (.ended toks) else .done m
  | _ => rfeBody v a c m

theorem exec_rfe (h : Hdr) (v : Verdict) (a : BitVec 8) (s : State) :
    exec (.rfe h v a) s = issue h { srcForm 8 (one a) with waits := true } s (rfeWhole v a) := rfl

theorem rfeWhole_of_begins {v : Verdict} {a : BitVec 8} {c : Ctx} {m : M} (hb : ∀ l, c.g.wait ≠ .ended l) :
    rfeWhole v a c m = rfeBody v a c m := by
  unfold rfeWhole
  split
  · next l hl => exact absurd hl (hb l)
  · rfl

/-- Nothing that the verdicts leave is parked under their tokens, but for fatal ones. -/
theorem rfe_any_eq_false {v : Verdict} {a : BitVec 8} {c : Ctx} {m : M}
    (hp : v = .fatal → ∀ x ∈ rfeTokens m c.w a c.ex, ¬ parkedAt m (wtKey c.w x.1) x.2 = true) :
    ((rfeTokens m c.w a c.ex).any fun x => parkedAt (rfeResolved m c.w a v c.ex) (wtKey c.w x.1) x.2) = false := by
  refine List.any_eq_false.2 fun x hx => ?_
  by_cases hv : v = .fatal
  · subst hv
    unfold parkedAt; rw [rfeResolved_fatal_wts]; exact hp rfl x hx
  · rw [rfeTokens_resolved hv c.ex x hx]; exact Bool.false_ne_true

theorem rfe_any_fatal {a : BitVec 8} {c : Ctx} {m : M} (hp : ∃ x ∈ rfeTokens m c.w a c.ex, parkedAt m (wtKey c.w x.1) x.2 = true) :
    ((rfeTokens m c.w a c.ex).any fun x => parkedAt (rfeResolved m c.w a .fatal c.ex) (wtKey c.w x.1) x.2) = true := by
  refine List.any_eq_true.2 ?_
  unfold parkedAt at hp ⊢; rw [rfeResolved_fatal_wts]; exact hp

theorem rfe_does (h : Hdr) (v : Verdict) (a : BitVec 8) :
    Does (.rfe h v a) h { srcForm 8 (one a) with waits := true }
      (fun c m => (∀ l, c.g.wait ≠ .ended l) ∧ InHandler c m ∧
        (v = .fatal → ∀ x ∈ rfeTokens m c.w a c.ex, ¬ parkedAt m (wtKey c.w x.1) x.2 = true))
      (fun c m => rfeResolved m c.w a v c.ex) := by
  refine does_of_done _ (exec_rfe h v a) fun c m _ ⟨hb, hh, hp⟩ => ?_
  rw [rfeWhole_of_begins hb, rfeBody, hh.handler, rfe_any_eq_false hp]
  rfl

theorem rfe_holds (h : Hdr) (v : Verdict) (a : BitVec 8) :
    Holds (.rfe h v a) h { srcForm 8 (one a) with waits := true }
      (fun c m => (∀ l, c.g.wait ≠ .ended l) ∧ InHandler c m ∧ v = .fatal ∧
        ∃ x ∈ rfeTokens m c.w a c.ex, parkedAt m (wtKey c.w x.1) x.2 = true)
      (fun c m => .ended (rfeTokens m c.w a c.ex)) (fun c m => rfeResolved m c.w a v c.ex) := by
  refine holds_of _ (exec_rfe h v a) (fun s c _ ⟨hb, hh, hv, hp⟩ => ?_) fun s c hi ⟨_, _, hv, _⟩ => ?_
  · subst hv
    rw [rfeWhole_of_begins hb, rfeBody, hh.handler, rfe_any_fatal hp]
    rfl
  · subst hv
    unfold M.wt; rw [rfeResolved_fatal_wts]
    exact counted_group hi.1.1

theorem rfe_ends (h : Hdr) (v : Verdict) (a : BitVec 8) (l : List (Nat × Nat)) :
    Does (.rfe h v a) h { srcForm 8 (one a) with waits := true }
      (fun c m => c.g.wait = .ended l ∧ ∀ x ∈ l, ¬ parkedAt m (wtKey c.w x.1) x.2 = true) (fun _ m => m) := by
  refine does_of_done _ (exec_rfe h v a) fun c m _ ⟨hw, hp⟩ => ?_
  unfold rfeWhole
  rw [hw]
  exact if_neg (Bool.eq_false_iff.1 (List.any_eq_false.2 hp))

theorem yield_does (h : Hdr) :
    Does (.yield h) h { len := 8, waits := true, nonIdem := true, region := true } (fun _ _ => True)
      (fun c m => (m.partOf c.t).elim m fun p =>
        if (m.part p).latched = some c.w ∧ (m.part p).sw = none then m.setPart p { m.part p with yielded := true } else m) := by
  refine does_of_done _ (fun _ => rfl) fun c m _ _ => ?_
  dsimp only
  cases m.partOf c.t with
  | none => rfl
  | some p => simp [Option.isNone_iff_eq_none]

/-- FAULTQ in a handler group answers what it reads of the queue, or zeros. -/
theorem faultq_does {h : Hdr} {d : BitVec 8} {ka : BitVec 6} {p : Ctx → M → Prop} {e : Ctx → M → M} (bs : List Byte) (m' : Ctx → M → M)
    (hp : ∀ c m, p c m → InHandler c m)
    (hr : ∀ c m, p c m →
      (if ((c.g.kr ka.toNat).extractLsb' 0 11 - (m.world c.w).tqhead).toNat < ((m.world c.w).tqtail - (m.world c.w).tqhead).toNat then
        m.fieldRead ((m.world c.w).slotKey ((c.g.kr ka.toNat).extractLsb' 0 11 : BitVec 11).toNat) 64 c.w 0 0 0
       else (some (List.replicate 64 0), m)) = (some bs, m' c m))
    (he : ∀ c m, p c m → (m' c m).onLanes c (fun _ th => th.setXs d.toNat
        ((List.range 16).map fun j => BitVec.ofNat 32 (bytesNat ((bs.drop (4 * j)).take 4)))) = e c m) :
    Does (.faultq h d ka) h { regForm 8 d 16 [] with uni := [ka.toNat], once := true } p e := by
  refine does_of_done _ (fun _ => rfl) fun c m _ hc => ?_
  dsimp only
  rw [(hp c m hc).handler, hr c m hc, ← he c m hc]
  rfl

/-- Settles O21: each system instruction's conditions leave it the branch in which it completes. -/
theorem systemCompletes : Obligations.SystemCompletes := by
  intro h v a d o sr ka value mt handler resolved toks parked begins rf
  refine ⟨rfe_does h v a, rfe_holds h v a, rfe_ends h v a, ?region, yield_does h, ?bkpt, ?mfsr, ?mtsr, ?head, ?base, ?limit, ?acct,
    ?lrec, ?none, ?record⟩
  case region | bkpt | mfsr | acct | lrec => exact does_of_done _ (fun _ => rfl) fun _ _ _ _ => rfl
  case mtsr =>
    refine does_of_done _ (fun _ => rfl) fun c m _ hh => if_neg ?_
    by_cases hs : sr = 0x11#16
    · simp [InHandler.handler (hh hs)]
    · simp [hs]
  case head => intro m w t v; rfl
  case base =>
    intro m w t v r _
    unfold M.writeSr
    rw [if_neg (by omega), if_pos (by omega), show (0x80 + 2 * r - 0x80) / 2 = r by omega]
  case limit =>
    intro m w t v r _
    unfold M.writeSr
    rw [if_neg (by omega), if_neg (by omega), show (0x81 + 2 * r - 0x80) / 2 = r by omega]
  case none =>
    refine faultq_does (List.replicate 64 0) (fun _ m => m) (fun c m hp => hp.1) (fun c m hp => if_neg (Nat.not_lt.2 hp.2)) ?_
    intro c m _
    congr 1
  case record =>
    intro bs m'
    exact faultq_does bs (fun _ _ => m') (fun c m hp => hp.1) (fun c m hp => (if_pos hp.2.1).trans hp.2.2) fun _ _ _ => rfl

end Sys2Proof

/-! PROOFS. Claims, accumulator tiles, products and the anvil's steps (O24 to O27). -/

namespace Sys2Proof

open Machine

/-! ## Claims -/

theorem claim_does (h : Hdr) (r : ClaimRange) :
    Does (.claim h r) h { engineForm 8 [] 1 with nonIdem := true, region := true, acc := rangeTiles r }
      (fun c m => ∀ k ∈ rangeKeys r, look (m.wt c.w c.t).claims k = none)
      (fun c m => m.setWT c.w c.t ((rangeKeys r).foldl (fun (wt : WT) k =>
        { wt.cleared k with claims := put wt.claims k c.g.team }) (m.wt c.w c.t))) := by
  refine does_of_done _ (fun _ => rfl) fun c m _ hfree => if_neg (Bool.eq_false_iff.1 (List.any_eq_false.2 fun k hk => ?_))
  rw [hfree k hk]; exact Bool.false_ne_true

theorem release_does (h : Hdr) (r : ClaimRange) :
    Does (.release h r) h { engineForm 8 [] 1 with nonIdem := true, region := true, acc := rangeTiles r }
      (fun c m => c.g.wait = .none ∧ ∀ k ∈ rangeKeys r, look (m.wt c.w c.t).claims k = some c.g.team ∧
        (k < 128 → (m.wt c.w c.t).slabOn k = false) ∧ (m.wt c.w c.t).busyKey k = false)
      (fun c m => m.setWT c.w c.t { m.wt c.w c.t with
        claims := (m.wt c.w c.t).claims.filter fun (k, _) => !(rangeKeys r).contains k }) := by
  refine does_of_done _ (fun _ => rfl) fun c m _ ⟨hw, hk⟩ => ?_
  simp only [hw]
  refine (if_neg ?_).trans (if_neg ?_)
  · refine Bool.eq_false_iff.1 (List.any_eq_false.2 fun k hmem => ?_)
    obtain ⟨hheld, hslab, -⟩ := hk k hmem
    by_cases hlt : k < 128
    · simp [WT.holds, hheld, hslab hlt]
    · simp [WT.holds, hheld, hlt]
  · refine Bool.eq_false_iff.1 (List.any_eq_false.2 fun k hmem => ?_)
    rw [(hk k hmem).2.2]; exact Bool.false_ne_true

/-- What the group's team holds of a range becomes free once nothing accepted names it (R257). -/
theorem releaseFree_of_idle {m : M} {t w slot : Nat} {g : Group} {ks : List Nat} (hl : (m.tile t).latch = some w)
    (hr : (m.wt w t).rels.find? (·.1 == slot) = some (slot, ks)) (hb : ∀ k ∈ ks, (m.wt w t).busyKey k = false)
    (hg : look (m.wt w t).groups slot = some g) :
    m.releaseFree t slot = some ((m.setWT w t { (m.wt w t).freeKeys (ks.filter fun k => (m.wt w t).holds g.team k) with
      rels := (m.wt w t).rels.filter (·.1 != slot) }).updGroup w t slot fun g => { g with wait := .request .engine true }) := by
  have hbusy : ks.any (m.wt w t).busyKey = false := List.any_eq_false.2 fun k hk => by rw [hb k hk]; exact Bool.false_ne_true
  unfold M.releaseFree
  simp only [hl, hr, hbusy, hg, Option.any_some, Bool.false_eq_true, if_false]

theorem updGroup_claims (m : M) (w t slot : Nat) (f : Group → Group) :
    ((m.updGroup w t slot f).wt w t).claims = (m.wt w t).claims := by
  unfold M.updGroup; split <;> simp

theorem updGroup_rels (m : M) (w t slot : Nat) (f : Group → Group) :
    ((m.updGroup w t slot f).wt w t).rels = (m.wt w t).rels := by
  unfold M.updGroup; split <;> simp

/-- Settles O24: CLAIM and RELEASE pass their checks, and the release that waited is made. -/
theorem claimsComplete : Obligations.ClaimsComplete := by
  intro h r f
  refine ⟨claim_does h r, release_does h r, ?free⟩
  intro s t w slot g ks hl hr hb hg
  refine ⟨_, event_of_some (f := fun m => m.releaseFree t slot) (releaseFree_of_idle hl hr hb hg), ?_, ?_, ?_⟩
  · exact updGroup_look _ (by simpa [WT.freeKeys] using hg)
  · exact (updGroup_claims ..).trans (by simp [WT.freeKeys])
  · exact (updGroup_rels ..).trans (by simp)

/-! ## Operations on accumulator tiles -/

theorem acceptsNow.engineNow {c : Ctx} {m : M} {occ : Nat} (h : acceptsNow c m occ) : m.engineNow c occ = true := by
  obtain ⟨htakes, hwait⟩ := h
  unfold M.engineNow
  rw [htakes]
  rcases hwait with hw | ⟨hw, hq⟩
  · rw [hw]; rfl
  · rw [hw, hq]; rfl

/-- The team holds every tile of a list. -/
def HoldsTiles (c : Ctx) (m : M) (ts : List Nat) : Prop := ∀ t ∈ ts, look (m.wt c.w c.t).claims (128 + t) = some c.g.team

theorem HoldsTiles.holdsTiles {c : Ctx} {m : M} {ts : List Nat} (h : HoldsTiles c m ts) :
    (m.wt c.w c.t).holdsTiles c.g.team ts = true :=
  List.all_eq_true.2 fun t ht => beq_iff_eq.2 (h t ht)

/-- An operation that is done for its group is accepted (R270). -/
def acceptedPlain (c : Ctx) (m : M) (ts : List Nat) (k : AnvilWork) : M :=
  accepted c { m with uid := m.uid + 1 } 0 { id := m.uid, slot := c.slot, group := c.g.uid, op := 0, slots := [], tiles := ts, work := k }
    fun m => m

theorem tileOp_of_accepts {c : Ctx} {m : M} {ts : List Nat} {more : WT → Option Code} (k : AnvilWork)
    (ha : acceptsNow c m 0) (hh : HoldsTiles c m ts) (hm : more (m.wt c.w c.t).ahead = none) :
    tileOp c m ts more k = .done (acceptedPlain c m ts k) := by
  unfold tileOp
  dsimp only
  rw [ha.engineNow, hh.holdsTiles, hm]
  rfl

theorem accRead_does {i : Instr} {h : Hdr} {p : Nat} {half : Bool} {v : BitVec 8} {a : BitVec 6}
    (he : ∀ s, exec i s = accRead h p half v a s) :
    Does i h (anvilForm 8 [(v.toNat, 4)] [] [] [a.toNat] 3) (fun c m => acceptsNow c m 0 ∧ HoldsTiles c m [a.toNat]) fun c m =>
      accepted c { m with uid := m.uid + 2 } 0
        { id := m.uid + 1, slot := c.slot, group := c.g.uid, op := m.uid, slots := [], tiles := [a.toNat], work := .read a.toNat p half }
        fun m1 => m1.beginLL c h
          { id := m.uid, pc := c.g.pc, len := 8, ll := true, late := false, nonIdem := false, dest := .quad v [],
            lanes := c.ex.map (·.1), ready := false, since := (m.tile c.t).cycle + 6 } { vec := [(v.toNat, 4)] } := by
  refine does_of_done _ he fun c m _ ⟨ha, hh⟩ => ?_
  dsimp only
  rw [ha.engineNow, hh.holdsTiles]
  rfl

/-- Settles O25: with the tiles held and the anvil free each operation is accepted. -/
theorem tileOperationsAccepted : Obligations.TileOperationsAccepted := by
  intro h a d v n cn p l half af held now run form code vals reads
  refine ⟨?accz, accRead_does fun _ => rfl, accRead_does fun _ => rfl, ?accwr, ?accwrSt, ?treeadd, ?accfin⟩
  case accz | accfin => exact does_of_done _ (fun _ => rfl) fun c m _ ⟨ha, hh⟩ => tileOp_of_accepts _ ha hh rfl
  case accwr =>
    refine does_of_done _ (fun _ => rfl) fun c m _ ⟨ha, hh, hfmt⟩ => tileOp_of_accepts _ ha hh (if_neg fun hclash => ?_)
    obtain ⟨hpres, hother⟩ := Bool.and_eq_true_iff.1 hclash
    exact hfmt.elim (bne_iff_ne.1 hpres) (bne_iff_ne.1 hother)
  case accwrSt =>
    refine does_of_done _ (fun _ => rfl) fun c m _ ⟨ha, hh⟩ => (tileOp_of_accepts _ ha hh rfl).trans ?_
    cases c.ex.head? <;> rfl
  case treeadd =>
    refine does_of_done _ (fun _ => rfl) fun c m _ ⟨ha, hh, hfin, hfmt, hforb, hl, hcn⟩ => tileOp_of_accepts _ ha hh ?_
    have hcn' : cn.toNat + 1 ≤ 32 := (Nat.le_mul_of_pos_right _ (Nat.two_pow_pos _)).trans hcn
    exact (if_neg (by simpa [hfin, hforb] using hfmt)).trans (if_neg (by simp; omega))

/-! ## OFILL, MMA and MMAT -/

/-- The operand bytes that OFILL writes in its lanes (R290). -/
def ofilled (span : BitVec 3) (dq : BitVec 7) (a : BitVec 8) (c : Ctx) (c0 : Nat) (om : Memory) : Memory :=
  c.ex.foldl (fun om (l, th) => Memory.writeL om (swizzle (2048 * dq.toNat) span.toNat (16 * (c0 + l)))
    (dataBytes c.g th (.vec a) .b16)) om

theorem ofill_does (h : Hdr) (span : BitVec 3) (dq : BitVec 7) (b : BitVec 6) (a : BitVec 8) (sl : List Nat) :
    Does (.ofill h span dq b a) h (anvilForm 8 [(a.toNat, 4)] [(a.toNat, 4)] [b.toNat] [] 3)
      (fun c m => acceptsNow c m 0 ∧ (m.wt c.w c.t).slabsReady sl = true ∧
        ofillSlots (m.wt c.w c.t) c.g.team dq.toNat
          (16 * (((c.g.kr b.toNat).extractLsb' 0 8).toNat + (c.ex.map (·.1)).foldl max 0) + 16) = some sl ∧
        ∀ op ∈ (m.wt c.w c.t).anvil, op.slots.any sl.contains = false)
      (fun c m => accepted c { m with uid := m.uid + 1 } 0
        { id := m.uid, slot := c.slot, group := c.g.uid, op := 0, slots := [], tiles := [], work := .zero [] } fun m =>
          m.setWT c.w c.t { m.wt c.w c.t with
            omem := ofilled span dq a c ((c.g.kr b.toNat).extractLsb' 0 8).toNat (m.wt c.w c.t).omem
            spans := sl.foldl (fun sp i => mset 0 sp i span.toNat) (m.wt c.w c.t).spans }) := by
  refine does_of_done _ (fun _ => rfl) fun c m _ ⟨ha, hready, hsl, hidle⟩ => ?_
  have hany : ((m.wt c.w c.t).anvil.any fun op => op.slots.any sl.contains) = false :=
    List.any_eq_false.2 fun op hop => by rw [hidle op hop]; exact Bool.false_ne_true
  simp only [hsl, hready, hany, ha.engineNow, Bool.not_true, Bool.false_eq_true, if_false]
  rfl

/-- The quarters of an MMA (R266). -/
def quartersOf (ex : List (Nat × Thread)) (d a b koff : BitVec 8) : List Quarter :=
  (activeQuarters ex).map fun (q, th) => quarterOf q th d a b koff

/-- The format word of an MMA (R263). -/
def formatWord (ex : List (Nat × Thread)) (cr : BitVec 8) : W32 := (ex.head?).elim 0 fun (_, th) => th.xr cr.toNat

/-- The slots that an MMA reads. -/
def mmaSlots (c : Ctx) (d a b cr koff : BitVec 8) : List Nat :=
  (quartersOf c.ex d a b koff).flatMap fun q => q.slots (formatWord c.ex cr)

/-- The form of an MMA on its tiles. -/
def mmaForm (tern : Bool) (d a b cr : BitVec 8) (tiles : List Nat) : Form :=
  { anvilForm 16 (one d ++ one a ++ [(b.toNat, 2)] ++ one cr) (one d ++ one a ++ [(b.toNat, 2)] ++ one cr) [] tiles 3 with
    mark := if tern then .exOnly else .all, nonIdem := true, touch := [3] }

/-- An MMA's own effect (R276, R292). -/
def mmaBody (tern : Bool) (h : Hdr) (d a b cr koff : BitVec 8) (c : Ctx) (m : M) : Res :=
  let f := formatWord c.ex cr
  let qs := quartersOf c.ex d a b koff
  let slots := mmaSlots c d a b cr koff
  if !(m.wt c.w c.t).slabsReady slots then .hold (m.unask c) (.pend .slab)
  else if !m.engineNow c (occupancy tern f qs) then engineWait c m (occupancy tern f qs)
  else
    match mmaCheck tern h.ac (m.wt c.w c.t) (m.wt c.w c.t).ahead c f cr b qs with
    | some fs => .trap m fs
    | none => acceptOp c { m with uid := m.uid + 2 } (occupancy tern f qs)
        { id := m.uid + 1, slot := c.slot, group := c.g.uid, op := m.uid, slots := slots, tiles := qs.map (·.tile),
          work := .mma tern h.ac f qs (slotBytes (m.wt c.w c.t).omem slots) }
        fun m1 => m1.beginLL c h
          { id := m.uid, pc := c.g.pc, len := 16, ll := true, late := false, nonIdem := true, dest := .none,
            lanes := c.ex.map (·.1), ready := false } { acc := qs.map (·.tile) }

theorem map_getD_eq_elim {α β : Type} (o : Option α) (f : α → β) (z : β) : (o.map f).getD z = o.elim z f := by
  cases o <;> rfl

theorem mmaOp_eq {tern : Bool} {h : Hdr} {d a b cr koff : BitVec 8} {s : State} {c : Ctx} (hc : ctxOf h s = some c) :
    mmaOp tern h d a b cr koff s =
      issue h (mmaForm tern d a b cr ((quartersOf c.ex d a b koff).map (·.tile))) s (mmaBody tern h d a b cr koff) := by
  obtain ⟨hg, hex⟩ := ctx_some hc
  have htiles : ((activeQuarters c.ex).map fun (q, th) => (quarterOf q th d a b koff).tile) =
      (quartersOf c.ex d a b koff).map (·.tile) := (List.map_map ..).symm
  unfold mmaOp
  rw [hg]
  dsimp only
  rw [← hex, htiles]
  congr 1
  funext c m
  unfold mmaBody formatWord
  dsimp only
  rw [map_getD_eq_elim]
  rfl

theorem mma_does {i : Instr} {tern : Bool} {h : Hdr} {d a b cr koff : BitVec 8} (tiles : List Nat)
    (he : ∀ s, exec i s = mmaOp tern h d a b cr koff s) :
    Does i h (mmaForm tern d a b cr tiles)
      (fun c m => acceptsNow c m (occupancy tern (formatWord c.ex cr) (quartersOf c.ex d a b koff)) ∧
        tiles = (quartersOf c.ex d a b koff).map (·.tile) ∧
        (m.wt c.w c.t).slabsReady (mmaSlots c d a b cr koff) = true ∧
        mmaCheck tern h.ac (m.wt c.w c.t) (m.wt c.w c.t).ahead c (formatWord c.ex cr) cr b (quartersOf c.ex d a b koff) = none)
      (fun c m => accepted c { m with uid := m.uid + 2 } (occupancy tern (formatWord c.ex cr) (quartersOf c.ex d a b koff))
        { id := m.uid + 1, slot := c.slot, group := c.g.uid, op := m.uid, slots := mmaSlots c d a b cr koff,
          tiles := (quartersOf c.ex d a b koff).map (·.tile),
          work := .mma tern h.ac (formatWord c.ex cr) (quartersOf c.ex d a b koff)
            (slotBytes (m.wt c.w c.t).omem (mmaSlots c d a b cr koff)) }
        fun m1 => m1.beginLL c h
          { id := m.uid, pc := c.g.pc, len := 16, ll := true, late := false, nonIdem := true, dest := .none,
            lanes := c.ex.map (·.1), ready := false } { acc := (quartersOf c.ex d a b koff).map (·.tile) }) := by
  refine does_of (mmaBody tern h d a b cr koff) (fun s c hi ⟨_, htiles, _⟩ => ?_) fun s c _ ⟨ha, _, hready, hcheck⟩ => ?_
  · rw [he, mmaOp_eq hi.1.1.1, htiles]
  · unfold mmaBody
    dsimp only
    rw [hready, ha.engineNow, hcheck]
    rfl

/-- Settles O26: with its checks passed each product, and OFILL, is accepted. -/
theorem operandsAndProductsAccepted : Obligations.OperandsAndProductsAccepted := by
  intro h span dq b d a bb cc koff sl tiles c0 regs qs fw slots product
  exact ⟨ofill_does h span dq b a sl, mma_does tiles fun _ => rfl, mma_does tiles fun _ => rfl⟩

/-! ## The anvil's own steps -/

theorem anvilAdmit_of_first {m : M} {t w slot : Nat} {r : AnvilReq} {rest : List AnvilReq} {g : Group}
    (hl : (m.tile t).latch = some w) (hq : (m.wt w t).anvilq = r :: rest) (hg : look (m.wt w t).groups slot = some g)
    (hs : r.slot = slot) (hgr : r.group = g.uid) (hw : g.wait = .request .engine false) (ht : m.anvilTakes w t r.occ = true) :
    m.anvilAdmit t slot = some (m.setGroup w t slot { g with wait := .request .engine true }) := by
  unfold M.anvilAdmit
  simp only [hl, hq, hg, hs, hgr, hw, ht]
  exact congrArg some (updGroup_wt _ hg)

theorem passDone_of_mma {m : M} {t w : Nat} {op : AnvilOp} {ops : List AnvilOp} {tern : Bool} {ac : AccClass} {f : W32} {q : Quarter}
    {qs : List Quarter} {mem : Memory} (hl : (m.tile t).latch = some w) (ha : (m.wt w t).anvil = op :: ops)
    (hk : op.work = .mma tern ac f (q :: qs) mem) (hc : op.fin ≤ (m.tile t).cycle) {m1 : M}
    (hm1 : m1 = m.setWT w t { (m.wt w t).quarterDone tern ac f q mem with
      anvil := { op with work := .mma tern ac f qs mem } :: ops }) :
    m.passDone t = some ((if qs.isEmpty then m1.anvilFinish w t op else m1).anvilDrain w t (ops.length + 1)) := by
  unfold M.passDone
  simp only [hl, ha, hk, Nat.not_lt.2 hc, if_false, hm1]

/-- While quarters of the oldest MMA are left, nothing behind it takes effect. -/
theorem anvilDrain_of_mma {m : M} {w t : Nat} {op : AnvilOp} {ops : List AnvilOp} {tern : Bool} {ac : AccClass} {f : W32}
    {qs : List Quarter} {mem : Memory} (ha : (m.wt w t).anvil = op :: ops) (hk : op.work = .mma tern ac f qs mem) (n : Nat) :
    m.anvilDrain w t n = m := by
  cases n with
  | zero => rfl
  | succ n => simp only [M.anvilDrain, ha, hk]

/-- Settles O27: admission, a pass that leaves quarters, and the last pass of an MMA. -/
theorem anvilStepsHappen : Obligations.AnvilStepsHappen := by
  intro t w slot r rest g op ops tern ac f q qs mem latched pass applied
  refine ⟨?takesRequest, ?pass, ?last⟩
  case takesRequest =>
    exact happens_of _ (fun _ => rfl) fun m ⟨hl, hq, hg, hs, hgr, hw, ht⟩ => anvilAdmit_of_first hl hq hg hs hgr hw ht
  case pass =>
    refine happens_of _ (fun _ => rfl) fun m ⟨⟨hl, ha, hk, hc⟩, hqs⟩ => (passDone_of_mma hl ha hk hc rfl).trans ?_
    rw [if_neg (by simpa using hqs)]
    exact congrArg some (anvilDrain_of_mma (op := { op with work := .mma tern ac f qs mem }) (ops := ops) (by simp) rfl _)
  case last =>
    refine happens_of _ (fun _ => rfl) fun m ⟨⟨hl, ha, hk, hc⟩, hqs⟩ => (passDone_of_mma hl ha hk hc rfl).trans ?_
    rw [if_pos (by simp [hqs])]

end Sys2Proof

/-! PROOFS. Engine instructions, the pilot's service and semaphore requests (O28, O29, O31). -/

namespace Sys2Proof

open Machine

/-! ## CHAIN, CONDW and semaphore instructions -/

/-- The request that the pilot is asked for (R278). -/
def pilotAsked (c : Ctx) (m : M) (lane ch : Nat) (n : Option Nat) : M :=
  m.setWT c.w c.t { m.wt c.w c.t with
    pilotq := insPilot { slot := c.slot, group := c.g.uid, lane := lane, ch := ch, node := n, at' := (m.tile c.t).cycle }
      (m.wt c.w c.t).pilotq }

theorem pilotAsked_groups (c : Ctx) (m : M) (lane ch : Nat) (n : Option Nat) :
    ((pilotAsked c m lane ch n).wt c.w c.t).groups = (m.wt c.w c.t).groups := by
  simp [pilotAsked]

/-- An instruction whose own body holds it, and leaves its group to the wait. -/
theorem holds_of_body {i : Instr} {h : Hdr} {f : Form} {p : Ctx → M → Prop} {wt : Ctx → M → Wait} {e : Ctx → M → M}
    (body : Ctx → M → Res) (he : ∀ s, exec i s = issue h f s body) (hb : ∀ c m, p c m → body c m = .hold (e c m) (wt c m))
    (hg : ∀ c m, ((e c m).wt c.w c.t).groups = (m.wt c.w c.t).groups) : Holds i h f p wt e :=
  holds_of body he (fun _ c _ hp => hb c _ hp) fun s c hi _ => by rw [hg]; exact counted_group hi.1.1

/-- The address of the node that CHAIN.LINK names (R282). -/
def linkNode (c : Ctx) (a : BitVec 6) (off : W32) : Nat := (c.g.kr a.toNat + off.signExtend 64).toNat

theorem chainLink_holds (h : Hdr) (ch : BitVec 4) (a : BitVec 6) (off : W32) (l : Nat) (th : Thread) :
    Holds (.chainLink h ch a off) h { engineForm 12 [a.toNat] 1 with nonIdem := true, region := true }
      (fun c m => c.g.wait = .none ∧ c.ex.head? = some (l, th) ∧
        (m.det c.g.team = true → m.inTeamWindow c.g.team (linkNode c a off) = true) ∧ linkNode c a off % 64 = 0 ∧
        m.placeOf c (linkNode c a off) 8 .write ≠ .miss ∧ ∀ d, m.placeOf c (linkNode c a off) 8 .write ≠ .bad .translation d)
      (fun _ _ => .request .engine false) (fun c m => pilotAsked c m l ch.toNat (some (linkNode c a off))) := by
  refine holds_of_body _ (fun _ => rfl) (fun c m ⟨hw, hhead, hdet, halign, hmiss, hbad⟩ => ?_) fun c m => pilotAsked_groups ..
  have hd : (m.det c.g.team && !m.inTeamWindow c.g.team (linkNode c a off)) = false := by
    cases hdt : m.det c.g.team with
    | false => rfl
    | true => rw [hdet hdt]; rfl
  simp only [hw, lowest, hhead]
  refine (if_neg (Bool.eq_false_iff.1 hd)).trans ((if_neg (not_not_intro halign)).trans ?_)
  split
  · next hp => exact absurd hp hmiss
  · next d hp => exact absurd hp (hbad d)
  · rfl

/-- Stores and atomics that the group has issued (R283). -/
def groupStores (c : Ctx) (m : M) : List Nat := (m.acc.filter fun x => x.group == c.g.uid && !x.kind.isLoad).map (·.id)

theorem chainAdv_asks (h : Hdr) (ch : BitVec 4) :
    Holds (.chainAdv h ch) h { engineForm 8 [] 1 with nonIdem := true, region := true }
      (fun c m => c.g.wait = .none ∧ groupStores c m = []) (fun _ _ => .request .engine false)
      (fun c m => pilotAsked c m 0 ch.toNat none) := by
  refine holds_of_body _ (fun _ => rfl) (fun c m ⟨hw, hnone⟩ => ?_) fun c m => pilotAsked_groups ..
  simp only [hw]
  exact if_pos (List.isEmpty_iff.2 hnone)

/-- Lines that are asked to go home change nothing of the groups. -/
theorem fenceFlush_groups (c : Ctx) (m : M) (spans : List Span) (ids : List Nat) :
    ((m.fenceFlush c spans ids).wt c.w c.t).groups = (m.wt c.w c.t).groups := by
  unfold M.fenceFlush M.flush
  dsimp only
  split
  · rfl
  · simp

theorem chainAdv_waits (h : Hdr) (ch : BitVec 4) :
    Holds (.chainAdv h ch) h { engineForm 8 [] 1 with nonIdem := true, region := true }
      (fun c m => c.g.wait = .none ∧ groupStores c m ≠ []) (fun _ _ => .pend .fence)
      (fun c m => m.fenceFlush c [] (groupStores c m)) := by
  refine holds_of_body _ (fun _ => rfl) (fun c m ⟨hw, hsome⟩ => ?_) fun c m => fenceFlush_groups ..
  simp only [hw]
  exact if_neg (not_isEmpty hsome)

/-- Settles O28: the conditions leave each engine instruction one branch. -/
theorem engineInstructionsComplete : Obligations.EngineInstructionsComplete := by
  intro h ch cw a sem off add o d pd eng node ask stores q free served
  refine ⟨?linked, chainLink_holds h ch a off, ?advanced, chainAdv_asks h ch, chainAdv_waits h ch, ?condw, ?sacq, ?stry, ?sqry⟩
  case linked | advanced =>
    refine does_of_done _ (fun _ => rfl) fun c m _ hw => ?_
    simp only [hw]
  case condw | sacq | stry | sqry => exact does_of_done _ (fun _ => rfl) fun _ _ _ _ => rfl

open Machine

/-! ## The pilot's service of chain requests -/

section

variable {m : M} {t w node prev : Nat} {r : PilotReq} {rest : List PilotReq} {g : Group} {place place2 : Place} {code : Code} {d o : Nat}

/-- The pilot has taken the request at the head of its queue (R278). -/
def pilotTaken (m : M) (w t : Nat) (rest : List PilotReq) : M :=
  (m.setWT w t { m.wt w t with pilotq := rest }).setTile t { m.tile t with served := true }

/-- What the group of a request waits for once the pilot is through with it. -/
def servedWait : Served → Wait
  | .bad code addr d => .failed code addr d
  | _ => .request .engine true

/-- The machine once the pilot is through with a request. -/
def servedM (m : M) : Served → M
  | .ok m2 => m2
  | _ => m

/-- The group whose request the pilot serves. -/
def pilotCtx (t w : Nat) (r : PilotReq) (g : Group) : Ctx := { t := t, w := w, slot := r.slot, g := g, ex := g.lanes }

/-- The pilot can serve the request that stands first (R278). -/
def PilotAsked (m : M) (t w : Nat) (r : PilotReq) (rest : List PilotReq) (g : Group) (n : Option Nat) : Prop :=
  m.rowWorld t 1 = some w ∧ (m.wt w t).pilotq = r :: rest ∧ r.node = n ∧ look (m.wt w t).groups r.slot = some g ∧ g.uid = r.group ∧
    (m.tile t).served = false ∧ r.at' < (m.tile t).cycle

/-- How the pilot serves a request for a node, or for no node. -/
def pilotServed (m : M) (c : Ctx) (r : PilotReq) : Option Nat → Served
  | some node => m.serveLink c r node []
  | none => m.serveAdv c r

theorem pilotServe_of_asked {n : Option Nat} {v : Served} (ha : PilotAsked m t w r rest g n)
    (hv : pilotServed (pilotTaken m w t rest) (pilotCtx t w r g) r n = v) (hm : ∀ va, v ≠ .miss va) :
    m.pilotServe t = some ((servedM (pilotTaken m w t rest) v).updGroup w t r.slot fun g => { g with wait := servedWait v }) := by
  obtain ⟨hw, hq, hn, hg, hu, hs, hc⟩ := ha
  have hf : (look (m.wt w t).groups r.slot).filter (·.uid == r.group) = some g := by rw [hg]; simp [hu]
  unfold M.pilotServe M.pilotGo
  simp only [hw, hq, hf, hs, Bool.false_or, decide_eq_true_eq, Nat.not_le.2 hc, if_false]
  change (match (match r.node with
    | some node => (pilotTaken m w t rest).serveLink (pilotCtx t w r g) r node []
    | none => (pilotTaken m w t rest).serveAdv (pilotCtx t w r g) r) with
    | .bad code addr d => some ((pilotTaken m w t rest).updGroup w t r.slot fun g => { g with wait := .failed code addr d })
    | .ok m2 => some (m2.updGroup w t r.slot fun g => { g with wait := .request .engine true })
    | .miss va => m.ask t w va) = _
  have hv' : (match r.node with
    | some node => (pilotTaken m w t rest).serveLink (pilotCtx t w r g) r node []
    | none => (pilotTaken m w t rest).serveAdv (pilotCtx t w r g) r) = v := by
    rw [hn, ← hv]; cases n <;> rfl
  rw [hv']
  cases v with
  | ok m2 => rfl
  | bad code a d => rfl
  | miss va => exact absurd rfl (hm va)

/-- The lane whose stores CHAIN.LINK makes. -/
def linkThread (r : PilotReq) (g : Group) : Thread := (look g.lanes r.lane).getD { idx := 0 }

/-- The chain's tail is the new node (R282). -/
def linked (m : M) (w t ch node : Nat) (k : Chain) : M := m.setWT w t ((m.wt w t).setChain ch { k with ltail := node })

theorem serveAdv_free {c : Ctx} (ho : ((m.wt c.w c.t).chain r.ch).owner = none) : m.serveAdv c r = .ok m := by
  unfold M.serveAdv; simp only [ho]

theorem serveAdv_own {c : Ctx} (ho : ((m.wt c.w c.t).chain r.ch).owner = some c.g.team) :
    m.serveAdv c r = .ok (m.setWT c.w c.t ((m.wt c.w c.t).setChain r.ch
      { (m.wt c.w c.t).chain r.ch with atail := ((m.wt c.w c.t).chain r.ch).ltail })) := by
  unfold M.serveAdv; simp only [ho]
  exact if_neg (not_not_intro rfl)

theorem serveAdv_other {c : Ctx} (ho : ((m.wt c.w c.t).chain r.ch).owner = some o) (hne : o ≠ c.g.team) :
    m.serveAdv c r = .bad .protection 0 17 := by
  unfold M.serveAdv; simp only [ho]
  exact if_pos hne

theorem serveLink_free {c : Ctx} (ho : ((m.wt c.w c.t).chain r.ch).owner = none)
    (hp : m.linkPlace c (linkThread r c.g) [] node = some (.inr place)) :
    m.serveLink c r node [] = .ok (linked (m.linkStore c (linkThread r c.g) r.lane node 0 place) c.w c.t r.ch node
      { (m.wt c.w c.t).chain r.ch with
        owner := some c.g.team, head := node, walk := node, atail := 0, last := 0, links := [] }) := by
  unfold linkThread at hp
  unfold M.serveLink
  simp only [ho, hp]
  rfl

theorem serveLink_own {c : Ctx} (ho : ((m.wt c.w c.t).chain r.ch).owner = some c.g.team)
    (hp : m.linkPlace c (linkThread r c.g) [] node = some (.inr place)) (h0 : ((m.wt c.w c.t).chain r.ch).ltail ≠ 0)
    (hp2 : m.linkPlace c (linkThread r c.g) [] ((m.wt c.w c.t).chain r.ch).ltail = some (.inr place2)) :
    m.serveLink c r node [] = .ok (linked ((m.linkStore c (linkThread r c.g) r.lane node 0 place).linkStore c (linkThread r c.g) r.lane
        ((m.wt c.w c.t).chain r.ch).ltail node place2) c.w c.t r.ch node
      (((m.wt c.w c.t).chain r.ch).relink ((m.wt c.w c.t).chain r.ch).ltail node)) := by
  unfold linkThread at hp hp2
  unfold M.serveLink
  simp only [ho, hp, hp2, h0, Option.isNone_some, Option.isSome_some, bne_self_eq_false, Bool.and_false, Bool.or_self,
    Bool.false_eq_true, if_false]
  rfl

theorem serveLink_other {c : Ctx} (ho : ((m.wt c.w c.t).chain r.ch).owner = some o) (hne : o ≠ c.g.team)
    (hp : m.linkPlace c (linkThread r c.g) [] node = some (.inr place)) :
    m.serveLink c r node [] = .bad .protection node 17 := by
  unfold linkThread at hp
  unfold M.serveLink
  have hother : (some o != some c.g.team) = true := by simpa using hne
  simp only [ho, hp, hother, Option.isNone_some, Option.isSome_some, Bool.and_self, Bool.or_true, if_true]
  rfl

theorem serveLink_bad {c : Ctx} (ho : ((m.wt c.w c.t).chain r.ch).owner = none)
    (hp : m.linkPlace c (linkThread r c.g) [] node = some (.inl (code, d))) :
    m.serveLink c r node [] = .bad code node d := by
  unfold linkThread at hp
  unfold M.serveLink
  simp only [ho, hp]
  rfl

theorem pilotTaken_chain (m : M) (w t : Nat) (rest : List PilotReq) (ch : Nat) :
    ((pilotTaken m w t rest).wt w t).chain ch = (m.wt w t).chain ch := by
  simp [pilotTaken, WT.chain]

end

theorem pilot_serves {p : M → Prop} {e : M → M} {t : Nat} (h : ∀ m, p m → m.pilotServe t = some (e m)) :
    Happens (.pilotRequestService t) p e :=
  happens_of (fun m => m.pilotServe t) (fun _ => rfl) h

/-- Settles O29: each request has one way to be served. -/
theorem pilotServesRequests : Obligations.PilotServesRequests := by
  intro t w node r rest g place place2 code d o k taken c th asked writes serves goesOn linked
  have hk (m : M) : ((taken m).wt w t).chain r.ch = k m := pilotTaken_chain ..
  refine ⟨?advance, ?empty, ?refuse, ?first, ?next, ?refuseLink, ?fault⟩
  case advance =>
    exact pilot_serves fun m ⟨ha, ho⟩ =>
      pilotServe_of_asked ha (serveAdv_own ((congrArg Chain.owner (hk m)).trans ho)) fun _ => nofun
  case empty =>
    exact pilot_serves fun m ⟨ha, ho⟩ =>
      pilotServe_of_asked ha (serveAdv_free ((congrArg Chain.owner (hk m)).trans ho)) fun _ => nofun
  case refuse =>
    exact pilot_serves fun m ⟨ha, ho, hne⟩ =>
      pilotServe_of_asked ha (serveAdv_other ((congrArg Chain.owner (hk m)).trans ho) hne) fun _ => nofun
  case first =>
    exact pilot_serves fun m ⟨ha, ho, hp⟩ =>
      pilotServe_of_asked ha (serveLink_free ((congrArg Chain.owner (hk m)).trans ho) hp) fun _ => nofun
  case next =>
    refine pilot_serves fun m ⟨ha, ho, hp, h0, hp2⟩ => ?_
    rw [← hk m] at ho h0 hp2
    exact pilotServe_of_asked ha (serveLink_own ho hp h0 hp2) fun _ => nofun
  case refuseLink =>
    exact pilot_serves fun m ⟨ha, ho, hne, hp⟩ =>
      pilotServe_of_asked ha (serveLink_other ((congrArg Chain.owner (hk m)).trans ho) hne hp) fun _ => nofun
  case fault =>
    exact pilot_serves fun m ⟨ha, ho, hp⟩ =>
      pilotServe_of_asked ha (serveLink_bad ((congrArg Chain.owner (hk m)).trans ho) hp) fun _ => nofun

/-! ## Semaphore requests -/

section

variable {m : M} {w t i : Nat} {rest : List SemReq} {slot op gid ch n : Nat} {fresh : Bool}

theorem semMet_of_first {r : SemReq} (hw : m.rowWorld t 1 = some w)
    (hq : ((m.wt w t).sem i).queue = r :: rest) (hr : r.fresh = false) : m.semMet t i = m.semFirst w t i := by
  unfold M.semMet
  rw [hw, Option.bind_some, if_neg (by simp [hq, hr])]

theorem semFirst_sacq (hq : ((m.wt w t).sem i).queue = .sacq slot op gid fresh :: rest) (he : ((m.wt w t).sem i).err = false)
    (hc : ((m.wt w t).sem i).count ≠ 0) :
    m.semFirst w t i = some (((m.setWT w t ((m.wt w t).setSem i
        { (m.wt w t).sem i with count := ((m.wt w t).sem i).count - 1, queue := rest })).updGroup w t slot fun g =>
      if g.uid != gid then g else { g with ops := g.ops.map fun p => if p.id = op then { p with ready := true } else p }).acquire t
        (((look (m.wt w t).groups slot).map (·.team)).getD 0)) := by
  unfold M.semFirst
  simp only [hq, he, hc, Bool.false_eq_true, if_false]

theorem semFirst_sacq_err (hq : ((m.wt w t).sem i).queue = .sacq slot op gid fresh :: rest) (he : ((m.wt w t).sem i).err = true) :
    m.semFirst w t i = some ((m.setWT w t ((m.wt w t).setSem i { (m.wt w t).sem i with err := false, queue := rest })).updGroup w t
      slot fun g =>
        if g.uid != gid then g
        else { g with
          ops := g.ops.map fun p => if p.id = op then { p with ready := true, lanes := [] } else p
          late := g.late ++ (g.ops.filter (·.id == op)).flatMap fun p =>
            p.lanes.map fun l => { op := op, pc := p.pc, fault := { lane := l, code := .copyFailed } } }) := by
  unfold M.semFirst
  simp only [hq, he, if_true]

theorem semFirst_join (hq : ((m.wt w t).sem i).queue = .join ch n fresh :: rest) (he : ((m.wt w t).sem i).err = false)
    (hn : n ≤ ((m.wt w t).sem i).count.toNat) :
    m.semFirst w t i = some ((m.setWT w t ((m.wt w t).setSem i
        { (m.wt w t).sem i with count := ((m.wt w t).sem i).count - BitVec.ofNat 32 n, queue := rest })).retire w t ch
      ((((m.wt w t).chain ch).nodes.head?).map (·.uid) |>.getD 0)) := by
  unfold M.semFirst
  simp only [hq, he, Nat.not_lt.2 hn, Bool.false_eq_true, if_false]

theorem semFirst_join_err (hq : ((m.wt w t).sem i).queue = .join ch n fresh :: rest) (he : ((m.wt w t).sem i).err = true) :
    m.semFirst w t i = some ((m.setWT w t ((m.wt w t).setSem i { (m.wt w t).sem i with err := false, queue := rest })).haltNode w t ch
      ((((m.wt w t).chain ch).nodes.head?).map (·.uid) |>.getD 0) .copyFailed 0) := by
  unfold M.semFirst
  simp only [hq, he, if_true]

end

/-- Settles O31: the request at the head is met, or fails while ERR is 1. -/
theorem semaphoreRequestsMet : Obligations.SemaphoreRequestsMet := by
  intro t w i rest sem here taken failed node
  refine ⟨fun slot op gid => ?acquires, fun slot op gid => ?sacqFails, fun ch n => ?joins, fun ch n => ?joinFails⟩
  case acquires =>
    exact happens_of (fun m => m.semMet t i) (fun _ => rfl) fun m ⟨⟨hw, hq⟩, he, hc⟩ =>
      (semMet_of_first hw hq rfl).trans (semFirst_sacq hq he hc)
  case sacqFails =>
    exact happens_of (fun m => m.semMet t i) (fun _ => rfl) fun m ⟨⟨hw, hq⟩, he⟩ =>
      (semMet_of_first hw hq rfl).trans (semFirst_sacq_err hq he)
  case joins =>
    exact happens_of (fun m => m.semMet t i) (fun _ => rfl) fun m ⟨⟨hw, hq⟩, he, hn⟩ =>
      (semMet_of_first hw hq rfl).trans (semFirst_join hq he hn)
  case joinFails =>
    exact happens_of (fun m => m.semMet t i) (fun _ => rfl) fun m ⟨⟨hw, hq⟩, he⟩ =>
      (semMet_of_first hw hq rfl).trans (semFirst_join_err hq he)

end Sys2Proof

/-! PROOFS. Faults taken and verdicts (O60). -/

namespace Sys2Proof

open Machine

/-! ## The report of a fault of the whole instruction -/

theorem laneBit_getLsbD (l i : Nat) : (1#32 <<< l).getLsbD i = (decide (i < 32) && decide (i = l)) := by
  rw [BitVec.getLsbD_shiftLeft, BitVec.getLsbD_one, Bool.eq_iff_iff]
  simp only [Bool.and_eq_true, decide_eq_true_eq, Bool.not_eq_true', decide_eq_false_iff_not]
  omega

theorem foldl_or_getLsbD (ls : List Nat) (a : W32) (i : Nat) :
    (ls.foldl (fun acc l => acc ||| (1#32 <<< l)) a).getLsbD i = (a.getLsbD i || (decide (i < 32) && decide (i ∈ ls))) := by
  induction ls generalizing a with
  | nil => simp
  | cons x xs ih =>
    rw [List.foldl_cons, ih, BitVec.getLsbD_or, laneBit_getLsbD, Bool.or_assoc, ← Bool.and_or_distrib_left, ← Bool.decide_or]
    simp only [List.mem_cons]

theorem laneMask_congr {as bs : List Nat} (h : ∀ i, i ∈ as ↔ i ∈ bs) : laneMask as = laneMask bs := by
  refine BitVec.eq_of_getLsbD_eq fun i hi => ?_
  unfold laneMask
  rw [foldl_or_getLsbD, foldl_or_getLsbD]
  simp [h]

/-- The numbers of lanes, in lane order. -/
def sortedLanes (ls : List (Nat × Thread)) : List Nat := (List.range 32).filter fun l => (ls.map (·.1)).contains l

theorem mem_sortedLanes {ls : List (Nat × Thread)} (hlt : ∀ x ∈ ls, x.1 < 32) (i : Nat) : i ∈ sortedLanes ls ↔ i ∈ ls.map (·.1) := by
  unfold sortedLanes
  rw [List.mem_filter, List.mem_range]
  refine ⟨fun h => by simpa using h.2, fun h => ⟨?_, by simpa using h⟩⟩
  obtain ⟨x, hx, rfl⟩ := List.mem_map.1 h
  exact hlt x hx

theorem sortedLanes_length {ls : List (Nat × Thread)} (hlt : ∀ x ∈ ls, x.1 < 32) (hnd : (ls.map (·.1)).Nodup) :
    (sortedLanes ls).length = ls.length := by
  have hp : (sortedLanes ls).Perm (ls.map (·.1)) :=
    (List.perm_ext_iff_of_nodup (List.Nodup.filter _ List.nodup_range) hnd).2 (mem_sortedLanes hlt)
  rw [hp.length_eq, List.length_map]

/-- The fault of one lane in a fault of the whole instruction. -/
def faultOf (code : Code) (addr detail l : Nat) : LaneFault := { lane := l, code := code, addr := addr, detail := detail }

theorem find_whole (ls : List (Nat × Thread)) (code : Code) (addr detail l : Nat) :
    (whole ls code addr detail).find? (fun f => f.lane == l) =
      if (ls.map (·.1)).contains l then some (faultOf code addr detail l) else none := by
  induction ls with
  | nil => rfl
  | cons x ls ih =>
    have hcons : whole (x :: ls) code addr detail = faultOf code addr detail x.1 :: whole ls code addr detail := rfl
    rw [hcons, List.find?_cons, ih, List.map_cons, List.contains_cons]
    by_cases hx : x.1 = l
    · subst hx; simp [faultOf]
    · have h1 : ((faultOf code addr detail x.1).lane == l) = false := beq_eq_false_iff_ne.2 hx
      have h2 : (l == x.1) = false := beq_eq_false_iff_ne.2 (Ne.symm hx)
      rw [h1, h2, Bool.false_or]

theorem reported_whole {g : Group} (hl : g.late = []) (pc : Va) (ls : List (Nat × Thread)) (code : Code) (addr detail : Nat) :
    g.reported pc (whole ls code addr detail) = (sortedLanes ls).map fun l => (pc, faultOf code addr detail l) := by
  have hlate (l : Nat) : g.lateAt l = none := by unfold Group.lateAt; rw [hl]; rfl
  unfold Group.reported sortedLanes
  simp only [find_whole, hlate]
  induction List.range 32 with
  | nil => rfl
  | cons i is ih =>
    by_cases h : (ls.map (·.1)).contains i = true
    · rw [List.filterMap_cons, if_pos h, List.filter_cons_of_pos h, List.map_cons, List.map_cons, ih]
    · rw [List.filterMap_cons, if_neg h, List.filter_cons_of_neg h, ih]

/-- The one report of a fault of the whole instruction (R318). -/
def wholeReport (pc : Va) (code : Code) (addr detail : Nat) (ls : List (Nat × Thread)) : Report :=
  { pc := pc, code := code, page := addr / 65536, faults := (sortedLanes ls).map (faultOf code addr detail) }

theorem reports_foldl (pc : Va) (code : Code) (addr detail : Nat) (ls : List Nat) (fs : List LaneFault) :
    (ls.map fun l => (pc, faultOf code addr detail l)).foldl (fun acc (pc, f) => addReport pc f acc)
        [{ pc := pc, code := code, page := addr / 65536, faults := fs }] =
      [{ pc := pc, code := code, page := addr / 65536, faults := fs ++ ls.map (faultOf code addr detail) }] := by
  induction ls generalizing fs with
  | nil => simp
  | cons l ls ih =>
    have hadd : addReport pc (faultOf code addr detail l) [{ pc := pc, code := code, page := addr / 65536, faults := fs }] =
        [{ pc := pc, code := code, page := addr / 65536, faults := fs ++ [faultOf code addr detail l] }] :=
      if_pos (by simp [faultOf])
    rw [List.map_cons, List.foldl_cons]
    dsimp only
    rw [hadd, ih, List.append_assoc]
    rfl

theorem reports_whole {pc : Va} {code : Code} {addr detail : Nat} {ls : List (Nat × Thread)} (hne : sortedLanes ls ≠ []) :
    reports ((sortedLanes ls).map fun l => (pc, faultOf code addr detail l)) = [wholeReport pc code addr detail ls] := by
  unfold wholeReport
  cases hs : sortedLanes ls with
  | nil => exact absurd hs hne
  | cons l ls => exact reports_foldl pc code addr detail ls [faultOf code addr detail l]

end Sys2Proof

namespace Sys2Proof.Machine

/-! ## What changes one world's part of one tile alone -/

/-- Two machines that differ only in one world's part of one tile, and in what tiles hold beside their worlds. -/
structure M.OnlyAt (w t : Nat) (m m' : M) : Prop where
  rest : { m' with wts := m.wts, tiles := m.tiles } = m
  wts : ∀ k, k ≠ wtKey w t → mget {} m'.wts k = mget {} m.wts k

section

variable {w t slot : Nat} {m m' : M}

theorem M.OnlyAt.refl (w t : Nat) (m : M) : M.OnlyAt w t m m := ⟨rfl, fun _ _ => rfl⟩

theorem M.OnlyAt.trans {a b c : M} (h1 : M.OnlyAt w t a b) (h2 : M.OnlyAt w t b c) : M.OnlyAt w t a c :=
  ⟨by rw [← h1.rest, ← h2.rest], fun k hk => (h2.wts k hk).trans (h1.wts k hk)⟩

theorem M.setWT_onlyAt (m : M) (w t : Nat) (x : WT) : M.OnlyAt w t m (m.setWT w t x) :=
  ⟨rfl, fun _ hk => mget_put_ne _ _ _ hk⟩

theorem M.setTile_onlyAt (m : M) (w t k : Nat) (x : Tile) : M.OnlyAt w t m (m.setTile k x) := ⟨rfl, fun _ _ => rfl⟩

theorem M.updGroup_onlyAt (m : M) (w t slot : Nat) (f : Group → Group) : M.OnlyAt w t m (m.updGroup w t slot f) := by
  unfold M.updGroup; split
  · exact M.setWT_onlyAt ..
  · exact .refl ..

theorem M.noteStores_onlyAt (m : M) (w t slot : Nat) (lanes : List Nat) : M.OnlyAt w t m (m.noteStores w t slot lanes) := by
  unfold M.noteStores; dsimp only; split
  · exact .refl ..
  · split
    · exact .refl ..
    · exact M.setWT_onlyAt ..

theorem M.freeGroup_onlyAt (m : M) (w t slot : Nat) : M.OnlyAt w t m (m.freeGroup w t slot) := by
  unfold M.freeGroup; dsimp only; split
  · refine M.OnlyAt.trans ?_ (M.setWT_onlyAt _ _ _ _)
    unfold M.noteLeft; dsimp only; split
    · exact .refl ..
    · exact M.setTile_onlyAt ..
  · exact .refl ..

theorem M.roomTaken_onlyAt (m : M) (w t slot : Nat) : M.OnlyAt w t m (m.roomTaken w t slot) := M.setWT_onlyAt ..

/-- Stores noted for pilot nodes change chains and lines that go home. -/
theorem M.noteStores_wt (m : M) (w t slot : Nat) (lanes : List Nat) :
    ∃ ch fl, (m.noteStores w t slot lanes).wt w t = { m.wt w t with chains := ch, flush := fl } := by
  unfold M.noteStores; dsimp only; split
  · exact ⟨_, _, rfl⟩
  · split
    · exact ⟨_, _, rfl⟩
    · exact ⟨_, _, M.wt_setWT_self ..⟩

theorem M.noteLeft_wt (m : M) (w t slot : Nat) (g : Group) : (m.noteLeft w t slot g).wts = m.wts := by
  unfold M.noteLeft; dsimp only; split <;> rfl

theorem M.freeGroup_groups (m : M) (w t slot : Nat) : look ((m.freeGroup w t slot).wt w t).groups slot = none := by
  unfold M.freeGroup; dsimp only; split
  · simp [WT.gcUrecs, look_del_self]
  · assumption

/-- What a freed slot leaves of its tile: everything but the group, its rows, its requests and unused uniform records. -/
theorem M.freeGroup_wt (m : M) (w t slot : Nat) :
    ∃ gs us ur gq aq ad, (m.freeGroup w t slot).wt w t =
      { m.wt w t with groups := gs, used := us, urecs := ur, growq := gq, anvilq := aq, admits := ad } := by
  unfold M.freeGroup; dsimp only; split
  · exact ⟨_, _, _, _, _, _, M.wt_setWT_self ..⟩
  · exact ⟨_, _, _, _, _, _, rfl⟩

/-! ## Parking -/

/-- What the landing keeps of a parked thread (R309). -/
def parkedThread (g : Group) (urec born : Nat) (th : Thread) : Waiting :=
  { th := { th with resv := none }, pc := th.regpc, allot := g.allot, l := g.allot, team := g.team, urec := urec, born := born }

/-- A group without the lanes that were parked (R309). -/
def Group.withoutParked (g : Group) (lanes : List Nat) : Group :=
  { g with lanes := g.lanes.filter fun (l, _) => !lanes.contains l
           gone := (g.lanes.filter fun (l, _) => lanes.contains l).foldl (fun acc (l, _) => put acc l .parked) g.gone
           late := g.late.filter fun f => !lanes.contains f.fault.lane }

/-- A tile's part with lanes of a group parked under a token. -/
def WT.parkIn (wt : WT) (born slot token : Nat) (lanes : List Nat) (g : Group) : WT :=
  let u := wt.urecFor g.team g.k
  let old : Parked := mget { token := token, team := g.team, ths := [] } u.2.parked token
  let ths := (g.lanes.filter fun (l, _) => lanes.contains l).map fun (_, th) => parkedThread g u.1 born th
  { u.2 with parked := put u.2.parked token { old with ths := old.ths ++ ths }, groups := put u.2.groups slot (g.withoutParked lanes) }

theorem WT.urecFor_eq (wt : WT) (team : Nat) (k : AMap W64) : ∃ ur, (wt.urecFor team k).2 = { wt with urecs := ur } := by
  unfold WT.urecFor; split
  · exact ⟨_, rfl⟩
  · exact ⟨_, rfl⟩

/-- The number of a uniform record depends on the uniform records alone. -/
theorem WT.urecFor_congr {a b : WT} (h : a.urecs = b.urecs) (team : Nat) (k : AMap W64) :
    (a.urecFor team k).1 = (b.urecFor team k).1 := by
  unfold WT.urecFor; rw [h]; split <;> rfl

variable {g : Group} {token : Nat} {lanes : List Nat}

theorem M.park_eq (hg : look ((m.noteStores w t slot lanes).wt w t).groups slot = some g) :
    m.park w t slot token lanes =
      let m1 := (m.noteStores w t slot lanes).setWT w t
        (((m.noteStores w t slot lanes).wt w t).parkIn (m.noteStores w t slot lanes).uid slot token lanes g)
      if (g.lanes.filter fun (l, _) => !lanes.contains l).isEmpty then m1.freeGroup w t slot else m1 := by
  unfold M.park; dsimp only; rw [hg]; rfl

theorem M.noteStores_groups (m : M) (w t slot : Nat) (lanes : List Nat) :
    ((m.noteStores w t slot lanes).wt w t).groups = (m.wt w t).groups := by
  obtain ⟨ch, fl, h⟩ := M.noteStores_wt m w t slot lanes
  rw [h]

theorem M.OnlyAt.uid_eq (h : M.OnlyAt w t m m') : m'.uid = m.uid := by rw [← h.rest]
theorem M.OnlyAt.worlds_eq (h : M.OnlyAt w t m m') : m'.worlds = m.worlds := by rw [← h.rest]
theorem M.OnlyAt.launches_eq (h : M.OnlyAt w t m m') : m'.launches = m.launches := by rw [← h.rest]
theorem M.OnlyAt.teams_eq (h : M.OnlyAt w t m m') : m'.teams = m.teams := by rw [← h.rest]
theorem M.OnlyAt.fmem_eq (h : M.OnlyAt w t m m') : m'.fmem = m.fmem := by rw [← h.rest]
theorem M.OnlyAt.hmem_eq (h : M.OnlyAt w t m m') : m'.hmem = m.hmem := by rw [← h.rest]

theorem M.park_onlyAt (m : M) (w t slot token : Nat) (lanes : List Nat) : M.OnlyAt w t m (m.park w t slot token lanes) := by
  cases hg : look ((m.noteStores w t slot lanes).wt w t).groups slot with
  | none =>
    have h : m.park w t slot token lanes = m.noteStores w t slot lanes := by unfold M.park; dsimp only; rw [hg]
    rw [h]; exact M.noteStores_onlyAt ..
  | some g =>
    rw [M.park_eq hg]
    have h := (M.noteStores_onlyAt m w t slot lanes).trans (M.setWT_onlyAt _ w t
      (((m.noteStores w t slot lanes).wt w t).parkIn (m.noteStores w t slot lanes).uid slot token lanes g))
    dsimp only
    split
    · exact h.trans (M.freeGroup_onlyAt ..)
    · exact h

/-- The threads stand parked under their token (R309). -/
theorem M.park_parked (hg : look (m.wt w t).groups slot = some g) (ht : look (m.wt w t).parked token = none) :
    look ((m.park w t slot token lanes).wt w t).parked token =
      some { token := token, team := g.team, ths := (g.lanes.filter fun (l, _) => lanes.contains l).map fun (_, th) =>
        parkedThread g ((m.wt w t).urecFor g.team g.k).1 m.uid th } := by
  obtain ⟨ch, fl, hn⟩ := M.noteStores_wt m w t slot lanes
  have hu : (((m.noteStores w t slot lanes).wt w t).urecFor g.team g.k).1 = ((m.wt w t).urecFor g.team g.k).1 :=
    WT.urecFor_congr (by rw [hn]) ..
  obtain ⟨ur, hur⟩ := WT.urecFor_eq ((m.noteStores w t slot lanes).wt w t) g.team g.k
  have hin : look (((m.noteStores w t slot lanes).wt w t).parkIn (m.noteStores w t slot lanes).uid slot token lanes g).parked token =
      some { token := token, team := g.team, ths := (g.lanes.filter fun (l, _) => lanes.contains l).map fun (_, th) =>
        parkedThread g ((m.wt w t).urecFor g.team g.k).1 m.uid th } := by
    unfold WT.parkIn
    dsimp only
    rw [hu, hur, (M.noteStores_onlyAt m w t slot lanes).uid_eq, look_put_self, hn]
    simp [mget, ht]
  rw [M.park_eq (by rw [M.noteStores_groups]; exact hg)]
  dsimp only
  split
  · obtain ⟨gs, us, ur, gq, aq, ad, hf⟩ := M.freeGroup_wt ((m.noteStores w t slot lanes).setWT w t
      (((m.noteStores w t slot lanes).wt w t).parkIn (m.noteStores w t slot lanes).uid slot token lanes g)) w t slot
    rw [hf, M.wt_setWT_self]
    exact hin
  · rw [M.wt_setWT_self]; exact hin

/-- The group goes on without the parked lanes, or its slot is free (R309). -/
theorem M.park_groups (hg : look (m.wt w t).groups slot = some g) :
    look ((m.park w t slot token lanes).wt w t).groups slot =
      if (g.withoutParked lanes).lanes = [] then none else some (g.withoutParked lanes) := by
  rw [M.park_eq (by rw [M.noteStores_groups]; exact hg)]
  dsimp only
  by_cases h : (g.withoutParked lanes).lanes = []
  · rw [if_pos h, if_pos (by simpa [Group.withoutParked] using h), M.freeGroup_groups]
  · rw [if_neg h, if_neg (by simpa [Group.withoutParked] using h), M.wt_setWT_self]
    exact look_put_self ..

end

end Sys2Proof.Machine

namespace Sys2Proof

open Machine

/-! ## Taking a fault of the whole instruction -/

section

variable {m : M} {w t slot li tok kind : Nat} {g : Group} {l : Launch} {pc : Va} {code : Code} {addr detail : Nat}
  {ls : List (Nat × Thread)}

theorem recOf_lanes (hc : code ≠ .formatDivergence) (hlt : ∀ x ∈ ls, x.1 < 32) :
    (m.recOf t slot g (wholeReport pc code addr detail ls) tok kind).lanes = laneMask (ls.map (·.1)) := by
  have hmap : (wholeReport pc code addr detail ls).faults.map (·.lane) = sortedLanes ls := by
    simp [wholeReport, faultOf, Function.comp_def]
  have hsplit : ((wholeReport pc code addr detail ls).code == Code.formatDivergence) = false := beq_eq_false_iff_ne.2 hc
  unfold M.recOf
  dsimp only
  rw [hsplit, hmap]
  exact laneMask_congr (mem_sortedLanes hlt)

theorem recOf_addr (hc : code ≠ .formatDivergence) (hne : sortedLanes ls ≠ []) :
    (m.recOf t slot g (wholeReport pc code addr detail ls) tok kind).addr = addr := by
  have hsplit : ((wholeReport pc code addr detail ls).code == Code.formatDivergence) = false := beq_eq_false_iff_ne.2 hc
  unfold M.recOf
  dsimp only
  rw [hsplit]
  unfold wholeReport
  cases hs : sortedLanes ls with
  | nil => exact absurd hs hne
  | cons i is => rfl

theorem takeFaults_fatal (hne : sortedLanes ls ≠ []) (hg : look (m.wt w t).groups slot = some g)
    (hl : m.launchOf g.team = some (li, l)) (he : l.ending = false) (hc : code.cls = .fatal) :
    m.takeFaults w t slot ((sortedLanes ls).map fun i => (pc, faultOf code addr detail i)) =
      m.fatal w li (m.recOf t slot g (wholeReport pc code addr detail ls) 0 1) := by
  have hrc : (wholeReport pc code addr detail ls).code.cls = .fatal := hc
  unfold M.takeFaults
  rw [reports_whole hne]
  simp only [List.foldl_cons, List.foldl_nil, hg, hl, he, hrc, Bool.false_eq_true, if_false]

/-- The machine with the next token of the world open, and the record of the fault queued (R313, R318). -/
def reported (m : M) (w t slot li : Nat) (g : Group) (r : Report) : M :=
  ((m.newToken w t li).2.queueRec w ((m.newToken w t li).2.recOf t slot g r (m.world w).nextTok 0) li).2

theorem takeFaults_replayable (hne : sortedLanes ls ≠ []) (hg : look (m.wt w t).groups slot = some g)
    (hl : m.launchOf g.team = some (li, l)) (he : l.ending = false) (hc : code.cls = .replayable) :
    m.takeFaults w t slot ((sortedLanes ls).map fun i => (pc, faultOf code addr detail i)) =
      ((reported m w t slot li g (wholeReport pc code addr detail ls)).park w t slot (m.world w).nextTok (sortedLanes ls)).waitRec
        w t slot m.uid := by
  have hrc : (wholeReport pc code addr detail ls).code.cls = .replayable := hc
  have hmap : (wholeReport pc code addr detail ls).faults.map (·.lane) = sortedLanes ls := by
    simp [wholeReport, faultOf, Function.comp_def]
  unfold M.takeFaults
  rw [reports_whole hne]
  simp only [List.foldl_cons, List.foldl_nil, hg, hl, he, hrc, Bool.false_eq_true, if_false, hmap]
  rfl

theorem reported_world (r : Report) :
    (reported m w t slot li g r).world w = { m.world w with
      nextTok := if (m.world w).nextTok + 1 = 2 ^ 32 then 1 else (m.world w).nextTok + 1
      tokens := put (m.world w).tokens (m.world w).nextTok { tile := t, launch := li }
      recs := (m.world w).recs ++ [{ id := m.uid, launch := li
                                     fr := (m.newToken w t li).2.recOf t slot g r (m.world w).nextTok 0 }] } := by
  unfold reported M.queueRec M.newToken M.fresh
  simp [M.world]

theorem reported_wts (r : Report) : (reported m w t slot li g r).wts = m.wts := rfl

theorem reported_launches (r : Report) : (reported m w t slot li g r).launches = m.launches := rfl

end

open Machine

section

variable {m m' : M} {c : Ctx} {code : Code} {addr detail li : Nat} {la : Launch} {ls : List (Nat × Thread)}

theorem leaveWait_none {w t slot n : Nat} {g : Group} (hr : 5 ≤ (m.wt w t).restored) (hll : g.anyLL = false)
    (hroom : m.hasRoom w t slot ((m.wt w t).roomFor g n) = true) : m.leaveWait w t slot g n = none := by
  unfold M.leaveWait
  simp only [Nat.not_lt.2 hr, hll, hroom, Bool.not_true, Bool.false_eq_true, if_false]

theorem parkWait_whole_fatal (hl : c.g.late = []) (hc : code.cls = .fatal) : m.parkWait c (whole ls code addr detail) = none := by
  unfold M.parkWait
  rw [reported_whole hl]
  refine if_neg (Bool.eq_false_iff.1 (List.any_eq_false.2 fun x hx => ?_))
  obtain ⟨i, -, rfl⟩ := List.mem_map.1 hx
  simp [faultOf, hc]

theorem parkWait_whole_none (hl : c.g.late = []) (hw : m.leaveWait c.w c.t c.slot c.g (sortedLanes ls).length = none) :
    m.parkWait c (whole ls code addr detail) = none := by
  unfold M.parkWait
  rw [reported_whole hl]
  simp only [List.length_map, hw, ite_self]

theorem trapOr_whole (hl : c.g.late = []) (hp : m.parkWait c (whole ls code addr detail) = none) :
    m.trapOr c (whole ls code addr detail) m' = (m'.roomTaken c.w c.t c.slot).takeFaults c.w c.t c.slot
      ((sortedLanes ls).map fun i => (c.g.pc, faultOf code addr detail i)) := by
  unfold M.trapOr
  rw [hp, reported_whole hl]

theorem roomTaken_launchOf (m : M) (w t slot team : Nat) : (m.roomTaken w t slot).launchOf team = m.launchOf team := rfl

theorem roomTaken_groups (m : M) (w t slot : Nat) : ((m.roomTaken w t slot).wt w t).groups = (m.wt w t).groups := by
  simp [M.roomTaken]

theorem roomTaken_parked (m : M) (w t slot : Nat) : ((m.roomTaken w t slot).wt w t).parked = (m.wt w t).parked := by
  simp [M.roomTaken]

theorem roomTaken_urecs (m : M) (w t slot : Nat) : ((m.roomTaken w t slot).wt w t).urecs = (m.wt w t).urecs := by
  simp [M.roomTaken]

theorem fatal_eq {w : Nat} {fr : FRec} (hl : look m.launches li = some la) (he : la.ending = false) :
    m.fatal w li fr = (m.queueRec w fr li).2.setLaunch li { la with ending := true, status := 5 } := by
  unfold M.fatal
  rw [hl]
  exact if_neg (Bool.eq_false_iff.1 he)

theorem queueRec_recs (m : M) (w li : Nat) (fr : FRec) :
    ((m.queueRec w fr li).2.world w).recs = (m.world w).recs ++ [{ id := m.uid, fr := fr, launch := li }] := by
  unfold M.queueRec M.fresh; simp [M.world]

theorem sortedLanes_ne_nil (hlt : ∀ x ∈ ls, x.1 < 32) (hne : ls ≠ []) : sortedLanes ls ≠ [] := by
  obtain ⟨x, hx⟩ := List.exists_mem_of_ne_nil ls hne
  exact List.ne_nil_of_mem ((mem_sortedLanes hlt x.1).2 (List.mem_map_of_mem hx))

theorem waitRec_wts_parked (m : M) (w t slot r : Nat) : ((m.waitRec w t slot r).wt w t).parked = (m.wt w t).parked := by
  unfold M.waitRec M.updGroup; split <;> simp

/-- Lanes of a group parked under a token of their own (R309). -/
def parkedOf (token : Nat) (g : Group) (lanes : List Nat) (urec born : Nat) : Parked :=
  { token := token, team := g.team,
    ths := (g.lanes.filter fun (l, _) => lanes.contains l).map fun (_, th) => parkedThread g urec born th }

/-- What a replayable fault of the whole instruction makes: its token, its record, its parked threads and the group that
waits for the record (R309, R313, R318, R319). -/
structure Replayed (m m1 : M) (w t slot li : Nat) (g : Group) (code : Code) (pc : Va) (addr : Nat) (ls : List (Nat × Thread))
    (fr : FRec) : Prop where
  token : look (m1.world w).tokens (m.world w).nextTok = some { tile := t, launch := li }
  recs : (m1.world w).recs = (m.world w).recs ++ [{ id := m.uid, fr := fr, launch := li }]
  fr_code : fr.code = code
  fr_pc : fr.pc = pc
  fr_kind : fr.kind = 0
  fr_token : fr.token = (m.world w).nextTok
  fr_slot : fr.group = slot
  fr_lanes : fr.lanes = laneMask (ls.map (·.1))
  fr_addr : fr.addr = addr
  launches : m1.launches = m.launches
  parked : look (m1.wt w t).parked (m.world w).nextTok = some (parkedOf (m.world w).nextTok g (sortedLanes ls)
    ((m.wt w t).urecFor g.team g.k).1 (m.uid + 1))
  groups : look (m1.wt w t).groups slot = if (g.withoutParked (sortedLanes ls)).lanes = [] then none
    else some { g.withoutParked (sortedLanes ls) with record := some m.uid, wait := if g.wait.begun then g.wait else .none }

theorem replayed_of_takeFaults {w t slot : Nat} {g : Group} {pc : Va} (hlt : ∀ x ∈ ls, x.1 < 32) (hne : sortedLanes ls ≠ [])
    (hg : look (m.wt w t).groups slot = some g) (hl : m.launchOf g.team = some (li, la)) (he : la.ending = false)
    (hc : code.cls = .replayable) (hp : look (m.wt w t).parked (m.world w).nextTok = none) :
    ∃ fr, Replayed m (m.takeFaults w t slot ((sortedLanes ls).map fun i => (pc, faultOf code addr detail i))) w t slot li g code pc
      addr ls fr := by
  have hfd : code ≠ .formatDivergence := by rintro rfl; exact absurd hc (by decide)
  rw [takeFaults_replayable hne hg hl he hc]
  set r := wholeReport pc code addr detail ls
  have hpark := M.park_onlyAt (reported m w t slot li g r) w t slot (m.world w).nextTok (sortedLanes ls)
  have hwait := M.updGroup_onlyAt ((reported m w t slot li g r).park w t slot (m.world w).nextTok (sortedLanes ls)) w t slot
    fun g => { g with record := some m.uid, wait := if g.wait.begun then g.wait else .none }
  have hall := hpark.trans hwait
  have hworld : (((reported m w t slot li g r).park w t slot (m.world w).nextTok (sortedLanes ls)).waitRec w t slot m.uid).world w =
      (reported m w t slot li g r).world w := by
    unfold M.world; exact congrArg (fun ws => mget {} ws w) hall.worlds_eq
  refine ⟨(m.newToken w t li).2.recOf t slot g r (m.world w).nextTok 0, ?token, ?recs, rfl, rfl, rfl, rfl, rfl,
    recOf_lanes hfd hlt, recOf_addr hfd hne, hall.launches_eq, ?parked, ?groups⟩
  case token => rw [hworld, reported_world]; exact look_put_self ..
  case recs => rw [hworld, reported_world]
  case parked =>
    rw [waitRec_wts_parked]
    exact M.park_parked (m := reported m w t slot li g r) hg hp
  case groups =>
    refine (updGroup_map ..).trans ?_
    rw [M.park_groups (m := reported m w t slot li g r) hg]
    split
    · rfl
    · rfl

end

/-- A fatal fault of lanes of a group: its record is queued and the launch is ending (R315). -/
theorem reject_fatal {m : M} {c : Ctx} {code : Code} {addr detail li : Nat} {la : Launch} {ls : List (Nat × Thread)}
    (hlt : ∀ x ∈ ls, x.1 < 32) (hne : ls ≠ []) (hlate : c.g.late = []) (hg : look (m.wt c.w c.t).groups c.slot = some c.g)
    (hl : m.launchOf c.g.team = some (li, la)) (hla : look m.launches li = some la) (he : la.ending = false)
    (hc : code.cls = .fatal) :
    m.reject c ls code addr detail = (((m.roomTaken c.w c.t c.slot).queueRec c.w
      ((m.roomTaken c.w c.t c.slot).recOf c.t c.slot c.g (wholeReport c.g.pc code addr detail ls) 0 1) li).2).setLaunch li
        { la with ending := true, status := 5 } := by
  unfold M.reject
  rw [trapOr_whole hlate (parkWait_whole_fatal hlate hc),
    takeFaults_fatal (sortedLanes_ne_nil hlt hne) (by rw [roomTaken_groups]; exact hg) (by rw [roomTaken_launchOf]; exact hl) he hc]
  exact fatal_eq hla he

theorem recOf_seq {m : M} {t slot tok kind li : Nat} {g : Group} {r : Report} {la : Launch} (hl : m.launchOf g.team = some (li, la)) :
    (m.recOf t slot g r tok kind).seq = la.seq := by
  unfold M.recOf; dsimp only; rw [hl]; rfl

theorem sortedLanes_contains {ls : List (Nat × Thread)} (hlt : ∀ x ∈ ls, x.1 < 32) :
    (sortedLanes ls).contains = (ls.map (·.1)).contains := by
  funext i
  rw [Bool.eq_iff_iff, List.contains_iff_mem, List.contains_iff_mem]
  exact mem_sortedLanes hlt i

theorem withoutParked_lanes {g : Group} {ls : List (Nat × Thread)} (hlt : ∀ x ∈ ls, x.1 < 32) :
    (g.withoutParked (sortedLanes ls)).lanes = g.lanes.filter fun x => !(ls.map (·.1)).contains x.1 := by
  unfold Group.withoutParked; rw [sortedLanes_contains hlt]

theorem parkedOf_ths {g : Group} {ls : List (Nat × Thread)} (hlt : ∀ x ∈ ls, x.1 < 32) (token urec born : Nat) :
    (parkedOf token g (sortedLanes ls) urec born).ths =
      (g.lanes.filter fun x => (ls.map (·.1)).contains x.1).map fun x => parkedThread g urec born x.2 := by
  unfold parkedOf; rw [sortedLanes_contains hlt]

theorem resolve_fatal_world {m : M} {w token : Nat} {tk : Token} (ht : look (m.world w).tokens token = some tk) :
    (m.resolve w token .fatal).world w = { m.world w with tokens := del (m.world w).tokens token } := by
  rw [resolve_fatal ht]
  unfold M.updLaunch withoutToken
  split
  · exact M.world_setWorld_self ..
  · exact M.world_setWorld_self ..

theorem resolve_fatal_launch {m : M} {w token : Nat} {tk : Token} {l : Launch} (ht : look (m.world w).tokens token = some tk)
    (hl : look m.launches tk.launch = some l) :
    look (m.resolve w token .fatal).launches tk.launch = some { l with ending := true, status := 5 } := by
  rw [resolve_fatal ht]
  unfold M.updLaunch
  rw [show look (withoutToken m w token).launches tk.launch = some l from hl]
  exact look_put_self ..

/-- Settles O60: a fault is taken with its one report, and a verdict resolves its token. -/
theorem faultsAndVerdicts : Obligations.FaultsAndVerdicts := by
  intro m c code addr detail li la l0 ls m1 mask stands tok parked
  refine ⟨?fatal, ?replay, fun w token v => resolve_none, ?verdict⟩
  case fatal =>
    intro ⟨hg, hl, hla, he, hlate, _, _, _, hlt⟩ hc
    have hm1 : m1 = _ := reject_fatal hlt (List.cons_ne_nil _ _) hlate hg hl hla he hc
    refine ⟨m.uid, (m.roomTaken c.w c.t c.slot).recOf c.t c.slot c.g (wholeReport c.g.pc code addr detail (l0 :: ls)) 0 1, ?_, ?_, rfl, rfl,
      rfl, rfl, rfl, recOf_seq (m := m.roomTaken c.w c.t c.slot) hl, ?_, ?_⟩
    · rw [hm1]; exact look_put_self ..
    · rw [hm1]; exact queueRec_recs ..
    · exact fun hfd => ⟨recOf_lanes hfd hlt, recOf_addr hfd (sortedLanes_ne_nil hlt (List.cons_ne_nil _ _))⟩
    · rw [hm1]
      exact (congrArg (fun gs => look gs c.slot) (roomTaken_groups m c.w c.t c.slot)).trans hg
  case replay =>
    intro ⟨hg, hl, hla, he, hlate, hmem, hnd, hndl, hlt⟩ hc hp hr hll hroom
    have hw : m.leaveWait c.w c.t c.slot c.g (sortedLanes (l0 :: ls)).length = none := by
      rw [sortedLanes_length hlt hndl]; exact leaveWait_none hr hll hroom
    have hm1 : m1 = _ := trapOr_whole hlate (parkWait_whole_none hlate hw)
    obtain ⟨fr, h⟩ := replayed_of_takeFaults (m := m.roomTaken c.w c.t c.slot) (addr := addr) (detail := detail) (pc := c.g.pc) hlt
      (sortedLanes_ne_nil hlt (List.cons_ne_nil _ _)) (by rw [roomTaken_groups]; exact hg) (by rw [roomTaken_launchOf]; exact hl) he hc
      (by rw [roomTaken_parked]; exact hp)
    rw [← hm1] at h
    refine ⟨m.uid, fr, h.token, h.recs, h.fr_code, h.fr_pc, h.fr_kind, h.fr_token, h.fr_lanes, h.fr_addr, ?_, ⟨_, h.parked, rfl, ?_⟩, ?_, ?_⟩
    · rw [h.launches]; exact hla
    · rw [parkedOf_ths hlt, List.map_map]
      simp only [parked, Bool.not_not, WT.urecFor_congr (roomTaken_urecs m c.w c.t c.slot)]
      rfl
    · intro hnil
      rw [h.groups, if_pos ((withoutParked_lanes hlt).trans hnil)]
    · intro hsome
      refine ⟨_, h.groups.trans (if_neg fun hnil => hsome ((withoutParked_lanes hlt).symm.trans hnil)), withoutParked_lanes hlt, rfl, rfl,
        rfl⟩
  case verdict =>
    exact fun w token tk ht => ⟨resolve_resume ht, resolve_kill ht, resolve_fatal_world ht, fun l => resolve_fatal_launch ht⟩

end Sys2Proof

/-! PROOFS. TRAP (O22). -/

namespace Sys2Proof.Machine

/-! ## What leaves every byte of memory -/

/-- Two worlds' parts of a tile with the same scratchpad, operand memory and stack cache. -/
structure WT.SameMem (a b : WT) : Prop where
  scratch : b.scratch = a.scratch
  omem : b.omem = a.omem
  stackc : b.stackc = a.stackc

/-- Two machines with the same memories. -/
structure M.SameMem (m m' : M) : Prop where
  fmem : m'.fmem = m.fmem
  hmem : m'.hmem = m.hmem
  wts : ∀ k, (mget {} m.wts k).SameMem (mget {} m'.wts k)

theorem WT.SameMem.refl (a : WT) : a.SameMem a := ⟨rfl, rfl, rfl⟩

theorem WT.SameMem.trans {a b c : WT} (h1 : a.SameMem b) (h2 : b.SameMem c) : a.SameMem c :=
  ⟨h2.scratch.trans h1.scratch, h2.omem.trans h1.omem, h2.stackc.trans h1.stackc⟩

theorem M.SameMem.refl (m : M) : m.SameMem m := ⟨rfl, rfl, fun _ => .refl _⟩

theorem M.SameMem.trans {a b c : M} (h1 : a.SameMem b) (h2 : b.SameMem c) : a.SameMem c :=
  ⟨h2.fmem.trans h1.fmem, h2.hmem.trans h1.hmem, fun k => (h1.wts k).trans (h2.wts k)⟩

theorem M.OnlyAt.sameMem {w t : Nat} {m m' : M} (h : M.OnlyAt w t m m') (hwt : (m.wt w t).SameMem (m'.wt w t)) : m.SameMem m' := by
  refine ⟨h.fmem_eq, h.hmem_eq, fun k => ?_⟩
  by_cases hk : k = wtKey w t
  · subst hk; exact hwt
  · rw [h.wts k hk]; exact .refl _

theorem M.setWT_sameMem {m : M} {w t : Nat} {x : WT} (h : (m.wt w t).SameMem x) : m.SameMem (m.setWT w t x) :=
  (M.setWT_onlyAt m w t x).sameMem (by rw [M.wt_setWT_self]; exact h)

theorem M.updGroup_sameMem (m : M) (w t slot : Nat) (f : Group → Group) : m.SameMem (m.updGroup w t slot f) := by
  unfold M.updGroup; split
  · exact M.setWT_sameMem ⟨rfl, rfl, rfl⟩
  · exact .refl m

theorem M.noteStores_sameMem (m : M) (w t slot : Nat) (lanes : List Nat) : m.SameMem (m.noteStores w t slot lanes) := by
  obtain ⟨ch, fl, h⟩ := M.noteStores_wt m w t slot lanes
  exact (M.noteStores_onlyAt ..).sameMem (by rw [h]; exact ⟨rfl, rfl, rfl⟩)

theorem M.freeGroup_sameMem (m : M) (w t slot : Nat) : m.SameMem (m.freeGroup w t slot) := by
  obtain ⟨gs, us, ur, gq, aq, ad, h⟩ := M.freeGroup_wt m w t slot
  exact (M.freeGroup_onlyAt ..).sameMem (by rw [h]; exact ⟨rfl, rfl, rfl⟩)

theorem WT.parkIn_sameMem (wt : WT) (born slot token : Nat) (lanes : List Nat) (g : Group) :
    wt.SameMem (wt.parkIn born slot token lanes g) := by
  obtain ⟨ur, h⟩ := WT.urecFor_eq wt g.team g.k
  unfold WT.parkIn; dsimp only; rw [h]; exact ⟨rfl, rfl, rfl⟩

theorem M.park_sameMem (m : M) (w t slot token : Nat) (lanes : List Nat) : m.SameMem (m.park w t slot token lanes) := by
  cases hg : look ((m.noteStores w t slot lanes).wt w t).groups slot with
  | none =>
    have h : m.park w t slot token lanes = m.noteStores w t slot lanes := by unfold M.park; dsimp only; rw [hg]
    rw [h]; exact M.noteStores_sameMem ..
  | some g =>
    have h := (M.noteStores_sameMem m w t slot lanes).trans (M.setWT_sameMem (WT.parkIn_sameMem
      ((m.noteStores w t slot lanes).wt w t) (m.noteStores w t slot lanes).uid slot token lanes g))
    rw [M.park_eq hg]
    dsimp only
    split
    · exact h.trans (M.freeGroup_sameMem ..)
    · exact h

theorem M.roomTaken_sameMem (m : M) (w t slot : Nat) : m.SameMem (m.roomTaken w t slot) := M.setWT_sameMem ⟨rfl, rfl, rfl⟩

theorem M.SameMem.sameBytes {s t : State} (h : s.m.SameMem t.m) : SameBytes s t := by
  refine ⟨fun a => by rw [h.fmem], fun a => by rw [h.hmem], fun w n a => ?_, fun w n a => ?_, fun w n a => ?_⟩
  · exact congrArg (fun mem => Memory.read mem a) (h.wts (wtKey w n)).scratch
  · exact congrArg (fun mem => Memory.read mem a) (h.wts (wtKey w n)).omem
  · exact congrArg (fun mem => Memory.read mem a) (h.wts (wtKey w n)).stackc

end Sys2Proof.Machine

namespace Sys2Proof

open Machine

theorem sameMem_of_wts {m m' : M} (hf : m'.fmem = m.fmem) (hh : m'.hmem = m.hmem) (hw : m'.wts = m.wts) : m.SameMem m' :=
  ⟨hf, hh, fun k => by rw [hw]; exact .refl _⟩

theorem newToken_sameMem (m : M) (w t li : Nat) : m.SameMem (m.newToken w t li).2 := sameMem_of_wts rfl rfl rfl

theorem queueRec_sameMem (m : M) (w li : Nat) (fr : FRec) : m.SameMem (m.queueRec w fr li).2 := sameMem_of_wts rfl rfl rfl

theorem setLaunch_sameMem (m : M) (li : Nat) (l : Launch) : m.SameMem (m.setLaunch li l) := sameMem_of_wts rfl rfl rfl

theorem fatal_sameMem (m : M) (w li : Nat) (fr : FRec) : m.SameMem (m.fatal w li fr) := by
  unfold M.fatal; split
  · split
    · exact .refl m
    · exact (queueRec_sameMem ..).trans (setLaunch_sameMem ..)
  · exact .refl m

theorem sameMem_foldl {α : Type} (f : M → α → M) (hf : ∀ (m : M) x, m.SameMem (f m x)) :
    ∀ (l : List α) (m : M), m.SameMem (l.foldl f m) := by
  intro l
  induction l with
  | nil => exact M.SameMem.refl
  | cons x xs ih => exact fun m => (hf m x).trans (ih _)

/-- Taking faults changes no memory. -/
theorem takeFaults_sameMem (m : M) (w t slot : Nat) (fs : List (Va × LaneFault)) : m.SameMem (m.takeFaults w t slot fs) := by
  unfold M.takeFaults
  refine sameMem_foldl _ (fun m r => ?_) _ m
  split
  · exact .refl m
  · split
    · exact .refl m
    · split
      · exact .refl m
      · split
        · exact (((newToken_sameMem ..).trans (queueRec_sameMem ..)).trans (M.park_sameMem ..)).trans (M.updGroup_sameMem ..)
        · exact fatal_sameMem ..
        · exact fatal_sameMem ..

theorem rest_sameMem {s t : State} {c : Ctx} (h : Rest s t c) : s.m.SameMem t.m := by
  obtain ⟨-, hrest, hother, hwt, -⟩ := h
  refine ⟨by rw [← hrest], by rw [← hrest], fun k => ?_⟩
  by_cases hk : k = wtKey c.w c.t
  · subst hk
    change (s.m.wt c.w c.t).SameMem (t.m.wt c.w c.t)
    rw [← hwt]; exact ⟨rfl, rfl, rfl⟩
  · have : mget {} t.m.wts k = mget {} s.m.wts k := by unfold mget; rw [hother k hk]
    rw [this]; exact .refl _

open Machine

/-! ## TRAP -/

theorem mapV_eq_map {β γ : Type} (f : Nat → β → γ) (m : AMap β) : mapV f m = m.map fun x => (x.1, f x.1 x.2) := by
  induction m with
  | nil => rfl
  | cons p m ih => rw [mapV, ih, List.map_cons]

/-- Lanes of distinct numbers: those with the number of a chosen lane are the chosen ones. -/
theorem filter_contains_keys {ls : List (Nat × Thread)} (hnd : (ls.map (·.1)).Nodup) (p : Nat × Thread → Bool) :
    ls.filter (fun x => ((ls.filter p).map (·.1)).contains x.1) = ls.filter p := by
  refine List.filter_congr fun x hx => ?_
  rw [Bool.eq_iff_iff, List.contains_iff_mem]
  refine ⟨fun h => ?_, fun h => List.mem_map_of_mem (List.mem_filter.2 ⟨hx, h⟩)⟩
  obtain ⟨y, hy, hyx⟩ := List.mem_map.1 h
  obtain ⟨hy, hp⟩ := List.mem_filter.1 hy
  rwa [← List.inj_on_of_nodup_map hnd hy hx hyx]

theorem any_key_eq_contains (ls : List (Nat × Thread)) (l : Nat) : ls.any (·.1 == l) = (ls.map (·.1)).contains l := by
  rw [Bool.eq_iff_iff, List.contains_iff_mem]
  simp

/-- The chosen lanes after a change of their threads. -/
theorem filter_mapV_chosen {ls : List (Nat × Thread)} (hnd : (ls.map (·.1)).Nodup) (p : Nat × Thread → Bool) (f : Thread → Thread) :
    (mapV (fun l th => if (ls.filter p).any (·.1 == l) then f th else th) ls).filter
        (fun x => ((ls.filter p).map (·.1)).contains x.1) = (ls.filter p).map fun x => (x.1, f x.2) := by
  rw [mapV_eq_map, List.filter_map]
  refine (congrArg _ (filter_contains_keys hnd p)).trans ?_
  refine List.map_congr_left fun x hx => ?_
  rw [any_key_eq_contains, if_pos (List.contains_iff_mem.2 (List.mem_map_of_mem hx))]

/-- A group that may issue is of a launch that goes on. -/
theorem launchOf_of_mayIssue {m : M} {t w slot : Nat} {g : Group} (h : m.mayIssue t w slot g = true) :
    ∃ li l, m.launchOf g.team = some (li, l) ∧ l.ending = false := by
  unfold M.mayIssue at h
  cases hl : m.launchOf g.team with
  | none => rw [hl] at h; simp at h
  | some x => rw [hl] at h; exact ⟨x.1, x.2, rfl, by simpa using And.right (by simpa using h)⟩

/-- What only counts time leaves the launch of a team but for its stall interval. -/
theorem launchOf_of_rest {s t : State} {c : Ctx} (h : Rest s t c) {team li : Nat} {l : Launch}
    (hl : s.m.launchOf team = some (li, l)) : ∃ l', t.m.launchOf team = some (li, l') ∧ l'.ending = l.ending := by
  obtain ⟨-, hrest, -, -, -, -, -, -, -, hlaunch⟩ := h
  have hteams : t.m.teams = s.m.teams := by rw [← hrest]
  unfold M.launchOf at hl ⊢
  rw [hteams]
  cases htm : look s.m.teams team with
  | none => rw [htm] at hl; simp at hl
  | some tm =>
    rw [htm] at hl
    obtain ⟨l0, hl0, hpair⟩ := Option.map_eq_some_iff.1 hl
    obtain ⟨hli, hll⟩ := Prod.mk.inj hpair
    have hstall := hlaunch tm.launch
    rw [hl0, Option.map_some] at hstall
    obtain ⟨l', hl', hstall'⟩ := Option.map_eq_some_iff.1 hstall
    refine ⟨l', by simp only [← hli, hl', Option.map_some], ?_⟩
    rw [← hll]
    have hending := congrArg (fun l : Launch => l.ending) hstall'
    exact hending

/-- The form of TRAP. -/
abbrev trapForm : Form := { len := 8, waits := true, nonIdem := true, region := true }

/-- TRAP completes, and then its executing lanes take their fault (R345). -/
theorem exec_trap {h : Hdr} {code : BitVec 8} {s : State} {c : Ctx} (hi : IssuesSeq h trapForm s c) (hlate : c.g.late = [])
    (hw : s.m.leaveWait c.w c.t c.slot c.g (sortedLanes c.ex).length = none) :
    exec (.trap h code) s = .next { s with
      m := (((counted c trapForm s.m).finish c trapForm (nextPc c.g.pc 8)).roomTaken c.w c.t c.slot).takeFaults c.w c.t c.slot
        ((sortedLanes c.ex).map fun i => (c.g.pc, faultOf (.trap code) 0 0 i)) } := by
  refine (issue_of (f := trapForm) (fun c m => .after m (whole c.ex (.trap code) 0 0)) hi.1).trans ?_
  have hend : endRes c trapForm s.m (.after (counted c trapForm s.m) (whole c.ex (.trap code) 0 0)) =
      (((counted c trapForm s.m).finish c trapForm (nextPc c.g.pc 8)).roomTaken c.w c.t c.slot).takeFaults c.w c.t c.slot
        ((sortedLanes c.ex).map fun i => (c.g.pc, faultOf (.trap code) 0 0 i)) :=
    (if_neg (Bool.eq_false_iff.1 hi.2)).trans (trapOr_whole hlate (parkWait_whole_none hlate hw))
  exact congrArg (fun m => Host.Outcome.next { s with m := m }) hend

/-- The group of a TRAP that has completed, its executing lanes in a new region. -/
def trapped (c : Ctx) : Group := ended c trapForm (nextPc c.g.pc 8) c.g.countWin

theorem trapped_lanes (c : Ctx) : (trapped c).lanes =
    mapV (fun l th => if c.ex.any (·.1 == l) then enterRegion (nextPc c.g.pc 8) th else th) c.g.lanes := rfl

/-- The executing lanes of a TRAP that has completed are parked by its fault. -/
theorem trapped_replayed {s : State} {m1 : M} {c : Ctx} {code : BitVec 8} (hrest : Rest s { s with m := m1 } c)
    (hg : look (m1.wt c.w c.t).groups c.slot = some (trapped c)) (hmay : s.m.mayIssue c.t c.w c.slot c.g = true)
    (hlt : ∀ x ∈ c.ex, x.1 < 32) (hne : c.ex ≠ []) (htok : look (s.m.wt c.w c.t).parked (s.m.world c.w).nextTok = none) :
    (m1.roomTaken c.w c.t c.slot).world c.w = s.m.world c.w ∧
    ((m1.roomTaken c.w c.t c.slot).wt c.w c.t).urecs = (s.m.wt c.w c.t).urecs ∧
    ∃ li fr, Replayed (m1.roomTaken c.w c.t c.slot)
      ((m1.roomTaken c.w c.t c.slot).takeFaults c.w c.t c.slot
        ((sortedLanes c.ex).map fun i => (c.g.pc, faultOf (.trap code) 0 0 i)))
      c.w c.t c.slot li (trapped c) (.trap code) c.g.pc 0 c.ex fr := by
  obtain ⟨li, l, hl, he⟩ := launchOf_of_mayIssue hmay
  obtain ⟨l', hl', he'⟩ := launchOf_of_rest hrest hl
  obtain ⟨-, hworlds, -, hwt, -⟩ := id hrest
  have hworld : (m1.roomTaken c.w c.t c.slot).world c.w = s.m.world c.w := by
    change m1.world c.w = _
    unfold M.world; rw [← hworlds]
  have hurecs : (m1.wt c.w c.t).urecs = (s.m.wt c.w c.t).urecs := by rw [← hwt]
  have hparked : (m1.wt c.w c.t).parked = (s.m.wt c.w c.t).parked := by rw [← hwt]
  refine ⟨hworld, (roomTaken_urecs ..).trans hurecs, li, ?_⟩
  exact replayed_of_takeFaults (la := l') hlt (sortedLanes_ne_nil hlt hne) (by rw [roomTaken_groups]; exact hg) hl' (he'.trans he) rfl
    (by rw [roomTaken_parked, hworld, hparked]; exact htok)

/-- The state of the group when TRAP has completed. -/
theorem finish_trapped {h : Hdr} {s : State} {c : Ctx} (hi : Issues h trapForm s c) :
    Rest s { s with m := (counted c trapForm s.m).finish c trapForm (nextPc c.g.pc 8) } c ∧
    look (((counted c trapForm s.m).finish c trapForm (nextPc c.g.pc 8)).wt c.w c.t).groups c.slot = some (trapped c) := by
  obtain ⟨hgroup, hafter⟩ := finish_after { s with m := counted c trapForm s.m } c trapForm (nextPc c.g.pc 8)
  refine ⟨rest_trans (rest_updGroup s c Group.countWin) hafter, hgroup.trans ?_⟩
  rw [counted_group hi.1.1]; rfl

/-- The threads that TRAP parks: those of its executing lanes, each in its new region. -/
theorem trapped_parked {c : Ctx} {h : Hdr} (hex : c.ex = c.g.lanes.filter fun x => guardOk h x.2) (hnd : (c.g.lanes.map (·.1)).Nodup)
    (hlt : ∀ x ∈ c.ex, x.1 < 32) (token urec born : Nat) :
    (parkedOf token (trapped c) (sortedLanes c.ex) urec born).ths =
      c.ex.map fun x => parkedThread (trapped c) urec born (enterRegion (nextPc c.g.pc 8) x.2) := by
  rw [parkedOf_ths hlt, trapped_lanes, hex, filter_mapV_chosen hnd, List.map_map]
  rfl

/-- Settles O22: the completed TRAP's executing lanes take a replayable fault. -/
theorem trapTaken : Obligations.TrapTaken := by
  intro h code s c hi hr hroom hll hlate hlt hnd htok
  have hex : c.ex = c.g.lanes.filter fun x => guardOk h x.2 := (ctx_some hi.1.1.1).2
  have hndx : (c.ex.map (·.1)).Nodup := by rw [hex]; exact (List.Sublist.map _ List.filter_sublist).nodup hnd
  have hw : s.m.leaveWait c.w c.t c.slot c.g (sortedLanes c.ex).length = none := by
    rw [sortedLanes_length hlt hndx]; exact leaveWait_none hr hll hroom
  obtain ⟨hrest, hg⟩ := finish_trapped hi.1
  obtain ⟨hworld, hurecs, li, fr, hfr⟩ := trapped_replayed (code := code) hrest hg hi.1.1.2.1 hlt (by simpa using hi.1.2.1) htok
  refine ⟨_, fr, exec_trap hi hlate hw, ?recs, hfr.fr_code, hfr.fr_pc, hfr.fr_lanes, ?token, hfr.fr_kind, hfr.fr_slot, ?opens, ?parked,
    ?goesOn, rfl, ?bytes⟩
  case recs => dsimp only; rw [hfr.recs, hworld, List.map_append]; rfl
  case token => exact hfr.fr_token.trans (congrArg World.nextTok hworld)
  case opens => rw [hfr.fr_token]; exact ⟨_, hfr.token, rfl⟩
  case parked =>
    rw [hfr.fr_token]
    refine ⟨_, hfr.parked, rfl, ?_⟩
    rw [trapped_parked hex hnd hlt, List.map_map, WT.urecFor_congr hurecs]
    rfl
  case goesOn =>
    intro g hgs
    rw [hfr.groups] at hgs
    split at hgs
    · cases hgs
    · obtain rfl := Option.some.inj hgs
      refine ⟨rfl, fun x hx ⟨y, hy, hyx⟩ => ?_⟩
      have hx' : x ∈ ((trapped c).withoutParked (sortedLanes c.ex)).lanes := hx
      rw [withoutParked_lanes hlt] at hx'
      have hnot := (List.mem_filter.1 hx').2
      rw [← hyx, List.contains_iff_mem.2 (List.mem_map_of_mem hy)] at hnot
      cases hnot
  case bytes =>
    exact M.SameMem.sameBytes
      ((rest_sameMem hrest).trans ((M.roomTaken_sameMem ..).trans (takeFaults_sameMem ..)))

end Sys2Proof

/-! PROOFS. Groups that split and threads that end (O8). -/

namespace Sys2Proof.Machine

/-! ## Lanes that leave their group -/

section

variable {m m' : M} {w t slot : Nat} {g : Group} {ls : List Nat} {why : Absence}

/-- A group without lanes that left it. -/
def Group.vacated (g : Group) (ls : List Nat) (why : Absence) : Group :=
  { g with lanes := g.lanes.filter fun (l, _) => !ls.contains l, gone := ls.foldl (fun acc l => put acc l why) g.gone }

theorem M.vacate_eq (hg : look (m.wt w t).groups slot = some g) :
    m.vacate w t slot ls why =
      let m1 := (m.noteStores w t slot ls).setGroup w t slot (g.vacated ls why)
      if (g.lanes.filter fun (l, _) => !ls.contains l).isEmpty then m1.freeGroup w t slot else m1 := by
  have hn : look ((m.noteStores w t slot ls).wt w t).groups slot = some g := by rw [M.noteStores_groups]; exact hg
  unfold M.vacate; dsimp only; rw [hn]; rfl

theorem M.vacate_groups (hg : look (m.wt w t).groups slot = some g) :
    look ((m.vacate w t slot ls why).wt w t).groups slot =
      if (g.vacated ls why).lanes = [] then none else some (g.vacated ls why) := by
  rw [M.vacate_eq hg]
  dsimp only
  by_cases h : (g.vacated ls why).lanes = []
  · rw [if_pos h, if_pos (by simpa [Group.vacated] using h), M.freeGroup_groups]
  · rw [if_neg h, if_neg (by simpa [Group.vacated] using h)]
    simp

theorem M.vacate_onlyAt (m : M) (w t slot : Nat) (ls : List Nat) (why : Absence) : M.OnlyAt w t m (m.vacate w t slot ls why) := by
  unfold M.vacate
  dsimp only
  split
  · exact M.noteStores_onlyAt ..
  · split
    · exact ((M.noteStores_onlyAt ..).trans (M.setWT_onlyAt ..)).trans (M.freeGroup_onlyAt ..)
    · exact (M.noteStores_onlyAt ..).trans (M.setWT_onlyAt ..)

theorem M.setGroup_sameMem (m : M) (w t slot : Nat) (g : Group) : m.SameMem (m.setGroup w t slot g) := M.setWT_sameMem ⟨rfl, rfl, rfl⟩

theorem M.vacate_sameMem (m : M) (w t slot : Nat) (ls : List Nat) (why : Absence) : m.SameMem (m.vacate w t slot ls why) := by
  unfold M.vacate
  dsimp only
  split
  · exact M.noteStores_sameMem ..
  · split
    · exact ((M.noteStores_sameMem ..).trans (M.setGroup_sameMem ..)).trans (M.freeGroup_sameMem ..)
    · exact (M.noteStores_sameMem ..).trans (M.setGroup_sameMem ..)

theorem M.OnlyAt.acc_eq (h : M.OnlyAt w t m m') : m'.acc = m.acc := by rw [← h.rest]

/-- Lanes that left are marked so. -/
theorem look_foldl_put (ls : List Nat) (why : Absence) (gone : AMap Absence) {l : Nat} (hl : l ∈ ls) :
    look (ls.foldl (fun acc l => put acc l why) gone) l = some why := by
  induction ls generalizing gone with
  | nil => cases hl
  | cons x xs ih =>
    by_cases hx : l ∈ xs
    · exact ih _ hx
    · obtain rfl : l = x := (List.mem_cons.1 hl).resolve_right hx
      clear ih hl
      have hkeep : ∀ (ys : List Nat) (gone : AMap Absence), l ∉ ys → look (ys.foldl (fun acc l => put acc l why) gone) l = look gone l := by
        intro ys
        induction ys with
        | nil => exact fun _ _ => rfl
        | cons y ys ih =>
          intro gone hn
          obtain ⟨hy, hys⟩ := not_or.1 (fun h => hn (List.mem_cons.2 h))
          exact (ih _ hys).trans (look_put_ne _ _ hy)
      exact (hkeep xs _ hx).trans (look_put_self ..)

end

/-- A machine's tiles' parts that are settled have the same memories. -/
theorem WT.Settled.sameMem {a b : WT} (h : a.Settled b) : a.SameMem b := by
  rw [← h.rest]; exact ⟨rfl, rfl, rfl⟩

theorem M.Settled.sameMem {m m' : M} (h : m.Settled m') : m.SameMem m' :=
  ⟨by rw [← h.rest], by rw [← h.rest], fun k => (h.wts k).sameMem⟩

theorem WT.Landed.sameMem {a b : WT} (h : a.Landed b) : a.SameMem b := h.settled.sameMem

end Sys2Proof.Machine

namespace Sys2Proof.Machine

/-! ## The live count of a team -/

/-- A team has so many live threads. -/
def M.TeamLive (m : M) (team n : Nat) : Prop := ∃ tm, look m.teams team = some tm ∧ tm.live = n

section

variable {m m' : M} {team n : Nat}

theorem M.TeamLive.of_teams (h : m.TeamLive team n) (he : m'.teams = m.teams) : m'.TeamLive team n := by
  obtain ⟨tm, htm, hn⟩ := h
  exact ⟨tm, by rw [he]; exact htm, hn⟩

theorem M.teamLive_setTeam_self (m : M) (team : Nat) (v : Team) : (m.setTeam team v).TeamLive team v.live := ⟨v, look_put_self .., rfl⟩

theorem M.TeamLive.setTeam {k : Nat} {v : Team} (h : m.TeamLive team n) (hv : k = team → v.live = n) : (m.setTeam k v).TeamLive team n := by
  by_cases hk : team = k
  · subst hk; exact ⟨v, look_put_self .., hv rfl⟩
  · obtain ⟨tm, htm, hn⟩ := h
    exact ⟨tm, (look_put_ne _ _ hk).trans htm, hn⟩

theorem M.TeamLive.barCheck (h : m.TeamLive team n) (k : Nat) : (m.barCheck team k).TeamLive team n := by
  obtain ⟨tm, htm, hn⟩ := id h
  unfold M.barCheck
  rw [htm]
  dsimp only
  split
  · exact h
  · have hset : ∀ v : Team, v.live = tm.live → (m.setTeam team v).TeamLive team n := fun v hv => h.setTeam fun _ => hv.trans hn
    split
    · split
      · exact M.TeamLive.of_teams (hset { tm with barriers := put tm.barriers k _ } rfl) rfl
      · exact M.TeamLive.of_teams (hset { tm with barriers := put tm.barriers k _ } rfl) rfl
    · exact M.TeamLive.of_teams (hset { tm with barriers := put tm.barriers k _ } rfl) rfl

theorem M.TeamLive.teamCheck (h : m.TeamLive team n) : (m.teamCheck team).TeamLive team n := by
  obtain ⟨tm, htm, hn⟩ := id h
  unfold M.teamCheck
  rw [htm]
  dsimp only
  split
  · exact h
  · exact M.TeamLive.of_teams (h.setTeam (k := team) (v := { tm with ended := true, staged := [] }) fun _ => hn) (by simp)

theorem M.TeamLive.foldl {α : Type} (f : M → α → M) (hf : ∀ (m : M) x, m.TeamLive team n → (f m x).TeamLive team n) :
    ∀ (l : List α) (m : M), m.TeamLive team n → (l.foldl f m).TeamLive team n := by
  intro l
  induction l with
  | nil => exact fun _ h => h
  | cons x xs ih => exact fun m h => ih _ (hf m x h)

/-- The end of a thread takes one from the live count of its team (R138). -/
theorem M.TeamLive.endThread (h : m.TeamLive team n) (w t : Nat) (th : Thread) : (m.endThread w t team th).TeamLive team (n - 1) := by
  obtain ⟨tm, htm, hn⟩ := id h
  unfold M.endThread
  split
  · next hnone => rw [htm] at hnone; cases hnone
  · next tm' htm' =>
    obtain rfl : tm = tm' := Option.some.inj (htm.symm.trans htm')
    extract_lets hit bars m1 m2 wt wt1
    have h1 : m1.TeamLive team (n - 1) := by
      have hset := M.teamLive_setTeam_self m team { tm with live := tm.live - 1, barriers := bars }
      rwa [← hn]
    have h2 : m2.TeamLive team (n - 1) := M.TeamLive.foldl (fun m k => m.barCheck team k) (fun m k h => h.barCheck k) (List.range 16) m1 h1
    have h3 : (m2.setWT w t wt1).TeamLive team (n - 1) := h2.of_teams (M.setWT_teams ..)
    exact h3.teamCheck

theorem M.TeamLive.endThreads (w t : Nat) (ls : List (Nat × Thread)) {m : M} {n : Nat} (h : m.TeamLive team n) :
    (ls.foldl (fun m (_, th) => m.endThread w t team th) m).TeamLive team (n - ls.length) := by
  induction ls generalizing m n with
  | nil => exact h
  | cons x xs ih =>
    have := ih (h.endThread w t x.2)
    rwa [Nat.sub_sub, Nat.add_comm 1] at this

end

end Sys2Proof.Machine

namespace Sys2Proof

open Machine

/-! ## EXIT -/

section

variable {m : M} {c : Ctx}

theorem exitLanes_settled (m : M) (c : Ctx) (ls : List (Nat × Thread)) :
    (m.vacate c.w c.t c.slot (ls.map (·.1)) .exited).Settled (m.exitLanes c ls) :=
  M.settled_foldl (fun m (x : Nat × Thread) => m.endThread c.w c.t c.g.team x.2) (fun m x => M.endThread_settled m c.w c.t c.g.team x.2) ls _

/-- The group when threads of its lanes have ended, without the contents of the others. -/
theorem exitLanes_husk {g : Group} (hg : look (m.wt c.w c.t).groups c.slot = some g) (ls : List (Nat × Thread)) :
    (look ((m.exitLanes c ls).wt c.w c.t).groups c.slot).map Group.husk =
      if (g.vacated (ls.map (·.1)) .exited).lanes = [] then none else some (g.vacated (ls.map (·.1)) .exited).husk := by
  rw [((exitLanes_settled m c ls).wt c.w c.t).groups, M.vacate_groups hg]
  split <;> rfl

theorem exitLanes_live (c : Ctx) (ls : List (Nat × Thread)) {n : Nat} (h : m.TeamLive c.g.team n) :
    (m.exitLanes c ls).TeamLive c.g.team (n - ls.length) :=
  M.TeamLive.endThreads c.w c.t ls (h.of_teams (M.vacate_onlyAt ..).teams_eq)

theorem exitLanes_sameMem (m : M) (c : Ctx) (ls : List (Nat × Thread)) : m.SameMem (m.exitLanes c ls) :=
  (M.vacate_sameMem ..).trans (exitLanes_settled m c ls).sameMem

theorem exitLanes_acc (m : M) (c : Ctx) (ls : List (Nat × Thread)) : (m.exitLanes c ls).acc = m.acc := by
  have h : (m.exitLanes c ls).acc = (m.vacate c.w c.t c.slot (ls.map (·.1)) .exited).acc := by rw [← (exitLanes_settled m c ls).rest]
  exact h.trans (M.vacate_onlyAt ..).acc_eq

theorem exitLanes_worlds (m : M) (c : Ctx) (ls : List (Nat × Thread)) : (m.exitLanes c ls).worlds = m.worlds :=
  (settled_worlds (exitLanes_settled m c ls)).trans (M.vacate_onlyAt ..).worlds_eq

end

/-- The form of EXIT. -/
abbrev exitForm : Form := { len := 8, waits := true, waitsAll := true, touch := [5] }

theorem rest_teams {s t : State} {c : Ctx} (h : Rest s t c) : t.m.teams = s.m.teams := by obtain ⟨-, h, -⟩ := h; rw [← h]
theorem rest_acc {s t : State} {c : Ctx} (h : Rest s t c) : t.m.acc = s.m.acc := by obtain ⟨-, h, -⟩ := h; rw [← h]
theorem rest_worlds {s t : State} {c : Ctx} (h : Rest s t c) : t.m.worlds = s.m.worlds := by obtain ⟨-, h, -⟩ := h; rw [← h]

/-- What EXIT leaves when it has completed, whatever becomes of the group (R84, R138). -/
theorem finish_exit {s : State} {c : Ctx} {t : State} {npc : Va}
    (ht : t = { s with m := ((counted c exitForm s.m).exitLanes c c.ex).finish c exitForm npc }) :
    After { s with m := (counted c exitForm s.m).exitLanes c c.ex } t c exitForm npc ∧
    (∀ tm, look s.m.teams c.g.team = some tm → ∃ tm', look t.m.teams c.g.team = some tm' ∧ tm'.live = tm.live - c.ex.length) ∧
    t.nv = s.nv ∧ t.m.acc = s.m.acc ∧ t.m.worlds = s.m.worlds ∧ SameBytes s t := by
  have hafter := finish_after { s with m := (counted c exitForm s.m).exitLanes c c.ex } c exitForm npc
  rw [← ht] at hafter
  obtain ⟨hgroup, hrest⟩ := id hafter
  have hcount := M.updGroup_onlyAt s.m c.w c.t c.slot Group.countWin
  refine ⟨hafter, fun tm htm => ?_, hrest.1, ?_, ?_, ?_⟩
  · have hlive := exitLanes_live c c.ex (M.TeamLive.of_teams (m' := counted c exitForm s.m) ⟨tm, htm, rfl⟩ hcount.teams_eq)
    exact hlive.of_teams (rest_teams hrest)
  · exact (rest_acc hrest).trans ((exitLanes_acc ..).trans hcount.acc_eq)
  · exact (rest_worlds hrest).trans ((exitLanes_worlds ..).trans hcount.worlds_eq)
  · exact (((M.updGroup_sameMem ..).trans (exitLanes_sameMem ..)).trans (rest_sameMem hrest)).sameBytes

theorem exec_exit_all {h : Hdr} {s : State} {c : Ctx} (hi : Issues h exitForm s c) (hall : c.ex.length = c.g.lanes.length) :
    exec (.exit h) s = .next { s with m := ((counted c exitForm s.m).exitLanes c c.ex).finish c exitForm c.g.pc } := by
  refine (issue_of (f := exitForm) _ hi).trans ?_
  rw [if_pos hall]
  rfl

theorem exec_exit_some {h : Hdr} {s : State} {c : Ctx} (hi : IssuesSeq h exitForm s c) (hsome : c.ex.length < c.g.lanes.length) :
    exec (.exit h) s = .next { s with m := ((counted c exitForm s.m).exitLanes c c.ex).finish c exitForm (nextPc c.g.pc 8) } := by
  refine (issue_of (f := exitForm) _ hi.1).trans ?_
  rw [if_neg hsome.ne]
  exact congrArg (fun m => Host.Outcome.next { s with m := m }) (endRes_of_done hi.2)

/-- A list as long as what a filter leaves of it is unchanged. -/
theorem filter_ex_eq {c : Ctx} {h : Hdr} (hex : c.ex = c.g.lanes.filter fun x => guardOk h x.2)
    (hall : c.ex.length = c.g.lanes.length) : c.ex = c.g.lanes :=
  List.filter_sublist.eq_of_length (hex ▸ hall) |> fun e => hex.trans e

open Machine

/-! ## A divergent BR -/

/-- The lanes that do not execute. -/
def stayed (c : Ctx) : List (Nat × Thread) := c.g.lanes.filter fun (l, _) => !c.ex.any (·.1 == l)

/-- The part of a divergent BR that stays is the one that takes it (R120). -/
def keepTaken (c : Ctx) (target fall : Va) : Bool :=
  decide ((stayed c).length < c.ex.length) || (decide ((stayed c).length = c.ex.length) && decide (target.toNat < fall.toNat))

/-- The lanes that leave a divergent BR, and where they go. -/
def outLanes (c : Ctx) (target fall : Va) : List (Nat × Thread) := if keepTaken c target fall then stayed c else c.ex
def outVa (c : Ctx) (target fall : Va) : Va := if keepTaken c target fall then fall else target

section

variable {m : M} {c : Ctx}

theorem eject_groups {g : Group} {live : Nat} {away : Va} {ls : List (Nat × Thread)} (hg : look (m.wt c.w c.t).groups c.slot = some g) :
    look ((m.eject c live away ls).wt c.w c.t).groups c.slot =
      if (g.vacated (ls.map (·.1)) .diverged).lanes = [] then none else some (g.vacated (ls.map (·.1)) .diverged) := by
  unfold M.eject
  extract_lets u g' arr n ws wt1
  have hwt1 : look wt1.groups c.slot = some g := by
    have harr : u.2.Landed (u.2.arriveAs g' away u.1 m.uid arr) := WT.arriveAs_landed ..
    have hbin := WT.enterBin_landed (u.2.arriveAs g' away u.1 m.uid arr) (m.tile c.t).cycle away u.1 c.g.team (m.bint c.g.team) ws
    rw [WT.landed_groups (WT.landed_trans (WT.landed_trans (WT.urecFor_landed ..) harr) hbin)]
    exact hg
  obtain ⟨wt2, hland, heq⟩ := M.meetChecks_landed
    ((m.setWT c.w c.t wt1).vacate c.w c.t c.slot (ls.map (·.1)) .diverged) c.w c.t (arr.map (·.2))
  have hvac := M.vacate_groups (m := m.setWT c.w c.t wt1) (ls := ls.map (·.1)) (why := .diverged) (by rw [M.wt_setWT_self]; exact hwt1)
  rcases heq with heq | heq
  · rw [heq]; exact hvac
  · rw [heq, M.wt_setWT_self, WT.landed_groups hland]; exact hvac

theorem setWT_sameMem_of_landed {m : M} {w t : Nat} {x : WT} (h : (m.wt w t).Landed x) : m.SameMem (m.setWT w t x) :=
  M.setWT_sameMem h.sameMem

theorem eject_onlyAt (m : M) (c : Ctx) (live : Nat) (away : Va) (ls : List (Nat × Thread)) :
    M.OnlyAt c.w c.t m (m.eject c live away ls) ∧ m.SameMem (m.eject c live away ls) := by
  unfold M.eject
  extract_lets u g' arr n ws wt1
  have hland : (m.wt c.w c.t).Landed wt1 :=
    WT.landed_trans (WT.landed_trans (WT.urecFor_landed ..) (WT.arriveAs_landed u.2 g' away u.1 m.uid arr))
      (WT.enterBin_landed (u.2.arriveAs g' away u.1 m.uid arr) (m.tile c.t).cycle away u.1 c.g.team (m.bint c.g.team) ws)
  have honly := (M.setWT_onlyAt m c.w c.t wt1).trans (M.vacate_onlyAt _ c.w c.t c.slot (ls.map (·.1)) .diverged)
  have hmem := (setWT_sameMem_of_landed hland).trans (M.vacate_sameMem (m.setWT c.w c.t wt1) c.w c.t c.slot (ls.map (·.1)) .diverged)
  obtain ⟨wt2, hland2, heq⟩ := M.meetChecks_landed
    ((m.setWT c.w c.t wt1).vacate c.w c.t c.slot (ls.map (·.1)) .diverged) c.w c.t (arr.map (·.2))
  rcases heq with heq | heq
  · rw [heq]; exact ⟨honly, hmem⟩
  · rw [heq]; exact ⟨honly.trans (M.setWT_onlyAt ..), hmem.trans (setWT_sameMem_of_landed hland2)⟩

/-- A part of a divergent BR stays. -/
theorem vacated_ne_nil {target fall : Va} (hne : c.ex ≠ []) (hsub : ∀ x ∈ c.ex, x ∈ c.g.lanes) (g : Group) (hg : g.lanes = c.g.lanes) :
    (g.vacated ((outLanes c target fall).map (·.1)) .diverged).lanes ≠ [] := by
  have hstay : ∀ x ∈ stayed c, ∀ y ∈ c.ex, y.1 ≠ x.1 := fun x hx y hy heq => by
    have hnone : (!c.ex.any fun z => z.1 == x.1) = true := (List.mem_filter.1 hx).2
    have hany : (c.ex.any fun z => z.1 == x.1) = true := List.any_eq_true.2 ⟨y, hy, beq_iff_eq.2 heq⟩
    rw [hany] at hnone
    cases hnone
  suffices h : ∃ x ∈ c.g.lanes, x.1 ∉ (outLanes c target fall).map (·.1) by
    obtain ⟨x, hx, hnot⟩ := h
    refine List.ne_nil_of_mem (a := x) (List.mem_filter.2 ⟨hg ▸ hx, ?_⟩)
    simpa using hnot
  unfold outLanes
  split
  · obtain ⟨y, hy⟩ := List.exists_mem_of_ne_nil _ hne
    refine ⟨y, hsub y hy, fun hmem => ?_⟩
    obtain ⟨x, hx, hxy⟩ := List.mem_map.1 hmem
    exact hstay x hx y hy hxy.symm
  · next hkeep =>
    have hlen : c.ex.length ≤ (stayed c).length := by
      unfold keepTaken at hkeep
      simp only [Bool.or_eq_true, decide_eq_true_eq, not_or, not_lt] at hkeep
      exact hkeep.1
    obtain ⟨x, hx⟩ := List.exists_mem_of_ne_nil (stayed c) (List.ne_nil_of_length_pos
      ((List.length_pos_iff.2 hne).trans_le hlen))
    refine ⟨x, (List.mem_filter.1 hx).1, fun hmem => ?_⟩
    obtain ⟨y, hy, hxy⟩ := List.mem_map.1 hmem
    exact hstay x hx y hy hxy

theorem divergeTo_of_room {live : Nat} {target fall : Va}
    (hroom : m.hasRoom c.w c.t c.slot ((m.wt c.w c.t).needOf c.g.team c.g.k
      (ejectBytes c.g.allot live (outVa c target fall) (outLanes c target fall))) = true) :
    divergeTo c live m target fall = .jump ((m.roomTaken c.w c.t c.slot).eject c live (outVa c target fall) (outLanes c target fall))
      (if keepTaken c target fall then target else fall) := by
  have hstay : (decide ((stayed c).length < c.ex.length) || ((stayed c).length == c.ex.length && decide (target.toNat < fall.toNat))) =
      keepTaken c target fall := rfl
  unfold divergeTo
  dsimp only
  unfold stayed at hstay
  rw [hstay]
  exact if_neg (by rw [Bool.not_eq_true', Bool.eq_false_iff]; exact not_not_intro hroom)

theorem updGroup_urecs (m : M) (w t slot : Nat) (f : Group → Group) : ((m.updGroup w t slot f).wt w t).urecs = (m.wt w t).urecs := by
  unfold M.updGroup; split <;> simp

/-- The room for entries depends on the landing alone. -/
theorem hasRoom_updGroup (m : M) (w t slot : Nat) (f : Group → Group) (need : Nat) :
    (m.updGroup w t slot f).hasRoom w t slot need = m.hasRoom w t slot need := by
  unfold M.updGroup
  split
  · unfold M.hasRoom; simp only [M.setGroup_wt]; rfl
  · rfl

end

/-- The form of a divergent BR. -/
abbrev divergeForm : Form := { len := 12, waits := true, waitsAll := true, touch := [5] }

/-- The machine once the lanes that leave a divergent BR have left. -/
def diverged (c : Ctx) (s : State) (live : BitVec 8) (target fall : Va) : M :=
  ((counted c divergeForm s.m).roomTaken c.w c.t c.slot).eject c live.toNat (outVa c target fall) (outLanes c target fall)

theorem exec_br_diverges {h : Hdr} {live : BitVec 8} {imm : W32} {s : State} {c : Ctx} {target : W64} (ht : relTarget c.g.pc imm = target)
    (hi : Issues h divergeForm s c) (hlen : c.ex.length < c.g.lanes.length) (h2 : target.extractLsb' 0 2 = 0#2)
    (h56 : target.extractLsb' 56 8 = 0#8) (hne : target ≠ relTarget c.g.pc 12)
    (hroom : s.m.hasRoom c.w c.t c.slot ((s.m.wt c.w c.t).needOf c.g.team c.g.k
      (ejectBytes c.g.allot live.toNat (outVa c (target.extractLsb' 0 56) (nextPc c.g.pc 12))
        (outLanes c (target.extractLsb' 0 56) (nextPc c.g.pc 12)))) = true) :
    exec (.br h live imm) s = .next { s with
      m := (diverged c s live (target.extractLsb' 0 56) (nextPc c.g.pc 12)).finish c divergeForm
        (if keepTaken c (target.extractLsb' 0 56) (nextPc c.g.pc 12) then target.extractLsb' 0 56 else nextPc c.g.pc 12) } := by
  have hdiv : divergent c.g c.ex (relTarget c.g.pc imm) = true := by
    unfold divergent
    rw [ht, hi.2.1, decide_eq_true hlen, bne_iff_ne.2 hne]
    rfl
  have hneed : ((counted c divergeForm s.m).wt c.w c.t).needOf = (s.m.wt c.w c.t).needOf := by
    funext team k n
    unfold WT.needOf
    rw [show ((counted c divergeForm s.m).wt c.w c.t).urecs = (s.m.wt c.w c.t).urecs from updGroup_urecs ..]
  have hbody : brBody live imm c (counted c divergeForm s.m) = .jump (diverged c s live (target.extractLsb' 0 56) (nextPc c.g.pc 12))
      (if keepTaken c (target.extractLsb' 0 56) (nextPc c.g.pc 12) then target.extractLsb' 0 56 else nextPc c.g.pc 12) := by
    unfold brBody
    rw [hdiv, ht, badTarget_eq_nil c.ex h2 h56]
    refine (if_pos rfl).trans (divergeTo_of_room ?_)
    rw [hneed]
    exact (hasRoom_updGroup ..).trans hroom
  rw [exec_br hi.1.1, hdiv]
  refine (issue_of (f := divergeForm) (brBody live imm) hi).trans ?_
  change Host.Outcome.next { s with m := endRes c divergeForm s.m (brBody live imm c (counted c divergeForm s.m)) } = _
  rw [hbody]
  rfl

theorem vacated_all_lanes {g : Group} {ls : List (Nat × Thread)} (h : g.lanes = ls) (why : Absence) :
    (g.vacated (ls.map (·.1)) why).lanes = [] := by
  refine List.filter_eq_nil_iff.2 fun x hx => ?_
  have hmem : (ls.map (·.1)).contains x.1 = true := List.contains_iff_mem.2 (List.mem_map_of_mem (h ▸ hx))
  exact Bool.eq_false_iff.1 (congrArg not hmem)

theorem vacated_lanes_keys (g : Group) (ls : List Nat) (why : Absence) :
    (g.vacated ls why).lanes.map (·.1) = (g.lanes.map (·.1)).filter fun l => !ls.contains l := by
  rw [List.filter_map]; rfl

/-- A lane that does not execute stays. -/
theorem vacated_some_lanes {c : Ctx} {h : Hdr} (hex : c.ex = c.g.lanes.filter fun x => guardOk h x.2)
    (hsome : c.ex.length < c.g.lanes.length) (hnd : (c.g.lanes.map (·.1)).Nodup) {g : Group} (hg : g.lanes = c.g.lanes) (why : Absence) :
    (g.vacated (c.ex.map (·.1)) why).lanes ≠ [] := by
  have hlt := hsome
  rw [hex] at hlt
  obtain ⟨x, hx, hp⟩ := List.length_filter_lt_length_iff_exists.1 hlt
  refine List.ne_nil_of_mem (a := x) (List.mem_filter.2 ⟨hg ▸ hx, ?_⟩)
  rw [Bool.not_eq_true', Bool.eq_false_iff, Ne, List.contains_iff_mem]
  intro hmem
  obtain ⟨y, hy, hyx⟩ := List.mem_map.1 hmem
  rw [hex] at hy
  obtain ⟨hy, hpy⟩ := List.mem_filter.1 hy
  rw [List.inj_on_of_nodup_map hnd hy hx hyx] at hpy
  exact hp hpy

/-- The slot of a group all of whose threads have ended is free. -/
theorem exited_all {h : Hdr} {s : State} {c : Ctx} (hi : Issues h exitForm s c) (hall : c.ex.length = c.g.lanes.length) :
    look (((counted c exitForm s.m).exitLanes c c.ex).wt c.w c.t).groups c.slot = none := by
  have hhusk := exitLanes_husk (m := counted c exitForm s.m) (g := c.g.countWin) (counted_group hi.1.1) c.ex
  rw [if_pos (vacated_all_lanes (g := c.g.countWin) (filter_ex_eq (ctx_some hi.1.1).2 hall).symm _)] at hhusk
  exact Option.map_eq_none_iff.1 hhusk

/-- A group some of whose threads have ended has the others. -/
theorem exited_some {h : Hdr} {s : State} {c : Ctx} (hi : Issues h exitForm s c) (hsome : c.ex.length < c.g.lanes.length)
    (hnd : (c.g.lanes.map (·.1)).Nodup) :
    ∃ g, look (((counted c exitForm s.m).exitLanes c c.ex).wt c.w c.t).groups c.slot = some g ∧
      g.husk = (c.g.countWin.vacated (c.ex.map (·.1)) .exited).husk := by
  have hhusk := exitLanes_husk (m := counted c exitForm s.m) (g := c.g.countWin) (counted_group hi.1.1) c.ex
  rw [if_neg (vacated_some_lanes (g := c.g.countWin) (ctx_some hi.1.1).2 hsome hnd rfl _)] at hhusk
  exact Option.map_eq_some_iff.1 hhusk

/-- Settles O8: the lanes that leave are in the landing or have ended, and the group goes on with the others, if there are any. -/
theorem groupsSplitAndEnd : Obligations.GroupsSplitAndEnd := by
  refine ⟨?diverges, ?all, ?some⟩
  case diverges =>
    intro h live imm s c target fall stay keep out away f m0 u n arrived ejected landed gone hi hlen h2 h56 hne hroom
    have hex : c.ex = c.g.lanes.filter fun x => guardOk h x.2 := (ctx_some hi.1.1).2
    have hgroup : look ((diverged c s live (target.extractLsb' 0 56) fall).wt c.w c.t).groups c.slot =
        some (c.g.countWin.vacated ((outLanes c (target.extractLsb' 0 56) fall).map (·.1)) .diverged) := by
      refine (eject_groups (g := c.g.countWin) (by rw [roomTaken_groups]; exact counted_group hi.1.1)).trans (if_neg ?_)
      exact vacated_ne_nil (by simpa using hi.2.1) (fun x hx => (List.mem_filter.1 (hex ▸ hx)).1) _ rfl
    have hlook : (look (((counted c divergeForm s.m).roomTaken c.w c.t c.slot).wt c.w c.t).groups c.slot).getD c.g = c.g.countWin := by
      rw [roomTaken_groups, counted_group (f := divergeForm) hi.1.1]; rfl
    have huid : ((counted c divergeForm s.m).roomTaken c.w c.t c.slot).uid = s.m.uid := M.updGroup_uid ..
    have htile : ((counted c divergeForm s.m).roomTaken c.w c.t c.slot).tile c.t = s.m.tile c.t := by
      unfold M.tile; exact congrArg (fun ts => mget {} ts c.t) (M.updGroup_tiles ..)
    have hgone : diverged c s live (target.extractLsb' 0 56) fall = gone := by
      unfold diverged M.eject
      dsimp only
      rw [hlook, huid, htile]
      rfl
    have hafter := finish_after { s with m := gone } c f (if keep then target.extractLsb' 0 56 else fall)
    obtain ⟨heject, hmem⟩ := eject_onlyAt ((counted c divergeForm s.m).roomTaken c.w c.t c.slot) c live.toNat
      (outVa c (target.extractLsb' 0 56) fall) (outLanes c (target.extractLsb' 0 56) fall)
    have hcount := M.updGroup_onlyAt s.m c.w c.t c.slot Group.countWin
    have honly : M.OnlyAt c.w c.t s.m gone := hgone ▸ (hcount.trans (M.roomTaken_onlyAt ..)).trans heject
    have hsame : s.m.SameMem gone := hgone ▸ ((M.updGroup_sameMem ..).trans (M.roomTaken_sameMem ..)).trans hmem
    have hexec := exec_br_diverges (live := live) (imm := imm) rfl hi hlen h2 h56 hne hroom
    obtain ⟨hg, hrest⟩ := id hafter
    rw [hgone] at hgroup
    refine ⟨_, ended c f (if keep then target.extractLsb' 0 56 else fall)
      (c.g.countWin.vacated ((outLanes c (target.extractLsb' 0 56) fall).map (·.1)) .diverged), hexec.trans ?_, ?_, rfl, rfl, rfl, rfl, rfl,
      fun l hl => look_foldl_put _ _ _ hl, hafter, rfl, (rest_teams hrest).trans honly.teams_eq, (rest_acc hrest).trans honly.acc_eq,
      (rest_worlds hrest).trans honly.worlds_eq, (hsame.trans (rest_sameMem hrest)).sameBytes⟩
    · exact congrArg (fun m => Host.Outcome.next { s with m := m.finish c f (if keep then target.extractLsb' 0 56 else fall) }) hgone
    · rw [hg, hgroup]; rfl
  case all =>
    intro h s c hi hall
    obtain ⟨⟨hgroup, -⟩, hlive, hrest⟩ := finish_exit (s := s) (c := c) (npc := c.g.pc) rfl
    exact ⟨_, exec_exit_all hi hall, by rw [hgroup, exited_all hi hall]; rfl, hlive, hrest⟩
  case some =>
    intro h s c hi hsome hnd
    obtain ⟨⟨hgroup, -⟩, hlive, hrest⟩ := finish_exit (s := s) (c := c) (npc := nextPc c.g.pc 8) rfl
    obtain ⟨g, hg, hhusk⟩ := exited_some hi.1 hsome hnd
    obtain ⟨hfix, hkeys⟩ := Prod.mk.inj hhusk
    have hk : g.k = c.g.k := (congrArg Group.k hfix :)
    have huid : g.uid = c.g.uid := (congrArg Group.uid hfix :)
    have hgone : g.gone = (c.g.countWin.vacated (c.ex.map (·.1)) .exited).gone := (congrArg Group.gone hfix :)
    refine ⟨_, ended c exitForm (nextPc c.g.pc 8) g, exec_exit_some hi hsome, by rw [hgroup, hg]; rfl, rfl, ?_, hk, huid, ?_, hlive, hrest⟩
    · exact hkeys.trans (vacated_lanes_keys ..)
    · intro l hl
      exact (congrArg (fun gone => look gone l) hgone).trans (look_foldl_put _ _ _ hl)

end Sys2Proof

/-! PROOFS. Fences, frames and the tensor table (O11 to O14). -/

namespace Sys2Proof

open Machine

/-! ## Fences -/

section

variable {c : Ctx} {m : M} {items : List Span} {ids : List Nat} {sc : Scope} {go : M → Res}

theorem fenceFor_first (hw : c.g.wait = .none) :
    fenceFor c m items ids sc go =
      if ids.isEmpty then go ((m.fenceFlush c items ids).pastSeams c sc) else .hold (m.fenceFlush c items ids) (.fence ids sc) := by
  unfold fenceFor; rw [hw]

theorem fenceFor_over (hw : c.g.wait = .request .fence true) : fenceFor c m items ids sc go = go (m.pastSeams c sc) := by
  unfold fenceFor; rw [hw]

theorem fenceFor_go (hw : c.g.wait = .none) (hids : ids = []) :
    fenceFor c m items ids sc go = go ((m.fenceFlush c items []).pastSeams c sc) := by
  subst hids; exact fenceFor_first hw

theorem fenceFor_hold {ids' : List Nat} (hw : c.g.wait = .none) (hids : ids = ids') (hne : ids' ≠ []) :
    fenceFor c m items ids sc go = .hold (m.fenceFlush c items ids') (.fence ids' sc) := by
  subst hids; exact (fenceFor_first hw).trans (if_neg (not_isEmpty hne))

end

/-- Settles O11: the conditions leave each instruction the branch in which it ends or begins to wait. -/
theorem fencesAndCachesComplete : Obligations.FencesAndCachesComplete := by
  intro h dir sc i0 rest cn it base off n us named range gone
  refine ⟨?fence, fun ids hne => ?fenceWaits, ?fenceOver, ?all, ?allOver, ?ftag, ?funtag, ?cflush, ?cinv⟩
  case fence => exact does_of_done _ (fun _ => rfl) fun c m _ ⟨hw, hids⟩ => fenceFor_go hw hids
  case fenceWaits =>
    exact holds_of_body _ (fun _ => rfl) (fun c m ⟨hw, hids⟩ => fenceFor_hold hw hids hne) fun c m => fenceFlush_groups ..
  case fenceOver => exact does_of_done _ (fun _ => rfl) fun c m _ hw => fenceFor_over hw
  case all => exact does_of_done _ (fun _ => rfl) fun c m _ ⟨hw, hids⟩ => fenceFor_go hw hids
  case allOver => exact does_of_done _ (fun _ => rfl) fun c m _ hw => fenceFor_over hw
  case ftag =>
    cases it with
    | handle k => exact does_of_done _ (fun _ => rfl) fun c m _ hidle => if_neg (by rw [hidle]; exact Bool.false_ne_true)
    | range k g => exact does_of_done _ (fun _ => rfl) fun c m _ hidle => if_neg (by rw [hidle]; exact Bool.false_ne_true)
  case funtag => exact does_of_done _ (fun _ => rfl) fun c m _ hidle => if_neg (by rw [hidle]; exact Bool.false_ne_true)
  case cflush => exact does_of_done _ (fun _ => rfl) fun _ _ _ _ => rfl
  case cinv => exact does_of_done _ (fun _ => rfl) fun c m _ hlate => if_neg (Bool.eq_false_iff.1 hlate)

/-! ## Stack frames -/

/-- Settles O12: ENTER's lanes pass their checks, and LEAVE's load has its bytes. -/
theorem framesComplete : Obligations.FramesComplete := by
  intro h n ea low xs
  refine ⟨?enter, fun op x bs => ?leave⟩
  case enter =>
    refine does_of_done _ (fun _ => rfl) fun c m _ ⟨halign, hlim, hmiss, hbad⟩ => ?_
    have hea : (c.g.kr 63 - n.setWidth 64 + n.setWidth 64 - 8).toNat = ea c := by rw [BitVec.sub_add_cancel]
    refine (if_neg (not_not_intro halign)).trans ((if_neg (Nat.not_lt.2 hlim)).trans ?_)
    rw [hea]
    refine (if_neg (by rw [hmiss]; exact Bool.false_ne_true)).trans ?_
    rw [hbad]
    rfl
  case leave =>
    refine does_of_done _ (fun _ => rfl) fun c m _ ⟨hw, hacc, hset, hres⟩ => ?_
    simp only [hw]
    unfold leaveEnd
    rw [hacc]
    refine (if_neg (by rw [hset]; exact Bool.false_ne_true)).trans ?_
    rw [hres]

/-! ## Tensor handles -/

theorem topenIndex_of {c : Ctx} {b : BitVec 6} {i : Nat} (hi : (c.g.kr b.toNat).toNat = i) (h1 : 1 ≤ i) (hlt : i < 65536) :
    topenIndex c b = some i := by
  have hhi : (c.g.kr b.toNat).extractLsb' 16 48 = 0#48 := by
    refine BitVec.eq_of_toNat_eq ?_
    rw [BitVec.extractLsb'_toNat, hi, Nat.shiftRight_eq_div_pow, Nat.div_eq_of_lt hlt]
    rfl
  have hne : c.g.kr b.toNat ≠ 0 := fun h0 => by rw [h0] at hi; exact absurd hi.symm (by simp; omega)
  unfold topenIndex
  dsimp only
  have hne' : ¬ c.g.kr b.toNat = 0#64 := hne
  rw [if_neg (by simp [hhi, hne']), hi]

/-- What TOPEN.new reads: the descriptor's two lines, at its first issue (R220). -/
def topenNewWants (a : BitVec 6) (off : BitVec 24) (c : Ctx) : List Want :=
  if c.g.wait.begun then []
  else (c.ex.take 1).flatMap fun (l, th) =>
    let ea := (c.g.kr a.toNat + off.signExtend 64).toNat
    [({ lane := l, th := th, ea := ea, va := ea } : Want), { lane := l, th := th, ea := ea, va := ea + 64 }]

/-- TOPEN.new's own effect (R220). -/
def topenNewBody (w : Bool) (d : BitVec 4) (b a : BitVec 6) (off : BitVec 24) (c : Ctx) (m : M) (xs : List Want) : Res :=
  match topenIndex c b with
  | none => .trap m (whole c.ex .tensorBounds 0 0)
  | some i =>
    match c.g.wait with
    | .table true => .done (m.bindHandle c d i)
    | .table false => .hold m (.table false)
    | .result op => topenNewEnd c m w i op
    | .fence ids sc => .hold m (.fence ids sc)
    | .request .fence true => topenBump c m i
    | _ =>
      let ea := (c.g.kr a.toNat + off.signExtend 64).toNat
      if ((m.world c.w).tensor i).isSome then .trap m (whole c.ex .tensorBounds 0 0)
      else if ea % 128 ≠ 0 then .trap m (whole c.ex .alignment (ea % 2 ^ 56) 0)
      else
        let f := m.fresh
        let sh : Shape := { kind := fun _ => .load, size := 64, fresh := true, op := f.1 }
        topenNewEnd c (xs.foldl (fun m x => m.lateLane c sh x) f.2) w i f.1

theorem exec_topenNew (h : Hdr) (w : Bool) (d : BitVec 4) (b a : BitVec 6) (off : BitVec 24) (s : State) :
    exec (.topenNew h w d b a off) s =
      issueMem h { srcForm 12 [] [b.toNat, a.toNat] with nonIdem := true, region := true, once := true } s
        (fun c _ => topenNewWants a off c) (topenNewBody w d b a off) := rfl

theorem topenNewWants_of_begun {a : BitVec 6} {off : BitVec 24} {c : Ctx} (hw : c.g.wait.begun = true) : topenNewWants a off c = [] :=
  if_pos hw

/-- Settles O13: the index is one, and the group waits for no table. -/
theorem tensorHandlesComplete : Obligations.TensorHandlesComplete := by
  intro h w free d b a off i once index bound
  refine ⟨?topen, ?topenW, ?topenNew, ?tclose⟩
  case topen =>
    refine does_of_done _ (fun _ => rfl) fun c m _ ⟨⟨hi, h1, hlt⟩, hw, ht⟩ => ?_
    simp only [topenIndex_of hi h1 hlt, hw]
    refine (if_neg ?_).trans (if_neg Bool.false_ne_true)
    rw [Option.isNone_eq_false_iff.2 ht]; exact Bool.false_ne_true
  case topenW =>
    refine does_of_done _ (fun _ => rfl) fun c m _ ⟨⟨hi, h1, hlt⟩, hw⟩ => ?_
    simp only [topenIndex_of hi h1 hlt, hw]
    rfl
  case topenNew =>
    refine does_rows (fun _ c _ => topenNewWants a off c) (topenNewBody w d b a off) (fun s c ⟨_, hw⟩ r hr => ?_)
      (fun s _ _ _ => exec_topenNew h w d b a off s) fun s c _ ⟨⟨hi, h1, hlt⟩, hw⟩ => ?_
    · rw [topenNewWants_of_begun (by rw [hw]; rfl)] at hr
      cases hr
    · simp only [topenNewBody, topenIndex_of hi h1 hlt, hw]
      rfl
  case tclose =>
    refine does_of_done _ (fun _ => rfl) fun c m _ hp => ?_
    rcases hp with hf | hw
    · exact if_pos (by rw [hf]; rfl)
    · simp only [hw]
      split <;> rfl

end Sys2Proof

namespace Sys2Proof.Machine

/-! ## Entries of the tensor table -/

/-- A write of field bytes leaves worlds and tiles. -/
theorem M.fieldWrite_frame {m m' : M} {k w key tid ver : Nat} {bs : List Byte} (h : m.fieldWrite k bs w key tid ver = some m') :
    m'.wts = m.wts ∧ m'.worlds = m.worlds ∧ m'.acc = m.acc := by
  unfold M.fieldWrite at h
  dsimp only at h
  split at h
  · split at h
    · cases h
    · cases h; exact ⟨rfl, rfl, rfl⟩
  · split at h
    · cases h
    · split at h
      · cases h; exact ⟨rfl, rfl, rfl⟩
      · cases h; exact ⟨rfl, rfl, rfl⟩
      · cases h; exact ⟨rfl, rfl, rfl⟩
      · cases h; exact ⟨rfl, rfl, rfl⟩
      · cases h

theorem M.fieldWrite_getD_frame (m : M) (k w key tid ver : Nat) (bs : List Byte) :
    ((m.fieldWrite k bs w key tid ver).getD m).wts = m.wts ∧ ((m.fieldWrite k bs w key tid ver).getD m).worlds = m.worlds ∧
      ((m.fieldWrite k bs w key tid ver).getD m).acc = m.acc := by
  cases h : m.fieldWrite k bs w key tid ver with
  | none => exact ⟨rfl, rfl, rfl⟩
  | some m' => exact M.fieldWrite_frame h

theorem M.putEntry_frame (m : M) (w i : Nat) (e : Tensor) :
    (m.putEntry w i e).wts = m.wts ∧ (m.putEntry w i e).worlds = put m.worlds w ((m.world w).putEntry i e) ∧
      (m.putEntry w i e).acc = m.acc := by
  obtain ⟨h1, h2, h3⟩ := M.fieldWrite_getD_frame (m.setWorld w ((m.world w).putEntry i e)) ((m.world w).ttbBase + 128 * i) w 0 0 0
    (e.bytes.take 64)
  obtain ⟨k1, k2, k3⟩ := M.fieldWrite_getD_frame
    (((m.setWorld w ((m.world w).putEntry i e)).fieldWrite ((m.world w).ttbBase + 128 * i) (e.bytes.take 64) w 0 0 0).getD
      (m.setWorld w ((m.world w).putEntry i e))) ((m.world w).ttbBase + 128 * i + 64) w 0 0 0 (e.bytes.drop 64)
  exact ⟨k1.trans h1, k2.trans h2, k3.trans h3⟩

theorem M.putEntry_world (m : M) (w i : Nat) (e : Tensor) : (m.putEntry w i e).world w = (m.world w).putEntry i e := by
  unfold M.world
  rw [(m.putEntry_frame w i e).2.1]
  exact mget_put_self ..

theorem M.putEntry_wt (m : M) (w i : Nat) (e : Tensor) (w' t : Nat) : (m.putEntry w i e).wt w' t = m.wt w' t := by
  unfold M.wt
  rw [(m.putEntry_frame w i e).1]

theorem World.entry_lt {wd : World} {i : Nat} {e : Tensor} (h : wd.entry i = some e) : i < 65536 := by
  unfold World.entry at h
  split at h
  · assumption
  · cases h

theorem World.entry_putEntry_self {wd : World} {i : Nat} (e : Tensor) (hi : i < 65536) : (wd.putEntry i e).entry i = some e := by
  unfold World.entry
  rw [if_pos hi]
  exact look_put_self ..

/-- VERSION rises by one. -/
theorem M.bumpVersion_world {m : M} {w i : Nat} {e : Tensor} (h : (m.world w).entry i = some e) :
    (m.bumpVersion w i).world w = (m.world w).putEntry i { e with ver := e.ver + 1 } := by
  unfold M.bumpVersion
  dsimp only
  rw [h]
  exact M.putEntry_world ..

theorem M.bumpVersion_wt (m : M) (w i w' t : Nat) : (m.bumpVersion w i).wt w' t = m.wt w' t := by
  unfold M.bumpVersion
  dsimp only
  split
  · exact M.putEntry_wt ..
  · rfl

/-! ## Entries that are made invalid -/

/-- An entry of the table is not valid. -/
def World.Shut (wd : World) (i : Nat) : Prop := ∀ e, wd.entry i = some e → e.valid = false

theorem World.Shut.tensor {wd : World} {i : Nat} (h : wd.Shut i) : (wd.tensor i).isNone = true := by
  unfold World.tensor
  cases he : wd.entry i with
  | none => rfl
  | some e => simp [h e he]

/-- What TCLOSE.free does to one entry (R222). -/
def M.shutEntry (w : Nat) (m : M) (i : Nat) : M :=
  ((m.world w).entry i).elim m fun e => m.putEntry w i { e with valid := false }

theorem World.shut_putEntry {wd : World} {i j : Nat} {e : Tensor} (h : wd.Shut j ∨ i = j) :
    (wd.putEntry i { e with valid := false }).Shut j := by
  intro e' he'
  unfold World.entry at he'
  split at he'
  · next hj =>
    by_cases hk : wd.entryAt j = wd.entryAt i
    · have hlook : look (put wd.tensors (wd.entryAt i) { e with valid := false }) (wd.entryAt j) = some e' := he'
      rw [hk, look_put_self] at hlook
      rw [← Option.some.inj hlook]
    · have hlook : look (put wd.tensors (wd.entryAt i) { e with valid := false }) (wd.entryAt j) = some e' := he'
      rw [look_put_ne _ _ hk] at hlook
      rcases h with h | rfl
      · refine h e' ?_
        unfold World.entry; rw [if_pos hj]; exact hlook
      · exact absurd rfl hk
  · cases he'

theorem M.shutEntry_shut {m : M} {w i j : Nat} (h : (m.world w).Shut j ∨ i = j) : ((m.shutEntry w i).world w).Shut j := by
  unfold M.shutEntry
  cases he : (m.world w).entry i with
  | none =>
    rcases h with h | rfl
    · exact h
    · exact fun e he' => absurd (he.symm.trans he') nofun
  | some e =>
    rw [Option.elim_some, M.putEntry_world]
    exact World.shut_putEntry h

theorem M.shutEntry_wt (m : M) (w i w' t : Nat) : (m.shutEntry w i).wt w' t = m.wt w' t := by
  unfold M.shutEntry
  cases (m.world w).entry i with
  | none => rfl
  | some e => exact M.putEntry_wt ..

theorem M.shutEntries_shut (w : Nat) (is : List Nat) (m : M) :
    ∀ j, (m.world w).Shut j ∨ j ∈ is → ((is.foldl (M.shutEntry w) m).world w).Shut j := by
  induction is generalizing m with
  | nil => exact fun j h => h.resolve_right (List.not_mem_nil)
  | cons i is ih =>
    intro j h
    refine ih _ j ?_
    rcases h with h | h
    · exact .inl (M.shutEntry_shut (.inl h))
    · rcases List.mem_cons.1 h with rfl | h
      · exact .inl (M.shutEntry_shut (.inr rfl))
      · exact .inr h

theorem M.shutEntries_wt (w : Nat) (is : List Nat) (m : M) (w' t : Nat) : (is.foldl (M.shutEntry w) m).wt w' t = m.wt w' t := by
  induction is generalizing m with
  | nil => rfl
  | cons i is ih => exact (ih _).trans (M.shutEntry_wt ..)

end Sys2Proof.Machine

namespace Sys2Proof

open Machine

/-! ## Changes of the tensor table -/

/-- The state when an instruction of the group of c has begun to wait. -/
def heldAt (s : State) (c : Ctx) (m : M) (wt : Wait) : State :=
  { s with m := m.updGroup c.w c.t c.slot fun g => { g with wait := wt, bank := none, wins := c.g.wins } }

/-- An instruction whose own effect waits. -/
theorem exec_of_hold {i : Instr} {h : Hdr} {f : Form} {s : State} {c : Ctx} {body : Ctx → M → Res} {m2 : M} {wt : Wait}
    (he : exec i s = issue h f s body) (hi : Issues h f s c) (hb : body c (counted c f s.m) = .hold m2 wt) :
    exec i s = .next (heldAt s c m2 wt) := by
  refine (he.trans (issue_of body hi)).trans ?_
  change Host.Outcome.next { s with m := endRes c f s.m (body c (counted c f s.m)) } = _
  rw [hb]
  rfl

/-- An instruction that makes accesses but has none to make now issues as any other. -/
theorem issueMem_of_nil {h : Hdr} {f : Form} {s : State} {c : Ctx} {xs : Ctx → M → List Want} {body : Ctx → M → List Want → Res}
    (hc : ctxOf h s = some c) (hx : xs c s.m = []) : issueMem h f s xs body = issue h f s fun c m => body c m (xs c m) := by
  obtain ⟨hg, hex⟩ := ctx_some hc
  have hctx : Ctx.mk c.t c.w c.slot c.g (c.g.lanes.filter fun (_, th) => guardOk h th) = c := by rw [← hex]
  unfold issueMem
  rw [hg]
  dsimp only
  rw [hctx, hx, show rowsOf [] = [] from rfl, List.append_nil]

section

variable {c : Ctx} {m : M} {s : State} {i : Nat}

/-- The group waits for a table change, and the change is one of those that are to reach every tile (R221). -/
def changing (c : Ctx) (m : M) : M := m.setWorld c.w { m.world c.w with changes := (m.world c.w).changes ++ [(c.t, c.slot)] }

theorem changeTable_eq (c : Ctx) (m : M) : changeTable c m = .hold (changing c m) (.table false) := rfl

theorem heldAt_group {wt : Wait} {g : Group} (hg : look (m.wt c.w c.t).groups c.slot = some g) :
    look ((heldAt s c m wt).m.wt c.w c.t).groups c.slot = some { g with wait := wt, bank := none, wins := c.g.wins } :=
  updGroup_look _ hg

theorem heldAt_world {wt : Wait} (w : Nat) : (heldAt s c m wt).m.world w = m.world w := by
  unfold heldAt M.world
  exact congrArg (fun ws => mget {} ws w) (M.updGroup_onlyAt m c.w c.t c.slot _).worlds_eq

theorem changing_world : (changing c m).world c.w = { m.world c.w with changes := (m.world c.w).changes ++ [(c.t, c.slot)] } :=
  M.world_setWorld_self ..

theorem pastSeams_world (sc : Scope) (w : Nat) : (m.pastSeams c sc).world w = m.world w := by
  unfold M.pastSeams
  split
  · unfold M.world; exact congrArg (fun ws => mget {} ws w) (M.updGroup_onlyAt m c.w c.t c.slot _).worlds_eq
  · rfl

theorem pastSeams_group {g : Group} (sc : Scope) (hg : look (m.wt c.w c.t).groups c.slot = some g) :
    ∃ g', look ((m.pastSeams c sc).wt c.w c.t).groups c.slot = some g' ∧ g'.pc = g.pc := by
  unfold M.pastSeams
  split
  · exact ⟨_, updGroup_look _ hg, rfl⟩
  · exact ⟨g, hg, rfl⟩

theorem fenceFlush_world (items : List Span) (ids : List Nat) (w : Nat) : (m.fenceFlush c items ids).world w = m.world w := by
  unfold M.fenceFlush M.flush
  dsimp only
  split <;> rfl

theorem counted_world (f : Form) (w : Nat) : (counted c f m).world w = m.world w := by
  unfold counted
  split
  · unfold M.world; exact congrArg (fun ws => mget {} ws w) (M.updGroup_onlyAt m c.w c.t c.slot _).worlds_eq
  · rfl

theorem counted_accOf (f : Form) (g : Group) (op : Nat) : (counted c f m).accOf g op = m.accOf g op := by
  unfold counted
  split
  · unfold M.accOf; rw [(M.updGroup_onlyAt m c.w c.t c.slot _).acc_eq]
  · rfl

theorem counted_pc {h : Hdr} {f : Form} (hc : ctxOf h s = some c) :
    ∃ g, look ((counted c f s.m).wt c.w c.t).groups c.slot = some g ∧ g.pc = c.g.pc := by
  refine ⟨_, counted_group hc, ?_⟩
  split <;> rfl

/-- What a table change makes: its group waits, and the change is under way. -/
theorem changing_waits {g : Group} (hg : look (m.wt c.w c.t).groups c.slot = some g) (hpc : g.pc = c.g.pc) :
    (∃ g', look ((heldAt s c (changing c m) (.table false)).m.wt c.w c.t).groups c.slot = some g' ∧ g'.wait = .table false ∧
      g'.pc = c.g.pc) ∧
    (∀ j, ((heldAt s c (changing c m) (.table false)).m.world c.w).entry j = (m.world c.w).entry j) ∧
    ((heldAt s c (changing c m) (.table false)).m.world c.w).changes = (m.world c.w).changes ++ [(c.t, c.slot)] := by
  refine ⟨⟨_, heldAt_group (m := changing c m) hg, rfl, hpc⟩, fun j => ?_, ?_⟩
  · rw [heldAt_world, changing_world]; rfl
  · rw [heldAt_world, changing_world]

/-- .w once its fence is over: VERSION rises, and the change begins (R220, R221). -/
theorem topenBump_of_over (hw : c.g.wait = .request .fence true) :
    topenBump c m i = .hold (changing c ((m.pastSeams c .partition).bumpVersion c.w i)) (.table false) := by
  unfold topenBump tensorFence
  exact fenceFor_over hw

theorem topenBump_first (hw : c.g.wait = .none) :
    (∃ m' : M, topenBump c m i = .hold (changing c (((m').pastSeams c .partition).bumpVersion c.w i)) (.table false) ∧
      (m'.wt c.w c.t).groups = (m.wt c.w c.t).groups ∧ m'.world c.w = m.world c.w) ∨
    ∃ (m' : M) (ids : List Nat), ids ≠ [] ∧ topenBump c m i = .hold m' (.fence ids .partition) ∧
      (m'.wt c.w c.t).groups = (m.wt c.w c.t).groups ∧ m'.world c.w = m.world c.w := by
  unfold topenBump tensorFence
  dsimp only
  rw [fenceFor_first hw]
  split
  · exact .inl ⟨_, rfl, fenceFlush_groups .., fenceFlush_world ..⟩
  · next hne => exact .inr ⟨_, _, by simpa using hne, rfl, fenceFlush_groups .., fenceFlush_world ..⟩

/-- The group waits for a table change, and its entry has the next VERSION. -/
theorem bumped_waits {e : Tensor} {g : Group} (hg : look (m.wt c.w c.t).groups c.slot = some g) (hpc : g.pc = c.g.pc)
    (he : (m.world c.w).entry i = some e) :
    (∃ g', look ((heldAt s c (changing c ((m.pastSeams c .partition).bumpVersion c.w i)) (.table false)).m.wt c.w c.t).groups c.slot =
      some g' ∧ g'.wait = .table false ∧ g'.pc = c.g.pc) ∧
    ((heldAt s c (changing c ((m.pastSeams c .partition).bumpVersion c.w i)) (.table false)).m.world c.w).entry i =
      some { e with ver := e.ver + 1 } ∧
    ((heldAt s c (changing c ((m.pastSeams c .partition).bumpVersion c.w i)) (.table false)).m.world c.w).changes =
      (m.world c.w).changes ++ [(c.t, c.slot)] := by
  obtain ⟨g', hg', hpc'⟩ := pastSeams_group (c := c) .partition hg
  have hworld : ((m.pastSeams c .partition).bumpVersion c.w i).world c.w = (m.world c.w).putEntry i { e with ver := e.ver + 1 } := by
    rw [M.bumpVersion_world (by rw [pastSeams_world]; exact he), pastSeams_world]
  obtain ⟨hwait, hentry, hchange⟩ := changing_waits (s := s) (m := (m.pastSeams c .partition).bumpVersion c.w i)
    (by rw [M.bumpVersion_wt]; exact hg') (hpc'.trans hpc)
  refine ⟨hwait, ?_, ?_⟩
  · rw [hentry, hworld]; exact World.entry_putEntry_self _ (World.entry_lt he)
  · rw [hchange, hworld]; rfl

theorem tableChanged_of_head {v t0 slot : Nat} {rest : List (Nat × Nat)} {g : Group} (hc : (m.world v).changes = (t0, slot) :: rest)
    (hg : look (m.wt v t0).groups slot = some g) (hw : g.wait = .table false) :
    ∃ m', m.tableChanged v = some m' ∧ (m'.world v).changes = rest ∧
      look (m'.wt v t0).groups slot = some { g with wait := .table true } := by
  unfold M.tableChanged
  simp only [hc]
  refine ⟨_, rfl, ?_, (updGroup_look (m := m.setWorld v { m.world v with changes := rest }) (g := g) _ hg).trans ?_⟩
  · unfold M.world
    rw [(M.updGroup_onlyAt ..).worlds_eq]
    exact congrArg World.changes (M.world_setWorld_self ..)
  · rw [hw]

/-- TOPEN.new's descriptor is accepted: its entry is written (R220). -/
theorem topenNewEnd_of_accepted {w : Bool} {op : Nat} (hset : (m.accOf c.g op).all (·.settled) = true)
    (hfault : (m.accOf c.g op).filterMap Access.fault? = []) {e : Tensor × Bool}
    (he : e = parseTensor ((m.accOf c.g op).flatMap fun x => match x.res with
        | some (.data bs) => bs
        | _ => []))
    (hnone : (m.world c.w).tensor i = none) (hacc : (m.world c.w).accepts e.1 e.2 = true) :
    ∃ m', (m'.wts = m.wts ∧ m'.world c.w = (m.world c.w).putEntry i e.1) ∧
      topenNewEnd c m w i op = if w then topenBump { c with g := { c.g with wait := .none } } m' i else changeTable c m' := by
  have hany : ((m.accOf c.g op).any fun a => !a.settled) = false := by
    rw [List.any_eq_false]; intro x hx; rw [List.all_eq_true.1 hset x hx]; exact Bool.false_ne_true
  refine ⟨({ m with acc := m.acc.filter fun a => !(a.group == c.g.uid && a.op == op) } : M).putEntry c.w i e.1,
    ⟨(M.putEntry_frame ..).1, M.putEntry_world ..⟩, ?_⟩
  unfold topenNewEnd
  dsimp only
  rw [if_neg (Bool.eq_false_iff.1 hany), hfault]
  subst he
  refine if_neg ?_
  have hworld : M.world { m with acc := m.acc.filter fun a => !(a.group == c.g.uid && a.op == op) } c.w = m.world c.w := rfl
  rw [hworld, hnone]
  exact Bool.eq_false_iff.1 (congrArg not hacc)

end

/-- TOPEN's own effect (R220, R221). -/
def topenBody (w : Bool) (d : BitVec 4) (b : BitVec 6) (c : Ctx) (m : M) : Res :=
  match topenIndex c b with
  | none => .trap m (whole c.ex .tensorBounds 0 0)
  | some i =>
    match c.g.wait with
    | .table true => .done (m.bindHandle c d i)
    | .table false => .hold m (.table false)
    | _ =>
      if ((m.world c.w).tensor i).isNone then .trap m (whole c.ex .tensorBounds 0 0)
      else if w then topenBump c m i
      else .done (m.bindHandle c d i)

theorem exec_topen (h : Hdr) (w : Bool) (d : BitVec 4) (b : BitVec 6) (s : State) :
    exec (.topen h w d b) s = issue h { srcForm 12 [] [b.toNat] with nonIdem := true, region := true, once := true } s (topenBody w d b) :=
  rfl

theorem topenBody_over {c : Ctx} {m : M} {d : BitVec 4} {b : BitVec 6} {i : Nat} (hi : topenIndex c b = some i)
    (hw : c.g.wait = .request .fence true) (ht : ((m.world c.w).tensor i).isSome = true) :
    topenBody true d b c m = .hold (changing c ((m.pastSeams c .partition).bumpVersion c.w i)) (.table false) := by
  unfold topenBody
  simp only [hi, hw]
  rw [Option.isNone_eq_false_iff.2 ht]
  exact topenBump_of_over hw

theorem tensor_isSome_of_entry {wd : World} {i : Nat} {e : Tensor} (he : wd.entry i = some e) (hv : e.valid = true) :
    (wd.tensor i).isSome = true := by
  unfold World.tensor; rw [he]; simp [hv]

/-- TCLOSE's own effect (R222). -/
def tcloseBody (free : Bool) (d : BitVec 4) (c : Ctx) (m : M) : Res :=
  if !free then .done (m.bindHandle c d 0)
  else
    match c.g.wait with
    | .table true => .done (m.bindHandle c d 0)
    | .table false => .hold m (.table false)
    | _ =>
      if (m.closing c d).isEmpty then .done (m.bindHandle c d 0)
      else tensorFence c m (m.closing c d) fun m' => changeTable c ((m.closing c d).foldl (M.shutEntry c.w) m')

theorem exec_tclose (h : Hdr) (free : Bool) (d : BitVec 4) (s : State) :
    exec (.tclose h free d) s =
      issue h { srcForm 8 [] with nonIdem := true, region := true, once := free } s (tcloseBody free d) := rfl

theorem tcloseBody_over {c : Ctx} {m : M} {d : BitVec 4} (hw : c.g.wait = .request .fence true) (hne : m.closing c d ≠ []) :
    tcloseBody true d c m = .hold (changing c ((m.closing c d).foldl (M.shutEntry c.w) (m.pastSeams c .partition))) (.table false) := by
  unfold tcloseBody
  simp only [hw, Bool.not_true, Bool.false_eq_true, if_false]
  refine (if_neg (not_isEmpty hne)).trans ?_
  unfold tensorFence
  exact fenceFor_over hw

/-- Settles O14: each change writes its entries and begins, and its completion ends the wait of the oldest. -/
theorem tensorTableChanges : Obligations.TensorTableChanges := by
  intro h d b a off i s c once index waiting
  refine ⟨?topen, ?topenNew, ?fresh, ?tclose, ?complete⟩
  case topen =>
    intro e hi ⟨hix, h1, hlt⟩ hw he hv
    obtain ⟨g, hg, hpc⟩ := counted_pc (f := once 12 [b.toNat] true) hi.1.1
    have hworld := counted_world (c := c) (m := s.m) (once 12 [b.toNat] true) c.w
    rw [← hworld] at he ⊢
    exact ⟨_, exec_of_hold (exec_topen h true d b s) hi
      (topenBody_over (topenIndex_of hix h1 hlt) hw (tensor_isSome_of_entry he hv)), bumped_waits hg hpc he⟩
  case topenNew =>
    intro e hi ⟨hix, h1, hlt⟩ hw he
    obtain ⟨g, hg, hpc⟩ := counted_pc (f := once 12 [b.toNat, a.toNat] true) hi.1.1
    have hexec := (exec_topenNew h true d b a off s).trans
      (issueMem_of_nil hi.1.1 (topenNewWants_of_begun (by rw [hw]; rfl)))
    have hworld := counted_world (c := c) (m := s.m) (once 12 [b.toNat, a.toNat] true) c.w
    rw [← hworld] at he ⊢
    refine ⟨_, exec_of_hold hexec hi ?_, bumped_waits hg hpc he⟩
    simp only [topenNewBody, topenIndex_of hix h1 hlt, hw]
    exact topenBump_of_over hw
  case fresh =>
    intro op hi ⟨hix, h1, hlt⟩ hw hset hfault bs e hnone hacc
    obtain ⟨g, hg, hpc⟩ := counted_pc (f := once 12 [b.toNat, a.toNat] true) hi.1.1
    have hworld := counted_world (c := c) (m := s.m) (once 12 [b.toNat, a.toNat] true) c.w
    have hexec (w : Bool) := (exec_topenNew h w d b a off s).trans
      (issueMem_of_nil hi.1.1 (topenNewWants_of_begun (by rw [hw]; rfl)))
    have hend (w : Bool) := topenNewEnd_of_accepted (m := counted c (once 12 [b.toNat, a.toNat] true) s.m) (c := c) (i := i) (w := w) (op := op)
      (e := e) (by rw [counted_accOf]; exact hset) (by rw [counted_accOf]; exact hfault) (by rw [counted_accOf] <;> rfl)
      (by rw [hworld]; exact hnone) (by rw [hworld]; exact hacc)
    have hentry {m' : M} (h' : m'.world c.w = ((counted c (once 12 [b.toNat, a.toNat] true) s.m).world c.w).putEntry i e.1) :
        (m'.world c.w).entry i = some e.1 := by rw [h']; exact World.entry_putEntry_self _ hlt
    have hgroup {m' : M} (h' : m'.wts = (counted c (once 12 [b.toNat, a.toNat] true) s.m).wts) :
        look (m'.wt c.w c.t).groups c.slot = some g := by unfold M.wt; rw [h']; exact hg
    constructor
    · obtain ⟨m', ⟨hwts, hw'⟩, hb⟩ := hend false
      obtain ⟨hwait, hkeeps, -⟩ := changing_waits (s := s) (hgroup hwts) hpc
      refine ⟨_, exec_of_hold (hexec false) hi ?_, hwait, (hkeeps i).trans (hentry hw')⟩
      simp only [topenNewBody, topenIndex_of hix h1 hlt, hw]
      exact hb
    · obtain ⟨m', ⟨hwts, hw'⟩, hb⟩ := hend true
      have hbody : topenNewBody true d b a off c (counted c (once 12 [b.toNat, a.toNat] true) s.m) (topenNewWants a off c) =
          topenBump { c with g := { c.g with wait := .none } } m' i := by
        simp only [topenNewBody, topenIndex_of hix h1 hlt, hw]
        exact hb
      rcases topenBump_first (c := { c with g := { c.g with wait := .none } }) (m := m') (i := i) rfl with
        ⟨m2, hbump, hgs, hw2⟩ | ⟨m2, ids, hne, hbump, hgs, hw2⟩
      · obtain ⟨⟨g', hg', hwait, hpc'⟩, hver, -⟩ := bumped_waits (s := s) (c := c) (m := m2) (i := i)
          ((congrArg (fun gs => look gs c.slot) hgs).trans (hgroup hwts)) hpc ((congrArg (World.entry · i) hw2).trans (hentry hw'))
        exact ⟨_, g', exec_of_hold (hexec true) hi (hbody.trans hbump), hg', hpc', .inl ⟨hwait, hver⟩⟩
      · refine ⟨_, _, exec_of_hold (hexec true) hi (hbody.trans hbump),
          heldAt_group ((congrArg (fun gs => look gs c.slot) hgs).trans (hgroup hwts)), hpc, .inr ⟨ids, hne, rfl, ?_⟩⟩
        rw [heldAt_world]
        exact (congrArg (World.entry · i) hw2).trans (hentry hw')
  case tclose =>
    intro hi hw hne
    obtain ⟨g, hg, hpc⟩ := counted_pc (f := once 8 [] true) hi.1.1
    obtain ⟨g', hg', hpc'⟩ := pastSeams_group (c := c) .partition hg
    have hshut := M.shutEntries_shut c.w (s.m.closing c d) ((counted c (once 8 [] true) s.m).pastSeams c .partition)
    have hclosing : (counted c (once 8 [] true) s.m).closing c d = s.m.closing c d := by
      unfold M.closing; rw [counted_world]
    obtain ⟨hwait, hkeeps, -⟩ := changing_waits (s := s)
      (m := (s.m.closing c d).foldl (M.shutEntry c.w) ((counted c (once 8 [] true) s.m).pastSeams c .partition))
      (by rw [M.shutEntries_wt]; exact hg') (hpc'.trans hpc)
    refine ⟨_, exec_of_hold (exec_tclose h true d s) hi ((tcloseBody_over hw (by rw [hclosing]; exact hne)).trans (by rw [hclosing])),
      hwait, fun j hj => ?_⟩
    exact World.Shut.tensor fun e' he' => hshut j (.inr hj) e' ((hkeeps j).symm.trans he')
  case complete =>
    intro v t0 slot rest g hc hg hw
    obtain ⟨m', hm', hchange, hgroup⟩ := tableChanged_of_head hc hg hw
    exact ⟨_, event_of_some (f := fun m => m.tableChanged v) hm', hchange, hgroup⟩

end Sys2Proof

/-! PROOFS. Loads, stores, messages and far accesses (O9, O10, O23). -/

namespace Sys2Proof

open Machine

/-! ## Loads, prefetches and atomics -/

/-- An instruction that makes accesses, with windows and stack restored, whose own effect completes on any machine. -/
theorem does_mem_of_done {i : Instr} {h : Hdr} {f : Form} {p : Ctx → M → Prop} {e : Ctx → M → M} (xs : Ctx → M → List Want)
    (body : Ctx → M → List Want → Res) (hr : ∀ c m, p c m → 5 ≤ (m.wt c.w c.t).restored)
    (he : ∀ s, exec i s = issueMem h f s xs body) (hb : ∀ c m, p c m → body c m (xs c m) = .done (e c m)) : Does i h f p e :=
  does_mem (fun _ => xs) body hr (fun s _ _ _ => he s) fun _ c _ hp => hb c _ hp

/-- The coordinate registers that LDT and STT read, from the executing lanes (R166, R217). -/
theorem coords_eq {h : Hdr} {s : State} {c : Ctx} (hc : ctxOf h s = some c) (hb : BitVec 4) (a : BitVec 8) :
    s.coords h hb a = [(a.toNat, (c.ex.filterMap fun (_, th) =>
      ((s.m.world c.w).tensor (th.hr hb.toNat).toNat).map (·.ndim)).foldl max 1)] := by
  obtain ⟨hg, hex⟩ := ctx_some hc
  unfold State.coords
  rw [hg, hex, List.filterMap_filter]

theorem coordsFree_of_nil {m : M} {c : Ctx} {hb : BitVec 4} {a : BitVec 8} (hv : c.coordViolators (m.world c.w) hb a = []) (k : Res) :
    m.coordsFree c hb a k = k := by
  unfold M.coordsFree
  rw [hv]
  rfl

/-- What LDT makes in its executing lanes, once its coordinates are free (R217, R218). -/
def ldtRes (fl : Bool) (dv : BitVec 8) (hb : BitVec 4) (a : BitVec 8) (o0 : BitVec 24) (o : BitVec 32) (x : MemX) (h : Hdr) (c : Ctx)
    (m : M) : Res :=
  let ps := m.tensorLanes c .read hb a o0 o
  let sx := ps.filterMap fun (l, _, p) => match p with
    | .at _ _ e => if fmtSigned e.fmt then some l else none
    | .outside e => if fmtSigned e.fmt then some l else none
    | .bad _ _ => none
  let p : Pend := { id := m.uid, pc := c.g.pc, len := 16, ll := true, late := true, nonIdem := false,
                    dest := .tens dv sx, lanes := c.ex.map (·.1) }
  .done (ps.foldl (fun m (l, th, q) => m.ldtLane c fl x p.id l th q) (({ m with uid := m.uid + 1 } : M).beginLL c h p { vec := one dv }))

theorem ldt_does (h : Hdr) (fl : Bool) (dv : BitVec 8) (hb : BitVec 4) (a : BitVec 8) (o0 : BitVec 24) (o : BitVec 32) (x : MemX) (n : Nat) :
    Does (.ldt h fl dv hb a o0 o x) h { regForm 16 dv 1 (one a) with also := [(a.toNat, n)] }
      (fun c m => n = (c.ex.filterMap fun (_, th) => ((m.world c.w).tensor (th.hr hb.toNat).toNat).map (·.ndim)).foldl max 1 ∧
        5 ≤ (m.wt c.w c.t).restored ∧ c.coordViolators (m.world c.w) hb a = [])
      (fun c m =>
        let ps := m.tensorLanes c .read hb a o0 o
        let sx := ps.filterMap fun (l, _, p) => match p with
          | .at _ _ e => if fmtSigned e.fmt then some l else none
          | .outside e => if fmtSigned e.fmt then some l else none
          | .bad _ _ => none
        let p : Pend := { id := m.uid, pc := c.g.pc, len := 16, ll := true, late := true, nonIdem := false,
                          dest := .tens dv sx, lanes := c.ex.map (·.1) }
        ps.foldl (fun m (l, th, q) => m.ldtLane c fl x p.id l th q) (({ m with uid := m.uid + 1 } : M).beginLL c h p { vec := one dv })) := by
  refine does_mem (fun _ c m => (m.tensorLanes c .read hb a o0 o).filterMap ldtWant) (fun c m _ => m.coordsFree c hb a (ldtRes fl dv hb a o0 o x h c m))
    (fun c m hp => hp.2.1) (fun s c hi hp => ?_) fun s c _ hp => coordsFree_of_nil hp.2.2 _
  have hcoords := coords_eq hi.1.1.1 hb a
  rw [counted_world] at hp
  rw [← hp.1] at hcoords
  change execLdt h fl dv hb a o0 o x s = _
  unfold execLdt
  rw [hcoords]
  rfl

/-- A late-faulting instruction that issues one access for each of its lanes, after a change of the machine (R55, R306). -/
theorem issueLate_does {i : Instr} {h : Hdr} {f : Form} {p : Ctx → M → Prop} {len : Nat} {nonIdem : Bool} {dest : Dest} {obj : WinObj}
    {sh : Ctx → Nat → Shape} {xs : Ctx → M → List Want} (pre : Ctx → M → List Want → M) (hr : ∀ c m, p c m → 5 ≤ (m.wt c.w c.t).restored)
    (he : ∀ s, exec i s = issueMem h f s xs fun c m xs => .done ((pre c m xs).issueLate c h len nonIdem dest obj (sh c) xs)) :
    Does i h f p fun c m => (pre c m (xs c m)).issueLate c h len nonIdem dest obj (sh c) (xs c m) :=
  does_mem (fun _ => xs) _ hr (fun s _ _ _ => he s) fun _ _ _ _ => rfl

/-- The same where the instruction faults in deterministic mode, by a test that fails (R127). -/
theorem issueLate_does_unless {i : Instr} {h : Hdr} {f : Form} {p : Ctx → M → Prop} {len : Nat} {nonIdem : Bool} {dest : Dest}
    {obj : WinObj} {sh : Ctx → Nat → Shape} {xs : Ctx → M → List Want} (pre : Ctx → M → List Want → M) (test : Ctx → M → Bool)
    (hr : ∀ c m, p c m → 5 ≤ (m.wt c.w c.t).restored) (ht : ∀ c m, p c m → test c m = false)
    (he : ∀ s, exec i s = issueMem h f s xs fun c m xs =>
      if test c m then .trap m (whole c.ex .detScope 0 0) else .done ((pre c m xs).issueLate c h len nonIdem dest obj (sh c) xs)) :
    Does i h f p fun c m => (pre c m (xs c m)).issueLate c h len nonIdem dest obj (sh c) (xs c m) :=
  does_mem (fun _ => xs) _ hr (fun s _ _ _ => he s) fun _ _ _ hp => if_neg (Bool.eq_false_iff.1 (ht _ _ hp))

/-- Settles O9: each body completes, with its lanes' accesses on their way. -/
theorem loadsIssue : Obligations.LoadsIssue := by
  intro h d dv a cx sx sidx fl sh mm lc hint base off b cc op back dims load
  refine ⟨?ld, ?ldg, ?ldl, ?pref, ?atom, fun hb o0 o x n => ldt_does h fl dv hb a o0 o x n⟩
  case ld => exact issueLate_does (fun _ m _ => m) (fun _ _ hp => hp) fun _ => rfl
  case ldg => exact issueLate_does (fun _ m _ => m) (fun _ _ hp => hp) fun _ => rfl
  case ldl =>
    exact issueLate_does (fun c m xs => (m.flushFor c xs).onLanes c fun _ th => { th with resv := none }) (fun _ _ hp => hp) fun _ => rfl
  case pref => exact does_of_done _ (fun _ => rfl) fun _ _ _ _ => rfl
  case atom =>
    exact issueLate_does_unless (fun c m xs => m.flushFor c xs) (fun c m => m.det c.g.team && wideScope mm.x.scope)
      (fun _ _ hp => hp.1) (fun _ _ hp => hp.2) fun _ => rfl

/-! ## Stores -/

/-- The stores of lanes that all pass their checks. -/
def storedLanes (c : Ctx) (m : M) (size reach : Nat) (lc : Lc) (xs : List Want) : M :=
  (m.checkAll c .write size reach xs).go.foldl (fun m' (x, p) =>
    m'.storeLane c { kind := fun _ => .store, size := size, lc := lc, reach := reach, op := m.uid } x p) { m with uid := m.uid + 1 }

theorem stores_of_clean {c : Ctx} {m : M} {size reach : Nat} {lc : Lc} {xs : List Want}
    (hmiss : (m.checkAll c .write size reach xs).miss = []) (hbad : (m.checkAll c .write size reach xs).bad = []) :
    stores c m size reach lc xs = .done (storedLanes c m size reach lc xs) := by
  unfold stores
  dsimp only
  rw [hmiss, hbad]
  rfl

theorem stores_does {i : Instr} {h : Hdr} {f : Form} {size reach : Nat} {lc : Lc} (xs : Ctx → List Want)
    (he : ∀ s, exec i s = issueMem h f s (fun c _ => xs c) fun c m xs => stores c m size reach lc xs) :
    Does i h f (fun c m => 5 ≤ (m.wt c.w c.t).restored ∧ (m.checkAll c .write size reach (xs c)).miss = [] ∧
      (m.checkAll c .write size reach (xs c)).bad = []) fun c m => storedLanes c m size reach lc (xs c) :=
  does_mem_of_done _ _ (fun _ _ hp => hp.1) he fun _ _ ⟨_, hmiss, hbad⟩ => stores_of_clean hmiss hbad

/-- The stores of STT's lanes, each with its size (R217). -/
def sttLanes (fl : Bool) (hb : BitVec 4) (a dv : BitVec 8) (o0 : BitVec 24) (o : BitVec 32) (c : Ctx) (m : M) : List (Nat × Want) :=
  c.ex.filterMap fun (l, th) => sttWant fl dv l th (tensorLane .write (m.world c.w) c.g th hb a o0 o)

theorem sttLanes_eq (fl : Bool) (hb : BitVec 4) (a dv : BitVec 8) (o0 : BitVec 24) (o : BitVec 32) (c : Ctx) (m : M) :
    ((m.tensorLanes c .write hb a o0 o).filterMap fun (l, th, p) => sttWant fl dv l th p) = sttLanes fl hb a dv o0 o c m :=
  List.filterMap_map ..

/-- What STT makes of its lanes' stores. -/
def sttRes (x : MemX) (c : Ctx) (m : M) (ws : List (Nat × Want)) : Res :=
  let r := ws.map fun (n, w) => (n, m.checkAll c .write n 0 [w])
  let miss := r.flatMap fun (_, k) => k.miss
  let bad := r.flatMap fun (_, k) => k.bad
  if !miss.isEmpty then .hold (m.startWalks c miss) .walk
  else
    let m1 := r.foldl (fun m' (n, k) => k.go.foldl (fun m' (w, p) =>
      m'.storeLane c { kind := fun _ => .store, size := n, lc := x.lc, op := m.uid } w p) m') { m with uid := m.uid + 1 }
    if bad.isEmpty then .done m1 else .trap m1 bad

theorem sttRes_of_clean {x : MemX} {c : Ctx} {m : M} {ws : List (Nat × Want)}
    (hclean : ∀ q ∈ ws, (m.checkAll c .write q.1 0 [q.2]).miss = [] ∧ (m.checkAll c .write q.1 0 [q.2]).bad = []) :
    sttRes x c m ws = .done ((ws.map fun (n, w) => (n, m.checkAll c .write n 0 [w])).foldl (fun m' (n, k) =>
      k.go.foldl (fun m' (w, p) => m'.storeLane c { kind := fun _ => .store, size := n, lc := x.lc, op := m.uid } w p) m')
      { m with uid := m.uid + 1 }) := by
  have hmiss : ((ws.map fun (n, w) => (n, m.checkAll c .write n 0 [w])).flatMap fun (_, k) => k.miss) = [] := by
    rw [List.flatMap_map]
    exact List.flatMap_eq_nil_iff.2 fun q hq => (hclean q hq).1
  have hbad : ((ws.map fun (n, w) => (n, m.checkAll c .write n 0 [w])).flatMap fun (_, k) => k.bad) = [] := by
    rw [List.flatMap_map]
    exact List.flatMap_eq_nil_iff.2 fun q hq => (hclean q hq).2
  unfold sttRes
  dsimp only
  rw [hmiss, hbad]
  rfl

theorem stt_does (h : Hdr) (fl : Bool) (hb : BitVec 4) (a dv : BitVec 8) (o0 : BitVec 24) (o : BitVec 32) (x : MemX) (n : Nat) :
    Does (.stt h fl hb a dv o0 o x) h { srcForm 16 (one a ++ one dv) with also := [(a.toNat, n)] }
      (fun c m => n = (c.ex.filterMap fun (_, th) => ((m.world c.w).tensor (th.hr hb.toNat).toNat).map (·.ndim)).foldl max 1 ∧
        5 ≤ (m.wt c.w c.t).restored ∧ c.coordViolators (m.world c.w) hb a = [] ∧
        ∀ q ∈ sttLanes fl hb a dv o0 o c m, (m.checkAll c .write q.1 0 [q.2]).miss = [] ∧ (m.checkAll c .write q.1 0 [q.2]).bad = [])
      (fun c m => ((sttLanes fl hb a dv o0 o c m).map fun (n, w) => (n, m.checkAll c .write n 0 [w])).foldl (fun m' (n, k) =>
        k.go.foldl (fun m' (w, p) => m'.storeLane c { kind := fun _ => .store, size := n, lc := x.lc, op := m.uid } w p) m')
        { m with uid := m.uid + 1 }) := by
  refine does_mem (fun _ c m => (sttLanes fl hb a dv o0 o c m).map (·.2))
    (fun c m _ => m.coordsFree c hb a (sttRes x c m (sttLanes fl hb a dv o0 o c m)))
    (fun c m hp => hp.2.1) (fun s c hi hp => ?_) fun s c _ ⟨_, _, hfree, hclean⟩ =>
      (coordsFree_of_nil hfree _).trans (sttRes_of_clean hclean)
  have hcoords := coords_eq hi.1.1.1 hb a
  rw [counted_world] at hp
  rw [← hp.1] at hcoords
  change execStt h fl hb a dv o0 o x s = _
  unfold execStt
  rw [hcoords]
  simp only [sttLanes_eq]
  rfl

open Machine

/-! ## STC -/

/-- What becomes of an STC's lanes once they have their status: one that performed elsewhere stays counted as a store (R206). -/
def stcKept (c : Ctx) (op : Nat) (x : Access) : Option Access :=
  if x.group == c.g.uid && x.op == op then
    (if x.res == some (.status true) && x.homek != 3 && x.phase != .done true 0 then some { x with kind := .store, res := none } else none)
  else some x

/-- The status of an STC's lane (R206). -/
def stcStatus (as : List Access) (l : Nat) : Option Bool :=
  (as.find? (·.lane == l)).bind fun (x : Access) => match x.res with
    | some (.status ok) => some ok
    | _ => none

theorem stcEnd_of_settled {c : Ctx} {m : M} {d : BitVec 8} {op : Nat} (hset : (m.accOf c.g op).all (·.settled) = true)
    (hfault : (m.accOf c.g op).filterMap Access.fault? = []) :
    stcEnd c m d op = .done (({ m with acc := m.acc.filterMap (stcKept c op) } : M).onLanes c fun l th =>
      match stcStatus (m.accOf c.g op) l with
      | some ok => th.setX d.toNat (if ok then 0 else 1)
      | none => th) := by
  have hany : ((m.accOf c.g op).any fun x => !x.settled) = false := by
    rw [List.any_eq_false]; intro x hx; rw [List.all_eq_true.1 hset x hx]; exact Bool.false_ne_true
  unfold stcEnd
  dsimp only
  rw [if_neg (Bool.eq_false_iff.1 hany), hfault]
  rfl

/-- What the lanes of an STC reach at its first issue (R229). -/
def stcWants (mm : Mem) (b : DataReg) (c : Ctx) (m : M) : List Want :=
  if c.g.wait.begun then [] else c.ex.map fun (l, th) => { m.detLane c (wantOf c.g l th mm) with data := dataBytes c.g th b mm.sz }

/-- STC's own effect (R229). -/
def stcBody (d : BitVec 8) (mm : Mem) (c : Ctx) (m : M) (xs : List Want) : Res :=
  match c.g.wait with
  | .result op => stcEnd c m d op
  | _ =>
    let n := (m.flushFor c xs).fresh
    let sh : Shape := { kind := fun _ => .stc, size := mm.sz.bytes, lc := mm.x.lc, reach := 1, op := n.1 }
    stcEnd c (xs.foldl (fun m x => m.lateLane c sh x) n.2) d n.1

theorem exec_stc (h : Hdr) (d : BitVec 8) (mm : Mem) (b : DataReg) (s : State) :
    exec (.stc h d mm b) s = issueMem h
      { memForm 12 mm.base (b.vecs mm.sz) (one d) b.unis with nonIdem := true, region := true } s (stcWants mm b) (stcBody d mm) := rfl

theorem stc_does (h : Hdr) (d : BitVec 8) (mm : Mem) (b : DataReg) (op : Nat) :
    Does (.stc h d mm b) h { memForm 12 mm.base (b.vecs mm.sz) (one d) b.unis with nonIdem := true, region := true }
      (fun c m => c.g.wait = .result op ∧ (m.accOf c.g op).all (·.settled) = true ∧ (m.accOf c.g op).filterMap Access.fault? = [])
      (fun c m => ({ m with acc := m.acc.filterMap (stcKept c op) } : M).onLanes c fun l th =>
        match stcStatus (m.accOf c.g op) l with
        | some ok => th.setX d.toNat (if ok then 0 else 1)
        | none => th) := by
  refine does_rows (fun _ => stcWants mm b) (stcBody d mm) (fun s c ⟨hw, _⟩ r hr => ?_) (fun s _ _ _ => exec_stc h d mm b s)
    fun s c _ ⟨hw, hset, hfault⟩ => ?_
  · have hnil : stcWants mm b c s.m = [] := if_pos (by rw [hw]; rfl)
    rw [hnil] at hr
    cases hr
  · unfold stcBody
    rw [hw]
    exact stcEnd_of_settled hset hfault

/-- Settles O10: the lanes of each store have passed their checks, and the lanes of an STC have their status. -/
theorem storesComplete : Obligations.StoresComplete := by
  intro h a cx dv sidx fl sh mm b back dims clean put direct scatter
  exact ⟨stores_does direct fun _ => rfl, stores_does scatter fun _ => rfl, fun hb o0 o x n => stt_does h fl hb a dv o0 o x n,
    fun op => stc_does h dv mm b op⟩

/-! ## Messages, remote and host accesses -/

/-- A message on its way (R420). -/
def sentTo (c : Ctx) (m : M) (dest : W32) (route : Option Nat) (droute : Nat) (msg : Msg) : M :=
  { m with uid := m.uid + 1, flights := m.flights ++ [
    { id := m.uid, world := c.w, src := c.t, dest := keyOfName dest, route := route, droute := droute, msg := msg, group := c.g.uid,
      epoch := c.g.seams }] }

theorem sendMsg_of_current {c : Ctx} {m : M} {dest : W32} {route : Option Nat} (droute : Nat) (msg : Msg)
    (hcur : m.current (m.worldPart c.w) dest = true) :
    sendMsg c m dest route droute msg =
      if m.heldAtSource (m.worldPart c.w) .message route c.t (keyOfName dest) then .hold m (.pend .engine)
      else .done (sentTo c m dest route droute msg) := by
  unfold sendMsg
  rw [hcur]
  rfl

theorem send_does (h : Hdr) (sz : Sz) (r : BitVec 6) (a : BitVec 8) :
    Does (.send h sz r a) h (sendForm a sz [])
      (fun c m => m.det c.g.team = false ∧ (mget {} (m.wt c.w c.t).routes r.toNat).v = true ∧
        m.current (m.worldPart c.w) (mget {} (m.wt c.w c.t).routes r.toNat).dest = true ∧
        m.heldAtSource (m.worldPart c.w) .message (some r.toNat) c.t (keyOfName (mget {} (m.wt c.w c.t).routes r.toNat).dest) = false)
      (fun c m => sentTo c m (mget {} (m.wt c.w c.t).routes r.toNat).dest (some r.toNat)
        (mget {} (m.wt c.w c.t).routes r.toNat).droute.toNat (msgOf c a sz)) := by
  refine does_of_done _ (fun _ => rfl) fun c m _ ⟨hdet, hv, hcur, hheld⟩ => ?_
  refine (if_neg (Bool.eq_false_iff.1 hdet)).trans ((if_neg ?_).trans ((sendMsg_of_current _ _ hcur).trans (if_neg ?_)))
  · rw [hv]; exact Bool.false_ne_true
  · exact Bool.eq_false_iff.1 hheld

theorem sendTo_does (h : Hdr) (sz : Sz) (kb dr : BitVec 6) (a : BitVec 8) :
    Does (.sendTo h sz kb dr a) h (sendForm a sz [kb.toNat])
      (fun c m => m.det c.g.team = false ∧ m.current (m.worldPart c.w) ((c.g.kr kb.toNat).extractLsb' 0 32) = true ∧
        m.heldAtSource (m.worldPart c.w) .message none c.t (keyOfName ((c.g.kr kb.toNat).extractLsb' 0 32)) = false)
      (fun c m => sentTo c m ((c.g.kr kb.toNat).extractLsb' 0 32) none dr.toNat (msgOf c a sz)) := by
  refine does_of_done _ (fun _ => rfl) fun c m _ ⟨hdet, hcur, hheld⟩ => ?_
  exact (if_neg (Bool.eq_false_iff.1 hdet)).trans ((sendMsg_of_current _ _ hcur).trans (if_neg (Bool.eq_false_iff.1 hheld)))

theorem sendTo_holds (h : Hdr) (sz : Sz) (kb dr : BitVec 6) (a : BitVec 8) :
    Holds (.sendTo h sz kb dr a) h (sendForm a sz [kb.toNat])
      (fun c m => m.det c.g.team = false ∧ m.current (m.worldPart c.w) ((c.g.kr kb.toNat).extractLsb' 0 32) = true ∧
        m.heldAtSource (m.worldPart c.w) .message none c.t (keyOfName ((c.g.kr kb.toNat).extractLsb' 0 32)) = true)
      (fun _ _ => .pend .engine) (fun _ m => m) := by
  refine holds_of_body _ (fun _ => rfl) (fun c m ⟨hdet, hcur, hheld⟩ => ?_) fun c m => rfl
  exact (if_neg (Bool.eq_false_iff.1 hdet)).trans ((sendMsg_of_current _ _ hcur).trans (if_pos hheld))

/-- Settles O23: the conditions leave each instruction the branch in which it completes or waits. -/
theorem fabricCompletes : Obligations.FabricCompletes := by
  intro h d a sz r dr kb mk dd b cc sx fl base off op hop back lanesOf cv cu fly free route named held
  refine ⟨?idx, ?fix', send_does h sz r a, sendTo_does h sz kb dr a, sendTo_holds h sz kb dr a, ?recv, ?rld, ?rst, ?ratom, ?hatom⟩
  case idx | fix' => exact does_of_done _ (fun _ => rfl) fun _ _ _ _ => rfl
  case recv => exact does_of_done _ (fun _ => rfl) fun c m _ hdet => if_neg (Bool.eq_false_iff.1 hdet)
  case rld => exact issueLate_does (fun _ m _ => m) (fun _ _ hp => hp) fun _ => rfl
  case rst => exact stores_does _ fun _ => rfl
  case ratom =>
    have hcv : cv (op == .cas) = if op = .cas then cc.vecs sz else [] := by simp only [cv, beq_iff_eq]
    have hcu : cu (op == .cas) = if op = .cas then cc.unis else [] := by simp only [cu, beq_iff_eq]
    rw [hcv, hcu]
    exact issueLate_does_unless (xs := fun c _ => lanesOf c.ex c) (fun _ m _ => m) (fun c m => m.det c.g.team) (fun _ _ hp => hp.1)
      (fun _ _ hp => hp.2) fun _ => rfl
  case hatom =>
    have hcv : cv (hop == .cas) = if hop = .cas then cc.vecs sz else [] := by simp only [cv, beq_iff_eq]
    have hcu : cu (hop == .cas) = if hop = .cas then cc.unis else [] := by simp only [cu, beq_iff_eq]
    rw [hcv, hcu]
    exact issueLate_does_unless (xs := fun c _ => lanesOf c.ex c) (fun _ m _ => m) (fun c m => m.det c.g.team) (fun _ _ hp => hp.1)
      (fun _ _ hp => hp.2) fun _ => rfl

end Sys2Proof

/-! PROOFS. The nodes of a chain act, and copies move (O30, O32). -/

namespace Sys2Proof

open Machine

/-! ## Nodes of a chain -/

section

variable {m : M} {t w ch team : Nat} {n : NodeSt} {rest : List NodeSt}

theorem nodeReached_eq (hw : m.pilotWorld t = some w) (ho : ((m.wt w t).chain ch).owner = some team)
    (hr : ((m.wt w t).chain ch).mayReach = true) :
    m.nodeReached t ch = (match m.readNode w t team [] ((m.wt w t).chain ch).walk with
      | (.bad code d, m1) => some (m1.haltChain w t ch code ((m.wt w t).chain ch).walk d true)
      | (.miss va, _) => m.ask t w va
      | (.later, _) => none
      | (.node nd ds, m1) => some (
          let m2 : M := { m1 with uid := m1.uid + 1 }
          let n := mkNode ((m.wt w t).chain ch).walk m1.uid nd ds
          m2.setWT w t ((m2.wt w t).setChain ch (((m.wt w t).chain ch).reach n (m2.nextOf w ((m.wt w t).chain ch) n))))) := by
  unfold M.nodeReached M.reachNode
  simp only [hw, ho, hr, Bool.not_true, Bool.false_eq_true, if_false]
  cases m.readNode w t team [] ((m.wt w t).chain ch).walk with
  | mk r m1 => cases r <;> rfl

theorem nodeDispatch_of_ready (hw : m.pilotWorld t = some w) (ho : ((m.wt w t).chain ch).owner = some team)
    (hn : ((m.wt w t).chain ch).nodes = n :: rest) (hk : n.nd.kind = 1) (hh : ((m.wt w t).chain ch).halted = false)
    (hd : n.dispatched = false) (hb : n.nd.nin ≤ n.begun.length) (hc : ∀ k ∈ m.copies, k.node ≠ n.uid)
    (hs : ∀ d ∈ n.descs, ((m.wt w t).slab d.slab).st = .ready) :
    m.nodeDispatch t ch = some (((m.setWT w t ((m.wt w t).setChain ch
        (((m.wt w t).chain ch).updNode n.uid fun n => { n with dispatched := true, live := n.nd.count }))).updTeam
      team fun tm => { tm with live := tm.live + n.nd.count }).spawnOn w t ch (min n.nd.count spawnFuel)) := by
  have hcopies : (m.copies.any fun k => k.node == n.uid) = false :=
    List.any_eq_false.2 fun k hk' => by simpa using hc k hk'
  have hslabs : (n.descs.any fun d => ((m.wt w t).slab d.slab).st != .ready) = false :=
    List.any_eq_false.2 fun d hd' => by simp [hs d hd']
  unfold M.nodeDispatch
  simp only [hw, ho, hn, hk, hh, hd, hcopies, hslabs, bne_self_eq_false, Nat.not_lt.2 hb, decide_false, Bool.or_self,
    Bool.false_eq_true, if_false]

/-- The outputs of a node, and the inputs whose slabs none of them names (R241). -/
def nodeOuts (n : NodeSt) : List CopyDesc := n.descs.drop n.nd.nin
def nodeIns (n : NodeSt) : List CopyDesc := (n.descs.take n.nd.nin).filter fun d => !((nodeOuts n).any fun o => o.slab == d.slab)

/-- The slab of an input that a finished node no longer needs is EMPTY again (R241). -/
def slabFreed (wt : WT) (d : CopyDesc) : WT :=
  if (wt.slab d.slab).st == .ready then wt.setSlab d.slab { wt.slab d.slab with st := .empty } else wt

theorem nodeFinish_of_done (hw : m.pilotWorld t = some w) (ho : ((m.wt w t).chain ch).owner = some team)
    (hn : ((m.wt w t).chain ch).nodes = n :: rest) (hk : n.nd.kind = 1) (hd : n.dispatched = true) (hf : n.finishing = false)
    (hs : n.nd.count ≤ n.spawned) (hl : n.live = 0) (hst : ∀ x ∈ m.acc, x.id ∉ n.stores)
    (hp : ∀ d ∈ n.descs, (m.wt w t).passReads ((m.wt w t).slab d.slab) = false)
    (ho' : ((m.wt w t).chain ch).halted = true ∨ ∀ d ∈ nodeOuts n, ((m.wt w t).slab d.slab).st = .ready) :
    m.nodeFinish t ch = some (((nodeOuts n).foldl (fun (m : M) d => m.outputStart w t ch n team d)
      (m.setWT w t (((nodeIns n).foldl slabFreed (m.wt w t)).setChain ch
        (((m.wt w t).chain ch).updNode n.uid fun n => { n with finishing := true })))).nodeEnds w t ch n.uid) := by
  have hstores : (m.acc.any fun a => n.stores.contains a.id) = false :=
    List.any_eq_false.2 fun a ha => by simpa using hst a ha
  have hpass : (n.descs.any fun d => (m.wt w t).passReads ((m.wt w t).slab d.slab)) = false :=
    List.any_eq_false.2 fun d hd' => by simp [hp d hd']
  have houts : (!((m.wt w t).chain ch).halted && (nodeOuts n).any fun d => ((m.wt w t).slab d.slab).st != .ready) = false := by
    rcases ho' with h | h
    · rw [h]; rfl
    · rw [List.any_eq_false.2 fun d hd' => by simp [h d hd'], Bool.and_false]
  unfold nodeOuts at houts
  unfold M.nodeFinish
  simp only [hw, ho, hn, hk, hd, hf, hl, hstores, hpass, houts, bne_self_eq_false, Bool.not_true, Nat.not_lt.2 hs, decide_false, Bool.or_self,
    Bool.false_eq_true, if_false]
  rfl

variable {kind : Nat}

/-- The walk of a chain has come to a node of a kind, first of those not retired. -/
def FirstNode (m : M) (t w ch : Nat) (n : NodeSt) (rest : List NodeSt) (kind : Nat) : Prop :=
  m.pilotWorld t = some w ∧ ((m.wt w t).chain ch).nodes = n :: rest ∧ n.nd.kind = kind

theorem condActs_enter (hf : FirstNode m t w ch n rest kind) (hh : ((m.wt w t).chain ch).halted = false)
    (hc : nodeCond (m.wt w t) n.nd = true) (hb : n.nd.b ≠ 0) (hl : ((m.wt w t).chain ch).ret.length < 4) :
    m.condActs t ch kind = some (m.chainGo w t ch
      { (m.wt w t).chain ch with nodes := rest, ret := (n.addr, n.nd) :: ((m.wt w t).chain ch).ret, walk := n.nd.b.toNat }) := by
  obtain ⟨hw, hn, hk⟩ := hf
  unfold M.condActs
  simp only [hw, hn, hk, hh, hc, bne_self_eq_false, Bool.or_self, Bool.false_eq_true, if_false, Bool.true_and, bne_iff_ne, ne_eq, hb,
    not_false_eq_true, if_true, Nat.not_le.2 hl]

theorem condActs_deep (hf : FirstNode m t w ch n rest kind) (hh : ((m.wt w t).chain ch).halted = false)
    (hc : nodeCond (m.wt w t) n.nd = true) (hb : n.nd.b ≠ 0) (hl : 4 ≤ ((m.wt w t).chain ch).ret.length) :
    m.condActs t ch kind = some (m.haltChain w t ch .illegalEncoding n.addr 0 true) := by
  obtain ⟨hw, hn, hk⟩ := hf
  unfold M.condActs
  simp only [hw, hn, hk, hh, hc, bne_self_eq_false, Bool.or_self, Bool.false_eq_true, if_false, Bool.true_and, bne_iff_ne, ne_eq, hb,
    not_false_eq_true, if_true, hl]

theorem condActs_skip (hf : FirstNode m t w ch n rest kind) (hh : ((m.wt w t).chain ch).halted = false)
    (hc : nodeCond (m.wt w t) n.nd = false ∨ n.nd.b = 0) :
    m.condActs t ch kind = some (m.chainGo w t ch { (m.wt w t).chain ch with nodes := rest, walk := n.nd.next }) := by
  obtain ⟨hw, hn, hk⟩ := hf
  have hno : (nodeCond (m.wt w t) n.nd && n.nd.b != 0) = false := by
    rcases hc with h | h
    · rw [h]; rfl
    · rw [h]; exact Bool.and_false _
  unfold M.condActs
  simp only [hw, hn, hk, hh, hno, bne_self_eq_false, Bool.or_self, Bool.false_eq_true, if_false]

theorem joinActs_of_first (hf : FirstNode m t w ch n rest 4) (hj : n.joinMade = false) (hh : ((m.wt w t).chain ch).halted = false) :
    m.joinActs t ch = some (m.setWT w t (((m.wt w t).askSem n.nd.sem (.join ch n.nd.a.toNat true)).setChain ch
      (((m.wt w t).chain ch).updNode n.uid fun n => { n with joinMade := true, dispatched := true }))) := by
  obtain ⟨hw, hn, hk⟩ := hf
  unfold M.joinActs
  simp only [hw, hn, hk, hh, hj, bne_self_eq_false, Bool.or_self, Bool.false_eq_true, if_false]

/-- The vector a SIGNAL raises with its store (R244). -/
def signalVec (n : NodeSt) : Option Nat := if n.nd.irq then some n.nd.b.toNat else none

/-- A SIGNAL whose store has performed raises its vector and retires (R244). -/
def signalEnds (m : M) (w t ch : Nat) (n : NodeSt) : M := ((signalVec n).elim m fun v => m.raise w v).retire w t ch n.uid

/-- The chain once its SIGNAL has acted: the sequence counter has risen (R244). -/
def signalActed (m : M) (w t ch : Nat) (n : NodeSt) : M := m.setWT w t ((m.wt w t).setChain ch
  { ((m.wt w t).chain ch).updNode n.uid fun n => { n with joinMade := true, dispatched := true } with
    seq := ((m.wt w t).chain ch).seq + 1 })

theorem signalActs_of_made (hf : FirstNode m t w ch n rest 5) (ho : ((m.wt w t).chain ch).owner = some team)
    (hc : m.chainOpen w t ch = false) (hj : n.joinMade = true) : m.signalActs t ch = some (signalEnds m w t ch n) := by
  obtain ⟨hw, hn, hk⟩ := hf
  unfold M.signalActs M.signalGo
  simp only [hw, ho, hn, hk, hc, hj, bne_self_eq_false, Bool.or_self, Bool.false_eq_true, if_false, if_true]
  rfl

theorem signalActs_eq (hf : FirstNode m t w ch n rest 5) (ho : ((m.wt w t).chain ch).owner = some team)
    (hc : m.chainOpen w t ch = false) (hj : n.joinMade = false) (hh : ((m.wt w t).chain ch).halted = false) {s : SigStore} {m1 : M}
    (hs : (signalActed m w t ch n).signalStore w t team ch n.nd.a.toNat (((m.wt w t).chain ch).seq + 1) (signalVec n) [] = (s, m1)) :
    m.signalActs t ch = match s with
      | .done 0 => some (signalEnds m1 w t ch n)
      | .done wait => some (m1.chainWait w t ch team 0 wait)
      | .staged => some (m1.retire w t ch n.uid)
      | .sent => some m1
      | .bad code d => some (m1.haltNode w t ch n.uid code d)
      | .miss va => m.ask t w va
      | .later => none := by
  obtain ⟨hw, hn, hk⟩ := hf
  unfold signalActed signalVec at hs
  unfold M.signalActs M.signalGo
  simp only [hw, ho, hn, hk, hc, hj, hh, hs, bne_self_eq_false, Bool.or_self, Bool.false_eq_true, if_false]
  rcases s with (_ | _) | _ | _ | _ | _ | _ <;> rfl

end

/-- Settles O30: each node of a chain acts when its turn comes. -/
theorem nodesAct : Obligations.NodesAct := by
  intro t w ch team n rest chain works first cond vec ends acted signals outs ins freed
  have hcond (e : Instr) (kind : Nat) (he : ∀ s, exec e s = event s fun m => m.condActs t ch kind) : cond e kind :=
    ⟨happens_of _ he fun m ⟨hf, hh, hc, hb, hl⟩ => condActs_enter hf hh hc hb hl,
      happens_of _ he fun m ⟨hf, hh, hc, hb, hl⟩ => condActs_deep hf hh hc hb hl,
      happens_of _ he fun m ⟨hf, hh, hc⟩ => condActs_skip hf hh hc⟩
  refine ⟨?reached, ?halted, ?dispatch, ?finish, hcond _ _ fun _ => rfl, hcond _ _ fun _ => rfl, ?join, ?done, ?waits, ?staged, ?bad, ?made,
    ?admission⟩
  case reached =>
    intro nd ds m1
    exact happens_of (fun m => m.nodeReached t ch) (fun _ => rfl) fun m ⟨⟨hw, ho⟩, hr, hn⟩ =>
      (nodeReached_eq hw ho hr).trans (by simp only [chain] at hn; rw [hn])
  case halted =>
    intro code d m1
    exact happens_of (fun m => m.nodeReached t ch) (fun _ => rfl) fun m ⟨⟨hw, ho⟩, hr, hn⟩ =>
      (nodeReached_eq hw ho hr).trans (by simp only [chain] at hn; rw [hn])
  case dispatch =>
    exact happens_of (fun m => m.nodeDispatch t ch) (fun _ => rfl) fun m ⟨⟨hw, ho⟩, ⟨_, hn, hk⟩, hh, hd, hb, hc, hs⟩ =>
      nodeDispatch_of_ready hw ho hn hk hh hd hb hc hs
  case finish =>
    exact happens_of (fun m => m.nodeFinish t ch) (fun _ => rfl) fun m ⟨⟨hw, ho⟩, ⟨_, hn, hk⟩, hd, hf, hs, hl, hst, hp, ho'⟩ =>
      nodeFinish_of_done hw ho hn hk hd hf hs hl hst hp ho'
  case join =>
    exact happens_of (fun m => m.joinActs t ch) (fun _ => rfl) fun m ⟨hf, hj, hh⟩ => joinActs_of_first hf hj hh
  case done =>
    intro m1
    exact happens_of (fun m => m.signalActs t ch) (fun _ => rfl) fun m ⟨⟨_, ho⟩, hf, hc, hj, hh, hs⟩ =>
      signalActs_eq hf ho hc hj hh hs
  case waits =>
    intro m1 wait
    refine happens_of (fun m => m.signalActs t ch) (fun _ => rfl) fun m ⟨h0, ⟨_, ho⟩, hf, hc, hj, hh, hs⟩ =>
      (signalActs_eq hf ho hc hj hh hs).trans ?_
    cases wait with
    | zero => exact absurd rfl h0
    | succ k => rfl
  case staged =>
    intro m1
    exact happens_of (fun m => m.signalActs t ch) (fun _ => rfl) fun m ⟨⟨_, ho⟩, hf, hc, hj, hh, hs⟩ =>
      signalActs_eq hf ho hc hj hh hs
  case bad =>
    intro m1 code d
    exact happens_of (fun m => m.signalActs t ch) (fun _ => rfl) fun m ⟨⟨_, ho⟩, hf, hc, hj, hh, hs⟩ =>
      signalActs_eq hf ho hc hj hh hs
  case made =>
    exact happens_of (fun m => m.signalActs t ch) (fun _ => rfl) fun m ⟨⟨_, ho⟩, hf, hc, hj⟩ => signalActs_of_made hf ho hc hj
  case admission =>
    intro need
    refine happens_of (fun m => m.admission t) (fun _ => rfl) fun m ⟨hl, hf, hr⟩ => ?_
    unfold M.admission
    simp only [hl, hf, Option.filter_some, hr, decide_true, if_true, Option.map_some]

open Machine

/-! ## Copies -/

section

variable {m : M} {k : Copy}

/-- The copy can move, as far as its pages and the trees above its lines go. -/
def CopyThere (m : M) (k : Copy) : Prop := m.copy k.id = some k ∧ k.translated = true ∧ m.copyWaits k = false

/-- The copy can do no more by itself (R254). -/
def CopyStuck (m : M) (k : Copy) : Prop := m.copy k.id = some k ∧ m.copyStuck k = true

/-- An input copy has filled its slab (R252). -/
def inputFilled (m : M) (k : Copy) : M :=
  ((((m.freeVal.2).copyLeases k).deliver k (m.elements k)).inputEnds k).semInc k.world k.tile k.desc.sem

/-- All lines of an output copy are written, whose waits run on (R252). -/
def outputMoved (m : M) (k : Copy) : M :=
  { m with copies := m.copies.map fun j => if j.id = k.id then { j with moved := true } else j }

/-- The saved slab table of a world that is switched out takes the end of a copy in the slipway (R332). -/
def copyEnded (k : Copy) (slip : Bool) (m1 : M) : M :=
  if slip = true ∧ (m1.copy k.id).isNone = true then m1.slabsSaved k.world k.tile else m1

theorem readable_of_all (h : ∀ u ∈ m.copyIn k, ∀ b ∈ u.2, b.isSome = true) : m.readable k = true :=
  List.all_eq_true.2 fun u hu => List.all_eq_true.2 (h u hu)

theorem inputDone_of_readable (ht : CopyThere m k) (hr : m.readable k = true) : m.inputDone k = some (inputFilled m k) := by
  obtain ⟨_, ht, hw⟩ := ht
  unfold M.inputDone
  simp only [ht, hw, hr, Bool.not_true, Bool.or_self, Bool.false_eq_true, if_false]
  rfl

theorem outputDone_of_moved (ht : CopyThere m k) (hp : m.piecesOpen k = false) (hm : k.moved = true) :
    m.outputDone k = some (m.outputOut k) := by
  obtain ⟨_, ht, hw⟩ := ht
  unfold M.outputDone
  simp only [ht, hw, hp, hm, Bool.not_true, Bool.or_self, Bool.false_eq_true, if_false, if_true]

theorem outputDone_of_writes {wait : Nat} {m1 : M} (ht : CopyThere m k) (hp : m.piecesOpen k = false) (hm : k.moved = false)
    (hl : m.linesWrite k (byLine (m.copyOut k)) = some (wait, m1)) :
    m.outputDone k = some (if k.desc.rel && wait != 0 then (outputMoved m1 k).chainWait k.world k.tile k.ch k.team k.id wait
      else (m1.outputOut k).chainWait k.world k.tile k.ch k.team 0 wait) := by
  obtain ⟨_, ht, hw⟩ := ht
  unfold M.outputDone
  simp only [ht, hw, hp, hm, hl, Bool.not_true, Bool.or_self, Bool.false_eq_true, if_false, Option.map_some]
  rfl

theorem inputOver_eq (hc : m.copy k.id = some k) (ho : k.out = false) (hs : k.slip = false) : m.inputOver k.id = m.inputDone k := by
  unfold M.inputOver
  simp only [hc, ho, hs, Option.bind_some, Bool.or_self, Bool.false_eq_true, if_false]

theorem outputOver_eq (hc : m.copy k.id = some k) (ho : k.out = true) (hs : k.slip = false) : m.outputOver k.id = m.outputDone k := by
  unfold M.outputOver
  simp only [hc, ho, hs, Option.bind_some, Bool.not_false, Bool.and_self, if_true]

theorem slipOver_eq (hc : m.copy k.id = some k) (hs : k.slip = true) :
    m.slipOver k.id true = if k.out then m.outputDone k else m.inputDone k := by
  unfold M.slipOver
  simp only [hc, hs, Option.bind_some, Bool.not_true, Bool.false_eq_true, if_false, if_true]

theorem slipOver_fails (hc : CopyStuck m k) (hs : k.slip = true) : m.slipOver k.id false = some (m.copyFails k) := by
  unfold M.slipOver
  simp only [hc.1, hc.2, hs, Option.bind_some, Bool.not_true, Bool.false_eq_true, if_false, if_true]

theorem slipExpires_of_stuck (hs : k.slip = true)
    (hc : CopyStuck m k ∨ (m.copy k.id = some k ∧ m.piecesFly k = true ∧ k.retried ≠ [])) :
    m.slipExpires k.id = some ((m.passUnits (2 ^ 20)).copyFails k) := by
  have hcopy : m.copy k.id = some k := by rcases hc with h | h <;> exact h.1
  have hcan : (m.copyStuck k || (m.piecesFly k && !k.retried.isEmpty)) = true := by
    rcases hc with h | ⟨_, hf, hr⟩
    · rw [h.2, Bool.true_or]
    · rw [hf, List.isEmpty_eq_false_iff.2 hr, Bool.not_false, Bool.and_self, Bool.or_true]
  unfold M.slipExpires
  simp only [hcopy, hs, hcan, Option.bind_some, Bool.and_self, if_true]

theorem handOff_of_stuck (hc : CopyStuck m k) (hs : k.slip = false) :
    m.handOff k.id = some (({ m with copies := m.copies.map fun j => if j.id = k.id then { j with slip := true } else j } : M).slipPieces k) := by
  unfold M.handOff
  simp only [hc.1, hc.2, hs, Option.bind_some, Bool.not_true, Bool.or_self, Bool.false_eq_true, if_false]

theorem slipEnds_of_copy {m1 : M} (hc : m.copy k.id = some k) : m.slipEnds k.id (some m1) = some (copyEnded k true m1) := by
  unfold M.slipEnds copyEnded
  cases h : m1.copy k.id <;> simp [hc, h]

theorem copyEnded_of_ferry {slip : Bool} {m1 : M} (h : slip = false) : copyEnded k slip m1 = m1 := by
  subst h; exact if_neg (by simp)

variable {t w ch i team : Nat} {n : NodeSt} {d : CopyDesc}

/-- The tensor of a copy's descriptor. -/
def copyTensor (m : M) (w : Nat) (d : CopyDesc) : Tensor := ((m.world w).tensor d.tensor).getD {}

/-- The slab of an input copy while the copy fills it (R248). -/
def fillingSlab (m : M) (w ch team : Nat) (d : CopyDesc) : Slab :=
  { st := .filling, owner := BitVec.ofNat 8 ch, loc := d.loc, span := BitVec.ofNat 3 d.span,
    fmt := BitVec.ofNat 4 (if d.srck then d.sfmt else (copyTensor m w d).fmt), size := BitVec.ofNat 20 (d.size (copyTensor m w d)),
    offset := BitVec.ofNat 20 (if d.loc then d.soff else ((look m.teams team).map (·.scratch)).getD 0 + d.soff) }

/-- Input i of a node has begun, and its slab is FILLING (R248). -/
def inputBegun (m : M) (w t ch i team : Nat) (n : NodeSt) (d : CopyDesc) : M :=
  m.setWT w t (((m.wt w t).setSlab d.slab (fillingSlab m w ch team d)).setChain ch
    (((m.wt w t).chain ch).updNode n.uid fun n => { n with begun := i :: n.begun }))

/-- The copy of an input that begins. -/
def inputCopy (m : M) (w t ch team : Nat) (n : NodeSt) (d : CopyDesc) : Copy :=
  { id := m.uid, world := w, tile := t, team := team, ch := ch, node := n.uid, out := false, desc := d,
    tn := copyTensor m w d, size := d.size (copyTensor m w d) }

theorem inputStart_of_canBegin (hw : m.pilotWorld t = some w) (hh : ((m.wt w t).chain ch).halted = false)
    (ho : ((m.wt w t).chain ch).owner = some team) (hb : ((m.wt w t).chain ch).canBegin (m.wt w t) i = some n)
    (hd : n.descs[i]? = some d) :
    m.inputStart t ch i = some (
      let r := ({ inputBegun m w t ch i team n d with uid := m.uid + 1 } : M).askPages (inputCopy m w t ch team n d)
      ({ r.2 with copies := r.2.copies ++ [r.1] } : M).copyChecked m.uid) := by
  unfold M.inputStart
  simp only [hw, hh, ho, hb, hd, Bool.false_eq_true, if_false]
  rfl

end

/-- An event that ends an output copy, by the ferry or in the slipway. -/
theorem output_happens {k : Copy} {e : Instr} {slip : Bool} (f : M → Option M) (he : ∀ s, exec e s = event s f)
    (hf : ∀ m m1, CopyThere m k → k.out = true → k.slip = slip → m.outputDone k = some m1 → f m = some (copyEnded k slip m1)) :
    Happens e (fun m => k.slip = slip ∧ (CopyThere m k ∧ k.out = true ∧ m.piecesOpen k = false) ∧ k.moved = true)
      (fun m => copyEnded k slip (m.outputOut k)) ∧
    (∀ wait m1, Happens e
      (fun m => k.slip = slip ∧ ((CopyThere m k ∧ k.out = true ∧ m.piecesOpen k = false) ∧ k.moved = false ∧
        m.linesWrite k (byLine (m.copyOut k)) = some (wait, m1)) ∧ (k.desc.rel = false ∨ wait = 0))
      (fun _ => copyEnded k slip ((m1.outputOut k).chainWait k.world k.tile k.ch k.team 0 wait))) ∧
    (∀ wait m1, Happens e
      (fun m => k.slip = slip ∧ ((CopyThere m k ∧ k.out = true ∧ m.piecesOpen k = false) ∧ k.moved = false ∧
        m.linesWrite k (byLine (m.copyOut k)) = some (wait, m1)) ∧ k.desc.rel = true ∧ wait ≠ 0)
      (fun _ => copyEnded k slip ((outputMoved m1 k).chainWait k.world k.tile k.ch k.team k.id wait))) := by
  refine ⟨?moved, ?now, ?later⟩
  case moved => exact happens_of f he fun m ⟨hs, ⟨ht, ho, hp⟩, hm⟩ => hf m _ ht ho hs (outputDone_of_moved ht hp hm)
  case now =>
    intro wait m1
    refine happens_of f he fun m ⟨hs, ⟨⟨ht, ho, hp⟩, hm, hl⟩, hr⟩ => hf m _ ht ho hs ((outputDone_of_writes ht hp hm hl).trans ?_)
    rw [if_neg (by rcases hr with h | h <;> simp [h])]
  case later =>
    intro wait m1
    refine happens_of f he fun m ⟨hs, ⟨⟨ht, ho, hp⟩, hm, hl⟩, hr, hw⟩ => hf m _ ht ho hs ((outputDone_of_writes ht hp hm hl).trans ?_)
    rw [if_pos (by simp [hr, hw])]

/-- Settles O32: copies begin, move and end by the ferry, or in the slipway. -/
theorem copiesMove : Obligations.CopiesMove := by
  intro k there whole filled ready writes later stuck ended output
  have hslip {m m1 : M} {r : Option M} (hc : m.copy k.id = some k) (hr : r = some m1) :
      m.slipEnds k.id r = some (ended true m1) := by rw [hr]; exact slipEnds_of_copy hc
  refine ⟨?input, ?outputs, ?handOff, ?slipInput, ?slipOutputs, ?fails, ?expires, ?start⟩
  case input =>
    exact happens_of (fun m => m.inputOver k.id) (fun _ => rfl) fun m ⟨hs, ht, ho, hr⟩ =>
      (inputOver_eq ht.1 ho hs).trans (inputDone_of_readable ht (readable_of_all hr))
  case outputs =>
    exact output_happens (fun m => m.outputOver k.id) (fun _ => rfl) fun m m1 ht ho hs hd =>
      (outputOver_eq ht.1 ho hs).trans (hd.trans (congrArg some (copyEnded_of_ferry rfl).symm))
  case handOff => exact happens_of (fun m => m.handOff k.id) (fun _ => rfl) fun m ⟨hc, hs⟩ => handOff_of_stuck hc hs
  case slipInput =>
    exact happens_of (fun m => m.slipEnds k.id (m.slipOver k.id true)) (fun _ => rfl) fun m ⟨hs, ht, ho, hr⟩ =>
      hslip ht.1 ((slipOver_eq ht.1 hs).trans ((if_neg (by simp [ho])).trans (inputDone_of_readable ht (readable_of_all hr))))
  case slipOutputs =>
    exact output_happens (fun m => m.slipEnds k.id (m.slipOver k.id true)) (fun _ => rfl) fun m m1 ht ho hs hd =>
      hslip ht.1 ((slipOver_eq ht.1 hs).trans ((if_pos ho).trans hd))
  case fails =>
    exact happens_of (fun m => m.slipEnds k.id (m.slipOver k.id false)) (fun _ => rfl) fun m ⟨hc, hs⟩ =>
      hslip hc.1 (slipOver_fails hc hs)
  case expires =>
    exact happens_of (fun m => m.slipEnds k.id (m.slipExpires k.id)) (fun _ => rfl) fun m ⟨hc, hs⟩ =>
      hslip (by rcases hc with h | h <;> exact h.1) (slipExpires_of_stuck hs hc)
  case start =>
    intro t w ch i team n d tn e begun
    exact happens_of (fun m => m.inputStart t ch i) (fun _ => rfl) fun m ⟨hw, hh, ho, hb, hd⟩ => inputStart_of_canBegin hw hh ho hb hd

end Sys2Proof

/-! PROOFS. Accesses perform, operations and walks end, and the landing and launches go on (O33 to O39). -/

namespace Sys2Proof

open Machine

/-! ## Accesses at their home field and at a scratchpad -/

section

variable {m : M} {id f t w : Nat} {a : Access}

theorem homeOpen_of (hs : m.requestHeld a = false) (hr : m.repairing a.line = false) : m.homeOpen a = true := by
  unfold M.homeOpen; rw [hs, hr]; rfl

theorem padOpen_of (hs : m.requestHeld a = false) (hw : m.rowWorld t 4 = some a.world) : m.padOpen t a = true := by
  unfold M.padOpen M.scratchOpen; rw [hs, hw]; simp

/-- The access has reached its home field, which serves it (R188, R373, R397). -/
def AtHome (m : M) (id f : Nat) (a : Access) : Prop :=
  (m.access id = some a ∧ m.requestHeld a = false) ∧ a.phase = .home f ∧ m.repairing a.line = false

/-- The access has reached a scratchpad, which serves it (R333, R373). -/
def AtPad (m : M) (id t : Nat) (a : Access) : Prop :=
  (m.access id = some a ∧ m.requestHeld a = false) ∧ a.phase = .scr t ∧ m.rowWorld t 4 = some a.world

theorem homeRead_home (ha : AtHome m id f a) (hl : a.kind.isLoad = true) (hb : m.heldBack (m.mates a) = false) :
    m.homeRead id = some ((m.mates a).foldl (fun m b => m.readOne f b) m) := by
  obtain ⟨⟨hid, hs⟩, hp, hr⟩ := ha
  unfold M.homeRead
  simp only [hid, hp, hl, hb, homeOpen_of hs hr, Bool.not_true, Bool.not_false, Bool.and_self, Bool.false_eq_true, if_false, if_true]

theorem homeRead_pad (ha : AtPad m id t a) (hl : a.kind.isLoad = true) (hb : m.heldBack (m.mates a) = false) :
    m.homeRead id = some ((m.mates a).foldl (fun m b => m.readScratch t b) m) := by
  obtain ⟨⟨hid, hs⟩, hp, hr⟩ := ha
  unfold M.homeRead
  simp only [hid, hp, hl, hb, padOpen_of hs hr, Bool.not_true, Bool.not_false, Bool.and_self, Bool.false_eq_true, if_false, if_true]

theorem homeWrite_home_store (ha : AtHome m id f a) (hf : m.ownEarlier a = false) (hk : a.kind = .store) :
    m.homeWrite id = match m.storeAt f a with
      | .inl code => some (m.failAcc a code 0)
      | .inr (w, m1) => some (m1.setAcc { a with phase := .done false w }) := by
  obtain ⟨⟨hid, hs⟩, hp, hr⟩ := ha
  unfold M.homeWrite
  simp only [hid, hp, hk, hf, homeOpen_of hs hr, Bool.not_true, Bool.or_self, Bool.false_eq_true, if_false] <;>
    cases m.storeAt f a <;> rfl

theorem homeWrite_home_stc (ha : AtHome m id f a) (hf : m.ownEarlier a = false) (hk : a.kind = .stc) :
    m.homeWrite id = some (m.stcAt a a.line fun m => m.storeAt f a) := by
  obtain ⟨⟨hid, hs⟩, hp, hr⟩ := ha
  unfold M.homeWrite
  simp only [hid, hp, hk, hf, homeOpen_of hs hr, Bool.not_false, Bool.and_self, if_true]

theorem homeWrite_pad_store (ha : AtPad m id t a) (hf : m.ownEarlier a = false) (hk : a.kind = .store) :
    m.homeWrite id = some ((m.scratchWrite a.world t a.pa a.data).dropAcc id) := by
  obtain ⟨⟨hid, hs⟩, hp, hr⟩ := ha
  unfold M.homeWrite
  simp only [hid, hp, hk, hf, padOpen_of hs hr, Bool.not_false, Bool.and_self, if_true]

theorem homeWrite_pad_stc (ha : AtPad m id t a) (hf : m.ownEarlier a = false) (hk : a.kind = .stc) :
    m.homeWrite id = some (m.stcAt { a with phase := .done true 0 } (scratchLine a.world t a.pa) fun m =>
      .inr (0, m.scratchWrite a.world t a.pa a.data)) := by
  obtain ⟨⟨hid, hs⟩, hp, hr⟩ := ha
  unfold M.homeWrite
  simp only [hid, hp, hk, hf, padOpen_of hs hr, Bool.not_false, Bool.and_self, if_true]

theorem storeAt_of_write {m1 : M} (h : m.fieldWrite (fieldKey f a.pa) a.data a.world a.key a.tid a.ver = some m1) :
    m.storeAt f a = .inr (m1.performed f (fieldKey f a.pa / 64)) := by
  unfold M.storeAt; simp only [h]

theorem storeAt_of_fault (h : m.fieldWrite (fieldKey f a.pa) a.data a.world a.key a.tid a.ver = none) :
    m.storeAt f a = .inl (m.readFault (fieldKey f a.pa / 64) a.world a.key a.tid a.ver) := by
  unfold M.storeAt; simp only [h]

variable {line : Nat} {put : M → Code ⊕ (Nat × M)}

theorem stcAt_of_lost (h : m.reserves a line = false) :
    m.stcAt a line put = (m.updThread a fun th => { th with resv := none }).setAcc
      { a with phase := .done true 0, res := some (.status false) } := by
  unfold M.stcAt; rw [h]; rfl

theorem stcAt_of_held {m1 : M} (h : m.reserves a line = true) (hp : put m = .inr (w, m1)) :
    m.stcAt a line put = (m1.updThread a fun th => { th with resv := none }).setAcc
      { a with phase := .done false w, res := some (.status true) } := by
  unfold M.stcAt; simp only [h, hp, Bool.not_true, Bool.false_eq_true, if_false]

variable {op : AtomOp} {b c : W64}

theorem homeAtomic_home (ha : AtHome m id f a) (hk : a.kind = .atom op b c) (hb : m.heldBack (m.mates a) = false) :
    m.homeAtomic id = some ((m.mates a).foldl (fun m b => m.atomOne f b) m) := by
  obtain ⟨⟨hid, hs⟩, hp, hr⟩ := ha
  have hatom : a.kind.isAtom = true := by rw [hk]; rfl
  unfold M.homeAtomic
  simp only [hid, hp, hatom, hb, homeOpen_of hs hr, Bool.not_true, Bool.not_false, Bool.and_self, Bool.false_eq_true, if_false, if_true]

theorem homeAtomic_pad (ha : AtPad m id t a) (hk : a.kind = .atom op b c) (hb : m.heldBack (m.mates a) = false) :
    m.homeAtomic id = some ((m.mates a).foldl (fun m b => m.atomScratch t b) m) := by
  obtain ⟨⟨hid, hs⟩, hp, hr⟩ := ha
  have hatom : a.kind.isAtom = true := by rw [hk]; rfl
  unfold M.homeAtomic
  simp only [hid, hp, hatom, hb, padOpen_of hs hr, Bool.not_true, Bool.not_false, Bool.and_self, Bool.false_eq_true, if_false, if_true]

theorem atomOne_of_write {old : List Byte} {m1 m2 : M} (hk : a.kind = .atom op b c)
    (hl : m.lineFault (fieldKey f a.pa / 64) a.world a.key a.tid a.ver = none)
    (hr : m.atomRead (fieldKey f a.pa) a.size a.world a.key a.tid a.ver = (some old, m1))
    (hs : atomSkips op a.size (BitVec.ofNat 64 (bytesNat old)) c = false)
    (hw : m1.fieldWrite (fieldKey f a.pa) (natBytes a.size (atomNew op a.size (BitVec.ofNat 64 (bytesNat old)) b c).toNat)
      a.world a.key a.tid a.ver = some m2) :
    m.atomOne f a = (m2.performed f (fieldKey f a.pa / 64)).2.setAcc
      { a with phase := .done false (m2.performed f (fieldKey f a.pa / 64)).1, res := some (.data old) } := by
  unfold M.atomOne
  simp only [hk, hl, hr, Option.getD_some, hs, hw, Bool.false_eq_true, if_false]

theorem storeAck_done (hid : m.access id = some a) (hs : m.responseHeld a = false) (hp : a.phase = .done false w) :
    m.storeAck id = some (if w = 0 ∧ a.kind = .store then m.dropAcc id else m.setAcc { a with phase := .done true w }) := by
  unfold M.storeAck
  simp only [hid, hs, hp, Bool.false_eq_true, if_false, Bool.and_eq_true, decide_eq_true_eq, beq_iff_eq]

theorem waitExpires_of (hid : m.access id = some a) (hp : a.phase = .done true w) (hc : w ≠ 0 ∨ a.complete = true)
    (hn : m.counting a = true) : m.waitExpires id = some (m.passUnits w) := by
  unfold M.waitExpires
  simp only [hid, hp]
  refine if_neg ?_
  rcases hc with h | h <;> simp [h, hn]

end

/-- Settles O33: an access performs where it has arrived, by its kind. -/
theorem accessesPerform : Obligations.AccessesPerform := by
  intro id f t a k line sent here there free freed spot
  have hwrite {e : M → M} {p : M → Prop} (h : ∀ m, p m → m.homeWrite id = some (e m)) : Happens (.homeWrite id) p e :=
    happens_of (fun m => m.homeWrite id) (fun _ => rfl) h
  refine ⟨?read, ?readPad, ?store, ?storeFault, ?storePad, ?stc, ?stcLost, ?stcPad, ?stcPadLost, ?atom, ?atomPad, ?atomOne, ?ack, ?ackGone,
    ?expiry⟩
  case read => exact happens_of (fun m => m.homeRead id) (fun _ => rfl) fun m ⟨ha, hl, hb⟩ => homeRead_home ha hl hb
  case readPad => exact happens_of (fun m => m.homeRead id) (fun _ => rfl) fun m ⟨ha, hl, hb⟩ => homeRead_pad ha hl hb
  case store =>
    intro m1
    exact hwrite fun m ⟨ha, hf, hk, hw⟩ => (homeWrite_home_store ha hf hk).trans (by rw [storeAt_of_write hw])
  case storeFault =>
    exact hwrite fun m ⟨ha, hf, hk, hw⟩ => (homeWrite_home_store ha hf hk).trans (by rw [storeAt_of_fault hw])
  case storePad => exact hwrite fun m ⟨ha, hf, hk⟩ => homeWrite_pad_store ha hf hk
  case stc =>
    intro m1
    exact hwrite fun m ⟨ha, hf, hk, hr, hw⟩ =>
      (homeWrite_home_stc ha hf hk).trans (congrArg some (stcAt_of_held hr (storeAt_of_write hw)))
  case stcLost => exact hwrite fun m ⟨ha, hf, hk, hr⟩ => (homeWrite_home_stc ha hf hk).trans (congrArg some (stcAt_of_lost hr))
  case stcPad =>
    exact hwrite fun m ⟨ha, hf, hk, hr⟩ => (homeWrite_pad_stc ha hf hk).trans (congrArg some
      (stcAt_of_held (a := { a with phase := .done true 0 }) (w := 0) (m1 := m.scratchWrite a.world t a.pa a.data) hr rfl))
  case stcPadLost =>
    exact hwrite fun m ⟨ha, hf, hk, hr⟩ => (homeWrite_pad_stc ha hf hk).trans (congrArg some
      (stcAt_of_lost (a := { a with phase := .done true 0 }) hr))
  case atom =>
    intro op b c
    exact happens_of (fun m => m.homeAtomic id) (fun _ => rfl) fun m ⟨ha, hk, hb⟩ => homeAtomic_home ha hk hb
  case atomPad =>
    intro op b c
    exact happens_of (fun m => m.homeAtomic id) (fun _ => rfl) fun m ⟨ha, hk, hb⟩ => homeAtomic_pad ha hk hb
  case atomOne => exact fun op b c old m m1 m2 hk hl hr hs hw => atomOne_of_write hk hl hr hs hw
  case ack =>
    intro w
    refine happens_of (fun m => m.storeAck id) (fun _ => rfl) fun m ⟨hid, hs, hp, hw⟩ =>
      (storeAck_done hid hs hp).trans (congrArg some (if_neg fun h => ?_))
    exact hw.elim (absurd h.1) (absurd h.2)
  case ackGone =>
    exact happens_of (fun m => m.storeAck id) (fun _ => rfl) fun m ⟨hid, hs, hp, hk⟩ =>
      (storeAck_done hid hs hp).trans (congrArg some (if_pos ⟨rfl, hk⟩))
  case expiry =>
    intro w
    exact happens_of (fun m => m.waitExpires id) (fun _ => rfl) fun m ⟨hid, hp, hc, hn⟩ => waitExpires_of hid hp hc hn

/-! ## Accesses to host memory and to other modules -/

section

variable {m : M} {id p : Nat} {a : Access} {st : HostStatus}

theorem atHost_eq (hp : a.phase = .host p) : a.atHost = some p := by unfold Access.atHost; rw [hp]

theorem hostDone_eq (hid : m.access id = some a) (hp : a.phase = .host p) (hb : m.heldBack (m.mates a) = false)
    (hl : a.kind.isLoad = true) :
    m.hostDone id st = some (if st = .success ∧ m.ecc.contains a.line = false then (m.mates a).foldl (fun m b => m.hostLoad p b) m
      else (m.mates a).foldl (fun m b => m.failAcc b .uncorrectableData 0) m) := by
  unfold M.hostDone
  simp only [hid, atHost_eq hp, hb, hl, Bool.not_true, Bool.or_self, Bool.false_eq_true, if_false, Bool.and_eq_true, decide_eq_true_eq,
    Bool.not_eq_true', apply_ite some]

theorem storeAck_host (hid : m.access id = some a) (hp : a.phase = .host p) (he : m.ownEarlier a = false)
    (hb : m.between p a.pa a.size (·.sameOp a) = false) (hk : a.kind = .store) :
    m.storeAck id = some ({ m with hmem := Memory.writeL m.hmem (hostKey p a.pa) a.data }.dropAcc id) := by
  unfold M.storeAck
  simp only [hid, hp, he, hb, hk, bne_self_eq_false, Bool.or_self, Bool.false_eq_true, if_false]

/-- An HATOM whose turn it is at its port (R410, R425). -/
structure AtPoint (m : M) (id p : Nat) (a : Access) (op : HostAtomOp) (fb : Bool) (b c : W64) : Prop where
  access : m.access id = some a
  phase : a.phase = .host p
  kind : a.kind = .hatom op fb b c
  first : m.heldBack [a] = false
  alone : m.fallsBack p a = false
  apart : m.between p a.pa a.size (·.sameOp a) = false

/-- The device does not do the atomic (R410). -/
abbrev Refused (st : HostStatus) : Prop := st = .unsupported ∨ st = .abort

variable {op : HostAtomOp} {fb : Bool} {b c : W64}

theorem atomicPoint_fallen (h : AtPoint m id p a op fb b c) (hf : a.fell.isSome = true) :
    m.atomicPoint id st = some (m.hostAtom p a (hostOp op) b c) := by
  unfold M.atomicPoint
  simp only [h.access, atHost_eq h.phase, h.kind, h.first, h.alone, h.apart, hf, Bool.or_self, Bool.false_eq_true, if_false, if_true]

theorem atomicPoint_fresh (h : AtPoint m id p a op fb b c) (hf : a.fell = none) :
    m.atomicPoint id st =
      if fb = false ∧ ((m.port p).atomok = false ∨ Refused st) then some (m.failAcc a .hostAtomicUnsupported 0)
      else if (st = .success ∨ ((m.port p).atomok = true ∧ Refused st)) ∧ m.ecc.contains a.line = false then
        some (if (m.port p).atomok = true ∧ ¬ Refused st then m.hostAtom p a (hostOp op) b c
          else m.setAcc { a with fell := some (m.hostRead p a.pa a.size) })
      else some (m.failAcc a .uncorrectableData 0) := by
  unfold M.atomicPoint Refused
  simp only [h.access, atHost_eq h.phase, h.kind, h.first, h.alone, h.apart, hf, Option.isSome_none, Bool.or_self, Bool.false_eq_true,
    if_false, Bool.and_eq_true, Bool.or_eq_true, Bool.not_eq_true', Bool.or_eq_false_iff,
    not_or, decide_eq_true_eq, decide_eq_false_iff_not]

theorem hostTimeout_of (hid : m.access id = some a) (hp : a.phase = .host p) (hk : a.kind ≠ .store) (hf : a.fell = none) :
    m.hostTimeout id = some (m.failAcc a .uncorrectableData 0) := by
  have hk' : (a.kind == .store) = false := beq_false_of_ne hk
  unfold M.hostTimeout
  simp only [hid, atHost_eq hp, hk', hf, Option.isNone_some, Option.isSome_none, Bool.or_self, Bool.false_eq_true, if_false]

theorem atRemote_of {q : Nat} (hp : a.phase = .remote q) : a.atRemote = true := by unfold Access.atRemote; rw [hp]

theorem remoteDone_eq {r : RemoteResp} (hid : m.access id = some a) (hr : a.atRemote = true) (ht : m.tileClock a.tile < a.start + 2 ^ 22)
    (hb : m.heldBack (m.answered a) = false) :
    m.remoteDone id r = match r with
      | .fault code d => if listed code then some ((m.answered a).foldl (fun m b => m.failAcc b (codeOf code) d.toNat) m) else none
      | .ok bs =>
        if a.kind == .store then some ((m.dropAcc id).visible a)
        else if bs.length ≠ a.size then none
        else
          let m1 := (m.answered a).foldl (fun m b => m.setAcc { b with phase := .done true 0, res := some (.data (overBytes b.held bs)) }) m
          some (((m.copies.find? fun k => a.group == 0 && k.id == a.op).map m1.valuePieces).getD m1) := by
  have hleft : ¬ m.remoteLeft a = 0 := by unfold M.remoteLeft; omega
  unfold M.remoteDone
  simp only [hid, hr, hb, hleft, Bool.not_true, Bool.or_self, Bool.false_eq_true, decide_false, if_false] <;>
    cases r <;> rfl

theorem remoteLate_of (hid : m.access id = some a) (hr : a.atRemote = true) :
    m.remoteLate id = some ((m.passUnits (a.start + 2 ^ 22 - m.tileClock a.tile)).failAcc a .remoteTimeout 0) := by
  unfold M.remoteLate
  simp only [hid, hr, if_true]
  rfl

end

/-- Settles O34: the answers to what has left the module. -/
theorem outsideAccessesComplete : Obligations.OutsideAccessesComplete := by
  intro id p a st at' far inTime clean asked answers
  refine ⟨?load, ?fails, ?store, ?atoms, ?timeout, ?answer, ?answerStore, ?answerFault, ?late⟩
  case load =>
    exact happens_of (fun m => m.hostDone id .success) (fun _ => rfl) fun m ⟨⟨hid, hp, hb⟩, hl, hc⟩ =>
      (hostDone_eq hid hp hb hl).trans (congrArg some (if_pos ⟨rfl, hc⟩))
  case fails =>
    exact happens_of (fun m => m.hostDone id st) (fun _ => rfl) fun m ⟨⟨hid, hp, hb⟩, hl, hc⟩ =>
      (hostDone_eq hid hp hb hl).trans (congrArg some (if_neg fun h => hc.elim (absurd h.1) (absurd h.2)))
  case store =>
    exact happens_of (fun m => m.storeAck id) (fun _ => rfl) fun m ⟨hid, hp, he, hb, hk⟩ => storeAck_host hid hp he hb hk
  case atoms =>
    intro op fb b c atom fresh' refused
    have hpoint {m : M} (h : atom m) : AtPoint m id p a op fb b c :=
      ⟨h.1, h.2.1, h.2.2.1, h.2.2.2.1, h.2.2.2.2.1, h.2.2.2.2.2⟩
    have hpt {q : M → Prop} {e : M → M} (h : ∀ m, q m → m.atomicPoint id st = some (e m)) : Happens (.atomicPointService id st) q e :=
      happens_of (fun m => m.atomicPoint id st) (fun _ => rfl) h
    refine ⟨hpt ?native, hpt ?falls, hpt ?fallen, hpt ?unsupported, hpt ?fault, fun _ => rfl⟩
    case native =>
      rintro m ⟨ha, hf, hc, hok, rfl⟩
      have hno : ¬ Refused .success := by simp [Refused]
      rw [atomicPoint_fresh (hpoint ha) hf, if_neg (by simp [hok, hno]), if_pos ⟨.inl rfl, hc⟩, if_pos ⟨hok, hno⟩]
    case falls =>
      rintro m ⟨ha, hf, hc, hfb, hwhy⟩
      rw [atomicPoint_fresh (hpoint ha) hf, if_neg (by simp [hfb]),
        if_pos ⟨hwhy.imp And.right fun h => h, hc⟩, if_neg]
      rintro ⟨hok, hno⟩
      exact hwhy.elim (fun h => by simp [hok] at h) fun h => hno h.2
    case fallen => exact fun m ⟨ha, hf⟩ => atomicPoint_fallen (hpoint ha) hf
    case unsupported =>
      exact fun m ⟨ha, hf, hfb, hwhy⟩ => (atomicPoint_fresh (hpoint ha) hf).trans (if_pos ⟨hfb, hwhy⟩)
    case fault =>
      rintro m ⟨ha, hf, hsupp, hbad, hno⟩
      rw [atomicPoint_fresh (hpoint ha) hf, if_neg, if_neg]
      · rintro ⟨hst, hc⟩
        exact hbad.elim (absurd hc) fun h => hst.elim h.1 h.2
      · rintro ⟨hfb, hwhy⟩
        rw [hfb] at hsupp hno
        have hok : (m.port p).atomok = true := hsupp.resolve_left nofun
        exact hwhy.elim (fun h => by simp [hok] at h) (hno.resolve_left nofun)
  case timeout =>
    exact happens_of (fun m => m.hostTimeout id) (fun _ => rfl) fun m ⟨hid, hp, hk, hf⟩ => hostTimeout_of hid hp hk hf
  case answer =>
    intro bs
    refine happens_of (fun m => m.remoteDone id (.ok bs)) (fun _ => rfl) fun m ⟨⟨⟨hid, _, hp⟩, ht, hb⟩, hk, hl⟩ =>
      (remoteDone_eq hid (atRemote_of hp) ht hb).trans ?_
    exact (if_neg fun h => hk (beq_iff_eq.1 h)).trans (if_neg (not_not_intro hl))
  case answerStore =>
    intro bs
    exact happens_of (fun m => m.remoteDone id (.ok bs)) (fun _ => rfl) fun m ⟨⟨⟨hid, _, hp⟩, ht, hb⟩, hk⟩ =>
      (remoteDone_eq hid (atRemote_of hp) ht hb).trans (if_pos (beq_iff_eq.2 hk))
  case answerFault =>
    intro code d
    exact happens_of (fun m => m.remoteDone id (.fault code d)) (fun _ => rfl) fun m ⟨⟨⟨hid, _, hp⟩, ht, hb⟩, hc⟩ =>
      (remoteDone_eq hid (atRemote_of hp) ht hb).trans (if_pos hc)
  case late =>
    exact happens_of (fun m => m.remoteLate id) (fun _ => rfl) fun m ⟨hid, _, hp⟩ => remoteLate_of hid (atRemote_of hp)

open Machine

/-! ## Operations, fences and messages end -/

section

variable {m : M} {t w slot op : Nat} {g : Group} {p : Pend}

/-- The operation of a group that an event is about. -/
def OpOf (m : M) (t w slot op : Nat) (g : Group) (p : Pend) : Prop :=
  m.opWorld t slot op = some w ∧ look (m.wt w t).groups slot = some g ∧ g.ops.find? (·.id == op) = some p

theorem OpOf.id_eq (h : OpOf m t w slot op g p) : p.id = op := beq_iff_eq.1 (List.find?_some h.2.2 :)

theorem opReady_of (h : OpOf m t w slot op g p) (hll : p.ll = true) (hr : p.ready = true) (hs : p.since = 0)
    (ha : ∀ a ∈ m.accOf g op, a.phase = .done true 0 ∧ m.responseHeld a = false) : m.opReady g p = true := by
  have hall : ((m.accOf g p.id).all fun a => a.phase == .done true 0 && !m.responseHeld a) = true :=
    List.all_eq_true.2 fun a hmem => by
      rw [h.id_eq] at hmem
      simp [ha a hmem]
  unfold M.opReady
  simp only [hll, hr, hs, hall, decide_true, Bool.and_self]

theorem opCompletes_of_ready (h : OpOf m t w slot op g p) (hr : m.opReady g p = true) :
    m.opCompletes t slot op = some ({ m with acc := m.acc.filter fun a => !(a.group == g.uid && a.op == op) }.setGroup w t slot
      (g.completed p (m.accOf g op))) := by
  unfold M.opCompletes
  simp only [h.1, h.2.1, h.2.2, hr, Bool.not_true, Bool.false_eq_true, if_false]

theorem accrdDone_of (h : OpOf m t w slot op g p) (hs : p.since ≠ 0) (hr : p.ready = true) (hc : p.since ≤ (m.tile t).cycle) :
    m.accrdDone t slot op = some (m.setGroup w t slot (g.completed p [])) := by
  unfold M.accrdDone
  simp only [h.1, h.2.1, h.2.2, Option.bind_some, hs, hr, Nat.not_lt.2 hc, decide_false, Bool.not_true, Bool.or_self, Bool.false_eq_true,
    if_false]

theorem fenceEndOn_of_over {ids : List Nat} {sc : Scope} (hl : (m.tile t).latch = some w) (hg : look (m.wt w t).groups slot = some g)
    (hw : g.wait = .fence ids sc) (ho : m.fenceOver t g ids sc = true) :
    m.fenceEndOn t slot = some (m.setGroup w t slot { g with wait := .request .fence true }) := by
  unfold M.fenceEndOn
  simp only [hl, hg, hw, ho, if_true]
  exact congrArg some (updGroup_wt _ hg)

variable {f : Flight}

theorem messageArrives_of (hf : m.flights.find? (·.id == f.id) = some f)
    (hb : (mget [] (m.wt f.world f.dest).bufs f.droute).length < 2) (hl : (m.tile f.dest).latch = some f.world)
    (hs : m.heldOnWay (m.worldPart f.world) .message f.route f.src f.dest = false)
    (ho : ∀ x ∈ m.flights, x.id < f.id → m.ordered x f = false) :
    m.messageArrives f.id = some ((({ m with flights := m.flights.filter (·.id != f.id) } : M).setWT f.world f.dest
      { m.wt f.world f.dest with
        bufs := put (m.wt f.world f.dest).bufs f.droute (mget [] (m.wt f.world f.dest).bufs f.droute ++ [f.msg]) }).serveBuf
      f.world f.dest f.droute 3) := by
  have hbefore : (m.flights.any fun x => x.id < f.id && m.ordered x f) = false :=
    List.any_eq_false.2 fun x hx => by
      simp only [Bool.and_eq_true, decide_eq_true_eq, not_and, Bool.not_eq_true]
      exact ho x hx
  unfold M.messageArrives
  simp only [hf, hl, hs, hbefore, Nat.not_le.2 hb, decide_false, bne_self_eq_false, Bool.or_self, Bool.false_eq_true, if_false]

end

/-- Settles O35: what is pending completes. -/
theorem operationsComplete : Obligations.OperationsComplete := by
  intro t w slot op g p there
  refine ⟨?completes, ?accrd, ?fence, ?message⟩
  case completes =>
    exact happens_of (fun m => m.opCompletes t slot op) (fun _ => rfl) fun m ⟨h, hll, hr, hs, ha⟩ =>
      opCompletes_of_ready h (opReady_of h hll hr hs ha)
  case accrd =>
    exact happens_of (fun m => m.accrdDone t slot op) (fun _ => rfl) fun m ⟨h, hs, hr, hc⟩ => accrdDone_of h hs hr hc
  case fence =>
    intro ids sc
    exact happens_of (fun m => m.fenceEndOn t slot) (fun _ => rfl) fun m ⟨hl, hg, hw, ho⟩ => fenceEndOn_of_over hl hg hw ho
  case message =>
    intro f
    exact happens_of (fun m => m.messageArrives f.id) (fun _ => rfl) fun m ⟨hf, hb, hl, hs, ho⟩ => messageArrives_of hf hb hl hs ho

/-! ## Walks, leases and the stack cache -/

section

variable {m : M} {t w line : Nat} {k : Walk}

/-- A walk that one of the field's 32 walkers serves now (R325, R397). -/
def WalkServed (m : M) (k : Walk) : Prop :=
  m.walks.find? (·.id == k.id) = some k ∧
    (m.walks.filter fun j => j.field == k.field && decide (j.id < k.id)).length < 32 ∧
    m.walkWaits k.world (k.page * 65536) 4 (m.world k.world).rootTable 0 = false

/-- The walks that are left once one has ended. -/
def walksLeft (m : M) (k : Walk) : M := { m with walks := m.walks.filter (·.id != k.id) }

theorem walkDone_leaf {l : Leaf} (hk : WalkServed m k) (hw : m.walk k.world (k.page * 65536) .read = .leaf l) :
    m.walkDone k.id = some (((m.acc.filter k.joins).map (·.id)).foldl M.serveAt ((m.acc.filter k.joins).foldl (fun m a => m.gotLeaf l a)
      (((m.askers k).foldl (fun m t => m.tlbPut t k.world (k.page * 65536) l) (walksLeft m k)).served k (.leaf l)))) := by
  obtain ⟨hf, hn, hr⟩ := hk
  unfold M.walkDone
  simp only [hf, Nat.not_le.2 hn, hr, hw, decide_false, Bool.or_self, Bool.false_eq_true, if_false]
  rfl

/-- A group that waits for a failed walk knows of it (R325). -/
def walkTold (m : M) (k : Walk) (c : Code) (d i : Nat) (g : Group) : Group :=
  if k.waits m (i % 8192) g then { g with walked := put g.walked k.page (c.num.toNat, d) } else g

theorem walkDone_fault {c : Code} {d : Nat} (hk : WalkServed m k) (hw : m.walk k.world (k.page * 65536) .read = .fault c d) :
    m.walkDone k.id = some (
      let m1 := (m.acc.filter k.joins).foldl (fun m a => m.failAcc a c (d % 256 + a.kind.tkind.bits)) ((walksLeft m k).served k (.fault c d))
      { m1 with wts := mapV (fun i wt => if i / 8192 = k.world then { wt with groups := mapV (fun _ g => walkTold m k c d i g) wt.groups }
        else wt) m1.wts }) := by
  obtain ⟨hf, hn, hr⟩ := hk
  unfold M.walkDone
  simp only [hf, Nat.not_le.2 hn, hr, hw, decide_false, Bool.or_self, Bool.false_eq_true, if_false]
  rfl

/-- The stores that the stack cache of a tile holds of a line. -/
def cachedStores (m : M) (w t line : Nat) : List Access :=
  m.acc.filter fun a => a.phase == .cached && a.world == w && a.tile == t && a.va / 64 == line

theorem stackBack_of (hw : m.rowWorld t 5 = some w) (hl : line ∈ (m.wt w t).dirtyLines) (hb : m.heldBack (cachedStores m w t line) = false)
    (ho : ∀ a ∈ cachedStores m w t line, m.homeOpen a = true) :
    m.stackBack t line = some ((cachedStores m w t line).foldl (fun m' a => m'.backOne (m.wt w t).stackd a)
      (m.setWT w t { m.wt w t with stackd := (m.wt w t).stackd.filter fun (x, _) => x / 64 != line,
                                   stackc := (m.wt w t).stackc.filter fun (x, _) => x / 64 != line,
                                   flush := (m.wt w t).flush.filter (· != line) })) := by
  have hdirty : (m.wt w t).dirtyLines.contains line = true := List.contains_iff_mem.2 hl
  have hopen : ((cachedStores m w t line).any fun a => !m.homeOpen a) = false :=
    List.any_eq_false.2 fun a ha => by simp [ho a ha]
  unfold cachedStores at hb hopen
  unfold M.stackBack
  simp only [hw, Option.bind_some, hdirty, hb, hopen, Bool.not_true, Bool.or_self, Bool.false_eq_true, if_false]
  rfl

end

/-- Settles O36: walks end for all who asked, and leases, hot states and dirty stack lines go. -/
theorem walksAndLeasesEnd : Obligations.WalksAndLeasesEnd := by
  intro t w line k asked rest
  refine ⟨?leaf, ?fault, ?lease, ?hot, ?back⟩
  case leaf =>
    intro l
    exact happens_of (fun m => m.walkDone k.id) (fun _ => rfl) fun m ⟨hk, hw⟩ => walkDone_leaf hk hw
  case fault =>
    intro c d
    exact happens_of (fun m => m.walkDone k.id) (fun _ => rfl) fun m ⟨hk, hw⟩ => walkDone_fault hk hw
  case lease =>
    intro l
    exact happens_of (fun m => m.leaseExpires t line) (fun _ => rfl) fun m hl => by unfold M.leaseExpires; rw [hl]; rfl
  case hot =>
    intro e
    exact happens_of (fun m => m.hotExpires line) (fun _ => rfl) fun m he => by unfold M.hotExpires; rw [he]; rfl
  case back =>
    intro mine
    exact happens_of (fun m => m.stackBack t line) (fun _ => rfl) fun m ⟨hw, hl, hb, ho⟩ =>
      stackBack_of hw hl hb fun a ha => homeOpen_of (ho a ha).2 (ho a ha).1

open Machine

/-! ## The landing's own steps -/

section

variable {m : M} {t w b slot n : Nat} {bn : Bin} {g : Group}

theorem binExpires_of (hl : (m.tile t).latch = some w) (hb : look (m.wt w t).bins b = some bn) (ht : bn.timed = false)
    (hc : bn.closed = false) (h0 : bn.timer = 0) (hn : bn.ths ≠ []) :
    m.binExpires t b = some (m.setWT w t
      (WT.askForm { m.wt w t with bins := put (m.wt w t).bins b { bn with timed := true } } (m.tile t).cycle b)) := by
  unfold M.binExpires
  simp only [hl, hb, Option.bind_some, ht, hc, h0, List.isEmpty_eq_false_iff.2 hn, bne_self_eq_false, Bool.or_self, Bool.false_eq_true,
    if_false]

theorem formGroup_of {m1 : M} (hl : (m.tile t).latch = some w) (hr : 5 ≤ (m.wt w t).restored) (hf : m.form w t b = some m1) :
    m.formGroup t b = some m1 := by
  unfold M.formGroup
  rw [hl, Option.filter_some, if_pos (decide_eq_true hr)]
  exact hf

theorem formable_of {s cyc : Nat} {rest : List RowReq} (hb : look (m.wt w t).bins b = some bn) (hc : bn.chosen ≠ [])
    (hq : (m.wt w t).growq = .form b cyc :: rest) (hr : bn.rows ≤ m.freeRows w t) (hs : m.pickSlot w t = some s) :
    m.formable w t = some (b, bn) := by
  unfold M.formable
  simp only [hq, hb, Option.bind_some, List.isEmpty_eq_false_iff.2 hc, Nat.not_lt.2 hr, hs, Option.isNone_some, decide_false, Bool.or_self,
    Bool.false_eq_true, if_false]

theorem M.place_groups (m : M) (w t slot : Nat) (g : Group) : look ((m.place w t slot g).wt w t).groups slot = some g := by
  unfold M.place; simp

theorem form_of_formable {s : Nat} {u : URec} {tm : Team} (hf : m.formable w t = some (b, bn)) (ho : ∀ e ∈ bn.chosen, e.out = false)
    (hs : m.pickSlot w t = some s) (hu : look (m.wt w t).urecs bn.urec = some u) (ht : look m.teams bn.team = some tm) :
    ∃ m1, m.form w t b = some m1 ∧ ∃ g', look (m1.wt w t).groups s = some g' ∧ g'.pc = bn.pc ∧ g'.team = bn.team ∧
      g'.allot = bn.rows ∧ g'.k = u.k ∧ g'.lanes = (fillLanes (bn.chosen.map (·.th))).1 := by
  have hout : (bn.chosen.any (·.out)) = false := List.any_eq_false.2 fun e he => by simp [ho e he]
  unfold M.form
  simp only [hf, hs, hu, ht, hout, ne_eq, not_true_eq_false, decide_false, Bool.or_self, Bool.false_eq_true, if_false]
  exact ⟨_, rfl, _, M.place_groups .., rfl, rfl, rfl, rfl, rfl⟩

/-- Threads about to form a group that lie in the overflow area, and the entries of the landing that may move out (R118). -/
def landBack (m : M) (w t : Nat) : List Waiting := (m.forming w t).filter (·.out)
def landPool (m : M) (w t : Nat) : List Waiting := (m.wt w t).entries.filter fun e => !e.out && !(m.forming w t).contains e

/-- The landing takes all the threads that are to come back (R118). -/
def LandTakesBack (m : M) (w t : Nat) : Prop :=
  ((m.wt w t).moveOldest (landBack m w t).length false (landBack m w t)).landIn ≤ 65536

theorem overflowMove_out (hw : m.rowWorld t 5 = some w) (hp : landPool m w t ≠ [])
    (hfull : 65536 < (m.wt w t).landIn + (m.wt w t).lwant ∨ (landBack m w t ≠ [] ∧ ¬ LandTakesBack m w t)) :
    m.overflowMove t n true = some (m.setWT w t ((m.wt w t).moveOldest n true (landPool m w t))) := by
  have hneed : ((m.wt w t).landTakes (m.wt w t).lwant && ((landBack m w t).isEmpty ||
      decide (((m.wt w t).moveOldest (landBack m w t).length false (landBack m w t)).landIn ≤ landSize))) = false := by
    rcases hfull with h | ⟨hb, ht⟩
    · have : (m.wt w t).landTakes (m.wt w t).lwant = false := decide_eq_false (Nat.not_le.2 h)
      rw [this, Bool.false_and]
    · rw [List.isEmpty_eq_false_iff.2 hb, decide_eq_false (show ¬ _ ≤ landSize from ht), Bool.or_self, Bool.and_false]
  unfold landBack at hneed
  unfold landPool at hp ⊢
  unfold M.overflowMove
  simp only [hw, Option.bind_some, List.isEmpty_eq_false_iff.2 hp, hneed, Bool.or_self, Bool.false_eq_true, if_false, if_true]

theorem overflowMove_back (hw : m.rowWorld t 5 = some w) (hb : landBack m w t ≠ []) (ht : LandTakesBack m w t) :
    m.overflowMove t n false = some (m.setWT w t ((m.wt w t).moveOldest n false (landBack m w t))) := by
  have htakes : decide (((m.wt w t).moveOldest (landBack m w t).length false (landBack m w t)).landIn ≤ landSize) = true :=
    decide_eq_true ht
  unfold landBack at hb htakes ⊢
  unfold M.overflowMove
  simp only [hw, Option.bind_some, List.isEmpty_eq_false_iff.2 hb, htakes, Bool.not_true, Bool.or_self, Bool.false_eq_true, if_false]

/-- A group of the latched world stands in the slot and may issue. -/
def Stands (m : M) (t w slot : Nat) (g : Group) : Prop :=
  (m.tile t).latch = some w ∧ look (m.wt w t).groups slot = some g ∧ m.mayIssue t w slot g = true

theorem arrives_eq (hs : Stands m t w slot g) (hi : m.hasIssued t slot = false) (hf : g.faultAtMeet = false) (ha : g.arriving ≠ []) :
    m.arrives t slot = some (m.arrive w t slot g) := by
  obtain ⟨hl, hg, hm⟩ := hs
  unfold M.arrives
  simp only [hl, hg, hm, hi, hf, List.isEmpty_eq_false_iff.2 ha, Option.bind_some, Bool.not_true, Bool.or_self, Bool.false_eq_true, if_false]

theorem arrive_inPlace {no : Nat} {r : Meeting} (hr : 5 ≤ (m.wt w t).restored) (hll : g.anyLL = false)
    (hp : g.inPlace (m.wt w t) = some (no, r)) :
    m.arrive w t slot g = ((m.roomTaken w t slot).setWT w t { (m.roomTaken w t slot).wt w t with
      meets := del (m.wt w t).meets no,
      groups := put (m.wt w t).groups slot { g with
        lanes := mapV (fun _ th => { th with meet := r.parent, regpc := r.m, regcnt := th.regcnt + 1 }) g.lanes } }).again t slot := by
  unfold M.arrive
  simp only [hp, Nat.not_lt.2 hr, hll, Bool.false_eq_true, if_false]

theorem arrive_enter (hp : g.inPlace (m.wt w t) = none) (hw : m.leaveWait w t slot g g.arriving.length = none) :
    m.arrive w t slot g =
      let m0 := m.roomTaken w t slot
      let u := (m0.wt w t).urecFor g.team g.k
      let ths := g.arriving.map (·.2)
      (((m0.setWT w t (u.2.arriveAs g g.pc u.1 m.uid g.arriving)).vacate w t slot (g.arriving.map (·.1)) .arrived).meetChecks
        w t ths).again t slot := by
  unfold M.arrive
  simp only [hp, hw]

theorem settle_of (hw : m.leaveWait w t slot g g.settled.length = none) :
    m.settle w t slot g = ((m.roomTaken w t slot).updGroup w t slot fun g => { g with late := [] }).takeFaults w t slot g.settled := by
  unfold M.settle
  simp only [hw]

theorem settles_latched (ho : (m.tile t).out = none) (hs : Stands m t w slot g) (hl : g.late ≠ []) (hb : g.wait.begun = false)
    (hd : g.faultAtMeet = true ∨ g.settleDue false = true) : m.settles t slot = some (m.settle w t slot g) := by
  obtain ⟨hlatch, hg, hm⟩ := hs
  have hdue : (g.faultAtMeet || g.settleDue false) = true := by simpa using hd
  unfold M.settles
  simp only [ho, Option.bind_none, hlatch, hg, hm, hb, hdue, List.isEmpty_eq_false_iff.2 hl, Option.bind_some, Bool.not_true, Bool.or_self,
    Bool.false_eq_true, if_false]

theorem settles_out (ho : (m.tile t).out = some w) (hg : look (m.wt w t).groups slot = some g) (hs : (m.tile t).spill < 5)
    (hl : g.late ≠ []) (hd : m.drained g = true) (hll : g.anyLL = false)
    (hr : m.hasRoom w t slot ((m.wt w t).roomFor g g.settled.length) = true) :
    m.settles t slot = some ((((m.quit w t slot g).roomTaken w t slot).updGroup w t slot fun g => { g with late := [] }).takeFaults
      w t slot g.settled) := by
  unfold M.settles
  simp only [ho, Option.bind_some, hg, Option.map_some, Nat.not_le.2 hs, decide_false, List.isEmpty_eq_false_iff.2 hl, hd, hll, hr,
    Bool.not_true, Bool.or_self, Bool.false_eq_true, if_false]

end

/-- Settles O37: the landing forms groups, moves entries, and takes those that arrive or fault. -/
theorem landingSteps : Obligations.LandingSteps := by
  intro t w b slot n bn g latched stands
  refine ⟨?timer, ?formation, ?formed, ⟨?out, ?back⟩, ?inPlace, ?arrive, ?settle, ?settleOut⟩
  case timer =>
    exact happens_of (fun m => m.binExpires t b) (fun _ => rfl) fun m ⟨hl, hb, ht, hc, h0, hn⟩ => binExpires_of hl hb ht hc h0 hn
  case formation =>
    intro m1
    exact happens_of (fun m => m.formGroup t b) (fun _ => rfl) fun m ⟨hl, hr, hf⟩ => formGroup_of hl hr hf
  case formed =>
    intro s' u tm cyc rest m hb hc hq hr ho hs hu ht
    exact form_of_formable (formable_of hb hc hq hr hs) ho hs hu ht
  case out =>
    exact happens_of (fun m => m.overflowMove t n true) (fun _ => rfl) fun m ⟨hw, hp, hf⟩ => overflowMove_out hw hp hf
  case back =>
    exact happens_of (fun m => m.overflowMove t n false) (fun _ => rfl) fun m ⟨hw, hb, ht⟩ => overflowMove_back hw hb ht
  case inPlace =>
    intro no r
    exact happens_of (fun m => m.arrives t slot) (fun _ => rfl) fun m ⟨hs, hi, hf, ha, hr, hll, hp⟩ =>
      (arrives_eq hs hi hf ha).trans (congrArg some (arrive_inPlace hr hll hp))
  case arrive =>
    exact happens_of (fun m => m.arrives t slot) (fun _ => rfl) fun m ⟨hs, hi, hf, ha, hr, hll, hp, hroom⟩ =>
      (arrives_eq hs hi hf ha).trans (congrArg some (arrive_enter hp (leaveWait_none hr hll hroom)))
  case settle =>
    exact happens_of (fun m => m.settles t slot) (fun _ => rfl) fun m ⟨ho, hs, hl, hb, hd, hr, hll, hroom⟩ =>
      (settles_latched ho hs hl hb hd).trans (congrArg some (settle_of (leaveWait_none hr hll hroom)))
  case settleOut =>
    intro w'
    exact happens_of (fun m => m.settles t slot) (fun _ => rfl) fun m ⟨ho, hg, hs, hl, hd, hll, hroom⟩ =>
      settles_out ho hg hs hl hd hll hroom

open Machine

/-! ## Work queues and launches -/

section

variable {m m1 : M} {q off li p : Nat} {data : List Byte} {v : W64} {la : Launch} {seq : W32} {r : LRec} {rest : List (W32 × LRec)}

/-- The queue hears a whole record for a world that runs (R154). -/
def QueueTakes (m : M) (q : Nat) (data : List Byte) : Prop :=
  m.hears (q / 4) = true ∧ data.length = 64 ∧ (m.wq q).en = true ∧ (m.world (m.wq q).world).st = .run

theorem submit_held (ht : QueueTakes m q data) (hp : (m.wq q).pend < 5) :
    m.submit q 0 data = some (m.setWQ q { m.wq q with
      nextseq := (m.wq q).nextseq + 1, held := (m.wq q).held ++ [((m.wq q).nextseq, parseLaunch data)] }) := by
  obtain ⟨hh, hl, he, hr⟩ := ht
  unfold M.submit
  simp [hh, hl, he, hr, Nat.not_le.2 hp]

theorem submit_full (ht : QueueTakes m q data) (hp : 5 ≤ (m.wq q).pend) (hw : m.wordWaits q = false) :
    m.submit q 0 data = some ((m.setWQ q { m.wq q with nextseq := (m.wq q).nextseq + 1 }).completion q (m.wq q).nextseq 4
      (parseLaunch data).irq) := by
  obtain ⟨hh, hl, he, hr⟩ := ht
  unfold M.submit
  simp [hh, hl, he, hr, hp, hw]

theorem submit_bad (hh : m.hears (q / 4) = true) (ho : off < 64)
    (hb : off ≠ 0 ∨ data.length ≠ 64 ∨ (m.wq q).en = false ∨ ¬ (m.world (m.wq q).world).st = .run) :
    m.submit q off data = some (m.setWQ q { m.wq q with badwr := (m.wq q).badwr + 1 }) := by
  have hbad : (off ≠ 0 || data.length ≠ 64 || !(m.wq q).en || (m.world (m.wq q).world).st ≠ .run) = true := by
    simpa [or_assoc] using hb
  unfold M.submit
  simp only [hh, Nat.not_le.2 ho, hbad, decide_false, Bool.not_true, Bool.or_self, Bool.false_eq_true, if_false, if_true]

theorem wqctl_on (hh : m.hears (q / 4) = true) (he : (m.wq q).en = false) (hv : v.getLsbD 0 = true) :
    m.wqctl q v = some (m.setWQ q { m.wq q with
      en := true, irq := v.getLsbD 1, vec := v.extractLsb' 16 16, nextseq := 1, cwfail := false }) := by
  unfold M.wqctl
  simp only [hh, he, hv, Bool.not_true, Bool.not_false, Bool.and_self, Bool.false_eq_true, if_false, if_true]

theorem wqctl_else (hh : m.hears (q / 4) = true) (hv : (m.wq q).en = true ∨ v.getLsbD 0 = false) :
    m.wqctl q v = some (m.setWQ q { m.wq q with en := v.getLsbD 0, irq := v.getLsbD 1, vec := v.extractLsb' 16 16 }) := by
  have hno : (v.getLsbD 0 && !(m.wq q).en) = false := by
    rcases hv with h | h
    · rw [h]; exact Bool.and_false _
    · rw [h]; rfl
  unfold M.wqctl
  simp only [hh, hno, Bool.not_true, Bool.false_eq_true, if_false]

/-- A queue's next launch can start (R156). -/
structure LaunchStarts (m : M) (q : Nat) (seq : W32) (r : LRec) (rest : List (W32 × LRec)) (p : Nat) : Prop where
  held : (m.wq q).held = (seq, r) :: rest
  part : (m.world (m.wq q).world).part = some p
  idle : (m.wq q).running = false
  run : (m.world (m.wq q).world).st = .run
  going : (m.world (m.wq q).world).stopped = false
  word : m.wordWaits q = false
  calm : (m.part p).quiesce = 0
  snap : m.hearth.snapstat ≠ 1

/-- The record that starts has left its queue. -/
def launchPopped (m : M) (q : Nat) (rest : List (W32 × LRec)) : M := m.setWQ q { m.wq q with held := rest }

theorem startLaunch_eq (h : LaunchStarts m q seq r rest p) :
    m.startLaunch q =
      if r.badFields then some ((launchPopped m q rest).completion q seq 1 r.irq)
      else if m.noRectangle (m.part p) r then some ((launchPopped m q rest).completion q seq 2 r.irq)
      else if r.coop && !m.arranged (m.part p) r r.clusters [] then some ((launchPopped m q rest).completion q seq 3 r.irq)
      else
        let f := (m.setWQ q { m.wq q with held := rest, running := true }).fresh
        some (f.2.setLaunch f.1 { wq := q, seq := seq, world := (m.wq q).world, part := p, lr := r,
                                  handler := (m.world (m.wq q).world).handles q }) := by
  have hsnap : (m.hearth.snapstat == 1) = false := beq_false_of_ne h.snap
  unfold M.startLaunch launchPopped
  simp only [h.held, h.part, h.idle, h.run, h.going, h.word, h.calm, hsnap, ne_eq, not_true_eq_false, decide_false, bne_self_eq_false,
    Bool.or_self, Bool.false_eq_true, if_false]

/-- Clusters of a launch may be placed now (R161). -/
def Placeable (m : M) (li : Nat) (la : Launch) : Prop :=
  look m.launches li = some la ∧ la.ending = false ∧ (m.part la.part).quiesce = 0 ∧ (m.world la.world).stopped = false

theorem dispatch_next (hl : Placeable m li la)
    (hc : ∀ x ∈ m.launches, ¬ (x.2.world = la.world ∧ x.2.part = la.part ∧ x.2.coopWaits = true)) :
    m.dispatch li = m.placeNext li := by
  obtain ⟨hl, he, hq, hs⟩ := hl
  have hnone : (m.launches.find? fun (_, l) => l.world == la.world && l.part == la.part && l.coopWaits) = none :=
    List.find?_eq_none.2 fun x hx h => hc x hx (by simpa [and_assoc] using h)
  unfold M.dispatch
  simp only [hl, he, hq, hs, hnone, bne_self_eq_false, Bool.or_self, Bool.false_eq_true, if_false]

theorem dispatch_coop (hl : Placeable m li la)
    (hc : (m.launches.find? fun (_, l) => l.world == la.world && l.part == la.part && l.coopWaits) = some (li, la)) :
    m.dispatch li = m.placeAll li la.lr.clusters := by
  obtain ⟨hl, he, hq, hs⟩ := hl
  unfold M.dispatch
  simp only [hl, he, hq, hs, hc, bne_self_eq_false, Bool.or_self, Bool.false_eq_true, if_false, if_true]

theorem placeNext_one {i : Nat} (hl : look m.launches li = some la) (hd : la.dealt = [i]) : m.placeNext li = m.placeCluster li i := by
  unfold M.placeNext
  simp only [hl, Option.bind_some, hd]

/-- Of several clusters under placement a free choice takes one (R161). -/
theorem placeNext_some {i j : Nat} {is : List Nat} (hl : look m.launches li = some la) (hd : la.dealt = i :: j :: is)
    (hp : m.placeNext li = some m1) : ∃ k ∈ la.dealt, m.freeVal.2.placeCluster li k = some m1 := by
  unfold M.placeNext at hp
  simp only [hl, Option.bind_some, hd] at hp
  obtain ⟨k, hk, hplace⟩ := Option.bind_eq_some_iff.1 hp
  exact ⟨k, hd ▸ List.mem_of_getElem? hk, hplace⟩

theorem completeLaunch_of (hl : look m.launches li = some la) (hd : m.allDone li la = true) (hs : (m.world la.world).stopped = false)
    (hw : m.wordWaits la.wq = false) :
    m.completeLaunch li = some (
      let m1 : M := { m with launches := del m.launches li, teams := m.teams.filter fun (_, tm) => tm.launch != li,
                             clusters := m.clusters.filter fun (_, c) => c.launch != li }
      (m1.setWQ la.wq { m.wq la.wq with running := false }).completion la.wq la.seq la.status la.lr.irq) := by
  unfold M.completeLaunch
  simp only [hl, hd, hs, hw, Bool.not_true, Bool.or_self, Bool.false_eq_true, if_false]
  rfl

end

/-- Settles O38: a record is taken, its launch starts or is refused, its clusters are placed, and it completes. -/
theorem launchesRun : Obligations.LaunchesRun := by
  intro q data v li la seq r rest p run takes starts popped there on
  have hstarts {m : M} (h : starts m) : LaunchStarts m q seq r rest p := by
    obtain ⟨hh, hp, hi, hr, hs, hw, hq, hn⟩ := h
    exact ⟨hh, hp, hi, hr, hs, hw, hq, hn⟩
  have hstart {c : M → Prop} {e : M → M} (h : ∀ m, c m → m.startLaunch q = some (e m)) : Happens (.launchStart q) c e :=
    happens_of (fun m => m.startLaunch q) (fun _ => rfl) h
  refine ⟨?held, ?full, ?bad, ?ctl, ?ctlOn, ?badFields, ?noPlace, ?noArrangement, ?starts, ?next, ?choice, ?coop, ?complete⟩
  case held => exact happens_of (fun m => m.submit q 0 data) (fun _ => rfl) fun m ⟨ht, hp⟩ => submit_held ht hp
  case full => exact happens_of (fun m => m.submit q 0 data) (fun _ => rfl) fun m ⟨ht, hp, hw⟩ => submit_full ht hp hw
  case bad =>
    intro off
    exact happens_of (fun m => m.submit q off data) (fun _ => rfl) fun m ⟨hh, ho, hb⟩ => submit_bad hh ho hb
  case ctl => exact happens_of (fun m => m.wqctl q v) (fun _ => rfl) fun m ⟨hh, hv⟩ => wqctl_else hh hv
  case ctlOn => exact happens_of (fun m => m.wqctl q v) (fun _ => rfl) fun m ⟨hh, he, hv⟩ => wqctl_on hh he hv
  case badFields => exact hstart fun m ⟨hs, hb⟩ => (startLaunch_eq (hstarts hs)).trans (if_pos hb)
  case noPlace =>
    exact hstart fun m ⟨hs, hb, hr⟩ => by rw [startLaunch_eq (hstarts hs), hb, hr]; rfl
  case noArrangement =>
    exact hstart fun m ⟨hs, hb, hr, hc, ha⟩ => by rw [startLaunch_eq (hstarts hs), hb, hr, hc, ha]; rfl
  case starts =>
    refine hstart fun m ⟨hs, hb, hr, hc⟩ => ?_
    have hno : (r.coop && !m.arranged (m.part p) r r.clusters []) = false := by
      rcases hc with h | h
      · rw [h]; rfl
      · rw [h]; exact Bool.and_false _
    rw [startLaunch_eq (hstarts hs), hb, hr, hno]
    rfl
  case next =>
    intro m1
    exact happens_of (fun m => m.dispatch li) (fun _ => rfl) fun m ⟨hl, hc, hp⟩ => (dispatch_next hl hc).trans hp
  case choice => exact fun m i j is hl => ⟨placeNext_one hl, fun hd m1 => placeNext_some hl hd⟩
  case coop =>
    intro m1
    exact happens_of (fun m => m.dispatch li) (fun _ => rfl) fun m ⟨hl, hc, hp⟩ => (dispatch_coop hl hc).trans hp
  case complete =>
    exact happens_of (fun m => m.completeLaunch li) (fun _ => rfl) fun m ⟨hl, hd, hs, hw⟩ => completeLaunch_of hl hd hs hw

/-! ## The end of launches, trap records and fetch -/

section

variable {m m1 : M} {li i w t va : Nat} {la : Launch} {tm : Team} {ss : List Staged} {r : PendRec} {b : FetchBlock} {bad : Bool}

theorem ticket_of (hl : look m.launches li = some la) (hd : la.lr.det = true) (he : la.ending = false)
    (hs : (m.world la.world).stopped = false) (hq : (m.part la.part).quiesce = 0) (hst : look la.staged la.released = some ss)
    (hr : ∀ st ∈ ss, st.homek = 0 → m.repairing (fieldKey st.homeid st.pa / 64) = false)
    (ht : ((m.teamsOf li).find? fun (_, tm) => tm.index == la.released) = some (i, tm)) :
    m.ticket li = some (ss.foldl (M.releaseStore li i tm.tile)
      (m.setLaunch li { la with staged := del la.staged la.released, released := la.released + 1 })) := by
  have hrep : (ss.any fun st => st.homek == 0 && m.repairing (fieldKey st.homeid st.pa / 64)) = false :=
    List.any_eq_false.2 fun st hmem => by
      simp only [Bool.and_eq_true, beq_iff_eq, not_and, Bool.not_eq_true]
      exact hr st hmem
  unfold M.ticket M.updLaunch
  simp only [hl, hd, he, hs, hq, hst, ht, hrep, Bool.not_true, bne_self_eq_false, Bool.or_self, Bool.false_eq_true, if_false]

theorem gridStalls_of (hl : look m.launches li = some la) (hc : la.lr.stallCycles ≤ la.stall) (hs : m.stalled li la = true) :
    m.gridStalls li = some (m.fatal la.world li
      { code := .gridStall, pc := la.lr.entry.extractLsb' 0 56, seq := la.seq, kind := 3, wq := la.wq }) := by
  unfold M.gridStalls
  simp only [hl, Option.bind_some, Nat.not_lt.2 hc, hs, decide_false, Bool.not_true, Bool.or_self, Bool.false_eq_true, if_false]

theorem fatalEnd_of (hl : look m.launches li = some la) (he : la.ending = true)
    (hleft : (∃ x ∈ m.teamsOf li, m.teamOver x.1 x.2 = false) ∨ la.staged ≠ []) :
    m.fatalEnd li = some (
      let m1 := m.setWorld la.world { m.world la.world with tokens := (m.world la.world).tokens.filter fun (_, tk) => tk.launch != li }
      ((m1.teamsOf li).foldl (fun m (i, tm) => m.endTeam i tm) m1).updLaunch li fun l => { l with staged := [] }) := by
  have hnot : (((m.teamsOf li).all fun (i, tm) => m.teamOver i tm) && la.staged.isEmpty) = false := by
    rcases hleft with ⟨x, hx, ho⟩ | h
    · rw [List.all_eq_false.2 ⟨x, hx, by simp [ho]⟩, Bool.false_and]
    · rw [List.isEmpty_eq_false_iff.2 h, Bool.and_false]
  unfold M.fatalEnd
  simp only [hl, Option.bind_some, he, hnot, Bool.not_true, Bool.or_self, Bool.false_eq_true, if_false]

/-- A record of a world can be dealt with now (R319). -/
def RecFirst (m : M) (w : Nat) (r : PendRec) : Prop :=
  (m.world w).st = .run ∧ (m.world w).recs.find? (m.world w).takes = some r ∧
    (m.world w).stopping = none ∧ m.repairing ((m.world w).slotKey (m.world w).tqtail.toNat / 64) = false

theorem writeRec_overflow (h : RecFirst m w r) (hf : r.fr.isFatal = true)
    (hq : (m.world w).tqbase.getLsbD 0 = false ∨ 1024 ≤ (m.world w).occ) :
    m.writeRec w = some (m.stopWith w { r.fr with kind := 4, code := .trapQueueOverflow }) := by
  obtain ⟨hr, hfind, hs, hrep⟩ := h
  have hfull : (!(m.world w).tqbase.getLsbD 0 || decide (1024 ≤ (m.world w).occ)) = true := by simpa using hq
  unfold M.writeRec
  simp only [hfind, Option.bind_some, hr, hs, hrep, hf, hfull, ne_eq, not_true_eq_false, decide_false, Option.isSome_none, Bool.or_self,
    Bool.and_self, Bool.false_eq_true, if_false, if_true]

theorem writeRec_written (h : RecFirst m w r) (hb : (m.world w).tqbase.getLsbD 0 = true) (ho : (m.world w).occ < 1024)
    (hw : m.fieldWrite ((m.world w).slotKey (m.world w).tqtail.toNat)
      ({ r.fr with resv := r.fr.isFatal && (m.world w).occ == 1023 } : FRec).bytes w 0 0 0 = some m1) :
    m.writeRec w = some (
      let key := (m.world w).slotKey (m.world w).tqtail.toNat
      let q := m1.performed (key / 2 ^ 36) (key / 64)
      let m2 := if q.1 = 0 then q.2 else q.2.passUnits q.1
      ((m2.setWorld w { m.world w with tqtail := (m.world w).tqtail + 1,
                                       recs := (m.world w).recs.filter (·.id != r.id) }).wakeRec w r.id).wakeChains w r.id) := by
  obtain ⟨hr, hfind, hs, hrep⟩ := h
  unfold M.writeRec
  simp only [hfind, Option.bind_some, hr, hs, hrep, hb, Nat.not_le.2 ho, ne_eq, not_true_eq_false, decide_false, Option.isSome_none,
    Bool.not_true, Bool.or_self, Bool.and_false, Bool.false_eq_true, if_false, hw, Option.map_some]

theorem fetchDone_got (hl : (m.tile t).latch = some w) (hva : va < 2 ^ 56) (hf : m.fetchBlock t w (va / 32 * 32) = (.got b, m1)) :
    m.fetchDone t va false = some (m1.setTile t { m1.tile t with fetch := put (m1.tile t).fetch (w * 2 ^ 51 + va / 32) b }) := by
  unfold M.fetchDone
  simp only [hl, Option.bind_some, Nat.not_le.2 hva, hf, Bool.false_eq_true, if_false]
  rfl

theorem fetchDone_bad (hl : (m.tile t).latch = some w) (hva : va < 2 ^ 56) (hf : m.fetchBlock t w (va / 32 * 32) = (.got b, m1)) :
    m.fetchDone t va true = some (
      let m2 := m1.setWT w t ((m1.wt w t).logError 2 (BitVec.ofNat 56 (va / 32 * 32)))
      m2.setTile t { m2.tile t with
        fetch := put (m2.tile t).fetch (w * 2 ^ 51 + va / 32) { data := [], fault := some (.uncorrectableData, 0) } }) := by
  unfold M.fetchDone
  simp only [hl, Option.bind_some, Nat.not_le.2 hva, hf, if_false, if_true]
  rfl

theorem fetchDone_miss (hl : (m.tile t).latch = some w) (hva : va < 2 ^ 56) (hf : (m.fetchBlock t w (va / 32 * 32)).1 = .miss) :
    m.fetchDone t va bad = m.ask t w (va / 32 * 32) := by
  unfold M.fetchDone
  simp only [hl, Option.bind_some, Nat.not_le.2 hva, hf, if_false]

theorem fetchDone_later (hl : (m.tile t).latch = some w) (hva : va < 2 ^ 56) (hf : m.fetchBlock t w (va / 32 * 32) = (.later, m1))
    (hn : (m1.wt w t).flush ≠ (m.wt w t).flush) : m.fetchDone t va bad = some m1 := by
  have hne : ((m1.wt w t).flush == (m.wt w t).flush) = false := beq_false_of_ne hn
  unfold M.fetchDone
  simp only [hl, Option.bind_some, Nat.not_le.2 hva, hf, hne, Bool.false_eq_true, if_false]

end

/-- Settles O39: what ends a launch, and what the trap queue and the fetch unit do. -/
theorem launchesEnd : Obligations.LaunchesEnd := by
  intro li w la r there first
  refine ⟨?ticket, ?stall, ?fatal, ?overflow, ?written, ?got, ?bad, ?miss, ?later⟩
  case ticket =>
    intro ss i tm
    exact happens_of (fun m => m.ticket li) (fun _ => rfl) fun m ⟨hl, hd, he, hs, hq, hst, hr, ht⟩ => ticket_of hl hd he hs hq hst hr ht
  case stall => exact happens_of (fun m => m.gridStalls li) (fun _ => rfl) fun m ⟨hl, hc, hs⟩ => gridStalls_of hl hc hs
  case fatal => exact happens_of (fun m => m.fatalEnd li) (fun _ => rfl) fun m ⟨hl, he, hleft⟩ => fatalEnd_of hl he hleft
  case overflow => exact happens_of (fun m => m.writeRec w) (fun _ => rfl) fun m ⟨h, hf, hq⟩ => writeRec_overflow h hf hq
  case written =>
    intro m1
    exact happens_of (fun m => m.writeRec w) (fun _ => rfl) fun m ⟨h, hb, ho, hw⟩ => writeRec_written h hb ho hw
  case got =>
    intro t va b m1
    exact happens_of (fun m => m.fetchDone t va false) (fun _ => rfl) fun m ⟨hl, hva, hf⟩ => fetchDone_got hl hva hf
  case bad =>
    intro t va b m1
    exact happens_of (fun m => m.fetchDone t va true) (fun _ => rfl) fun m ⟨hl, hva, hf⟩ => fetchDone_bad hl hva hf
  case miss =>
    intro t va bad m1
    exact happens_of (fun m => m.fetchDone t va bad) (fun _ => rfl) fun m ⟨hl, hva, hf, ha⟩ => (fetchDone_miss hl hva hf).trans ha
  case later =>
    intro t va bad m1
    exact happens_of (fun m => m.fetchDone t va bad) (fun _ => rfl) fun m ⟨hl, hva, hf, hn⟩ => fetchDone_later hl hva hf hn

end Sys2Proof

/-! PROOFS. Cycles and slices, the switch, debug and registers (O40 to O43). -/

namespace Sys2Proof

open Machine

/-! ## Cycles and slices -/

section

variable {m : M} {t w p i : Nat} {y : Bool}

/-- The tile's partition is frozen (R342). -/
def FrozenTile (m : M) (t : Nat) : Prop := ∃ q, m.partOf t = some q ∧ m.hearth.frozen.contains q = true

/-- A cycle of the tile ends: it has cycles, and every pick of the cycle is made (R164, R342). -/
def CycleEnds (m : M) (t : Nat) : Prop :=
  tileOk t = true ∧ t < 8192 ∧ ¬ FrozenTile m t ∧ (m.tile t).phase ≠ .swapping ∧ (m.field (fieldOf t)).pst = 0 ∧ m.pickOn t = none

/-- The tile as its next cycle begins. -/
def nextCycle (tl : Tile) : Tile :=
  { tl with cycle := tl.cycle + 1, issued := [], left := [], past := [], later := [], lost := [], tried := [], served := false }

/-- The charges of a latched world's cycle on a tile (R167). -/
def cycleCharged (m : M) (w t : Nat) : WT :=
  [0, 1, 2, 3].foldl (fun (x : WT) s => (m.setCharges (m.tile t) (m.wt w t) s).foldl (fun x (c, pc) => x.charge s c pc) x) (m.wt w t)

theorem cycleEnds_eq (h : CycleEnds m t) :
    m.cycleEnds t = match (m.tile t).latch with
      | none => some (m.setTile t { nextCycle (m.tile t) with idle := (m.tile t).idle + 1, idleSlots := (m.tile t).idleSlots + 8 })
      | some w => some ((((m.setWT w t { cycleCharged m w t with acct := bump (cycleCharged m w t).acct 0 1 }).wtTick w t).setTile t
          (nextCycle (m.tile t))).ctlTick t w) := by
  obtain ⟨hok, ht, hf, hp, hpst, hpick⟩ := h
  unfold M.cycleEnds
  cases hq : m.partOf t with
  | none =>
    simp only [hok, Nat.not_le.2 ht, beq_false_of_ne hp, hpst, hpick, decide_false, Bool.not_true, bne_self_eq_false,
      Option.isSome_none, Bool.or_self, Bool.false_eq_true, if_false]
    rfl
  | some q =>
    have hfrozen : m.hearth.frozen.contains q = false := Bool.eq_false_iff.2 fun hc => hf ⟨q, hq, hc⟩
    simp only [hok, Nat.not_le.2 ht, hfrozen, beq_false_of_ne hp, hpst, hpick, decide_false, Bool.not_true, bne_self_eq_false,
      Option.isSome_none, Bool.or_self, Bool.false_eq_true, if_false]
    rfl

/-- The slice of the latched world is over (R328, R351). -/
def SliceOver (m : M) (p w : Nat) (y : Bool) : Prop :=
  (m.part p).latched = some w ∧ (m.part p).sw = none ∧ (m.part p).quiesce = 0 ∧
    ((y = true ∧ (m.part p).yielded = true) ∨ (y = false ∧ (m.part p).left = 0))

/-- The world of an entry of the quantum table. -/
def entryWorld (m : M) (p i : Nat) : Nat := qWorld (mget 0 (m.part p).quantum i)

theorem sliceEnds_eq (h : SliceOver m p w y) :
    m.sliceEnds p y = match m.nextEntry (m.part p) with
      | none => some (m.setPart p { m.part p with left := (m.part p).further w, yielded := false })
      | some i => some (m.setPart p
          (if entryWorld m p i ≠ w then
            { m.part p with cur := some i, left := (m.part p).cycles i, yielded := false, sw := some { dst := some (entryWorld m p i) } }
           else if y then { m.part p with yielded := false }
           else { m.part p with cur := some i, left := (m.part p).cycles i, yielded := false })) := by
  obtain ⟨hl, hs, hq, hy⟩ := h
  have hdue : (if y then (m.part p).yielded else (m.part p).left == 0) = true := by
    rcases hy with ⟨rfl, h⟩ | ⟨rfl, h⟩
    · exact h
    · exact beq_iff_eq.2 h
  unfold M.sliceEnds
  simp only [hl, hs, hq, hdue, Option.isSome_none, bne_self_eq_false, Bool.not_true, Bool.or_self, Bool.false_eq_true, if_false]
  cases m.nextEntry (m.part p) <;> rfl

theorem firstSwitch_of (hu : (m.part p).used = true) (hl : (m.part p).latched = none) (hs : (m.part p).sw = none)
    (hq : (m.part p).quiesce = 0) (hf : m.hearth.frozen.contains p = false) (ht : ∀ t ∈ (m.part p).tiles, (m.tile t).quench = false)
    (hi : (List.range 16).find? (m.eligible (m.part p)) = some i) (hw : (m.world (entryWorld m p i)).quench = false) :
    m.firstSwitch p = some (m.setPart p { m.part p with cur := some i, left := (m.part p).cycles i, yielded := false,
                                                        sw := some { dst := some (entryWorld m p i) } }) := by
  have hquench : ((m.part p).tiles.any fun t => (m.tile t).quench) = false := List.any_eq_false.2 fun t hmem => by simp [ht t hmem]
  unfold entryWorld at hw
  unfold M.firstSwitch
  simp only [hu, hl, hs, hq, hf, hquench, hi, hw, Option.bind_some, Option.isSome_none, Bool.not_true, bne_self_eq_false, Bool.or_self,
    Bool.false_eq_true, if_false]
  rfl

end

/-- Settles O40: a cycle is charged, and a slice ends, by what the tile and its partition hold. -/
theorem cyclesAndSlices : Obligations.CyclesAndSlices := by
  intro t w p y frozen runs next ends entry
  have hcycle {c : M → Prop} {e : M → M} (h : ∀ m, c m → m.cycleEnds t = some (e m)) : Happens (.cycleCharge t) c e :=
    happens_of (fun m => m.cycleEnds t) (fun _ => rfl) h
  have hslice {y : Bool} {c : M → Prop} {e : M → M} (h : ∀ m, c m → m.sliceEnds p y = some (e m)) : Happens (.sliceEnd p y) c e :=
    happens_of (fun m => m.sliceEnds p y) (fun _ => rfl) h
  refine ⟨?idle, ?charge, ?none, ?same, ?yield, ?switch, ?first⟩
  case idle => exact hcycle fun m ⟨hr, hl⟩ => by rw [cycleEnds_eq hr, hl]; rfl
  case charge => exact hcycle fun m ⟨hr, hl⟩ => by rw [cycleEnds_eq hr, hl]; rfl
  case none => exact hslice fun m ⟨he, hn⟩ => by rw [sliceEnds_eq he, hn]
  case same =>
    rintro i
    refine hslice fun m ⟨hy, he, hn, hw⟩ => ?_
    subst hy
    rw [sliceEnds_eq he, hn]
    exact congrArg (fun x => some (m.setPart p x)) ((if_neg (not_not_intro hw)).trans (if_neg nofun))
  case yield =>
    rintro i
    refine hslice fun m ⟨hy, he, hn, hw⟩ => ?_
    subst hy
    rw [sliceEnds_eq he, hn]
    exact congrArg (fun x => some (m.setPart p x)) ((if_neg (not_not_intro hw)).trans (if_pos rfl))
  case switch =>
    rintro i
    refine hslice fun m ⟨he, hn, hw⟩ => ?_
    rw [sliceEnds_eq he, hn]
    exact congrArg (fun x => some (m.setPart p x)) (if_pos hw)
  case first =>
    intro i
    exact happens_of (fun m => m.firstSwitch p) (fun _ => rfl) fun m ⟨hu, hl, hs, hq, hf, ht, hi, hw⟩ =>
      firstSwitch_of hu hl hs hq hf ht hi hw

end Sys2Proof

namespace Sys2Proof.Machine


/-! ## What a passing cycle leaves of a world's state on a tile -/

section

variable {m m1 m2 : M} {w t : Nat} {a b c : WT}

/-- No thread of a group holds a reservation. -/
def WT.Unreserved (a : WT) : Prop :=
  ∀ sl g l th, look a.groups sl = some g → look g.lanes l = some th → th.resv = none

/-- What a cycle leaves of a world's state on a tile: the rows restored, a step held back, and no reservation is made. -/
structure WT.Ticked (a b : WT) : Prop where
  restored : b.restored = a.restored
  held : b.dbg.held = a.dbg.held
  resv : a.Unreserved → b.Unreserved

theorem WT.Ticked.refl (a : WT) : a.Ticked a := ⟨rfl, rfl, id⟩

theorem WT.Ticked.trans (h1 : a.Ticked b) (h2 : b.Ticked c) : a.Ticked c :=
  ⟨h2.restored.trans h1.restored, h2.held.trans h1.held, h2.resv ∘ h1.resv⟩

theorem WT.ticked_of_groups (hr : b.restored = a.restored) (hh : b.dbg.held = a.dbg.held) (hg : b.groups = a.groups) : a.Ticked b :=
  ⟨hr, hh, fun h sl g l th hl => h sl g l th (hg ▸ hl)⟩

/-- Groups whose lanes' reservations do not grow. -/
theorem WT.unreserved_mapV {f : Nat → Group → Group} (hf : ∀ i g, (f i g).lanes = g.lanes) (h : a.Unreserved) (hg : b.groups = mapV f a.groups) :
    b.Unreserved := by
  intro sl g l th hsl hl
  rw [hg, look_mapV, Option.map_eq_some_iff] at hsl
  obtain ⟨g', hg', rfl⟩ := hsl
  rw [hf] at hl
  exact h sl g' l th hg' hl

theorem WT.loseAll_unreserved (a : WT) : a.loseAll.Unreserved := by
  intro sl g l th hsl hl
  unfold WT.loseAll at hsl
  rw [look_mapV, Option.map_eq_some_iff] at hsl
  obtain ⟨g', -, rfl⟩ := hsl
  rw [look_mapV, Option.map_eq_some_iff] at hl
  obtain ⟨th', -, rfl⟩ := hl
  rfl

/-- What a cycle leaves: the tiles, and of every world's state on a tile what `WT.Ticked` says. -/
structure M.Ticked (m m1 : M) : Prop where
  tiles : m1.tiles = m.tiles
  wt : ∀ w t, (m.wt w t).Ticked (m1.wt w t)

theorem M.Ticked.refl (m : M) : m.Ticked m := ⟨rfl, fun _ _ => .refl _⟩

theorem M.Ticked.trans (h1 : m.Ticked m1) (h2 : m1.Ticked m2) : m.Ticked m2 :=
  ⟨h2.tiles.trans h1.tiles, fun w t => (h1.wt w t).trans (h2.wt w t)⟩

theorem M.Ticked.tile (h : m.Ticked m1) (t : Nat) : m1.tile t = m.tile t := by unfold M.tile; rw [h.tiles]

theorem M.ticked_of_same (ht : m1.tiles = m.tiles) (hw : m1.wts = m.wts) : m.Ticked m1 :=
  ⟨ht, fun w t => by unfold M.wt; rw [hw]; exact .refl _⟩

theorem M.setWT_ticked (h : (m.wt w t).Ticked a) : m.Ticked (m.setWT w t a) := by
  refine ⟨rfl, fun w' t' => ?_⟩
  by_cases hk : wtKey w' t' = wtKey w t
  · have heq (n : M) : n.wt w' t' = n.wt w t := by unfold M.wt; rw [hk]
    rw [heq, heq, M.wt_setWT_self]
    exact h
  · rw [M.wt_setWT_ne _ _ hk]
    exact .refl _

theorem M.ticked_foldl {α : Type} {f : M → α → M} (hf : ∀ (m : M) x, m.Ticked (f m x)) : ∀ (xs : List α) (m : M), m.Ticked (xs.foldl f m)
  | [], m => .refl m
  | x :: xs, m => (hf m x).trans (M.ticked_foldl hf xs (f m x))

theorem M.writeSr_ticked (m : M) (w t : Nat) (x : Nat × W64) : m.Ticked (m.writeSr w t x) := by
  unfold M.writeSr
  split
  · exact M.ticked_of_same rfl rfl
  · split <;> exact M.setWT_ticked (WT.ticked_of_groups rfl rfl rfl)

theorem M.settleSr_ticked (m : M) (w t : Nat) : m.Ticked (m.settleSr w t) := by
  refine .trans (M.setWT_ticked ?_) (M.ticked_foldl (fun m x => M.writeSr_ticked m w t x) _ _)
  exact WT.ticked_of_groups rfl rfl rfl

theorem M.stepOver_ticked (m : M) (w : Nat) (team : W32) (why : Nat) : m.Ticked (m.stepOver w team why) := by
  refine M.ticked_foldl (fun m x => M.setWT_ticked ?_) _ _
  exact WT.ticked_of_groups rfl rfl rfl

theorem M.stepCheck_ticked (m : M) (w : Nat) : m.Ticked (m.stepCheck w) := by
  refine M.ticked_foldl (fun m team => ?_) _ _
  cases m.stepEvent w team with
  | none => exact .refl m
  | some why => exact M.stepOver_ticked m w team why

theorem M.wtTick_ticked (m : M) (w t : Nat) : m.Ticked (m.wtTick w t) := by
  have hgroups : (m.wt w t).Ticked { (m.wt w t).semsAged with
      groups := mapV (fun slot g => g.tick (!m.isStopped w t slot g)) (m.wt w t).groups
      bins := mapV (fun _ b => { b with timer := b.timer - 1 }) (m.wt w t).bins
      dbg := { (m.wt w t).dbg with idle := if (m.wt w t).dbg.stepping.isNone then (m.wt w t).dbg.idle
        else if (m.tile t).issued.isEmpty && (m.tile t).past.isEmpty then (m.wt w t).dbg.idle + 1 else 0 } } :=
    ⟨rfl, rfl, fun h =>
      WT.unreserved_mapV (f := fun slot g => g.tick (!m.isStopped w t slot g)) (fun _ _ => rfl) h rfl⟩
  exact ((M.setWT_ticked hgroups).trans (M.settleSr_ticked _ w t)).trans (M.stepCheck_ticked _ w)

theorem M.ctlTick_ticked (m : M) (t w : Nat) : m.Ticked (m.ctlTick t w) := by
  unfold M.ctlTick
  split
  · exact .refl m
  · dsimp only
    split
    · exact .refl m
    · split <;> exact M.ticked_of_same rfl rfl

theorem WT.charge_ticked (a : WT) (s : Nat) (c : Cause) (pc : Va) : a.Ticked (a.charge s c pc) := WT.ticked_of_groups rfl rfl rfl

theorem WT.ticked_acct (a : WT) (x : AMap W64) : a.Ticked { a with acct := x } := WT.ticked_of_groups rfl rfl rfl

/-- The charges of a cycle of a swap, all for the switch (R167). -/
def switchCharged (a : WT) : WT := [0, 1, 2, 3].foldl (fun (x : WT) s => (x.charge s .switch 0).charge s .switch 0) a

theorem switchCharged_ticked (a : WT) : a.Ticked (switchCharged a) := by
  have hstep (x : WT) (s : Nat) : x.Ticked ((x.charge s .switch 0).charge s .switch 0) :=
    (WT.charge_ticked x s .switch 0).trans (WT.charge_ticked _ s .switch 0)
  exact (((hstep a 0).trans (hstep _ 1)).trans (hstep _ 2)).trans (hstep _ 3)

/-- The cycle of a swap is charged, and passes for the incoming world. -/
def swapTicked (m : M) (b t : Nat) : M :=
  (m.setWT b t { switchCharged (m.wt b t) with acct := bump (switchCharged (m.wt b t)).acct 0 1 }).wtTick b t

theorem swapTicked_ticked (m : M) (b t : Nat) : m.Ticked (swapTicked m b t) := by
  have hcharge : (m.wt b t).Ticked { switchCharged (m.wt b t) with acct := bump (switchCharged (m.wt b t)).acct 0 1 } :=
    (switchCharged_ticked _).trans (WT.ticked_acct _ _)
  exact (M.setWT_ticked hcharge).trans (M.wtTick_ticked _ b t)

/-- One cycle of the incoming world's swap. -/
def swapCycle (m : M) (b t : Nat) : M :=
  ((swapTicked m b t).setTile t { (swapTicked m b t).tile t with cycle := ((swapTicked m b t).tile t).cycle + 1 }).ctlTick t b

theorem swapCycle_tile (m : M) (b t : Nat) : (swapCycle m b t).tile t = { m.tile t with cycle := (m.tile t).cycle + 1 } := by
  unfold swapCycle
  rw [(M.ctlTick_ticked _ t b).tile, M.tile_setTile_self, (swapTicked_ticked m b t).tile]

theorem swapCycle_wt (m : M) (b t w' t' : Nat) : (m.wt w' t').Ticked ((swapCycle m b t).wt w' t') := by
  unfold swapCycle
  refine .trans ?_ ((M.ctlTick_ticked _ t b).wt w' t')
  rw [M.wt_setTile]
  exact (swapTicked_ticked m b t).wt w' t'

theorem swapCycle_foldl (b t : Nat) : ∀ (xs : List Nat) (m : M),
    (xs.foldl (fun m _ => swapCycle m b t) m).tile t = { m.tile t with cycle := (m.tile t).cycle + xs.length } ∧
    ∀ w' t', (m.wt w' t').Ticked ((xs.foldl (fun m _ => swapCycle m b t) m).wt w' t')
  | [], m => ⟨rfl, fun _ _ => .refl _⟩
  | _ :: xs, m => by
    obtain ⟨htile, hwt⟩ := swapCycle_foldl b t xs (swapCycle m b t)
    refine ⟨htile.trans ?_, fun w' t' => (swapCycle_wt m b t w' t').trans (hwt w' t')⟩
    rw [swapCycle_tile, List.length_cons, Nat.add_assoc, Nat.add_comm 1]

/-- The 40 cycles of a swap are the incoming world's (R167, R331). -/
theorem swapCycles_some (m : M) (t b : Nat) :
    (m.swapCycles t (some b)).tile t = { m.tile t with cycle := (m.tile t).cycle + 40 } ∧
      (m.wt b t).Ticked ((m.swapCycles t (some b)).wt b t) := by
  obtain ⟨htile, hwt⟩ := swapCycle_foldl b t (List.range 40) m
  exact ⟨htile, hwt b t⟩

end

end Sys2Proof.Machine

namespace Sys2Proof

open Machine

/-! ## The switch -/

section

variable {m : M} {t w p row a : Nat} {sw : Switch}

/-- The tile's partition is in a switch. -/
def InSwitch (m : M) (t p : Nat) (sw : Switch) : Prop := m.partOf t = some p ∧ (m.part p).sw = some sw

theorem switchOf_eq (h : InSwitch m t p sw) : m.switchOf t = some (p, sw) := by
  unfold M.switchOf
  rw [h.1, Option.bind_some, h.2]
  rfl

theorem stopOrder_of (h : InSwitch m t p sw) (hs : sw.swapping = false) (hp : (m.tile t).phase = .running) :
    m.stopOrder t = some (m.setTile t { m.tile t with phase := .draining }) := by
  unfold M.stopOrder
  rw [switchOf_eq h, Option.bind_some]
  exact if_neg (by simp [hs, hp])

theorem tileQuiet_of (h : InSwitch m t p sw) (hp : (m.tile t).phase = .draining)
    (ha : ∀ a, (m.tile t).latch = some a → (m.wt a t).anvil = []) (hf : ∀ f ∈ m.flights, f.src ≠ t) (hw : m.windowOpen t = false)
    (ho : (m.tile t).out = none) (hs : 7 ≤ (m.tile t).spill) (hd : sw.dst = none ∨ (m.tile t).shadow = sw.dst) :
    m.tileQuiet t = some (m.setTile t { m.tile t with phase := .quiet }) := by
  have hflights : (m.flights.any fun f => f.src == t) = false := List.any_eq_false.2 fun f hmem => by simpa using hf f hmem
  have hdst : (sw.dst.isSome && (m.tile t).shadow != sw.dst) = false := by
    rcases hd with h | h
    · rw [h]; rfl
    · rw [h, bne_self_eq_false, Bool.and_false]
  unfold M.tileQuiet
  rw [switchOf_eq h, Option.bind_some]
  cases hl : (m.tile t).latch with
  | none => exact if_neg (by simp [hl, hp, hflights, hw, ho, Nat.not_lt.2 hs, hdst])
  | some b => exact if_neg (by simp [hl, hp, ha b hl, hflights, hw, ho, Nat.not_lt.2 hs, hdst])

theorem swapOrder_of (hsw : (m.part p).sw = some sw) (hs : sw.swapping = false) (hq : ∀ t ∈ (m.part p).tiles, (m.tile t).phase = .quiet) :
    m.swapOrder p = some (((m.part p).tiles.foldl (fun m t => m.setTile t { m.tile t with phase := .swapping })
      (m.countSwitch (m.part p).latched)).setPart p { m.part p with sw := some { sw with swapping := true } }) := by
  have hquiet : ((m.part p).tiles.all fun t => (m.tile t).phase == .quiet) = true :=
    List.all_eq_true.2 fun t hmem => by simp [hq t hmem]
  unfold M.swapOrder
  simp only [hsw, Option.bind_some, hs, hquiet, Bool.not_true, Bool.or_self, Bool.false_eq_true, if_false]

/-- The world that is latched leaves the tile (R206, R340). -/
def swapLeave (m : M) (t : Nat) : M :=
  match (m.tile t).latch with
  | none => m
  | some a =>
    let wt := ((m.settleSr a t).wt a t).loseAll.semsAged
    (m.settleSr a t).setWT a t (if wt.dbg.stepping.isSome then { wt with dbg := wt.dbg.ends 2 } else wt)

theorem left_ticked (a : WT) :
    a.Ticked (if a.loseAll.semsAged.dbg.stepping.isSome then { a.loseAll.semsAged with dbg := a.loseAll.semsAged.dbg.ends 2 }
      else a.loseAll.semsAged) := by
  split <;> exact ⟨rfl, rfl, fun _ => a.loseAll_unreserved⟩

theorem swapLeave_ticked (m : M) (t : Nat) : m.Ticked (swapLeave m t) := by
  unfold swapLeave
  split
  · exact .refl m
  · next a _ => exact (M.settleSr_ticked m a t).trans (M.setWT_ticked (left_ticked _))

/-- A world's state on the tile it comes to: none of its rows is restored, and no reservation stands (R206, R331). -/
def comeTo (a : WT) : WT := { a.loseAll.leaveLive with restored := 0 }

theorem comeTo_restored (a : WT) : (comeTo a).restored = 0 := rfl
theorem comeTo_held (a : WT) : (comeTo a).dbg.held = a.dbg.held := rfl
theorem comeTo_unreserved (a : WT) : (comeTo a).Unreserved := fun sl g l th hg => a.loseAll_unreserved sl g l th hg

/-- The incoming world comes to the tile. -/
def swapCome (m : M) (w t : Nat) : M := m.setWT w t (comeTo (m.wt w t))

/-- The tile as it begins the 40 cycles of its swap (R331). -/
def swappedTile (tl : Tile) (dst : Option Nat) : Tile :=
  { tl with latch := dst, shadow := none, out := tl.latch, l1 := [], phase := .running, issued := [], left := [], past := [],
            later := [], lost := [], tried := [], served := false, spill := if tl.latch.isSome || dst.isSome then 0 else 7 }

/-- The last tile of a partition to swap ends its switch (R331, R391). -/
def swapOver (p : Part) (dst : Option Nat) : Part :=
  let on := p.quiesce != 0 && dst.isSome
  { p with latched := dst, sw := if on then some { dst := none } else none, yielded := false, before := if on then dst else p.before }

/-- The machine once a tile has swapped. -/
def swapEnd (m m4 : M) (p : Nat) (dst : Option Nat) : M :=
  if (m.part p).tiles.any fun x => (m4.tile x).phase == .swapping then m4 else m4.setPart p (swapOver (m.part p) dst)

theorem swapEnd_tile (m m4 : M) (p : Nat) (dst : Option Nat) (t : Nat) : (swapEnd m m4 p dst).tile t = m4.tile t := by
  unfold swapEnd; split
  · rfl
  · rfl

theorem swapEnd_wt (m m4 : M) (p : Nat) (dst : Option Nat) (w t : Nat) : (swapEnd m m4 p dst).wt w t = m4.wt w t := by
  unfold swapEnd; split
  · rfl
  · rfl

/-- The world of a switch comes to the tile, if it has one, and the 40 cycles pass. -/
def swapCame (m : M) (t : Nat) (dst : Option Nat) : M :=
  let m1 := match dst with
    | none => swapLeave m t
    | some b => swapCome (swapLeave m t) b t
  (m1.setTile t (swappedTile (m.tile t) dst)).swapCycles t dst

/-- A step that was held back until the world came begins (R340). -/
def swapStep (m : M) (t : Nat) : Option Nat → M
  | none => m
  | some b => match (m.wt b t).dbg.held with
    | some team => m.beginStep b t team
    | none => m

/-- The world that the tiles of a switch latch: none where it has been stopped or has left the partition (R331, R396). -/
def swapDst (m : M) (p : Nat) (sw : Switch) : Option Nat :=
  sw.dst.filter fun w => !(m.world w).stopped && (m.part p).worlds.contains w

theorem tileSwap_eq (h : InSwitch m t p sw) (hp : (m.tile t).phase = .swapping) :
    m.tileSwap t = some (swapEnd m (swapStep (swapCame m t (swapDst m p sw)) t (swapDst m p sw)) p (swapDst m p sw)) := by
  have hphase : ((m.tile t).phase != .swapping) = false := by rw [hp, bne_self_eq_false]
  unfold M.tileSwap
  rw [switchOf_eq h, Option.bind_some]
  refine (if_neg (Bool.eq_false_iff.1 hphase)).trans ?_
  dsimp only
  have hdst : (sw.dst.filter fun w => !(m.world w).stopped && (m.part p).worlds.contains w) = swapDst m p sw := rfl
  rw [hdst]
  unfold swapCame
  generalize M.swapCycles = cycles
  cases swapDst m p sw <;> rfl

theorem swapCame_some (m : M) (w t : Nat) : swapCame m t (some w) =
    ((swapCome (swapLeave m t) w t).setTile t (swappedTile (m.tile t) (some w))).swapCycles t (some w) := rfl

theorem swapCame_tile (m : M) (w t : Nat) :
    (swapCame m t (some w)).tile t = { swappedTile (m.tile t) (some w) with cycle := (m.tile t).cycle + 40 } := by
  rw [swapCame_some, (swapCycles_some _ t w).1, M.tile_setTile_self]
  rfl

theorem swapCame_tile_none (m : M) (t : Nat) :
    ((swapCame m t none).tile t).latch = none ∧ ((swapCame m t none).tile t).out = (m.tile t).latch ∧
      ((swapCame m t none).tile t).phase = .running := by
  unfold swapCame M.swapCycles
  dsimp only
  rw [M.tile_setTile_self, M.tile_setTile_self]
  exact ⟨rfl, rfl, rfl⟩

theorem swapCame_wt (m : M) (w t : Nat) :
    ((swapCame m t (some w)).wt w t).restored = 0 ∧ ((swapCame m t (some w)).wt w t).dbg.held = (m.wt w t).dbg.held ∧
      ((swapCame m t (some w)).wt w t).Unreserved := by
  have hcycles := (swapCycles_some ((swapCome (swapLeave m t) w t).setTile t (swappedTile (m.tile t) (some w))) t w).2
  have hcome : ((swapCome (swapLeave m t) w t).setTile t (swappedTile (m.tile t) (some w))).wt w t = comeTo ((swapLeave m t).wt w t) := by
    rw [M.wt_setTile]; exact M.wt_setWT_self ..
  rw [hcome] at hcycles
  rw [swapCame_some]
  exact ⟨hcycles.restored.trans (comeTo_restored _),
    (hcycles.held.trans (comeTo_held _)).trans ((swapLeave_ticked m t).wt w t).held, hcycles.resv (comeTo_unreserved _)⟩

theorem tileSwap_some (h : InSwitch m t p sw) (hp : (m.tile t).phase = .swapping) (hd : sw.dst = some w)
    (hs : (m.world w).stopped = false) (hw : w ∈ (m.part p).worlds) (hh : (m.wt w t).dbg.held = none) :
    m.tileSwap t = some (swapEnd m (swapCame m t (some w)) p (some w)) := by
  have hdst : swapDst m p sw = some w := by unfold swapDst; rw [hd]; simp [hs, hw]
  have hstep : swapStep (swapCame m t (some w)) t (some w) = swapCame m t (some w) := by
    unfold swapStep
    dsimp only
    rw [(swapCame_wt m w t).2.1, hh]
  rw [tileSwap_eq h hp, hdst, hstep]

theorem tileSwap_none (h : InSwitch m t p sw) (hp : (m.tile t).phase = .swapping) (hd : sw.dst = none) :
    m.tileSwap t = some (swapEnd m (swapCame m t none) p none) := by
  have hdst : swapDst m p sw = none := by unfold swapDst; rw [hd]; rfl
  rw [tileSwap_eq h hp, hdst]
  rfl

/-- The machine with the next row of the outgoing world saved (R332). -/
def rowSaved (m : M) (t row : Nat) : M :=
  let m1 := m.setTile t { m.tile t with spill := row, out := if row = 7 then none else (m.tile t).out }
  (m.tile t).out.elim m1 fun a => m1.saveRow a t row

/-- The next row may be saved, as far as the outgoing world goes (R332, R336). -/
def RowSaves (m : M) (t row : Nat) : Prop :=
  row = (m.tile t).spill + 1 ∧ row ≤ 7 ∧ ∀ a, (m.tile t).out = some a → m.maySave a t row = true ∧ m.ctxWaits a t row = false

theorem spillRow_eq (h : RowSaves m t row) :
    m.spillRow t row = match (m.tile t).latch with
      | none => some (rowSaved m t row)
      | some b =>
        if row ≠ 6 && (rowSaved m t row).ctxBad b t row then some ((rowSaved m t row).restoreFails b t) else
        let wb := (rowSaved m t row).wt b t
        let m3 := (rowSaved m t row).setWT b t (if row = 7 then { wb.addSaved with restored := 10 } else { wb with restored := row })
        some (if row = 1 then m3.growDeadlock b t else m3) := by
  obtain ⟨hrow, hlast, hout⟩ := h
  have hsaves : ((m.tile t).out.map fun a => m.maySave a t row && !m.ctxWaits a t row).getD true = true := by
    cases ho : (m.tile t).out with
    | none => rfl
    | some a => simp [hout a ho]
  have hgo : (row ≠ (m.tile t).spill + 1 || 7 < row || !((m.tile t).out.map fun a => m.maySave a t row && !m.ctxWaits a t row).getD true) = false := by
    rw [hsaves]; simp [← hrow, Nat.not_lt.2 hlast]
  unfold M.spillRow
  refine (if_neg (Bool.eq_false_iff.1 hgo)).trans ?_
  unfold rowSaved
  cases (m.tile t).out <;> rfl

theorem preload_eq (hp : m.preloadOf t = some w) (hs : (m.tile t).shadow ≠ some w) (ho : (m.tile t).out = none ∨ 6 ≤ (m.tile t).spill)
    (hph : (m.tile t).phase ≠ .swapping) :
    m.preload t = if m.ctxBad w t 6 then some (m.restoreFails w t) else some (m.setTile t { m.tile t with shadow := some w }) := by
  have hbusy : ((m.tile t).out.isSome && decide ((m.tile t).spill < 6)) = false := by
    rcases ho with h | h
    · rw [h]; rfl
    · rw [decide_eq_false (Nat.not_lt.2 h), Bool.and_false]
  unfold M.preload
  simp only [hp, hs, hbusy, beq_false_of_ne hph, decide_false, Bool.or_self, Bool.false_eq_true, if_false]

theorem quenchEnds_tile (ht : t < 8192) (hq : (m.tile t).quench = true) :
    m.quenchEnds t = some (m.setTile t { m.tile t with quench := false }) := by
  unfold M.quenchEnds
  simp only [Nat.not_le.2 ht, hq, if_false, if_true]

/-- The quench of a world is over: what it had sent has performed (R393). -/
def worldQuiet (m : M) (w : Nat) : M :=
  ({ m with acc := m.acc.filter (·.world != w) } : M).setWorld w { m.world w with quench := false }

theorem worldQuenched_of (hs : (m.world w).stopping = none) : m.worldQuenched w = (worldQuiet m w).hearIf w := by
  have hstop : ((worldQuiet m w).world w).stopping = none := by unfold worldQuiet; rw [M.world_setWorld_self]; exact hs
  change ((((worldQuiet m w).world w).stopping.map ((worldQuiet m w).stopEnds w)).getD (worldQuiet m w)).hearIf w = _
  rw [hstop]
  rfl

theorem quenchEnds_world (hq : (m.world w).quench = true) (hs : (m.world w).stopping = none)
    (ha : ∀ a ∈ m.acc, a.world = w → a.settled = true) :
    m.quenchEnds (8192 + w) = some ((({ m with acc := m.acc.filter (·.world != w) } : M).setWorld w
      { m.world w with quench := false }).hearIf w) := by
  have hall : (m.acc.all fun a => a.world != w || a.settled) = true :=
    List.all_eq_true.2 fun a hmem => by
      by_cases hw : a.world = w
      · rw [ha a hmem hw, Bool.or_true]
      · simp [hw]
  unfold M.quenchEnds
  simp only [Nat.le_add_right, if_true, Nat.add_sub_cancel_left, hq, hall, Bool.and_self]
  exact congrArg some (worldQuenched_of hs)

end

/-- Settles O41: the steps of a switch, tile by tile and row by row, and the end of a quench. -/
theorem switchHappens : Obligations.SwitchHappens := by
  intro t w p row sw on
  refine ⟨?stop, ?quiet, ?order, ?swap, ?swapNone, ?save, ⟨?restore, ?restoreBad⟩, ⟨?preload, ?preloadBad⟩, ?quench, ?quenchWorld⟩
  case stop => exact happens_of (fun m => m.stopOrder t) (fun _ => rfl) fun m ⟨h, hs, hp⟩ => stopOrder_of h hs hp
  case quiet =>
    exact happens_of (fun m => m.tileQuiet t) (fun _ => rfl) fun m ⟨h, hp, ha, hf, hw, ho, hs, hd⟩ => tileQuiet_of h hp ha hf hw ho hs hd
  case order => exact happens_of (fun m => m.swapOrder p) (fun _ => rfl) fun m ⟨hsw, hs, hq⟩ => swapOrder_of hsw hs hq
  case swap =>
    intro s h hp hd hs hw hh
    refine ⟨_, event_of_some (f := fun m => m.tileSwap t) (tileSwap_some h hp hd hs hw hh), ?_⟩
    dsimp only
    rw [swapEnd_tile, swapEnd_wt, swapCame_tile]
    exact ⟨rfl, rfl, rfl, rfl, if_pos (by simp), rfl, (swapCame_wt s.m w t).1, (swapCame_wt s.m w t).2.2⟩
  case swapNone =>
    intro s h hp hd
    refine ⟨_, event_of_some (f := fun m => m.tileSwap t) (tileSwap_none h hp hd), ?_⟩
    dsimp only
    rw [swapEnd_tile]
    exact swapCame_tile_none s.m t
  case save =>
    intro a
    refine happens_of (fun m => m.spillRow t row) (fun _ => rfl) fun m ⟨hr, h7, ho, hm, hc, hl⟩ => ?_
    have hsaves : RowSaves m t row := ⟨hr, h7, fun b hb => by rw [ho, Option.some_inj] at hb; subst hb; exact ⟨hm, hc⟩⟩
    rw [spillRow_eq hsaves, hl]
    unfold rowSaved
    rw [ho]
    rfl
  case restore =>
    refine happens_of (fun m => m.spillRow t row) (fun _ => rfl) fun m ⟨⟨hr, h7, hl, ha⟩, hc⟩ => ?_
    have hgood : (decide (row ≠ 6) && (rowSaved m t row).ctxBad w t row) = false := by
      rcases hc with h | h
      · rw [h]; rfl
      · exact (congrArg (_ && ·) h).trans (Bool.and_false _)
    rw [spillRow_eq ⟨hr, h7, ha⟩, hl]
    exact if_neg (Bool.eq_false_iff.1 hgood)
  case restoreBad =>
    refine happens_of (fun m => m.spillRow t row) (fun _ => rfl) fun m ⟨⟨hr, h7, hl, ha⟩, h6, hc⟩ => ?_
    have hbad : (decide (row ≠ 6) && (rowSaved m t row).ctxBad w t row) = true :=
      Bool.and_eq_true_iff.2 ⟨decide_eq_true h6, hc⟩
    rw [spillRow_eq ⟨hr, h7, ha⟩, hl]
    exact if_pos hbad
  case preload =>
    exact happens_of (fun m => m.preload t) (fun _ => rfl) fun m ⟨⟨hp, hs, ho, hph⟩, hb⟩ => by rw [preload_eq hp hs ho hph, hb]; rfl
  case preloadBad =>
    exact happens_of (fun m => m.preload t) (fun _ => rfl) fun m ⟨⟨hp, hs, ho, hph⟩, hb⟩ => (preload_eq hp hs ho hph).trans (if_pos hb)
  case quench => exact happens_of (fun m => m.quenchEnds t) (fun _ => rfl) fun m ⟨ht, hq⟩ => quenchEnds_tile ht hq
  case quenchWorld =>
    exact happens_of (fun m => m.quenchEnds (8192 + w)) (fun _ => rfl) fun m ⟨hq, hs, ha⟩ => quenchEnds_world hq hs ha

open Machine

/-! ## Debug -/

section

variable {m : M} {t w n : Nat} {bits : BitVec 4} {on pf : Bool} {team : W32} {v : W64}

/-- The issue sets of which STOP is taken away run again from the next cycle on (R338). -/
def liftedSets (m : M) (w t : Nat) (b : BitVec 4) : BitVec 4 :=
  if (m.tile t).latch = some w then (m.wt w t).dbg.lift ||| ((m.wt w t).dbg.stop &&& ~~~b) else (m.wt w t).dbg.lift

/-- The debug state of a world on a tile is changed. -/
def setDbg (m : M) (w t : Nat) (d : Dbg) : M := m.setWT w t { m.wt w t with dbg := d }

theorem updDbg_eq (ht : m.dbgTile w = some t) (f : Dbg → Dbg) : m.updDbg w f = some (setDbg m w t (f (m.wt w t).dbg)) := by
  unfold M.updDbg; rw [ht]; rfl

theorem setStop_eq (m : M) (w t : Nat) (b : BitVec 4) :
    (m.wt w t).dbg.setStop ((m.tile t).latch == some w) b = { (m.wt w t).dbg with stop := b, lift := liftedSets m w t b } := by
  unfold Dbg.setStop liftedSets
  by_cases hl : (m.tile t).latch = some w
  · rw [if_pos hl, if_pos (beq_iff_eq.2 hl)]
  · rw [if_neg hl, if_neg (fun h => hl (beq_iff_eq.1 h))]

theorem stopSets_eq (ht : m.dbgTile w = some t) (f : Dbg → Dbg) :
    m.stopSets w bits f = some (setDbg m w t (f { (m.wt w t).dbg with stop := bits, lift := liftedSets m w t bits })) := by
  unfold M.stopSets
  rw [ht, Option.bind_some, updDbg_eq ht, setStop_eq]

/-- A write of DBGCTL before its step and its dump (Table 18-6). -/
def dbgBare (m : M) (w t : Nat) (v : W64) : M :=
  setDbg m w t { (m.wt w t).dbg with
    stop := v.extractLsb' 0 4, lift := liftedSets m w t (v.extractLsb' 0 4), lcen := v.getLsbD 5, team := v.extractLsb' 8 32 }

theorem dbgctl_eq (ht : m.dbgTile w = some t) :
    m.dbgctl w v = some (
      let m2 := if v.getLsbD 4 then ((dbgBare m w t v).debugStep w (v.extractLsb' 8 32)).getD (dbgBare m w t v) else dbgBare m w t v
      if v.getLsbD 6 then (m2.debugDump w).getD m2 else m2) := by
  unfold M.dbgctl
  rw [stopSets_eq ht]
  rfl

theorem writeReg_dbgctl (ht : m.dbgTile w = some t)
    (hopen : if pf = true then n < 16 ∧ (m.port n).dsel.toNat = w ∧ m.responds = true ∧ (m.world w).sec.getLsbD 0 = true
      else n = w ∧ m.hears w = true) :
    m.writeReg (.dbg n 0x008 pf) v = m.dbgctl w v := by
  cases pf with
  | true =>
    obtain ⟨hn, rfl, hr, hs⟩ := hopen
    unfold M.writeReg M.dbgWrite M.dbgOpen
    simp [Nat.not_le.2 hn, hr, hs]
  | false =>
    obtain ⟨rfl, hh⟩ := hopen
    unfold M.writeReg M.dbgWrite M.dbgOpen
    simp [hh]

theorem debugStep_one
    (hts : ((m.teams.filter fun (_, tm) => tm.world == w && BitVec.ofNat 32 tm.index == team && !tm.ended).map
      fun x => x.2.tile).eraseDups = [t])
    (hs : (m.wt w t).dbg.stop = 0xF) (hn : (m.wt w t).dbg.stepping = none) (hl : (m.tile t).latch = some w) :
    m.debugStep w team = some (m.beginStep w t team) := by
  unfold M.debugStep
  simp only [hts, List.isEmpty_cons, List.any_cons, List.any_nil, hs, hn, bne_self_eq_false, Option.isSome_none, Bool.or_self,
    Bool.false_eq_true, if_false, List.foldl_cons, List.foldl_nil, hl, if_true]

/-- A step of a team runs on a tile, and every pick of its cycle is made (R340). -/
def Steps (m : M) (t w : Nat) (team : W32) : Prop :=
  (m.tile t).latch = some w ∧ (m.wt w t).dbg.stepping = some team ∧ m.pickOn t = none ∧ m.stepTiles w team ≠ []

/-- A phase of the team's barriers has completed since the step began, on one of its tiles (R340). -/
def StepMoved (m : M) (w : Nat) (team : W32) : Prop :=
  ∃ u ∈ m.stepTiles w team, ∃ x, m.stepTeam w u team = some x ∧ x.phases ≠ (m.wt w u).dbg.base

/-- The team has ended (R340). -/
def StepLeft (m : M) (w : Nat) (team : W32) : Prop := ∃ u ∈ m.stepTiles w team, m.stepTeam w u team = none

theorem stepMoved_iff :
    ((m.stepTiles w team).any fun t => (m.stepTeam w t team).any fun tm => tm.phases != (m.wt w t).dbg.base) = true ↔
      StepMoved m w team := by
  unfold StepMoved
  rw [List.any_eq_true]
  refine exists_congr fun u => and_congr_right fun _ => ?_
  cases m.stepTeam w u team <;> simp

theorem stepLeft_iff : ((m.stepTiles w team).any fun t => (m.stepTeam w t team).isNone) = true ↔ StepLeft m w team := by
  unfold StepLeft
  rw [List.any_eq_true]
  exact exists_congr fun u => and_congr_right fun _ => Option.isNone_iff_eq_none

theorem stepEvent_moved (hs : Steps m t w team) (hm : StepMoved m w team) : m.stepEvent w team = some 1 := by
  unfold M.stepEvent
  dsimp only
  rw [List.isEmpty_eq_false_iff.2 hs.2.2.2, if_neg nofun, if_pos (stepMoved_iff.2 hm)]

theorem stepEvent_left (hs : Steps m t w team) (hm : ¬ StepMoved m w team) (hl : StepLeft m w team) : m.stepEvent w team = some 3 := by
  unfold M.stepEvent
  dsimp only
  rw [List.isEmpty_eq_false_iff.2 hs.2.2.2, if_neg nofun, if_neg (mt stepMoved_iff.1 hm), if_pos (stepLeft_iff.2 hl)]

theorem stepEvent_idle (hs : Steps m t w team) (hm : ¬ StepMoved m w team) (hl : ¬ StepLeft m w team)
    (hi : ∀ u ∈ m.stepTiles w team, 65536 ≤ (m.wt w u).dbg.idle) : m.stepEvent w team = some 2 := by
  unfold M.stepEvent
  dsimp only
  rw [List.isEmpty_eq_false_iff.2 hs.2.2.2, if_neg nofun, if_neg (mt stepMoved_iff.1 hm), if_neg (mt stepLeft_iff.1 hl),
    if_pos (List.all_eq_true.2 fun u hu => decide_eq_true (hi u hu))]

theorem stepEndsBy_of {why : Nat} {whys : List Nat} (hs : Steps m t w team) (he : m.stepEvent w team = some why)
    (hw : why ∈ whys) : m.stepEndsBy t whys = some (m.stepOver w team why) := by
  obtain ⟨hl, hst, hp, -⟩ := hs
  unfold M.stepEndsBy
  rw [hl, Option.bind_some, hst, Option.bind_some, he, hp, Option.filter_some, if_pos (by simpa using hw)]
  rfl

theorem debugDump_of (ht : m.dbgTile w = some t) (hb : (m.wt w t).dbg.dumpBusy = false) :
    m.debugDump w = some { setDbg m w t { (m.wt w t).dbg with dumpBusy := true, dumpErr := false } with
      dumps := m.dumps ++ [{ world := w, tile := t, buf := ((m.world w).dbgbuf.extractLsb' 6 50).toNat * 64,
                             data := (m.dumpWords w t).flatMap fun x => natBytes 8 x.toNat }] } := by
  unfold M.debugDump
  rw [ht, Option.bind_some]
  exact if_neg (by simp [hb])

theorem dumpDone_of {d : Dump} (hd : m.dumps.find? (·.world == w) = some d) :
    m.dumpDone w = some (
      let r := m.storeDump w (d.data.length / 64 + 1) d.buf d.data
      { setDbg r.2 w d.tile { (r.2.wt w d.tile).dbg with dumpBusy := false, dumpErr := r.1 } with
        dumps := m.dumps.filter (· != d) }) := by
  unfold M.dumpDone
  rw [hd]
  rfl

end

/-- Settles O42: the writes of a debug window, and how a step and a dump end. -/
theorem debugActs : Obligations.DebugActs := by
  intro t w bits on team steps ts mine moved left ended dbg lift
  have hends (why : Nat) (whys : List Nat) {c : M → Prop} {i : Instr} (he : ∀ s, exec i s = event s fun m => m.stepEndsBy t whys)
      (hw : why ∈ whys) (hev : ∀ m, c m → Steps m t w team ∧ m.stepEvent w team = some why) : Happens i c (ended why) :=
    happens_of _ he fun m hc => stepEndsBy_of (hev m hc).1 (hev m hc).2 hw
  refine ⟨?stop, ?lcen, ?ctl, ?step, ?moved, ?left, ?idle, ?dump, ?dumped⟩
  case stop => exact happens_of (fun m => m.stopSets w bits id) (fun _ => rfl) fun m ht => stopSets_eq ht id
  case lcen =>
    exact happens_of (fun m => m.updDbg w fun d => { d with lcen := on }) (fun _ => rfl) fun m ht => updDbg_eq ht _
  case ctl =>
    intro n pf v bare
    exact happens_of (fun m => m.writeReg (.dbg n 0x008 pf) v) (fun _ => rfl) fun m ⟨ho, ht⟩ =>
      (writeReg_dbgctl ht ho).trans (dbgctl_eq ht)
  case step =>
    exact happens_of (fun m => m.debugStep w team) (fun _ => rfl) fun m ⟨hts, hs, hn, hl⟩ => debugStep_one hts hs hn hl
  case moved => exact hends 1 [1, 3] (fun _ => rfl) (by simp) fun m ⟨hs, hm⟩ => ⟨hs, stepEvent_moved hs hm⟩
  case left => exact hends 3 [1, 3] (fun _ => rfl) (by simp) fun m ⟨hs, hm, hl⟩ => ⟨hs, stepEvent_left hs hm hl⟩
  case idle => exact hends 2 [2] (fun _ => rfl) (by simp) fun m ⟨hs, hm, hl, hi⟩ => ⟨hs, stepEvent_idle hs hm hl hi⟩
  case dump => exact happens_of (fun m => m.debugDump w) (fun _ => rfl) fun m ⟨ht, hb⟩ => debugDump_of ht hb
  case dumped =>
    intro d r
    refine happens_of (fun m => m.dumpDone w) (fun _ => rfl) fun m ⟨hd, ht, hr⟩ => (dumpDone_of hd).trans ?_
    subst ht hr
    rfl

/-! ## Writes to registers -/

section

variable {m : M} {w q p i n off size : Nat} {v : W64} {pf : Bool} {r : HostReg}

theorem config_of {f : World → World} (hs : (m.world w).st = .unlocked) : m.config w f = some (m.setWorld w (f (m.world w))) := by
  unfold M.config; rw [if_pos hs]

theorem msixW_masked (hi : i < 128) (hm : i % 2 = 0 ∨ v.getLsbD 32 = true ∨ i / 2 ∉ (m.world w).msixPend) :
    m.msixW w i v = some (m.setWorld w { m.world w with msix := put (m.world w).msix i v }) := by
  have hno : (i % 2 = 1 && !v.getLsbD 32 && (m.world w).msixPend.contains (i / 2)) = false := by
    rcases hm with h | h | h
    · simp [h]
    · rw [h]; simp
    · simp [h]
  unfold M.msixW
  rw [if_neg (Nat.not_le.2 hi)]
  exact if_neg (Bool.eq_false_iff.1 hno)

theorem msixW_pending (hi : i < 128) (ho : i % 2 = 1) (hv : v.getLsbD 32 = false) (hp : i / 2 ∈ (m.world w).msixPend) :
    m.msixW w i v = some ((m.setWorld w { m.world w with msix := put (m.world w).msix i v,
                                                         msixPend := (m.world w).msixPend.filter (· != i / 2) }).raise w (i / 2)) := by
  have hyes : (i % 2 = 1 && !v.getLsbD 32 && (m.world w).msixPend.contains (i / 2)) = true := by
    rw [hv, ho]; simp [hp]
  unfold M.msixW
  rw [if_neg (Nat.not_le.2 hi)]
  exact if_pos hyes

theorem responds_and (hr : m.responds = true) (hp : p < 16) : (m.responds && p < 16) = true := by
  rw [hr, decide_eq_true hp]; rfl

theorem writeReg_other
    (hh : if pf = true then n < 16 ∧ m.hearth.off = false else m.hears n = true)
    (h8 : size ≠ 8 ∨ off % 8 ≠ 0 ∨ writable off pf = false) (h64 : size ≠ 64 ∨ off % 64 ≠ 0 ∨ submits off pf = false) :
    m.writeReg (.other n off size pf) v = some m := by
  have hhears : (if pf then n < 16 && !m.hearth.off else m.hears n) = true := by
    cases pf with
    | true => obtain ⟨hn, ho⟩ := hh; simp [hn, ho]
    | false => exact hh
  have hword : (size == 8 && off % 8 == 0 && writable off pf) = false := by
    rcases h8 with h | h | h
    · rw [beq_false_of_ne h]; rfl
    · rw [beq_false_of_ne h, Bool.and_false]; rfl
    · rw [h, Bool.and_false]
  have hline : (size == 64 && off % 64 == 0 && submits off pf) = false := by
    rcases h64 with h | h | h
    · rw [beq_false_of_ne h]; rfl
    · rw [beq_false_of_ne h, Bool.and_false]; rfl
    · rw [h, Bool.and_false]
  unfold M.writeReg
  dsimp only
  rw [hhears, hword, hline]
  rfl

end

/-- Settles O43: what each register takes of a write. -/
theorem registersWritten : Obligations.RegistersWritten := by
  intro w q p i v wr cf pr
  have hreg {r : HostReg} {c : M → Prop} {e : M → M} (h : ∀ m, c m → m.writeReg r v = some (e m)) : Happens (.registerWrite r v) c e :=
    happens_of (fun m => m.writeReg r v) (fun _ => rfl) h
  refine ⟨?handlerq, ?selDbg, ?bufDbg, ?rtsel, ?wroot, ?wctx, ?wttb, ?wstkb, ?wstkn, ?wsec, ?masked, ?pending, ?wqca, ?cmdca,
    ?portcap, ?evbase, ?evhead, ?snapctl, ?numvfs, ?dbgsel, ?dbgbuf, ?dsel, ?fpsel, ?whsel, ?whmask, ?fwbuf, ?other⟩
  case handlerq | selDbg | bufDbg | rtsel => exact hreg fun m hh => if_pos hh
  case wroot | wctx | wttb | wstkb | wstkn | wsec => exact hreg fun m ⟨hh, hs⟩ => (if_pos hh).trans (config_of hs)
  case cmdca | portcap | evbase | evhead | snapctl | numvfs | dsel | fpsel | whsel | whmask =>
    exact hreg fun m ⟨hr, hp⟩ => if_pos (responds_and hr hp)
  case masked => exact hreg fun m ⟨hh, hi, hm⟩ => (if_pos hh).trans (msixW_masked hi hm)
  case pending => exact hreg fun m ⟨hh, hi, ho, hv, hp⟩ => (if_pos hh).trans (msixW_pending hi ho hv hp)
  case wqca => exact hreg fun m hh => if_pos hh
  case dbgsel => exact hreg fun m hh => by simp [M.writeReg, M.dbgWrite, M.dbgOpen, hh]
  case dbgbuf => exact hreg fun m hh => by simp [M.writeReg, M.dbgWrite, M.dbgOpen, hh]
  case fwbuf => exact hreg fun m ⟨ho, hp⟩ => if_pos (by simp [ho, hp])
  case other =>
    intro n off size pf
    exact hreg fun m ⟨hh, h8, h64⟩ => writeReg_other hh h8 h64

end Sys2Proof

/-! PROOFS. Register writes that act, and trust messages (O44, O45). -/

namespace Sys2Proof

open Machine

/-! ## Register writes with a behaviour -/

section

variable {m : M} {w p k t : Nat} {v : W64}

theorem tqbase_of (hh : m.hears w = true) (ho : (m.world w).occ = 0)
    (hv : v.getLsbD 0 = false ∨ (devOk ((v.extractLsb' 16 40).toNat * 65536) 65536 = true ∧
      m.owns w ((v.extractLsb' 16 40).toNat * 65536) = true)) :
    m.tqbase w v = some (m.setWorld w { m.world w with tqbase := keep v 16 40 ||| keep v 0 1, tqhead := 0, tqtail := 0 }) := by
  have hbad : (v.getLsbD 0 && !(devOk ((v.extractLsb' 16 40).toNat * 65536) 65536 &&
      m.owns w ((v.extractLsb' 16 40).toNat * 65536))) = false := by
    rcases hv with h | ⟨h1, h2⟩
    · rw [h]; rfl
    · rw [h1, h2]; exact Bool.and_false _
  unfold M.tqbase
  simp only [hh, ho, hbad, ne_eq, not_true_eq_false, decide_false, Bool.not_true, Bool.or_self, Bool.false_eq_true, if_false]

/-- The world's partition is in a quiesce (R391). -/
def inQuiesce (m : M) (w : Nat) : Bool := ((m.world w).part.map fun p => (m.part p).quiesce != 0).getD false

theorem inQuiesce_eq_false (h : ∀ q, (m.world w).part = some q → (m.part q).quiesce = 0) : inQuiesce m w = false := by
  unfold inQuiesce
  cases hp : (m.world w).part with
  | none => rfl
  | some q => simp [h q hp]

theorem inQuiesce_eq_true {q : Nat} (hp : (m.world w).part = some q) (hq : (m.part q).quiesce ≠ 0) : inQuiesce m w = true := by
  unfold inQuiesce; rw [hp]; simpa using hq

theorem resolveW_eq {d : Verdict} (hh : m.hears w = true) (hd : verdictOf (v.extractLsb' 0 2).toNat = some d) :
    m.resolveW w v = some (if inQuiesce m w then
        m.setWorld w { m.world w with resWait := (m.world w).resWait ++ [((v.extractLsb' 32 32).toNat, d)] }
      else m.resolve w (v.extractLsb' 32 32).toNat d) := by
  unfold M.resolveW
  simp only [hh, hd, Bool.not_true, Bool.false_eq_true, if_false, Option.map_some]
  rfl

/-- What a write to a static route must name to be taken (R376). -/
def RouteFits (m : M) (w : Nat) (v : W64) : Prop :=
  ((m.world w).st = .locked ∨ (m.world w).st = .run) ∧ v.extractLsb' 40 24 = 0#24 ∧ v.getLsbD 32 = false ∧
    m.current (m.worldPart w) (v.extractLsb' 0 32) = true

theorem routeFits_iff :
    (((m.world w).st == .locked || (m.world w).st == .run) && v.extractLsb' 40 24 == 0#24 && !v.getLsbD 32 &&
      m.current (m.worldPart w) (v.extractLsb' 0 32)) = true ↔ RouteFits m w v := by
  simp [RouteFits, and_assoc]

theorem routeW_fits (hh : m.hears w = true) (hk : k < 64) (hf : RouteFits m w v)
    (ht : m.tileAt w ((m.world w).rtsel.extractLsb' 0 13).toNat = some t) :
    m.routeW w k v = some (m.setWT w t { m.wt w t with routes := put (m.wt w t).routes k (parseRoute v) }) := by
  unfold M.routeW
  simp only [hh, Nat.not_le.2 hk, decide_false, Bool.not_true, Bool.or_self, Bool.false_eq_true, if_false, routeFits_iff.2 hf, ht, if_true]

theorem routeW_rejected (hh : m.hears w = true) (hk : k < 64) (hf : ¬ RouteFits m w v) :
    m.routeW w k v = some (m.setWorld w { m.world w with rtrej := (m.world w).rtrej + 1 }) := by
  unfold M.routeW
  simp only [hh, Nat.not_le.2 hk, decide_false, Bool.not_true, Bool.or_self, Bool.false_eq_true, if_false,
    Bool.eq_false_iff.2 (mt routeFits_iff.1 hf)]
  cases m.tileAt w ((m.world w).rtsel.extractLsb' 0 13).toNat <;> rfl

theorem peerW_of (hr : m.responds = true) (hp : p < 16) (hk : k < 64) (hw : (m.port p).dsel.toNat = w) (hs : (m.world w).st = .unlocked) :
    m.peerW p k v = some (m.setWorld w { m.world w with peers := put (m.world w).peers k (keep v 63 1 ||| keep v 32 11) }) := by
  subst hw
  unfold M.peerW
  simp only [hr, Nat.not_le.2 hp, Nat.not_le.2 hk, hs, ne_eq, not_true_eq_false, decide_false, Bool.not_true, Bool.or_self,
    Bool.false_eq_true, if_false]

/-- Numbers of what is under way for a world, or staged, as an invalidation begins (R127, R385). -/
def underWay (m : M) (w : Nat) : List Nat :=
  ((m.acc.filter fun a => a.world == w).map fun a => a.id) ++ ((m.walks.filter fun k => k.world == w).map fun k => k.id)
    ++ ((m.copies.filter fun k => k.world == w).map fun k => k.id) ++ (m.stagedOf w).map fun st => st.id

theorem invalidate_of (hh : m.hears w = true) (hv : v.getLsbD 0 = true) (hi : (m.world w).inv = false) :
    m.invalidate w v = some ((m.dropLeaves w).setWorld w { m.world w with inv := true, invWait := underWay m w }) := by
  unfold M.invalidate
  simp only [hh, hv, hi, Bool.not_true, Bool.or_self, Bool.false_eq_true, if_false]
  rfl

theorem invalidated_of (hi : (m.world w).inv = true) (ha : ∀ a ∈ m.acc, a.id ∈ (m.world w).invWait → a.phase = .done true 0)
    (hw : ∀ k ∈ m.walks, k.id ∉ (m.world w).invWait) (hc : ∀ k ∈ m.copies, k.id ∉ (m.world w).invWait)
    (hs : ∀ st ∈ m.stagedOf w, st.id ∉ (m.world w).invWait) :
    m.invalidated w = some ((m.dropLeaves w).setWorld w { m.world w with inv := false, invWait := [] }) := by
  have hacc : (m.acc.any fun a => (m.world w).invWait.contains a.id && a.phase != .done true 0) = false :=
    List.any_eq_false.2 fun a hmem h => by
      obtain ⟨h1, h2⟩ := Bool.and_eq_true_iff.1 h
      exact bne_iff_ne.1 h2 (ha a hmem (List.contains_iff_mem.1 h1))
  have hwalks : (m.walks.any fun k => (m.world w).invWait.contains k.id) = false :=
    List.any_eq_false.2 fun k hmem h => hw k hmem (List.contains_iff_mem.1 h)
  have hcopies : (m.copies.any fun k => (m.world w).invWait.contains k.id) = false :=
    List.any_eq_false.2 fun k hmem h => hc k hmem (List.contains_iff_mem.1 h)
  have hstaged : ((m.stagedOf w).any fun st => (m.world w).invWait.contains st.id) = false :=
    List.any_eq_false.2 fun st hmem h => hs st hmem (List.contains_iff_mem.1 h)
  unfold M.invalidated
  simp only [hi, hacc, hwalks, hcopies, hstaged, Bool.not_true, Bool.or_self, Bool.false_eq_true, if_false]

/-- No tile holds a translation of a world whose leaves have been dropped (R385). -/
theorem dropLeaves_tlb (m : M) (w t : Nat) : ∀ e ∈ ((m.dropLeaves w).tile t).tlb, e.1 / 2 ^ 42 ≠ w := by
  intro e he
  have htile : ((m.dropLeaves w).tile t).tlb = (m.tile t).tlb.filter fun (k, _) => k / 2 ^ 42 != w := by
    unfold M.dropLeaves M.tile mget
    rw [look_mapV]
    cases look m.tiles t <;> rfl
  rw [htile] at he
  simpa using (List.mem_filter.1 he).2

end

/-- Settles O44: the writes that act. -/
theorem windowWritesAct : Obligations.WindowWritesAct := by
  intro w p k t v base fits at'
  refine ⟨?tqbase, ?tqhead, ?resolve, ?route, ?rejected, ?modid, ?peer, ?invalidate, ?invalidated⟩
  case tqbase => exact happens_of (fun m => m.tqbase w v) (fun _ => rfl) fun m ⟨hh, ho, hv⟩ => tqbase_of hh ho hv
  case tqhead =>
    exact happens_of (fun m => if m.hears w then some (m.setWorld w ((m.world w).moveHead v)) else none) (fun _ => rfl)
      fun m hh => if_pos hh
  case resolve =>
    intro d hd
    constructor
    · exact happens_of (fun m => m.resolveW w v) (fun _ => rfl) fun m ⟨hh, hq⟩ => by
        rw [resolveW_eq hh hd, inQuiesce_eq_false hq]; rfl
    · exact happens_of (fun m => m.resolveW w v) (fun _ => rfl) fun m ⟨hh, q, hp, hq⟩ => by
        rw [resolveW_eq hh hd, inQuiesce_eq_true hp hq]; rfl
  case route => exact happens_of (fun m => m.routeW w k v) (fun _ => rfl) fun m ⟨hh, hk, hf, ht⟩ => routeW_fits hh hk hf ht
  case rejected => exact happens_of (fun m => m.routeW w k v) (fun _ => rfl) fun m ⟨hh, hk, hf⟩ => routeW_rejected hh hk hf
  case modid =>
    exact happens_of (fun m => if !m.responds || m.hearth.modid.isSome then none
      else some { m with hearth := { m.hearth with modid := some (v.extractLsb' 0 6) } }) (fun _ => rfl)
      fun m ⟨hr, hn⟩ => if_neg (by simp [hr, hn])
  case peer => exact happens_of (fun m => m.peerW p k v) (fun _ => rfl) fun m ⟨hr, hp, hk, hw, hs⟩ => peerW_of hr hp hk hw hs
  case invalidate => exact happens_of (fun m => m.invalidate w v) (fun _ => rfl) fun m ⟨hh, hv, hi⟩ => invalidate_of hh hv hi
  case invalidated =>
    intro s hi ha hw hc hs
    refine ⟨_, event_of_some (f := fun m => m.invalidated w) (invalidated_of hi ha hw hc hs), ?_, fun t => dropLeaves_tlb s.m w t⟩
    simp

open Machine

/-! ## TDISP and SPDM messages -/

theorem put_put {β : Type} : ∀ (l : AMap β) (k : Nat) (a b : β), put (put l k a) k b = put l k b
  | [], k, a, b => by simp [put]
  | (j, c) :: l, k, a, b => by
    by_cases hlt : k < j
    · simp [put, hlt]
    · by_cases heq : j = k
      · simp [put, heq]
      · simp [put, hlt, heq, put_put l k a b]

theorem M.setWorld_setWorld (m : M) (w : Nat) (a b : World) : (m.setWorld w a).setWorld w b = m.setWorld w b := by
  unfold M.setWorld
  simp only [put_put]

section

variable {m : M} {w p k period val : Nat} {fr : FRec}

/-- The world hears its messages at once: no request of it waits, it is not being stopped, and no quiesce holds it (R392). -/
def HearsNow (m : M) (w : Nat) : Prop :=
  m.hears w = true ∧ (m.world w).tdispWait = [] ∧ (m.world w).stopping = none ∧
    ∀ q, (m.world w).part = some q → (m.part q).quiesce = 0

/-- A request waits for the end of a quiesce, of what came before it, of a stop, or of the world's quench (R392). -/
def tdispHeld (m : M) (w k : Nat) : Bool :=
  inQuiesce m w || !(m.world w).tdispWait.isEmpty || (m.world w).stopping.isSome ||
    (k == 3 && (m.world w).st == .error && (m.world w).quench)

theorem tdispReq_eq (hh : m.hears w = true) :
    m.tdispReq w k = some (if tdispHeld m w k then m.setWorld w { m.world w with tdispWait := (m.world w).tdispWait ++ [k] }
      else m.tdisp w k) := by
  unfold M.tdispReq tdispHeld inQuiesce
  simp only [hh, Bool.not_true, Bool.false_eq_true, if_false]
  cases (m.world w).part <;> rfl

theorem tdispReq_now (hc : HearsNow m w) (hq : k = 3 → (m.world w).st = .error → (m.world w).quench = false) :
    m.tdispReq w k = some (m.tdisp w k) := by
  obtain ⟨hh, hw, hs, hp⟩ := hc
  have hheld : tdispHeld m w k = false := by
    unfold tdispHeld
    rw [inQuiesce_eq_false hp, hw, hs]
    by_cases hk : k = 3
    · by_cases he : (m.world w).st = .error
      · simp [hq hk he]
      · simp [he]
    · simp [hk]
  rw [tdispReq_eq hh, hheld]
  rfl

theorem tdispReq_held (hh : m.hears w = true) (hheld : tdispHeld m w k = true) :
    m.tdispReq w k = some (m.setWorld w { m.world w with tdispWait := (m.world w).tdispWait ++ [k] }) := by
  rw [tdispReq_eq hh, hheld]; rfl

theorem lock_of (hs : (m.world w).st = .unlocked) (hp : (m.world w).part.isSome = true) (hi : (m.world w).sess.ide = true)
    (hsec : (m.world w).sess.secured = true) : m.tdisp w 1 = (m.setWorld w { m.world w with st := .locked }).answer w 1 [] := by
  unfold M.tdisp M.lock
  rw [if_pos rfl]
  exact if_pos (by simp [hs, hp, hi, hsec])

theorem start_of (hs : (m.world w).st = .locked) (hm : m.mayStart w = true) (hp : (m.world w).part = some p) :
    m.tdisp w 2 = ((m.setWorld w { m.world w with st := .run, stopped := false }).setPart p
      { m.part p with skip := (m.part p).skip.filter (· != w) }).answer w 2 [] := by
  unfold M.tdisp M.start
  simp only [hs, hm, hp, decide_true, Bool.and_self, if_true, OfNat.ofNat_ne_one, if_false]
  rfl

theorem start_error (h : ¬ ((m.world w).st = .locked ∧ m.mayStart w = true)) : m.tdisp w 2 = m.tdispError w := by
  unfold M.tdisp M.start
  rw [if_neg (by decide), if_pos rfl]
  exact if_neg (by simpa using h)

theorem stopIf_run (hs : (m.world w).st = .run) (hn : (m.world w).stopping = none) :
    m.tdisp w 3 = (m.haltWorld w).setWorld w { (m.haltWorld w).world w with stopping := some none } := by
  unfold M.tdisp M.stopIf M.stopBegin
  simp [hs, hn]

/-- The keys of a world are withdrawn (R386). -/
def keyless (m : M) (w : Nat) : M := m.setWorld w { m.world w with keys := [], mac := false, gens := [], macGen := 0 }

/-- A world without keys unlocks (R383). -/
def unlocks (m : M) (w : Nat) : M := (keyless m w).setWorld w { (keyless m w).world w with st := .unlocked }

theorem stopIf_locked (hs : (m.world w).st = .locked) : m.tdisp w 3 = (unlocks m w).answer w 3 [] := by
  unfold M.tdisp M.stopIf
  rw [if_neg (by decide), if_neg (by decide)]
  dsimp only
  rw [hs]
  rfl

theorem stopIf_error (hs : (m.world w).st = .error) : m.tdisp w 3 = (m.setWorld w { m.world w with st := .unlocked }).answer w 3 [] := by
  unfold M.tdisp M.stopIf
  rw [if_neg (by decide), if_neg (by decide)]
  dsimp only
  rw [hs]

/-- A world's quench is over (R393). -/
theorem quenchEnds_quiet (hq : (m.world w).quench = true) (ha : ∀ a ∈ m.acc, a.world = w → a.settled = true) :
    m.quenchEnds (8192 + w) = some (m.worldQuenched w) := by
  have hall : (m.acc.all fun a => a.world != w || a.settled) = true :=
    List.all_eq_true.2 fun a hmem => by
      by_cases hw : a.world = w
      · rw [ha a hmem hw, Bool.or_true]
      · simp [hw]
  unfold M.quenchEnds
  simp only [Nat.le_add_right, if_true, Nat.add_sub_cancel_left, hq, hall, Bool.and_self]

theorem worldQuenched_stops {x : Option FRec} (hs : (m.world w).stopping = some x) :
    m.worldQuenched w = ((worldQuiet m w).stopEnds w x).hearIf w := by
  have hstop : ((worldQuiet m w).world w).stopping = some x := by unfold worldQuiet; rw [M.world_setWorld_self]; exact hs
  change ((((worldQuiet m w).world w).stopping.map ((worldQuiet m w).stopEnds w)).getD (worldQuiet m w)).hearIf w = _
  rw [hstop]
  rfl

theorem stopEnds_record : m.stopEnds w (some fr) =
    ((keyless (m.closeQueues w) w).setWorld w { (keyless (m.closeQueues w) w).world w with st := .error, stopping := none }).outOfBand w fr := rfl

theorem stopEnds_asked : m.stopEnds w none =
    (unlocks (m.closeQueues w) w).setWorld w { (unlocks (m.closeQueues w) w).world w with
      stopping := none, sess := { ((unlocks (m.closeQueues w) w).world w).sess with out := [3] } } := by
  change ((keyless (m.closeQueues w) w).setWorld w { (keyless (m.closeQueues w) w).world w with st := .unlocked, stopping := none }).setWorld w
    { ((keyless (m.closeQueues w) w).setWorld w { (keyless (m.closeQueues w) w).world w with st := .unlocked, stopping := none }).world w with
      sess := { (((keyless (m.closeQueues w) w).setWorld w
        { (keyless (m.closeQueues w) w).world w with st := .unlocked, stopping := none }).world w).sess with out := [3] } } = _
  unfold unlocks
  simp only [M.setWorld_setWorld, M.world_setWorld_self]

/-- The session of a world is changed. -/
def setSess (m : M) (w : Nat) (f : Session → Session) : M := m.setWorld w { m.world w with sess := f (m.world w).sess }

/-- The session of a world has ended (R395). -/
def sessEnded (m : M) (w : Nat) : M := setSess m w fun s => { s with opened := false, secured := false }

theorem endSession_idle (hh : m.hears w = true) (ho : (m.world w).sess.opened = true)
    (hs : (m.world w).st = .unlocked ∨ (m.world w).st = .error) : m.endSession w = some (sessEnded m w) := by
  unfold M.endSession sessEnded setSess
  rcases hs with hs | hs <;> simp only [hh, ho, hs, Bool.not_true, Bool.or_self, Bool.false_eq_true, if_false]

theorem endSession_locked (hh : m.hears w = true) (ho : (m.world w).sess.opened = true) (hs : (m.world w).st = .locked) :
    m.endSession w = some (unlocks (sessEnded m w) w) := by
  unfold M.endSession sessEnded setSess
  simp only [hh, ho, hs, Bool.not_true, Bool.or_self, Bool.false_eq_true, if_false]
  rfl

theorem endSession_run (hh : m.hears w = true) (ho : (m.world w).sess.opened = true) (hs : (m.world w).st = .run) :
    m.endSession w = some ((sessEnded m w).stopWorld w .heartbeatLost 0) := by
  unfold M.endSession sessEnded setSess
  simp only [hh, ho, hs, Bool.not_true, Bool.or_self, Bool.false_eq_true, if_false]

end

/-- Settles O45: what each message does, and how a stop ends. -/
theorem trustMessagesAct : Obligations.TrustMessagesAct := by
  intro w p period val block nonce key hears calm sess asks safe none' kl ul quenched still
  have hreq {k : Nat} {i : Instr} {c : M → Prop} {e : M → M} (he : ∀ s, exec i s = event s fun m => m.tdispReq w k)
      (h : ∀ m, c m → m.tdispReq w k = some (e m)) : Happens i c e := happens_of _ he h
  have hask {k : Nat} {i : Instr} {ws : M → List W64} (he : ∀ s, exec i s = event s fun m => m.query w k (ws m)) : asks i k ws :=
    happens_of _ he fun m hh => if_pos hh
  have hnow {m : M} {k : Nat} {st : Tdisp} (hc : calm m) (hs : (m.world w).st = st) (hne : st ≠ .error) :
      m.tdispReq w k = some (m.tdisp w k) :=
    tdispReq_now hc fun _ he => absurd (hs.symm.trans he) hne
  have hquench {c : M → Prop} {e : M → M} (h : ∀ m, c m → m.quenchEnds (8192 + w) = some (e m)) : Happens (.quenchComplete (8192 + w)) c e :=
    happens_of (fun m => m.quenchEnds (8192 + w)) (fun _ => rfl) h
  refine ⟨?lock, ?start, ?startError, ?stopRun, ?stopLocked, ?stopped, ?stoppedRecord, ?stopError, ?waits, ?stopWaits,
    hask fun _ => rfl, hask fun _ => rfl, hask fun _ => rfl, hask fun _ => rfl, hask fun _ => rfl, hask fun _ => rfl, hask fun _ => rfl,
    hask fun _ => rfl, hask fun _ => rfl, hask fun _ => rfl, ?measure, ?shape, ?keyBusy, ?keyExchange, ?finish, ?heartbeat, ?keyUpdate,
    ?install, ?ide, ?endIdle, ?endLocked, ?endRun, ?lost, ?integrity⟩
  case lock =>
    exact hreq (k := 1) (fun _ => rfl) fun m ⟨hc, hs, hp, hi, hsec⟩ => (hnow hc hs nofun).trans (congrArg some (lock_of hs hp hi hsec))
  case start => exact hreq (k := 2) (fun _ => rfl) fun m ⟨hc, hs, hm, hp⟩ => (hnow hc hs nofun).trans (congrArg some (start_of hs hm hp))
  case startError =>
    exact hreq (k := 2) (fun _ => rfl) fun m ⟨hc, hn⟩ => (tdispReq_now (k := 2) hc nofun).trans (congrArg some (start_error hn))
  case stopRun => exact hreq (k := 3) (fun _ => rfl) fun m ⟨hc, hs⟩ => (hnow hc hs nofun).trans (congrArg some (stopIf_run hs hc.2.2.1))
  case stopLocked => exact hreq (k := 3) (fun _ => rfl) fun m ⟨hc, hs⟩ => (hnow hc hs nofun).trans (congrArg some (stopIf_locked hs))
  case stopped =>
    exact hquench fun m ⟨⟨hq, ha⟩, hs⟩ => by rw [quenchEnds_quiet hq ha, worldQuenched_stops hs, stopEnds_asked]; rfl
  case stoppedRecord =>
    intro fr
    exact hquench fun m ⟨⟨hq, ha⟩, hs⟩ => by rw [quenchEnds_quiet hq ha, worldQuenched_stops hs, stopEnds_record]; rfl
  case stopError =>
    exact hreq (k := 3) (fun _ => rfl) fun m ⟨hc, hs, hq⟩ => (tdispReq_now hc fun _ _ => hq).trans (congrArg some (stopIf_error hs))
  case waits =>
    exact hreq (k := 1) (fun _ => rfl) fun m ⟨hh, hp, hq⟩ => tdispReq_held hh (by unfold tdispHeld; rw [inQuiesce_eq_true hp hq]; rfl)
  case stopWaits =>
    refine hreq (k := 3) (fun _ => rfl) fun m ⟨hc, hs, hq⟩ => (tdispReq_held hc.1 (by simp [tdispHeld, hs, hq])).trans ?_
    rw [hc.2.1]
    rfl
  case measure =>
    exact happens_of (fun m => if block = 0xF0 then
        m.freeVal.2.query w 14 (m.shapeReport w ++ (List.range 4).map (fun j => nonce.extractLsb' (64 * j) 64) ++ [Config.freeWord m.freeVal.1 0])
      else m.query w 14 []) (fun _ => rfl) fun m ⟨hh, hb⟩ => (if_neg hb).trans (if_pos hh)
  case shape =>
    exact happens_of (fun m => if block = 0xF0 then
        m.freeVal.2.query w 14 (m.shapeReport w ++ (List.range 4).map (fun j => nonce.extractLsb' (64 * j) 64) ++ [Config.freeWord m.freeVal.1 0])
      else m.query w 14 []) (fun _ => rfl) fun m ⟨hh, hb⟩ => (if_pos hb).trans (if_pos hh)
  case keyBusy =>
    rintro s ⟨(hh : s.m.hears w = true), ho⟩
    change execKeyExchange w period s = _
    unfold execKeyExchange
    exact event_of_some ((if_neg (by simp [hh])).trans (if_pos ho))
  case keyExchange =>
    rintro s ⟨(hh : s.m.hears w = true), ho⟩
    change execKeyExchange w period s = _
    unfold execKeyExchange
    exact event_of_some ((if_neg (by simp [hh])).trans (if_neg (by simp [ho])))
  case finish =>
    rintro s ⟨(hh : s.m.hears w = true), ho⟩
    change execFinish w s = _
    unfold execFinish
    exact event_of_some (if_neg (by simp [hh, ho]))
  case heartbeat =>
    exact happens_of (fun m => m.secured w 17) (fun _ => rfl) fun m ⟨hh, hs⟩ => if_pos (Bool.and_eq_true_iff.2 ⟨hh, hs⟩)
  case keyUpdate =>
    exact happens_of (fun m => m.secured w 18) (fun _ => rfl) fun m ⟨hh, hs⟩ => if_pos (Bool.and_eq_true_iff.2 ⟨hh, hs⟩)
  case install =>
    rintro s ⟨⟨(hh : s.m.hears w = true), hs⟩, hl⟩
    change execVendorDefinedKeyInstall w ⟨key, val⟩ s = _
    unfold execVendorDefinedKeyInstall
    refine event_of_some ((if_neg (by simp [hh, hs, hl])).trans ?_)
    cases key with
    | none => rfl
    | some i => simp only [List.contains_iff_mem]
  case ide =>
    rintro s ⟨(hh : s.m.hears w = true), hs⟩
    change execIdeKm w s = _
    unfold execIdeKm
    exact event_of_some (if_neg (by simp [hh, hs]))
  case endIdle => exact happens_of (fun m => m.endSession w) (fun _ => rfl) fun m ⟨hh, ho, hs⟩ => endSession_idle hh ho hs
  case endLocked => exact happens_of (fun m => m.endSession w) (fun _ => rfl) fun m ⟨hh, ho, hs⟩ => endSession_locked hh ho hs
  case endRun => exact happens_of (fun m => m.endSession w) (fun _ => rfl) fun m ⟨hh, ho, hs⟩ => endSession_run hh ho hs
  case lost =>
    intro s hs
    change execHeartbeatLost w s = _
    unfold execHeartbeatLost
    exact event_of_some (if_pos hs)
  case integrity =>
    rintro s ⟨hi, hs⟩
    change execIdeIntegrityFailure w s = _
    unfold execIdeIntegrityFailure
    exact event_of_some (if_pos (by simp [hi, hs]))

end Sys2Proof

/-! PROOFS. Commands, RESHAPE and power, links and other modules, errors and reset (O46 to O49). -/

namespace Sys2Proof

open Machine

/-! ## Commands to the hearth -/

section

variable {m : M} {i p : Nat} {c : HCmd} {data : List Byte}

theorem M.endIf_done {b : Bool} (m1 : M) (hb : b = false) : m.endIf i c b m1 = m1.endCmd i c 0 := by rw [hb]; rfl

theorem M.endIf_refused {b : Bool} (m1 : M) (hb : b = true) : m.endIf i c b m1 = m.endCmd i c 1 := by rw [hb]; rfl

/-- A record that the channel takes: it responds, and the record has its size (R404). -/
theorem command_of (hr : m.responds = true) (hp : p < 16) (hl : data.length = 64) :
    m.command p data = some
      (if 8 ≤ m.hearth.cmds.length then
        ({ m with hearth := { m.hearth with nextseq := m.hearth.nextseq + 1 } } : M).commandWord p m.hearth.nextseq 3
      else if (parseCmd p m.hearth.nextseq data).bad then
        ({ m with hearth := { m.hearth with nextseq := m.hearth.nextseq + 1 } } : M).commandWord p m.hearth.nextseq 2
      else { m with hearth := { m.hearth with nextseq := m.hearth.nextseq + 1,
                                              cmds := m.hearth.cmds ++ [parseCmd p m.hearth.nextseq data] } }) := by
  unfold M.command
  simp only [hr, Nat.not_le.2 hp, hl, ne_eq, not_true_eq_false, decide_false, Bool.not_true, Bool.or_self, Bool.false_eq_true, if_false]
  split
  · rfl
  · split <;> rfl

/-- The tiles that a command's items name. -/
def cutTiles (m : M) (c : HCmd) : List Nat := sortNat ((m.items c).map itemTile).eraseDups

/-- The refusals of a CUT whose items are well made. -/
def cutRefused (m : M) (c : HCmd) (full : Bool) : Bool :=
  (m.part c.part).used || full || m.hearth.needService || (cutTiles m c).any (fun t => (m.partOf t).isSome) || !m.shapeOk c.part (cutTiles m c)

theorem cutRefused_eq_false_iff {full : Bool} : cutRefused m c full = false ↔
    (m.part c.part).used = false ∧ full = false ∧ m.hearth.needService = false ∧ (∀ t ∈ cutTiles m c, m.partOf t = none) ∧
      m.shapeOk c.part (cutTiles m c) = true := by
  simp [cutRefused, and_assoc]

theorem cutP_malformed {full : Bool} (hc : m.cmd i 1 = some c)
    (h : ¬ ∀ e ∈ m.items c, itemTileOk e = true ∧ e.extractLsb' 32 32 = 0#32) : m.cutP i full = some (m.endCmd i c 2) := by
  have hany : ((m.items c).any fun e => !itemTileOk e || e.extractLsb' 32 32 != 0#32) = true := by
    simp only [not_forall] at h
    obtain ⟨e, he, h⟩ := h
    exact List.any_eq_true.2 ⟨e, he, by simpa [Classical.or_iff_not_imp_left] using h⟩
  unfold M.cutP
  simp only [hc, Option.map_some, hany, if_true]

theorem cutP_wellMade {full : Bool} (hc : m.cmd i 1 = some c)
    (h : ∀ e ∈ m.items c, itemTileOk e = true ∧ e.extractLsb' 32 32 = 0#32) :
    m.cutP i full = some (m.endIf i c (cutRefused m c full)
      (((cutTiles m c).foldl M.quenchTile m).setPart c.part { used := true, tiles := cutTiles m c, floor := m.gen })) := by
  have hany : ((m.items c).any fun e => !itemTileOk e || e.extractLsb' 32 32 != 0#32) = false :=
    List.any_eq_false.2 fun e he => by simp [h e he]
  unfold M.cutP cutRefused cutTiles
  simp only [hc, Option.map_some, hany, Bool.false_eq_true, if_false]

theorem dissolveP_of (hc : m.cmd i 2 = some c) (hu : (m.part c.part).used = true) (hw : (m.part c.part).worlds = []) :
    m.dissolveP i = some
      (let m1 := ((m.part c.part).tiles.foldl M.goClock ((m.part c.part).tiles.foldl M.quenchTile m)).setPart c.part {}
       ({ m1 with hearth := { m1.hearth with frozen := m1.hearth.frozen.filter (· != c.part) } } : M).endCmd i c 0) := by
  unfold M.dissolveP
  simp only [hc, Option.map_some]
  exact congrArg some (M.endIf_done _ (by simp [hu, hw]))

theorem dissolveP_refused (hc : m.cmd i 2 = some c) (h : (m.part c.part).used = false ∨ (m.part c.part).worlds ≠ []) :
    m.dissolveP i = some (m.endCmd i c 1) := by
  unfold M.dissolveP
  simp only [hc, Option.map_some]
  exact congrArg some (M.endIf_refused _ (by simpa using h))

theorem bindW_of (hc : m.cmd i 3 = some c) (hu : (m.part c.part).used = true) (hp : (m.world c.world).part = none)
    (hs : (m.world c.world).st = .unlocked) (hl : (m.part c.part).worlds.length < 16) :
    m.bindW i = some (((m.setPart c.part { m.part c.part with worlds := (m.part c.part).worlds ++ [c.world] }).setWorld c.world
      { m.world c.world with part := some c.part }).endCmd i c 0) := by
  unfold M.bindW
  simp only [hc, Option.map_some]
  exact congrArg some (M.endIf_done _ (by simp [hu, hp, hs, hl]))

theorem bindW_refused (hc : m.cmd i 3 = some c)
    (h : (m.part c.part).used = false ∨ (m.world c.world).part ≠ none ∨ (m.world c.world).st ≠ .unlocked ∨
      16 ≤ (m.part c.part).worlds.length) : m.bindW i = some (m.endCmd i c 1) := by
  unfold M.bindW
  simp only [hc, Option.map_some]
  exact congrArg some (M.endIf_refused _ (by simpa [Option.isSome_iff_ne_none, or_assoc] using h))

theorem unbindW_of {pi : Nat} (hc : m.cmd i 4 = some c) (hp : (m.world c.world).part = some pi)
    (hs : (m.world c.world).st = .unlocked ∨ (m.world c.world).st = .error) :
    m.unbindW i = some (((m.quenchWorld c.world).leavePart c.world pi).endCmd i c 0) := by
  unfold M.unbindW
  simp only [hc, Option.map_some, hp]
  exact congrArg some (M.endIf_done _ (by rcases hs with h | h <;> rw [h] <;> rfl))

theorem unbindW_refused (hc : m.cmd i 4 = some c)
    (h : (m.world c.world).part = none ∨ (m.world c.world).st = .locked ∨ (m.world c.world).st = .run) :
    m.unbindW i = some (m.endCmd i c 1) := by
  unfold M.unbindW
  simp only [hc, Option.map_some]
  cases hp : (m.world c.world).part with
  | none => rfl
  | some pi =>
    have hs : (m.world c.world).st = .locked ∨ (m.world c.world).st = .run := h.resolve_left (by simp [hp])
    exact congrArg some (M.endIf_refused _ (by simpa using hs))

theorem evictW_of (hc : m.cmd i 9 = some c) (hs : (m.world c.world).st = .run) :
    m.evictW i = some ((m.stopWorld c.world .machineCheck 6).endCmd i c 0) := by
  unfold M.evictW
  simp only [hc, Option.map_some]
  exact congrArg some (M.endIf_done _ (by simp [hs]))

theorem evictW_refused (hc : m.cmd i 9 = some c) (hs : (m.world c.world).st ≠ .run) : m.evictW i = some (m.endCmd i c 1) := by
  unfold M.evictW
  simp only [hc, Option.map_some]
  exact congrArg some (M.endIf_refused _ (by simp [hs]))

/-- The entry that a QUANTUM writes, its reserved bits dropped (R7, R327). -/
def quantumEntry (m : M) (c : HCmd) : W64 := ((m.items c).headD 0) &&& 0x000FFFFF0000C7FF#64

/-- The checks of a QUANTUM (Table 22-1). -/
def QuantumFits (m : M) (c : HCmd) : Prop :=
  (m.part c.part).used = true ∧ (qEn (quantumEntry m c) = true →
    16 ≤ qSlice (quantumEntry m c) ∧ qWorld (quantumEntry m c) ∈ (m.part c.part).worlds ∧
    ∀ j < 16, j ≠ c.arg → qEn (mget 0 (m.part c.part).quantum j) = true →
      qWorld (mget 0 (m.part c.part).quantum j) ≠ qWorld (quantumEntry m c))

/-- The refusals of a QUANTUM, as they are evaluated. -/
def quantumRefused (m : M) (c : HCmd) : Bool :=
  !(m.part c.part).used || (qEn (quantumEntry m c) && (decide (qSlice (quantumEntry m c) < 16) ||
    !(m.part c.part).worlds.contains (qWorld (quantumEntry m c)) ||
    (List.range 16).any fun j => j != c.arg && qEn (mget 0 (m.part c.part).quantum j) &&
      qWorld (mget 0 (m.part c.part).quantum j) == qWorld (quantumEntry m c)))

theorem quantumRefused_eq_false_iff : quantumRefused m c = false ↔ QuantumFits m c := by
  simp only [quantumRefused, QuantumFits, Bool.or_eq_false_iff, Bool.not_eq_false', Bool.and_eq_false_iff, decide_eq_false_iff_not,
    Nat.not_lt, List.contains_iff_mem, List.any_eq_false, List.mem_range, bne_iff_ne, Bool.and_eq_true, beq_iff_eq, not_and, and_assoc,
    Classical.or_iff_not_imp_left, Bool.not_eq_false]

theorem quantumP_eq (hc : m.cmd i 7 = some c) :
    m.quantumP i = some (m.endIf i c (quantumRefused m c)
      (m.setPart c.part { m.part c.part with quantum := mset 0 (m.part c.part).quantum c.arg (quantumEntry m c) })) := by
  unfold M.quantumP quantumRefused quantumEntry
  simp only [hc, Option.map_some]

/-- The frames that a GRANT of a partition may take (R384). -/
def FramesFree (m : M) (c : HCmd) (pi : Nat) : Prop :=
  ∀ f ∈ (m.items c).map itemFrame, look m.frames f = none ∧ (m.field (f / 2 ^ 20)).pst < 2 ∧
    ∃ t ∈ (m.part pi).tiles, fieldOf t = f / 2 ^ 20

/-- The refusals of a GRANT, as they are evaluated. -/
def grantRefused (m : M) (c : HCmd) (pi : Nat) : Bool :=
  ((m.items c).map itemFrame).any fun f => (look m.frames f).isSome || !((m.part pi).tiles.any fun t => fieldOf t == f / 2 ^ 20)
    || decide (2 ≤ (m.field (f / 2 ^ 20)).pst)

theorem grantRefused_eq_false_iff {pi : Nat} : grantRefused m c pi = false ↔ FramesFree m c pi := by
  unfold grantRefused FramesFree
  rw [List.any_eq_false]
  refine forall₂_congr fun f _ => ?_
  simp only [Bool.not_eq_true, Bool.or_eq_false_iff, Bool.not_eq_false', List.any_eq_true, beq_iff_eq, decide_eq_false_iff_not, Nat.not_le,
    Option.isSome_eq_false_iff, Option.isNone_iff_eq_none, and_assoc]
  exact and_congr_right fun _ => and_comm

theorem itemsFit {es : List W64} (h : ∀ e ∈ es, itemFrameOk e = true) : (es.any fun e => !itemFrameOk e) = false :=
  List.any_eq_false.2 fun e he => by simp [h e he]

theorem grantF_eq {pi : Nat} (hc : m.cmd i 5 = some c) (hf : ∀ e ∈ m.items c, itemFrameOk e = true) (hp : (m.world c.world).part = some pi) :
    m.grantF i = some (m.endIf i c (grantRefused m c pi)
      { m with frames := ((m.items c).map itemFrame).foldl (fun fr f => put fr f c.world) m.frames }) := by
  unfold M.grantF grantRefused
  simp only [hc, Option.map_some, itemsFit hf, hp, Bool.false_eq_true, if_false]

/-- A frame is held by a world that is locked or runs. -/
def frameHeld (m : M) (f : Nat) : Bool :=
  match look m.frames f with
  | some w => (m.world w).st == .locked || (m.world w).st == .run
  | none => false

theorem frameHeld_iff {f : Nat} : frameHeld m f = true ↔
    ∃ w, look m.frames f = some w ∧ ((m.world w).st = .locked ∨ (m.world w).st = .run) := by
  unfold frameHeld
  cases look m.frames f <;> simp

theorem reclaimF_eq (hc : m.cmd i 6 = some c) (hf : ∀ e ∈ m.items c, itemFrameOk e = true) :
    m.reclaimF i = some (m.endIf i c (((m.items c).map itemFrame).any (frameHeld m))
      { m.blankFrames ((m.items c).map itemFrame).contains with frames := ((m.items c).map itemFrame).foldl del m.frames }) := by
  unfold M.reclaimF
  simp only [hc, Option.map_some, itemsFit hf, Bool.false_eq_true, if_false]
  rfl

end

/-- Settles O46: each command's function is evaluated where it may be performed, and where a check refuses it. -/
theorem commandsAct : Obligations.CommandsAct := by
  unfold Obligations.CommandsAct
  intro i p data c
  refine ⟨?held, ?full, ?malformed, ?cut, ?cutRefused, ?cutMalformed, ?dissolve, ?dissolveRefused, ?bind, ?bindRefused, ?unbind,
    ?unbindRefused, ?evict, ?evictRefused, ?quantum, ?quantumRefused, ?grant, ?grantRefused, ?reclaim, ?reclaimRefused⟩
  case held =>
    refine happens_of (fun m => m.command p data) (fun _ => rfl) fun m ⟨⟨hr, hp, hl⟩, h8, hb⟩ => (command_of hr hp hl).trans ?_
    rw [if_neg (Nat.not_le.2 h8), if_neg (by simpa using hb)]
  case full =>
    refine happens_of (fun m => m.command p data) (fun _ => rfl) fun m ⟨⟨hr, hp, hl⟩, h8⟩ => (command_of hr hp hl).trans ?_
    rw [if_pos h8]
  case malformed =>
    refine happens_of (fun m => m.command p data) (fun _ => rfl) fun m ⟨⟨hr, hp, hl⟩, h8, hb⟩ => (command_of hr hp hl).trans ?_
    rw [if_neg (Nat.not_le.2 h8), if_pos hb]
  case cut =>
    rintro s hc hok ⟨hu, hl, hn, ht, hs⟩
    refine event_of_some (f := fun m => m.cutP i (decide (16384 ≤ s.nv.log.length))) ((cutP_wellMade hc hok).trans ?_)
    exact congrArg some (M.endIf_done _ (cutRefused_eq_false_iff.2 ⟨hu, decide_eq_false (Nat.not_le.2 hl), hn, ht, hs⟩))
  case cutRefused =>
    rintro s hc hok hno
    refine event_of_some (f := fun m => m.cutP i (decide (16384 ≤ s.nv.log.length))) ((cutP_wellMade hc hok).trans ?_)
    refine congrArg some (M.endIf_refused _ (by_contra fun h => hno ?_))
    obtain ⟨hu, hl, hn, ht, hs⟩ := cutRefused_eq_false_iff.1 (Bool.not_eq_true _ ▸ h)
    exact ⟨hu, Nat.not_le.1 (of_decide_eq_false hl), hn, ht, hs⟩
  case cutMalformed =>
    rintro s ⟨hc, hno⟩
    exact event_of_some (f := fun m => m.cutP i (decide (16384 ≤ s.nv.log.length))) (cutP_malformed hc hno)
  case dissolve =>
    exact happens_of (fun m => m.dissolveP i) (fun _ => rfl) fun m ⟨hc, hu, hw⟩ => dissolveP_of hc hu hw
  case dissolveRefused =>
    exact happens_of (fun m => m.dissolveP i) (fun _ => rfl) fun m ⟨hc, h⟩ => dissolveP_refused hc h
  case bind =>
    exact happens_of (fun m => m.bindW i) (fun _ => rfl) fun m ⟨hc, hu, hp, hs, hl⟩ => bindW_of hc hu hp hs hl
  case bindRefused =>
    exact happens_of (fun m => m.bindW i) (fun _ => rfl) fun m ⟨hc, h⟩ => bindW_refused hc h
  case unbind =>
    exact fun pi => happens_of (fun m => m.unbindW i) (fun _ => rfl) fun m ⟨hc, hp, hs⟩ => unbindW_of hc hp hs
  case unbindRefused =>
    exact happens_of (fun m => m.unbindW i) (fun _ => rfl) fun m ⟨hc, h⟩ => unbindW_refused hc h
  case evict =>
    exact happens_of (fun m => m.evictW i) (fun _ => rfl) fun m ⟨hc, h⟩ => evictW_of hc h
  case evictRefused =>
    exact happens_of (fun m => m.evictW i) (fun _ => rfl) fun m ⟨hc, h⟩ => evictW_refused hc h
  case quantum =>
    exact happens_of (fun m => m.quantumP i) (fun _ => rfl) fun m ⟨hc, h⟩ =>
      (quantumP_eq hc).trans (congrArg some (M.endIf_done _ (quantumRefused_eq_false_iff.2 h)))
  case quantumRefused =>
    exact happens_of (fun m => m.quantumP i) (fun _ => rfl) fun m ⟨hc, h⟩ =>
      (quantumP_eq hc).trans (congrArg some (M.endIf_refused _ (Bool.eq_true_of_not_eq_false (mt quantumRefused_eq_false_iff.1 h))))
  case grant =>
    exact fun pi => happens_of (fun m => m.grantF i) (fun _ => rfl) fun m ⟨hc, hf, hp, h⟩ =>
      (grantF_eq hc hf hp).trans (congrArg some (M.endIf_done _ (grantRefused_eq_false_iff.2 h)))
  case grantRefused =>
    exact fun pi => happens_of (fun m => m.grantF i) (fun _ => rfl) fun m ⟨hc, hf, hp, h⟩ =>
      (grantF_eq hc hf hp).trans (congrArg some (M.endIf_refused _ (Bool.eq_true_of_not_eq_false (mt grantRefused_eq_false_iff.1 h))))
  case reclaim =>
    refine happens_of (fun m => m.reclaimF i) (fun _ => rfl) fun m ⟨hc, hf, h⟩ =>
      (reclaimF_eq hc hf).trans (congrArg some (M.endIf_done _ (List.any_eq_false.2 fun f hm hh => ?_)))
    obtain ⟨w, hl, hs⟩ := frameHeld_iff.1 hh
    exact hs.elim (h f hm w hl).1 (h f hm w hl).2
  case reclaimRefused =>
    exact happens_of (fun m => m.reclaimF i) (fun _ => rfl) fun m ⟨hc, hf, f, hm, h⟩ =>
      (reclaimF_eq hc hf).trans (congrArg some (M.endIf_refused _ (List.any_eq_true.2 ⟨f, hm, frameHeld_iff.2 h⟩)))

open Machine

/-! ## RESHAPE, FREEZE and POWER -/

section

variable {m : M} {i kind f : Nat} {c : HCmd}

theorem reshapeP_new (hc : m.cmd i 8 = some c) (ha : c.arg = kind) (hs : c.started = false) (hm : ∀ e ∈ m.items c, itemMapOk e = true) :
    m.reshapeP i kind = if m.reshapeOk c.part kind (m.items c) = false then some (m.endCmd i c 1)
      else if (m.part c.part).quiesce != 0 then none
      else some ((m.startCmd i { c with fields := (m.items c).map (·.toNat) }).pushQuiesce c.part 1) := by
  have hany : ((m.items c).any fun e => !itemMapOk e) = false := List.any_eq_false.2 fun e he => by simp [hm e he]
  unfold M.reshapeP
  simp only [hc, Option.bind_some, ha, hs, hany, ne_eq, not_true_eq_false, Bool.false_eq_true, if_true, if_false,
    Bool.not_eq_true']

/-- How many advances of the generation a RESHAPE makes for exclusions on the tiles that it drops (R390). -/
def reshapeLost (m : M) (c : HCmd) : Nat :=
  (m.hearth.pend.filter fun e => (m.part c.part).tiles.contains (exTile e) &&
    !((c.fields.map (BitVec.ofNat 64)).any fun x => itemTile x == exTile e)).length

theorem prepare_ready {n : Nat} {but : Option Nat} (h : m.farOff n but = []) : m.prepare n but = some (true, m) := by
  unfold M.prepare; rw [h]; rfl

theorem reshapeP_atRest (hc : m.cmd i 8 = some c) (ha : c.arg = kind) (hs : c.started = true) (hr : m.atRest c.part = true)
    (hf : m.farOff (reshapeLost m c + 1) (some c.part) = []) :
    m.reshapeP i kind = some ((m.reshape c.part (c.fields.map (BitVec.ofNat 64))).endCmd i c 0) := by
  have hp := prepare_ready hf
  unfold reshapeLost at hp
  unfold M.reshapeP
  simp only [hc, Option.bind_some, ha, hs, hr, hp, ne_eq, not_true_eq_false, Bool.not_true, Bool.false_eq_true, if_false,
    Option.map_some, if_true]

/-- Every world of the partition is open to a read-out, the partition being cut (R342). -/
def FreezeOpen (m : M) (c : HCmd) : Prop :=
  (m.part c.part).used = true ∧ ∀ w ∈ (m.part c.part).worlds, (m.world w).sec.getLsbD 0 = true

/-- The refusals of a FREEZE, as they are evaluated. -/
def freezeRefused (m : M) (c : HCmd) : Bool :=
  !(m.part c.part).used || (m.part c.part).worlds.any fun w => !(m.world w).sec.getLsbD 0

theorem freezeRefused_eq_false_iff : freezeRefused m c = false ↔ FreezeOpen m c := by
  simp [freezeRefused, FreezeOpen]

/-- The state that a FREEZE leaves before its partition is listed as frozen (R342). -/
def frozenState (m : M) (c : HCmd) : M :=
  let p := m.part c.part
  let m1 := ({ m with free := m.free + 1 } : M).hostWrite c.port c.buf (freeBytes m.free (8 * c.nitem))
  let m2 := (m1.launches.filter fun (_, l) => l.part == c.part).foldl (fun (m : M) x => m.completion x.2.wq x.2.seq 5 x.2.lr.irq) m1
  let m3 := (p.tiles.foldl M.haltClock (p.tiles.foldl M.quenchTile (p.worlds.foldl M.freezeWorld m2)))
  m3.setPart c.part { m3.part c.part with latched := none, sw := none }

theorem freezeP_eq (hc : m.cmd i 10 = some c) (hq : (m.part c.part).quiesce = 0) :
    m.freezeP i = if freezeRefused m c then some (m.endCmd i c 1) else
      some (({ frozenState m c with hearth := { (frozenState m c).hearth with
        frozen := c.part :: (frozenState m c).hearth.frozen.filter (· != c.part) } } : M).endCmd i c 0) := by
  unfold M.freezeP freezeRefused
  simp only [hc, Option.bind_some, hq, bne_self_eq_false, Bool.false_eq_true, if_false]
  rfl

/-- The items of a POWER name fields of the module, each once, with nothing in the reserved bits (R439). -/
def PowerItems (m : M) (c : HCmd) : Prop :=
  ((m.items c).map powerField).eraseDups.length = ((m.items c).map powerField).length ∧
    (∀ e ∈ m.items c, powerField e < 80 ∧ e.extractLsb' 2 54 = 0#54) ∧
    ∀ f ∈ (m.items c).map powerField, (m.field f).moving = false

theorem powerP_new (hc : m.cmd i 11 = some c) (hs : c.started = false) (hp : PowerItems m c) :
    m.powerP i = if (m.items c).any m.powerNo then some (m.endCmd i c 1) else
      some ((sortNat ((m.items c).map powerField)).foldl
        (fun (m1 : M) f => m1.powerStart f ((((m.items c).find? fun e => powerField e == f).map powerTarget).getD 0))
        (m.startCmd i { c with fields := (m.items c).map powerField })) := by
  obtain ⟨hd, he, hm⟩ := hp
  have hbad : ((m.items c).any fun e => decide (80 ≤ powerField e) || e.extractLsb' 2 54 != 0#54) = false :=
    List.any_eq_false.2 fun e hx => by simp [(he e hx).1, (he e hx).2]
  have hmoves : (((m.items c).map powerField).any fun f => (m.field f).moving) = false :=
    List.any_eq_false.2 fun f hx => by simp [hm f hx]
  unfold M.powerP
  simp only [hc, Option.bind_some, hs, hd, hbad, hmoves, bne_self_eq_false, Bool.or_self, Bool.false_eq_true, if_false]

theorem powerP_ends (hc : m.cmd i 11 = some c) (hs : c.started = true) (hf : ∀ f ∈ c.fields, (m.field f).moving = false) :
    m.powerP i = some (m.endCmd i c 0) := by
  have hmoves : (c.fields.any fun f => (m.field f).moving) = false := List.any_eq_false.2 fun f hx => by simp [hf f hx]
  unfold M.powerP
  simp only [hc, Option.bind_some, hs, hmoves, if_true, Bool.false_eq_true, if_false]

theorem tokenTake_of {rest : List Nat} (hw : m.hearth.wakes = f :: rest) (hl : (m.fields.filter fun (_, fd) => fd.token).length < 6) :
    m.tokenTake f = some (({ m with hearth := { m.hearth with wakes := rest } } : M).setField f { m.field f with token := true }) := by
  have hno : ¬ (m.hearth.wakes.head? ≠ some f || 6 ≤ (m.fields.filter fun (_, fd) => fd.token).length) = true := by
    simp [hw, Nat.not_le.2 hl]
  unfold M.tokenTake
  rw [if_neg hno, hw]
  rfl

theorem fieldMoved_of (hm : (m.field f).moving = true) (ht : (m.field f).token = false) (hw : f ∉ m.hearth.wakes) :
    m.fieldMoved f = some (if (m.field f).pst = 3 ∨ (m.field f).target = 3 then
        (m.clearField f).setField f { (m.clearField f).field f with pst := (m.field f).target, moving := false }
      else m.setField f { m.field f with pst := (m.field f).target, moving := false }) := by
  have hgo : ¬ (!(m.field f).moving || (m.field f).token || m.hearth.wakes.contains f) = true := by simp [hm, ht, hw]
  unfold M.fieldMoved
  refine (if_neg hgo).trans (congrArg some ?_)
  by_cases h : (m.field f).pst = 3 ∨ (m.field f).target = 3
  · simp only [if_pos h, show (decide ((m.field f).pst = 3) || decide ((m.field f).target = 3)) = true by simpa using h, if_true]
  · simp only [if_neg h, show (decide ((m.field f).pst = 3) || decide ((m.field f).target = 3)) = false by simpa using h,
      Bool.false_eq_true, if_false]

end

theorem exec_reshape {i : Nat} {x : Instr × Nat}
    (hx : x ∈ [(Instr.reshapeGrow i, 0), (.reshapeShrink i, 1), (.reshapeCompact i, 2), (.reshapeMigrate i, 3)]) (s : State) :
    exec x.1 s = event s fun m => m.reshapeP i x.2 := by
  simp only [List.mem_cons, List.not_mem_nil, or_false] at hx
  rcases hx with rfl | rfl | rfl | rfl <;> rfl

/-- Settles O47: RESHAPE, FREEZE, POWER and the field transitions are evaluated case by case. -/
theorem reshapeAndPowerAct : Obligations.ReshapeAndPowerAct := by
  unfold Obligations.ReshapeAndPowerAct
  intro i f c
  refine ⟨fun x hx => ⟨?reshapeBegins, ?reshapeRefused, ?reshapeEnds⟩, ?freeze, ?freezeRefused, ?power, ?powerRefused, ?powerEnds, ?grant,
    ?giveBack, ?moved, ?movedCleared⟩
  case reshapeBegins =>
    refine happens_of (fun m => m.reshapeP i x.2) (exec_reshape hx) fun m ⟨⟨hc, ha, hs, hm⟩, hok, hq⟩ => (reshapeP_new hc ha hs hm).trans ?_
    rw [if_neg (by simp [hok]), if_neg (by simp [hq])]
  case reshapeRefused =>
    exact happens_of (fun m => m.reshapeP i x.2) (exec_reshape hx) fun m ⟨⟨hc, ha, hs, hm⟩, hok⟩ =>
      (reshapeP_new hc ha hs hm).trans (if_pos hok)
  case reshapeEnds =>
    exact happens_of (fun m => m.reshapeP i x.2) (exec_reshape hx) fun m ⟨hc, ha, hs, hr, hf⟩ => reshapeP_atRest hc ha hs hr hf
  case freeze =>
    exact happens_of (fun m => m.freezeP i) (fun _ => rfl) fun m ⟨hc, hq, hopen⟩ =>
      (freezeP_eq hc hq).trans (if_neg (Bool.eq_false_iff.1 (freezeRefused_eq_false_iff.2 hopen)))
  case freezeRefused =>
    refine happens_of (fun m => m.freezeP i) (fun _ => rfl) fun m ⟨hc, hq, h⟩ => (freezeP_eq hc hq).trans (if_pos ?_)
    simpa [freezeRefused] using h
  case power =>
    refine happens_of (fun m => m.powerP i) (fun _ => rfl) fun m ⟨⟨hc, hs, hp⟩, hno⟩ => (powerP_new hc hs hp).trans (if_neg ?_)
    simpa using hno
  case powerRefused =>
    refine happens_of (fun m => m.powerP i) (fun _ => rfl) fun m ⟨⟨hc, hs, hp⟩, hno⟩ => (powerP_new hc hs hp).trans (if_pos ?_)
    exact List.any_eq_true.2 hno
  case powerEnds =>
    exact happens_of (fun m => m.powerP i) (fun _ => rfl) fun m ⟨hc, hs, hf⟩ => powerP_ends hc hs hf
  case grant =>
    exact fun rest => happens_of (fun m => m.tokenTake f) (fun _ => rfl) fun m ⟨hw, hl⟩ => tokenTake_of hw hl
  case giveBack =>
    exact happens_of (fun m => m.tokenGive f) (fun _ => rfl) fun m h => if_pos h
  case moved =>
    exact happens_of (fun m => m.fieldMoved f) (fun _ => rfl) fun m ⟨hm, ht, hw, hp, hg⟩ =>
      (fieldMoved_of hm ht hw).trans (congrArg some (if_neg (not_or.2 ⟨hp, hg⟩)))
  case movedCleared =>
    exact happens_of (fun m => m.fieldMoved f) (fun _ => rfl) fun m ⟨hm, ht, hw, h⟩ =>
      (fieldMoved_of hm ht hw).trans (congrArg some (if_pos h))

open Machine

/-! ## Links, packets and requests of other modules -/

section

variable {m : M} {t l : Nat} {pk : Packet} {r : RemoteReq}

/-- A packet is another partition's, or meets a frozen one (R342, R379). -/
def Foreign (m : M) (t : Nat) (pk : Packet) : Prop :=
  m.partOf t = none ∨ ∃ p, m.partOf t = some p ∧ (pk.ptag ≠ BitVec.ofNat 7 p ∨ p ∈ m.hearth.frozen)

theorem packet_of (ht : tileOk t = true) (hp : pk.port.toNat < 4) (hk : pk.cls ≠ 3) (hf : Foreign m t pk) :
    m.packet t pk = some (((({ m with hearth := { m.hearth with fabricLog := m.hearth.fabricLog ++ [m.fabricEntry t pk] } } : M).stopWorld
      pk.wtag.toNat .machineCheck 2)).post [evWord 1 0, m.fabricEntry t pk]) := by
  unfold M.packet
  rcases hf with hn | ⟨p, hs, hbad⟩
  · simp only [hn, ht, Nat.not_le.2 hp, hk, decide_false, Bool.not_true, Bool.or_self, Bool.false_eq_true, if_false]
  · have hb : (pk.ptag != BitVec.ofNat 7 p || m.hearth.frozen.contains p) = true := by simpa using hbad
    simp only [hs, ht, Nat.not_le.2 hp, hk, hb, decide_false, Bool.not_true, Bool.or_self, Bool.false_eq_true, if_false]

/-- A wharf link's new state, with the accesses on their way over it (R411). -/
theorem linkState_of {up : Bool} (hl : l < 48) (hu : m.hearth.linkUp.contains l = !up) :
    m.linkState l up = some
      (let m1 : M := { m with hearth := { m.hearth with linkUp := if up then l :: m.hearth.linkUp else m.hearth.linkUp.filter (· != l) } }
       ({ m1 with acc := m1.acc.map fun a => if a.link = some l then { a with link := m1.linkTo (m1.partNum a.world) a.homeid } else a } : M).post
        [evWord 5 (l + if up then 256 else 0)]) := by
  have hgo : ¬ (48 ≤ l || m.hearth.linkUp.contains l == up) = true := by
    rw [hu]; cases up <;> simp [Nat.not_le.2 hl]
  unfold M.linkState
  exact if_neg hgo

/-- A request that this module answers: from another module, with a link back, to this module's id, in the address space and
with data of its size (R411, R412). -/
def Answerable (m : M) (r : RemoteReq) : Prop :=
  r.src < 64 ∧ (m.linkTo r.part.toNat r.src).isSome = true ∧ m.hearth.modid = some r.dst ∧ r.va.toNat < 2 ^ 56 ∧
    (r.write = true → r.data.length = r.size) ∧ (r.write = false → r.op = none ∨ r.size = 4 ∨ r.size = 8)

theorem remoteReq_of (ha : Answerable m r) (hw : m.remoteWaits r = false) :
    m.remoteReq r = some { (m.remoteAnswer r).2 with
      hearth := { (m.remoteAnswer r).2.hearth with wharfOut := (m.remoteAnswer r).2.hearth.wharfOut ++ [(r.src, (m.remoteAnswer r).1)] } } := by
  obtain ⟨hs, hl, hd, hv, hdata, hop⟩ := ha
  have hsize : (if r.write then r.data.length == r.size else r.op.isNone || r.size == 4 || r.size == 8) = true := by
    cases hwr : r.write
    · simpa [or_assoc] using hop hwr
    · simpa using hdata hwr
  unfold M.remoteReq
  simp only [hs, hl, hd, hv, hsize, hw, decide_true, beq_self_eq_true, Bool.and_self, Bool.not_true, Bool.or_self, Bool.false_eq_true,
    if_false]

end

/-- Settles O48: each event of a link, a router or another module is evaluated where it acts. -/
theorem linksAndRequestsAct : Obligations.LinksAndRequestsAct := by
  unfold Obligations.LinksAndRequestsAct
  intro t dir vc l pk r
  refine ⟨?stop, ?go, ?packet, ?down, ?up, ?request⟩
  case stop =>
    intro s hs
    change execLinkStop t dir vc s = _
    exact event_of_some (if_pos hs)
  case go =>
    intro s hs
    change execLinkGo t dir vc s = _
    exact event_of_some (if_pos hs)
  case packet => exact happens_of (fun m => m.packet t pk) (fun _ => rfl) fun m ⟨ht, hp, hk, hf⟩ => packet_of ht hp hk hf
  case down =>
    exact happens_of (fun m => m.linkState l false) (fun _ => rfl) fun m ⟨hl, hm⟩ => linkState_of hl (List.contains_iff_mem.2 hm)
  case up =>
    refine happens_of (fun m => m.linkState l true) (fun _ => rfl) fun m ⟨hl, hm⟩ => linkState_of hl ?_
    simpa using hm
  case request =>
    exact happens_of (fun m => m.remoteReq r) (fun _ => rfl) fun m ⟨hs, hl, hd, hv, hdata, hop, hw⟩ =>
      remoteReq_of ⟨hs, hl, hd, hv, hdata, hop⟩ hw

open Machine

/-! ## Errors, alerts, reset and firmware -/

section

variable {m : M} {t w f level line p : Nat} {kind : BitVec 8} {loc : Va} {s : State} {v : W64}

theorem fetchCorrected_of (hl : (m.tile t).latch = some w) :
    m.fetchCorrected t loc = some
      (let m1 := m.setWT w t ((m.wt w t).logError 1 (BitVec.ofNat 56 (loc.toNat / 32 * 32)))
       m1.setTile t { m1.tile t with fetch := del (m1.tile t).fetch (blockKey w loc.toNat) }) := by
  unfold M.fetchCorrected; rw [hl]; rfl

theorem tileError_corrected (hl : (m.tile t).latch = some w) (hk : kind = 3 ∨ kind = 4) :
    m.tileError t kind true = some (m.setWT w t ((m.wt w t).logError kind 0)) := by
  unfold M.tileError
  rw [hl]
  exact if_pos (by simpa using hk)

theorem tileError_uncorrected (hl : (m.tile t).latch = some w) : m.tileError t kind false = some (m.stopWorld w .machineCheck 5) := by
  unfold M.tileError; rw [hl]; rfl

/-- A node of a hash tree that can be repaired: of a field that keeps its state (R397). -/
def RepairNode (m : M) (f level line : Nat) : Prop := f < 80 ∧ level < 10 ∧ line < 2 ^ 30 ∧ (m.field f).pst < 2

/-- The first line beneath the node that a line lies in. -/
def nodeFirst (level line : Nat) : Nat := line / 8 ^ (level + 1) * 8 ^ (level + 1)

/-- The place of a node in an event and in the repair log (R405). -/
def nodePlace (f level line : Nat) : W64 := BitVec.ofNat 64 (f * 2 ^ 56 + nodeFirst level line * 64)

/-- One line beneath a node that does not match is poisoned. -/
def poisonLine (f first : Nat) (ls : AMap (Option LineTag)) (i : Nat) : AMap (Option LineTag) := put ls (f * 2 ^ 30 + first + i) none

theorem repairNode_go (hn : RepairNode m f level line) :
    ¬ (80 ≤ f || 10 ≤ level || 2 ^ 30 ≤ line || 2 ≤ (m.field f).pst) = true := by
  obtain ⟨hf, hv, hl, hp⟩ := hn
  simp only [Nat.not_le.2 hf, Nat.not_le.2 hv, Nat.not_le.2 hl, Nat.not_le.2 hp, decide_false, Bool.or_self, Bool.false_eq_true,
    not_false_eq_true]

theorem treeRepair_matches (hn : RepairNode m f level line) :
    m.treeRepair f level line true = some
      (({ m.rebuilt f level (nodeFirst level line) true with
          hearth := { m.hearth with repairLog := m.hearth.repairLog ++ [nodePlace f level line] } } : M).post
        [evWord 2 0, nodePlace f level line, BitVec.ofNat 64 level]) := by
  unfold M.treeRepair
  exact if_neg (repairNode_go hn)

theorem treeRepair_fails (hn : RepairNode m f level line) :
    m.treeRepair f level line false = some
      ((({ m.rebuilt f level (nodeFirst level line) false with
          lines := (List.range (8 ^ (level + 1))).foldl (poisonLine f (nodeFirst level line)) m.lines } : M).poisonRecs f
            (nodeFirst level line) (8 ^ (level + 1))).post
        [evWord 2 0, nodePlace f level line, BitVec.ofNat 64 (level + 256)]) := by
  unfold M.treeRepair
  exact if_neg (repairNode_go hn)

/-- What a write of FWCTL leaves in its register (R443). -/
def fwctlWritten (s : State) (p : Nat) (v : W64) : M := s.m.setPort p { s.m.port p with fwctl := keep v 8 24 ||| keep v 1 1 }

/-- A write of FWCTL that starts a load. -/
def LoadsFirmware (s : State) (p : Nat) (v : W64) : Prop :=
  s.m.hearth.off = false ∧ p < 16 ∧ v.getLsbD 0 = true ∧ (s.m.hearth.fwst = 1 ∨ s.m.hearth.fwst = 3)

/-- The version of the image that a load finds, if it verifies and is not older than the lowest allowed (R443). -/
def imageFound (s : State) (p : Nat) (v : W64) : Option (BitVec 8) :=
  (Config.imageSvn (s.m.hostRead p (((s.m.port p).fwbuf.extractLsb' 12 44).toNat * 4096) ((v.extractLsb' 8 24).toNat * 4096))).filter
    fun x => s.nv.minSvn ≤ x

/-- A load of an image, its register written already. -/
def loaded (s : State) (p : Nat) (v : W64) : Option (BitVec 8) → State
  | none => { s with m := { fwctlWritten s p v with hearth := { s.m.hearth with fwst := 3 } } }
  | some x => { m := { fwctlWritten s p v with hearth := { s.m.hearth with fwst := 0, svn := x } },
                nv := if v.getLsbD 1 then { s.nv with image := some x, minSvn := x } else s.nv }

theorem M.port_setPort_self (m : M) (p : Nat) (x : Port) : (m.setPort p x).port p = x := by
  simp [M.setPort, M.port]

theorem loadFirmware_of (hl : LoadsFirmware s p v) : s.loadFirmware p v = loaded s p v (imageFound s p v) := by
  obtain ⟨ho, hp, hv, hst⟩ := hl
  have hin : ¬ (s.m.hearth.off || decide (16 ≤ p)) = true := by simp [ho, hp]
  have hgo : ¬ (s.m.hearth.off || 16 ≤ p || !v.getLsbD 0 || (s.m.hearth.fwst ≠ 1 && s.m.hearth.fwst ≠ 3)) = true := by
    rcases hst with h | h <;> simp [ho, hp, hv, h]
  unfold State.loadFirmware
  rw [if_neg hin]
  refine (if_neg hgo).trans ?_
  dsimp only
  rw [M.port_setPort_self]
  change (match imageFound s p v with | none => _ | some x => _) = _
  cases imageFound s p v <;> rfl

theorem loadFirmware_not (ho : s.m.hearth.off = false) (hp : p < 16) (hl : ¬ LoadsFirmware s p v) :
    s.loadFirmware p v = { s with m := fwctlWritten s p v } := by
  have hin : ¬ (s.m.hearth.off || decide (16 ≤ p)) = true := by simp [ho, hp]
  have hgo : (s.m.hearth.off || 16 ≤ p || !v.getLsbD 0 || (s.m.hearth.fwst ≠ 1 && s.m.hearth.fwst ≠ 3)) = true := by
    by_contra h
    exact hl ⟨ho, hp, by simp at h; tauto, by simp at h; tauto⟩
  unfold State.loadFirmware
  rw [if_neg hin]
  exact if_pos hgo

theorem resetModule_image {x : BitVec 8} (hi : s.nv.image = some x) (hx : s.nv.minSvn ≤ x) :
    s.resetModule.m.hearth.fwst = 0 ∧ s.resetModule.m.hearth.svn = x := by
  unfold State.resetModule
  simp only [hi, if_pos hx, and_self]

theorem resetModule_noImage (hi : ∀ x, s.nv.image = some x → x < s.nv.minSvn) : s.resetModule.m.hearth.fwst = 1 := by
  unfold State.resetModule
  cases h : s.nv.image with
  | none => rfl
  | some x => simp only [if_neg (BitVec.not_le.2 (hi x h))]

end

/-- Settles O49: errors, alerts, reset and firmware are evaluated case by case. -/
theorem errorsAndResetAct : Obligations.ErrorsAndResetAct := by
  unfold Obligations.ErrorsAndResetAct
  intro t w f level line p kind loc watts temp v
  refine ⟨?fetch, ?corrected, ?uncorrected, ?repaired, ?poisoned, ?alert, ?trip, ?reset, ?load, ?loadFails, ?noLoad⟩
  case fetch =>
    rintro s ⟨hl, rfl⟩
    change execTileStateError t 1 loc true s = _
    exact event_of_some (fetchCorrected_of hl)
  case corrected =>
    rintro s ⟨hl, hk⟩
    change execTileStateError t kind loc true s = _
    refine event_of_some ((if_neg ?_).trans (tileError_corrected hl hk))
    rcases hk with rfl | rfl <;> decide
  case uncorrected =>
    intro s hl
    change execTileStateError t kind loc false s = _
    exact event_of_some (tileError_uncorrected hl)
  case repaired => exact happens_of (fun m => m.treeRepair f level line true) (fun _ => rfl) fun m hn => treeRepair_matches hn
  case poisoned => exact happens_of (fun m => m.treeRepair f level line false) (fun _ => rfl) fun m hn => treeRepair_fails hn
  case alert =>
    rintro s ⟨hb, hhot⟩
    change execPowerAlert watts temp s = _
    refine event_of_some (if_neg ?_)
    rcases hhot with h | h <;> simp [hb, Nat.not_le.2 h]
  case trip => exact fun s _ => rfl
  case reset =>
    exact fun s => ⟨s.resetModule, rfl, rfl, rfl, rfl, rfl, rfl, rfl, rfl, rfl, rfl, rfl, rfl, rfl, rfl,
      fun x => resetModule_image, resetModule_noImage⟩
  case load =>
    intro s x hl hi
    exact congrArg Host.Outcome.next ((loadFirmware_of hl).trans (congrArg (loaded s p v) hi))
  case loadFails =>
    intro s hl hi
    exact congrArg Host.Outcome.next ((loadFirmware_of hl).trans (congrArg (loaded s p v) hi))
  case noLoad => exact fun s ho hp hl => congrArg Host.Outcome.next (loadFirmware_not ho hp hl)

end Sys2Proof

/-! PROOFS. Exclusions, snapshots and restores (O50). -/

namespace Sys2Proof

open Machine

/-! ## Exclusions, snapshots and restores -/

section

variable {m : M} {p : Nat} {v : W64} {e : W64} {s : State} {im : Image} {ok : Bool}

/-! Events are posted in host memory and in the ports' registers only. -/

theorem M.postTo_keeps (m : M) (p : Nat) (ws : List W64) : (m.postTo p ws).excl = m.excl ∧ (m.postTo p ws).gen = m.gen := by
  unfold M.postTo
  extract_lets pt
  split
  · exact ⟨rfl, rfl⟩
  · split <;> exact ⟨rfl, rfl⟩

theorem M.post_keeps (m : M) (ws : List W64) : (m.post ws).excl = m.excl ∧ (m.post ws).gen = m.gen :=
  List.foldlRecOn (motive := fun x : M => x.excl = m.excl ∧ x.gen = m.gen) _ _ ⟨rfl, rfl⟩ fun x hx p _ =>
    ⟨(M.postTo_keeps x p ws).1.trans hx.1, (M.postTo_keeps x p ws).2.trans hx.2⟩

theorem M.exclude_excl (m : M) (e : W64) : (m.exclude e).excl = m.excl ++ [e] := (M.post_keeps _ _).1

theorem M.exclude_gen (m : M) (e : W64) : (m.exclude e).gen = m.gen + 1 := (M.post_keeps _ _).2

/-- The state in which an exclusion that is new waits to be applied. -/
def pended (m : M) (e : W64) : M := { m with hearth := { m.hearth with pend := m.hearth.pend ++ [e] } }

theorem exclusionDue_cut (h : (m.partOf (exTile e)).isSome = true) : (pended m e).exclusionDue e = none :=
  if_pos (by rw [show (pended m e).partOf (exTile e) = m.partOf (exTile e) from rfl, h, Bool.or_true])

theorem exclusionDue_uncut (h : m.partOf (exTile e) = none) (hf : m.farOff 1 none = []) :
    (pended m e).exclusionDue e = some ((pended m e).exclude e) := by
  have hgo : ¬ (!(pended m e).hearth.pend.contains e || ((pended m e).partOf (exTile e)).isSome) = true := by
    rw [show (pended m e).partOf (exTile e) = m.partOf (exTile e) from rfl, h]
    simp [pended]
  unfold M.exclusionDue
  rw [if_neg hgo, prepare_ready (show (pended m e).farOff 1 none = [] from hf)]
  rfl

/-- An exclusion is in neither the log nor the fuse map. -/
def NewExclusion (s : State) (e : W64) : Prop := s.m.booted = true ∧ e ∉ s.nv.log ∧ e ∉ s.nv.fuse

theorem logExclusion_new (hn : NewExclusion s e) :
    s.logExclusion e = if 16384 ≤ s.nv.log.length then { s with m := { s.m with hearth := { s.m.hearth with needService := true } } }
      else { m := ((pended s.m e).exclusionDue e).getD (pended s.m e), nv := { s.nv with log := s.nv.log ++ [e] } } := by
  obtain ⟨hb, hl, hf⟩ := hn
  unfold State.logExclusion
  refine (if_neg (by simp [hb])).trans (if_neg (by simp [hl, hf]))

/-! Snapshots and restores. -/

/-- What a write of SNAPCTL leaves in its register (R414). -/
def snapctlWritten (m : M) (p : Nat) (v : W64) : M := m.setPort p { m.port p with snapctl := keep v 12 44 ||| keep v 1 2 }

/-- The state from which a snapshot or restore begins: its places are known. -/
def snapPlaced (m : M) (p : Nat) (v : W64) : M :=
  { snapctlWritten m p v with hearth := { m.hearth with snapAt := (snapctlWritten m p v).snapPlaces } }

/-- SNAPCTL takes a write with GO for a snapshot (false) or a restore (true). -/
def SnapHeard (m : M) (p : Nat) (v : W64) (op : Bool) : Prop := m.responds = true ∧ p < 16 ∧ v.getLsbD 0 = true ∧ v.getLsbD 2 = op

theorem snapGo_heard {op : Bool} {k : M → M} (hh : SnapHeard m p v op) :
    m.snapGo p v op k = if m.hearth.snapstat = 1 || !m.booted then some (snapctlWritten m p v)
      else if (snapctlWritten m p v).snapPlaces.isEmpty then some ((snapctlWritten m p v).snapEnds 3)
      else some (k (snapPlaced m p v)) := by
  obtain ⟨hr, hp, hv, ho⟩ := hh
  subst ho
  exact if_neg (by simp only [hr, Nat.not_le.2 hp, hv, decide_false, bne_self_eq_false, Bool.not_true, Bool.or_self, Bool.false_eq_true,
    not_false_eq_true])

theorem snapGo_running {op : Bool} {k : M → M} (hh : SnapHeard m p v op) (hs : m.hearth.snapstat = 1) :
    m.snapGo p v op k = some (snapctlWritten m p v) :=
  (snapGo_heard hh).trans (if_pos (by simp [hs]))

theorem snapGo_noPlaces {op : Bool} {k : M → M} (hh : SnapHeard m p v op) (hb : m.booted = true) (hs : m.hearth.snapstat ≠ 1)
    (hp : (snapctlWritten m p v).snapPlaces = []) : m.snapGo p v op k = some ((snapctlWritten m p v).snapEnds 3) :=
  (snapGo_heard hh).trans ((if_neg (by simpa [hb] using hs)).trans (if_pos (by simp [hp])))

theorem snapGo_starts {op : Bool} {k : M → M} (hh : SnapHeard m p v op) (hb : m.booted = true) (hs : m.hearth.snapstat ≠ 1)
    (hp : (snapctlWritten m p v).snapPlaces ≠ []) : m.snapGo p v op k = some (k (snapPlaced m p v)) :=
  (snapGo_heard hh).trans ((if_neg (by simpa [hb] using hs)).trans (if_neg (by simpa using hp)))

/-- The partitions that are cut. -/
def usedParts (m : M) : List Nat := (m.parts.filter fun (_, p) => p.used).map (·.1)

/-- The partitions that a snapshot brought to rest go on. -/
def goesOn (m0 m : M) : M := (usedParts m0).foldl (fun (m : M) i => if (m.part i).quiesce = 3 then m.resume i else m) m

/-- A restore that fails leaves the fields blank (R415). -/
def fieldsCleared (m : M) : M := ((m.fields.filter fun (_, f) => f.pst ≤ 1).map (·.1)).foldl M.clearField m

theorem snapDone_snapshot (hs : m.hearth.snapstat = 1) (hr : m.hearth.snapRestore = false) (ha : (usedParts m).all m.atRest = true) :
    m.snapDone ok = some (if ok then (goesOn m (m.layImages m.image)).snapEnds 2 else (goesOn m m).snapEnds 4) := by
  have hrest : ¬ (!(usedParts m).all m.atRest) = true := by simp [ha]
  unfold M.snapDone
  refine (if_neg (by simp [hs])).trans ((if_neg (by simp [hr])).trans ((if_neg hrest).trans ?_))
  cases ok <;> rfl

/-- How a restore ends, for the image of its own domain that it finds, if any, and for what the ports report (R415). -/
def restoreEnds (m : M) : Option Image → Bool → M
  | some im, true => (m.load im).snapEnds 2
  | _, _ => (fieldsCleared m).snapEnds 4

theorem restoreEnds_false (m : M) (im : Option Image) : restoreEnds m im false = (fieldsCleared m).snapEnds 4 := by
  cases im <;> rfl

theorem snapDone_restore (hs : m.hearth.snapstat = 1) (hr : m.hearth.snapRestore = true) :
    m.snapDone ok = some (restoreEnds m (m.found.filter fun im => im.domain == m.hearth.domain) ok) := by
  unfold M.snapDone
  refine (if_neg (by simp [hs])).trans ((if_pos hr).trans ?_)
  cases m.found.filter fun im => im.domain == m.hearth.domain with
  | none => rfl
  | some im => cases ok <;> rfl

/-- The image is the one that stands in the restore's places. -/
def StandsIn (m : M) (im : Image) : Prop :=
  im ∈ m.hearth.images ∧ im.places = m.hearth.snapAt ∧ ∀ x ∈ m.hearth.images, x.places = m.hearth.snapAt → x = im

theorem found_of (h : StandsIn m im) : m.found = some im := by
  obtain ⟨hm, hp, hu⟩ := h
  unfold M.found
  cases hf : m.hearth.images.find? fun x => x.places == m.hearth.snapAt with
  | none => exact absurd hp (by simpa using List.find?_eq_none.1 hf im hm)
  | some x => rw [hu x (List.mem_of_find?_eq_some hf) (by simpa using List.find?_some hf)]

theorem found_none (h : ∀ x ∈ m.hearth.images, x.places ≠ m.hearth.snapAt) : m.found = none :=
  List.find?_eq_none.2 fun x hx => by simpa using h x hx

theorem snapDone_load (hs : m.hearth.snapstat = 1) (hr : m.hearth.snapRestore = true) (hi : StandsIn m im)
    (hd : im.domain = m.hearth.domain) : m.snapDone true = some ((m.load im).snapEnds 2) := by
  rw [snapDone_restore hs hr, found_of hi, Option.filter_some, if_pos (by simpa using hd)]
  rfl

theorem snapDone_badImage (hs : m.hearth.snapstat = 1) (hr : m.hearth.snapRestore = true) (hi : StandsIn m im)
    (hd : ok = false ∨ im.domain ≠ m.hearth.domain) : m.snapDone ok = some ((fieldsCleared m).snapEnds 4) := by
  rw [snapDone_restore hs hr, found_of hi, Option.filter_some]
  rcases hd with rfl | hd
  · rw [restoreEnds_false]
  · rw [if_neg (by simpa using hd)]
    rfl

theorem snapDone_noImage (hs : m.hearth.snapstat = 1) (hr : m.hearth.snapRestore = true)
    (hi : ∀ x ∈ m.hearth.images, x.places ≠ m.hearth.snapAt) : m.snapDone ok = some ((fieldsCleared m).snapEnds 4) := by
  rw [snapDone_restore hs hr, found_none hi]
  rfl

end

/-- Settles O50: logging an exclusion, SNAPCTL and the ends of snapshots and restores are evaluated case by case. -/
theorem exclusionsAndSnapshots : Obligations.ExclusionsAndSnapshots := by
  unfold Obligations.ExclusionsAndSnapshots
  intro e p v
  refine ⟨?logged, ?full, ?snapshot, ?restore, ?refused, fun x hx => ⟨?noPlaces, ?running⟩, ?taken, ?lost, ?loaded, ?bad, ?noImage⟩
  case logged =>
    intro s hb hl hf hlen
    have hnew := (logExclusion_new ⟨hb, hl, hf⟩).trans (if_neg (Nat.not_le.2 hlen))
    refine ⟨s.logExclusion e, rfl, ?_⟩
    rw [hnew]
    refine ⟨rfl, fun hp hfar => ?_, fun hp => ?_⟩
    · rw [exclusionDue_uncut hp hfar]
      exact ⟨M.exclude_excl _ e, M.exclude_gen _ e⟩
    · rw [exclusionDue_cut hp]
      exact ⟨rfl, List.mem_append_right _ List.mem_cons_self⟩
  case full =>
    exact fun s hb hl hf hlen => congrArg Host.Outcome.next ((logExclusion_new ⟨hb, hl, hf⟩).trans (if_pos hlen))
  case snapshot =>
    exact happens_of (fun m => m.snapGo p v false M.snapStart) (fun _ => rfl) fun m ⟨hh, hb, hs, hp⟩ => snapGo_starts hh hb hs hp
  case restore =>
    exact happens_of (fun m => m.snapGo p v true M.restoreStart) (fun _ => rfl) fun m ⟨⟨hh, hb, hs, hp⟩, hm⟩ =>
      (snapGo_starts hh hb hs hp).trans (congrArg some (if_pos hm))
  case refused =>
    exact happens_of (fun m => m.snapGo p v true M.restoreStart) (fun _ => rfl) fun m ⟨⟨hh, hb, hs, hp⟩, hm⟩ =>
      (snapGo_starts hh hb hs hp).trans (congrArg some (if_neg (Bool.eq_false_iff.1 hm)))
  case noPlaces =>
    simp only [List.mem_cons, List.not_mem_nil, or_false] at hx
    rcases hx with rfl | rfl
    · exact happens_of (fun m => m.snapGo p v false M.snapStart) (fun _ => rfl) fun m ⟨hh, hb, hs, hp⟩ => snapGo_noPlaces hh hb hs hp
    · exact happens_of (fun m => m.snapGo p v true M.restoreStart) (fun _ => rfl) fun m ⟨hh, hb, hs, hp⟩ => snapGo_noPlaces hh hb hs hp
  case running =>
    simp only [List.mem_cons, List.not_mem_nil, or_false] at hx
    rcases hx with rfl | rfl
    · exact happens_of (fun m => m.snapGo p v false M.snapStart) (fun _ => rfl) fun m ⟨hh, hs⟩ => snapGo_running hh hs
    · exact happens_of (fun m => m.snapGo p v true M.restoreStart) (fun _ => rfl) fun m ⟨hh, hs⟩ => snapGo_running hh hs
  case taken =>
    exact happens_of (fun m => m.snapDone true) (fun _ => rfl) fun m ⟨hs, hr, ha⟩ => snapDone_snapshot hs hr ha
  case lost =>
    exact happens_of (fun m => m.snapDone false) (fun _ => rfl) fun m ⟨hs, hr, ha⟩ => snapDone_snapshot hs hr ha
  case loaded =>
    exact fun im => happens_of (fun m => m.snapDone true) (fun _ => rfl) fun m ⟨hs, hr, hi, hd⟩ => snapDone_load hs hr hi hd
  case bad =>
    exact fun im ok => happens_of (fun m => m.snapDone ok) (fun _ => rfl) fun m ⟨hs, hr, hi, hd⟩ => snapDone_badImage hs hr hi hd
  case noImage =>
    exact fun ok => happens_of (fun m => m.snapDone ok) (fun _ => rfl) fun m ⟨hs, hr, hi⟩ => snapDone_noImage hs hr hi

end Sys2Proof
